-- ==== Sys2Proof/Word.lean ====
section
/-! DEFINITION. The word types of the TRB-32 model (R4, R37, R38). -/

namespace Sys2Proof

/-- One byte of a structure, a buffer or memory. -/
abbrev Byte := BitVec 8

/-- The value of a floating code: NaN, an infinity, or (−1)^neg · m · 2^e, held exactly (R37, R38, R50). -/
inductive Fv where
  | nan
  | inf (neg : Bool)
  | fin (neg : Bool) (m : Nat) (e : Int)
  deriving DecidableEq, Repr

/-- One sparse map: keys strictly rising. An absent key reads as the default the reader names. -/
abbrev Map (α : Type) := List (Nat × α)

end Sys2Proof
end

