-- ==== Sys2Proof/Syntax.lean ====
section
/-! DEFINITION. The commands of the block: one constructor of `Instr` per row of the table of operations and
events, with the row's operands. Times `t` are in ns of the always-on time base, counted from reset release. -/

namespace Sys2Proof

/-- The system values (R128). -/
inductive SysV where
  | tile | tiles | merged | rows
  deriving DecidableEq, Repr

/-- A scalar operand: a literal, a parameter-block slot or a system value (R126). -/
inductive Opnd where
  | lit (v : Nat)
  | slot (n : Nat)
  | sys (v : SysV)
  deriving DecidableEq, Repr

/-- An affine value c + a0·i0 + a1·i1 + a2·i2 + a3·i3 + at·sys.tile (R129). -/
structure Aff where
  c : Opnd
  a : List Opnd := []
  tile : Opnd := .lit 0
  deriving DecidableEq, Repr

/-- The window block of a stream descriptor (R178), fields as stored. -/
structure WinBlk where
  fyM1 : Nat
  fxM1 : Nat
  t0y : Nat
  t0x : Nat
  fload : Nat
  syM1 : Nat
  sxM1 : Nat
  dyM1 : Nat
  dxM1 : Nat
  idil : Nat
  mode : Nat
  pylo : Nat
  pyhi : Nat
  pxlo : Nat
  pxhi : Nat
  c0 : Nat
  cwM1 : Nat
  padConst : Nat
  deriving DecidableEq, Repr

/-- A stream template with its space and base (R136, R174). -/
structure Tmpl where
  format : Nat
  kind : Nat := 0
  space : Nat
  rate : Nat := 0
  counts : List Nat
  strides : List Int
  win : Option WinBlk := none
  outFirst : Aff := ⟨.lit 0, [], .lit 0⟩
  base : Aff
  deriving DecidableEq, Repr

/-- Where a zero point comes from (R35, R137): none, one value, or the array SIDE supplies. -/
inductive ZpSrc where
  | none
  | value (v : Opnd)
  | array
  deriving DecidableEq, Repr

/-- The chain position of an MMA (R137, R140). -/
inductive Chain where
  | sole | opn | cont | close
  deriving DecidableEq, Repr

/-- The orientation of the array (R60). -/
inductive Orient where
  | normal | transposed | weightResident
  deriving DecidableEq, Repr

/-- The operands of MMA (R137). `kOrder` is the order in which the M unit takes the reduction blocks (R139). -/
structure MmaOp where
  m : Aff
  k : Aff
  n : Aff
  orient : Orient := .normal
  stFmt : Nat
  mvFmt : Nat
  group : Nat := 0
  stScale : Nat := 0
  mvScale : Nat := 0
  stZp : ZpSrc := .none
  mvZp : ZpSrc := .none
  selector : Bool := false
  cbSlot : Nat := 0
  tc : Opnd := .lit 0x3F800000
  outCount : Opnd := .lit 0
  outSlot : Nat := 0
  threshold : Opnd := .lit 0xFFFFFFFF
  chain : Chain := .sole
  kOrder : List Nat := []
  deriving DecidableEq, Repr

/-- A vector source or destination (R143): registers from v_n, a window offset, or the DRAIN of the word. -/
inductive VLoc where
  | reg (n : Nat)
  | win (back : Bool) (off : Aff)
  | drain
  deriving DecidableEq, Repr

/-- The grain and source of a second-level scale, bias or fixed scale (R46, R142). -/
inductive Grain where
  | none
  | tensor (v : Opnd)
  | channel (back : Bool) (off : Aff)
  | row (back : Bool) (off : Aff)
  deriving DecidableEq, Repr

/-- The grain and source of a zero point of the Vector Engine (R35, R55, R142, R143): none, one value, or an array in a window, one
to a row, a channel, or a group of `g` elements of each row. -/
inductive ZpGrain where
  | none
  | tensor (v : Opnd)
  | row (back : Bool) (off : Aff)
  | channel (back : Bool) (off : Aff)
  | group (g : Nat) (back : Bool) (off : Aff)
  deriving DecidableEq, Repr

/-- How the Vector Engine reads elements (R35, R36, R44, R47 to R49, R117): their zero points, codebook slot and codebook scale t_c, group-size and
scale-type codes, and the window array of their scales. R143 names no such operand for WSTORE and the Window Unit (log 42). -/
structure ElemSrc where
  zp : ZpGrain := .none
  cb : Nat := 0
  tc : Opnd := .lit 0x3F800000
  group : Nat := 0
  stype : Nat := 0
  back : Bool := false
  off : Aff := ⟨.lit 0, [], .lit 0⟩
  deriving DecidableEq, Repr

/-- The function codes of the built-in table functions (R96). -/
inductive TabFn where
  | exp | log | tanh | sigmoid | erf | gelu | silu | softplus
  deriving DecidableEq, Repr

/-- The activation of stage E3 (R88). -/
inductive Act where
  | none
  | relu
  | clamp (lo hi : Opnd)
  | leaky (slope : Opnd)
  | fn (f : TabFn)
  | exp2
  | log2
  | rcp
  | rsq
  | sqrt
  | table (slot : Nat)
  deriving DecidableEq, Repr

/-- The output stage E4 (R88, R91). -/
inductive OutMode where
  | fp32
  | convert (fmt : Nat)
  | requant (fmt : Nat) (scale : Grain) (zp : ZpGrain)
  | generated (fmt : Nat) (group : Nat) (stype : Nat) (zp : ZpGrain)
  deriving DecidableEq, Repr

/-- The epilogue configuration EPI sets (R142). `entry`: the entry conversion named; stage X converts what the array's mode makes INT32 (R56; log 42). -/
structure EpiOp where
  entry : Option Bool := none
  scale : Grain := .none
  bias : Grain := .none
  resFmt : Option Nat := none
  resBack : Bool := false
  resOff : Aff := ⟨.lit 0, [], .lit 0⟩
  resFactor : Opnd := .lit 0x3F800000
  act : Act := .none
  out : OutMode := .fp32
  keepMax : Bool := false
  deriving DecidableEq, Repr

/-- A branch condition of BRL (R134). -/
inductive Cond where
  | first | last | notFirst | notLast
  deriving DecidableEq, Repr

/-- A comparison predicate of VCMP (R143). -/
inductive Pred where
  | eq | ne | lt | le | gt | ge
  deriving DecidableEq, Repr

/-- A reduction of VRED (R97). -/
inductive Red where
  | sum | sumsq | max | min | argmax | argmin
  deriving DecidableEq, Repr

/-- The kind of a pooling operation (R116, R119); `sum` of global pooling only (R120). -/
inductive Pool where
  | max | min | avgInclude | avgExclude | sum
  deriving DecidableEq, Repr

/-- What a host or switch answers to an ATS Translation Request (R314). -/
inductive AtsAnswer where
  | granted (page : Nat) (read write peer : Bool)
  | denied
  | error
  deriving DecidableEq, Repr

/-- The HELLO payload (R373). -/
structure Hello where
  version : Nat
  role : Nat
  engine : Nat
  port : Nat
  group : Nat
  epoch : Nat
  caps : Nat
  mac : Nat
  key : Nat
  deriving DecidableEq, Repr

/-- The ATTEST payload (R373); keys, nonces and signatures are numbers read from their byte strings. -/
structure Attest where
  step : Nat
  assign : Nat
  nonce : Nat
  ephKey : Nat
  signature : Nat
  deriving DecidableEq, Repr

/-- The Kalham header (R372) of a received frame. `rsv` stands for the reserved fields of header and payload together, 0 when all are;
`plain`: it came on the uncontrolled port, without SecTAG and ICV (R367). -/
structure KHead where
  version : Nat := 1
  type : Nat
  dst : Nat
  src : Nat
  route : Nat := 0
  queue : Nat := 0
  postmark : Nat := 0
  seq : Nat := 0
  len : Nat := 0
  ack : Nat := 0
  rsv : Nat := 0
  plain : Bool := false
  deriving DecidableEq, Repr

/-- The commands of the block. Each constructor stands for the row of the table with the same name. -/
inductive Instr where
  -- host-firmware rings and commands
  | cmdTailWrite (v : Nat)
  | commandRead
  | evtHeadWrite (v : Nat)
  | attach (id : Nat)
  | detach (id : Nat)
  | streamHalt (id : Nat)
  | coreReset (id : Nat)
  | domainReset (id : Nat)
  | clerkRestart (id : Nat) (t : Nat)
  | domainCreate (id : Nat)
  | domainSet (id : Nat)
  | domainTeardown (id : Nat)
  | teardownDrained (id : Nat)
  | teardownComplete (id : Nat)
  | ownerEnrol (id : Nat)
  | ownerRemove (id : Nat)
  | enrolQuery (id : Nat)
  | enrolCertify (id : Nat)
  | regionAssign (id : Nat)
  | regionAssignDone (id : Nat)
  | regionConvert (id : Nat)
  | regionReturn (id : Nat)
  | regionQuery (id : Nat)
  | xlateInval (id : Nat)
  | xlateInvalDone (id : Nat)
  | xlateRoot (id : Nat)
  | placeRegister (id : Nat)
  | placeRemove (id : Nat)
  | bind (id : Nat)
  | bindComplete (id : Nat)
  | unbind (id : Nat)
  | unbindDone (id : Nat)
  | queueCreate (id : Nat)
  | queueSet (id : Nat)
  | queueBind (id : Nat)
  | queueQuery (id : Nat)
  | queuePause (id : Nat)
  | queuePaused (q : Nat)
  | queueResume (id : Nat)
  | queueRelease (id : Nat)
  | queueReset (id : Nat)
  | queueResetDone (id : Nat)
  | queueDestroy (id : Nat)
  | queueDestroyDone (id : Nat)
  | ledgerAdmit (id : Nat)
  | ledgerQuery (id : Nat)
  | ledgerRetire (id : Nat)
  | depotAlloc (id : Nat)
  | depotFree (id : Nat)
  | depotFreeDone (id : Nat)
  | tableOpen (id : Nat)
  | tableClose (id : Nat)
  | tableCloseDone (id : Nat)
  | cascadeRoster (id : Nat)
  | cascadeTrust (id : Nat)
  | cascadeJob (id : Nat)
  | remoteBind (id : Nat)
  | remoteUnbind (id : Nat)
  | memberCommand (id : Nat)
  | slotWrite (id : Nat)
  | slotValidate (id : Nat)
  | slotRetire (id : Nat)
  | bootRecordWrite (id : Nat)
  | epochCommit (id : Nat)
  | storeOperationDone (ok : Bool)
  | bistCore (id : Nat)
  | bistCoreDrained (id : Nat) (t : Nat)
  | bistTestDone (id : Nat) (logic mem fail : Nat)
  | bistQuery (id : Nat)
  | trimRead (id : Nat)
  | trimWrite (id : Nat)
  | telemetryBind (id : Nat)
  | telemetryUnbind (id : Nat)
  -- boot, registers and the host port
  | fwGo (v : Nat)
  | firmwareBlockArrival (header : List Byte) (block : List Byte) (err : Bool)
  | warmReset (width v : Nat)
  | lockTables
  | tablesCheckDone
  | lockProtection
  | lockRole
  | tickCfgWrite (width v t : Nat)
  | dlHeadWrite (v : Nat)
  | prHeadWrite (v : Nat)
  | heartbeat (t : Nat)
  | mbistGo (v : Nat)
  | mbistDone (shared summary : Nat) (sigs : List Nat) (fails : List Nat)
  | linkEnable (port : Nat)
  | linkDisable (port : Nat)
  | badWriteClear
  | tickRefusedClear
  | registerWrite (off width v t : Nat)
  | pigeonholeWrite (q width v : Nat)
  | feedIndexWrite (q width v : Nat)
  | mailboxDataWrite (m off : Nat) (data : List Byte)
  | mailboxTrigger (m width v : Nat)
  | cxlMemRead (addr : Nat)
  | cxlMemWrite (addr off : Nat) (data : List Byte) (poison : Bool)
  | snpInv (addr : Nat)
  | snpData (addr : Nat)
  | snpCur (addr : Nat)
  | bisnpResponse (addr : Nat)
  | hostLineFill (dom addr : Nat) (data : List Byte)
  | atsInvalidationRequest (pasid va size : Nat)
  | atsCompletion (pasid va : Nat) (a : AtsAnswer)
  | prgResponse (prg : Nat) (success : Bool)
  | peerRequest (req : Nat) (write : Bool) (addr : Nat) (data : List Byte) (len : Nat)
  | unsupportedRequest (kind : Nat)
  | flr (t : Nat)
  | busMasterEnableClear (t : Nat)
  | hostLinkDown (t : Nat)
  | hostLinkRestored (cause t : Nat)
  | lossTimerExpiry (t : Nat)
  | heartbeatLimitExpiry (t : Nat)
  | hostRequestSend (id t : Nat)
  | flushReadComplete (id : Nat)
  | hostPortWriteError (id : Nat)
  -- tick, scheduling and completion
  | internalTimerBoundary
  | tickInEdge (t : Nat)
  | tickMissed
  | sourceBoundary (t : Nat)
  | tickSourceLost (t : Nat)
  | quietMarginStart
  | ledgerRelease (entry : Nat)
  | descriptorFetch (q t : Nat)
  | idleResample (q : Nat)
  | mailboxFetch (q t : Nat)
  | layerPresent (q desc t : Nat)
  | layerAdmit (q desc : Nat)
  | coalesceGroupClose (g t : Nat)
  | tileCommandIssue (t : Nat)
  | gangIssue (q desc t : Nat)
  | scrubStart (core t : Nat)
  | scrubEnd (core t : Nat)
  | coreIdleGate (core t : Nat)
  | tileCommandDrain (core t : Nat)
  | rerunStart (q desc : Nat)
  | layerComplete (q desc t : Nat)
  | poolScatterDone (q desc : Nat)
  | completionRecordWrite (q desc t : Nat)
  | irqModerationExpiry (dl : Bool) (t : Nat)
  | queueTimeout (q desc t : Nat)
  | runawayLimit (core t : Nat)
  | fenceDescriptor (q desc : Nat)
  | enqueueTarget (q desc : Nat)
  | sortingOfficeEntry (q desc t : Nat)
  | sortingOfficeEnd (q desc t : Nat)
  | sortingOfficeRunaway (q desc t : Nat)
  | pageWalk (q va : Nat) (write fetch : Bool)
  | segmentGrant (point t : Nat)
  | memoryPortResponse (port tag : Nat) (err tagOk : Bool)
  | icacheFill (core addr : Nat)
  | mpReadyFall (port : Nat)
  | mpFlushAck (port : Nat)
  -- kernel-core operations
  | operationRetire (core slot : Nat)
  | postLineBlockAccept (core line : Nat) (data : List Byte)
  | loop (core level : Nat) (count : Opnd) (endl : Nat)
  | endl (core level target : Nat)
  | brl (core level : Nat) (cond : Cond) (target : Nat)
  | swap (core : Nat)
  | enqueue (core slot : Nat) (back : Bool) (off : Aff) (size : Nat)
  | endOp (core : Nat)
  | nop (core : Nat)
  | fetch (core unit : Nat) (src dst : Tmpl) (stamp : Option Nat)
  | stat (core : Nat) (src : Tmpl) (stamp : Option Nat)
  | move (core : Nat) (src : Tmpl) (stamp : Option Nat)
  | drain (core : Nat) (dst : Tmpl) (scales : Option Tmpl) (stamp : Option Nat)
  | put (core : Nat) (src dst : Tmpl) (stamp : Option Nat)
  | side (core : Nat) (stScale mvScale stZp mvZp selector outSt outMv : Option Tmpl) (stamp : Option Nat)
  | codebook (core slot size : Nat) (src : Tmpl) (stamp : Option Nat)
  | table (core slot : Nat) (src : Tmpl) (stamp : Option Nat)
  | wstore (core : Nat) (src : Tmpl) (e : ElemSrc) (stamp : Option Nat)
  | mma (core : Nat) (o : MmaOp)
  | epi (core : Nat) (o : EpiOp)
  | vadd (core : Nat) (dst a b : VLoc) (len : Aff)
  | vsub (core : Nat) (dst a b : VLoc) (len : Aff)
  | vmul (core : Nat) (dst a b : VLoc) (len : Aff)
  | vfma (core : Nat) (dst a b c : VLoc) (len : Aff)
  | vmin (core : Nat) (dst a b : VLoc) (len : Aff)
  | vmax (core : Nat) (dst a b : VLoc) (len : Aff)
  | vabs (core : Nat) (dst a : VLoc) (len : Aff)
  | vneg (core : Nat) (dst a : VLoc) (len : Aff)
  | vcmp (core : Nat) (p : Pred) (dst a b : VLoc) (len : Aff)
  | vsel (core : Nat) (dst c a b : VLoc) (len : Aff)
  | vcvt (core : Nat) (dst : VLoc) (dfmt : Nat) (a : VLoc) (sfmt : Nat) (scale : Grain) (zp : ZpGrain) (cb : Nat) (len : Aff)
  | vrcp (core : Nat) (dst a : VLoc) (len : Aff)
  | vrsq (core : Nat) (dst a : VLoc) (len : Aff)
  | vdiv (core : Nat) (dst a b : VLoc) (len : Aff)
  | vsqrt (core : Nat) (dst a : VLoc) (len : Aff)
  | vexp2 (core : Nat) (dst a : VLoc) (len : Aff)
  | vlog2 (core : Nat) (dst a : VLoc) (len : Aff)
  | vfun (core : Nat) (f : TabFn) (dst a : VLoc) (len : Aff)
  | vtab (core slot : Nat) (dst a : VLoc) (len : Aff)
  | vred (core : Nat) (r : Red) (dst a : VLoc) (len : Aff)
  | vsoftmax (core : Nat) (dst a : VLoc) (len : Aff)
  | vnorm (core : Nat) (rms : Bool) (dst a gamma beta : VLoc) (eps : Opnd) (len : Aff)
  | vopt (core : Nat) (adamw : Bool) (w : VLoc) (wBf16 : Bool) (g : VLoc) (gFmt : Nat) (gZp : Opnd) (gCb : Nat) (m v : VLoc)
      (mNarrow vNarrow : Bool) (mScale vScale : VLoc) (firstSlot : Nat) (len : Aff)
  | wdw (core : Nat) (src : Tmpl) (e : ElemSrc) (init : Option VLoc)
  | wgrp (core : Nat) (cg : Nat) (src : Tmpl) (e : ElemSrc) (init : Option VLoc)
  | wpool (core : Nat) (p : Pool) (src : Tmpl) (e : ElemSrc)
  | wgpool (core : Nat) (p : Pool) (src : Tmpl) (e : ElemSrc)
  | wait (core route : Nat) (seq : Aff)
  | fence (core : Nat)
  /-- POST to a local route, or with 0x40 + line to outbound post line 0 to 7. -/
  | post (core route : Nat)
  -- links
  | linkMacUp (port t : Nat)
  | linkMacDown (port t : Nat)
  | helloBroadcast (port t : Nat)
  | helloFrame (port : Nat) (hd : KHead) (h : Hello) (t : Nat)
  | attestFrame (port peer : Nat) (hd : KHead) (a : Attest) (t : Nat)
  | attestRetry (port peer t : Nat)
  | mkaPdu (port peer : Nat) (bothInstalled : Bool) (t : Nat)
  | mkaLifeExpiry (port peer t : Nat)
  | sakRekey (port peer : Nat)
  | gptpPdu (port peer : Nat) (offset : Int) (delay t : Nat)
  | frameSend (port t : Nat)
  | dataFrame (port peer : Nat) (h : KHead) (data : List Byte) (t : Nat)
  | creditFrame (port peer : Nat) (h : KHead) (entries : List (Nat × Nat)) (t : Nat)
  | nakFrame (port peer : Nat) (h : KHead) (t : Nat)
  | refuseFrame (port peer : Nat) (h : KHead) (entries : List (Nat × Nat)) (t : Nat)
  | idleFrame (port peer : Nat) (h : KHead) (t : Nat)
  | tickFrame (port peer : Nat) (h : KHead) (count p q t0 t : Nat)
  | ledgerFrame (port peer : Nat) (h : KHead) (op status entry req : Nat) (body : List Byte) (t : Nat)
  | manageFrame (port peer : Nat) (h : KHead) (kind req bytes offset : Nat) (body : List Byte) (t : Nat)
  | imageFrame (port peer : Nat) (h : KHead) (offset total : Nat) (data : List Byte) (t : Nat)
  | retransmitTimer (port peer t : Nat)
  | linkTimeoutExpiry (port peer t : Nat)
  | noMasterExpiry (t : Nat)
  -- reset, keys and power
  | coldReset
  | keyPortWord (w : Nat)
  | keyPortTimeout (t : Nat)
  | bootWaitLoadEntry (t : Nat)
  | pfwNAssert (t : Nat)
  | powerFailStop (t : Nat)
  | powerFailFreeze (t : Nat)
  | droopTrip (core t : Nat)
  | droopRecovery (core t : Nat)
  | powerEstimate (counts : List Nat) (temps : List Int) (t : Nat)
  | dutyStep (t : Nat)
  | clerkHeartbeatMiss (c : Nat) (faulted : Bool) (t : Nat)
  | clerkRestartDone (c : Nat) (ok : Bool) (t : Nat)
  | tapScan (rstAsserted : Bool)
  | noAtsAnswer (pasid va t : Nat)
  | pfwNLowPulse (ns : Nat)
  | cxlIoReadCompletion (id : Nat) (data : List Byte)
  deriving DecidableEq, Repr

end Sys2Proof
end

