-- ==== Sys2Proof/Machine/State.lean ====
section
/-! DEFINITION. The state of the block: its settings (`Cfg`), everything else the spec gives it (`Mach`), and the
queue of waiting commands. Widths stand in the docstrings; INVENTORY.md lists every field with its rule. -/

namespace Sys2Proof.Machine

/-! ### Settings (BAR0, 20) and straps -/

/-- The four tick settings, P and Q in µs (R279, R458). -/
structure TickCfg where
  period : Nat
  quiet : Nat
  src : Nat
  share : Nat
  deriving DecidableEq, Repr

/-- EVT_IRQ or DL_IRQ (R459). -/
structure IrqCfg where
  modUs : Nat
  en : Bool
  vector : Nat
  deriving DecidableEq, Repr

/-- Table bases, 40 bits each, and ring sizes (R454). -/
structure TableCfg where
  ctx : Nat
  cnt : Nat
  dom : Nat
  feed : Nat
  pool : Nat
  dl : Nat
  dlLog2 : Nat
  pr : Nat
  prLog2 : Nat
  partT : Nat
  partH : Nat
  deriving DecidableEq, Repr

/-- Host-port settings (R461). -/
structure HpCfg where
  outRate : Nat
  outDepth : Nat
  inRate : Nat
  inDepth : Nat
  lossTimeout : Nat
  hbLimit : Nat
  deriving DecidableEq, Repr

/-- One link block's settings (R369, R462). `role` is read in block 0 only. -/
structure LinkCfg where
  enable : Bool
  role : Nat
  mac : Nat
  pcp : Nat
  vid : Nat
  etype : Nat
  timeout : Nat
  rtShare : Nat
  deriving DecidableEq, Repr

/-- What is fixed outside the block: enabled cores N, stepping, fused cores by physical index, carrier, cascade_role
pin (R2, R417, R438, R442, R451). -/
structure Straps where
  cores : Nat
  stepping : Nat
  fused : Nat
  carrier : Nat
  role : Nat
  deriving DecidableEq, Repr

/-- The settings the host writes, with their locks. -/
structure Cfg where
  strap : Straps
  fwAddr : Nat
  fwLen : Nat
  lockTables : Bool
  lockProt : Bool
  lockRole : Bool
  gateIdle : Bool
  cap : Nat
  tb : TableCfg
  tick : TickCfg
  ptmEpoch : Nat
  evtIrq : IrqCfg
  dlIrq : IrqCfg
  protG : Nat
  mpShare : List Nat
  hp : HpCfg
  links : List LinkCfg
  noGate : List Nat
  deriving DecidableEq, Repr

/-! ### Streams and kernel cores (01, 03 to 06, 08) -/

/-- A stream descriptor as resolved at issue (R174), with the half FRONT named then (R131). -/
structure Sd where
  fmt : Nat
  kind : Nat
  space : Nat
  rate : Nat
  counts : List Nat
  strides : List Int
  win : Option WinBlk
  base : Nat
  outFirst : Nat
  front : Nat := 0
  deriving DecidableEq, Repr

/-- A tile-command on a core (R13): queue, fetched descriptor, index and number of tile-commands, whether it is of the
wider alternate, its declared worst case and issue time in ns, time left out under R196 and R411 and up to when it is counted, whether END has issued, descriptors and rows
served, its parameter block, its gang (0 none) and place in it. -/
structure TileCmd where
  q : Nat
  desc : Nat
  tile : Nat
  tiles : Nat
  alt : Bool
  wcet : Nat
  issued : Nat
  halted : Nat
  mark : Nat
  ended : Bool
  merged : Nat
  rows : Nat
  params : List Nat
  gang : Nat
  member : Nat
  deriving DecidableEq, Repr

/-- An operation in a slot's queue (R122, R124, R136): its number (0 for the part of an array word in an S slot), the routes
its stamps post, the Depot regions it uses by handle and the user-table slots it uses as 2^20 + slot (R99), whether its DRAIN is
still to come. -/
structure OpRec where
  op : Nat
  stamps : List Nat
  uses : List Nat
  undrained : Bool
  deriving DecidableEq, Repr

/-- An ENQUEUE reservation (R156, R157): target queue, the reservation's number, its ring entries, window half and offset,
the descriptor's bytes once read at retirement, and whether its target has been killed since (R475). -/
structure EnqRec where
  q : Nat
  entry : Nat
  n : Nat
  half : Nat
  off : Nat
  bytes : Option (List Byte)
  void : Bool := false
  deriving DecidableEq, Repr

/-- The operands an array word supplies through STAT, MOVE and SIDE (R136, R139): the resolved streams. -/
structure SideSd where
  stScale : Option Sd
  mvScale : Option Sd
  stZp : Option Sd
  mvZp : Option Sd
  selector : Option Sd
  outSt : Option Sd
  outMv : Option Sd
  deriving DecidableEq, Repr

/-- A result that waits for its DRAIN: whether an array operation made it, element format, rows of codes, and generated
scale bytes row by row. -/
structure Result where
  array : Bool
  fmt : Nat
  rows : List (List Nat)
  scales : List (List Nat)
  deriving DecidableEq, Repr

/-- The cells of the array between operations (R57, R70, R80): the working and shadow registers (rows of elements with their marks),
the elements at the moving ports and the group accumulators (a second list of each at double rate), the link buffers. -/
structure Cells where
  working : List (List (Int × Bool)) := []
  shadow : List (List (Int × Bool)) := []
  moving : List (List Int) := []
  sums : List (List (List Int)) := []
  links : List (List Int) := []
  deriving DecidableEq, Repr

/-- An open chain (R140): M_t and N_t, the rows and vectors of its results, what else every MMA must share, the sums in the drain
accumulators, and the outlier sums so far (R74). DESIGN CHOICE (log 48): a chain of more than 128 rows keeps the sums of them all. -/
structure ChainSt where
  m : Nat
  n : Nat
  rows : Nat
  vecs : Nat
  orient : Orient
  group : Nat
  stFmt : Nat
  mvFmt : Nat
  sums : List (List Nat)
  outl : List (List Nat)
  deriving DecidableEq, Repr

/-- A halted stream's record (R194). -/
structure HaltRec where
  sd : Sd
  pos : List Nat
  va : Nat
  q : Nat
  dom : Nat
  unit : Nat
  writing : Bool
  prg : Option Nat
  since : Nat
  deriving DecidableEq, Repr

/-- A translation entry (R311): domain, level of the leaf, virtual page, table entry. -/
structure TlbE where
  dom : Nat
  level : Nat
  page : Nat
  pte : Nat
  deriving DecidableEq, Repr

/-- The registers a core shows (R464) and what the front end keeps of it: CORE_STATE, domain, counters, whether it must
be scrubbed, whether nothing of a domain is left on it, gating, a droop hold, a self-test hold, the time it fell idle, and the end of a running scrub. -/
structure CoreRegs where
  state : Nat
  dom : Nat
  issued : Nat
  scrubs : Nat
  busy : Nat
  icacheMisses : Nat
  tlbMisses : Nat
  kills : Nat
  dirty : Bool
  clean : Bool
  gated : Bool
  droop : Bool
  test : Nat
  since : Nat
  gateWas : Option (Nat × Bool) := none
  deriving DecidableEq, Repr

/-- One core's program state (R86, R122, R131, R134, R142 to R146): slot queues S0 to S3, M, V; windows; the streams latched for the
array; its cells; the drain accumulators (2,048 · row + entry) and the next entry of their rotation (R76, R141); register file; buffers; loops; routes; waits; reservations; credits; blocks of inbound post lines by line and of outbound ones by 8 + line,
each with the operation that sent it; the sizes of the receive rings by inbound line and what each outbound line is wired to, as member
and line (R149, R190); bytes a reader that still waits has taken, by 256 · space + line or route (R150); how many segments of a stream
that waits have issued, by 2 · unit + writing (R193); the lost peer whose routes its tile-command may read (R389); halts; caches; the regions of operations that have issued and wait for their data,
by slot (R203). -/
structure Core where
  regs : CoreRegs
  tc : Option TileCmd
  slots : List (List OpRec)
  half0 : Map Byte
  half1 : Map Byte
  front : Nat
  statSd : Option Sd
  moveSd : Option Sd
  side : Option SideSd
  arrayStamps : List Nat
  cells : Cells
  acc : Map Nat
  accNext : Nat
  chain : Option ChainSt
  result : Option Result
  vregs : Map Nat
  outlier : Map Nat
  staging : Map Nat
  tables : Map (List Byte)
  codebooks : Map Nat
  wstore : Map Nat
  epi : Option EpiOp
  clip : Nat
  keptMax : Option Nat
  keptNan : Bool
  loops : Map (Nat × Nat)
  pc : Option Nat
  routes : Map Nat
  waiting : Option Nat
  enqs : List EnqRec
  credits : List Nat
  rings : Map (List (Nat × List Byte))
  ringSizes : Map Nat
  wires : Map (Nat × Nat)
  taken : Map (List Byte)
  linkLost : Option Nat := none
  gone : List (Nat × Sd × Nat)
  halts : List HaltRec
  icache : List (Nat × Nat)
  tlb : List TlbE
  hostData : Map Byte
  hostLines : List Nat
  begun : List (Nat × Nat) := []
  deriving DecidableEq, Repr

/-! ### Translation, memory protection and domains (13, 15) -/

/-- A walk-cache pointer (R311): domain, level 0 or 1, index path, table entry. -/
structure WalkE where
  dom : Nat
  level : Nat
  page : Nat
  pte : Nat
  deriving DecidableEq, Repr

/-- A host-translation entry (R313): PASID, host virtual 4 KiB page, translated page, permissions. -/
structure HostE where
  pasid : Nat
  page : Nat
  phys : Nat
  rd : Bool
  wr : Bool
  deriving DecidableEq, Repr

/-- Work that waits for a host page: its queue, the device virtual address, and for a stream its core and halt record. -/
structure Waiter where
  q : Nat
  va : Nat
  halt : Option (Nat × HaltRec)
  deriving DecidableEq, Repr

/-- An ATS request outstanding (R313, R314): PASID, page, write access, the time sent, who waits for it. One that has not been sent stands
in the outbound queue (R337, R342). -/
structure AtsReq where
  pasid : Nat
  page : Nat
  wr : Bool
  sent : Option Nat
  waiters : List Waiter
  deriving DecidableEq, Repr

/-- A page request group outstanding or waiting for a free number (R193, R314), and whether it has left the port. -/
structure PrgReq where
  pasid : Nat
  page : Nat
  wr : Bool
  waiters : List Waiter
  sent : Bool := false
  deriving DecidableEq, Repr

/-- A host page whose request failed, for the queue whose next access it fails (R314). -/
structure FailedPage where
  pasid : Nat
  page : Nat
  q : Nat
  deriving DecidableEq, Repr

/-- The translation subsystem: shared TLB, walk cache, host-translation cache, ATS and page requests; page requests
that wait for a number (R193); pages whose page request or ATS answer failed. -/
structure Xlate where
  l2 : List TlbE
  walk : List WalkE
  host : List HostE
  ats : List AtsReq
  prg : Map PrgReq
  stalled : List PrgReq
  failed : List FailedPage
  deriving DecidableEq, Repr

/-- What is wrong with a line of device memory (R329, R349, R352): stored raw by the host, poisoned, or corrupted. -/
inductive BadLine where
  | raw
  | poison
  | corrupt
  deriving DecidableEq, Repr

/-- A granule-map entry (R347): owner, sealed or open. Unassigned granules are not listed. -/
structure Gran where
  dom : Nat
  sealed : Bool
  deriving DecidableEq, Repr

/-- Device memory: bytes as their owner reads them, lines that fail, the granule map. -/
structure Mem where
  cells : Map Byte
  bad : Map BadLine
  granules : Map Gran
  deriving DecidableEq, Repr

/-- A domain-table entry (R343), STATE 0 FREE, 1 LIVE, 2 TEARDOWN; owners are the four places for 384-bit hashes. -/
structure DomE where
  root : Nat := 0
  jobs : Nat := 0
  pasid : Nat := 0
  pasidV : Bool := false
  state : Nat := 0
  strict : Bool := false
  coreLimit : Nat := 1
  depotLimit : Nat := 0
  epoch : Nat := 0
  gen : Nat := 0
  owners : List (Option Nat) := [none, none, none, none]
  lastInval : Nat := 0
  tearStep : Nat := 0
  deriving DecidableEq, Repr

/-- A key slot (R355): a domain's two XTS keys and its tag key, 32 bytes each. -/
structure LineKeys where
  xts1 : List Byte
  xts2 : List Byte
  tag : List Byte
  deriving DecidableEq, Repr

/-- Keys of the block (R354, R355): the identity key's words, the epoch the roots are derived under, the number of the boot nonce's draw,
and the key slots. -/
structure Keys where
  identity : List Nat
  rootEpoch : Option Nat
  nonce : Nat
  slots : Map LineKeys
  deriving DecidableEq, Repr

/-! ### Queues (11) -/

/-- A queue context (R246). Tails and heads are counts modulo twice the ring (R251). -/
structure QCtx where
  ringBase : Nat
  cplBase : Nat
  ringLog2 : Nat
  cplLog2 : Nat
  rt : Bool
  path : Nat
  coalesce : Bool
  forwardable : Bool
  killAct : Bool
  drop : Bool
  feed : Bool
  msixEn : Bool
  dom : Nat
  vec : Nat
  timeout : Nat
  weight : Nat
  coalWin : Nat
  aux : Nat
  parcel : Nat
  bound : Bool
  mailbox : Nat
  state : Nat
  tail : Nat
  head : Nat
  cplTail : Nat
  cplHead : Nat
  deriving DecidableEq, Repr

/-- A translation held with a descriptor (R263, R318): the virtual address, the device address or translated host
address it gave, the translated address and host virtual page of a host page, whether it has become void (R319), and the page's permissions. -/
structure Held where
  va : Nat
  phys : Nat
  host : Option Nat
  page : Nat
  void : Bool
  rd : Bool := true
  wr : Bool := true
  deriving DecidableEq, Repr

/-- A feed bound to a layer at its fetch (R226): feed, parameter slot, frame, its address, and the status the layer
completes with when the feed cannot serve it. -/
structure FeedBind where
  feed : Nat
  slot : Nat
  frame : Nat
  addr : Nat
  st : Nat
  deriving DecidableEq, Repr

/-- A fetched descriptor that has not completed (R254, R260): its copy and where it came from; its completion entry; held
translations; the layer's phase and cursor; parameters; monitor and maximum; what has reached it; the host functions that received its posted writes
(R330), its feeds' frames, and the remote WAITs of its tile-commands' first words as route and sequence, by 2 · index and 1 for the
alternate (R148); whether its completion has begun to publish (R158); what it took from its queue's context at fetch (R248): the vector
its record raises, whether and how long it coalesces, its weight; the tick and the core of the last drain (R26, R298); the monitor that
triggered a re-run (R239); whether its history records are updated (R237); when it was admitted (R291); when its status was last decided (R470);
whether a boundary dropped it (R300); lines of device memory it wrote while the host held them (R330). Phases: 0 fetched,
1 presented, 2 admitted and dividing, 3 all issued work ended and effects under way, 4 record ready. -/
structure Desc where
  bytes : List Byte
  index : Nat
  seq : Option Nat
  landing : Nat
  cpl : Nat
  cplHeld : Option Held
  held : List Held
  fetched : Nat
  phase : Nat
  presented : Nat
  order : Nat
  tick : Nat
  admitTick : Nat
  params : List Nat
  tiles : Nat
  wcet : Nat
  next : Nat
  running : Nat
  alt : Bool
  altTiles : Nat
  altWcet : Nat
  narrow : Nat
  killed : Nat
  monitor : Nat
  threshold : Nat
  maxv : Option Nat
  nan : Bool
  status : Option (Nat × Nat)
  cancelled : Bool
  carried : Nat
  timeoutAct : Bool
  timeout : Nat
  drop : Bool
  owed : Nat
  group : Nat
  so : Bool
  gather : Nat
  enqs : List EnqRec
  record : Option (Nat × Nat)
  flushing : Nat
  fns : List Nat
  frames : List FeedBind
  publish : Bool := false
  waits : Map (Nat × Nat) := []
  irqVec : Option Nat := none
  coal : Bool := false
  coalWin : Nat := 0
  weight : Nat := 1
  drainTick : Option Nat := none
  drainCore : Option Nat := none
  trigger : Nat := 0
  histDone : Bool := false
  statusAt : Nat := 0
  admitAt : Nat := 0
  dropped : Bool := false
  lines : List Nat := []
  deriving DecidableEq, Repr

/-- A queue (R246, R250, R274): its context, counters, deficit (R293), pending pause, reset or destroy, remote route
counts (R144), fetched descriptors by fetch number, reserved target entries (R156), its feed's index (R224), and whether its counter entry has failed its check (R250). -/
structure Queue where
  ctx : QCtx
  jobs : Nat := 0
  rejects : Nat := 0
  replaced : Nat := 0
  deficit : Nat := 0
  pausing : Bool := false
  closing : Nat := 0
  drained : Bool := false
  routes : Map Nat := []
  nextId : Nat := 0
  descs : Map Desc := []
  reserved : List (Nat × Nat) := []
  feedIdx : Nat := 0
  feedRejects : Nat := 0
  cntBad : Bool := false
  orphan : Bool := false
  deriving DecidableEq, Repr

/-- A mailbox (R264 to R267): data bytes, last SEQ, the pending submission (SEQ, landing), the one in flight. -/
structure Mbx where
  data : Map Byte := []
  seq : Nat := 0
  pending : Option (Nat × Nat) := none
  flight : Option Nat := none
  deriving DecidableEq, Repr

/-- A merge group (R275 to R277): members as (queue, descriptor) in joining order, its rows, when its window ends,
whether it has closed, and whether its window had ended when it opened. -/
structure Group where
  members : List (Nat × Nat)
  rows : Nat
  ends : Nat
  closed : Bool
  late : Bool := false
  deriving DecidableEq, Repr

/-! ### Tick, ledger and scheduler (12) -/

/-- The terms of a ledger entry (R285). -/
structure Terms where
  budget : Nat
  wmax : Nat
  divisor : Nat
  phase : Nat
  dom : Nat
  release : Nat
  deriving DecidableEq, Repr

/-- A ledger entry (R285, R286): terms, binding, balance, counts; a proposal waiting for the reload; dropped; retiring. -/
structure LedgerE where
  terms : Terms
  queue : Option Nat := none
  depotRes : Nat := 0
  balance : Nat := 0
  owed : Nat := 0
  overruns : Nat := 0
  refusals : Nat := 0
  lastRun : Nat := 0
  running : Bool := false
  prepared : Option Nat := none
  dropped : Bool := false
  retiring : Bool := false
  proposal : Option Terms := none
  deriving DecidableEq, Repr

/-- A feed as the engine last read it (R223 to R225): sample and driver's bytes of the last quiet margin when enabled
there, the driver's bytes in force since the last boundary, whether a frame has been latched since it was enabled, whether its engine fields
have been set since ENABLE was last seen clear. -/
structure FeedS where
  next : Option (Nat × List Byte)
  cur : Option (List Byte)
  latched : Bool
  on : Bool := false
  deriving DecidableEq, Repr

/-- The tick's state (R280 to R284, R288, R458): settings in force, count, partial tick, refusal and source-lost bits,
the times in ns of the last boundary, of the first boundary when known, of the issue limit; whether the quiet margin has
begun and reloaded; ledger sums; T0 in force; the master's settings; tick_out's rise. -/
structure Tick where
  cfg : TickCfg
  count : Nat
  partialTick : Bool
  refused : Bool
  sourceLost : Bool
  base : Nat
  nextB : Option Nat
  limit : Nat
  inMargin : Bool
  reloaded : Bool
  demand : Nat
  reserved : Nat
  t0 : Nat
  outRise : Option Nat
  feeds : Map FeedS
  deriving DecidableEq, Repr

/-- A completion in the collector (R26): the descriptor, when it completed, and the logical core of its last drain. -/
structure Collected where
  q : Nat
  d : Nat
  time : Nat
  core : Option Nat
  deriving DecidableEq, Repr

/-- The scheduler (R26, R275, R291 to R295): last core issued to, round pointer, admission counter, gang counter, merge groups, the
collector's first core, cores kept for a layer while they are scrubbed or a gang gathers (core, queue, descriptor), the queue
whose visit goes on, the completions whose record is not yet written in the order they came (the collector holds 64 of them). -/
structure Sched where
  last : Option Nat
  round : Nat
  order : Nat
  gang : Nat
  groups : Map Group
  nextGroup : Nat
  rot : Nat
  chosen : List (Nat × Nat × Nat)
  serving : Option Nat
  collector : List Collected := []
  deriving DecidableEq, Repr

/-! ### Parcels, Depot, Sorting Office, feeds and pools (07, 09) -/

/-- A bound parcel (R169, R171, R173): domain, destination (virtual address, bytes, the device ranges it lies in), layer records
and dependency list of RESOURCE, PARCEL_ID, whether it is being unbound, and by layer the windows its templates name (R103). -/
structure Parcel where
  dom : Nat
  va : Nat
  size : Nat
  spans : List (Nat × Nat)
  records : List (List Byte)
  deps : List Nat
  id : List Byte
  unbinding : Bool
  windows : List (List (Nat × List Nat × WinBlk)) := []
  deriving DecidableEq, Repr

/-- A Depot region or layer allocation (R200, R201): domain, bytes, 64 KiB units, column groups its units lie in, and
whether the engine is emptying it. -/
structure Region where
  dom : Nat
  size : Nat
  units : Nat
  groups : List Nat
  freeing : Bool
  data : Map Byte
  deriving DecidableEq, Repr

/-- A resident host line of the Depot (R207): domain and host address; Pending or Shared; its bytes. -/
structure HostLine where
  dom : Nat
  addr : Nat
  shared : Bool
  data : List Byte
  deriving DecidableEq, Repr

/-- An embedding table (R209): its descriptor's 64 bytes, whether it is open or closing. -/
structure TableE where
  bytes : List Byte
  dom : Nat
  closing : Bool
  off : Bool
  deriving DecidableEq, Repr

/-- A Sorting Office operation (R218): the queue and descriptor it serves (or the pool step), when it started, its
declared time, whether it is running, its result status when it has been decided, the region handles it names (R203). -/
structure SoOp where
  q : Nat
  desc : Nat
  start : Nat
  t : Nat
  status : Nat
  detail : Nat
  uses : List Nat := []
  deriving DecidableEq, Repr

/-- A line of the table cache (R216): its table, domain and address; the operations whose updates in it are not written back yet, and those bytes. -/
structure TLine where
  tab : Nat
  dom : Nat
  addr : Nat
  dirty : List (Nat × Nat)
  data : Map Byte
  deriving DecidableEq, Repr

/-- An engine-initiated request on the host port (R323, R330, R336). Kinds: 0 posted write, 1 read, 2 flush read,
3 RdShared read, 4 MSI-X message, 5 ATS Translation Request of the page at `addr` in PASID `va`, 6 page request of group `addr`. `who`: 0 a stream,
1 a completion record, 2 the front end, 3 the Sorting Office; `unit` the stream unit; `va` the device virtual
address it came from; `desc` the descriptor and `op` the operation it serves; `n` its useful bytes, all of `len` when 0 (R181); `str` the
stream of its operation (R186); `num` its place in the unit's order of issue (R184). -/
structure HpReq where
  id : Nat
  kind : Nat
  addr : Nat
  data : List Byte
  len : Nat
  q : Nat
  core : Option Nat
  deadline : Nat
  who : Nat
  va : Nat
  desc : Nat
  op : Nat := 0
  unit : Nat := 0
  dom : Nat := 0
  n : Nat := 0
  str : Nat := 0
  num : Nat := 0
  deriving DecidableEq, Repr

/-- A request waiting at an arbitration point, or granted and outstanding at a memory port (R185 to R187, R430): `n` useful bytes from
`addr`; the RATE of its stream; the bytes it writes; `rmw`, the read of a partial write is under way (R182); `host`, the request it is on
the host port; `path`, the points still to pass; `va`, the virtual address a translation was made for (R316); `str` and `num` as in
`HpReq`; `depot`, the layer allocation (true) or region whose bytes it writes (R204). `who` is the index of R187. -/
structure Req where
  point : Nat
  who : Nat
  unit : Nat
  deadline : Nat
  addr : Nat
  lines : Nat
  write : Bool
  dom : Nat
  q : Nat
  op : Nat
  n : Nat := 0
  rate : Nat := 0
  data : List Byte := []
  rmw : Bool := false
  host : Option HpReq := none
  path : List Nat := []
  va : Option Nat := none
  str : Nat := 0
  num : Nat := 0
  depot : Option (Bool × Nat) := none
  deriving DecidableEq, Repr

/-- The Depot and the Sorting Office: regions by handle; layer allocations by 2^20 · descriptor + queue; host-line cache in order of use; the
table cache; tables; operations running; feeds and pools whose entries failed their check; pools last seen enabled. -/
structure Depot where
  regions : Map Region
  layers : Map Region
  lines : List HostLine
  tcache : List TLine
  tables : Map TableE
  ops : List SoOp
  feedOff : List Nat
  poolOff : List Nat
  poolOn : List Nat
  deriving DecidableEq, Repr

/-- Arbitration (R183 to R187): rotation pointers, segments not issued yet, waiting requests, tags of the memory ports, the number of
the next operation, the last grants; lines that have come back ahead of earlier ones of their unit (R184), and the number of the next request. -/
structure Arb where
  ptr : Map Nat
  later : List Req
  waiting : List Req
  tags : Map Req
  nextTag : Nat
  nextOp : Nat
  recent : List (Nat × Nat)
  back : List Req := []
  nextNum : Nat := 1
  deriving DecidableEq, Repr

/-! ### The host port (14) -/

/-- A placement region (R333): domain, virtual base, length, requester or ANY, permissions, granules resolved. -/
structure Place where
  dom : Nat
  base : Nat
  len : Nat
  req : Nat
  any : Bool
  rd : Bool
  wr : Bool
  pages : List (Nat × Nat)
  deriving DecidableEq, Repr

/-- The function's configuration space (R322, R324, R326): whether its BARs have addresses, MSI-X enable and function mask, PTM enable, and the errors AER
has logged (Unsupported Request, a failed posted write). DESIGN CHOICE (log 30): the host has configured the function before the first command. -/
structure FnCfg where
  bars : Bool := true
  msixOn : Bool := true
  msixMask : Bool := false
  ptm : Bool := true
  aerUr : Bool := false
  aerWrite : Bool := false
  deriving DecidableEq, Repr

/-- The host port's state (R326 to R342, R461): `unflushed` holds host pages with the last write's number, oldest page first
(R327); `invs` the translated pages of ATS invalidations not yet completed (R315); `filter` the lines the host holds, latest
granted first; `bisnp` lines under back-invalidation; `dropped` pending fills a snoop met, as domain and line; `feData` holds the host lines the front end has read and not yet used; `late` the engine's
own writes of lines the host still holds, in order (R328); `lossNext` when the cause that does not govern began (R337); `fnc` the configuration space. -/
structure HostPort where
  orphan : Nat
  l0 : Bool
  cause : Nat
  lost : Bool
  attached : Bool
  epoch : Nat
  placeRejects : Nat
  bme : Bool
  outTok : Nat
  inTok : Nat
  tokTime : Nat
  hbStart : Nat
  lossStart : Option Nat
  lossCause : Nat
  wait : List HpReq
  sent : List HpReq
  seq : Nat
  unflushed : List (Nat × Nat)
  invs : List (List Nat)
  place : Map Place
  filter : List Nat
  bisnp : List Nat
  dropped : List (Nat × Nat)
  feData : Map Byte
  feLines : List Nat
  late : List (Nat × List Byte) := []
  lossNext : Option Nat := none
  fnc : FnCfg := {}
  deriving DecidableEq, Repr

/-- Interrupts (R324, R459): moderation windows' ends with the flag of a covered entry, MSI-X table words, pending bits,
vectors of records that landed, whose message is due, with the time of the first and the lines the host held of them (R270, R330). -/
structure Irq where
  evtUntil : Nat
  evtPend : Bool
  dlUntil : Nat
  dlPend : Bool
  table : Map Nat
  pba : List Nat
  due : List (Nat × Nat × List Nat)
  deriving DecidableEq, Repr

/-- Memory ports (R430 to R437, R460). -/
structure Ports where
  failed : List Nat
  ready : Nat
  err : Map Nat
  flush : List Nat
  recent : List (Nat × Nat)
  deriving DecidableEq, Repr

/-! ### Links (16) -/

/-- A frame kept for sending or resending (R382): header and payload bytes, first and last sending, resends, the layer and
the stream operation it carries data of, its class under R383 (0 control, 1 real-time data, 2 other), its deadline. -/
structure Frame where
  head : KHead
  data : List Byte
  sentAt : Nat := 0
  lastAt : Nat := 0
  resends : Nat := 0
  q : Nat := 0
  desc : Nat := 0
  op : Nat := 0
  cls : Nat := 0
  deadline : Nat := 0
  deriving DecidableEq, Repr

/-- A peer of a link port (R374 to R389). STATE 0 DOWN to 7 UP. `refused`: ignored until its HELLO changes; `gap`: a NAK
answers the present gap; `offered`: its ATTEST offer has arrived; `eph`: this engine's ephemeral private key for it;
`cak`, `ckn`: the association key and its name (R376); `sa`, `an`, `pn`: the secure association's key, number and last packet number; `credits`: blocks by receiving queue; `offsets`: the last eight gPTP offsets in ns, latest first;
`helloAt`: when its last HELLO came; `returning`: it has been lost and is not back yet. -/
structure Peer where
  mac : Nat
  engine : Option Nat := none
  state : Nat := 2
  since : Nat := 0
  hello : Option Hello := none
  refused : Bool := false
  gap : Bool := false
  offered : Bool := false
  myNonce : Nat := 0
  nonce : Nat := 0
  ephKey : Nat := 0
  eph : Nat := 0
  cak : List Byte := []
  ckn : List Byte := []
  sa : Nat := 0
  an : Nat := 0
  pn : Nat := 0
  mkaAt : Nat := 0
  nextSeq : Nat := 0
  expSeq : Nat := 0
  unacked : List Frame := []
  queue : List Frame := []
  credits : Map Nat := []
  offsets : List Int := []
  delay : Nat := 0
  lastRx : Nat := 0
  helloAt : Nat := 0
  returning : Bool := false
  timePath : Bool := false
  deriving DecidableEq, Repr

/-- One link port: MAC status and when it last fell, counters, peers in the order met, the last HELLO broadcast. -/
structure Link where
  macUp : Bool := false
  downAt : Nat := 0
  discards : Nat := 0
  unctrl : Nat := 0
  icvFails : Nat := 0
  resends : Nat := 0
  peers : List Peer := []
  helloAt : Option Nat := none
  deriving DecidableEq, Repr

/-- A binding of a local queue to a remote one (R377); a send binding keeps the accepted count of each route (R379), a
receive binding the blocks its parked frames hold. -/
structure Bind where
  q : Nat
  recv : Bool
  port : Nat
  engine : Nat
  remote : Nat
  quota : Nat
  used : Nat := 0
  counts : Map Nat := []
  deriving DecidableEq, Repr

/-- A directed use of a port by a cascade job (R387), with the phase it falls in. -/
structure PortUse where
  engine : Nat
  port : Nat
  peer : Nat
  bytes : Nat
  phase : Nat
  deriving DecidableEq, Repr

/-- A cascade job (R387): its mode, divisor, entries (engine, ledger entry), port uses. -/
structure Job where
  mode : Nat
  divisor : Nat
  entries : List (Nat × Nat)
  uses : List PortUse
  deriving DecidableEq, Repr

/-- A request to another engine that waits for its answer (R371, R386): engine, kind of frame, local command, ledger entry
or list entries. -/
structure CReq where
  engine : Nat
  kind : Nat
  cmd : Nat
  arg : Nat
  body : List Byte
  deriving DecidableEq, Repr

/-- A parked DATA frame (R380, R381): its binding, the offset of what is left in its first block, the bytes left. -/
structure Parked where
  bind : Nat
  off : Nat
  data : List Byte
  deriving DecidableEq, Repr

/-- The cascade (R370, R371, R377, R381, R384 to R387): group, roster (key hash, epoch), trust record, own number, NO_MASTER
and the time of the last second-master HELLO, bindings by index, parked frames by 256·queue + route, jobs, the members' ledger
by 4096·engine + entry, their cores (by engine), RT_SHARE (by 16 + engine) and link shares (by 64 + 4·engine + port),
requests by number, the last TICK frame (time, count), MANAGE bodies in assembly by 2^32·engine + request, the image being
fetched and its length. -/
structure Casc where
  group : Nat := 0
  roster : List (Nat × Nat) := []
  trust : Option (Nat × Nat) := none
  engine : Option Nat := none
  noMaster : Bool := false
  noMasterAt : Nat := 0
  binds : Map Bind := []
  parked : Map (List Parked) := []
  jobs : Map Job := []
  nextJob : Nat := 0
  memberLedger : Map LedgerE := []
  shares : Map Nat := []
  requests : Map CReq := []
  nextReq : Nat := 0
  tickRx : Option (Nat × Nat) := none
  tickT0 : Option Nat := none
  asm : Map (List Byte) := []
  image : List Byte := []
  deriving DecidableEq, Repr

/-! ### Clerks, boot, store, power, self-test, telemetry (17, 18) -/

/-- A Clerk (R391, R397, R405, R406): running, stopped for good, when it last restarted, the cause of the restart under way, its private SRAM as
its firmware's segments filled it. -/
structure Clerk where
  running : Bool := false
  stopped : Bool := false
  restarts : List Nat := []
  cause : Nat := 0
  sram : Map Byte := []
  deriving DecidableEq, Repr

/-- A command read from the ring (R393, R395): its entry, phase (0 waits to start, 1 under way), a start time, values
its second step needs; a command relayed by the master keeps its request number, argument area and result (R371). -/
structure Cmd where
  bytes : List Byte
  phase : Nat
  seq : Nat
  start : Nat
  arg : Nat
  relay : Option Nat := none
  result : List Byte := []
  areaBytes : List Byte := []
  deriving DecidableEq, Repr

/-- The event ring and the command ring (R393, R396). Counts are 13 bits; events held before RUNNING stand in `early`. -/
structure Rings where
  cmdTail : Nat
  cmdHead : Nat
  evtTail : Nat
  evtHead : Nat
  lost : Nat
  lostPosted : Nat
  seq : Nat
  early : List (Nat × Nat × List Nat)
  cmds : Map Cmd
  nextCmd : Nat
  deriving DecidableEq, Repr

/-- Boot (R397 to R404, R444): state, reason, the load under way (source, header, next block, expected hash, blocks so
far), the image that runs, versions, key words read, and the image read that waits for the host link (R342). -/
structure Boot where
  state : Nat
  reason : Nat
  loading : Bool
  source : Nat
  header : List Byte
  nextBlock : Nat
  hash : List Byte
  blocks : List Byte
  minEpoch : Nat
  epoch : Nat
  version : Nat
  xroot : Nat
  image : List Byte
  keyWords : Nat
  kpReq : Bool
  kpLock : Bool
  keyFail : Bool
  imageReq : Option (Nat × Nat) := none
  deriving DecidableEq, Repr

/-- A stored record's two copies: SEQ and contents of the good copies (R402). -/
structure AB where
  a : Option (Nat × List Byte)
  b : Option (Nat × List Byte)
  deriving DecidableEq, Repr

/-- A firmware slot (R403): the marker's SEQ and hash of the image header, when its CRC is good, and the image. -/
structure Slot where
  marker : Option (Nat × List Byte)
  image : List Byte
  deriving DecidableEq, Repr

/-- The persistent store (R401 to R403, R443, R463). -/
structure Store where
  present : Bool
  sizeLog2 : Nat
  busy : Option Nat
  writes : Nat
  errors : Nat
  slotBooted : Nat
  bootRec : AB
  epochRec : AB
  trimRec : AB
  enrolRec : AB
  trustRec : AB
  slotA : Slot
  slotB : Slot
  deriving DecidableEq, Repr

/-- Power (R406, R408 to R412, R453). `fail`: 0 none, 1 failing, 2 stopped, 3 frozen. `volt`: the voltage applied, in mV
(R422). -/
structure Power where
  trimHold : Bool
  duty : Nat
  pfLatch : Nat
  fail : Nat
  failAt : Nat
  window : List Nat
  watts : Nat
  lowDuty : Nat
  limiting : Bool
  exceeded : Bool
  warm : Bool
  volt : Nat := 0
  deriving DecidableEq, Repr

/-- Self-test (R413 to R419, R463), the core under test, how often its test was run again and whether it was FAILED before, and the trim set (R420, R423). -/
structure SelfTest where
  mbistState : Nat
  mbistPass : Bool
  record : Map Byte
  core : Option Nat
  tries : Nat
  failedBefore : Bool := false
  trim : List Byte
  trimSeq : Nat
  trimWait : Option (List Byte)
  deriving DecidableEq, Repr

/-- Telemetry (R424, R425): the published block, domains bound with their address and its device page, and the counts of the
present tick: droop trips and busy time by core, busy time by domain, power samples, peak, temperatures, bytes moved. -/
structure Telem where
  block : Map Byte
  binds : Map (Nat × Nat)
  droops : Map Nat
  busy : Map Nat
  domBusy : Map Nat
  powSum : Nat
  powCnt : Nat
  peak : Nat
  temps : List Int
  memBytes : Map Nat
  hostOut : Nat
  hostIn : Nat
  linkTx : Map Nat
  linkRx : Map Nat
  deriving DecidableEq, Repr

/-! ### What the block drives at its ports -/

/-- What a port puts around a Kalham frame (R367): its own MAC address, the 802.1Q tag's PCP and VID, the EtherType, and on the controlled
port the SecTAG's AN, PN and SCI and the ICV. Header and payload are shown as they are before encryption. -/
structure Wrap where
  src : Nat
  vlan : Option (Nat × Nat)
  etype : Nat
  sec : Option (Nat × Nat × Nat × Nat)
  deriving DecidableEq, Repr

/-- One thing the block sends in a step (R322 to R342, R382, R440): recorded so that claims can be stated about it. -/
inductive Out where
  | msix (vec : Nat)
  | hostWrite (addr : Nat) (data : List Byte) (translated : Bool)
  | hostRead (addr len : Nat) (translated : Bool)
  | rdShared (addr : Nat)
  | aer
  | flush (fn : Nat)
  | atsReq (pasid page : Nat) (wr : Bool)
  | pageReq (prg pasid page : Nat) (wr : Bool)
  | atsInvDone
  | snoopRsp (hit : Bool) (shared : Bool)
  | memRead (addr : Nat) (data : List Byte)
  | unsupported
  | bisnp (addr : Nat) (data : Bool)
  | peerData (data : List Byte)
  | frame (port : Nat) (dst : Nat) (w : Wrap) (h : KHead) (data : List Byte)
  | counts (port : Nat) (dst : Nat) (l : List (Nat × Nat × Nat))
  | tickOut
  | portReq (port : Nat) (addr lines : Nat) (write : Bool) (line : List Byte)
  | mpFlush
  | storeWrite (off : Nat)
  | tapId (v : Nat)
  | keyReq (v : Bool)
  deriving DecidableEq, Repr

/-- Everything but the settings. -/
structure Mach where
  now : Nat
  draws : Nat
  out : List Out
  boot : Boot
  rings : Rings
  lockBusy : Bool
  lockErr : Nat
  bad : Bool
  badOff : Nat
  dlTail : Nat
  dlHead : Nat
  dlOverflow : Nat
  dlSeq : Nat
  dlOff : Bool
  prTail : Nat
  prHead : Nat
  prOverflow : Nat
  prSeq : Nat
  prOff : Bool
  tick : Tick
  ledger : Map LedgerE
  sched : Sched
  irq : Irq
  ports : Ports
  mem : Mem
  hp : HostPort
  mbx : Map Mbx
  xl : Xlate
  doms : Map DomE
  keys : Keys
  domCache : List Nat
  ctxCache : List Nat
  queues : Map Queue
  parcels : Map Parcel
  parcelNext : Nat
  depot : Depot
  arb : Arb
  cores : List Core
  links : List Link
  casc : Casc
  clerks : List Clerk
  store : Store
  power : Power
  st : SelfTest
  telem : Telem
  deriving DecidableEq, Repr

/-- The block. -/
structure Dev where
  cfg : Cfg
  m : Mach
  deriving DecidableEq, Repr

/-- The machine's state: the block and the commands that wait, first in first out. -/
structure State where
  dev : Dev
  pending : List Instr
  deriving DecidableEq, Repr

/-- Why a step stops the block. None: the spec lets no command stop it; failures are statuses and events. -/
inductive Fault where
  /-- Raised by nothing: every row of the table leaves the block running. Safe. -/
  | never
  deriving DecidableEq, Repr

/-- Why a command has no meaning. -/
inductive Refusal where
  /-- An arm without a meaning. Safe: the model stops where the hardware goes on. -/
  | notModelled (mnemonic : String)
  deriving DecidableEq, Repr

/-! ### Reset -/

/-- Straps of the modelled instance. DESIGN CHOICE (log 3): a TRB-32 of stepping B0. -/
def strap0 : Straps := ⟨32, 0x20, 0, 0, 0⟩

/-- A link block after reset (R462); ROLE takes the pin in block 0. -/
def link0 (role : Nat) : LinkCfg := ⟨false, role, 0, 0, 0, 0x88B5, 1000, 32⟩

/-- The settings after a reset (R451 to R464). -/
def cfg0 (s : Straps) : Cfg :=
  { strap := s, fwAddr := 0, fwLen := 0, lockTables := false, lockProt := false, lockRole := false
    gateIdle := false, cap := 95
    tb := ⟨0, 0, 0, 0, 0, 0, 0, 0, 0, 32, 16⟩
    tick := ⟨1000, 20, 0, 0⟩, ptmEpoch := 0
    evtIrq := ⟨0, false, 0⟩, dlIrq := ⟨0, false, 0⟩
    protG := 0, mpShare := List.replicate 16 16
    hp := ⟨128, 16, 128, 16, 100, 0⟩
    links := [link0 s.role, link0 0, link0 0, link0 0]
    noGate := [] }

/-- A core's registers after reset (R464). `test`: 0 none, 1 waiting for self-test, 2 under test, 3 failed. -/
def coreRegs0 : CoreRegs := ⟨0, 0, 0, 0, 0, 0, 0, 0, false, true, false, false, 0, 0, none⟩

/-- A cleared core with given registers (R86, R134, R144, R183, R360): the state at reset and after a scrub. -/
def coreClear (r : CoreRegs) : Core :=
  { regs := r, tc := none, slots := [[], [], [], [], [], []], half0 := [], half1 := [], front := 0
    statSd := none, moveSd := none, side := none, arrayStamps := [], cells := {}, acc := [], accNext := 0, chain := none, result := none
    vregs := [], outlier := [], staging := [], tables := [], codebooks := [], wstore := [], epi := none, clip := 0
    keptMax := none, keptNan := false, loops := [], pc := none, routes := [], waiting := none, enqs := []
    credits := [512, 1024, 1024, 256], rings := [], ringSizes := [], wires := [], taken := [], linkLost := none, gone := [], halts := [], icache := [], tlb := []
    hostData := [], hostLines := [] }

/-- A core after reset. -/
def core0 : Core := coreClear coreRegs0

/-- The tick after a reset: the settings of R279, partial, P from the release (R281, R284). -/
def tick0 : Tick :=
  { cfg := ⟨1000, 20, 0, 0⟩, count := 0, partialTick := true, refused := false, sourceLost := false
    base := 0, nextB := some 1000000, limit := 980000, inMargin := false, reloaded := false
    demand := 0, reserved := 0, t0 := 0, outRise := none, feeds := [] }

/-- Everything else after a cold reset, with a store found as given (R407). -/
def mach0 (s : Straps) (st : Store) (pfLatch : Nat) (bme l0 : Bool) : Mach :=
  { now := 0, draws := 0, out := []
    boot := ⟨0, 0, false, 0, [], 0, [], [], 0, 0, 0, 0, [], 0, true, false, false, none⟩
    rings := ⟨0, 0, 0, 0, 0, 0, 0, [], [], 0⟩
    lockBusy := false, lockErr := 0, bad := false, badOff := 0
    dlTail := 0, dlHead := 0, dlOverflow := 0, dlSeq := 0, dlOff := false
    prTail := 0, prHead := 0, prOverflow := 0, prSeq := 0, prOff := false
    tick := tick0, ledger := [], sched := ⟨none, 0, 0, 0, [], 1, 0, [], none, []⟩
    irq := ⟨0, false, 0, false, [], [], []⟩, ports := ⟨[], 0xFFFF, [], [], []⟩
    mem := ⟨[], [], []⟩
    hp := { orphan := 0, l0 := l0, cause := 0, lost := false, attached := false, epoch := 0, placeRejects := 0
            bme := bme, outTok := 65536, inTok := 65536, tokTime := 0, hbStart := 0, lossStart := none, lossCause := 0
            wait := [], sent := [], seq := 0, unflushed := [], invs := [], place := [], filter := [], bisnp := [], dropped := [], feData := [], feLines := [] }
    mbx := [], xl := ⟨[], [], [], [], [], [], []⟩, doms := [], keys := ⟨[], none, 0, []⟩, domCache := [], ctxCache := []
    queues := [], parcels := [], parcelNext := 0
    depot := ⟨[], [], [], [], [], [], [], [], []⟩, arb := ⟨[], [], [], [], 0, 1, [], [], 1⟩
    cores := List.replicate s.cores core0
    links := List.replicate 4 {}
    casc := {}
    clerks := List.replicate 4 {}
    store := st, power := ⟨false, 16, pfLatch, 0, 0, [], 0, 16, false, false, false, 0⟩
    st := ⟨0, false, [], none, 0, false, [], 0, none⟩, telem := ⟨[], [], [], [], [], 0, 0, 0, [], [], 0, 0, [], []⟩ }

/-- An empty record and an empty store. DESIGN CHOICE (log 3): no store device is found. -/
def ab0 : AB := ⟨none, none⟩
def store0 : Store :=
  { present := false, sizeLog2 := 0, busy := none, writes := 0, errors := 0, slotBooted := 0
    bootRec := ab0, epochRec := ab0, trimRec := ab0, enrolRec := ab0, trustRec := ab0
    slotA := ⟨none, []⟩, slotB := ⟨none, []⟩ }

/-- The machine right after a cold reset. -/
def State.reset : State := { dev := { cfg := cfg0 strap0, m := mach0 strap0 store0 0 true true }, pending := [] }

/-- What the block drove in the last step is dropped. -/
def Dev.quiet (d : Dev) : Dev := { d with m := { d.m with out := [] } }

/-- A frozen block: every clock but the always-on clock stopped (R408). -/
def Dev.frozen (d : Dev) : Bool := d.m.power.fail == 3

/-- A meaning that acts on a frozen block too. -/
def State.runAlways (s : State) (f : Dev → Dev) : Host.Outcome State Fault Refusal :=
  .next { s with dev := f s.dev.quiet }

/-- A meaning: the block's change `f`, the queue untouched; a frozen block does nothing until a cold reset (R408). -/
def State.run (s : State) (f : Dev → Dev) : Host.Outcome State Fault Refusal :=
  s.runAlways fun d => if d.frozen then d else f d

/-- A change of everything but the settings, which it may read. -/
def Dev.onM (d : Dev) (f : Cfg → Mach → Mach) : Dev := { d with m := f d.cfg d.m }

/-- A meaning that changes no setting. -/
def State.runM (s : State) (f : Cfg → Mach → Mach) : Host.Outcome State Fault Refusal := s.run fun d => d.onM f

end Sys2Proof.Machine
end

