-- ==== Sys2Proof/Machine/Flags.lean ====
section
/-! DEFINITION. Status codes and their precedence (R469 to R471), event codes (R472), queue and core state codes. -/

namespace Sys2Proof.Machine

/-! ### Completion status codes (R469) -/
def stOk : Nat := 0x00
def stEmptyOutput : Nat := 0x01
def stOkRerun : Nat := 0x02
def stTimeoutDrained : Nat := 0x10
def stTimeoutKilled : Nat := 0x11
def stTickOverrun : Nat := 0x12
def stRunaway : Nat := 0x13
def stFaultDeviceTable : Nat := 0x20
def stPermission : Nat := 0x22
def stParcelTamper : Nat := 0x30
def stIntegrity : Nat := 0x31
def stBindResources : Nat := 0x32
def stAdmissionRefused : Nat := 0x33
def stPoolRange : Nat := 0x34
def stLinkLost : Nat := 0x40
def stRemoteFault : Nat := 0x41
def stHostLost : Nat := 0x50
def stMalformed : Nat := 0x60
def stParamRange : Nat := 0x61
def stSaturation : Nat := 0x70
def stInternal : Nat := 0xF0

/-- Bit 63 of DETAIL: PERMISSION that killed the context (R469). -/
def killBit : Nat := 2 ^ 63

/-- Whether a status with its detail kills the queue's context (R469). -/
def killing (st detail : Nat) : Bool :=
  st == stFaultDeviceTable || st == stIntegrity || st == stParcelTamper || (st == stPermission && killBit ≤ detail)

/-- Whether a status moves the queue to HELD (R469). -/
def holding (st : Nat) : Bool :=
  st == stRunaway || st == stLinkLost || st == stHostLost || st == stInternal

/-- Rank of a status among those that can reach an issued layer; a lower rank decides (R470). -/
def rank (st detail : Nat) : Nat :=
  if killing st detail then 0
  else if st = stInternal then 1
  else if st = stHostLost then 2
  else if st = stLinkLost then 3
  else if st = stRemoteFault then 4
  else if st = stTimeoutKilled then 5
  else if st = stRunaway then 6
  else if st = stTimeoutDrained then 7
  else if st = stPermission then 8
  else if st = stMalformed then 9
  else if st = stParamRange then 10
  else if st = stTickOverrun then 11
  else if st = stSaturation then 12
  else if st = stOkRerun then 13
  else 14

/-- The status of a layer that one more outcome has reached: the higher stands, among kills the first (R470). -/
def meet (old : Option (Nat × Nat)) (st detail : Nat) : Option (Nat × Nat) :=
  match old with
  | none => some (st, detail)
  | some (s, d) => if rank st detail < rank s d then some (st, detail) else some (s, d)

/-! ### Event codes (R472) -/
def evHostPagePending : Nat := 0x0100
def evHostLost : Nat := 0x0101
def evHostReadIntegrity : Nat := 0x0102
def evTickOverrun : Nat := 0x0200
def evTickEarly : Nat := 0x0201
def evTickMissed : Nat := 0x0202
def evTickSourceLost : Nat := 0x0203
def evAdmissionLost : Nat := 0x0204
def evDeviceTableFault : Nat := 0x0300
def evIntegrityFail : Nat := 0x0301
def evMemoryPortError : Nat := 0x0302
def evDeadLetterFull : Nat := 0x0303
def evEventsLost : Nat := 0x0304
def evLinkConfig : Nat := 0x0400
def evCascadeNoMaster : Nat := 0x0401
def evPeerRefused : Nat := 0x0402
def evPeerLost : Nat := 0x0403
def evMemberLost : Nat := 0x0404
def evClerkRestarted : Nat := 0x0500
def evFirmwareFailed : Nat := 0x0501
def evTrimInvalid : Nat := 0x0502
def evStoreAbsent : Nat := 0x0503
def evSelftestFail : Nat := 0x0504
def evTelemetryUnbound : Nat := 0x0505
def evPowerFail : Nat := 0x0600
def evPowerCapLimiting : Nat := 0x0601
def evPowerCapExceeded : Nat := 0x0602

/-! ### Queue states (R246, R273) -/
def qsEmpty : Nat := 0
def qsReady : Nat := 1
def qsRunning : Nat := 2
def qsHeld : Nat := 3
def qsPaused : Nat := 4
def qsKilled : Nat := 5

/-! ### BOOT_STATUS states (R400) -/
def bsReset : Nat := 0
def bsWaitLoad : Nat := 1
def bsLoading : Nat := 2
def bsRunning : Nat := 3
def bsRecovery : Nat := 4
def bsFailed : Nat := 5

end Sys2Proof.Machine
end

