-- ==== Sys2Proof/Machine/Map.lean ====
section
/-! DEFINITION. Sparse maps with rising keys, byte buffers over them (an unlisted byte reads 0), little-endian
numbers (R4). -/

namespace Sys2Proof.Machine

/-- The value at a key. -/
def mget {α : Type} : Map α → Nat → Option α
  | [], _ => none
  | (a, v) :: r, k => if a = k then some v else mget r k

/-- Set the value at a key. -/
def mset {α : Type} : Map α → Nat → α → Map α
  | [], k, v => [(k, v)]
  | (a, w) :: r, k, v =>
    if k < a then (k, v) :: (a, w) :: r else if a = k then (k, v) :: r else (a, w) :: mset r k v

/-- Remove a key. -/
def mdel {α : Type} (m : Map α) (k : Nat) : Map α := m.filter fun p => p.1 != k

/-- Change the value at a key that is present. -/
def mupd {α : Type} (m : Map α) (k : Nat) (f : α → α) : Map α :=
  match mget m k with
  | some v => mset m k (f v)
  | none => m

/-- Whether a key is present. -/
def mhas {α : Type} (m : Map α) (k : Nat) : Bool := (mget m k).isSome

/-- Change every value. -/
def mmap {α : Type} (f : Nat → α → α) (m : Map α) : Map α := m.map fun p => (p.1, f p.1 p.2)

/-- Keep the entries a test accepts. -/
def mfilter {α : Type} (f : Nat → α → Bool) (m : Map α) : Map α := m.filter fun p => f p.1 p.2

/-- Keys strictly rising. -/
def mwf {α : Type} : Map α → Bool
  | [] => true
  | [_] => true
  | (a, _) :: (b, w) :: r => decide (a < b) && mwf ((b, w) :: r)

/-- The smallest key from `k` upward that is absent. -/
def mfree {α : Type} : Map α → Nat → Nat
  | [], k => k
  | (a, _) :: r, k => if a < k then mfree r k else if a = k then mfree r (k + 1) else k

/-- One byte of a buffer. -/
def bget (m : Map Byte) (a : Nat) : Byte := (mget m a).getD 0

/-- Write one byte; a zero leaves no entry, so equal buffers are equal data. -/
def bset (m : Map Byte) (a : Nat) (v : Byte) : Map Byte := if v = 0 then mdel m a else mset m a v

/-- `n` bytes from address `a`. -/
def bread (m : Map Byte) (a : Nat) : Nat → List Byte
  | 0 => []
  | n + 1 => bget m a :: bread m (a + 1) n

/-- Write bytes from address `a`. -/
def bwrite (m : Map Byte) (a : Nat) : List Byte → Map Byte
  | [] => m
  | b :: r => bwrite (bset m a b) (a + 1) r

/-- Remove the bytes of a range: they read 0. -/
def bzero (m : Map Byte) (a n : Nat) : Map Byte := m.filter fun p => p.1 < a || a + n ≤ p.1

/-- The canonical form of a buffer: rising keys, no zero listed. -/
def bwf (m : Map Byte) : Bool := mwf m && m.all fun p => p.2 != 0

/-- The little-endian number of a byte list (R4). -/
def leNat : List Byte → Nat
  | [] => 0
  | b :: r => b.toNat + 256 * leNat r

/-- The `w` low bytes of a number, little-endian (R4). -/
def toLe : Nat → Nat → List Byte
  | 0, _ => []
  | w + 1, v => BitVec.ofNat 8 v :: toLe w (v / 256)

/-- A little-endian number of `w` bytes at an offset of a byte list. -/
def leAt (l : List Byte) (off w : Nat) : Nat := leNat ((l.drop off).take w)

/-- A little-endian number of `w` bytes in a buffer. -/
def bnum (m : Map Byte) (a w : Nat) : Nat := leNat (bread m a w)

/-- Write a number of `w` bytes to a buffer. -/
def bput (m : Map Byte) (a w v : Nat) : Map Byte := bwrite m a (toLe w v)

/-- ⌈a / b⌉. -/
def cdiv (a b : Nat) : Nat := (a + b - 1) / b

/-- Element `i` of a list of numbers, 0 beyond its end. -/
def nth (l : List Nat) (i : Nat) : Nat := l.getD i 0

/-- Replace element `i` of a list where it exists. -/
def lset {α : Type} (l : List α) (i : Nat) (v : α) : List α := l.set i v

/-- Change element `i` of a list where it exists. -/
def lupd {α : Type} (l : List α) (i : Nat) (f : α → α) : List α :=
  match l[i]? with
  | some v => l.set i (f v)
  | none => l

end Sys2Proof.Machine
end

