-- ==== Sys2Proof/Machine/Crypto.lean ====
section
/-! DEFINITION. The cryptographic functions the spec takes from published standards (R350, R351, R354, R357 to R359, R370, R376, R397,
R398, R402, R169). PRESUMED (log 5): FIPS 180-4 (SHA-384), FIPS 198-1 (HMAC), FIPS 197 (AES-256), IEEE 1619 (XTS), SP 800-38A (CTR), SP 800-38D
(GMAC), SP 800-38F (KW), SP 800-108 (KDF), FIPS 186-5 and SP 800-56A (P-384), IEEE 802.3 (CRC-32) as they were published. -/

namespace Sys2Proof.Machine

/-- The `w` low bytes of a number, big-endian: the byte order of the standards (R4). -/
def toBe (w v : Nat) : List Byte := (toLe w v).reverse

/-- The big-endian number of a byte list. -/
def beNat (l : List Byte) : Nat := leNat l.reverse

/-- Two byte strings, bit by bit. -/
def xorL (a b : List Byte) : List Byte := List.zipWith (· ^^^ ·) a b

/-- A string cut into blocks of `w` bytes; `n` of them. -/
def cutBlocks (w : Nat) : Nat → List Byte → List (List Byte)
  | 0, _ => []
  | n + 1, l => l.take w :: cutBlocks w n (l.drop w)

/-! ### SHA-384 (FIPS 180-4) -/

/-- The round constants of SHA-512. -/
def shaK : List Nat :=
  [0x428a2f98d728ae22, 0x7137449123ef65cd, 0xb5c0fbcfec4d3b2f, 0xe9b5dba58189dbbc,
   0x3956c25bf348b538, 0x59f111f1b605d019, 0x923f82a4af194f9b, 0xab1c5ed5da6d8118,
   0xd807aa98a3030242, 0x12835b0145706fbe, 0x243185be4ee4b28c, 0x550c7dc3d5ffb4e2,
   0x72be5d74f27b896f, 0x80deb1fe3b1696b1, 0x9bdc06a725c71235, 0xc19bf174cf692694,
   0xe49b69c19ef14ad2, 0xefbe4786384f25e3, 0xfc19dc68b8cd5b5, 0x240ca1cc77ac9c65]
  ++
  [0x2de92c6f592b0275, 0x4a7484aa6ea6e483, 0x5cb0a9dcbd41fbd4, 0x76f988da831153b5,
   0x983e5152ee66dfab, 0xa831c66d2db43210, 0xb00327c898fb213f, 0xbf597fc7beef0ee4,
   0xc6e00bf33da88fc2, 0xd5a79147930aa725, 0x6ca6351e003826f, 0x142929670a0e6e70,
   0x27b70a8546d22ffc, 0x2e1b21385c26c926, 0x4d2c6dfc5ac42aed, 0x53380d139d95b3df,
   0x650a73548baf63de, 0x766a0abb3c77b2a8, 0x81c2c92e47edaee6, 0x92722c851482353b]
  ++
  [0xa2bfe8a14cf10364, 0xa81a664bbc423001, 0xc24b8b70d0f89791, 0xc76c51a30654be30,
   0xd192e819d6ef5218, 0xd69906245565a910, 0xf40e35855771202a, 0x106aa07032bbd1b8,
   0x19a4c116b8d2d0c8, 0x1e376c085141ab53, 0x2748774cdf8eeb99, 0x34b0bcb5e19b48a8,
   0x391c0cb3c5c95a63, 0x4ed8aa4ae3418acb, 0x5b9cca4f7763e373, 0x682e6ff3d6b2b8a3,
   0x748f82ee5defb2fc, 0x78a5636f43172f60, 0x84c87814a1f0ab72, 0x8cc702081a6439ec]
  ++
  [0x90befffa23631e28, 0xa4506cebde82bde9, 0xbef9a3f7b2c67915, 0xc67178f2e372532b,
   0xca273eceea26619c, 0xd186b8c721c0c207, 0xeada7dd6cde0eb1e, 0xf57d4f7fee6ed178,
   0x6f067aa72176fba, 0xa637dc5a2c898a6, 0x113f9804bef90dae, 0x1b710b35131c471b,
   0x28db77f523047d84, 0x32caab7b40c72493, 0x3c9ebe0a15c9bebc, 0x431d67c49c100d4c,
   0x4cc5d4becb3e42b6, 0x597f299cfc657e2a, 0x5fcb6fab3ad6faec, 0x6c44198c4a475817]

/-- The initial hash value of SHA-384. -/
def shaIv : List Nat :=
  [0xcbbb9d5dc1059ed8, 0x629a292a367cd507, 0x9159015a3070dd17, 0x152fecd8f70e5939,
   0x67332667ffc00b31, 0x8eb44a8768581511, 0xdb0c2e0d64f98fa7, 0x47b5481dbefa4fa4]

/-- Rotation of a 64-bit word to the right. -/
def ror (x n : Nat) : Nat := (x >>> n) ||| ((x <<< (64 - n)) % 2 ^ 64)

/-- `n` more words of the message schedule; the latest stands first. -/
def shaSched : Nat → List Nat → List Nat
  | 0, w => w
  | n + 1, w =>
    let x := nth w 14
    let y := nth w 1
    shaSched n (((ror y 19 ^^^ ror y 61 ^^^ (y >>> 6)) + nth w 6 + (ror x 1 ^^^ ror x 8 ^^^ (x >>> 7)) + nth w 15) % 2 ^ 64 :: w)

/-- One round on the working variables a to h; `p` is its constant and its word. -/
def shaRound (v : List Nat) (p : Nat × Nat) : List Nat :=
  match v with
  | [a, b, c, d, e, f, g, h] =>
    let t := h + (ror e 14 ^^^ ror e 18 ^^^ ror e 41) + ((e &&& f) ^^^ ((2 ^ 64 - 1 - e) &&& g)) + p.1 + p.2
    let u := (ror a 28 ^^^ ror a 34 ^^^ ror a 39) + ((a &&& b) ^^^ (a &&& c) ^^^ (b &&& c))
    [(t + u) % 2 ^ 64, a, b, c, (d + t) % 2 ^ 64, e, f, g]
  | _ => v

/-- One 128-byte block. -/
def shaBlock (v : List Nat) (b : List Byte) : List Nat :=
  let w := (shaSched 64 ((cutBlocks 8 16 b).map beNat).reverse).reverse
  List.zipWith (fun x y => (x + y) % 2 ^ 64) v ((shaK.zip w).foldl shaRound v)

/-- The padded message. -/
def shaPad (l : List Byte) : List Byte :=
  l ++ [0x80] ++ List.replicate ((239 - l.length % 128) % 128) (0 : Byte) ++ toBe 16 (8 * l.length)

/-- SHA-384 of a byte string, 48 bytes. -/
def sha384 (l : List Byte) : List Byte :=
  let p := shaPad l
  (((cutBlocks 128 (p.length / 128) p).foldl shaBlock shaIv).take 6).flatMap (toBe 8)

/-! ### HMAC and the KDF (FIPS 198-1, SP 800-108, R354) -/

/-- HMAC-SHA-384. -/
def hmac (key msg : List Byte) : List Byte :=
  let k := if 128 < key.length then sha384 key else key
  let k := k ++ List.replicate (128 - k.length) (0 : Byte)
  sha384 (k.map (· ^^^ 0x5C) ++ sha384 (k.map (· ^^^ 0x36) ++ msg))

/-- The bytes of an ASCII label. -/
def label (s : String) : List Byte := s.toList.map fun ch => BitVec.ofNat 8 ch.toNat

/-- `n` bytes of key in counter mode: a 32-bit counter from 1, then label ‖ 0x00 ‖ context ‖ L (R354). DESIGN CHOICE (log 5): counter and L, in
bits, are 32-bit big-endian numbers. -/
def kdf (key : List Byte) (lab : String) (ctx : List Byte) (n : Nat) : List Byte :=
  ((List.range (cdiv n 48)).flatMap fun i => hmac key (toBe 4 (i + 1) ++ label lab ++ [0] ++ ctx ++ toBe 4 (8 * n))).take n

/-! ### AES-256 (FIPS 197) -/

/-- Times x in GF(2^8). -/
def xtime (a : Nat) : Nat := if a < 128 then 2 * a else (2 * a) % 256 ^^^ 0x1B

/-- A product in GF(2^8), `n` bits of the second factor still to take. -/
def gmulN : Nat → Nat → Nat → Nat
  | 0, _, _ => 0
  | n + 1, a, b => (if b % 2 = 1 then a else 0) ^^^ gmulN n (xtime a) (b / 2)
def gmul (a b : Nat) : Nat := gmulN 8 a b

/-- a^254: the inverse of `a`, and 0 of 0. -/
def ginv (a : Nat) : Nat :=
  let p := fun x => gmul x x
  let a2 := p a
  let a4 := p a2
  let a8 := p a4
  let a16 := p a8
  let a32 := p a16
  let a64 := p a32
  gmul (gmul (gmul a2 a4) (gmul a8 a16)) (gmul (gmul a32 a64) (p a64))

/-- A byte turned left. -/
def rolB (x n : Nat) : Nat := (x * 2 ^ n) % 256 ||| x / 2 ^ (8 - n)

/-- The S-box and its inverse. -/
def sboxVal (a : Nat) : Nat := let x := ginv a; x ^^^ rolB x 1 ^^^ rolB x 2 ^^^ rolB x 3 ^^^ rolB x 4 ^^^ 0x63
def sboxTab : List Nat := (List.range 256).map sboxVal
def sboxInvTab : List Nat := (List.range 256).map fun v => sboxTab.findIdx (· == v)

/-- The key schedule, four bytes a word, the latest word first; `i` is the next word's index and `rc` the round constant. -/
def aesSched : Nat → Nat → Nat → List (List Nat) → List (List Nat)
  | 0, _, _, w => w
  | n + 1, i, rc, w =>
    let t := w.headD []
    let sub := t.map (nth sboxTab)
    let t := if i % 8 = 0 then
        match sub.drop 1 ++ sub.take 1 with
        | x :: r => (x ^^^ rc) :: r
        | [] => []
      else if i % 8 = 4 then sub else t
    aesSched n (i + 1) (if i % 8 = 0 then xtime rc else rc) (List.zipWith (· ^^^ ·) (w.getD 7 []) t :: w)

/-- The 15 round keys of a 32-byte key, 16 numbers each. -/
def aesKeys (key : List Byte) : List (List Nat) :=
  let w := (aesSched 52 8 1 ((cutBlocks 4 8 key).map fun x => x.map (·.toNat)).reverse).reverse
  (List.range 15).map fun i => ((w.drop (4 * i)).take 4).flatten

def addKey (s k : List Nat) : List Nat := List.zipWith (· ^^^ ·) s k

/-- A column times the polynomial whose coefficients stand in `c`. -/
def mixWith (c s : List Nat) : List Nat :=
  (List.range 16).map fun i => ((List.range 4).map fun j => gmul (nth s (i / 4 * 4 + (i + j) % 4)) (nth c j)).foldl (· ^^^ ·) 0

/-- ShiftRows, and its inverse. -/
def shiftRows (s : List Nat) : List Nat := (List.range 16).map fun i => nth s ((i + 4 * (i % 4)) % 16)
def unshiftRows (s : List Nat) : List Nat := (List.range 16).map fun i => nth s ((i + 16 - 4 * (i % 4)) % 16)

/-- One block enciphered and deciphered under a key. -/
def aesEnc (key block : List Byte) : List Byte :=
  let ks := aesKeys key
  let sub (s : List Nat) : List Nat := shiftRows (s.map (nth sboxTab))
  let s := ((ks.drop 1).take 13).foldl (fun s k => addKey (mixWith [2, 3, 1, 1] (sub s)) k) (addKey (block.map (·.toNat)) (ks.headD []))
  (addKey (sub s) (ks.getLastD [])).map (BitVec.ofNat 8)
def aesDec (key block : List Byte) : List Byte :=
  let ks := (aesKeys key).reverse
  let sub (s : List Nat) : List Nat := (unshiftRows s).map (nth sboxInvTab)
  let s := ((ks.drop 1).take 13).foldl (fun s k => mixWith [14, 11, 13, 9] (addKey (sub s) k)) (addKey (block.map (·.toNat)) (ks.headD []))
  (addKey (sub s) (ks.getLastD [])).map (BitVec.ofNat 8)

/-- AES-256-CTR: a 12-byte nonce and a 32-bit big-endian block counter from 0 (SP 800-38A, R358). -/
def aesCtr (key nonce l : List Byte) : List Byte :=
  (cutBlocks 16 (cdiv l.length 16) l).zipIdx.flatMap fun b => xorL b.1 (aesEnc key (nonce ++ toBe 4 b.2))

/-- Times α in the tweak's GF(2^128) (IEEE 1619). -/
def xtsNext (t : Nat) : Nat := if t < 2 ^ 127 then 2 * t else (2 * t) % 2 ^ 128 ^^^ 0x87

/-- The blocks of a data unit from its tweak on. -/
def xtsBlocks (f : List Byte → List Byte) : Nat → List (List Byte) → List Byte
  | _, [] => []
  | t, b :: r => xorL (f (xorL b (toLe 16 t))) (toLe 16 t) ++ xtsBlocks f (xtsNext t) r

/-- AES-256-XTS of a 64-byte line: its two keys and its number as a 128-bit little-endian tweak (R350). -/
def xtsEnc (k1 k2 : List Byte) (line : Nat) (l : List Byte) : List Byte :=
  xtsBlocks (aesEnc k1) (leNat (aesEnc k2 (toLe 16 line))) (cutBlocks 16 4 l)

/-- A product in GCM's GF(2^128), the first bit highest; `n` bits of `x` are still to take. -/
def ghashMul : Nat → Nat → Nat → Nat
  | 0, _, _ => 0
  | n + 1, x, v => (if x / 2 ^ n % 2 = 1 then v else 0) ^^^ ghashMul n x (if v % 2 = 1 then v / 2 ^^^ 0xE1 * 2 ^ 120 else v / 2)

/-- GMAC of a string under a key and a 96-bit IV (SP 800-38D). -/
def gmac (key iv aad : List Byte) : List Byte :=
  let h := beNat (aesEnc key (List.replicate 16 0))
  let bs := (cutBlocks 16 (cdiv aad.length 16) aad).map (fun b => b ++ List.replicate (16 - b.length) (0 : Byte))
    ++ [toBe 8 (8 * aad.length) ++ toBe 8 0]
  xorL (toBe 16 (bs.foldl (fun y b => ghashMul 128 (y ^^^ beNat b) h) 0)) (aesEnc key (iv ++ toBe 4 1))

/-- The steps of a key unwrap (SP 800-38F): `t` is the next step's number, `a` the check block, the key's blocks in order. -/
def kwSteps (key : List Byte) : Nat → List Byte → List (List Byte) → List Byte × List (List Byte)
  | 0, a, r => (a, r)
  | t + 1, a, r =>
    let i := t % r.length
    let b := aesDec key (toBe 8 (beNat a ^^^ (t + 1)) ++ r.getD i [])
    kwSteps key t (b.take 8) (lset r i (b.drop 8))

/-- The key in a 40-byte wrapping, or none when the check fails (R359). -/
def kwUnwrap (key w : List Byte) : Option (List Byte) :=
  let x := kwSteps key 24 (w.take 8) (cutBlocks 8 4 (w.drop 8))
  if x.1 = List.replicate 8 (0xA6 : Byte) then some x.2.flatten else none

/-! ### P-384 (FIPS 186-5, SP 800-56A) -/

/-- The field, the order of the base point, the curve's b, the base point. -/
def ecP : Nat := 2 ^ 384 - 2 ^ 128 - 2 ^ 96 + 2 ^ 32 - 1
def ecN : Nat := 0xffffffffffffffffffffffffffffffffffffffffffffffffc7634d81f4372ddf581a0db248b0a77aecec196accc52973
def ecB : Nat := 0xb3312fa7e23ee7e4988e056be3f82d19181d9c6efe8141120314088f5013875ac656398d8a2ed19d2a85c8edd3ec2aef
def ecG : Nat × Nat :=
  (0xaa87ca22be8b05378eb1c71ef320ad746e1d3b628ba79b9859f741e082542a385502f25dbf55296c3a545e3872760ab7,
   0x3617de4a96262c6f5d9e98bf9292dc29f8f41dbd289a147ce9da3113b5f0b8c00a60b1ce1d7e819d7a431d7c90ea0e5f)

/-- b^e mod m; `n` bits of the exponent are still to take, the highest first. -/
def powMod (m b e : Nat) : Nat → Nat
  | 0 => 1
  | n + 1 => let x := powMod m b (e / 2) n; if e % 2 = 1 then x * x % m * b % m else x * x % m

/-- The inverse modulo a prime of at most 384 bits. -/
def invMod (m a : Nat) : Nat := powMod m (a % m) (m - 2) 384

/-- The sum of two points; none is the point at infinity. -/
def ecAdd : Option (Nat × Nat) → Option (Nat × Nat) → Option (Nat × Nat)
  | none, q => q
  | p, none => p
  | some (x, y), some (u, v) =>
    if x = u && (y + v) % ecP = 0 then none
    else
      let s := if x = u then (3 * x * x + ecP - 3) * invMod ecP (2 * y) % ecP else (v + ecP - y) * invMod ecP (u + ecP - x) % ecP
      let r := (s * s + 2 * ecP - x - u) % ecP
      some (r, (s * (x + ecP - r) + ecP - y) % ecP)

/-- k · P; `n` bits of k are still to take. -/
def ecMul (p : Option (Nat × Nat)) (k : Nat) : Nat → Option (Nat × Nat)
  | 0 => none
  | n + 1 => let x := ecMul p (k / 2) n; let d := ecAdd x x; if k % 2 = 1 then ecAdd d p else d

/-- A public key's point from x and y, where it lies on the curve. -/
def ecPoint (x y : Nat) : Option (Nat × Nat) :=
  if x < ecP && y < ecP && y * y % ecP == (x * x * x + (ecP - 3) * x + ecB) % ecP then some (x, y) else none

/-- A private key from 448 derived bits (FIPS 186-5, extra random bits). -/
def ecPriv (l : List Byte) : Nat := beNat l % (ecN - 1) + 1

/-- The public key of a private key, x then y, big-endian as in SEC 1. -/
def ecPub (d : Nat) : List Byte :=
  match ecMul (some ecG) d 384 with
  | some (x, y) => toBe 48 x ++ toBe 48 y
  | none => []

/-- The shared x-coordinate of a private key and a peer's point, none for a key that is not on the curve. -/
def ecdh (d x y : Nat) : Option (List Byte) := (ecPoint x y).bind fun q => (ecMul (some q) d 384).map fun z => toBe 48 z.1

/-- Whether an ECDSA P-384 signature, r then s, of a 48-byte hash verifies under a public key, x then y, all big-endian. -/
def sigOk (key hash sig : List Byte) : Bool :=
  let r := beNat (sig.take 48)
  let s := beNat ((sig.drop 48).take 48)
  match ecPoint (beNat (key.take 48)) (beNat ((key.drop 48).take 48)) with
  | none => false
  | some q =>
    if r = 0 || ecN ≤ r || s = 0 || ecN ≤ s then false
    else
      let w := invMod ecN s
      match ecAdd (ecMul (some ecG) (beNat (hash.take 48) * w % ecN) 384) (ecMul (some q) (r * w % ecN) 384) with
      | some p => p.1 % ecN == r
      | none => false

/-- An ECDSA P-384 signature, r then s, of a hash; `k` is its per-message secret. -/
def ecSign (d : Nat) (hash : List Byte) (k : Nat) : List Byte :=
  let k := k % (ecN - 1) + 1
  let r := match ecMul (some ecG) k 384 with | some p => p.1 % ecN | none => 0
  toBe 48 r ++ toBe 48 ((beNat (hash.take 48) + r * d) % ecN * invMod ecN k % ecN)

/-! ### CRC-32 (IEEE 802.3, R402) -/

/-- A CRC register after `n` more bits. -/
def crcBits : Nat → Nat → Nat
  | 0, r => r
  | n + 1, r => crcBits n (if r % 2 = 1 then r / 2 ^^^ 0xEDB88320 else r / 2)

/-- CRC-32 of a byte string. -/
def crc32 (l : List Byte) : Nat := (l.foldl (fun r b => crcBits 8 (r ^^^ b.toNat)) (2 ^ 32 - 1)) ^^^ (2 ^ 32 - 1)

end Sys2Proof.Machine
end

