-- ==== Sys2Proof/Config.lean ====
section
/-! DEFINITION. What the spec leaves open: opaque constants without a body. Nothing in Lean can evaluate them, so
no claim rests on a value of theirs. Codes are FP32 codes below 2^32 unless said otherwise. -/

namespace Sys2Proof.Config

/-- The quotient a divide gives (R96: within 1 ulp). Log 6. -/
opaque div : Nat → Nat → Nat
/-- The reciprocal an engine gives (R96: within 1 ulp); nothing ties it to a divide's. Log 6. -/
opaque rcp : Nat → Nat
/-- The reciprocal square root an engine gives (R96: within 1 ulp). Log 6. -/
opaque rsq : Nat → Nat
/-- The square root an engine gives (R96: within 1 ulp). Log 6. -/
opaque sqrt : Nat → Nat
/-- The result of table function number `f` (R96: within 2 ulp, 4 ulp or 2^−24). Log 6. -/
opaque tabFn : Nat → Nat → Nat
/-- The user-table interpolation (R96, R99: within 1 ulp of the exact interpolant): y0, y1, the bounds, the input. Log 6. -/
opaque userTab : Nat → Nat → Nat → Nat → Nat → Nat
/-- A sum over a vector in the engine's fixed binary tree (R97). Log 6. -/
opaque vsum : List Nat → Nat
/-- A sum of squares over a vector (R97). Log 6. -/
opaque vsumsq : List Nat → Nat
/-- Output number `i` of the softmax of a vector (R98). Log 6. -/
opaque softmax : List Nat → Nat → Nat
/-- The normalised value number `i` before γ and β (R98): RMS form or not, the vector, ε, the index. Log 6. -/
opaque norm : Bool → List Nat → Nat → Nat → Nat
/-- Draw number `n` of a value the spec leaves open. Logs 5, 6, 19. -/
opaque draw : Nat → Nat

/-- Whether a hash is one of the four firmware-signing key hashes of the boot ROM (R398). Log 5. -/
opaque fwKey : List Byte → Bool
/-- The number of entries of a G1 FINAL section's layer entry table, whose layout the spec keeps private (R164, R168). Log 40. -/
opaque finalEntries : List Byte → Nat
/-- A gang member's declared inbound line, as the power of two of its ring's size, and what its declared outbound line is wired to, as
member and line (R149): layer record, member, line. The parcel's layout of them is private. Log 41. -/
opaque gangIn : List Byte → Nat → Nat → Option Nat
opaque gangOut : List Byte → Nat → Nat → Option (Nat × Nat)
/-- The windows of a layer's stream templates (R103, R105): whether the array (0), a sum of the Window Unit (1) or pooling (2) reads each, its
element counts and its window block, by PARCEL_ID and layer record. Templates are private to a parcel's FINAL section (R164). Log 41. -/
opaque windows : List Byte → List Byte → List (Nat × List Nat × WinBlk)
/-- The zero point that a constant in padding takes from an operand with one zero point per row (R108). Log 42. -/
opaque padZp : Nat
/-- A finalised section names a format outside the roles R29 allows it (R29, R164). Log 40. -/
opaque rolesBad : List Byte → Bool
/-- The saturation threshold a layer's YIF declaration gives (R239): its layer record and parameter block. Log 41. -/
opaque threshold : List Byte → List Nat → Nat
/-- The base of the first reading S-slot operation that names SPACE 3 in a tile-command's program (R205): layer record, parameter
block, index, whether of the alternate. Log 41. -/
opaque resident : List Byte → List Nat → Nat → Bool → Option Nat
/-- Route and sequence of the remote WAIT in word 0 of a tile-command's program (R148): the same arguments. Log 41. -/
opaque remoteWait : List Byte → List Nat → Nat → Bool → Option (Nat × Nat)
/-- The two results of VCMP, as FP32 codes, and what VSEL takes any other value for (R143 names neither). Log 43. -/
opaque cmpTrue : Nat
opaque cmpFalse : Nat
opaque selOther : Nat → Bool

/-- The ICV of a link frame: association key, AN, PN, the bytes it covers (R367, R376); MACsec's salt and SSCI are its standard's. Log 36. -/
opaque icv : Nat → Nat → Nat → List Byte → Nat

end Sys2Proof.Config
end

