-- ==== Sys2Proof/Machine/Num.lean ====
section
/-! DEFINITION. Exact arithmetic on floating values and the one rounding rule (R37 to R43, R50 to R56, R87). -/

namespace Sys2Proof.Machine

/-- A bit vector's field: `n` bits of `x` from bit `lo`. -/
def bits (x lo n : Nat) : Nat := (x >>> lo) % 2 ^ n

/-- m · 2^k rounded to an integer, ties away from zero (R50). -/
def rna (m : Nat) (k : Int) : Nat :=
  match k with
  | .ofNat k => m <<< k
  | .negSucc j => (m + (1 <<< j)) >>> (j + 1)

/-- n / d rounded to an integer, ties away from zero (R50). -/
def rnaDiv (n d : Nat) : Nat := (2 * n + d) / (2 * d)

/-- The layout of a floating format (R37, R38, R40). -/
structure FFmt where
  mb : Nat
  bias : Nat
  maxCode : Nat
  infCode : Option Nat
  nanCode : Option Nat
  wid : Nat
  deriving DecidableEq, Repr

/-- The FP32 layout. -/
def f32 : FFmt := ⟨23, 127, 0x7F7FFFFF, some 0x7F800000, some 0x7FC00000, 32⟩

/-- The floating formats by code (R29). -/
def ffmt : Nat → Option FFmt
  | 0x5 => some ⟨1, 1, 0x7, none, none, 4⟩
  | 0x6 => some ⟨2, 3, 0x1F, none, none, 6⟩
  | 0x7 => some ⟨3, 1, 0x1F, none, none, 6⟩
  | 0x8 => some ⟨3, 7, 0x7E, none, some 0x7F, 8⟩
  | 0x9 => some ⟨2, 15, 0x7B, some 0x7C, some 0x7E, 8⟩
  | 0xA => some ⟨10, 15, 0x7BFF, some 0x7C00, some 0x7E00, 16⟩
  | 0xB => some ⟨7, 127, 0x7F7F, some 0x7F80, some 0x7FC0, 16⟩
  | 0xC => some f32
  | _ => none

/-- The value of a floating code (R37, R38). -/
def decodeF (f : FFmt) (c : Nat) : Fv :=
  let s := (c >>> (f.wid - 1)) % 2 == 1
  let g := c % 2 ^ (f.wid - 1)
  let v : Fv :=
    let e := g >>> f.mb
    let m := g % 2 ^ f.mb
    if e = 0 then .fin s m (1 - (f.bias : Int) - f.mb)
    else .fin s (2 ^ f.mb + m) ((e : Int) - f.bias - f.mb)
  match f.infCode, f.nanCode with
  | some i, _ => if g = i then .inf s else if i < g then .nan else v
  | none, some n => if g = n then .nan else v
  | none, none => v

/-- The magnitude code nearest to m · 2^e, ties away, with no upper limit of the exponent (R50). -/
def roundMag (f : FFmt) (m : Nat) (e : Int) : Nat :=
  if m = 0 then 0 else
    let emin : Int := 1 - (f.bias : Int) - f.mb
    let q : Int := max ((Nat.log2 m : Int) + e - f.mb) emin
    rna m (e - q) + (q - emin).toNat <<< f.mb

/-- A code with its sign. -/
def withSign (f : FFmt) (neg : Bool) (g : Nat) : Nat := if neg then g + 2 ^ (f.wid - 1) else g

/-- The canonical NaN of a format, or +0 where it has none (R40, R53). -/
def nanOf (f : FFmt) : Nat := f.nanCode.getD 0

/-- Conversion of a value into a floating format: the code, and whether it is a clip event (R53, R54). -/
def toFloat (f : FFmt) : Fv → Nat × Bool
  | .nan => (nanOf f, f.nanCode.isNone)
  | .inf s =>
    match f.infCode with
    | some i => (withSign f s i, false)
    | none => (withSign f s f.maxCode, true)
  | .fin s m e =>
    let g := roundMag f m e
    if f.maxCode < g then (withSign f s f.maxCode, true) else (withSign f s g, false)

/-- FP32 result of Vector Engine arithmetic: overflow gives an infinity, no clip event (R87). -/
def enc32 : Fv → Nat
  | .nan => 0x7FC00000
  | .inf s => withSign f32 s 0x7F800000
  | .fin s m e => withSign f32 s (min (roundMag f32 m e) 0x7F800000)

/-- The value of an FP32 code. -/
def dec32 (c : Nat) : Fv := decodeF f32 c

/-- Sign of a value. -/
def fvIsNeg : Fv → Bool
  | .nan => false
  | .inf s => s
  | .fin s _ _ => s

/-- Signed significand of a finite value scaled to exponent `e` not above its own. -/
def sigAt (neg : Bool) (m : Nat) (e0 e : Int) : Int :=
  let v : Int := (m <<< (e0 - e).toNat : Nat)
  if neg then -v else v

/-- The exact sum (IEEE specials; an exact zero is −0 only when both are −0, R39). -/
def fvAdd : Fv → Fv → Fv
  | .nan, _ => .nan
  | _, .nan => .nan
  | .inf s, .inf t => if s = t then .inf s else .nan
  | .inf s, .fin _ _ _ => .inf s
  | .fin _ _ _, .inf t => .inf t
  | .fin s m e, .fin t n g =>
    let x := min e g
    let v := sigAt s m e x + sigAt t n g x
    if v = 0 then .fin (s && t) 0 x else .fin (v < 0) v.natAbs x

/-- The exact product (0 · ∞ is NaN). -/
def fvMul : Fv → Fv → Fv
  | .nan, _ => .nan
  | _, .nan => .nan
  | .inf s, .inf t => .inf (s != t)
  | .inf s, .fin t m _ => if m = 0 then .nan else .inf (s != t)
  | .fin s m _, .inf t => if m = 0 then .nan else .inf (s != t)
  | .fin s m e, .fin t n g => .fin (s != t) (m * n) (e + g)

/-- Negation. -/
def fvNeg : Fv → Fv
  | .nan => .nan
  | .inf s => .inf (!s)
  | .fin s m e => .fin (!s) m e

/-- x < y of finite or infinite values; false with a NaN; −0 = +0. -/
def fvLt : Fv → Fv → Bool
  | .nan, _ => false
  | _, .nan => false
  | .inf s, .inf t => s && !t
  | .inf s, .fin _ _ _ => s
  | .fin _ _ _, .inf t => !t
  | .fin s m e, .fin t n g => let x := min e g; decide (sigAt s m e x < sigAt t n g x)

/-- Equality of values, −0 = +0; false with a NaN. -/
def fvEq (x y : Fv) : Bool :=
  match x, y with
  | .nan, _ => false
  | _, .nan => false
  | _, _ => !(fvLt x y) && !(fvLt y x)

/-- Whether a value is a NaN. -/
def fvIsNan : Fv → Bool
  | .nan => true
  | _ => false

/-- Whether a value is finite. -/
def fvIsFin : Fv → Bool
  | .fin _ _ _ => true
  | _ => false

/-- Whether a value is zero. -/
def fvIsZero : Fv → Bool
  | .fin _ m _ => m == 0
  | _ => false

/-- Magnitude. -/
def fvAbs : Fv → Fv
  | .nan => .nan
  | .inf _ => .inf false
  | .fin _ m e => .fin false m e

/-- An integer as a value. -/
def fvInt (v : Int) : Fv := .fin (v < 0) v.natAbs 0

/-- FP32 add, subtract, multiply and fused multiply-add on codes, rounded once (R87). -/
def addF (a b : Nat) : Nat := enc32 (fvAdd (dec32 a) (dec32 b))
def subF (a b : Nat) : Nat := enc32 (fvAdd (dec32 a) (fvNeg (dec32 b)))
def mulF (a b : Nat) : Nat := enc32 (fvMul (dec32 a) (dec32 b))
def fmaF (a b c : Nat) : Nat := enc32 (fvAdd (fvMul (dec32 a) (dec32 b)) (dec32 c))

/-- Min and max: canonical NaN with a NaN, −0 less than +0 (R87). -/
def minF (a b : Nat) : Nat :=
  let x := dec32 a
  let y := dec32 b
  if fvIsNan x || fvIsNan y then 0x7FC00000
  else if fvEq x y then (if fvIsNeg x then a else b) else if fvLt x y then a else b
def maxF (a b : Nat) : Nat :=
  let x := dec32 a
  let y := dec32 b
  if fvIsNan x || fvIsNan y then 0x7FC00000
  else if fvEq x y then (if fvIsNeg x then b else a) else if fvLt x y then b else a

/-- |x| and −x on codes; a NaN becomes canonical (R40). -/
def absF (a : Nat) : Nat := enc32 (fvAbs (dec32 a))
def negF (a : Nat) : Nat := enc32 (fvNeg (dec32 a))

/-- n/d · 2^e rounded into FP32 with overflow to infinity (R50, R87). A zero divisor is the caller's case. -/
def ratF (neg : Bool) (n d : Nat) (e : Int) : Nat :=
  if n = 0 then withSign f32 neg 0 else
    let k := 60 + Nat.log2 d
    let q := (n <<< k) / d
    let sticky := if (n <<< k) % d = 0 then 0 else 1
    enc32 (.fin neg (2 * q + sticky) (e - k - 1))

/-- The exponent of ulp(r) for a finite code (R87). -/
def ulpExp (c : Nat) : Int :=
  let e := (c % 2 ^ 31) >>> 23
  (max e 1 : Nat) - 150

/-- Whether finite code `c` lies within `k` ulp of the exact n/d · 2^e, signed by `neg`: the bound of R96. -/
def nearRat (c k : Nat) (neg : Bool) (n d : Nat) (e : Int) : Bool :=
  match dec32 c with
  | .fin s m g =>
    let u := ulpExp c
    let x := min (min g e) u
    let cd := sigAt s m g x * d
    let ex := sigAt neg n e x
    decide ((cd - ex).natAbs ≤ (k * d) <<< (u - x).toNat)
  | _ => false

/-- A zero that is given for an exact zero has that zero's sign (R39). -/
def zeroOk (c : Nat) (v : Fv) : Bool := !(fvIsZero (dec32 c) && fvIsZero v && fvIsNeg (dec32 c) != fvIsNeg v)

/-- x / y: the engine's own value where it lies within 1 ulp, the rounded quotient where it would not (R96; log 6). -/
def divF (a b : Nat) : Nat :=
  match dec32 a, dec32 b with
  | .nan, _ => 0x7FC00000
  | _, .nan => 0x7FC00000
  | .inf _, .inf _ => 0x7FC00000
  | .inf s, .fin t _ _ => withSign f32 (s != t) 0x7F800000
  | .fin s _ _, .inf t => withSign f32 (s != t) 0
  | .fin s m e, .fin t n g =>
    if n = 0 then (if m = 0 then 0x7FC00000 else withSign f32 (s != t) 0x7F800000)
    else if m = 0 then withSign f32 (s != t) 0
    else
      let c := Config.div a b % 2 ^ 32
      if nearRat c 1 (s != t) m n (e - g) then c else ratF (s != t) m n (e - g)

/-- 1 / x rounded once under R50, as R93 and R119 use it. -/
def rcpExact (b : Nat) : Nat :=
  match dec32 b with
  | .nan => 0x7FC00000
  | .inf t => withSign f32 t 0
  | .fin t n g => if n = 0 then withSign f32 t 0x7F800000 else ratF t 1 n (-g)

/-- 1 / x as VRCP and the activation give it: the engine's own value where it lies within 1 ulp, the rounded reciprocal where it would not (R96;
log 6). -/
def rcpF (a : Nat) : Nat :=
  match dec32 a with
  | .fin t n g =>
    let c := Config.rcp a % 2 ^ 32
    if n ≠ 0 && nearRat c 1 t 1 n (-g) then c else rcpExact a
  | _ => rcpExact a

/-- The integer square root, by bits, `fuel` bits of the root. -/
def isqrtAux (n : Nat) : Nat → Nat → Nat
  | 0, r => r
  | k + 1, r => let t := r + 2 ^ k; isqrtAux n k (if t * t ≤ n then t else r)
def isqrt (n : Nat) : Nat := isqrtAux n (Nat.log2 n / 2 + 1) 0

/-- Whether code `c` lies within 1 ulp of √(m · 2^e), e even (R96). -/
def nearSqrt (c m : Nat) (e : Int) : Bool :=
  match dec32 c with
  | .fin false n g =>
    let u := ulpExp c
    let x := min g u
    let v := n <<< (g - x).toNat
    let w := 1 <<< (u - x).toNat
    let y := min (2 * x) e
    let tgt := m <<< (e - y).toNat
    let sc := 1 <<< (2 * x - y).toNat
    decide ((v - w) * (v - w) * sc ≤ tgt && tgt ≤ (v + w) * (v + w) * sc)
  | _ => false

/-- √x (R96, R87 specials). -/
def sqrtF (a : Nat) : Nat :=
  match dec32 a with
  | .nan => 0x7FC00000
  | .inf s => if s then 0x7FC00000 else a
  | .fin s m e =>
    if m = 0 then a % 2 ^ 32 else if s then 0x7FC00000 else
      let c := Config.sqrt a % 2 ^ 32
      let (m, e) := if e % 2 = 0 then (m, e) else (2 * m, e - 1)
      if nearSqrt c m e then c else
        let n := m <<< 64
        let r := isqrt n
        enc32 (.fin false (2 * r + if r * r = n then 0 else 1) (e / 2 - 33))

/-- 1/√x (R96): +∞ at +0, −∞ at −0, +0 at +∞. Accepted when within 1 ulp, tested as √ of the reciprocal bound. -/
def rsqF (a : Nat) : Nat :=
  match dec32 a with
  | .nan => 0x7FC00000
  | .inf s => if s then 0x7FC00000 else 0
  | .fin s m e =>
    if m = 0 then withSign f32 s 0x7F800000 else if s then 0x7FC00000 else
      let c := Config.rsq a % 2 ^ 32
      let (m, e) := if e % 2 = 0 then (m, e) else (2 * m, e - 1)
      let k := 2 * (64 + Nat.log2 m)
      let q := (1 <<< k) / m
      let ok := nearSqrt c q (-e - k) && nearSqrt c (q + 1) (-e - k)
      if ok then c else
        let r := isqrt q
        enc32 (.fin false (2 * r + if r * r = q && (1 <<< k) % m = 0 then 0 else 1) ((-e - k) / 2 - 1))

/-! ### Integer formats and conversion -/

/-- Range of an integer format's stored values (R34): signed minimum and maximum. -/
def intRange : Nat → Option (Int × Int)
  | 0x0 => some (-8, 7)
  | 0x1 => some (0, 15)
  | 0x2 => some (-128, 127)
  | 0x3 => some (0, 255)
  | 0x4 => some (-32768, 32767)
  | _ => none

/-- Element width in bits (R29); 0 for the reserved code. -/
def fmtBits : Nat → Nat
  | 0x0 => 4 | 0x1 => 4 | 0x2 => 8 | 0x3 => 8 | 0x4 => 16 | 0x5 => 4 | 0x6 => 6 | 0x7 => 6
  | 0x8 => 8 | 0x9 => 8 | 0xA => 16 | 0xB => 16 | 0xC => 32 | 0xD => 4 | 0xE => 8 | _ => 0

/-- Whether a format has a zero point (R35, R36). -/
def hasZp (f : Nat) : Bool := f == 1 || f == 3
/-- The 4-bit class of R29. -/
def cls4 (f : Nat) : Bool := f == 0 || f == 1 || f == 5 || f == 6 || f == 7 || f == 0xD
/-- The integer formats of the array (R69). -/
def isInt (f : Nat) : Bool := f ≤ 3
/-- The codebook formats. -/
def isCb (f : Nat) : Bool := f == 0xD || f == 0xE

/-- The code of an integer in a format: two's complement in its width. -/
def intCode (f : Nat) (v : Int) : Nat := (v % (2 ^ fmtBits f : Int)).toNat

/-- The stored integer of a code. -/
def intVal (f c : Nat) : Int :=
  match f with
  | 0x0 => if c % 16 < 8 then (c % 16 : Nat) else ((c % 16 : Nat) : Int) - 16
  | 0x2 => if c % 256 < 128 then (c % 256 : Nat) else ((c % 256 : Nat) : Int) - 256
  | 0x4 => if c % 65536 < 32768 then (c % 65536 : Nat) else ((c % 65536 : Nat) : Int) - 65536
  | _ => (c % 2 ^ fmtBits f : Nat)

/-- The integer nearest to a finite value, ties away (R50). -/
def rnaInt (neg : Bool) (m : Nat) (e : Int) : Int := if neg then -(rna m e : Int) else rna m e

/-- Conversion to an integer format with zero point (R53, R55): clamp(rna(x) + z). -/
def toInt (f : Nat) (lo hi z : Int) : Fv → Nat × Bool
  | .nan => (intCode f z, true)
  | .inf s => (intCode f (if s then lo else hi), true)
  | .fin s m e =>
    let q := rnaInt s m e + z
    if q < lo then (intCode f lo, true) else if hi < q then (intCode f hi, true) else (intCode f q, false)

/-- The zero point that applies to a format (R36). DESIGN CHOICE (log 48): a literal or a slot's value beyond the format's range (R35) is taken
modulo the format's width. -/
def zpFor (f : Nat) (z : Nat) : Int := if hasZp f then (z % 2 ^ fmtBits f : Nat) else 0

/-- Conversion of a value to a format, with the zero point where the format has one (R51, R53). -/
def convert (f : Nat) (z : Nat) (x : Fv) : Nat × Bool :=
  match intRange f with
  | some (lo, hi) => toInt f lo hi (zpFor f z) x
  | none => match ffmt f with
    | some g => toFloat g x
    | none => (0, false)

/-- The value of an element code under its zero point, codebooks apart (R35, R37, R47). -/
def decodeElem (f : Nat) (z : Nat) (c : Nat) : Fv :=
  match intRange f with
  | some _ => fvInt (intVal f c - zpFor f z)
  | none => match ffmt f with
    | some g => decodeF g (c % 2 ^ g.wid)
    | none => .fin false 0 0

/-- INT32 to FP32 (R56), exact up to 2^24. -/
def int32ToF (v : Int) : Nat := enc32 (fvInt v)

/-- Quotient by a given scale: x · (1/s), each rounded once (R93). -/
def scaleDiv (x s : Nat) : Nat := mulF x (rcpExact s)

/-! ### Group scales -/

/-- UE4M3 (R42). -/
def ue4m3 (c : Nat) : Fv :=
  let e := bits c 3 4
  let m := c % 8
  if e = 0 then .fin false m (-9) else .fin false (8 + m) ((e : Int) - 10)

/-- UE8M0 (R43). -/
def ue8m0 (c : Nat) : Fv := if c % 256 = 255 then .nan else .fin false 1 ((c % 256 : Nat) - 127)

/-- The value of a scale byte by scale type (R44): 0 none, 1 UE4M3, 2 UE8M0. -/
def scaleVal (st c : Nat) : Fv :=
  if st = 1 then ue4m3 c else if st = 2 then ue8m0 c else .fin false 1 0

/-- The group size of a code (R44); 0 is off. -/
def groupSize (g : Nat) : Nat := if g = 1 then 32 else if g = 2 then 64 else if g = 3 then 128 else 0

end Sys2Proof.Machine
end

