-- ==== Sys2Proof/Machine/Keys.lean ====
section
/-! DEFINITION. The key hierarchy, and a line as device memory holds it (R348, R350, R351, R354 to R357). -/

namespace Sys2Proof.Machine

/-! ### Keys (R354, R356). DESIGN CHOICE (log 5): lengths of the roots, encodings of the contexts, the order of a domain's three keys -/

/-- The identity key, least significant byte first (R444). -/
def identKey (m : Mach) : List Byte := m.keys.identity.flatMap (toLe 4)

/-- The device root of a security epoch. -/
def deviceRoot (m : Mach) (epoch : Nat) : List Byte := kdf (identKey m) "TRB-DR" (toLe 4 epoch) 48

/-- The memory root of this boot. -/
def memRoot (m : Mach) : List Byte :=
  kdf (deviceRoot m (m.keys.rootEpoch.getD 0)) "TRB-MEM" (toLe 32 (Config.draw m.keys.nonce)) 48

/-- The line keys of a domain in one of its creations. -/
def lineKeys (m : Mach) (d gen : Nat) : LineKeys :=
  let k := kdf (memRoot m) "TRB-LINE" (toLe 2 d ++ toLe 4 gen) 96
  ⟨k.take 32, (k.drop 32).take 32, k.drop 64⟩

/-- The tag key of lines the host stores raw. -/
def rawKey (m : Mach) : List Byte := kdf (memRoot m) "TRB-RAW" [] 32

/-- Private and public enrolment and attestation keys of a security epoch. -/
def enrolPriv (m : Mach) (epoch : Nat) : Nat := ecPriv (kdf (deviceRoot m epoch) "TRB-ENROL" [] 56)
def attestPriv (m : Mach) (epoch : Nat) : Nat := ecPriv (kdf (deviceRoot m epoch) "TRB-ATTEST" [] 56)
def enrolPub (m : Mach) (epoch : Nat) : List Byte := ecPub (enrolPriv m epoch)
def attestPub (m : Mach) (epoch : Nat) : List Byte := ecPub (attestPriv m epoch)

/-- ENGINE_ID: the hash of the enrolment public key in SEC 1 uncompressed form (R358). -/
def engineId (m : Mach) (epoch : Nat) : List Byte := sha384 (4 :: enrolPub m epoch)

/-- A signature by the attestation key; its per-message secret is the next draw. -/
def attestSign (m : Mach) (epoch : Nat) (hash : List Byte) : List Byte := ecSign (attestPriv m epoch) hash (Config.draw m.draws)

/-! ### Lines (R348, R350, R351) -/

/-- The tag carve-out's base and length, and where a line's tag lies. -/
def tagBase (c : Cfg) : Nat := c.protG * 2 ^ 25
def tagLen (c : Cfg) : Nat := c.protG * 2 ^ 22
def tagAddr (c : Cfg) (a : Nat) : Nat := tagBase c + 8 * (a / 64)

/-- The keys in a domain's slot; an erased slot holds zeros (R355). -/
def slotKeys (m : Mach) (d : Nat) : LineKeys :=
  (mget m.keys.slots d).getD ⟨List.replicate 32 0, List.replicate 32 0, List.replicate 32 0⟩

/-- The ciphertext of a line of domain `d`. -/
def cipherOf (m : Mach) (d a : Nat) : List Byte :=
  let k := slotKeys m d
  xtsEnc k.xts1 k.xts2 (a / 64) (bread m.mem.cells a 64)

/-- The 64-bit tag of a stored line under a tag key. -/
def lineTag (key : List Byte) (d a : Nat) (stored : List Byte) : List Byte :=
  (gmac key (toLe 12 (a / 64 % 2 ^ 46 + d % 2 ^ 12 * 2 ^ 46)) stored).take 8

/-- A line and its tag as they travel to the memory (R329, R349, R351): one the host stored raw carries a tag under the raw-write key, a
poisoned or corrupt one a tag that differs from the good one. -/
def wireLine (m : Mach) (a : Nat) : List Byte :=
  match mget m.mem.granules (a / 2 ^ 25) with
  | none => []
  | some g =>
    match mget m.mem.bad (a / 64) with
    | some .raw => let l := bread m.mem.cells a 64; l ++ lineTag (rawKey m) g.dom a l
    | some _ => let l := cipherOf m g.dom a; l ++ (lineTag (slotKeys m g.dom).tag g.dom a l).map (· ^^^ 0xFF)
    | none => let l := cipherOf m g.dom a; l ++ lineTag (slotKeys m g.dom).tag g.dom a l

end Sys2Proof.Machine
end

