-- ==== Sys2Proof/Machine/Ops.lean ====
section
/-! DEFINITION. Operations that every family shares: time, events and responses, device memory, translation, records,
queue kills and holds. -/

namespace Sys2Proof.Machine

/-! ### Time, outputs, saturating counts -/

/-- Time moves to `t`, never back (log 12). -/
def tickTo (t : Nat) (m : Mach) : Mach := { m with now := max m.now t }

/-- Something the block sends. -/
def send (o : Out) (m : Mach) : Mach := { m with out := m.out ++ [o] }

/-- A saturating count of `w` bits, one higher. -/
def satInc (w n : Nat) : Nat := min (n + 1) (2 ^ w - 1)

/-- A write that R449 records. -/
def badWrite (off : Nat) (m : Mach) : Mach := { m with bad := true, badOff := off }

/-- One more draw of a free value. -/
def drawn (m : Mach) : Mach := { m with draws := m.draws + 1 }

/-- (a − b) modulo n for counts below n. -/
def subMod (a b n : Nat) : Nat := (a + n - b % n) % n

/-! ### MSI-X (R270, R324, R338) -/

/-- Whether a vector's mask bit is set in the MSI-X table. -/
def vecMasked (m : Mach) (v : Nat) : Bool := (mget m.irq.table (4 * v + 3)).getD 0 % 2 == 1

/-- The port can send: the link is in L0, the function may master the bus, and no host loss stands (R337, R338, R342). -/
def hpOpen (m : Mach) : Bool := m.hp.l0 && m.hp.bme && !m.hp.lost

/-- A vector's message may go: the port can send, MSI-X is enabled and neither the function nor the vector is masked (R322, R324). -/
def vecOpen (m : Mach) (v : Nat) : Bool := hpOpen m && m.hp.fnc.msixOn && !m.hp.fnc.msixMask && !vecMasked m v

/-- Send a vector's message; while it cannot be sent or is masked, its pending bit is set instead. -/
def msix (v : Nat) (m : Mach) : Mach :=
  if !vecOpen m v then
    { m with irq := { m.irq with pba := if m.irq.pba.contains v then m.irq.pba else v :: m.irq.pba } }
  else send (.msix v) m

/-- Device physical addresses of the rings (R392). -/
def cmdRing : Nat := 0x2000000
def evtRing : Nat := 0x2040000

/-- The host still has to give up a line of a range that was written: a message for it waits (R330 steps 4 and 5). -/
def givingUp (m : Mach) (a n : Nat) : Bool := m.hp.bisnp.any fun l => a / 64 ≤ l && l < (a + n) / 64

/-- An event-ring or dead-letter interrupt under moderation (R459), behind the entries it stands for (R330). -/
def irqEvt (c : Cfg) (m : Mach) : Mach :=
  if !c.evtIrq.en then m
  else if m.now < m.irq.evtUntil || givingUp m evtRing 0x40000 then { m with irq := { m.irq with evtPend := true } }
  else
    let m := msix c.evtIrq.vector m
    { m with irq := { m.irq with evtUntil := m.now + c.evtIrq.modUs * 1000, evtPend := false } }
def irqDl (c : Cfg) (m : Mach) : Mach :=
  if !c.dlIrq.en then m
  else if m.now < m.irq.dlUntil || givingUp m c.tb.dl (64 * 2 ^ c.tb.dlLog2) then { m with irq := { m.irq with dlPend := true } }
  else
    let m := msix c.dlIrq.vector m
    { m with irq := { m.irq with dlUntil := m.now + c.dlIrq.modUs * 1000, dlPend := false } }

/-! ### Frames to other engines (R371, R372, R382) -/

/-- ROLE as it acts: 3 acts as 0 (R369). -/
def roleOf (c : Cfg) : Nat := ((c.links[0]?).map fun l => if l.role = 3 then 0 else l.role).getD 0

/-- This engine's number: 0 for the master, 0xF while a member has none (R370, R375). -/
def selfEngine (c : Cfg) (m : Mach) : Nat := if roleOf c = 2 then 0 else m.casc.engine.getD 0xF

/-- The lowest port, and the peer on it, through which an engine is reached in SECURE or later. -/
def peerOf (m : Mach) (e : Nat) : Option (Nat × Nat) :=
  m.links.zipIdx.findSome? fun l =>
    (l.1.peers.zipIdx.find? fun p => p.1.engine == some e && 5 ≤ p.1.state).map fun p => (l.2, p.2)

/-- Change a peer of a port. -/
def peerUpd (port i : Nat) (f : Peer → Peer) (m : Mach) : Mach :=
  { m with links := lupd m.links port fun l => { l with peers := lupd l.peers i f } }

/-- A peer of a port. -/
def peerGet (m : Mach) (port i : Nat) : Option Peer := (m.links[port]?).bind fun l => l.peers[i]?

/-- A frame joins the queue of a peer. -/
def framePut (port i : Nat) (f : Frame) (m : Mach) : Mach := peerUpd port i (fun p => { p with queue := p.queue ++ [f] }) m

/-- Class of a frame type that carries no stream data (R383). -/
def clsOf (type : Nat) : Nat := if type = 9 || type = 0xA then 2 else 0

/-- A frame to a peer. Without a stream its deadline is the time it is ready (R383; DESIGN CHOICE, log 38). -/
def framePeer (port i type : Nat) (data : List Byte) (m : Mach) : Mach :=
  let dst := ((peerGet m port i).bind (·.engine)).getD 0xF
  framePut port i { head := { type := type, dst := dst, src := 0xF, len := data.length }, data := data, cls := clsOf type, deadline := m.now } m

/-- A frame to an engine, when it can be reached. -/
def frameTo (e type : Nat) (data : List Byte) (m : Mach) : Mach :=
  match peerOf m e with
  | some (port, i) => framePeer port i type data m
  | none => m

/-- A MANAGE body in consecutive frames of one request (R373). -/
def manageTo (e kind req : Nat) (body : List Byte) (m : Mach) : Mach :=
  (List.range (max 1 (cdiv body.length 8176))).foldl (fun m i =>
    frameTo e 9 (toLe 1 kind ++ toLe 3 0 ++ toLe 4 req ++ toLe 4 body.length ++ toLe 4 (8176 * i)
      ++ (body.drop (8176 * i)).take 8176) m) m

/-! ### Device memory (R347, R349, R352, R329) -/

/-- Granule and line of an address. -/
def granOf (a : Nat) : Nat := a / 2 ^ 25

/-- The result of a check of an access. -/
inductive MemRes where
  | ok
  | perm
  | integrity (a : Nat)
  deriving DecidableEq, Repr

/-- Every granule of [a, a+n) belongs to domain `d`. -/
def granulesOf (m : Mem) (d a n : Nat) : Bool :=
  (List.range (granOf (a + n - 1) + 1 - granOf a)).all fun i =>
    match mget m.granules (granOf a + i) with
    | some g => g.dom == d
    | none => false

/-- Every granule of [a, a+n) is an open region of domain `d`. -/
def openOf (m : Mem) (d a n : Nat) : Bool :=
  (List.range (granOf (a + n - 1) + 1 - granOf a)).all fun i =>
    match mget m.granules (granOf a + i) with
    | some g => g.dom == d && !g.sealed
    | none => false

/-- The first line of [a, a+n) whose tag fails. -/
def badIn (m : Mem) (a n : Nat) : Option Nat :=
  (m.bad.find? fun p => a / 64 ≤ p.1 && p.1 ≤ (a + n - 1) / 64).map (·.1 * 64)

/-- A read by an engine agent acting for `d` (R349, R352). -/
def readChk (m : Mem) (d a n : Nat) : MemRes :=
  if n = 0 then .ok
  else if !granulesOf m d a n then .perm
  else match badIn m a n with
    | some x => .integrity x
    | none => .ok

/-- A write by an engine agent acting for `d`: a partial write of a failing line fails (R182, R352). -/
def writeChk (m : Mem) (d a n : Nat) : MemRes :=
  if n = 0 then .ok
  else if !granulesOf m d a n then .perm
  else
    let bad (l : Nat) : Bool := mhas m.bad l
    if a % 64 ≠ 0 && bad (a / 64) then .integrity (a / 64 * 64)
    else if (a + n) % 64 ≠ 0 && bad ((a + n - 1) / 64) then .integrity ((a + n - 1) / 64 * 64)
    else .ok

/-- Store bytes; lines written whole get a valid tag. -/
def memPut (m : Mem) (a : Nat) (l : List Byte) : Mem :=
  { m with cells := bwrite m.cells a l
           bad := mfilter (fun k _ => !(a ≤ 64 * k && 64 * k + 64 ≤ a + l.length)) m.bad }

/-- A number of `w` bytes at a physical address. -/
def memNum (m : Mem) (a w : Nat) : Nat := bnum m.cells a w

/-- The protected range in bytes (R348). -/
def protBytes (c : Cfg) : Nat := c.protG * 2 ^ 25

/-- The lines of an access that the host holds or still has to give up (R328). -/
def hostHolds (m : Mach) (a n : Nat) : List Nat :=
  (m.hp.filter ++ m.hp.bisnp.filter fun l => !m.hp.filter.contains l).filter fun l => a / 64 ≤ l && l ≤ (a + n - 1) / 64

/-- The host holds a line of an access, or an earlier write of one still waits for the host. -/
def lineBusy (m : Mach) (a n : Nat) : Bool :=
  hostHolds m a n ≠ [] || m.hp.late.any fun w => w.1 / 64 ≤ (a + n - 1) / 64 && a / 64 ≤ (w.1 + w.2.length - 1) / 64

/-- A view in which the host holds nothing: what an access that cannot be taken again uses (log 39). -/
def unheld (m : Mach) : Mach := { m with hp := { m.hp with filter := [], bisnp := [] } }

/-- Back-invalidate the host's lines of an access: the access waits for the responses (R328). -/
def backInval (a n : Nat) (data : Bool) (m : Mach) : Mach :=
  (hostHolds m a n).foldl (fun m l =>
    if m.hp.bisnp.contains l then m
    else send (.bisnp (64 * l) data) { m with hp := { m.hp with bisnp := l :: m.hp.bisnp } }) m

/-- Bytes are accepted at the memory-port front now: a read-modify-write under way that was accepted before leaves them (R182). -/
def memStore (a : Nat) (l : List Byte) (m : Mach) : Mach :=
  let under (r : Req) : Req :=
    if r.write && r.rmw && r.addr < a + l.length && a < r.addr + r.n then { r with data := bread (bwrite (bwrite [] r.addr r.data) a l) r.addr r.n } else r
  { m with mem := memPut m.mem a l, arb := { m.arb with tags := mmap (fun _ r => under r) m.arb.tags } }

/-- A write by an engine agent: the host's copies are back-invalidated, and the bytes are stored when the host has answered for every
line (R328). -/
def engPut (a : Nat) (l : List Byte) (m : Mach) : Mach :=
  let m := backInval a l.length false m
  if l ≠ [] && lineBusy m a l.length then { m with hp := { m.hp with late := m.hp.late ++ [(a, l)] } }
  else memStore a l m

/-- A bound image that overlaps [a, a+n) (R172). -/
def inImage (m : Mach) (a n : Nat) : Bool := m.parcels.any fun p => p.2.spans.any fun s => decide (a < s.1 + s.2 ∧ s.1 < a + n)

/-- The writes that wait for the host, in order: each whose lines are free, with no earlier one on its lines, is stored (R328); one into an
image bound since is refused (R172). -/
def lateGo (m : Mach) : Mach :=
  m.hp.late.foldl (fun m w => if inImage m w.1 w.2.length then m else engPut w.1 w.2 m) { m with hp := { m.hp with late := [] } }

/-! ### Events and responses (R393, R396) -/

/-- Free event-ring entries. -/
def evtFree (m : Mach) : Nat := 4096 - subMod m.rings.evtTail m.rings.evtHead 8192

/-- Responses owed: one for each command in progress (R396). -/
def owed (m : Mach) : Nat := m.rings.cmds.length

/-- The 64 bytes of an event entry (R393). -/
def evtEntry (m : Mach) (code origin source tag status opcode : Nat) (data : List Byte) : List Byte :=
  toLe 2 code ++ toLe 1 (origin % 16 + if m.rings.evtTail < 4096 then 128 else 0) ++ toLe 1 source ++ toLe 4 tag
    ++ toLe 8 m.rings.seq ++ toLe 8 m.tick.count ++ toLe 1 status ++ toLe 1 0 ++ toLe 2 opcode ++ toLe 4 0
    ++ (data ++ List.replicate 32 (0 : Byte)).take 32

/-- Write an entry at the event tail and advance it. -/
def putEvent (c : Cfg) (e : List Byte) (m : Mach) : Mach :=
  let m := engPut (evtRing + 64 * (m.rings.evtTail % 4096)) e m
  let m := { m with
    rings := { m.rings with evtTail := (m.rings.evtTail + 1) % 8192, seq := m.rings.seq + 1 } }
  irqEvt c m

/-- The data words of an event, four at most (R472). -/
def words (ws : List Nat) : List Byte := (ws.take 4).flatMap (toLe 8)

/-- Post an event: written when an entry beyond those owed is free, counted as lost otherwise (R396); held while no ring
exists yet (log 10); a member copies it to the master (R371). -/
def post (c : Cfg) (code : Nat) (ws : List Nat) (m : Mach) : Mach :=
  if m.boot.state ≠ bsRunning then
    { m with rings := { m.rings with early := m.rings.early ++ [(code, 0, ws)] } }
  else
  let m := if roleOf c = 1 then manageTo 0 2 0 (evtEntry m code 0 4 0 0 0 (words ws)) m else m
  if owed m < evtFree m then putEvent c (evtEntry m code 0 4 0 0 0 (words ws)) m
  else { m with rings := { m.rings with lost := satInc 32 m.rings.lost } }

/-- Post one EVENTS_LOST when entries are free again (R396). -/
def postLost (c : Cfg) (m : Mach) : Mach :=
  if m.rings.lost ≠ m.rings.lostPosted && owed m < evtFree m then
    let m := putEvent c (evtEntry m evEventsLost 0 4 0 0 0 (words [m.rings.lost])) m
    { m with rings := { m.rings with lostPosted := m.rings.lost } }
  else m

/-- Fields of a command entry (R393). -/
def Cmd.opcode (k : Cmd) : Nat := leAt k.bytes 0 2
def Cmd.tag (k : Cmd) : Nat := leAt k.bytes 4 4
def Cmd.dom (k : Cmd) : Nat := leAt k.bytes 8 2 % 4096
def Cmd.domValid (k : Cmd) : Bool := leAt k.bytes 8 2 / 32768 == 1
def Cmd.fence (k : Cmd) : Bool := leAt k.bytes 2 1 % 2 == 1
def Cmd.argAddr (k : Cmd) : Nat := leAt k.bytes 0x10 8
/-- `w` bytes of ARGS at entry offset `off` (R394). -/
def Cmd.argN (k : Cmd) (off w : Nat) : Nat := leAt k.bytes off w

/-- The Clerk that executes a command code (R393). -/
def clerkOf (op : Nat) : Nat :=
  if op = 0x0006 then 3
  else if 0x0103 ≤ op && op ≤ 0x0106 then 0
  else if op = 0x0300 || op = 0x0301 then 0
  else if op / 256 = 7 then 2
  else if op / 256 = 8 then 0
  else if op / 256 = 9 then 3
  else 1

/-- Write a command's response and end it (R393); a relayed command's goes back to the master (R371). -/
def respond (c : Cfg) (id st : Nat) (data : List Byte) (m : Mach) : Mach :=
  match mget m.rings.cmds id with
  | none => m
  | some k =>
    let e := evtEntry m 1 0 (clerkOf k.opcode) k.tag st k.opcode data
    let m := match k.relay with
      | some req => manageTo 0 1 req (e ++ k.result) m
      | none => putEvent c e m
    { m with rings := { m.rings with cmds := mdel m.rings.cmds id } }

/-- Whether a command may start: every earlier one has responded behind a FENCE, and every earlier one of its domain
where it names one (R395); and its Clerk runs (R405). -/
def cmdFree (m : Mach) (k : Cmd) : Bool :=
  (m.rings.cmds.all fun p =>
    k.seq ≤ p.2.seq || (!k.fence && !(k.domValid && p.2.domValid && p.2.dom == k.dom)))
    && ((m.clerks.getD (clerkOf k.opcode) {}).running)

/-- A command may start: it is free to, and no earlier command of its Clerk that is free to start has yet to (R395). -/
def cmdReady (m : Mach) (k : Cmd) : Bool :=
  cmdFree m k && m.rings.cmds.all fun p =>
    k.seq ≤ p.2.seq || p.2.phase ≠ 0 || clerkOf p.2.opcode ≠ clerkOf k.opcode || !cmdFree m p.2

/-- Run a command that waits under a read-sequence number, when its code is the row's and it may start. -/
def withCmd (op id : Nat) (f : Cmd → Mach → Mach) (m : Mach) : Mach :=
  match mget m.rings.cmds id with
  | none => m
  | some k => if k.opcode = op && k.phase = 0 && cmdReady m k then f k m else m

/-- Run a command's second step. -/
def withCmd2 (op id : Nat) (f : Cmd → Mach → Mach) (m : Mach) : Mach :=
  match mget m.rings.cmds id with
  | none => m
  | some k =>
    if k.opcode = op && k.phase = 1 && (m.clerks.getD (clerkOf k.opcode) {}).running then f k m else m

/-- Mark a command as under way, with a value its second step needs. -/
def underWay (id arg : Nat) (m : Mach) : Mach :=
  { m with rings := { m.rings with
      cmds := mupd m.rings.cmds id fun k => { k with phase := 1, start := m.now, arg := arg } } }

/-- Bytes a command returns in its argument area (R394, R371). -/
def putResult (id : Nat) (k : Cmd) (l : List Byte) (m : Mach) : Mach :=
  match k.relay with
  | some _ => { m with rings := { m.rings with cmds := mupd m.rings.cmds id fun k => { k with result := l } } }
  | none => engPut k.argAddr l m

/-! ### Translation (13) -/

/-- What an access needs (R310). -/
inductive Acc where
  | read
  | write
  | fetch
  | rw
  deriving DecidableEq, Repr

/-- The outcome of translating an address: a device address, a host address in a PASID space with its CACHEABLE bit, a fault with its
status and the line whose tag failed, or a table entry in a line the host holds (R328). -/
inductive Xr where
  | dev (a : Nat)
  | host (pasid a : Nat) (cacheable : Bool)
  | fault (st line : Nat)
  | held (a : Nat)
  deriving DecidableEq, Repr

/-- The outcome of a walk: a leaf with its level, a fault, or an entry in a line the host holds. -/
inductive WalkRes where
  | leaf (level pte : Nat)
  | fault (st line : Nat)
  | held (a : Nat)
  deriving DecidableEq, Repr

/-- A table lies wholly in open granules of domain 0 inside the protected range (R308). -/
def tableOk (c : Cfg) (m : Mach) (a size : Nat) : Bool :=
  a % size == 0 && a + size ≤ protBytes c && openOf m.mem 0 a size

/-- An entry read at one level faults as malformed (R308). -/
def pteBad (c : Cfg) (m : Mach) (pasidV : Bool) (level p : Nat) : Bool :=
  let leaf := bits p 1 1 == 1
  let addr := bits p 8 44 * 256
  p % 2 == 0 || bits p 52 12 ≠ 0 || bits p 7 1 ≠ 0
    || (leaf && level == 0) || (!leaf && level == 2)
    || (!leaf && bits p 2 5 ≠ 0)
    || (!leaf && !tableOk c m addr (if level = 0 then 4096 else 256))
    || (leaf && addr % (if level = 1 then 2 ^ 30 else 2 ^ 25) ≠ 0)
    || (leaf && bits p 5 1 == 0 && protBytes c < addr + (if level = 1 then 2 ^ 30 else 2 ^ 25))
    || (leaf && bits p 5 1 == 1 && (bits p 4 1 == 1 || !pasidV))
    || (leaf && bits p 6 1 == 1 && bits p 5 1 == 0)

/-- The table index of an address at a level (R306). -/
def vaIdx (level va : Nat) : Nat :=
  if level = 0 then bits va 39 13 else if level = 1 then bits va 30 9 else bits va 25 5

/-- A walk from a table at a level; `fuel` levels remain (R308, R309). -/
def walkFrom (c : Cfg) (m : Mach) (pasidV : Bool) (va : Nat) : Nat → Nat → Nat → WalkRes
  | 0, _, _ => .fault stFaultDeviceTable 0
  | fuel + 1, level, table =>
    let a := table + 8 * vaIdx level va
    if !openOf m.mem 0 a 8 then .fault stFaultDeviceTable 0
    else match badIn m.mem a 8 with
    | some p => .fault stIntegrity p
    | none =>
      let p := memNum m.mem a 8
      if hostHolds m a 8 ≠ [] then .held a
      else if pteBad c m pasidV level p then .fault stFaultDeviceTable 0
      else if bits p 1 1 = 1 then .leaf level p
      else walkFrom c m pasidV va fuel (level + 1) (bits p 8 44 * 256)

/-- A domain's entry; an entry never written reads FREE. -/
def domE (m : Mach) (d : Nat) : DomE := (mget m.doms d).getD {}

/-- The 256 bytes of a domain's entry. -/
def domBytes (e : DomE) : List Byte :=
  let l := e.owners ++ List.replicate 4 none
  toLe 8 e.root ++ toLe 8 e.jobs ++ toLe 4 (e.pasid + if e.pasidV then 2 ^ 31 else 0) ++ toLe 1 e.state ++ toLe 1 (if e.strict then 1 else 0)
    ++ toLe 1 e.coreLimit ++ toLe 1 (e.owners.filter (·.isSome)).length ++ toLe 4 e.depotLimit ++ toLe 4 e.epoch ++ toLe 4 e.gen ++ toLe 28 0
    ++ (l.take 4).flatMap fun o => toLe 48 (o.getD 0)

/-- The cache of entries, least recently used first out: what goes is written back to the table. DESIGN CHOICE (log 30): it holds 256. -/
def domTouch (c : Cfg) (d : Nat) (m : Mach) : Mach :=
  let all := d :: m.domCache.erase d
  (all.drop 256).foldl (fun m r => engPut (c.tb.dom + 256 * r) (domBytes (domE m r)) m) { m with domCache := all.take 256 }

/-- A full walk from the root (R308). -/
def walk (c : Cfg) (m : Mach) (d va : Nat) : WalkRes :=
  let e := domE m d
  if !tableOk c m e.root 65536 then .fault stFaultDeviceTable 0
  else walkFrom c m e.pasidV va 3 0 e.root

/-- The page number of an address at a leaf's level. -/
def pageOf (level va : Nat) : Nat := if level = 1 then va / 2 ^ 30 else va / 2 ^ 25

/-- A cached leaf for an address. -/
def tlbFind (t : List TlbE) (d va : Nat) : Option TlbE := t.find? fun e => e.dom == d && e.page == pageOf e.level va

/-- A cached pointer: the lowest table known for an address (R311). -/
def walkFind (t : List WalkE) (d level va : Nat) : Option WalkE :=
  t.find? fun e => e.dom == d && e.level == level && e.page == (if level = 0 then va / 2 ^ 39 else va / 2 ^ 30)

/-- A walk that starts at the lowest cached pointer (R311). -/
def walkCached (c : Cfg) (m : Mach) (d va : Nat) : WalkRes :=
  let pv := (domE m d).pasidV
  match walkFind m.xl.walk d 1 va with
  | some w => walkFrom c m pv va 1 2 (bits w.pte 8 44 * 256)
  | none =>
    match walkFind m.xl.walk d 0 va with
    | some w => walkFrom c m pv va 2 1 (bits w.pte 8 44 * 256)
    | none => walk c m d va

/-- Permission of a leaf for an access (R310). -/
def pteAllows (a : Acc) (p : Nat) : Bool :=
  match a with
  | .read => bits p 2 1 == 1
  | .write => bits p 3 1 == 1
  | .rw => bits p 2 1 == 1 && bits p 3 1 == 1
  | .fetch => bits p 4 1 == 1 && bits p 5 1 == 0

/-- The address a leaf gives (R306, R313). -/
def leafAddr (m : Mach) (d level p va : Nat) : Xr :=
  let off := if level = 1 then va % 2 ^ 30 else va % 2 ^ 25
  let a := bits p 8 44 * 256 + off
  if bits p 5 1 = 1 then .host (domE m d).pasid a (bits p 6 1 == 1) else .dev a

/-- The leaf of an address of a domain, through a core's TLB, the shared TLB, then a walk (R311). -/
def leafOf (c : Cfg) (m : Mach) (core : Option Nat) (d va : Nat) : WalkRes :=
  let own := match core with
    | some k => (m.cores[k]?).bind fun x => tlbFind x.tlb d va
    | none => none
  match own.orElse fun _ => tlbFind m.xl.l2 d va with
  | some e => .leaf e.level e.pte
  | none => walkCached c m d va

/-- Translate an address of a domain for an access (R304 to R313). -/
def translate (c : Cfg) (m : Mach) (core : Option Nat) (d va : Nat) (a : Acc) : Xr :=
  match leafOf c m core d va with
  | .fault st l => .fault st l
  | .held p => .held p
  | .leaf l p => if pteAllows a p then leafAddr m d l p va else .fault stPermission 0

/-- An address lies in a host window, whatever its page permits. -/
def onHost (c : Cfg) (m : Mach) (d va : Nat) : Bool :=
  match leafOf c (unheld m) none d va with
  | .leaf _ p => bits p 5 1 == 1
  | _ => false

/-- READ and WRITE of the page an address lies in. -/
def pagePerm (c : Cfg) (m : Mach) (d va : Nat) : Bool × Bool :=
  match leafOf c m none d va with
  | .leaf _ p => (bits p 2 1 == 1, bits p 3 1 == 1)
  | _ => (false, false)

/-- The same where the row cannot be taken again: the walk does not wait for the host (log 39). -/
def translateNow (c : Cfg) (m : Mach) (d va : Nat) (a : Acc) : Xr := translate c (unheld m) none d va a

/-- Insert into a least-recently-used list of bounded length. -/
def lruPut {α : Type} [DecidableEq α] (cap : Nat) (x : α) (l : List α) : List α := (x :: l.erase x).take cap

/-- Insert into the shared TLB: eight ways in each of 512 sets by page (R311). -/
def l2Put (x : TlbE) (l : List TlbE) : List TlbE :=
  let l := l.erase x
  let same := l.filter fun e => e.page % 512 == x.page % 512
  let l := if same.length < 8 then l else l.erase (same.getLast?.getD x)
  (x :: l).take 4096

/-- The pointers a walk follows, as walk-cache entries (R308, R311). -/
def walkPtrs (c : Cfg) (m : Mach) (d va : Nat) : Nat → Nat → Nat → List WalkE
  | 0, _, _ => []
  | fuel + 1, level, table =>
    let p := memNum m.mem (table + 8 * vaIdx level va) 8
    if pteBad c m (domE m d).pasidV level p || bits p 1 1 = 1 then []
    else ⟨d, level, if level = 0 then va / 2 ^ 39 else va / 2 ^ 30, p⟩ :: walkPtrs c m d va fuel (level + 1) (bits p 8 44 * 256)

/-- The addresses of the entries a walk reads from a table at a level (R308). -/
def entryReads (c : Cfg) (m : Mach) (pasidV : Bool) (va : Nat) : Nat → Nat → Nat → List Nat
  | 0, _, _ => []
  | fuel + 1, level, table =>
    let p := memNum m.mem (table + 8 * vaIdx level va) 8
    (table + 8 * vaIdx level va) :: if pteBad c m pasidV level p || bits p 1 1 = 1 then [] else entryReads c m pasidV va fuel (level + 1) (bits p 8 44 * 256)

/-- The entries that a walk for an address reads, from the lowest cached pointer (R311, R312). -/
def walkReads (c : Cfg) (m : Mach) (d va : Nat) : List Nat :=
  let pv := (domE m d).pasidV
  match walkFind m.xl.walk d 1 va with
  | some w => entryReads c m pv va 1 2 (bits w.pte 8 44 * 256)
  | none => match walkFind m.xl.walk d 0 va with
    | some w => entryReads c m pv va 2 1 (bits w.pte 8 44 * 256)
    | none => if tableOk c m (domE m d).root 65536 then entryReads c m pv va 3 0 (domE m d).root else []

/-- The entries read for an access: none where a core's TLB or the shared TLB has its leaf (R311). -/
def missReads (c : Cfg) (core : Option Nat) (d va : Nat) (m : Mach) : List Nat :=
  if (core.bind fun k => (m.cores[k]?).bind fun x => tlbFind x.tlb d va).isSome || (tlbFind m.xl.l2 d va).isSome then [] else walkReads c m d va

/-- A walk uses the lowest cached pointer and leaves those it reads in the walk cache of 256 entries (R311). -/
def walkFill (c : Cfg) (d va : Nat) (m : Mach) : Mach :=
  let e := domE m d
  let used := match walkFind m.xl.walk d 1 va with
    | some w => [w]
    | none => match walkFind m.xl.walk d 0 va with
      | some w => w :: walkPtrs c m d va 1 1 (bits w.pte 8 44 * 256)
      | none => if tableOk c m e.root 65536 then walkPtrs c m d va 2 0 e.root else []
  { m with xl := { m.xl with walk := used.foldl (fun l w => lruPut 256 w l) m.xl.walk } }

/-- The shared TLB serves an address, or a walk does and fills it (R311). -/
def fillShared (c : Cfg) (d va : Nat) (m : Mach) : Mach × Option TlbE :=
  match tlbFind m.xl.l2 d va with
  | some e => ({ m with xl := { m.xl with l2 := l2Put e m.xl.l2 } }, some e)
  | none =>
    match walkCached c m d va with
    | .leaf l p =>
      let m := walkFill c d va m
      ({ m with xl := { m.xl with l2 := l2Put ⟨d, l, pageOf l va, p⟩ m.xl.l2 } }, some ⟨d, l, pageOf l va, p⟩)
    | _ => (m, none)

/-- Fill the caches with the leaf of an address: a core's own hit touches its own TLB alone; its miss is counted (R311, R464). -/
def fillTlb (c : Cfg) (core : Option Nat) (d va : Nat) (m : Mach) : Mach :=
  match core with
  | none => (fillShared c d va m).1
  | some k =>
    match (m.cores[k]?).bind fun x => tlbFind x.tlb d va with
    | some e => { m with cores := lupd m.cores k fun x => { x with tlb := lruPut 64 e x.tlb } }
    | none =>
      match fillShared c d va m with
      | (m, none) => m
      | (m, some e) => { m with cores := lupd m.cores k fun x =>
          { x with tlb := lruPut 64 e x.tlb, regs := { x.regs with tlbMisses := (x.regs.tlbMisses + 1) % 2 ^ 64 } } }

/-! ### Queues: kills and holds (R274, R298 to R303) -/

/-- A queue's context field access. -/
def qGet (m : Mach) (q : Nat) : Option Queue := mget m.queues q

/-- Change a queue. -/
def qUpd (q : Nat) (f : Queue → Queue) (m : Mach) : Mach := { m with queues := mupd m.queues q f }

/-- Change a queue's context. -/
def ctxUpd (q : Nat) (f : QCtx → QCtx) (m : Mach) : Mach := qUpd q (fun x => { x with ctx := f x.ctx }) m

/-- Change a fetched descriptor. -/
def descUpd (q d : Nat) (f : Desc → Desc) (m : Mach) : Mach := qUpd q (fun x => { x with descs := mupd x.descs d f }) m

/-- A fetched descriptor. -/
def descGet (m : Mach) (q d : Nat) : Option Desc := (qGet m q).bind fun x => mget x.descs d

/-- Set the BALANCE of the queue's entry to 0 (R290). -/
def zeroBalance (q : Nat) (m : Mach) : Mach :=
  { m with ledger := mmap (fun _ e => if e.queue = some q then { e with balance := 0 } else e) m.ledger }

/-- Take `n` cycles from the OWED of the queue's entry (R290). -/
def lessOwed (q n : Nat) (m : Mach) : Mach :=
  { m with ledger := mmap (fun _ e => if e.queue = some q then { e with owed := e.owed - n } else e) m.ledger }

/-- A queue enters HELD; KILLED stands over it (R274). -/
def hold (q : Nat) (m : Mach) : Mach :=
  zeroBalance q (ctxUpd q (fun x => if x.state = qsKilled then x else { x with state := qsHeld }) m)

/-- Cancel a layer's unissued tile-commands: what it still owes leaves OWED (R290). -/
def cancelUnissued (q d : Nat) (m : Mach) : Mach :=
  match descGet m q d with
  | none => m
  | some x => descUpd q d (fun y => { y with cancelled := true, owed := 0 }) (lessOwed q x.owed m)

/-- The status of a layer that an outcome reaches at time `t`, and when it was reached: kills of one cycle go to the lower code (R470). -/
def meetAt (t : Nat) (x : Desc) (st detail : Nat) : Option (Nat × Nat) × Nat :=
  let tie := killing st detail && x.statusAt == t && x.status.any fun p => killing p.1 p.2 && st < p.1
  let s := if tie then some (st, detail) else meet x.status st detail
  (s, if s = x.status then x.statusAt else t)

/-- An outcome reaches a layer (R470). -/
def reach (q d st detail : Nat) (m : Mach) : Mach :=
  descUpd q d (fun x => { x with status := (meetAt m.now x st detail).1, statusAt := (meetAt m.now x st detail).2 }) m

/-- Busy time of a core in this tick, and of a domain for its tile-commands (R424, R425). -/
def busyAdd (k : Nat) (dom : Option Nat) (since : Nat) (m : Mach) : Mach :=
  let n := m.now - max since m.tick.base
  { m with telem := { m.telem with
      busy := mset m.telem.busy k ((mget m.telem.busy k).getD 0 + n)
      domBusy := match dom with
        | some d => mset m.telem.domBusy d ((mget m.telem.domBusy d).getD 0 + n)
        | none => m.telem.domBusy } }

/-- CORE_STATE of a core that runs nothing: idle, under test or FAILED (R416, R424). -/
def idleState (r : CoreRegs) : Nat := if r.test = 3 then 5 else if r.test = 0 then 0 else 4

/-- What waits for a core's streams is forgotten: an answer for them is discarded (R197). -/
def noWaits (k : Nat) (x : Xlate) : Xlate :=
  let keep (l : List Waiter) : List Waiter := l.filter fun w => w.halt.all (·.1 ≠ k)
  { x with ats := x.ats.map (fun r => { r with waiters := keep r.waiters })
           prg := mmap (fun _ r => { r with waiters := keep r.waiters }) x.prg
           stalled := (x.stalled.map fun r => { r with waiters := keep r.waiters }).filter (·.waiters ≠ []) }

/-- A killed core: its tile-command ends, its records and operations go, the core must be scrubbed (R302, R303, R197). -/
def killCore (k : Nat) (m : Mach) : Mach :=
  match (m.cores[k]?).bind (·.tc) with
  | none => m
  | some t =>
    let c := m.cores.getD k core0
    let r := { c.regs with dirty := true, state := idleState c.regs, since := m.now, kills := (c.regs.kills + 1) % 2 ^ 64
                           busy := (c.regs.busy + (m.now - t.issued)) % 2 ^ 64 }
    let m := busyAdd k (some c.regs.dom) t.issued m
    let m := { m with
      cores := lset m.cores k { coreClear r with half0 := c.half0, half1 := c.half1, front := c.front, icache := c.icache, tlb := c.tlb }
      arb := { m.arb with waiting := m.arb.waiting.filter (fun x => x.who ≠ k), later := m.arb.later.filter fun x => x.who ≠ k }
      hp := { m.hp with wait := m.hp.wait.filter fun x => x.core ≠ some k || x.kind = 0 }
      xl := noWaits k m.xl }
    let m := c.enqs.foldl (fun m e => qUpd e.q (fun x =>
      { x with reserved := x.reserved.filter fun p => p.1 ≠ e.entry }) m) m
    descUpd t.q t.desc (fun x => { x with running := x.running - 1, killed := x.killed + 1 }) m

/-- The members of a descriptor's merge group: itself when it has none (R277). -/
def groupOf (m : Mach) (q d : Nat) : List (Nat × Nat) :=
  match (descGet m q d).bind fun x => mget m.sched.groups x.group with
  | some g => if g.members.contains (q, d) then g.members else [(q, d)]
  | none => [(q, d)]

/-- Layers whose unissued part is cancelled and of which nothing runs any more are left to complete (phase 3). -/
def settle (m : Mach) : Mach :=
  { m with queues := mmap (fun q y => { y with descs := mmap (fun d x =>
      if (x.phase == 1 || x.phase == 2) && x.cancelled
          && (groupOf m q d).all (fun p => (descGet m p.1 p.2).all (·.running == 0)) then { x with phase := 3 } else x) y.descs }) m.queues }

/-- Cores that run a tile-command a test names. -/
def coresWith (m : Mach) (f : TileCmd → Bool) : List Nat :=
  (m.cores.zipIdx.filter fun p => p.1.tc.any f).map (·.2)

/-- The descriptors a tile-command runs for: its own alone for an alternate's, otherwise its merge group's (R243, R277). -/
def servedBy (m : Mach) (t : TileCmd) : List (Nat × Nat) := if t.alt then [(t.q, t.desc)] else groupOf m t.q t.desc

/-- Kill every tile-command a test names, with the members of their gangs (R151); each layer it runs for is reached by the status, and issues
nothing more (R277). -/
def killTiles (f : TileCmd → Bool) (st detail : Nat) (m : Mach) : Mach :=
  settle <|
  let gangs := (m.cores.filterMap fun c => c.tc).filterMap fun t => if f t && t.gang ≠ 0 then some t.gang else none
  (coresWith m fun t => f t || gangs.contains t.gang).foldl (fun m k =>
    match (m.cores[k]?).bind (·.tc) with
    | some t => killCore k ((servedBy m t).foldl (fun m p => cancelUnissued p.1 p.2 (reach p.1 p.2 st detail m)) m)
    | none => m) m

/-- Descriptors are stopped by an outcome: they issue nothing more, and their tile-commands are killed where `kill` says so. -/
def stopMembers (g : List (Nat × Nat)) (st detail : Nat) (kill : Bool) (m : Mach) : Mach :=
  let m := g.foldl (fun m p => cancelUnissued p.1 p.2 (reach p.1 p.2 st detail m)) m
  settle (if kill then killTiles (fun t => g.contains (t.q, t.desc)) st detail m else m)

/-- A layer is stopped by an outcome, with its merge group (R277, R301, R389). -/
def stopLayer (q d st detail : Nat) (kill : Bool) (m : Mach) : Mach := stopMembers (groupOf m q d) st detail kill m

/-- Both buckets filled up to the present, at the rates in force (R336). -/
def refill (c : Cfg) (m : Mach) : Mach :=
  let dt := m.now - m.hp.tokTime
  { m with hp := { m.hp with outTok := min (2 ^ c.hp.outDepth) (m.hp.outTok + c.hp.outRate * dt)
                             inTok := min (2 ^ c.hp.inDepth) (m.hp.inTok + c.hp.inRate * dt), tokTime := m.now } }

/-- Blocks of a receive binding return to the sender as credits (R380). -/
def creditBack (b : Bind) (n : Nat) (m : Mach) : Mach :=
  match (m.links[b.port]?).bind fun l => l.peers.zipIdx.find? fun p => p.1.engine == some b.engine && 5 ≤ p.1.state with
  | some p => if n = 0 then m else framePeer b.port p.2 2 (toLe 8 (b.q + n * 2 ^ 32)) m
  | none => m

/-- Parked data of a queue is discarded, and its credits return (R381). -/
def dropParked (q : Nat) (m : Mach) : Mach :=
  let bs := m.casc.binds.filter fun b => b.2.recv && b.2.q == q
  let m := bs.foldl (fun m b => creditBack b.2 b.2.used m) m
  { m with casc := { m.casc with binds := mmap (fun _ b => if b.recv && b.q == q then { b with used := 0 } else b) m.casc.binds
                                 parked := mfilter (fun k _ => k / 256 ≠ q) m.casc.parked } }

/-- A queue's mailbox has nothing pending, and nothing in flight where `all` says so (R274). -/
def mbxClear (q : Nat) (all : Bool) (m : Mach) : Mach :=
  match (qGet m q).map (·.ctx) with
  | none => m
  | some x => if x.path = 2 then
      { m with mbx := mupd m.mbx x.mailbox fun b => { b with pending := none, flight := if all then none else b.flight } } else m

/-- Stationary rows a RUN asks for (R130). -/
def rowsOf2 (x : Desc) : Nat := nth x.params 2 % 2 ^ 32

/-- A merge group has started: a member has issued, or has gone on to its alternate or its end. -/
def groupStarted (m : Mach) (g : Group) : Bool := g.members.any fun p => (descGet m p.1 p.2).any fun z => z.next ≠ 0 || z.alt || 3 ≤ z.phase

/-- A killed queue leaves a group that has not started (R277; log 29). -/
def leaveGroup (q n : Nat) (g : Group) (m : Mach) : Mach :=
  let mine := g.members.filter (·.1 == q)
  let rows := (mine.map fun p => ((descGet m p.1 p.2).map rowsOf2).getD 0).foldl (· + ·) 0
  mine.foldl (fun m p => descUpd p.1 p.2 (fun z => { z with group := 0 }) m)
    { m with sched := { m.sched with groups := mset m.sched.groups n { g with members := g.members.filter (·.1 ≠ q), rows := g.rows - rows } } }

/-- The merge groups of a killed queue: it leaves those that have not started; a kill that meets one at work is every member's, but for those
on their alternates, which are not merged (R243, R277). -/
def killGroups (q st detail : Nat) (m : Mach) : Mach :=
  (m.sched.groups.filter fun g => g.2.members.any (·.1 == q)).foldl (fun m g =>
    if !groupStarted m g.2 then leaveGroup q g.1 g.2 m
    else stopMembers (g.2.members.filter fun p => !(descGet m p.1 p.2).any (·.alt)) st detail false m) m

/-- No descriptor is published into a killed queue: what has been reserved in its ring is void (R156, R475). -/
def voidEnqs (q : Nat) (m : Mach) : Mach :=
  let f (e : EnqRec) : EnqRec := if e.q = q then { e with void := true } else e
  { m with cores := m.cores.map fun x => { x with enqs := x.enqs.map f }
           queues := mmap (fun _ y => { y with descs := mmap (fun _ x => { x with enqs := x.enqs.map f }) y.descs }) m.queues }

/-- Every fetched descriptor of a queue is reached by a status and left to complete (phase 3). -/
def killDescs (q st detail : Nat) (m : Mach) : Mach :=
  (((qGet m q).map fun x => x.descs.map (·.1)).getD []).foldl (fun m d =>
    descUpd q d (fun x => if x.phase = 4 then x else { x with phase := 3, publish := false }) (cancelUnissued q d (reach q d st detail m))) m

/-- The operations of a queue on tables take a status (R219). -/
def killOps (q st detail : Nat) (m : Mach) : Mach :=
  { m with depot := { m.depot with ops := m.depot.ops.map fun o => if o.q = q then { o with status := st, detail := detail } else o } }

/-- Kill a queue's context with a status (R274, R320): its tile-commands, and those of groups it takes part in, are
killed; every fetched descriptor is reached by the status and left to complete; a pending submission is abandoned. -/
def killOne (q st detail : Nat) (m : Mach) : Mach :=
  let m := killGroups q st detail (killTiles (fun t => t.q == q || (servedBy m t).any (·.1 == q)) st detail m)
  let m := zeroBalance q (ctxUpd q (fun x => { x with state := qsKilled }) m)
  mbxClear q false (dropParked q (voidEnqs q (qUpd q (fun x => { x with routes := [], reserved := [] }) (killOps q st detail (killDescs q st detail m)))))

/-- Queues of a domain. -/
def queuesOf (m : Mach) (d : Nat) : List Nat := (m.queues.filter fun p => p.2.ctx.dom = d).map (·.1)

/-- The queues a context kill reaches: every queue of a STRICT domain (R321). -/
def killSet (m : Mach) (q : Nat) : List Nat :=
  match qGet m q with
  | none => []
  | some x => if (domE m x.ctx.dom).strict then queuesOf m x.ctx.dom else [q]

/-- A context kill (R274, R321). -/
def killCtx (q st detail : Nat) (m : Mach) : Mach := (killSet m q).foldl (fun m r => killOne r st detail m) m

/-- The domain of a queue. -/
def qDom (m : Mach) (q : Nat) : Nat := ((qGet m q).map fun x => x.ctx.dom).getD 0

/-- A kill for a fault of translation or ownership: one DEVICE_TABLE_FAULT for each queue killed (R320, R349). -/
def killQueue (c : Cfg) (q st detail va : Nat) (m : Mach) : Mach :=
  (killSet m q).foldl (fun m r => post c evDeviceTableFault [qDom m r, r, va, st] (killOne r st detail m)) m

/-- A failed tag kills the reader's context (R352). -/
def integrityKill (c : Cfg) (q pa : Nat) (m : Mach) : Mach :=
  post c evIntegrityFail [pa, qDom m q] (killCtx q stIntegrity pa m)

/-- A fault of translation met by a queue's work: a walk's failed tag names the entry's line, which is domain 0's (R309, R310, R320, R349,
R352, R469). -/
def faultQueue (c : Cfg) (q st line va : Nat) (m : Mach) : Mach :=
  let detail := if st = stPermission then va % 2 ^ 52 + killBit else if st = stIntegrity then line else va
  let m := killQueue c q st detail va m
  if st = stIntegrity then post c evIntegrityFail [line, 0] m else m

/-- A walk waits for a table entry the host holds (R328). -/
def walkWaits (a : Nat) (m : Mach) : Mach := backInval a 8 true m

end Sys2Proof.Machine
end

