-- ==== Sys2Proof/Machine/Boot.lean ====
section
/-! DEFINITION. Resets, key port, store, boot and firmware load (R397 to R404, R407, R434, R436, R443, R444). -/

namespace Sys2Proof.Machine

/-! ### Store records (R401, R402) -/

/-- The good copy with the higher SEQ; copy A when they are equal (R402). -/
def abRead (r : AB) : Option (List Byte) :=
  match r.a, r.b with
  | some x, some y => some (if x.1 < y.1 then y.2 else x.2)
  | some x, none => some x.2
  | none, some y => some y.2
  | none, none => none

/-- Write a record: the other copy, SEQ one higher (R402). -/
def abWrite (r : AB) (v : List Byte) : AB :=
  match r.a, r.b with
  | some x, some y => if x.1 < y.1 then { r with a := some (y.1 + 1, v) } else { r with b := some (x.1 + 1, v) }
  | some x, none => { r with b := some (x.1 + 1, v) }
  | none, some y => { r with a := some (y.1 + 1, v) }
  | none, none => { r with a := some (1, v) }

/-- The SEQ a record now reads. -/
def abSeq (r : AB) : Nat :=
  match r.a, r.b with
  | some x, some y => max x.1 y.1
  | some x, none => x.1
  | none, some y => y.1
  | none, none => 0

/-- The stored minimum epoch: 1 when absent (R402). -/
def storedEpoch (s : Store) : Nat := if s.present then ((abRead s.epochRec).map leNat).getD 1 else 1

/-- The boot record: SOURCE, port, G; SOURCE 0 when absent (R402, R404). -/
def bootSource (s : Store) : Nat × Nat × Nat :=
  match abRead s.bootRec with
  | some l => (leAt l 0 1, leAt l 1 1, leAt l 2 2)
  | none => (0, 0, 0)

/-! ### Image checks (R397, R398) -/

/-- The header's reason for failing, 0 when it passes (R398 step 1, R400). -/
def headerReason (minEpoch : Nat) (h : List Byte) : Nat :=
  if h.length ≠ 512 || leAt h 0 4 ≠ 0x4B524C43 || leAt h 4 2 ≠ 1 || leAt h 6 2 = 0 || 48 < leAt h 6 2
      || leAt h 8 4 = 0 || leAt h 0xC 4 ≠ 0 || leAt h 0x18 8 ≠ 0 || leAt h 0x110 240 ≠ 0 then 1
  else
    let key := (h.drop 0x50).take 96
    if !Config.fwKey (sha384 key) || !sigOk key (sha384 (h.take 0xB0)) ((h.drop 0xB0).take 96) then 2
    else if leAt h 8 4 < minEpoch then 4 else 0

/-- The hash field of a block, and its payload (R397). -/
def blockHash (b : List Byte) : List Byte := b.drop 65488
def blockPayload (b : List Byte) : List Byte := b.take 65488

/-- Check the blocks of a whole image against the hash chain (R398 step 2). -/
def chainOk : List (List Byte) → List Byte → Bool
  | [], _ => true
  | b :: r, h => b.length == 65536 && sha384 b == h && chainOk r (blockHash b)

/-- Cut an image's blocks; `n` of them. -/
def blocksOf : Nat → List Byte → List (List Byte)
  | 0, _ => []
  | n + 1, l => l.take 65536 :: blocksOf n (l.drop 65536)

/-- The reason a whole image fails, 0 when it passes R398. -/
def imageReason (minEpoch : Nat) (img : List Byte) : Nat :=
  let h := img.take 512
  let r := headerReason minEpoch h
  if r ≠ 0 then r
  else if chainOk (blocksOf (leAt h 6 2) (img.drop 512)) ((h.drop 0x20).take 48) then 0 else 3

/-- Write the segments of a payload for one target: 0 to 3 a Clerk's SRAM, 4 the firmware reserve, granule 0 (R397). -/
def putSegments (target : Nat) : Nat → List Byte → Map Byte → Map Byte
  | 0, _, c => c
  | n + 1, l, c =>
    let len := leAt l 8 4
    if l.length < 16 || len = 0 then c
    else
      let c := if leAt l 0 4 = target then bwrite c (leAt l 4 4) ((l.drop 16).take len) else c
      putSegments target n (l.drop (16 + len)) c

/-- The payloads of an image's blocks, one sequence of segments (R397). -/
def payloadOf (img : List Byte) : List Byte := (blocksOf (leAt img 6 2) (img.drop 512)).flatMap blockPayload

/-- The SRAM of a Clerk as an image's segments fill it (R397, R398, R405). -/
def clerkSram (img : List Byte) (i : Nat) : Map Byte := putSegments i ((payloadOf img).length + 1) (payloadOf img) []

/-! ### Running (R400) -/

/-- The boot ROM assigns granules 0 and 1 to domain 0 and zeroes them (R392, R400). -/
def assignBoot (m : Mach) : Mach :=
  { m with mem := { m.mem with cells := bzero m.mem.cells 0 (2 ^ 26)
                               granules := mset (mset m.mem.granules 0 ⟨0, true⟩) 1 ⟨0, false⟩ } }

/-- Events held before the ring existed are written in order (log 10). -/
def flushEarly (c : Cfg) (m : Mach) : Mach :=
  m.rings.early.foldl (fun m e => post c e.1 e.2.2 m) { m with rings := { m.rings with early := [] } }

/-- Every Clerk started, its SRAM loaded. -/
def clerksUp (img : List Byte) : List Clerk := (List.range 4).map fun i => { running := true, sram := clerkSram img i }

/-- A verified image starts: keys derived, boot nonce drawn, rings zeroed, domain 0 LIVE, Clerks started (R398 to R400). -/
def startRunning (c : Cfg) (header blocks : List Byte) (m : Mach) : Mach :=
  let ep := leAt header 8 4
  let payload := payloadOf (header ++ blocks)
  let m := drawn m
  flushEarly c { m with
    boot := { m.boot with state := bsRunning, reason := 0, loading := false, epoch := ep, version := leAt header 0x10 8, image := header ++ blocks
                          header := [], blocks := [], hash := [] }
    mem := { m.mem with cells := putSegments 4 (payload.length + 1) payload (bzero m.mem.cells cmdRing 0x80000) }
    keys :=
      let m := { m with keys := { m.keys with rootEpoch := some ep, nonce := m.draws } }
      { m.keys with slots := mset m.keys.slots 0 (lineKeys m 0 1) }
    doms := mset m.doms 0 { (domE m 0) with state := 1, gen := 1, root := m.boot.xroot, coreLimit := 0 }
    clerks := clerksUp (header ++ blocks) }

/-- The load fails with a reason; nothing loaded is left (R398, R400). -/
def loadFails (reason : Nat) (m : Mach) : Mach :=
  { m with boot := { m.boot with state := bsFailed, reason := reason, loading := false, header := [], blocks := [], hash := [], imageReq := none }
           mem := { m.mem with granules := mdel (mdel m.mem.granules 0) 1 } }

/-- A load begins from a source: 0 the driver, 2 the master, 3 the driver while RECOVERY also takes an image from the master (R400, R404). -/
def loadBegins (source : Nat) (m : Mach) : Mach :=
  assignBoot { m with boot := { m.boot with state := bsLoading, reason := 0, loading := true, source := source
                                            header := [], nextBlock := 0, hash := [], blocks := [] } }

/-- PROT_G lies in its range (R348). -/
def protOk (g : Nat) : Bool := decide (2 ≤ g ∧ g ≤ 29127)

/-- The boot ROM reads the image from the host; while the link or the function cannot send, the read waits (R342, R400). -/
def imageRead (a n : Nat) (m : Mach) : Mach :=
  if hpOpen m then send (.hostRead a n false) { m with boot := { m.boot with imageReq := none } }
  else { m with boot := { m.boot with imageReq := some (a, n) } }

/-- FW_GO (R452): a load begins, or fails at once with REASON 7 or 6; one written in another state is ignored and recorded (R449). -/
def fwGo (v : Nat) (d : Dev) : Dev :=
  if v % 2 = 0 || d.m.st.mbistState = 1 then d
  else if !(d.m.boot.state == bsWaitLoad || d.m.boot.state == bsFailed || d.m.boot.state == bsRecovery) then
    { d with m := badWrite 0x020 d.m }
  else if !protOk d.cfg.protG then { d with m := loadFails 7 d.m }
  else
    let d := { d with cfg := { d.cfg with lockProt := true } }
    if d.m.ports.ready ≠ 0xFFFF || d.m.ports.failed ≠ [] then { d with m := loadFails 6 d.m }
    else { d with m := imageRead d.cfg.fwAddr d.cfg.fwLen (loadBegins (if d.m.boot.state = bsRecovery then 3 else 0) d.m) }

/-- A block of the driver's image arrives, the header before the first (R398). -/
def firmwareBlock (header block : List Byte) (err : Bool) (c : Cfg) (m : Mach) : Mach :=
  if !(m.boot.state == bsLoading && m.boot.loading && (m.boot.source == 0 || m.boot.source == 3) && m.boot.imageReq.isNone) then m
  else if err then loadFails 5 m
  else
    let h := if m.boot.nextBlock = 0 then header else m.boot.header
    let r := if m.boot.nextBlock = 0 then headerReason m.boot.minEpoch h else 0
    if r ≠ 0 then loadFails r m
    else
      let want := if m.boot.nextBlock = 0 then (h.drop 0x20).take 48 else m.boot.hash
      if block.length ≠ 65536 || sha384 block ≠ want then loadFails 3 m
      else
        let p := m.boot.blocks ++ block
        if m.boot.nextBlock + 1 = leAt h 6 2 then startRunning c h p m
        else { m with boot := { m.boot with header := h, nextBlock := m.boot.nextBlock + 1
                                            hash := blockHash block, blocks := p } }

/-! ### Resets (R407) -/

/-- The block after a cold reset: only the store and the straps stay. -/
def coldReset (d : Dev) : Dev :=
  { cfg := cfg0 d.cfg.strap
    m := mach0 d.cfg.strap { d.m.store with busy := none, writes := 0, errors := 0, slotBooted := 0 } 0 true true }

/-- The block after a warm reset: the power-fail latch, the host link and its configuration, and the store stay; the
memory ports' flush handshake is under way (R407, R436). -/
def warmClear (d : Dev) : Dev :=
  let m := mach0 d.cfg.strap { d.m.store with busy := none, writes := 0, errors := 0, slotBooted := 0 }
    d.m.power.pfLatch d.m.hp.bme d.m.hp.l0
  { cfg := cfg0 d.cfg.strap
    m := send .mpFlush { m with hp := { m.hp with fnc := d.m.hp.fnc }, ports := { m.ports with flush := List.range 16 }, power := { m.power with warm := true } } }

/-- WARM_RESET (R453): an 8-byte write of the key. -/
def warmReset (width v : Nat) (d : Dev) : Dev :=
  if width = 8 && v % 2 ^ 32 = 0x4D524157 then warmClear d
  else { d with m := badWrite 0x1000 d.m }

/-- A port acknowledges the flush (R436). -/
def flushAck (port : Nat) (m : Mach) : Mach :=
  let f := m.ports.flush.erase port
  { m with ports := { m.ports with flush := f }, power := { m.power with warm := m.power.warm && f ≠ [] } }

/-! ### Key port and WAIT_LOAD (R434, R444, R404) -/

/-- A word of the identity key (R444). -/
def keyWord (w : Nat) (m : Mach) : Mach :=
  if !m.boot.kpReq || m.boot.kpLock || m.boot.keyFail then m
  else
    let n := m.boot.keyWords + 1
    { m with keys := { m.keys with identity := m.keys.identity ++ [w % 2 ^ 32] }
             boot := { m.boot with keyWords := n, kpReq := n < 12, kpLock := 12 ≤ n } }

/-- No 12 words within 10 ms: the engine stays in RESET (R444). -/
def keyTimeout (t : Nat) (m : Mach) : Mach :=
  let m := tickTo t m
  if m.boot.keyWords < 12 && 10000000 ≤ m.now then
    { m with boot := { m.boot with keyFail := true, kpReq := false } } else m

/-- Built-in trim values. DESIGN CHOICE (log 21): the header of R420 for the stepping, all else zero. -/
def builtinTrim (stepping : Nat) : List Byte := toLe 4 0x4D495254 ++ toLe 2 1 ++ toLe 1 stepping

/-- The good slots, higher SEQ first, slot A when they are equal (R403). -/
def slotGood (minEpoch : Nat) (s : Slot) : Option Nat :=
  match s.marker with
  | some (q, h) => if imageReason minEpoch s.image = 0 && h == sha384 (s.image.take 512) then some q else none
  | none => none
def bootSlot (s : Store) (minEpoch : Nat) : Option Nat :=
  match slotGood minEpoch s.slotA, slotGood minEpoch s.slotB with
  | some x, some y => some (if x < y then 1 else 0)
  | some _, none => some 0
  | none, some _ => some 1
  | none, none => none

/-- The store is read: epoch, trim (R402, R406, R443). -/
def readStore (c : Cfg) (m : Mach) : Mach :=
  let m := { m with boot := { m.boot with minEpoch := storedEpoch m.store } }
  let m := if m.store.present then m else post c evStoreAbsent [] m
  let m := match if m.store.present then abRead m.store.trustRec else none with
    | some l => { m with casc := { m.casc with group := leAt l 0 4, trust := some (leNat ((l.drop 4).take 48), leAt l 52 4) } }
    | none => m
  match if m.store.present then abRead m.store.trimRec else none with
  | some l => { m with st := { m.st with trim := l, trimSeq := abSeq m.store.trimRec } }
  | none =>
    post c evTrimInvalid []
      { m with st := { m.st with trim := builtinTrim c.strap.stepping }, power := { m.power with trimHold := true } }

/-- BOOT_STATUS takes a state. -/
def bootState (s : Nat) (m : Mach) : Mach := { m with boot := { m.boot with state := s } }

/-- A headless boot of a slot image (R404). -/
def bootImage (slot : Nat) (d : Dev) : Dev :=
  let img := if slot = 0 then d.m.store.slotA.image else d.m.store.slotB.image
  let h := img.take 512
  let m := assignBoot { d.m with store := { d.m.store with slotBooted := slot } }
  { d with m := startRunning d.cfg h (img.drop 512) m }

/-- The boot ROM reaches WAIT_LOAD, or, with every memory port ready, boots headless by its boot record (R400, R404, R434, R444, R419). -/
def bootWaitLoad (t : Nat) (d : Dev) : Dev :=
  let m := tickTo t d.m
  if m.boot.state ≠ bsReset || m.boot.keyWords < 12 || m.boot.keyFail || m.ports.flush ≠ []
      || d.cfg.strap.cores < 16 || !(m.ports.ready == 0xFFFF || 1000000000 ≤ m.now) then { d with m := m }
  else
    let m := readStore d.cfg m
    let (src, port, g) := bootSource m.store
    if src = 0 || m.ports.ready ≠ 0xFFFF then { d with m := bootState bsWaitLoad m }
    else if !protOk g || !m.store.present then { d with m := bootState bsRecovery m }
    else
      let d := { cfg := { d.cfg with protG := g, lockProt := true }, m := m }
      if src = 1 then
        match bootSlot m.store m.boot.minEpoch with
        | some s => bootImage s d
        | none => { d with m := bootState bsRecovery m }
      else
        { cfg := { d.cfg with lockRole := true, links := lupd d.cfg.links port fun l => { l with enable := true } }
          m := loadBegins 2 m }

/-- A port's mp_ready falls: MEMORY_PORT_ERROR, and the port fails until a reset; a load under way fails with REASON 6 (R348, R434). -/
def mpReadyFall (c : Cfg) (port : Nat) (m : Mach) : Mach :=
  if 16 ≤ port then m else
    let m := { m with ports := { m.ports with
      ready := m.ports.ready &&& (0xFFFF - 2 ^ port)
      failed := if m.boot.state = bsReset then m.ports.failed
                else if m.ports.failed.contains port then m.ports.failed else port :: m.ports.failed } }
    if m.boot.state = bsReset then m
    else
      let m := post c evMemoryPortError [port, 0] m
      if m.boot.state = bsLoading then loadFails 6 m else m

def execFwGo (v : Nat) (s : State) : Host.Outcome State Fault Refusal := s.run (fwGo v)
def execFirmwareBlockArrival (header block : List Byte) (err : Bool) (s : State) : Host.Outcome State Fault Refusal :=
  s.runM (firmwareBlock header block err)
def execWarmReset (width v : Nat) (s : State) : Host.Outcome State Fault Refusal := s.run (warmReset width v)
def execColdReset (s : State) : Host.Outcome State Fault Refusal := s.runAlways coldReset
def execKeyPortWord (w : Nat) (s : State) : Host.Outcome State Fault Refusal := s.runM fun _ => keyWord w
def execKeyPortTimeout (t : Nat) (s : State) : Host.Outcome State Fault Refusal := s.runM fun _ => keyTimeout t
def execBootWaitLoadEntry (t : Nat) (s : State) : Host.Outcome State Fault Refusal := s.run (bootWaitLoad t)
def execMpFlushAck (port : Nat) (s : State) : Host.Outcome State Fault Refusal := s.runM fun _ => flushAck port

end Sys2Proof.Machine
end

