-- ==== Sys2Proof/Machine/Records.lean ====
section
/-! DEFINITION. How a descriptor completes and where its record goes (R26 to R28, R268 to R272, R277, R278, R303, R330,
R331, R340, R457, R469 to R471). -/

namespace Sys2Proof.Machine

/-! ### Fields of a descriptor (R256, R258) -/

def Desc.type (x : Desc) : Nat := leAt x.bytes 0 1
def Desc.ext (x : Desc) : Bool := leAt x.bytes 1 1 % 2 == 1
def Desc.flagGlobal (x : Desc) : Bool := leAt x.bytes 2 1 % 2 == 1
def Desc.noIrq (x : Desc) : Bool := bits (leAt x.bytes 2 1) 1 1 == 1
def Desc.isRun (x : Desc) : Bool := x.type == 1
def Desc.parcel (x : Desc) : Nat := leAt x.bytes 8 2
def Desc.layer (x : Desc) : Nat := leAt x.bytes 0xA 2
def Desc.units (x : Desc) : Nat := leAt x.bytes 0xC 1
/-- The number of binding units before the pool unit, or all of them. -/
def Desc.poolOff (x : Desc) : Nat := 0x40 + 64 * (x.units % 2 + bits x.units 1 1)
/-- The pool a RUN names (R259). -/
def Desc.pool (x : Desc) : Option Nat := if bits x.units 2 1 = 1 then some (leAt x.bytes x.poolOff 2 % 4096) else none

/-- The layer record a RUN names (R166). -/
def layerRec (m : Mach) (x : Desc) : Option (List Byte) := (mget m.parcels x.parcel).bind fun p => p.records[x.layer]?

/-- Fields of a layer record (R166). -/
def lrTiles (r : List Byte) : Nat := leAt r 4 4
def lrWcet (r : List Byte) : Nat := leAt r 8 4
def lrRerunWcet (r : List Byte) : Nat := leAt r 0xC 4
def lrRerunTiles (r : List Byte) : Nat := leAt r 0x10 4
def lrDepot (r : List Byte) : Nat := leAt r 0x18 4
def lrGang (r : List Byte) : Nat := leAt r 0x1C 2
def lrFlags (r : List Byte) : Nat := leAt r 0x1E 2
def lrCoalescible (r : List Byte) : Bool := lrFlags r % 2 == 1
def lrRerun (r : List Byte) : Bool := bits (lrFlags r) 1 1 == 1
def lrListed (r : List Byte) : Bool := bits (lrFlags r) 2 1 == 1
def lrRing (r : List Byte) : Bool := bits (lrFlags r) 3 1 == 1
def lrDepFirst (r : List Byte) : Nat := leAt r 0x28 4
def lrDepCount (r : List Byte) : Nat := leAt r 0x2C 2
def lrParams (r : List Byte) : Nat := leAt r 0x2E 2

/-- The size of the receive ring of a gang member's inbound line, 4 KiB to 1 MiB; 0 where it declares none (R149, R190). -/
def ringBytes (r : List Byte) (j l : Nat) : Nat :=
  match Config.gangIn r j l with
  | some n => 2 ^ (12 + n % 9)
  | none => if lrRing r && l = 0 then 2 ^ 12 else 0

/-- The receive rings of a gang, in bytes. -/
def ringTotal (r : List Byte) : Nat :=
  ((List.range (lrGang r)).flatMap fun j => (List.range 8).map (ringBytes r j)).foldl (· + ·) 0

/-! ### Dependencies (R16, R229, R257) -/

/-- The latest entry of a list that a test accepts. -/
def lastThat (l : List (Nat × Desc)) (f : Desc → Bool) : List Nat := ((l.filter fun p => f p.2).getLast?.map (·.1)).toList

/-- The earlier fetched layers that a layer depends on: those its record lists, or the one before it when it lists none, and the last step of its
pool (R16, R229). -/
def layerDeps (m : Mach) (q : Queue) (d : Nat) : List Nat :=
  match mget q.descs d with
  | none => []
  | some x =>
    let before := q.descs.filter fun p => p.1 < d
    let named := match mget m.parcels x.parcel, layerRec m x with
      | some p, some r =>
        if lrListed r then
          ((p.deps.drop (lrDepFirst r)).take (lrDepCount r)).flatMap fun n => lastThat before fun y => y.isRun && y.layer == n && y.parcel == x.parcel
        else lastThat before (·.isRun)
      | _, _ => lastThat before (·.isRun)
    let pool := match x.pool with
      | none => []
      | some n => lastThat before fun y => y.isRun && y.pool == some n
    named ++ pool

/-- What a descriptor waits for: every earlier one, or, for a RUN right behind a RUN, its layer's dependencies and the descriptors of other types
(R16, R257). -/
def depsOf (m : Mach) (q : Queue) (d : Nat) : List Nat :=
  match mget q.descs d with
  | none => []
  | some x =>
    let before := q.descs.filter fun p => p.1 < d
    match before.getLast? with
    | none => []
    | some prev =>
      if !x.isRun || !prev.2.isRun then before.map (·.1)
      else layerDeps m q d ++ (before.filter fun p => !p.2.isRun).map (·.1)

/-- Whether every descriptor that `d` waits for has completed or, for a RUN behind RUNs, drained (R16, R257); a layer with an empty output counts as
drained when its record is written (R105). -/
def depsMet (m : Mach) (q d : Nat) : Bool :=
  match qGet m q with
  | none => false
  | some x =>
    (depsOf m x d).all fun e =>
      match mget x.descs e, mget x.descs d with
      | some y, some z => z.isRun && y.isRun && y.phase == 4 && y.record.all (·.1 ≠ stEmptyOutput)
      | _, _ => true

/-- The fetched descriptors that depend on `d`, directly or through others (R300, R303). -/
def dependents (m : Mach) (q : Queue) (d : Nat) : List Nat :=
  (q.descs.filter fun p => d < p.1).foldl (fun acc p =>
    if p.2.isRun && (layerDeps m q p.1).any fun e => e = d || acc.contains e then acc ++ [p.1] else acc) []

/-! ### Completing (R269, R470, R471) -/

/-- A completion goes to the collector, behind those that came before (R26). -/
def collect (q d : Nat) (core : Option Nat) (m : Mach) : Mach :=
  if m.sched.collector.any fun e => e.q == q && e.d == d then m
  else { m with sched := { m.sched with collector := m.sched.collector ++ [⟨q, d, m.now, core⟩] } }

/-- A descriptor's record is decided and goes to the collector; its work is charged to the tick of its last drain, or where nothing
drained to the present one (R27, R298). -/
def setRecord (q d st detail : Nat) (m : Mach) : Mach :=
  match descGet m q d with
  | none => m
  | some x =>
    collect q d x.drainCore
      (descUpd q d (fun x => { x with phase := 4, record := some (st, detail), tick := x.drainTick.getD m.tick.count }) m)

/-- A descriptor completes: its status holds the queue where R469 says so, and a timeout, a runaway or a drop at a boundary completes
its fetched dependents with its record's status without running them (R300, R303, R470; DEDUCED, log 29). -/
def complete (q d st detail : Nat) (m : Mach) : Mach :=
  let m := setRecord q d st detail m
  let m := if holding st then hold q m else m
  if st = stTimeoutDrained || st = stTimeoutKilled || st = stRunaway || st = stTickOverrun || (descGet m q d).any (·.dropped) then
    match qGet m q with
    | none => m
    | some x =>
      (dependents m x d).foldl (fun m e =>
        match descGet m q e with
        | some y => if y.phase < 2 && y.running = 0 then setRecord q e st detail m else m
        | none => m) m
  else m

/-- The key of a layer's allocation, and its release (R201). -/
def layerKey (q d : Nat) : Nat := 2 ^ 20 * d + q
def layerFree (q d : Nat) (m : Mach) : Mach := { m with depot := { m.depot with layers := mdel m.depot.layers (layerKey q d) } }

/-- A descriptor that cannot run completes before anything runs. -/
def refuse (q d st detail : Nat) (m : Mach) : Mach := complete q d st detail (layerFree q d (cancelUnissued q d m))

/-! ### The record's bytes (R268) -/

/-- The half of the completion ring pass gives PHASE: 1 on an even pass. -/
def phaseBit (q : Queue) (cpl : Nat) : Nat := if cpl < 2 ^ q.ctx.cplLog2 then 1 else 0

/-- The record's bytes; its MONITOR is the value that triggered the re-run for OK_RERUN, otherwise the final one (R239, R268). -/
def recordBytes (qn : Nat) (q : Queue) (x : Desc) (diverted : Bool) : List Byte :=
  let r := x.record.getD (stInternal, 0)
  let ring := 2 ^ q.ctx.ringLog2
  toLe 4 (x.seq.getD (leAt x.bytes 4 4)) ++ toLe 4 (qn + phaseBit q x.cpl * 2 ^ 31) ++ toLe 1 r.1
    ++ toLe 1 ((if x.group ≠ 0 then 1 else 0) + (if x.flagGlobal && r.1 ≠ stHostLost then 2 else 0)
        + (if diverted then 4 else 0) + (if x.seq.isSome then 8 else 0))
    ++ toLe 2 (if x.seq.isSome then 0xFFFF else x.index) ++ toLe 4 (if r.1 = stOkRerun then x.trigger else x.monitor) ++ toLe 8 r.2 ++ toLe 4 x.tick
    ++ toLe 2 (q.ctx.head % ring) ++ toLe 2 (if x.isRun then x.layer else 0)

/-- The virtual address of a completion entry. -/
def cplAddr (q : Queue) (cpl : Nat) : Nat := q.ctx.cplBase + 32 * (cpl % 2 ^ q.ctx.cplLog2)

/-! ### Rings of domain 0 (R271, R272, R340, R457) -/

/-- An entry of the dead-letter ring or the completion store. -/
def letterBytes (rec : List Byte) (target cause dom low seq : Nat) : List Byte :=
  (rec ++ List.replicate 32 (0 : Byte)).take 32 ++ toLe 8 target ++ toLe 4 cause ++ toLe 2 dom ++ toLe 2 low ++ toLe 8 seq ++ toLe 8 0

/-- A ring entry's write would need a line whose tag fails (R352). -/
def ringFails (m : Mach) (a : Nat) : Option Nat :=
  match writeChk m.mem 0 a 64 with
  | .integrity p => some p
  | _ => none

/-- An entry whose line fails its tag turns a ring off, once (R352). -/
def dlCheck (c : Cfg) (a : Nat) (m : Mach) : Mach :=
  match ringFails m a with
  | some p => if m.dlOff then m else post c evIntegrityFail [p, 0] { m with dlOff := true }
  | none => m
def prCheck (c : Cfg) (a : Nat) (m : Mach) : Mach :=
  match ringFails m a with
  | some p => if m.prOff then m else post c evIntegrityFail [p, 0] { m with prOff := true }
  | none => m

/-- The record goes to the dead-letter ring and the queue enters HELD (R271, R272). -/
def deadLetter (c : Cfg) (q : Nat) (rec : List Byte) (target cause dom : Nat) (m : Mach) : Mach :=
  let m := hold q m
  let n := 2 ^ c.tb.dlLog2
  let a := c.tb.dl + 64 * (m.dlTail % n)
  let m := dlCheck c a m
  if m.dlOff || n ≤ subMod m.dlTail m.dlHead (2 * n) then
    let m := { m with dlOverflow := satInc 32 m.dlOverflow }
    post c evDeadLetterFull [m.dlOverflow] m
  else
    let m := engPut a (letterBytes rec target cause dom 0 m.dlSeq) m
    irqDl c { m with
      dlTail := (m.dlTail + 1) % (2 * n), dlSeq := m.dlSeq + 1 }

/-- The record goes to the poste restante completion store; a full store drops it and holds the queue (R340). -/
def divert (c : Cfg) (q : Nat) (rec : List Byte) (target dom : Nat) (m : Mach) : Mach :=
  let n := 2 ^ c.tb.prLog2
  let a := c.tb.pr + 64 * (m.prTail % n)
  let m := prCheck c a m
  if m.prOff || n ≤ subMod m.prTail m.prHead (2 * n) then hold q { m with prOverflow := satInc 32 m.prOverflow }
  else
    let m := engPut a (letterBytes rec target 4 dom (m.hp.epoch % 2 ^ 16) m.prSeq) m
    { m with
      prTail := (m.prTail + 1) % (2 * n), prSeq := m.prSeq + 1 }

/-! ### Host requests (R323, R330, R336) -/

/-- The function a translated address belongs to: 0 the host, 1 a peer (log 30). -/
def fnOf (phys : Nat) : Nat := phys / 2 ^ 52

/-- A request takes the next number, by which posted writes keep their order (R330 step 1), and its queue's domain. -/
def hpName (m : Mach) (r : HpReq) : HpReq := { r with id := m.hp.seq, dom := if mhas m.queues r.q then qDom m r.q else r.dom }

/-- A request enters the outbound queue. Those beyond the share of R12 stand there and are not arbitrated (`inShare`). -/
def hpPut (r : HpReq) (m : Mach) : Mach :=
  { m with hp := { m.hp with seq := m.hp.seq + 1, wait := m.hp.wait ++ [hpName m r] } }

/-- Requests that have not left the host port: in its outbound queue, or on the mesh towards it (R185). -/
def hpAll (m : Mach) : List HpReq := m.hp.wait ++ m.arb.waiting.filterMap (·.host)

/-- Requests on the host port that wait for an answer (R323). -/
def hpOut (m : Mach) : Nat :=
  (m.hp.sent.filter (·.kind ≠ 0)).length + (m.xl.ats.filter (·.sent.isSome)).length + (m.xl.prg.filter (·.2.sent)).length

/-- Host-port and link transactions under way, but for those in the outbound queue (R12). -/
def outsideBase (m : Mach) : Nat :=
  hpOut m + (m.arb.waiting.filter fun r => decide (34 ≤ r.who) || r.host.isSome).length
    + (m.arb.tags.filter (34 ≤ ·.2.who)).length + (m.links.map fun l => (l.peers.map fun p => p.unacked.length).foldl (· + ·) 0).foldl (· + ·) 0

/-- Host-port and link transactions under way or waiting for the share (R12). -/
def outsideCount (m : Mach) : Nat := outsideBase m + m.hp.wait.length

/-- Sorting Office lookups under way, but for those in the outbound queue (R12). -/
def officeBase (m : Mach) : Nat :=
  (m.arb.waiting.filter (·.who == 33)).length + (m.arb.tags.filter (·.2.who == 33)).length + (m.hp.sent.filter (·.who == 3)).length

/-- Sorting Office lookups under way or waiting for the share. -/
def officeCount (m : Mach) : Nat := officeBase m + (m.hp.wait.filter (·.who == 3)).length

/-- A waiting request has its share's room: of the outbound queue only as many are tracked as the share leaves; the Sorting Office's also draw on
its own share (R12). -/
def inShare (m : Mach) (r : HpReq) : Bool :=
  decide (outsideBase m + (m.hp.wait.takeWhile (·.id ≠ r.id)).length < 8192)
    && (r.who ≠ 3 || decide (officeBase m + ((m.hp.wait.takeWhile (·.id ≠ r.id)).filter (·.who == 3)).length < 8192))

/-- A request with nothing but its kind and address. -/
def hpReq (kind addr : Nat) : HpReq :=
  { id := 0, kind := kind, addr := addr, data := [], len := 0, q := 0, core := none, deadline := 0, who := 2, va := 0, desc := 0 }

/-- A message may go: its 64 front-end cycles have passed, and the records it stands for are done (R270, R330 steps 4 and 5). -/
def msixReady (m : Mach) (p : Nat × Nat × List Nat) : Bool := decide (p.2.1 + 64 ≤ m.now) && !p.2.2.any m.hp.bisnp.contains

/-- The messages that may go are sent, behind every record they stand for (R270; log 49). -/
def msixDue (m : Mach) : Mach :=
  (m.irq.due.filter (msixReady m)).foldl (fun m p => msix p.1 m)
    { m with irq := { m.irq with due := m.irq.due.filter fun p => !msixReady m p } }

/-- A record has landed that raises vector `v`; the host held the lines `l`. Records within 64 front-end cycles of the first share its
message (R270; log 49). -/
def msixQueue (v : Nat) (l : List Nat) (m : Mach) : Mach :=
  let m := msixDue m
  let joins (p : Nat × Nat × List Nat) : Bool := p.1 == v && decide (m.now < p.2.1 + 64)
  if m.irq.due.any joins then
    { m with irq := { m.irq with due := m.irq.due.map fun p => if joins p then (p.1, p.2.1, (l ++ p.2.2).eraseDups) else p } }
  else { m with irq := { m.irq with due := m.irq.due ++ [(v, m.now, l)] } }

/-- The host has given up a line: what waited for it is sent. -/
def afterGive (c : Cfg) (m : Mach) : Mach :=
  let m := msixDue m
  let m := if m.irq.evtPend && m.irq.evtUntil ≤ m.now then irqEvt c m else m
  if m.irq.dlPend && m.irq.dlUntil ≤ m.now then irqDl c m else m

/-! ### Counts (R250, R278) -/

/-- An update of a queue's counter entry; an entry that fails its check is not updated and its queue is killed (R250). -/
def counterUpd (c : Cfg) (q : Nat) (f : Queue → Queue) (m : Mach) : Mach :=
  let a := c.tb.cnt + 16 * q
  if (badIn m.mem a 16).isSome then integrityKill c q a (qUpd q (fun x => { x with cntBad := true }) m) else qUpd q f m

/-- JOBS of the queue and of its domain rise by 1 (R278). -/
def countJob (c : Cfg) (q : Nat) (m : Mach) : Mach :=
  match qGet m q with
  | none => m
  | some x =>
    counterUpd c q (fun x => { x with jobs := (x.jobs + 1) % 2 ^ 64 })
      { m with doms := mupd m.doms x.ctx.dom fun e => { e with jobs := (e.jobs + 1) % 2 ^ 64 } }

/-! ### The record is written (R17, R26, R269) -/

/-- A descriptor's write of device memory is done when the host's copies of its lines have been invalidated (R330 step 4). -/
def awaitLines (q d a n : Nat) (m : Mach) : Mach :=
  match hostHolds m a n with
  | [] => m
  | l => descUpd q d (fun x => { x with lines := (l ++ x.lines).eraseDups }) m

/-- A write of a descriptor that does not wait for the host itself. -/
def engPutFor (q d a : Nat) (l : List Byte) (m : Mach) : Mach := engPut a l (awaitLines q d a l.length m)

/-- The host still has to give up a line that the descriptor wrote. -/
def linesOut (m : Mach) (x : Desc) : Bool := x.lines.any m.hp.bisnp.contains

/-- Lines of the table cache that a test names are written back (R210, R216, R219): the bytes their operations wrote, outside bound images. -/
def tcFlush (f : TLine → Bool) (m : Mach) : Mach :=
  let m := (m.depot.tcache.filter f).foldl (fun m l =>
    if inImage m l.addr 64 then m else l.data.foldl (fun m b => engPut b.1 [b.2] m) m) m
  { m with depot := { m.depot with tcache := m.depot.tcache.map fun l => if f l then { l with dirty := [], data := [] } else l } }

/-- The table-cache lines a descriptor's operation made dirty are written back, as data writes of it (R216, R330 step 4). -/
def ownFlush (q d : Nat) (m : Mach) : Mach :=
  let own (l : TLine) : Bool := l.dirty.contains (q, d)
  let m' := (m.depot.tcache.filter own).foldl (fun m l => awaitLines q d l.addr 64 m) m
  tcFlush own m'

/-- Deliver the record's bytes to its entry, the dead-letter ring or the store. -/
def deliver (c : Cfg) (q : Nat) (x : Desc) (m : Mach) : Mach :=
  match qGet m q with
  | none => m
  | some qu =>
    let va := cplAddr qu x.cpl
    let rec' := recordBytes q qu x false
    let dom := qu.ctx.dom
    let irq := if x.noIrq then none else x.irqVec
    match x.cplHeld with
    | none => deadLetter c q rec' va 3 dom m
    | some h =>
      match h.host with
      | some pg =>
        if m.hp.lost then divert c q (recordBytes q qu x true) va dom m
        else if h.void then deadLetter c q rec' va 1 dom m
        else
          let m := hpPut { hpReq 0 pg with data := rec', len := 32, q := q, deadline := m.now, who := 1, va := va } m
          match irq with
          | some v => hpPut { hpReq 4 v with q := q, deadline := m.now, who := 1 } m
          | none => m
      | none =>
        if h.void then deadLetter c q rec' va 1 dom m
        else if inImage m h.phys 32 then deadLetter c q rec' va 5 dom m
        else match writeChk m.mem dom h.phys 32 with
          | .perm => deadLetter c q rec' va 5 dom m
          | .integrity a => post c evIntegrityFail [a, dom] (deadLetter c q rec' va 5 dom m)
          | .ok =>
            let held := hostHolds m h.phys 32
            let m := engPut h.phys rec' m
            match irq with
            | some v => msixQueue v held m
            | none => m

/-- Entries or a submission are left to fetch. -/
def workLeft (m : Mach) (q : Queue) : Bool :=
  q.ctx.tail ≠ q.ctx.head || (q.ctx.path == 2 && ((mget m.mbx q.ctx.mailbox).bind (·.pending)).isSome)

/-- The queue after one of its descriptors has gone (R274): the last one leaves it READY, or to be re-sampled. -/
def afterRecord (q : Nat) (m : Mach) : Mach :=
  match qGet m q with
  | none => m
  | some x =>
    if x.descs ≠ [] || x.ctx.state ≠ qsRunning then m
    else if workLeft m x && !x.pausing then ctxUpd q (fun y => { y with state := qsReady }) m
    else qUpd q (fun y => { y with drained := true }) m

/-- The functions that must be flushed before the record of a descriptor is written (R330, R331). -/
def flushFns (x : Desc) : List Nat :=
  let f := x.fns.eraseDups
  if x.flagGlobal then f
  else match x.cplHeld.bind (·.host) with
    | some pg => if f = [fnOf pg] then [] else f
    | none => f

/-- An earlier member of the same group still owes its record (R277). -/
def memberFirst (m : Mach) (q d : Nat) (x : Desc) : Bool :=
  match mget m.sched.groups x.group with
  | none => true
  | some g => (g.members.takeWhile fun p => p ≠ (q, d)).all fun p => (descGet m p.1 p.2).isNone

/-- Posted data writes of a descriptor still wait to be sent (R17, R330). -/
def unsent (m : Mach) (q d : Nat) : Bool := (hpAll m).any fun r => r.kind == 0 && r.who ≠ 1 && r.q == q && r.desc == d

/-- The 64 completions the collector holds, oldest first; later ones wait (R26). A member of a merge group enters behind the
members before it (log 49). -/
def collected (m : Mach) : List Collected :=
  (m.sched.collector.filter fun e => (descGet m e.q e.d).any fun x => memberFirst m e.q e.d x).take 64

/-- A core's place in the collector's order, from the core that leads in this tick; completions without a core come last (R26; log 49). -/
def collectRank (m : Mach) (e : Collected) : Nat :=
  match e.core with
  | some k => (k + m.cores.length - m.sched.rot) % max 1 m.cores.length
  | none => m.cores.length

/-- Nothing but its turn holds a record back. -/
def recordFree (m : Mach) (e : Collected) : Bool :=
  (descGet m e.q e.d).any fun x =>
    x.phase == 4 && x.running == 0 && !unsent m e.q e.d && !linesOut m x && (flushFns x == [] || x.flushing == 1 || m.hp.lost)

/-- The collector holds the completion, and of those of the same moment none of a core before its own can go (R26). -/
def collectorTurn (m : Mach) (q d : Nat) : Bool :=
  (collected m).any fun e => e.q == q && e.d == d &&
    (collected m).all fun f => f.time != e.time || collectRank m e ≤ collectRank m f || !recordFree m f

/-- The flush reads of R330 and R331 are still to be sent or to come back. -/
def flushWaits (m : Mach) (x : Desc) : Bool := flushFns x != [] && x.flushing != 1 && !m.hp.lost

/-- They are sent, once. -/
def sendFlush (q d : Nat) (x : Desc) (m : Mach) : Mach :=
  if x.flushing ≠ 0 then m
  else (flushFns x).foldl (fun m f => hpPut { hpReq 2 f with q := q, desc := d, deadline := m.now, who := 1 } m)
    (descUpd q d (fun y => { y with flushing := (flushFns x).length + 1 }) m)

/-- The host is lost before the flush of a GLOBAL descriptor has ended (R331). -/
def flushFailed (m : Mach) (x : Desc) : Bool := m.hp.lost && x.flagGlobal && flushFns x != [] && x.flushing != 1

/-- The same once its record is decided. -/
def ownFlushed (q d : Nat) (m : Mach) : Mach := if (descGet m q d).any (·.phase == 4) then ownFlush q d m else m

/-- COMPLETION_RECORD_WRITE: flush reads go first where R330 or R331 asks; then the counts rise, the record goes, and the
descriptor is done. -/
def recordWrite (q d t : Nat) (c : Cfg) (m : Mach) : Mach :=
  let m := ownFlushed q d (msixDue (tickTo t m))
  match descGet m q d with
  | none => m
  | some x =>
    if x.phase ≠ 4 || x.running ≠ 0 || unsent m q d || linesOut m x || !memberFirst m q d x || !collectorTurn m q d || m.power.fail ≥ 2 then m
    else if flushWaits m x then sendFlush q d x m
    else
      let x := if flushFailed m x then { x with record := meet x.record stHostLost m.hp.epoch } else x
      let m := if (x.record.map (·.1)) = some stHostLost then hold q m else m
      let m := countJob c q m
      let m := deliver c q x m
      let m := qUpd q (fun y => { y with descs := mdel y.descs d })
        { m with sched := { m.sched with collector := m.sched.collector.filter fun e => !(e.q == q && e.d == d) } }
      let m := match x.seq with
        | none => m
        | some _ => { m with mbx := mupd m.mbx (((qGet m q).map fun y => y.ctx.mailbox).getD 0) fun b => { b with flight := none } }
      afterRecord q m

/-- A host-port write error: AER reports it (R322), and a record's goes to the dead-letter ring (R271 cause 2). -/
def writeError (id : Nat) (c : Cfg) (m : Mach) : Mach :=
  match m.hp.sent.find? fun r => r.id == id && r.kind == 0 with
  | none => m
  | some r =>
    let m := send .aer { m with hp := { m.hp with sent := m.hp.sent.filter (·.id ≠ id), fnc := { m.hp.fnc with aerWrite := true } } }
    if r.who = 1 then deadLetter c r.q r.data r.va 2 (((qGet m r.q).map fun x => x.ctx.dom).getD 0) m else m

/-- The end of a moderation window (R459); queue messages due by then are sent (R270; log 49). -/
def irqExpiry (dl : Bool) (t : Nat) (c : Cfg) (m : Mach) : Mach :=
  let m := msixDue (tickTo t m)
  if dl then (if m.irq.dlPend && m.irq.dlUntil ≤ m.now then irqDl c m else m)
  else if m.irq.evtPend && m.irq.evtUntil ≤ m.now then irqEvt c m else m

def execCompletionRecordWrite (q desc t : Nat) (s : State) : Host.Outcome State Fault Refusal := s.runM (recordWrite q desc t)
def execHostPortWriteError (id : Nat) (s : State) : Host.Outcome State Fault Refusal := s.runM (writeError id)
def execIrqModerationExpiry (dl : Bool) (t : Nat) (s : State) : Host.Outcome State Fault Refusal := s.runM (irqExpiry dl t)

end Sys2Proof.Machine
end

