-- ==== Sys2Proof/Machine/Requests.lean ====
section
/-! DEFINITION. Requests on their way: credits, shares, deadlines, the points they pass (R12, R181 to R187, R191, R199, R431). -/

namespace Sys2Proof.Machine

/-- The number that stands for no queue where Clerk 0 waits for a host page (log 40). -/
def noQueue : Nat := 2 ^ 20

/-! ### Credits (R183) -/

/-- The order of the units of one core: SU-B, SU-A, SU-D, SU-C (R187). -/
def unitRank (u : Nat) : Nat := if u = 1 then 0 else if u = 0 then 1 else if u = 3 then 2 else 3

/-- Credits a unit has when none is held. -/
def creditCap (u : Nat) : Nat := nth [512, 1024, 1024, 256] u

/-- A core's free credits for a unit. -/
def creditOf (m : Mach) (k u : Nat) : Nat := ((m.cores[k]?).map fun x => nth x.credits u).getD 0

/-- Change a unit's credits. -/
def creditUpd (k u : Nat) (f : Nat → Nat) (m : Mach) : Mach :=
  { m with cores := lupd m.cores k fun x => { x with credits := lupd x.credits u f } }

/-- Credits come back: of a reading unit when the consumer takes the line, of a writing unit when the destination accepts it. -/
def creditGive (k u n : Nat) (m : Mach) : Mach := creditUpd k u (fun v => min (v + n) (creditCap u)) m

/-- The requests of a core's unit that read and have not come back (R183). -/
def readsOut (m : Mach) (k u : Nat) : List Nat :=
  ((m.arb.waiting ++ m.arb.tags.map (·.2)).filter fun r => r.who == k && r.unit == u && !r.write).map (·.num)
    ++ ((m.hp.wait ++ m.hp.sent).filter fun h => h.core == some k && h.unit == u && h.kind ≠ 0).map (·.num)

/-- Lines of a core's unit are delivered in the order they were asked for: those that no earlier one is missing for have been taken by the
consumer, and their credits come back (R183, R184; log 39). -/
def deliverLines (k u : Nat) (m : Mach) : Mach :=
  let late := readsOut m k u
  let mine (r : Req) : Bool := r.who == k && r.unit == u
  let goes (r : Req) : Bool := mine r && late.all fun n => r.num ≤ n
  creditGive k u (((m.arb.back.filter goes).map (·.lines)).foldl (· + ·) 0) { m with arb := { m.arb with back := m.arb.back.filter fun r => !goes r } }

/-- A reading unit's lines have come back (R184). -/
def lineBack (r : Req) (m : Mach) : Mach :=
  if 32 ≤ r.who then m else deliverLines r.who r.unit { m with arb := { m.arb with back := m.arb.back ++ [r] } }

/-- The unit whose operation writes: SU-C, or SU-D for a FETCH. -/
def opUnit (x : Core) (n : Nat) : Option Nat :=
  if (x.slots.getD 2 []).any (·.op == n) then some 2 else if (x.slots.getD 3 []).any (·.op == n) then some 3 else none

/-- The destination has accepted bytes of an operation of a core: the writing unit's credits return (R183). -/
def tookBytes (k n bytes : Nat) (m : Mach) : Mach :=
  match (m.cores[k]?).bind fun x => opUnit x n with
  | some u => creditGive k u (cdiv bytes 64) m
  | none => m

/-- A peer has accepted a frame, or will never: the credits of the core whose operation sent it return. -/
def frameTaken (f : Frame) (m : Mach) : Mach :=
  if f.op = 0 then m
  else match m.cores.zipIdx.find? fun p => (opUnit p.1 f.op).isSome with
    | some p => tookBytes p.2 f.op f.data.length m
    | none => m

/-- Nothing a core asked for is still to come back (R360). -/
def readsBack (m : Mach) (k : Nat) : Bool :=
  m.arb.later.all (·.who ≠ k) && m.arb.waiting.all (·.who ≠ k) && m.arb.tags.all (·.2.who ≠ k) && (m.hp.wait ++ m.hp.sent).all fun r => r.core ≠ some k || r.kind = 0

/-! ### Arbitration points (R185, R191, R199, R431): Depot banks 0 to 31, memory ports 32 to 47, the host port's queue 80, router
outputs from 128 -/

/-- The memory port of an address (R431). -/
def memPort (a : Nat) : Nat := (bits a 8 4 ^^^ bits a 12 4 ^^^ bits a 16 4) % 16

/-- A point is a memory port. -/
def atPort (p : Nat) : Bool := decide (32 ≤ p ∧ p < 48)

/-- The physical core of a logical one (R3, R10). -/
def physOf (c : Cfg) (k : Nat) : Nat := ((List.range 32).filter fun p => bits c.strap.fused p 1 == 0).getD k 0

/-- An output of a router: 0 east, 1 west, 2 south, 3 north, 4 its core. -/
def meshPoint (router dir : Nat) : Nat := 128 + 8 * router + dir

/-- The router outputs from router `a` to router `b`: column first, then row. -/
def meshHops (a b : Nat) : List Nat :=
  let across : List Nat := (List.range (max (a % 8) (b % 8) - min (a % 8) (b % 8))).map fun i =>
    if a % 8 < b % 8 then meshPoint (a + i) 0 else meshPoint (a - i) 1
  let along : List Nat := (List.range (max (a / 8) (b / 8) - min (a / 8) (b / 8))).map fun i =>
    if a < b then meshPoint (8 * (a / 8 + i) + b % 8) 2 else meshPoint (8 * (a / 8 - i) + b % 8) 3
  across ++ along

/-- The router outputs from physical core `a` to physical core `b`. -/
def meshPath (a b : Nat) : List Nat := meshHops a b ++ [meshPoint b 4]

/-- The router a memory port hangs on: ports 0 to 7 along row 0, 8 to 15 along row 3 (DESIGN CHOICE, log 39). -/
def portRouter (p : Nat) : Nat := if p < 8 then p else 24 + p % 8

/-- The router a requester enters the mesh at: a core its own; the front end and the host port the west edge, the Sorting Office and the links the
east edge, in the row of what they ask (DESIGN CHOICE, log 39). -/
def entryRouter (c : Cfg) (who goal : Nat) : Nat :=
  if who < 32 then physOf c who else if who = 32 || who = 34 then 8 * (goal / 8) else 8 * (goal / 8) + 7

/-- A request that stands at the first of some points and passes the rest. -/
def Req.via (ps : List Nat) (r : Req) : Req := { r with point := ps.headD 0, path := ps.drop 1 }

/-- The points from a requester to the memory port of an address (R185, R431). -/
def memPath (c : Cfg) (who a : Nat) : List Nat :=
  meshHops (entryRouter c who (portRouter (memPort a))) (portRouter (memPort a)) ++ [32 + memPort a]

/-- The points from a requester to a Depot bank (R185, R199). -/
def bankPath (c : Cfg) (who bank : Nat) : List Nat := meshHops (entryRouter c who bank) bank ++ [bank]

/-- The points from a core to the host port on the west edge (R185). -/
def hostPath (c : Cfg) (k : Nat) : List Nat := meshHops (physOf c k) (8 * (physOf c k / 8)) ++ [80]

/-! ### Shares (R12) -/

/-- Depot and post-mesh requests of a core under way. -/
def meshCount (m : Mach) (k : Nat) : Nat := (m.arb.waiting.filter fun r => r.who == k && !atPort r.point).length

/-- The credits a request takes: the lines it covers (R183). -/
def Req.cover (r : Req) : Nat := cdiv (r.addr % 64 + r.n) 64

/-- A request may issue: its unit's credits cover its lines and its shares have room (R12, R183). -/
def mayIssue (m : Mach) (r : Req) : Bool :=
  if r.who < 32 then
    decide (r.cover ≤ creditOf m r.who r.unit) && (r.host.isNone || decide (outsideCount m < 8192))
      && (atPort r.point || r.point == 80 || decide (meshCount m r.who < 1024))
  else if r.who = 33 then decide (officeCount m < 8192)
  else r.who = 32 || decide (outsideCount m < 8192)

/-! ### Deadlines (R186) -/

/-- How long after its issue a request from outside the cores falls due. -/
def outsideDelay (who : Nat) : Nat := if who = 32 then 0 else if who = 34 then 128 else 256

/-- Bytes of a reading stream that are buffered and not consumed, or asked for and not returned. -/
def aheadOf (m : Mach) (r : Req) : Nat :=
  let same (x : Req) : Bool := x.who == r.who && x.unit == r.unit && x.op == r.op && x.str == r.str && !x.write
  (((m.arb.waiting ++ m.arb.tags.map (·.2) ++ m.arb.back).filter same).map (·.n)).foldl (· + ·) 0
    + (((m.hp.wait ++ m.hp.sent).filter fun h => h.core == some r.who && h.unit == r.unit && h.op == r.op && h.str == r.str && h.kind ≠ 0).map
        fun h => if h.n = 0 then h.len else h.n).foldl (· + ·) 0

/-- The deadline of a request that issues now. The buffer a writing request's own lines take is not free. -/
def deadlineOf (m : Mach) (r : Req) : Nat :=
  m.now + if 32 ≤ r.who then outsideDelay r.who
    else if r.rate = 0 then 4096
    else 16 * (if r.write then 64 * (creditOf m r.who r.unit - r.cover) else aheadOf m r) / r.rate

/-! ### Issue (R183, R184) -/

/-- A request that reaches the host port's outbound queue joins it (R185). -/
def hpJoin (h : HpReq) (m : Mach) : Mach := { m with hp := { m.hp with wait := m.hp.wait ++ [h] } }

/-- A request stands at its point. -/
def stand (r : Req) (m : Mach) : Mach :=
  match r.point, r.host with
  | 80, some h => hpJoin h m
  | _, _ => { m with arb := { m.arb with waiting := m.arb.waiting ++ [r] } }

/-- A request issues: it takes its credits, its deadline and its number, and waits at its first point. -/
def issueReq (r : Req) (m : Mach) : Mach :=
  let d := deadlineOf m r
  let n := m.arb.nextNum
  let h := r.host.map fun h => { hpName m h with deadline := d, num := n }
  stand { r with deadline := d, num := n, host := h } (creditUpd r.who r.unit (· - r.cover)
    { m with arb := { m.arb with nextNum := n + 1 }, hp := { m.hp with seq := if r.host.isSome then m.hp.seq + 1 else m.hp.seq } })

/-- One segment in turn: it issues unless an earlier one of its unit stands before it. -/
def pumpOne (s : List Req × List (Nat × Nat) × Mach) (r : Req) : List Req × List (Nat × Nat) × Mach :=
  if s.2.1.contains (r.who, r.unit) || !mayIssue s.2.2 r then (s.1 ++ [r], (r.who, r.unit) :: s.2.1, s.2.2) else (s.1, s.2.1, issueReq r s.2.2)

/-- Segments issue in order, each unit's as far as credits and shares allow (R184). -/
def pump (m : Mach) : Mach :=
  let s := m.arb.later.foldl pumpOne ([], [], m)
  { s.2.2 with arb := { s.2.2.arb with later := s.1 } }

/-- Segments join those to be issued. -/
def addLater (rs : List Req) (m : Mach) : Mach := if rs = [] then m else pump { m with arb := { m.arb with later := m.arb.later ++ rs } }

/-- The segments of an access from outside the cores to device memory, made for a domain and a queue (R181, R186, R187). Its data moves at
the row that makes it (log 39). -/
def outsideReqs (c : Cfg) (who dom q : Nat) (wr : Bool) (a n : Nat) (m : Mach) : Mach :=
  if n = 0 then m
  else addLater ((List.range ((a + n - 1) / 256 + 1 - a / 256)).map fun i =>
    let s := max a (256 * (a / 256 + i))
    let k := min (a + n) (256 * (a / 256 + i + 1)) - s
    Req.via (memPath c who s) { point := 0, who := who, unit := 0, deadline := 0, addr := s, lines := if wr then cdiv (s % 64 + k) 64 else 4, write := wr
                                dom := dom, q := q, op := 0, n := k }) m

/-- The bank of a region's byte (R199). -/
def depotBank (r : Region) (off : Nat) : Nat := 8 * bits off 8 2 + nth r.groups (off / 65536)

/-- The segments of the Sorting Office's access to a Depot region (R185, R186). -/
def regionReqs (c : Cfg) (r : Region) (dom q : Nat) (wr : Bool) (off n : Nat) (m : Mach) : Mach :=
  if n = 0 then m
  else addLater ((List.range ((off + n - 1) / 256 + 1 - off / 256)).map fun i =>
    let s := max off (256 * (off / 256 + i))
    let k := min (off + n) (256 * (off / 256 + i + 1)) - s
    Req.via (bankPath c 33 (depotBank r s)) { point := 0, who := 33, unit := 0, deadline := 0, addr := s, lines := cdiv (s % 64 + k) 64, write := wr
                                              dom := dom, q := q, op := 0, n := k }) m

/-- The translation of an address is used: the caches take it, and a walk's reads go to their ports at the front end's deadline and index
(R311, R312). -/
def xlateFill (c : Cfg) (core : Option Nat) (d va : Nat) (m : Mach) : Mach :=
  (missReads c core d va m).foldl (fun m a => outsideReqs c 32 0 noQueue false a 8 m) (fillTlb c core d va m)

end Sys2Proof.Machine
end

