-- ==== Sys2Proof/Machine/Links.lean ====
section
/-! DEFINITION. Link ports: handshake, frames in sequence, credits, parked data, loss of a peer (R367 to R385, R388 to R390,
R439, R462). -/

namespace Sys2Proof.Machine

/-! ### Ports and peers -/

/-- A port that takes part in a cascade: enabled, a role, an address (R369, R374). -/
def portOn (c : Cfg) (port : Nat) : Bool := roleOf c ≠ 0 && (c.links[port]?).any fun l => l.enable && l.mac != 0

/-- Change a port. -/
def linkSet (port : Nat) (f : Link → Link) (m : Mach) : Mach := { m with links := lupd m.links port f }

/-- A frame discarded and counted (R367, R372). -/
def discard (port : Nat) (m : Mach) : Mach := linkSet port (fun l => { l with discards := satInc 32 l.discards }) m
def discardU (port : Nat) (m : Mach) : Mach := linkSet port (fun l => { l with unctrl := satInc 32 l.unctrl }) m

/-- The 128 bytes of a HELLO (R373). -/
def helloBytes (h : Hello) : List Byte :=
  toLe 1 h.version ++ toLe 1 h.role ++ toLe 1 h.engine ++ toLe 1 h.port ++ toLe 4 h.group ++ toLe 4 h.epoch ++ toLe 4 h.caps
    ++ toLe 6 h.mac ++ toLe 10 0 ++ toBe 96 h.key

/-- The security epoch the attestation key is derived under: the running one, or the stored minimum while booting (R404). -/
def ownEpoch (m : Mach) : Nat := if m.boot.state = bsRunning then m.boot.epoch else m.boot.minEpoch

/-- This engine's attestation key as a number. -/
def ownKey (m : Mach) : Nat := beNat (attestPub m (ownEpoch m))

/-- The HELLO a port sends (R375). -/
def ownHello (c : Cfg) (m : Mach) (port : Nat) : Hello :=
  ⟨1, roleOf c, selfEngine c m, port, m.casc.group, ownEpoch m, 1, ((c.links[port]?).map (·.mac)).getD 0, ownKey m⟩

/-- What a port puts around a frame on the uncontrolled port (R367). -/
def wrapOf (c : Cfg) (port : Nat) : Wrap :=
  match c.links[port]? with
  | some l => ⟨l.mac, if l.vid = 0 then none else some (l.pcp, l.vid), l.etype, none⟩
  | none => ⟨0, none, 0, none⟩

/-- The 16 bytes of a Kalham header (R372). -/
def headBytes (h : KHead) : List Byte :=
  toLe 1 (h.version + 16 * h.type) ++ toLe 1 h.dst ++ toLe 1 h.src ++ toLe 1 h.route ++ toLe 4 h.queue ++ toLe 2 h.postmark ++ toLe 2 h.seq
    ++ toLe 2 h.len ++ toLe 2 h.ack

/-- What a port puts around a frame on the controlled port: the peer's next packet number, the channel's identifier with port number 1
(PRESUMED, log 36: IEEE 802.1AE), and the ICV over addresses, EtherType, header and payload. -/
def secWrap (c : Cfg) (port : Nat) (p : Peer) (pn : Nat) (h : KHead) (data : List Byte) : Wrap :=
  let w := wrapOf c port
  { w with sec := some (p.an, pn, w.src * 2 ^ 16 + 1,
      Config.icv p.sa p.an pn (toLe 6 p.mac ++ toLe 6 w.src ++ toLe 2 w.etype ++ headBytes h ++ data)) }

/-- The header of a frame that is not in sequence. -/
def plainHead (type dst src len : Nat) : KHead := { type := type, dst := dst, src := src, len := len }

/-- The engine takes an image from the master (R404). -/
def takesImage (m : Mach) : Bool := m.boot.state == bsRecovery || (m.boot.state == bsLoading && (m.boot.source == 2 || m.boot.source == 3))

/-- Clerk 2 carries the handshake and pauses while it is down; before the Clerks run the boot ROM does, for an image from the master (R390,
R391, R404). -/
def shakes (m : Mach) : Bool := if m.boot.state = bsRunning then (m.clerks.getD 2 {}).running else takesImage m

/-- A port in HELLO: it has met no peer, or holds one there (R374). -/
def inHello (l : Link) : Bool := l.peers.isEmpty || l.peers.any (·.state == 2)

/-- HELLO is broadcast every 10 ms by a port in HELLO (R374). -/
def helloBroadcast (port t : Nat) (c : Cfg) (m : Mach) : Mach :=
  let m := tickTo t m
  match m.links[port]? with
  | none => m
  | some l =>
    if !portOn c port || !l.macUp || !inHello l || !shakes m || l.helloAt.any fun a => m.now < a + 10000000 then m
    else send (.frame port (2 ^ 48 - 1) (wrapOf c port) (plainHead 5 0xF (selfEngine c m) 128) (helloBytes (ownHello c m port)))
      (linkSet port (fun l => { l with helloAt := some m.now }) m)

/-! ### Loss of a peer (R388 to R390) -/

/-- A peer on or off the time path (R384): offsets count from when it came on it, and one that leaves it waits for none (R374). -/
def onPath (b : Bool) (p : Peer) : Peer :=
  { p with timePath := b, offsets := if b == p.timePath then p.offsets else [], state := if p.state = 6 && !b then 7 else p.state }

/-- The member's time path: the lowest port whose peer is the master in SECURE or later, with tick source 2 (R384). -/
def retime (c : Cfg) (m : Mach) : Mach :=
  let syn := roleOf c = 1 && m.tick.cfg.src = 2
  let isMaster (p : Peer) : Bool := 5 ≤ p.state && p.engine == some 0
  let first := m.links.zipIdx.find? fun l => l.1.peers.any isMaster
  { m with links := m.links.zipIdx.map fun l =>
      { l.1 with peers := l.1.peers.map fun p => onPath (syn && isMaster p && first.any (·.2 == l.2)) p } }

/-- A peer's state after it has been lost: nothing of its association stays (R376, R389). -/
def peerClear (next now : Nat) (p : Peer) : Peer :=
  { p with state := next, since := now, offered := false, gap := false, nextSeq := 0, expSeq := 0, unacked := [], queue := []
           credits := [], offsets := [], returning := p.returning || 5 ≤ p.state, timePath := false
           myNonce := 0, nonce := 0, ephKey := 0, eph := 0, cak := [], ckn := [], sa := 0, an := 0, pn := 0 }

/-- A count has met a sequence (R146). -/
def seqMet (count seq : Nat) : Bool := decide (subMod count (seq % 2 ^ 16) (2 ^ 16) < 2 ^ 15)

/-- The remote WAIT of word 0 of a layer's tile-command is met, or there is none (R148). -/
def remoteMet (y : Queue) (x : Desc) (i : Nat) : Bool :=
  (mget x.waits (2 * i + x.alt.toNat)).all fun r => seqMet ((mget y.routes r.1).getD 0) r.2

/-- Layers of a queue over a binding that wait at word 0 on a remote route (R389). -/
def remoteWaits (m : Mach) (port e : Nat) : List (Nat × Nat) :=
  (m.queues.filter fun y => m.casc.binds.any fun b => b.2.recv && b.2.q == y.1 && b.2.port == port && b.2.engine == e).flatMap fun y =>
    (y.2.descs.filter fun d => d.2.phase == 2 && !d.2.cancelled && !remoteMet y.2 d.2 d.2.next).map fun d => (y.1, d.1)

/-- A cross-cascade RESHARD under way ends with LINK_LOST where a binding of its queue takes the lost link to the lost engine (R222). -/
def lostReshard (m : Mach) (port e detail : Nat) (o : SoOp) : SoOp :=
  if o.status = stOk && (m.casc.binds.any fun b => b.2.q == o.q && b.2.engine == e && b.2.port == port) && (descGet m o.q o.desc).any (fun x => x.type == 5 && leAt x.bytes 0xA 1 == 1) then
    { o with status := stLinkLost, detail := detail } else o

/-- The tile-commands that may read routes of a binding over the lost peer: one that goes on reading once the parked bytes are exhausted ends
with LINK_LOST (R389). -/
def lossMarks (port e detail : Nat) (m : Mach) : Mach :=
  let qs := (m.casc.binds.filter fun b => b.2.recv && b.2.port == port && b.2.engine == e).map (·.2.q)
  { m with cores := m.cores.map fun x => if x.tc.any (fun t => qs.contains t.q) then { x with linkLost := some detail } else x }

/-- A peer is lost (R389): frames are discarded, layers that depend on it complete with LINK_LOST, PEER_LOST is posted.
The tile-commands of those layers are killed (DEDUCED, log 36). The master posts MEMBER_LOST when no port reaches the member
(R390), and its requests to that engine are answered with LINK_LOST (DESIGN CHOICE, log 37). -/
def peerLost (c : Cfg) (port i next : Nat) (m : Mach) : Mach :=
  match peerGet m port i with
  | none => m
  | some p =>
    if p.state < 5 then peerUpd port i (peerClear next m.now) m
    else
      let e := p.engine.getD 0xF
      let detail := port + 16 * e
      let ls := (((p.unacked ++ p.queue).filter fun f => f.head.type == 1).map fun f => (f.q, f.desc)).eraseDups
      let ws := remoteWaits m port e
      let m := pump ((p.unacked ++ p.queue).foldl (fun m f => frameTaken f m) (retime c (peerUpd port i (peerClear next m.now) m)))
      let m := (ls ++ ws).foldl (fun m x => stopLayer x.1 x.2 stLinkLost detail true m) m
      let m := { m with depot := { m.depot with ops := m.depot.ops.map (lostReshard m port e detail) } }
      let m := lossMarks port e detail m
      let m := post c evPeerLost [port, e] m
      if (peerOf m e).isSome then m
      else
        let m := if roleOf c = 2 then post c evMemberLost [e] m else m
        let rs := m.casc.requests.filter fun r => r.2.engine == e
        let m := rs.foldl (fun m r => respond c r.2.cmd stLinkLost [] m) m
        { m with casc := { m.casc with requests := mfilter (fun _ r => r.engine ≠ e) m.casc.requests } }

/-- Every peer of a port, by index. -/
def peerIdxs (m : Mach) (port : Nat) : List Nat := List.range (((m.links[port]?).map fun l => l.peers.length).getD 0)

/-- ENABLE is cleared: every peer of the port is lost and DOWN (R462). -/
def portDown (c : Cfg) (port : Nat) (m : Mach) : Mach := (peerIdxs m port).foldl (fun m i => peerLost c port i 0 m) m

/-- Peers leave DOWN for TRAIN, and TRAIN for HELLO when the MAC reports link (R374). -/
def portUp (c : Cfg) (port : Nat) (m : Mach) : Mach :=
  if !portOn c port then m
  else linkSet port (fun l => { l with peers := l.peers.map fun p =>
    if p.state < 2 then { p with state := if l.macUp then 2 else 1 } else p }) m

/-- lm_link_up rises (R439). -/
def macUp (port t : Nat) (c : Cfg) (m : Mach) : Mach :=
  let m := tickTo t m
  portUp c port (linkSet port (fun l => { l with macUp := true }) m)

/-- The MAC reports no link: peers in the handshake fall to TRAIN; the others are lost at LINK_TIMEOUT (R374, R388). -/
def macDown (port t : Nat) (m : Mach) : Mach :=
  let m := tickTo t m
  linkSet port (fun l => { l with
    macUp := false, downAt := if l.macUp then m.now else l.downAt
    peers := l.peers.map fun p => if 2 ≤ p.state && p.state < 5 then { p with state := 1 } else p }) m

/-- A member's link shares go to the master at each change (R462). -/
def shareChanged (c : Cfg) (_port : Nat) (m : Mach) : Mach :=
  if roleOf c = 1 then frameTo 0 8 (toLe 8 3 ++ c.links.flatMap (fun l => toLe 1 l.rtShare) ++ toLe 20 0) m else m

/-! ### HELLO (R371, R375) -/

/-- Every peer is held in HELLO (R371); a peer that leaves SECURE or later so is lost (DEDUCED, log 36). -/
def enterNoMaster (c : Cfg) (m : Mach) : Mach :=
  let m := { m with casc := { m.casc with noMasterAt := m.now } }
  if m.casc.noMaster then m
  else
    let m := post c evCascadeNoMaster [m.casc.group] { m with casc := { m.casc with noMaster := true } }
    (List.range m.links.length).foldl (fun m port => (peerIdxs m port).foldl (fun m i =>
      if ((peerGet m port i).any fun p => 2 < p.state) then peerLost c port i 2 m else m) m) m

/-- How a HELLO is judged. -/
inductive HelloRes where
  | agree
  | wait
  | refuse
  deriving DecidableEq, Repr

/-- Agreement of two HELLOs (R375). -/
def helloJudge (c : Cfg) (m : Mach) (h : Hello) : HelloRes :=
  let me := selfEngine c m
  let others := m.links.flatMap (·.peers)
  if h.version ≠ 1 || h.role = 0 || h.role = 3 then .refuse
  else if !(h.group = m.casc.group || (m.casc.group = 0 && roleOf c = 1) || (h.group = 0 && h.role = 1)) then .refuse
  else if h.role = 2 && roleOf c = 2 then .refuse
  else if h.engine ≠ 0xF && (h.engine = me || others.any fun p => p.engine == some h.engine && p.hello.any (·.key != h.key)) then .refuse
  else if roleOf c = 1 && h.role = 1 && (me = 0xF || h.engine = 0xF) then .wait
  else .agree

/-- An ATTEST offer or proof as sent (R373, R375). -/
def attestBytes (step assign nonce eph : Nat) (sig : List Byte) : List Byte :=
  toLe 1 step ++ toLe 1 assign ++ toLe 6 0 ++ toLe 32 nonce ++ toBe 96 eph ++ (sig ++ List.replicate 96 (0 : Byte)).take 96

/-- The roster's index of a peer: key hash and epoch (R370). -/
def rosterIdx (m : Mach) (h : Hello) : Option Nat :=
  let k := leNat (sha384 (toBe 96 h.key))
  (m.casc.roster.zipIdx.find? fun r => r.1 == (k, h.epoch)).map (·.2)

/-- The number the master gives a peer; 0xF from anyone else. -/
def assignOf (c : Cfg) (m : Mach) (h : Hello) : Nat := if roleOf c = 2 then ((rosterIdx m h).map (· + 1)).getD 0xF else 0xF

/-- ATTEST begins with a fresh nonce and ephemeral key. -/
def attestStart (c : Cfg) (port i : Nat) (m : Mach) : Mach :=
  match peerGet m port i with
  | none => m
  | some p =>
    let n := Config.draw m.draws
    let d := Config.draw (m.draws + 1) % (ecN - 1) + 1
    let h := p.hello.getD (ownHello c m port)
    send (.frame port p.mac (wrapOf c port) (plainHead 6 h.engine (selfEngine c m) 232) (attestBytes 0 (assignOf c m h) n (beNat (ecPub d)) []))
      (peerUpd port i (fun p => { p with state := 3, since := m.now, offered := false, myNonce := n, eph := d }) (drawn (drawn m)))

/-- The header of a HELLO or an ATTEST breaks its layout, or its LEN is not its type's (R372, R373). -/
def headBad (h : KHead) (type len : Nat) : Bool :=
  h.version ≠ 1 || h.type ≠ type || h.rsv ≠ 0 || h.route ≠ 0 || h.queue ≠ 0 || h.postmark ≠ 0 || h.len ≠ len || 16 ≤ h.dst || 16 ≤ h.src

/-- A HELLO tells of a second master of this engine's group: it is a master itself, or knows another one, by a HELLO of the last second or by a
handshake that has gone on since (R371). -/
def secondMaster (c : Cfg) (m : Mach) (h : Hello) : Bool :=
  h.role = 2 && h.group = m.casc.group && h.group ≠ 0 &&
    (roleOf c = 2 || (m.links.flatMap (·.peers)).any fun p =>
      (3 ≤ p.state || m.now < p.helloAt + 1000000000) && p.hello.any fun g => g.role == 2 && g.group == h.group && g.key != h.key)

/-- A HELLO arrives. DEDUCED (log 36): a broadcast HELLO names engine 0xF as its destination. -/
def helloRx (port : Nat) (hd : KHead) (h : Hello) (t : Nat) (c : Cfg) (m : Mach) : Mach :=
  let m := tickTo t m
  match m.links[port]? with
  | none => m
  | some l =>
    if !portOn c port || !l.macUp then discard port m
    else if !shakes m then m
    else if headBad hd 5 128 || (hd.dst ≠ 0xF && hd.dst ≠ selfEngine c m) || 16 ≤ h.engine || 4 ≤ h.port || 2 ≤ h.caps then discard port m
    else
      let second := secondMaster c m h
      let m := if (l.peers.any (·.mac == h.mac)) || 15 ≤ l.peers.length then m
               else linkSet port (fun l => { l with peers := l.peers ++ [{ mac := h.mac, since := m.now, lastRx := m.now }] }) m
      match ((m.links[port]?).bind fun l => l.peers.zipIdx.find? fun p => p.1.mac == h.mac) with
      | none => m
      | some (p, i) =>
        let m := peerUpd port i (fun p => { p with hello := some h, helloAt := m.now, refused := p.refused && p.hello == some h }) m
        if second then enterNoMaster c m
        else if m.casc.noMaster || p.state ≠ 2 || (p.refused && p.hello == some h) then m
        else match helloJudge c m h with
          | .agree => attestStart c port i m
          | .wait => m
          | .refuse => post c evPeerRefused [port, h.engine, 2] (peerUpd port i (fun p => { p with refused := true }) m)

/-- No HELLO has claimed a second master for 1 s (R371). -/
def noMasterExpiry (t : Nat) (m : Mach) : Mach :=
  let m := tickTo t m
  if m.casc.noMaster && m.casc.noMasterAt + 1000000000 ≤ m.now then { m with casc := { m.casc with noMaster := false } } else m

/-! ### ATTEST and MKA (R375, R376) -/

/-- The hash a side signs: its nonce, the other's, and both HELLO bodies. -/
def attestHash (a b : Nat) (h g : Hello) : List Byte := sha384 (toLe 32 a ++ toLe 32 b ++ helloBytes h ++ helloBytes g)

/-- Whether the peer's key is one this engine accepts (R370); a member accepts another member's key as its HELLO shows it
(DEDUCED, log 37: no record names it). -/
def keyOk (c : Cfg) (m : Mach) (h : Hello) : Bool :=
  if roleOf c = 2 then (rosterIdx m h).isSome
  else if h.role = 2 then m.casc.trust == some (leNat (sha384 (toBe 96 h.key)), h.epoch)
  else true

/-- The pairwise CAK and its name: the nonces and engine numbers enter lower engine first (R376; DESIGN CHOICE, log 5). -/
def cakOf (z : List Byte) (e f n o group : Nat) : List Byte :=
  kdf z "TRB-LINK" (if e ≤ f then toLe 32 n ++ toLe 32 o ++ toLe 1 e ++ toLe 1 f ++ toLe 4 group
    else toLe 32 o ++ toLe 32 n ++ toLe 1 f ++ toLe 1 e ++ toLe 4 group) 32
def cknOf (e f n o : Nat) : List Byte := (sha384 (if e ≤ f then toLe 32 n ++ toLe 32 o else toLe 32 o ++ toLe 32 n)).take 16

/-- The port is under attestation with a peer. -/
def attestRx (port i : Nat) (hd : KHead) (a : Attest) (t : Nat) (c : Cfg) (m : Mach) : Mach :=
  let m := tickTo t m
  match peerGet m port i with
  | none => m
  | some p =>
    if headBad hd 6 232 || hd.dst ≠ selfEngine c m || 2 ≤ a.step || 16 ≤ a.assign || (a.step = 0 && a.signature ≠ 0) || (a.step = 1 && a.ephKey ≠ 0) then discard port m
    else if !portOn c port || p.state ≠ 3 || !shakes m then m
    else match p.hello with
      | none => m
      | some h =>
        let own := ownHello c m port
        if a.step = 0 then
          let sig := attestSign m (ownEpoch m) (attestHash p.myNonce a.nonce own h)
          send (.frame port p.mac (wrapOf c port) (plainHead 6 h.engine (selfEngine c m) 232) (attestBytes 1 (assignOf c m h) p.myNonce 0 sig))
            (peerUpd port i (fun p => { p with offered := true, nonce := a.nonce, ephKey := a.ephKey }) (drawn m))
        else if !p.offered then m
        else
          let num := if roleOf c = 2 then assignOf c m h else if h.role = 2 then 0 else h.engine
          let z := ecdh p.eph (p.ephKey / 2 ^ 384) (p.ephKey % 2 ^ 384)
          let good := keyOk c m h && a.nonce = p.nonce && z.isSome
            && sigOk (toBe 96 h.key) (attestHash p.nonce p.myNonce h own) (toBe 96 a.signature)
            && (roleOf c = 2 || (if h.role = 2 then 1 ≤ a.assign else num ≠ 0xF))
          if !good then
            post c evPeerRefused [port, h.engine, 3] (peerUpd port i (fun p => { p with offered := false, since := m.now }) m)
          else
            let m := if roleOf c = 1 && h.role = 2 then
              { m with casc := { m.casc with engine := some a.assign, group := if m.casc.group = 0 then h.group else m.casc.group } } else m
            let me := selfEngine c m
            peerUpd port i (fun p => { p with state := 4, since := m.now, mkaAt := m.now, engine := some num, an := 0, pn := 0
                                              cak := cakOf (z.getD []) me num p.myNonce p.nonce m.casc.group
                                              ckn := cknOf me num p.myNonce p.nonce, sa := Config.draw m.draws }) (drawn m)

/-- 1 s after a failure the attestation is tried again (R374). -/
def attestRetry (port i t : Nat) (c : Cfg) (m : Mach) : Mach :=
  let m := tickTo t m
  if !m.casc.noMaster && portOn c port && shakes m && (peerGet m port i).any (fun p => p.state == 3 && p.since + 1000000000 ≤ m.now)
  then attestStart c port i m else m

/-- Credits of a port's receive bindings with a peer are granted afresh (R380, R389). -/
def grantAll (port e : Nat) (m : Mach) : Mach :=
  (m.casc.binds.filter fun b => b.2.recv && b.2.port == port && b.2.engine == e).foldl
    (fun m b => creditBack b.2 (b.2.quota - b.2.used) m) m

/-- Cores in service: enabled and not withdrawn by a self-test (R287, R414). -/
def coresIn (m : Mach) : Nat := (m.cores.filter fun c => c.regs.test == 0).length

/-- A member tells the master its cores in service (R373, R414). -/
def coresChanged (c : Cfg) (m : Mach) : Mach :=
  if roleOf c = 1 then frameTo 0 8 (toLe 8 4 ++ toLe 24 (coresIn m)) m else m

/-- A peer is back after a loss: the counts of the receive bindings' routes go to it, and the send bindings adopt the counts it sends. No frame
type carries them: they are free values (R379; DESIGN CHOICE, log 36). -/
def countsSwap (port i e : Nat) (m : Mach) : Mach :=
  let bs := m.casc.binds.filter fun b => b.2.port == port && b.2.engine == e
  let own := (bs.filter (·.2.recv)).flatMap fun b => ((qGet m b.2.q).map (·.routes)).getD [] |>.map fun r => (b.2.q, r.1, r.2)
  let m := send (.counts port (((peerGet m port i).map (·.mac)).getD 0) own) m
  ((bs.filter (!·.2.recv)).flatMap fun b => b.2.counts.map fun r => (b.1, r.1)).foldl (fun m r =>
    drawn { m with casc := { m.casc with binds := mupd m.casc.binds r.1 fun b => { b with counts := mset b.counts r.2 (Config.draw m.draws % 65536) } } }) m

/-- A peer that has been lost and is UP again: counts are exchanged (R379, R389). -/
def peerBack (port i : Nat) (m : Mach) : Mach :=
  match peerGet m port i with
  | some p => if p.returning && p.state = 7 then countsSwap port i (p.engine.getD 0xF) (peerUpd port i (fun p => { p with returning := false }) m) else m
  | none => m

/-- Both directions have an installed SA: SECURE, then UP at once, or TIME on the member's time path (R374). A member that
boots over the link asks for its image (R404); it tells the master its shares and cores (DESIGN CHOICE, log 38). -/
def secureUp (c : Cfg) (port i : Nat) (m : Mach) : Mach :=
  let m := retime c (peerUpd port i (fun p => { p with state := 5, since := m.now, lastRx := m.now }) m)
  let m := peerUpd port i (fun p => { p with state := if p.timePath then 6 else 7 }) m
  let e := ((peerGet m port i).bind (·.engine)).getD 0xF
  let m := grantAll port e m
  let m := peerBack port i m
  let m := if e = 0 && roleOf c = 1 then shareChanged c port (coresChanged c (frameTo 0 8 (toLe 8 2 ++ toLe 24 c.tick.share) m)) else m
  if e = 0 && roleOf c = 1 && takesImage m then
    framePeer port i 0xA (toLe 4 m.casc.image.length ++ toLe 12 0) m else m

/-- An MKA PDU arrives (R376). -/
def mkaRx (port i : Nat) (both : Bool) (t : Nat) (c : Cfg) (m : Mach) : Mach :=
  let m := tickTo t m
  match peerGet m port i with
  | none => m
  | some p =>
    if !portOn c port || p.state < 4 || !shakes m then m
    else
      let m := peerUpd port i (fun p => { p with mkaAt := m.now }) m
      if p.state = 4 && both then secureUp c port i m else m

/-- The MKA life time of 6 s expires (R376, R388). -/
def mkaExpiry (port i t : Nat) (c : Cfg) (m : Mach) : Mach :=
  let m := tickTo t m
  if (peerGet m port i).any (fun p => 4 ≤ p.state && p.mkaAt + 6000000000 ≤ m.now) then peerLost c port i 2 m else m

/-- A rekey: a new association on the next number (R376). -/
def rekey (port i : Nat) (m : Mach) : Mach :=
  if (peerGet m port i).any (fun p => 5 ≤ p.state) then
    peerUpd port i (fun p => { p with an := (p.an + 1) % 4, pn := 0, sa := Config.draw m.draws }) (drawn m)
  else m

/-- A gPTP PDU on the time path (R374, R384). -/
def gptpRx (port i : Nat) (offset : Int) (delay t : Nat) (m : Mach) : Mach :=
  let m := tickTo t m
  peerBack port i <| peerUpd port i (fun p =>
    if !p.timePath || !shakes m then p
    else
      let os := (offset :: p.offsets).take 8
      { p with offsets := os, delay := delay
               state := if p.state = 6 && os.length = 8 && os.all (fun o => decide (-1000 ≤ o ∧ o ≤ 1000)) then 7 else p.state }) m

/-! ### Sending (R382, R383) -/

/-- Types that take the next SEQ. -/
def sequenced (type : Nat) : Bool := type = 1 || type = 2 || type = 4 || (7 ≤ type && type ≤ 0xA)

/-- Credits a DATA frame needs (R380). -/
def blocksFor (f : Frame) : Nat := cdiv f.data.length 256

/-- The send binding a DATA frame goes on. -/
def sendBind (m : Mach) (port e : Nat) (f : Frame) : Option (Nat × Bind) :=
  m.casc.binds.find? fun b => !b.2.recv && b.2.q == f.q && b.2.port == port && b.2.engine == e && b.2.remote == f.head.queue

/-- Send one frame of a peer's queue. -/
def frameOut (c : Cfg) (port i k : Nat) (m : Mach) : Mach :=
  match peerGet m port i with
  | none => m
  | some p =>
    match p.queue[k]? with
    | none => m
    | some f =>
      let e := p.engine.getD 0xF
      let inFlight := (p.unacked.filter fun g => g.head.type == 1 && g.q == f.q && g.head.queue == f.head.queue && g.head.route == f.head.route).length
      let pm := if f.head.type = 1 then
          ((((sendBind m port e f).bind fun b => mget b.2.counts f.head.route).getD 0) + inFlight + 1) % 65536 else f.head.postmark
      let sq := if sequenced f.head.type then p.nextSeq else (p.nextSeq + 65535) % 65536
      let h := { f.head with dst := e, src := selfEngine c m, seq := sq, ack := (p.expSeq + 65535) % 65536, postmark := pm }
      let f' := { f with head := h, sentAt := m.now, lastAt := m.now }
      let m := peerUpd port i (fun p => { p with
        queue := p.queue.eraseIdx k, pn := p.pn + 1
        nextSeq := if sequenced f.head.type then (p.nextSeq + 1) % 65536 else p.nextSeq
        unacked := if sequenced f.head.type then p.unacked ++ [f'] else p.unacked
        credits := if f.head.type = 1 then mset p.credits f.head.queue ((mget p.credits f.head.queue).getD 0 - blocksFor f) else p.credits }) m
      let m := { m with telem := { m.telem with linkTx := mset m.telem.linkTx port ((mget m.telem.linkTx port).getD 0 + f.data.length) } }
      send (.frame port p.mac (secWrap c port p (p.pn + 1) h f.data) h f.data) m

/-- Whether the frame at place `k` of a peer's queue may go now: data needs credits and keeps its queue's order, and
nothing issues after a power failure; a master sends none before its driver has attached; the retry buffer holds 512 KiB, and a frame that
will wait for its acknowledgement draws on the share of R12 (R371, R380, R382, R408). -/
def mayGo (c : Cfg) (m : Mach) (l : Link) (p : Peer) (k : Nat) (f : Frame) : Bool :=
  let held := ((l.peers.flatMap (·.unacked)).map fun g => g.data.length).foldl (· + ·) 0
  (!sequenced f.head.type || (p.unacked.length < 60 && held + f.data.length ≤ 524288 && decide (outsideCount m < 8192))) &&
    (f.head.type ≠ 1 || (m.power.fail == 0 && (roleOf c ≠ 2 || m.hp.epoch ≠ 0) && blocksFor f ≤ (mget p.credits f.head.queue).getD 0
      && !((p.queue.take k).any fun g => g.head.type == 1 && g.head.queue == f.head.queue)))

/-- A place in the order of R383. -/
def frameBefore (a b : Nat × Nat × Nat × Nat) : Bool :=
  a.1 < b.1 || (a.1 == b.1 && a.2.1 < b.2.1)

/-- Peers a port may send to. -/
def openPeers (l : Link) : List (Peer × Nat) := l.peers.zipIdx.filter fun p => 5 ≤ p.1.state

/-- Frames that may go now: class, deadline, peer, place. -/
def sendCands (c : Cfg) (m : Mach) (l : Link) : List (Nat × Nat × Nat × Nat) :=
  (openPeers l).flatMap fun p =>
    (p.1.queue.zipIdx.filter fun f => mayGo c m l p.1 f.2 f.1).map fun f => (f.1.cls, f.1.deadline, p.2, f.2)

/-- The first of some candidates in the order of R383. -/
def sendFirst (x : Nat × Nat × Nat × Nat) (r : List (Nat × Nat × Nat × Nat)) : Nat × Nat × Nat × Nat :=
  r.foldl (fun b y => if frameBefore y b then y else b) x

/-- A port sends its next frame, or IDLE frames when nothing is ready (R383, R361). -/
def frameSend (port t : Nat) (c : Cfg) (m : Mach) : Mach :=
  let m := tickTo t m
  match m.links[port]? with
  | none => m
  | some l =>
    if !portOn c port || !l.macUp || m.casc.noMaster then m
    else
      match sendCands c m l with
      | [] => (openPeers l).foldl (fun m p =>
          let h : KHead := { plainHead 0 (p.1.engine.getD 0xF) (selfEngine c m) 0 with
            seq := (p.1.nextSeq + 65535) % 65536, ack := (p.1.expSeq + 65535) % 65536 }
          send (.frame port p.1.mac (secWrap c port p.1 (p.1.pn + 1) h []) h []) (peerUpd port p.2 (fun p => { p with pn := p.pn + 1 }) m)) m
      | x :: r => frameOut c port (sendFirst x r).2.2.1 (sendFirst x r).2.2.2 m

/-- Resend every unacknowledged frame from ACK + 1, each under a new packet number and with the present ACK (R372, R376, R382). -/
def resend (c : Cfg) (port i : Nat) (m : Mach) : Mach :=
  match peerGet m port i with
  | none => m
  | some p =>
    let m := linkSet port (fun l => { l with resends := min (l.resends + p.unacked.length) (2 ^ 32 - 1) }) m
    let m := p.unacked.zipIdx.foldl (fun m f =>
      let h := { f.1.head with ack := (p.expSeq + 65535) % 65536 }
      send (.frame port p.mac (secWrap c port p (p.pn + 1 + f.2) h f.1.data) h f.1.data) m) m
    peerUpd port i (fun p => { p with
      pn := p.pn + p.unacked.length, unacked := p.unacked.map fun f => { f with lastAt := m.now, resends := f.resends + 1 } }) m

/-- 20 µs without acknowledgement of the oldest frame (R382). -/
def retransmit (port i t : Nat) (c : Cfg) (m : Mach) : Mach :=
  let m := tickTo t m
  if portOn c port && (peerGet m port i).any (fun p => 5 ≤ p.state && (p.unacked.head?).any fun f => f.lastAt + 20000 ≤ m.now)
  then resend c port i m else m

/-- LINK_TIMEOUT expires, or a frame has been resent 8 times (R388). -/
def linkTimeout (port i t : Nat) (c : Cfg) (m : Mach) : Mach :=
  let m := tickTo t m
  match m.links[port]?, peerGet m port i, c.links[port]? with
  | some l, some p, some s =>
    let lim := s.timeout * 1000
    if 5 ≤ p.state && ((!l.macUp && l.downAt + lim ≤ m.now) || p.lastRx + lim ≤ m.now
        || p.unacked.any fun f => f.sentAt + lim ≤ m.now || 8 ≤ f.resends)
    then peerLost c port i (if l.macUp then 2 else 1) m else m
  | _, _, _ => m

/-! ### Receiving (R372, R382) -/

/-- Frames up to ACK are accepted: their credits return, and the sending routes' counts rise (R183, R379). -/
def acked (port i ack : Nat) (m : Mach) : Mach :=
  match peerGet m port i with
  | none => m
  | some p =>
    let old (f : Frame) : Bool := subMod ack f.head.seq 65536 < 32768
    let e := p.engine.getD 0xF
    let m := (p.unacked.filter old).foldl (fun m f => frameTaken f m) m
    let m := (p.unacked.filter fun f => old f && f.head.type == 1).foldl (fun m f =>
      match sendBind m port e f with
      | some b => { m with casc := { m.casc with binds := mupd m.casc.binds b.1 fun b =>
          { b with counts := mset b.counts f.head.route (((mget b.counts f.head.route).getD 0 + 1) % 65536) } } }
      | none => m) m
    pump (peerUpd port i (fun p => { p with unacked := p.unacked.filter fun f => !old f }) m)

/-- A NAK answers the first frame after a gap. -/
def gapSeen (port i : Nat) (m : Mach) : Mach :=
  if (peerGet m port i).any (·.gap) then m else framePeer port i 3 [] (peerUpd port i (fun p => { p with gap := true }) m)

/-- A controlled frame arrives: header checks, acknowledgement, sequence; `f` acts on a frame accepted in order. -/
def frameRx (port i type : Nat) (h : KHead) (lenOk : Bool) (t : Nat) (f : Peer → Mach → Mach) (c : Cfg) (m : Mach) : Mach :=
  let m := tickTo t m
  match m.links[port]?, peerGet m port i with
  | some l, some p =>
    if !portOn c port || !l.macUp then discard port m
    else if h.plain || p.state < 5 then discardU port m
    else if h.version ≠ 1 || h.type ≠ type || h.dst ≠ selfEngine c m || some h.src ≠ p.engine || h.rsv ≠ 0 || !lenOk
        || (type ≠ 1 && (h.route ≠ 0 || h.queue ≠ 0 || h.postmark ≠ 0)) || 2 ^ 20 ≤ h.queue then discard port m
    else
      let m := peerUpd port i (fun p => { p with lastRx := m.now }) m
      let m := { m with telem := { m.telem with linkRx := mset m.telem.linkRx port ((mget m.telem.linkRx port).getD 0 + h.len) } }
      let m := acked port i h.ack m
      if !sequenced type then
        let m := if h.seq = (p.expSeq + 65535) % 65536 then m else gapSeen port i m
        f p m
      else if h.seq = p.expSeq then
        f p (peerUpd port i (fun p => { p with expSeq := (p.expSeq + 1) % 65536, gap := false }) m)
      else if subMod h.seq p.expSeq 65536 < 32768 then gapSeen port i m
      else m
  | _, _ => m

/-- REFUSE with a reason (R379). -/
def refuseTo (port i q reason : Nat) (m : Mach) : Mach := framePeer port i 4 (toLe 8 (q + reason * 2 ^ 32)) m

/-- A DATA frame is parked, or refused; the credits of one that a binding received and that is discarded return (R366, R379, R380). -/
def dataRx (port i : Nat) (h : KHead) (data : List Byte) (t : Nat) (c : Cfg) (m : Mach) : Mach :=
  frameRx port i 1 h (h.len == data.length && h.len ≤ 8192 && 0x80 ≤ h.route && h.route ≤ 0xBF) t (fun p m =>
    let bind := m.casc.binds.find? fun b => b.2.recv && b.2.q == h.queue && b.2.port == port && some b.2.engine == p.engine
    match bind, qGet m h.queue with
    | some b, some x =>
      let n := cdiv data.length 256
      if x.ctx.state = qsKilled then creditBack b.2 n (refuseTo port i h.queue 2 m)
      else if (domE m x.ctx.dom).state = 2 then creditBack b.2 n (refuseTo port i h.queue 3 m)
      else
        let key := 256 * h.queue + h.route
        let m := { m with casc := { m.casc with
          binds := mupd m.casc.binds b.1 fun b => { b with used := b.used + n }
          parked := mset m.casc.parked key ((mget m.casc.parked key).getD [] ++ [⟨b.1, 0, data⟩]) } }
        qUpd h.queue (fun y => { y with routes := mset y.routes h.route (((mget y.routes h.route).getD 0 + 1) % 65536) }) m
    | _, _ => refuseTo port i h.queue 1 m) c m

/-- A CREDIT frame (R380). -/
def creditRx (port i : Nat) (h : KHead) (entries : List (Nat × Nat)) (t : Nat) (c : Cfg) (m : Mach) : Mach :=
  frameRx port i 2 h (h.len == 8 * entries.length && h.len ≤ 8192 && entries.all fun e => e.1 < 2 ^ 20 && e.2 < 2 ^ 16) t (fun _ m =>
    peerUpd port i (fun p => { p with credits := entries.foldl (fun cs e => mset cs e.1 ((mget cs e.1).getD 0 + e.2)) p.credits }) m) c m

/-- A NAK (R382). -/
def nakRx (port i : Nat) (h : KHead) (t : Nat) (c : Cfg) (m : Mach) : Mach :=
  frameRx port i 3 h (h.len == 0) t (fun _ m => resend c port i m) c m

/-- The layers that sent to a refused queue: those whose frames to it were not acknowledged before the REFUSE, or, with none, the running
layers of the queues bound to it (DEDUCED, log 36). -/
def refusedLayers (m : Mach) (port q : Nat) (p : Peer) : List (Nat × Nat) :=
  let fs := (((p.unacked ++ p.queue).filter fun f => f.head.type == 1 && f.head.queue == q).map fun f => (f.q, f.desc)).eraseDups
  if fs ≠ [] then fs
  else
    let qs := (m.casc.binds.filter fun b => !b.2.recv && b.2.port == port && some b.2.engine == p.engine && b.2.remote == q).map (·.2.q)
    qs.flatMap fun q => ((qGet m q).map fun y => (y.descs.filter fun d => d.2.phase == 2 && d.2.running != 0).map fun d => (q, d.1)).getD []

/-- A frame the receiver refused was acknowledged and not accepted: its route's count does not rise (R379). -/
def uncount (port q ack : Nat) (p : Peer) (m : Mach) : Mach :=
  (p.unacked.filter fun f => subMod ack f.head.seq 65536 < 32768 && f.head.type == 1 && f.head.queue == q).foldl (fun m f =>
    match sendBind m port (p.engine.getD 0xF) f with
    | some b => { m with casc := { m.casc with binds := mupd m.casc.binds b.1 fun b =>
        { b with counts := mset b.counts f.head.route (((mget b.counts f.head.route).getD 0 + 65535) % 65536) } } }
    | none => m) m

/-- A layer's cross-cascade RESHARD ends with REMOTE_FAULT (R222, R379). -/
def refusedReshard (m : Mach) (x : Nat × Nat) (reason : Nat) (o : SoOp) : SoOp :=
  if o.q = x.1 && o.desc = x.2 && o.status = stOk && (descGet m o.q o.desc).any (fun x => x.type == 5 && leAt x.bytes 0xA 1 == 1) then
    { o with status := stRemoteFault, detail := reason } else o

/-- A REFUSE frame: the sending layers complete with REMOTE_FAULT (R379). -/
def refuseRx (port i : Nat) (h : KHead) (entries : List (Nat × Nat)) (t : Nat) (c : Cfg) (m : Mach) : Mach :=
  frameRx port i 4 h (h.len == 8 * entries.length && h.len ≤ 8192 && entries.all fun e => e.1 < 2 ^ 20 && e.2 < 2 ^ 8) t (fun p m =>
    entries.foldl (fun m e =>
      (refusedLayers m port e.1 p).foldl (fun m x =>
        let m := stopLayer x.1 x.2 stRemoteFault e.2 false m
        { m with depot := { m.depot with ops := m.depot.ops.map (refusedReshard m x e.2) } }) (uncount port e.1 h.ack p m)) m) c m

/-- An IDLE frame carries acknowledgements only (R372). -/
def idleRx (port i : Nat) (h : KHead) (t : Nat) (c : Cfg) (m : Mach) : Mach :=
  frameRx port i 0 h (h.len == 0) t (fun _ m => m) c m

/-- Parked bytes of a queue's route, in arrival order (R381). -/
def parkedBytes (m : Mach) (q route : Nat) : List Byte := ((mget m.casc.parked (256 * q + route)).getD []).flatMap (·.data)

/-- Take `n` bytes from parked frames: what is left, and the blocks freed by binding. -/
def takeParked : Nat → List Parked → List Parked × List (Nat × Nat)
  | _, [] => ([], [])
  | n, f :: r =>
    if n = 0 then (f :: r, [])
    else if f.data.length ≤ n then
      let x := takeParked (n - f.data.length) r
      (x.1, (f.bind, cdiv (f.off + f.data.length) 256) :: x.2)
    else ({ f with off := (f.off + n) % 256, data := f.data.drop n } :: r, [(f.bind, (f.off + n) / 256)])

/-- Blocks of a binding are freed and return as credits (R380). -/
def freeBlocks (i n : Nat) (m : Mach) : Mach :=
  match mget m.casc.binds i with
  | some b => creditBack b n { m with casc := { m.casc with binds := mset m.casc.binds i { b with used := b.used - n } } }
  | none => m

/-- A stream has read `n` bytes of a route (R381). -/
def unpark (q route n : Nat) (m : Mach) : Mach :=
  let key := 256 * q + route
  let x := takeParked n ((mget m.casc.parked key).getD [])
  let m := { m with casc := { m.casc with parked := if x.1 = [] then mdel m.casc.parked key else mset m.casc.parked key x.1 } }
  x.2.foldl (fun m b => freeBlocks b.1 b.2 m) m

def execLinkMacUp (port t : Nat) (s : State) : Host.Outcome State Fault Refusal := s.runM (macUp port t)
def execLinkMacDown (port t : Nat) (s : State) : Host.Outcome State Fault Refusal := s.runM fun _ => macDown port t
def execHelloBroadcast (port t : Nat) (s : State) : Host.Outcome State Fault Refusal := s.runM (helloBroadcast port t)
def execHelloFrame (port : Nat) (hd : KHead) (h : Hello) (t : Nat) (s : State) : Host.Outcome State Fault Refusal :=
  s.runM (helloRx port hd h t)
def execAttestFrame (port peer : Nat) (hd : KHead) (a : Attest) (t : Nat) (s : State) : Host.Outcome State Fault Refusal :=
  s.runM (attestRx port peer hd a t)
def execAttestRetry (port peer t : Nat) (s : State) : Host.Outcome State Fault Refusal := s.runM (attestRetry port peer t)
def execMkaPdu (port peer : Nat) (both : Bool) (t : Nat) (s : State) : Host.Outcome State Fault Refusal :=
  s.runM (mkaRx port peer both t)
def execMkaLifeExpiry (port peer t : Nat) (s : State) : Host.Outcome State Fault Refusal := s.runM (mkaExpiry port peer t)
def execSakRekey (port peer : Nat) (s : State) : Host.Outcome State Fault Refusal := s.runM fun _ => rekey port peer
def execGptpPdu (port peer : Nat) (offset : Int) (delay t : Nat) (s : State) : Host.Outcome State Fault Refusal :=
  s.runM fun _ => gptpRx port peer offset delay t
def execFrameSend (port t : Nat) (s : State) : Host.Outcome State Fault Refusal := s.runM (frameSend port t)
def execDataFrame (port peer : Nat) (h : KHead) (data : List Byte) (t : Nat) (s : State) : Host.Outcome State Fault Refusal :=
  s.runM (dataRx port peer h data t)
def execCreditFrame (port peer : Nat) (h : KHead) (entries : List (Nat × Nat)) (t : Nat) (s : State) : Host.Outcome State Fault Refusal :=
  s.runM (creditRx port peer h entries t)
def execNakFrame (port peer : Nat) (h : KHead) (t : Nat) (s : State) : Host.Outcome State Fault Refusal := s.runM (nakRx port peer h t)
def execRefuseFrame (port peer : Nat) (h : KHead) (entries : List (Nat × Nat)) (t : Nat) (s : State) : Host.Outcome State Fault Refusal :=
  s.runM (refuseRx port peer h entries t)
def execIdleFrame (port peer : Nat) (h : KHead) (t : Nat) (s : State) : Host.Outcome State Fault Refusal := s.runM (idleRx port peer h t)
def execRetransmitTimer (port peer t : Nat) (s : State) : Host.Outcome State Fault Refusal := s.runM (retransmit port peer t)
def execLinkTimeoutExpiry (port peer t : Nat) (s : State) : Host.Outcome State Fault Refusal := s.runM (linkTimeout port peer t)
def execNoMasterExpiry (t : Nat) (s : State) : Host.Outcome State Fault Refusal := s.runM fun _ => noMasterExpiry t

end Sys2Proof.Machine
end

