-- ==== Sys2Proof/Machine/Registers.lean ====
section
/-! DEFINITION. The setup aperture BAR0 (20): reads, writes, locks, the table checks, tick settings, ring heads. -/

namespace Sys2Proof.Machine

/-! ### Reads (R448, R451 to R464) -/

/-- A bit from a Bool. -/
def b2n (b : Bool) : Nat := if b then 1 else 0

/-- TICK_CFG's word (R458). -/
def tickWord (t : TickCfg) : Nat := t.share <<< 45 + t.src <<< 43 + t.quiet <<< 22 + t.period

/-- EVT_IRQ or DL_IRQ's word (R459). -/
def irqWord (i : IrqCfg) : Nat := i.modUs <<< 16 + b2n i.en <<< 15 + i.vector

/-- Assigned granules, and sealed ones (R460). -/
def granCount (m : Mach) (sealedOnly : Bool) : Nat := (m.mem.granules.filter fun p => !sealedOnly || p.2.sealed).length

/-- A register of the per-core block of core k (R464). -/
def coreReg (d : Dev) (k off : Nat) : Nat :=
  match d.m.cores[k]? with
  | none => 0
  | some c =>
    match off with
    | 0x000 => c.regs.dom <<< 16 + c.regs.state
    | 0x008 => b2n (d.cfg.noGate.contains k)
    | 0x010 => c.regs.issued
    | 0x018 => c.regs.scrubs
    | 0x020 => c.regs.busy
    | 0x028 => c.regs.icacheMisses
    | 0x030 => c.regs.tlbMisses
    | 0x038 => c.regs.kills
    | _ => 0

/-- A register of link block i (R462). -/
def linkReg (d : Dev) (i off : Nat) : Nat :=
  match d.cfg.links[i]?, d.m.links[i]? with
  | some l, some s =>
    match off with
    | 0x000 => (if i = 0 then l.role <<< 8 else 0) + b2n l.enable
    | 0x008 => l.mac
    | 0x010 => l.pcp <<< 28 + l.vid <<< 16 + l.etype
    | 0x018 => l.timeout
    | 0x020 => l.rtShare
    | 0x028 => (if i = 0 then b2n d.m.casc.noMaster <<< 10 else 0) + b2n (s.peers.any (·.timePath)) <<< 9
        + (s.peers.filter fun p => p.state == 7).length <<< 4 + b2n s.macUp
    | 0x030 => s.discards
    | 0x038 => s.unctrl
    | 0x040 => s.icvFails
    | 0x048 => s.resends
    | _ =>
      if 0x100 ≤ off && off < 0x180 then
        match s.peers[(off - 0x100) / 8]? with
        | some p => p.mac <<< 16 + (p.engine.getD 0xF) <<< 4 + p.state
        | none => 0
      else 0
  | _, _ => 0

/-- The 64-bit value of the register at an 8-byte-aligned offset (R448 to R464). -/
def regVal (d : Dev) (off : Nat) : Nat :=
  let c := d.cfg
  let m := d.m
  match off with
  | 0x000 => c.strap.cores <<< 32 + 0x0320 <<< 8 + c.strap.stepping
  | 0x008 => (if m.boot.state = bsFailed then m.boot.reason <<< 8 else 0) + m.boot.state
  | 0x010 => c.fwAddr
  | 0x018 => c.fwLen
  | 0x028 => m.rings.cmdTail
  | 0x030 => m.rings.cmdHead
  | 0x038 => m.rings.evtTail
  | 0x040 => m.rings.evtHead
  | 0x048 => m.rings.lost
  | 0x050 => m.lockErr <<< 16 + b2n m.lockBusy <<< 8 + b2n c.lockRole <<< 2 + b2n c.lockProt <<< 1 + b2n c.lockTables
  | 0x058 => m.boot.minEpoch <<< 32 + m.boot.epoch
  | 0x060 => m.boot.version
  | 0x068 => m.badOff <<< 32 + b2n m.bad
  | 0x1008 => b2n c.gateIdle <<< 8 + c.cap
  | 0x1010 => b2n (decide (m.power.duty < 16)) <<< 17 + b2n m.power.trimHold <<< 16 + m.power.duty <<< 8
      + (if m.power.trimHold then 10 else c.cap)
  | 0x1018 => m.power.pfLatch
  | 0x2000 => c.tb.ctx
  | 0x2008 => c.tb.cnt
  | 0x2010 => c.tb.dom
  | 0x2018 => c.tb.feed
  | 0x2020 => c.tb.pool
  | 0x2028 => c.tb.dl
  | 0x2030 => c.tb.dlLog2
  | 0x2038 => m.dlTail
  | 0x2040 => m.dlHead
  | 0x2048 => m.dlOverflow
  | 0x2050 => c.tb.pr
  | 0x2058 => c.tb.prLog2
  | 0x2060 => m.prTail
  | 0x2068 => m.prHead
  | 0x2070 => m.prOverflow
  | 0x2078 => c.tb.partT <<< 8 + c.tb.partH
  | 0x3000 => tickWord c.tick
  | 0x3008 => c.ptmEpoch
  | 0x3010 => m.tick.count
  | 0x3018 => b2n m.tick.sourceLost <<< 2 + b2n m.tick.partialTick <<< 1 + b2n m.tick.refused
  | 0x3020 => (m.ledger.filter fun p => !p.2.dropped).length
  | 0x3028 => m.tick.demand
  | 0x3030 => m.tick.reserved
  | 0x4000 => irqWord c.evtIrq
  | 0x4008 => irqWord c.dlIrq
  | 0x5000 => c.protG
  | 0x5008 => leNat ((c.mpShare.take 8).map (BitVec.ofNat 8))
  | 0x5010 => leNat ((c.mpShare.drop 8).map (BitVec.ofNat 8))
  | 0x5018 => (m.ports.failed.foldl (fun a p => a + 2 ^ p) 0) <<< 16 + m.ports.ready
  | 0x5020 => granCount m true <<< 32 + granCount m false
  | 0x6000 => c.hp.outDepth <<< 16 + c.hp.outRate
  | 0x6008 => c.hp.inDepth <<< 16 + c.hp.inRate
  | 0x6010 => c.hp.lossTimeout
  | 0x6018 => c.hp.hbLimit
  | 0x6028 => m.hp.orphan <<< 8 + b2n m.hp.l0 <<< 6 + c.strap.carrier <<< 5 + m.hp.cause <<< 2 + b2n m.hp.lost <<< 1
      + b2n m.hp.attached
  | 0x6030 => m.hp.epoch
  | 0x6038 => m.hp.placeRejects
  | 0x8008 => b2n m.st.mbistPass <<< 2 + m.st.mbistState
  | 0xB000 => m.store.slotBooted <<< 16 + m.store.sizeLog2 <<< 8 + b2n m.store.busy.isSome <<< 1 + b2n m.store.present
  | 0xB008 => m.store.writes
  | 0xB010 => m.store.errors
  | _ =>
    if 0x5100 ≤ off && off < 0x5180 then (mget m.ports.err ((off - 0x5100) / 8)).getD 0
    else if 0x7000 ≤ off && off < 0x8000 then linkReg d ((off - 0x7000) / 0x400) ((off - 0x7000) % 0x400)
    else if 0x8100 ≤ off && off < 0x8520 then bnum m.st.record (off - 0x8100) 8
    else if 0x9000 ≤ off && off < 0xA000 then leAt m.st.trim (off - 0x9000) 8
    else if 0xA000 ≤ off && off < 0xA240 then bnum m.telem.block (off - 0xA000) 8
    else if 0x10000 ≤ off && off < 0x18000 then coreReg d ((off - 0x10000) / 0x400) ((off - 0x10000) % 0x400)
    else if 0x20000 ≤ off && off < 0x28000 then
      let w := (off - 0x20000) / 4
      (mget m.irq.table w).getD 0 + (mget m.irq.table (w + 1)).getD 0 <<< 32
    else if 0x28000 ≤ off && off < 0x28100 then
      (m.irq.pba.filter fun v => v / 64 = (off - 0x28000) / 8).foldl (fun a v => a + 2 ^ (v % 64)) 0
    else 0

/-- A BAR0 read of 4 or 8 aligned bytes; other accesses read 0 (R325). -/
def readBar0 (d : Dev) (off width : Nat) : Nat :=
  if width = 8 && off % 8 = 0 then regVal d off
  else if width = 4 && off % 4 = 0 then (regVal d (off - off % 8) >>> (8 * (off % 8))) % 2 ^ 32
  else 0

/-! ### Ring heads and tails (R393, R457) -/

/-- A head write of a ring of 2^n entries: neither backwards nor past the tail (R457). -/
def headOk (n head tail v : Nat) : Bool :=
  decide (v < 2 ^ (n + 1)) && subMod v head (2 ^ (n + 1)) ≤ subMod tail head (2 ^ (n + 1))

/-- CMD_TAIL (R393): neither backwards nor more than 4,096 entries published. -/
def cmdTailWrite (v : Nat) (m : Mach) : Mach :=
  let v := v % 8192
  let new := subMod v m.rings.cmdHead 8192
  if subMod m.rings.cmdTail m.rings.cmdHead 8192 ≤ new && new ≤ 4096 then
    { m with rings := { m.rings with cmdTail := v } }
  else badWrite 0x028 m

/-- EVT_HEAD (R393); freed entries may let EVENTS_LOST be posted (R396). -/
def evtHeadWrite (c : Cfg) (v : Nat) (m : Mach) : Mach :=
  let v := v % 8192
  if headOk 12 m.rings.evtHead m.rings.evtTail v then postLost c { m with rings := { m.rings with evtHead := v } }
  else badWrite 0x040 m

/-- DL_HEAD (R457). -/
def dlHeadWrite (c : Cfg) (v : Nat) (m : Mach) : Mach :=
  if headOk c.tb.dlLog2 m.dlHead m.dlTail v then { m with dlHead := v } else badWrite 0x2040 m

/-- PR_HEAD (R457). -/
def prHeadWrite (c : Cfg) (v : Nat) (m : Mach) : Mach :=
  if headOk c.tb.prLog2 m.prHead m.prTail v then { m with prHead := v } else badWrite 0x2068 m

/-! ### Locks (R450, R455) -/

/-- Write of 1 to LOCK.TABLES: the checks begin (R455). -/
def lockTables (d : Dev) : Dev :=
  if d.cfg.lockTables then d
  else if d.m.lockBusy then { d with m := badWrite 0x050 d.m }
  else { d with m := { d.m with lockBusy := true } }

/-- Write of 1 to LOCK.PROTECTION (R450). -/
def lockProtection (d : Dev) : Dev :=
  if d.cfg.lockProt then d
  else if protOk d.cfg.protG then { d with cfg := { d.cfg with lockProt := true } }
  else { d with m := badWrite 0x050 d.m }

/-- ROLE 3 acts as 0 and posts LINK_CONFIG when the role locks (R369). -/
def roleLocked (d : Dev) : Dev :=
  let d' := { d with cfg := { d.cfg with lockRole := true } }
  if !d.cfg.lockRole && (d.cfg.links[0]?).any (·.role == 3) then { d' with m := post d.cfg evLinkConfig [0] d'.m } else d'

/-- Write of 1 to LOCK.ROLE (R450). -/
def lockRole (d : Dev) : Dev := roleLocked d

/-- The structures of the table checks in order: base, size, alignment, sealed (R455). -/
def tableSpans (t : TableCfg) : List (Nat × Nat × Nat × Bool) :=
  [(t.ctx, 64 * 2 ^ 20, 32 * 2 ^ 20, true), (t.cnt, 16 * 2 ^ 20, 2 ^ 20, true), (t.dom, 2 ^ 20, 2 ^ 20, true),
   (t.feed, 8192, 4096, false), (t.pool, 256 * 1024, 4096, false),
   (t.dl, 64 * 2 ^ t.dlLog2, 4096, false), (t.pr, 64 * 2 ^ t.prLog2, 4096, false)]

/-- Two spans overlap. -/
def overlap (a n b k : Nat) : Bool := decide (a < b + k ∧ b < a + n)

/-- One structure's own check (R455). -/
def spanOk (c : Cfg) (m : Mach) (s : Nat × Nat × Nat × Bool) : Bool :=
  let (a, n, al, sealedT) := s
  a % al == 0 && a + n ≤ protBytes c &&
    (List.range (granOf (a + n - 1) + 1 - granOf a)).all fun i => mget m.mem.granules (granOf a + i) == some ⟨0, sealedT⟩

/-- LOCK.ERR of the checks: 0 when all pass (R451, R455). -/
def tablesErr (c : Cfg) (m : Mach) : Nat :=
  let ss := tableSpans c.tb
  let bad (i : Nat) (s : Nat × Nat × Nat × Bool) : Bool :=
    !spanOk c m s || (i == 5 && (c.tb.dlLog2 < 6 || 16 < c.tb.dlLog2)) || (i == 6 && (c.tb.prLog2 < 10 || 20 < c.tb.prLog2))
  match ss.zipIdx.find? fun p => bad p.2 p.1 with
  | some p => p.2 + 1
  | none =>
    let pairs := ss.zipIdx.any fun p => ss.zipIdx.any fun r => p.2 < r.2 && overlap p.1.1 p.1.2.1 r.1.1 r.1.2.1
    let fixed := ss.any fun s => overlap s.1 s.2.1 0 (2 ^ 25) || overlap s.1 s.2.1 cmdRing 0x80000
    if pairs || fixed then 8 else 0

/-- The tables and rings the lock takes over, base and size (R455). -/
def zeroedSpans (t : TableCfg) : List (Nat × Nat) :=
  [(t.ctx, 64 * 2 ^ 20), (t.cnt, 16 * 2 ^ 20), (t.dom, 2 ^ 20), (t.dl, 64 * 2 ^ t.dlLog2), (t.pr, 64 * 2 ^ t.prLog2)]

/-- Zero the tables and rings that the lock takes over (R455). -/
def zeroTables (t : TableCfg) (cells : Map Byte) : Map Byte := (zeroedSpans t).foldl (fun cs s => bzero cs s.1 s.2) cells

/-- The checks end (R455). -/
def tablesCheckDone (d : Dev) : Dev :=
  if !d.m.lockBusy then d else
    let e := tablesErr d.cfg d.m
    if e ≠ 0 then { d with m := { d.m with lockBusy := false, lockErr := e } }
    else
      { cfg := { d.cfg with lockTables := true }
        m := { d.m with
          lockBusy := false, lockErr := 0
          mem := { d.m.mem with
            cells := bwrite (zeroTables d.cfg.tb d.m.mem.cells) d.cfg.tb.dom (domBytes { (domE d.m 0) with state := 1, root := d.m.boot.xroot })
            bad := mfilter (fun l _ => !(zeroedSpans d.cfg.tb).any fun s => s.1 ≤ 64 * l && 64 * l < s.1 + s.2) d.m.mem.bad }
          doms := [(0, { (domE d.m 0) with state := 1, root := d.m.boot.xroot })] } }

/-! ### Tick settings (R279 to R281, R458) -/

/-- The four settings of a TICK_CFG word. -/
def tickOf (v : Nat) : TickCfg := ⟨bits v 0 22, bits v 22 21, bits v 43 2, bits v 45 7⟩

/-- Ranges of the tick settings (R279). -/
def tickOk (t : TickCfg) : Bool :=
  250 ≤ t.period && t.period ≤ 4000000 && 5 ≤ t.quiet && t.quiet ≤ t.period / 2 && t.src ≤ 3 && t.share ≤ 64

/-- The first instant T0 + k·P at or after a time, in ns (R281). -/
def firstAt (t0 p after : Nat) : Nat := if after ≤ t0 then t0 else t0 + cdiv (after - t0) p * p

/-- A tick reconfiguration at the present time (R280, R281): a partial tick begins. -/
def reconfigure (t : TickCfg) (t0 : Nat) (m : Mach) : Mach :=
  let nb : Option Nat :=
    if t.src = 0 then some (m.now + t.period * 1000)
    else if t.src = 1 then none
    else some (firstAt t0 (t.period * 1000) (m.now + t.quiet * 1000))
  { m with
    ledger := mmap (fun _ e => { e with running := false, balance := 0, prepared := none }) m.ledger
    tick := { m.tick with cfg := t, partialTick := true, base := m.now, nextB := nb, sourceLost := false
                          limit := (nb.map fun b => b - t.quiet * 1000).getD m.now
                          inMargin := false, reloaded := false, t0 := t0 } }

/-- TICK_CFG (R458): whole or not at all. -/
def tickCfgWrite (width v t : Nat) (d : Dev) : Dev :=
  let m := tickTo t d.m
  let n := tickOf v
  let memberTick := (d.cfg.links[0]?).any (·.role == 1) && d.cfg.tick.src == 2
    && (n.period ≠ d.cfg.tick.period || n.quiet ≠ d.cfg.tick.quiet)
  if width ≠ 8 then { d with m := badWrite 0x3000 m }
  else if !tickOk n || memberTick then
    { d with m := badWrite 0x3000 { m with tick := { m.tick with refused := true } } }
  else
    let change := n.src ≠ d.cfg.tick.src || n.period ≠ d.cfg.tick.period || n.quiet ≠ d.cfg.tick.quiet
    let m := if n.share ≠ d.cfg.tick.share && roleOf d.cfg = 1 then
      frameTo 0 8 (toLe 8 2 ++ toLe 24 n.share) m else m
    { cfg := { d.cfg with tick := n }
      m := if change then retime d.cfg <| reconfigure n (if n.src = 3 then d.cfg.ptmEpoch else if n.src = 2 then m.casc.tickT0.getD m.tick.t0 else m.tick.t0) m else m }

/-! ### Writes (R448, R449) -/

/-- Host-port rates and depths (R336, R461). -/
def hpOk (rate depth : Nat) : Bool := 1 ≤ rate && rate ≤ 128 && 12 ≤ depth && depth ≤ 20

/-- A write of an RWL field of the table bases: ignored and recorded while locked or while a check runs, recorded when out
of range (R449, R454, R467). -/
def tableWrite (off : Nat) (ok : Bool) (f : TableCfg → TableCfg) (d : Dev) : Dev :=
  if d.cfg.lockTables || d.m.lockBusy || !ok then { d with m := badWrite off d.m }
  else { d with cfg := { d.cfg with tb := f d.cfg.tb } }

/-- A write that sets a setting when it is in range, and is recorded otherwise (R449). -/
def setWrite (off : Nat) (ok : Bool) (f : Cfg → Cfg) (d : Dev) : Dev :=
  if ok then { d with cfg := f d.cfg } else { d with m := badWrite off d.m }

/-- Change a link block's settings. -/
def linkUpd (i : Nat) (f : LinkCfg → LinkCfg) (c : Cfg) : Cfg := { c with links := lupd c.links i f }

/-- ENABLE set (R369, R374, R450). -/
def linkEnable (i : Nat) (d : Dev) : Dev :=
  if (d.cfg.links[i]?).any (!·.enable) then
    let d := roleLocked d
    let c := linkUpd i (fun l => { l with enable := true }) d.cfg
    { cfg := c, m := portUp c i d.m }
  else d

/-- ENABLE cleared: every peer of the port is lost (R462, R389). -/
def linkDisable (i : Nat) (d : Dev) : Dev :=
  if (d.cfg.links[i]?).any (·.enable) then
    let c := linkUpd i (fun l => { l with enable := false }) d.cfg
    { cfg := c, m := portDown c i d.m }
  else d

/-- ETYPE values (R369). -/
def etypeOk (e : Nat) : Bool := 0x600 ≤ e && e ≠ 0x88E5 && e ≠ 0x888E && e ≠ 0x88F7

/-- A write of one of the link registers (R462). DESIGN CHOICE (log 48): a MAC address's first octet is its highest byte, so bit 40 tells a group
address (R369: unicast). -/
def linkWrite (i off full v : Nat) (d : Dev) : Dev :=
  let en := (d.cfg.links[i]?).any (·.enable)
  match off with
  | 0x000 =>
    let role := bits v 8 2
    let old := ((d.cfg.links[i]?).map (·.role)).getD 0
    let d := if i ≠ 0 || role = old then d
             else if d.cfg.lockRole then { d with m := badWrite full d.m }
             else { d with cfg := linkUpd 0 (fun l => { l with role := role }) d.cfg }
    if v % 2 = 1 then linkEnable i d else linkDisable i d
  | 0x008 => setWrite full (!en && bits v 40 1 = 0) (linkUpd i fun l => { l with mac := v % 2 ^ 48 }) d
  | 0x010 => setWrite full (!en && bits v 16 12 ≠ 4095 && etypeOk (v % 2 ^ 16))
      (linkUpd i fun l => { l with pcp := bits v 28 3, vid := bits v 16 12, etype := v % 2 ^ 16 }) d
  | 0x018 => setWrite full (100 ≤ bits v 0 17 && bits v 0 17 ≤ 100000) (linkUpd i fun l => { l with timeout := bits v 0 17 }) d
  | 0x020 =>
    if bits v 0 7 ≤ 64 then
      let c := linkUpd i (fun l => { l with rtShare := bits v 0 7 }) d.cfg
      { cfg := c, m := shareChanged c i d.m }
    else { d with m := badWrite full d.m }
  | _ => d

/-- A byte list of MP_SHARE (R460). -/
def shareBytes (v : Nat) : List Nat := (List.range 8).map fun i => bits v (8 * i) 5
def sharesOk (v : Nat) : Bool := (List.range 8).all fun i => 1 ≤ bits v (8 * i) 8 && bits v (8 * i) 8 ≤ 16

/-- HEARTBEAT (R461): restarts the limit's count while attached. -/
def heartbeat (t : Nat) (m : Mach) : Mach :=
  let m := tickTo t m
  if m.hp.attached && !m.hp.lost then { m with hp := { m.hp with hbStart := m.now } } else m

/-- A block memory test begins (R417). -/
def mbistGo (v : Nat) (m : Mach) : Mach :=
  if v % 2 = 1 && (m.boot.state == bsWaitLoad || m.boot.state == bsFailed) && m.st.mbistState ≠ 1 then
    { m with st := { m.st with mbistState := 1 } } else m

/-- An MSI-X table write: a vector unmasked with its bit pending sends its message (R324, R270). PRESUMED (log 48): the word at offset 12 of an
entry is its vector control, bit 0 its mask, and bits 31 to 1 read back as written. -/
def msixWrite (word v : Nat) (m : Mach) : Mach :=
  let m := { m with irq := { m.irq with table := if v % 2 ^ 32 = 0 then mdel m.irq.table word else mset m.irq.table word (v % 2 ^ 32) } }
  let vec := word / 4
  if word % 4 = 3 && v % 2 = 0 && m.irq.pba.contains vec && vecOpen m vec then
    send (.msix vec) { m with irq := { m.irq with pba := m.irq.pba.erase vec } }
  else m

/-- CORE_CTRL.NO_GATE (R464): the setting before the first change of the core's present period stays with the core, since a change takes
effect at its next idle period. -/
def noGateWrite (k : Nat) (v : Bool) (d : Dev) : Dev :=
  let was := d.cfg.noGate.contains k
  let keep (r : CoreRegs) : CoreRegs := if r.gateWas.any (fun g => r.since ≤ g.1) then r else { r with gateWas := some (d.m.now, was) }
  { cfg := { d.cfg with noGate := if v then (if was then d.cfg.noGate else k :: d.cfg.noGate) else d.cfg.noGate.erase k }
    m := { d.m with cores := lupd d.m.cores k fun x => { x with regs := keep x.regs } } }

/-- A write whose full 64-bit register value is `v`; `mask` marks the halves written. -/
def write8 (off v : Nat) (lo hi : Bool) (t : Nat) (d : Dev) : Dev :=
  let m := d.m
  match off with
  | 0x010 => { d with cfg := { d.cfg with fwAddr := bits v 12 40 * 4096 } }
  | 0x018 => { d with cfg := { d.cfg with fwLen := v % 2 ^ 32 } }
  | 0x020 => if lo then fwGo v d else d
  | 0x028 => if lo then { d with m := cmdTailWrite v m } else d
  | 0x040 => if lo then { d with m := evtHeadWrite d.cfg v m } else d
  | 0x050 =>
    if !lo then d else
      let d := if bits v 1 1 = 1 then lockProtection d
               else if d.cfg.lockProt then { d with m := badWrite 0x050 d.m } else d
      let d := if bits v 2 1 = 1 then lockRole d
               else if d.cfg.lockRole then { d with m := badWrite 0x050 d.m } else d
      if v % 2 = 1 then lockTables d
      else if d.cfg.lockTables then { d with m := badWrite 0x050 d.m } else d
  | 0x068 => if lo && v % 2 = 1 then { d with m := { m with bad := false } } else d
  | 0x1000 => if lo && hi then warmReset 8 v d else { d with m := badWrite 0x1000 m }
  | 0x1008 => setWrite off (10 ≤ bits v 0 7 && bits v 0 7 ≤ 95)
      (fun c => { c with gateIdle := bits v 8 1 == 1, cap := bits v 0 7 }) d
  | 0x2000 => tableWrite off true (fun b => { b with ctx := v % 2 ^ 40 }) d
  | 0x2008 => tableWrite off true (fun b => { b with cnt := v % 2 ^ 40 }) d
  | 0x2010 => tableWrite off true (fun b => { b with dom := v % 2 ^ 40 }) d
  | 0x2018 => tableWrite off true (fun b => { b with feed := v % 2 ^ 40 }) d
  | 0x2020 => tableWrite off true (fun b => { b with pool := v % 2 ^ 40 }) d
  | 0x2028 => tableWrite off true (fun b => { b with dl := v % 2 ^ 40 }) d
  | 0x2030 => tableWrite off (6 ≤ v % 32 && v % 32 ≤ 16) (fun b => { b with dlLog2 := v % 32 }) d
  | 0x2040 => { d with m := dlHeadWrite d.cfg (v % 2 ^ 17) m }
  | 0x2050 => tableWrite off true (fun b => { b with pr := v % 2 ^ 40 }) d
  | 0x2058 => tableWrite off (10 ≤ v % 32 && v % 32 ≤ 20) (fun b => { b with prLog2 := v % 32 }) d
  | 0x2068 => { d with m := prHeadWrite d.cfg (v % 2 ^ 21) m }
  | 0x2078 => tableWrite off (bits v 8 7 ≤ 64 && bits v 0 7 ≤ 64 && bits v 8 7 + bits v 0 7 ≤ 96)
      (fun b => { b with partT := bits v 8 7, partH := bits v 0 7 }) d
  | 0x3000 => tickCfgWrite (if lo && hi then 8 else 4) v t d
  | 0x3008 => { d with cfg := { d.cfg with ptmEpoch := v % 2 ^ 64 } }
  | 0x3018 => if lo && v % 2 = 1 then { d with m := { m with tick := { m.tick with refused := false } } } else d
  | 0x4000 => { d with cfg := { d.cfg with evtIrq := ⟨bits v 16 16, bits v 15 1 == 1, bits v 0 11⟩ } }
  | 0x4008 => { d with cfg := { d.cfg with dlIrq := ⟨bits v 16 16, bits v 15 1 == 1, bits v 0 11⟩ } }
  | 0x5000 =>
    if d.cfg.lockProt then { d with m := badWrite off m }
    else { d with cfg := { d.cfg with protG := v % 2 ^ 15 } }
  | 0x5008 => setWrite off (sharesOk v) (fun c => { c with mpShare := shareBytes v ++ c.mpShare.drop 8 }) d
  | 0x5010 => setWrite off (sharesOk v) (fun c => { c with mpShare := c.mpShare.take 8 ++ shareBytes v }) d
  | 0x6000 =>
    if hpOk (bits v 0 8) (bits v 16 5) then
      let m := refill d.cfg m
      { cfg := { d.cfg with hp := { d.cfg.hp with outRate := bits v 0 8, outDepth := bits v 16 5 } }
        m := { m with hp := { m.hp with outTok := min m.hp.outTok (2 ^ bits v 16 5) } } }
    else { d with m := badWrite off m }
  | 0x6008 =>
    if hpOk (bits v 0 8) (bits v 16 5) then
      let m := refill d.cfg m
      { cfg := { d.cfg with hp := { d.cfg.hp with inRate := bits v 0 8, inDepth := bits v 16 5 } }
        m := { m with hp := { m.hp with inTok := min m.hp.inTok (2 ^ bits v 16 5) } } }
    else { d with m := badWrite off m }
  | 0x6010 => setWrite off (1 ≤ bits v 0 14 && bits v 0 14 ≤ 10000)
      (fun c => { c with hp := { c.hp with lossTimeout := bits v 0 14 } }) d
  | 0x6018 =>
    if bits v 0 16 ≤ 60000 then
      { cfg := { d.cfg with hp := { d.cfg.hp with hbLimit := bits v 0 16 } }
        m := { m with hp := { m.hp with hbStart := m.now } } }
    else { d with m := badWrite off m }
  | 0x6020 => { d with m := heartbeat t m }
  | 0x8000 => if lo then { d with m := mbistGo v m } else d
  | _ =>
    if 0x7000 ≤ off && off < 0x8000 then linkWrite ((off - 0x7000) / 0x400) ((off - 0x7000) % 0x400) off v d
    else if 0x10000 ≤ off && off < 0x18000 && (off - 0x10000) % 0x400 = 8 then
      let k := (off - 0x10000) / 0x400
      if d.m.cores.length ≤ k then d else noGateWrite k (v % 2 = 1) d
    else if 0x20000 ≤ off && off < 0x28000 then
      let w := (off - 0x20000) / 4
      let m := if lo then msixWrite w v m else m
      { d with m := if hi then msixWrite (w + 1) (v >>> 32) m else m }
    else d

/-- A BAR0 write: whole or half a register, aligned; anything else is ignored (R325, R448). -/
def writeBar0 (off width v t : Nat) (d : Dev) : Dev :=
  let d := { d with m := tickTo t d.m }
  if width = 8 && off % 8 = 0 then write8 off (v % 2 ^ 64) true true t d
  else if width = 4 && off % 8 = 0 then
    write8 off (regVal d off / 2 ^ 32 * 2 ^ 32 + v % 2 ^ 32) true false t d
  else if width = 4 && off % 8 = 4 then
    write8 (off - 4) (regVal d (off - 4) % 2 ^ 32 + v % 2 ^ 32 * 2 ^ 32) false true t d
  else d

def execCmdTailWrite (v : Nat) (s : State) : Host.Outcome State Fault Refusal := s.runM fun _ => cmdTailWrite v
def execEvtHeadWrite (v : Nat) (s : State) : Host.Outcome State Fault Refusal := s.runM fun c => evtHeadWrite c v
def execLockTables (s : State) : Host.Outcome State Fault Refusal := s.run lockTables
def execTablesCheckDone (s : State) : Host.Outcome State Fault Refusal := s.run tablesCheckDone
def execLockProtection (s : State) : Host.Outcome State Fault Refusal := s.run lockProtection
def execLockRole (s : State) : Host.Outcome State Fault Refusal := s.run lockRole
def execTickCfgWrite (width v t : Nat) (s : State) : Host.Outcome State Fault Refusal := s.run (tickCfgWrite width v t)
def execDlHeadWrite (v : Nat) (s : State) : Host.Outcome State Fault Refusal := s.runM fun c => dlHeadWrite c (v % 2 ^ 17)
def execPrHeadWrite (v : Nat) (s : State) : Host.Outcome State Fault Refusal := s.runM fun c => prHeadWrite c (v % 2 ^ 21)
def execHeartbeat (t : Nat) (s : State) : Host.Outcome State Fault Refusal := s.runM fun _ => heartbeat t
def execMbistGo (v : Nat) (s : State) : Host.Outcome State Fault Refusal := s.runM fun _ => mbistGo v
def execLinkEnable (port : Nat) (s : State) : Host.Outcome State Fault Refusal := s.run (linkEnable port)
def execLinkDisable (port : Nat) (s : State) : Host.Outcome State Fault Refusal := s.run (linkDisable port)
def execBadWriteClear (s : State) : Host.Outcome State Fault Refusal := s.runM fun _ m => { m with bad := false }
def execTickRefusedClear (s : State) : Host.Outcome State Fault Refusal :=
  s.runM fun _ m => { m with tick := { m.tick with refused := false } }
def execRegisterWrite (off width v t : Nat) (s : State) : Host.Outcome State Fault Refusal := s.run (writeBar0 off width v t)

end Sys2Proof.Machine
end

