-- ==== Sys2Proof/Machine/Commands.lean ====
section
/-! DEFINITION. The command ring: what each command's entry must hold, the order of the checks, reading an entry
(R393 to R396, R456, R474), and the commands' results. -/

namespace Sys2Proof.Machine

/-- A command's D column, its inline arguments as (offset, size), and whether it names an argument area (R394);
none for an unknown code (R393, R413). -/
def argSpec (op : Nat) : Option (Bool × List (Nat × Nat) × Bool) :=
  match op with
  | 0x0001 => some (false, [(0x18, 1)], true)
  | 0x0002 => some (false, [], false)
  | 0x0003 => some (false, [(0x18, 4), (0x1C, 2)], true)
  | 0x0004 => some (false, [(0x18, 1)], false)
  | 0x0005 => some (true, [], false)
  | 0x0006 => some (false, [(0x18, 1)], false)
  | 0x0100 => some (true, [(0x18, 8), (0x20, 4), (0x24, 2), (0x28, 4)], false)
  | 0x0101 => some (true, [(0x24, 2), (0x28, 4), (0x2C, 1)], false)
  | 0x0102 => some (true, [], false)
  | 0x0103 => some (true, [], true)
  | 0x0104 => some (true, [(0x18, 1)], false)
  | 0x0105 => some (false, [], true)
  | 0x0106 => some (false, [(0x18, 2)], true)
  | 0x0200 => some (true, [(0x18, 8), (0x20, 1)], false)
  | 0x0201 => some (true, [(0x18, 8), (0x20, 1)], false)
  | 0x0202 => some (true, [(0x18, 8)], false)
  | 0x0203 => some (false, [(0x18, 8)], true)
  | 0x0204 => some (true, [(0x18, 20), (0x2C, 1)], false)
  | 0x0205 => some (true, [(0x18, 8), (0x28, 4)], false)
  | 0x0206 => some (true, [(0x18, 20), (0x2C, 1)], false)
  | 0x0207 => some (false, [(0x18, 2)], false)
  | 0x0300 => some (true, [(0x18, 24)], false)
  | 0x0301 => some (true, [(0x18, 2)], false)
  | 0x0400 => some (true, [(0x18, 8)], true)
  | 0x0401 => some (true, [(0x18, 12)], true)
  | 0x0402 => some (true, [(0x18, 6)], false)
  | 0x0403 => some (true, [(0x18, 4)], true)
  | 0x0404 => some (true, [(0x18, 4)], false)
  | 0x0405 => some (true, [(0x18, 4)], false)
  | 0x0406 => some (true, [(0x18, 4)], false)
  | 0x0407 => some (true, [(0x18, 8)], false)
  | 0x0408 => some (true, [(0x18, 4)], false)
  | 0x0500 => some (false, [(0x18, 2), (0x20, 24)], false)
  | 0x0501 => some (false, [(0x18, 2)], true)
  | 0x0502 => some (false, [(0x18, 2)], false)
  | 0x0600 => some (true, [(0x18, 12)], false)
  | 0x0601 => some (true, [(0x18, 2)], false)
  | 0x0602 => some (false, [(0x18, 1)], true)
  | 0x0603 => some (false, [(0x18, 1)], false)
  | 0x0700 => some (false, [(0x18, 5)], true)
  | 0x0701 => some (false, [(0x18, 4)], true)
  | 0x0702 => some (false, [(0x18, 4)], true)
  | 0x0703 => some (false, [(0x18, 7), (0x20, 6)], false)
  | 0x0704 => some (false, [(0x18, 2)], false)
  | 0x0705 => some (false, [(0x18, 3)], true)
  | 0x0800 => some (false, [(0x18, 4)], true)
  | 0x0801 => some (false, [], false)
  | 0x0802 => some (false, [], false)
  | 0x0803 => some (false, [(0x18, 4)], false)
  | 0x0804 => some (false, [], false)
  | 0x0900 => some (false, [(0x18, 2)], false)
  | 0x0901 => some (false, [], true)
  | 0x0902 => some (false, [], true)
  | 0x0903 => some (false, [], true)
  | 0x0904 => some (true, [(0x18, 8)], false)
  | 0x0905 => some (true, [], false)
  | _ => none

/-- Whether a list of bytes is all zero. -/
def allZero (l : List Byte) : Bool := l.all (· == 0)

/-- The header of an entry breaks its layout, or its code is unknown (R393). -/
def headerBad (k : Cmd) : Bool :=
  (argSpec k.opcode).isNone || k.bytes.length ≠ 64 || 2 ≤ leAt k.bytes 2 1 || leAt k.bytes 3 1 ≠ 0
    || bits (leAt k.bytes 8 2) 12 3 ≠ 0 || leAt k.bytes 0xA 6 ≠ 0

/-- The inline arguments hold a non-zero reserved byte, or the domain a command acts on is not valid (R394). -/
def argsBad (k : Cmd) : Bool :=
  match argSpec k.opcode with
  | none => true
  | some (d, spans, _) =>
    (d && !k.domValid) ||
      !((List.range 40).all fun i =>
        (k.bytes.getD (0x18 + i) 0) == 0 || spans.any fun s => s.1 ≤ 0x18 + i && 0x18 + i < s.1 + s.2)

/-- Codes Clerk 1 accepts before the TABLES lock (R456). -/
def beforeLock (k : Cmd) : Bool :=
  k.opcode = 1 || k.opcode = 2 || k.opcode = 6 || (0x200 ≤ k.opcode && k.opcode ≤ 0x203)
    || (k.opcode = 0x205 && k.dom = 0) || k.opcode = 0x105 || k.opcode = 0x106
    || k.opcode / 256 = 8 || k.opcode / 256 = 9

/-- The status of the first failing check in the order of R474; OK when none fails. An argument area that fails a tag gives no value to
check, so INTEGRITY stands first (R352; DESIGN CHOICE, log 27). -/
def cmdStatus (l : List (Bool × Nat)) : Nat :=
  ([stIntegrity, stMalformed, stParamRange, stPermission, stBindResources, stAdmissionRefused].find? fun s =>
    l.any fun p => p.1 && p.2 == s).getD stOk

/-- The command's result goes into its argument area (R394). -/
def resultArea (op : Nat) : Bool :=
  op = 1 || op = 3 || op = 0x105 || op = 0x203 || op = 0x403 || op = 0x501 || op = 0x901 || op = 0x902

/-- The first line of an argument area of `n` bytes that fails its tag: one that is read, or one that the result writes in part (R182, R352;
log 27). -/
def areaFails (m : Mach) (k : Cmd) (n : Nat) : Option Nat :=
  if k.relay.isSome || n = 0 || !((argSpec k.opcode).any fun s => s.2.2) || !openOf m.mem 0 k.argAddr n then none
  else if resultArea k.opcode then (match writeChk m.mem 0 k.argAddr n with | .integrity x => some x | _ => none)
  else badIn m.mem k.argAddr n

/-- The checks every command makes: its arguments, its argument area of `n` bytes, the TABLES lock, and a domain in
teardown, which only a teardown or a reset may name (R364, R366, R394, R456). DEDUCED (log 27): an area that is misaligned or outside domain 0's open regions is
PARAM_RANGE as ARG_ADDR 0 is. -/
def baseChecks (c : Cfg) (m : Mach) (k : Cmd) (n : Nat) : List (Bool × Nat) :=
  let area := ((argSpec k.opcode).map fun s => s.2.2).getD false
  [(argsBad k, stMalformed),
   (area && k.relay.isNone && (k.argAddr = 0 || k.argAddr % 64 ≠ 0 || protBytes c < k.argAddr + n || !openOf m.mem 0 k.argAddr (max n 1)),
     stParamRange),
   ((areaFails m k n).isSome, stIntegrity),
   (!c.lockTables && !beforeLock k, stPermission),
   (k.domValid && (domE m k.dom).state = 2 && k.opcode ≠ 0x102 && k.opcode ≠ 5, stPermission)]

/-- Bytes of the argument area. -/
def areaBytes (m : Mach) (k : Cmd) (n : Nat) : List Byte :=
  match k.relay with
  | some _ => (k.areaBytes ++ List.replicate n (0 : Byte)).take n
  | none => bread m.mem.cells k.argAddr n

/-- INTEGRITY_FAIL for a line of an argument area (R352). -/
def areaReport (c : Cfg) (k : Cmd) (n : Nat) (m : Mach) : Mach :=
  match areaFails m k n with
  | some x => post c evIntegrityFail [x, 0] m
  | none => m

/-- A command's row: the checks in the order of R474, then its effect. -/
def cmdRow (op id : Nat) (area : Cmd → Nat) (chk : Cfg → Mach → Cmd → List (Bool × Nat)) (act : Cfg → Cmd → Mach → Mach)
    (c : Cfg) (m : Mach) : Mach :=
  withCmd op id (fun k m =>
    let st := cmdStatus (baseChecks c m k (area k) ++ chk c m k)
    if st ≠ stOk then respond c id st [] (areaReport c k (area k) m) else act c k m) m

/-- Clerk `i` runs. -/
def clerkRuns (m : Mach) (i : Nat) : Bool := (m.clerks.getD i {}).running

/-- Clerk 1 reads the next command (R393 to R396): a command with a bad header is answered at once. A command entry
that fails its tag is answered with INTEGRITY and TAG 0 (DESIGN CHOICE, log 27). -/
def commandRead (c : Cfg) (m : Mach) : Mach :=
  if m.boot.state ≠ bsRunning || !clerkRuns m 1 || m.rings.cmdTail = m.rings.cmdHead || 64 ≤ owed m
      || evtFree m < owed m + 64 then m
  else
    let a := cmdRing + 64 * (m.rings.cmdHead % 4096)
    let k : Cmd := { bytes := bread m.mem.cells a 64, phase := 0, seq := m.rings.nextCmd, start := m.now, arg := 0 }
    let m := { m with rings := { m.rings with cmdHead := (m.rings.cmdHead + 1) % 8192, nextCmd := m.rings.nextCmd + 1 } }
    if (badIn m.mem a 64).isSome then
      post c evIntegrityFail [a, 0] (putEvent c (evtEntry m 1 0 1 0 stIntegrity 0 []) m)
    else if headerBad k then putEvent c (evtEntry m 1 0 1 k.tag stMalformed k.opcode []) m
    else { m with rings := { m.rings with cmds := mset m.rings.cmds k.seq k } }

def execCommandRead (s : State) : Host.Outcome State Fault Refusal := s.runM commandRead

end Sys2Proof.Machine
end

