-- ==== Sys2Proof/Machine/Stores.lean ====
section
/-! DEFINITION. The persistent store at work: firmware slots, boot record, epoch, enrolment, trim (R357, R399, R401 to
R404, R423). One 4 KiB erase or program runs at a time; a command's value is read in full when it starts. -/

namespace Sys2Proof.Machine

/-- Units of 4 KiB that hold `n` bytes. -/
def unitsOf (n : Nat) : Nat := cdiv n 4096

/-- A store command starts: the store is busy with it, `ops` operations remain, and its bytes are kept. -/
def storeStart (id ops : Nat) (bytes : List Byte) (m : Mach) : Mach :=
  let m := underWay id ops m
  { m with
    rings := { m.rings with cmds := mupd m.rings.cmds id fun k => { k with areaBytes := bytes } }
    store := { m.store with busy := some id } }

/-- A store command's row: it waits while an operation runs; an absent store answers INTERNAL (DESIGN CHOICE, log 28). -/
def storeRow (op id : Nat) (area : Cmd → Nat) (chk : Cfg → Mach → Cmd → List (Bool × Nat)) (act : Cfg → Cmd → Mach → Mach)
    (c : Cfg) (m : Mach) : Mach :=
  if m.store.busy.isSome || m.power.fail ≠ 0 then m
  else cmdRow op id area chk (fun c k m => if m.store.present then act c k m else respond c id stInternal [] m) c m

/-- The copy that the next write of a record takes is erased first (R402). -/
def abErase (r : AB) : AB :=
  match r.a, r.b with
  | some x, some y => if x.1 < y.1 then { r with a := none } else { r with b := none }
  | _, _ => r

/-- The slot that would not boot now, slot A when none would (R403; DESIGN CHOICE, log 28). -/
def otherSlot (m : Mach) : Nat := match bootSlot m.store m.boot.minEpoch with | some 0 => 1 | _ => 0

/-- Read and change a slot. -/
def slotOf (s : Store) (i : Nat) : Slot := if i = 0 then s.slotA else s.slotB
def slotUpd (i : Nat) (f : Slot → Slot) (s : Store) : Store :=
  if i = 0 then { s with slotA := f s.slotA } else { s with slotB := f s.slotB }

/-- The checks of slotWrite. -/
def slotWriteChecks : Cfg → Mach → Cmd → List (Bool × Nat) :=
  fun _ _ k => [(k.argN 0x18 4 = 0 || 4 * 2 ^ 20 - 4096 < k.argN 0x18 4, stParamRange)]

def slotWrite (id : Nat) : Cfg → Mach → Mach :=
  storeRow 0x800 id (fun k => k.argN 0x18 4)
    slotWriteChecks
    (fun _ k m => storeStart id (1 + 2 * unitsOf (k.argN 0x18 4)) (areaBytes m k (k.argN 0x18 4)) m)

/-- The checks of slotValidate. -/
def slotValidateChecks : Cfg → Mach → Cmd → List (Bool × Nat) :=
  fun _ m _ => [(imageReason m.boot.minEpoch (slotOf m.store (otherSlot m)).image ≠ 0, stPermission)]

/-- SLOT_VALIDATE of an image that fails R398 is refused with PERMISSION (DESIGN CHOICE, log 28). -/
def slotValidate (id : Nat) : Cfg → Mach → Mach :=
  storeRow 0x801 id (fun _ => 0)
    slotValidateChecks
    (fun _ _ m => storeStart id 2 [] m)

/-- The checks of slotRetire. -/
def slotRetireChecks : Cfg → Mach → Cmd → List (Bool × Nat) :=
  fun _ _ _ => []

/-- SLOT_RETIRE erases the marker of the slot that would not boot, the older of two good ones. -/
def slotRetire (id : Nat) : Cfg → Mach → Mach :=
  storeRow 0x802 id (fun _ => 0) slotRetireChecks (fun _ _ m => storeStart id 1 [] m)

/-- The checks of bootRecordWrite. -/
def bootRecordWriteChecks : Cfg → Mach → Cmd → List (Bool × Nat) :=
  fun _ _ k => [(2 < k.argN 0x18 1 || (k.argN 0x18 1 = 2 && 3 < k.argN 0x19 1) || !protOk (k.argN 0x1A 2), stParamRange)]

def bootRecordWrite (id : Nat) : Cfg → Mach → Mach :=
  storeRow 0x803 id (fun _ => 0)
    bootRecordWriteChecks
    (fun _ k m =>
      { storeStart id 2 ((k.bytes.drop 0x18).take 4) m with store := { m.store with busy := some id, bootRec := abErase m.store.bootRec } })

/-- The checks of epochCommit. -/
def epochCommitChecks : Cfg → Mach → Cmd → List (Bool × Nat) :=
  fun _ m _ => [(m.boot.epoch ≤ m.boot.minEpoch, stParamRange)]

/-- EPOCH_COMMIT (R399). -/
def epochCommit (id : Nat) : Cfg → Mach → Mach :=
  storeRow 0x804 id (fun _ => 0) epochCommitChecks
    (fun _ _ m =>
      { storeStart id 2 (toLe 4 m.boot.epoch) m with store := { m.store with busy := some id, epochRec := abErase m.store.epochRec } })

/-- The checks of enrolCertify. -/
def enrolCertifyChecks : Cfg → Mach → Cmd → List (Bool × Nat) :=
  fun _ _ k => [(2048 < k.argN 0x18 2, stParamRange)]

/-- ENROL_CERTIFY (R357): the record names the epoch it belongs to. -/
def enrolCertify (id : Nat) : Cfg → Mach → Mach :=
  storeRow 0x106 id (fun k => k.argN 0x18 2) enrolCertifyChecks
    (fun _ k m =>
      { storeStart id 4 (toLe 4 m.boot.epoch ++ toLe 2 (k.argN 0x18 2) ++ areaBytes m k (k.argN 0x18 2)) m with
        store := { m.store with busy := some id, enrolRec := abErase m.store.enrolRec } })

/-- The certificate blob the enrolment record holds for the running epoch (R357). -/
def enrolBlob (m : Mach) : List Byte :=
  match if m.store.present then abRead m.store.enrolRec else none with
  | some l => if leAt l 0 4 = m.boot.epoch then (l.drop 6).take (leAt l 4 2) else []
  | none => []

/-- The checks of enrolQuery. -/
def enrolQueryChecks : Cfg → Mach → Cmd → List (Bool × Nat) :=
  fun _ _ _ => []

/-- ENROL_QUERY (R357, R394). -/
def enrolQuery (id : Nat) : Cfg → Mach → Mach :=
  cmdRow 0x105 id (fun _ => 0x900) enrolQueryChecks fun c k m =>
    let e := m.boot.epoch
    let pub := enrolPub m e
    let sig := attestSign m e (sha384 (toLe 4 e ++ pub))
    let blob := enrolBlob m
    let r := toLe 4 e ++ toLe 4 0 ++ pub ++ sig
      ++ toLe 2 blob.length ++ List.replicate 54 (0 : Byte) ++ blob
    respond c id stOk (toLe 4 e ++ toLe 2 blob.length) (putResult id k r (drawn m))

/-! ### The trim set (R420 to R423) -/

/-- Half-words of a field. -/
def half (l : List Byte) (off i : Nat) : Nat := leAt l (off + 2 * i) 2

/-- A signed half-word. -/
def signed16 (v : Nat) : Int := if v < 2 ^ 15 then (v : Int) else (v : Int) - 2 ^ 16

/-- A trim body's layout is broken (R423). -/
def trimMalformed (stepping : Nat) (b : List Byte) : Bool :=
  leAt b 0 4 ≠ 0x4D495254 || leAt b 4 2 ≠ 1 || leAt b 6 1 ≠ stepping || leAt b 7 1 ≠ 0 || !allZero ((b.drop 0xF0).take 16136)

/-- The entries of the voltage table in use: those up to the first whose bound is 127 (R422). -/
def vfOf (b : List Byte) (i : Nat) : Nat := leAt b (0xB0 + 4 * i) 4

/-- A trim field is out of its range (R420 to R422). The table's 16 bounds rise strictly to 127. -/
def trimRange (b : List Byte) : Bool :=
  !((List.range 16).all fun i => decide (-512 ≤ signed16 (half b 0x10 i) ∧ signed16 (half b 0x10 i) ≤ 511))
    || !((List.range 32).all fun i => 10 ≤ half b 0x30 i && half b 0x30 i ≤ 150)
    || !((List.range 5).all fun i => leAt b (0x70 + 4 * (11 + i)) 4 = 0)
    || !((List.range 16).all fun i => 600 ≤ vfOf b i / 2 ^ 16 && vfOf b i / 2 ^ 16 ≤ 950)
    || !((List.range 15).all fun i => decide (signed16 (vfOf b i % 2 ^ 16) < signed16 (vfOf b (i + 1) % 2 ^ 16)))
    || signed16 (vfOf b 15 % 2 ^ 16) ≠ 127

/-- The checks of trimWrite. -/
def trimWriteChecks : Cfg → Mach → Cmd → List (Bool × Nat) :=
  fun c m k => let b := areaBytes m k 0x3FF8; [(trimMalformed c.strap.stepping b, stMalformed), (trimRange b, stParamRange)]

/-- TRIM_WRITE (R423): the body's first 0x3FF8 bytes. -/
def trimWrite (id : Nat) : Cfg → Mach → Mach :=
  storeRow 0x903 id (fun _ => 0x3FF8)
    trimWriteChecks
    (fun _ k m =>
      { storeStart id 8 (areaBytes m k 0x3FF8) m with store := { m.store with busy := some id, trimRec := abErase m.store.trimRec } })

/-- The checks of trimRead. -/
def trimReadChecks : Cfg → Mach → Cmd → List (Bool × Nat) :=
  fun _ _ _ => []

/-- TRIM_READ: the 16 KiB set in use; SEQ stands before the CRC over the rest (R402, R420). -/
def trimRead (id : Nat) : Cfg → Mach → Mach :=
  cmdRow 0x902 id (fun _ => 0x4000) trimReadChecks fun c k m =>
    let b := (m.st.trim ++ List.replicate 0x3FF8 (0 : Byte)).take 0x3FF8 ++ toLe 4 m.st.trimSeq
    respond c id stOk [] (putResult id k (b ++ toLe 4 (crc32 b)) m)

/-! ### The end of an operation (R401, R402) -/

/-- Whether the operation that ends is a program, given how many remained (R401). -/
def isProgram (k : Cmd) : Bool :=
  k.arg % 2 == 1 && k.opcode ≠ 0x802 && !(k.opcode == 0x800 && k.arg == 1 + 2 * unitsOf (k.argN 0x18 4))

/-- The effect of a command whose last operation has ended, with its response. -/
def storeEffect (c : Cfg) (id : Nat) (k : Cmd) (m : Mach) : Mach :=
  let s := m.store
  let o := otherSlot m
  match k.opcode with
  | 0x800 => respond c id stOk (toLe 1 o) { m with store := slotUpd o (fun x => { x with image := k.areaBytes }) s }
  | 0x801 =>
    let seq := (((slotOf s (1 - o)).marker.map (·.1)).getD 0) + 1
    respond c id stOk (toLe 1 o) { m with store := slotUpd o (fun x => { x with marker := some (seq, sha384 (x.image.take 512)) }) s }
  | 0x802 => respond c id stOk (toLe 1 o) { m with store := slotUpd o (fun x => { x with marker := none }) s }
  | 0x803 => respond c id stOk [] { m with store := { s with bootRec := abWrite s.bootRec k.areaBytes } }
  | 0x804 =>
    respond c id stOk k.areaBytes
      { m with store := { s with epochRec := abWrite s.epochRec k.areaBytes }, boot := { m.boot with minEpoch := leNat k.areaBytes } }
  | 0x106 => respond c id stOk [] { m with store := { s with enrolRec := abWrite s.enrolRec k.areaBytes } }
  | 0x701 => respond c id stOk [] { m with
      store := { s with trustRec := abWrite s.trustRec k.areaBytes }
      casc := { m.casc with group := leAt k.areaBytes 0 4, trust := some (leNat ((k.areaBytes.drop 4).take 48), leAt k.areaBytes 52 4) } }
  | _ =>
    let r := abWrite s.trimRec k.areaBytes
    respond c id stOk (toLe 4 (abSeq r)) { m with
      store := { s with trimRec := r }, st := { m.st with trimWait := some k.areaBytes }
      power := { m.power with trimHold := false } }

/-- An erase or a program ends (R401, R408). A failed operation counts in STORE_ERRORS and its command answers INTERNAL
(DESIGN CHOICE, log 28). -/
def storeDone (ok : Bool) (c : Cfg) (m : Mach) : Mach :=
  match m.store.busy with
  | none => m
  | some id =>
    match mget m.rings.cmds id with
    | none => { m with store := { m.store with busy := none } }
    | some k =>
      if !ok then
        respond c id stInternal [] { m with store := { m.store with busy := none, errors := satInc 32 m.store.errors } }
      else
        let s := if isProgram k then { m.store with writes := m.store.writes + 1 } else m.store
        let s := if k.opcode = 0x800 && !isProgram k && k.arg % 2 = 1 then slotUpd (otherSlot m) (fun x => { x with marker := none }) s else s
        let m := send (.storeWrite k.opcode) { m with store := s }
        if k.arg ≤ 1 then storeEffect c id k { m with store := { m.store with busy := none } }
        else if m.power.fail ≠ 0 then { m with store := { m.store with busy := none } }
        else { m with rings := { m.rings with cmds := mupd m.rings.cmds id fun k => { k with arg := k.arg - 1 } } }

def execSlotWrite (id : Nat) (s : State) : Host.Outcome State Fault Refusal := s.runM (slotWrite id)
def execSlotValidate (id : Nat) (s : State) : Host.Outcome State Fault Refusal := s.runM (slotValidate id)
def execSlotRetire (id : Nat) (s : State) : Host.Outcome State Fault Refusal := s.runM (slotRetire id)
def execBootRecordWrite (id : Nat) (s : State) : Host.Outcome State Fault Refusal := s.runM (bootRecordWrite id)
def execEpochCommit (id : Nat) (s : State) : Host.Outcome State Fault Refusal := s.runM (epochCommit id)
def execStoreOperationDone (ok : Bool) (s : State) : Host.Outcome State Fault Refusal := s.runM (storeDone ok)
def execEnrolQuery (id : Nat) (s : State) : Host.Outcome State Fault Refusal := s.runM (enrolQuery id)
def execEnrolCertify (id : Nat) (s : State) : Host.Outcome State Fault Refusal := s.runM (enrolCertify id)
def execTrimRead (id : Nat) (s : State) : Host.Outcome State Fault Refusal := s.runM (trimRead id)
def execTrimWrite (id : Nat) (s : State) : Host.Outcome State Fault Refusal := s.runM (trimWrite id)

end Sys2Proof.Machine
end

