-- ==== Sys2Proof/Machine/Ledger.lean ====
section
/-! DEFINITION. The Tick Ledger: terms, the admission test, proposals, reload, retirement (R285 to R290, R386). -/

namespace Sys2Proof.Machine

/-! ### Terms (R285) -/

/-- The terms in bytes 0x00 to 0x17 of an entry. -/
def termsOf (b : List Byte) : Terms := ⟨leAt b 0 8, leAt b 8 4, leAt b 0xC 1, leAt b 0xD 1, leAt b 0xE 2 % 4096, leAt b 0x10 4⟩

/-- A reserved bit of the terms is set. -/
def termsBad (b : List Byte) : Bool := 4096 ≤ leAt b 0xE 2 || leAt b 0x14 4 ≠ 0

/-- A term lies outside its range. -/
def termsRange (t : Terms) : Bool :=
  t.budget < t.wmax || 2 ^ 40 < t.budget || t.wmax = 0 || 1000000 < t.wmax || t.divisor = 0 || 64 < t.divisor
    || t.divisor ≤ t.phase || 4000000 < t.release

/-- The 64 bytes of an entry. -/
def ledgerBytes (e : LedgerE) : List Byte :=
  let t := e.terms
  toLe 8 t.budget ++ toLe 4 t.wmax ++ toLe 1 t.divisor ++ toLe 1 t.phase ++ toLe 2 t.dom ++ toLe 4 t.release ++ toLe 4 0
    ++ toLe 4 (match e.queue with | some q => q + 2 ^ 31 | none => 0) ++ toLe 4 e.depotRes ++ toLe 8 e.balance ++ toLe 8 e.owed
    ++ toLe 4 e.overruns ++ toLe 4 e.refusals ++ toLe 8 e.lastRun

/-! ### The admission test (R287) -/

/-- Demand of a set of terms: for each divisor, its worst phase. -/
def demandOf (ts : List Terms) : Nat :=
  ((List.range 65).map fun d =>
    ((List.range d).map fun r =>
      ((ts.filter fun t => t.divisor == d && t.phase == r).map (·.budget)).foldl (· + ·) 0).foldl max 0).foldl (· + ·) 0

/-- The reserved share of the core-time of `n` cores, in core-cycles. -/
def reservedOf (n p q share : Nat) : Nat := n * (p - q) * 1000 * share / 64

/-- Reserved under the settings that apply at the next reload. -/
def reservedNow (c : Cfg) (m : Mach) : Nat := reservedOf (coresIn m) m.tick.cfg.period m.tick.cfg.quiet c.tick.share

/-- Terms of the entries that take part in a test. -/
def activeTerms (l : Map LedgerE) : List Terms := (l.filter fun p => !p.2.dropped).map fun p => p.2.terms

/-- The test over a ledger. -/
def ledgerOk (c : Cfg) (m : Mach) (l : Map LedgerE) : Bool := demandOf (activeTerms l) ≤ reservedNow c m

/-- A fresh entry with terms. -/
def entryWith (t : Terms) : LedgerE := { terms := t }

/-! ### Commands (R286) -/

/-- A request goes to the master in a LEDGER frame; its answer ends the command (R386). -/
def ledgerAsk (id op entry : Nat) (body : List Byte) (m : Mach) : Mach :=
  let r := m.casc.nextReq
  let m := underWay id entry m
  let m := { m with casc := { m.casc with nextReq := r + 1, requests := mset m.casc.requests r ⟨0, 8, id, entry, body⟩ } }
  frameTo 0 8 (toLe 1 op ++ toLe 1 0 ++ toLe 2 entry ++ toLe 4 r ++ (body ++ List.replicate 24 (0 : Byte)).take 24) m

def admitChecks (c : Cfg) (m : Mach) (k : Cmd) : List (Bool × Nat) :=
  let e := k.argN 0x18 2
  let b := (k.bytes.drop 0x20).take 24
  [(termsBad b, stMalformed), (4096 ≤ e || termsRange (termsOf b), stParamRange),
   ((mget m.ledger e).any (·.retiring), stPermission),
   (roleOf c = 1 && (peerOf m 0).isNone, stAdmissionRefused),
   (roleOf c ≠ 1 && !mhas m.ledger e && !ledgerOk c m (mset m.ledger e (entryWith (termsOf b))), stAdmissionRefused)]

/-- LEDGER_ADMIT. -/
def ledgerAdmit (id : Nat) : Cfg → Mach → Mach :=
  cmdRow 0x500 id (fun _ => 0) admitChecks fun c k m =>
    let e := k.argN 0x18 2
    let b := (k.bytes.drop 0x20).take 24
    if roleOf c = 1 then ledgerAsk id 0 e b m
    else if mhas m.ledger e then
      respond c id stOk (toLe 1 1) { m with ledger := mupd m.ledger e fun x => { x with proposal := some (termsOf b) } }
    else respond c id stOk (toLe 1 0) { m with ledger := mset m.ledger e (entryWith (termsOf b)) }

/-- The checks of ledgerQuery. -/
def ledgerQueryChecks : Cfg → Mach → Cmd → List (Bool × Nat) :=
  fun _ _ k => [(4096 ≤ k.argN 0x18 2, stParamRange)]

/-- LEDGER_QUERY; a free entry reads zeros. -/
def ledgerQuery (id : Nat) : Cfg → Mach → Mach :=
  cmdRow 0x501 id (fun _ => 64) ledgerQueryChecks fun c k m =>
    let b := ((mget m.ledger (k.argN 0x18 2)).map ledgerBytes).getD (List.replicate 64 0)
    respond c id stOk [] (putResult id k b m)

/-- The checks of ledgerRetire. -/
def ledgerRetireChecks : Cfg → Mach → Cmd → List (Bool × Nat) :=
  fun _ m k => [(4096 ≤ k.argN 0x18 2, stParamRange), ((mget m.ledger (k.argN 0x18 2)).any (·.queue.isSome), stPermission)]

/-- LEDGER_RETIRE; a free entry, or one whose retirement is pending, is answered with OK and nothing follows (R286). -/
def ledgerRetire (id : Nat) : Cfg → Mach → Mach :=
  cmdRow 0x502 id (fun _ => 0)
    ledgerRetireChecks
    fun c k m =>
      let e := k.argN 0x18 2
      let new := (mget m.ledger e).any fun x => !x.retiring
      let m := { m with ledger := mupd m.ledger e fun x => { x with retiring := true } }
      if roleOf c = 1 && new && (peerOf m 0).isSome then ledgerAsk id 1 e [] m else respond c id stOk [] m

/-! ### Layers refused by the ledger (R287, R289) -/

/-- The entry a queue is bound to. -/
def entryOf (m : Mach) (q : Nat) : Option (Nat × LedgerE) := m.ledger.find? fun p => p.2.queue == some q

/-- A layer completes with ADMISSION_REFUSED; its entry counts it. -/
def refuseAdm (q d : Nat) (m : Mach) : Mach :=
  let e := ((entryOf m q).map (·.1)).getD 0xFFFF
  refuse q d stAdmissionRefused e { m with ledger := mupd m.ledger e fun x => { x with refusals := satInc 32 x.refusals } }

/-- Layers of a queue presented and not yet admitted. -/
def unadmitted (m : Mach) (q : Nat) : List Nat :=
  ((qGet m q).map fun y => (y.descs.filter fun d => d.2.phase == 1 && d.2.isRun).map (·.1)).getD []

/-! ### Reload (R287, R288) -/

/-- Proposals in ascending entry number; a member's have been tested by the master already (R386). -/
def takeProposals (c : Cfg) (m : Mach) : Mach :=
  m.ledger.foldl (fun m p =>
    match p.2.proposal with
    | none => m
    | some t =>
      let l := mupd m.ledger p.1 fun x => { x with terms := t, proposal := none, dropped := false }
      if roleOf c = 1 || ledgerOk c m l then { m with ledger := l }
      else { m with ledger := mupd m.ledger p.1 fun x => { x with proposal := none } }) m

/-- The retest: entries are dropped in descending number until it passes. -/
def retest (c : Cfg) (m : Mach) : Mach :=
  m.ledger.reverse.foldl (fun m p =>
    if p.2.dropped || ledgerOk c m m.ledger then m
    else
      let m := { m with ledger := mupd m.ledger p.1 fun x => { x with dropped := true } }
      let m := post c evAdmissionLost [p.1] m
      match p.2.queue with
      | none => m
      | some q => (unadmitted m q).foldl (fun m d => refuseAdm q d m) m) m

/-- The ledger prepares the tick that follows: what is left of the present BALANCE lapses, and every admitted entry's budget stands ready for
the tick whose count suits its phase (R284, R288, R290). -/
def prepare (m : Mach) : Mach :=
  { m with ledger := mmap (fun _ e => { e with balance := 0, prepared := if e.dropped then none else some e.terms.budget }) m.ledger }

/-- The reload of a quiet margin, for the tick that follows. -/
def reload (c : Cfg) (m : Mach) : Mach :=
  let m := { m with ledger := mfilter (fun _ e => !e.retiring) m.ledger, tick := { m.tick with cfg := { m.tick.cfg with share := c.tick.share } } }
  let m := retest c (takeProposals c m)
  let m := { m with tick := { m.tick with
    demand := demandOf (activeTerms m.ledger), reserved := reservedNow c m, reloaded := true } }
  prepare m

/-- The prepared values become current at the boundary of tick `k`. -/
def ledgerBoundary (k : Nat) (m : Mach) : Mach :=
  { m with ledger := mmap (fun _ e =>
      match e.prepared with
      | some b =>
        if k % e.terms.divisor = e.terms.phase then { e with balance := b, running := true, lastRun := k, prepared := none }
        else { e with balance := 0, running := false, prepared := none }
      | none => { e with balance := 0, running := false }) m.ledger }

/-- RELEASE after the boundary (R290). -/
def ledgerRelease (entry : Nat) (m : Mach) : Mach :=
  match mget m.ledger entry with
  | none => m
  | some e =>
    let r := e.terms.release
    if r = 0 || m.tick.cfg.period - m.tick.cfg.quiet ≤ r then m
    else tickTo (m.tick.base + r * 1000) { m with ledger := mset m.ledger entry { e with balance := 0 } }

def execLedgerAdmit (id : Nat) (s : State) : Host.Outcome State Fault Refusal := s.runM (ledgerAdmit id)
def execLedgerQuery (id : Nat) (s : State) : Host.Outcome State Fault Refusal := s.runM (ledgerQuery id)
def execLedgerRetire (id : Nat) (s : State) : Host.Outcome State Fault Refusal := s.runM (ledgerRetire id)
def execLedgerRelease (entry : Nat) (s : State) : Host.Outcome State Fault Refusal := s.runM fun _ => ledgerRelease entry

end Sys2Proof.Machine
end

