-- ==== Sys2Proof/Machine/Telem.lean ====
section
/-! DEFINITION. Telemetry published in each quiet margin (R361, R362, R424, R425). -/

namespace Sys2Proof.Machine

/-- A quotient rounded to nearest, ties up (R50 on values that are not negative). -/
def roundDiv (a b : Nat) : Nat := if b = 0 then 0 else (2 * a + b) / (2 * b)

/-- A signed value in sixteenths rounded to whole units, ties away from zero (R50). -/
def round16 (t : Int) : Int := if 0 ≤ t then (t + 8) / 16 else -((-t + 8) / 16)

/-- A signed number as `w` bytes. -/
def toLeI (w : Nat) (t : Int) : List Byte := toLe w (t % 2 ^ (8 * w)).toNat

/-- Busy time of core `k`, with what runs now. -/
def busyOf (m : Mach) (k : Nat) : Nat :=
  let run := match m.cores[k]? with
    | some c =>
      match c.tc with
      | some t => m.now - max t.issued m.tick.base
      | none => if c.regs.state = 2 then m.now - max c.regs.since m.tick.base else 0
    | none => 0
  (mget m.telem.busy k).getD 0 + run

/-- Busy time of a domain, with what runs now. -/
def domBusyOf (m : Mach) (d : Nat) : Nat :=
  (m.cores.filterMap fun c => match c.tc with
    | some t => if c.regs.dom = d then some (m.now - max t.issued m.tick.base) else none
    | none => none).foldl (· + ·) ((mget m.telem.domBusy d).getD 0)

/-- Mean estimated power of the tick in mW. -/
def meanPower (m : Mach) : Nat := roundDiv m.telem.powSum m.telem.powCnt

/-- Values by index, a cell of `w` bytes each. -/
def cellsOf (w n : Nat) (f : Nat → Nat) : List Byte := (List.range n).flatMap fun i => toLe w (f i % 2 ^ (8 * w))

/-- The telemetry block of domain 0. -/
def telemBlock (m : Mach) : List Byte :=
  let t := m.telem
  toLe 8 m.tick.count ++ toLe 4 (meanPower m) ++ toLe 4 t.peak ++ toLe 1 m.power.lowDuty
    ++ toLe 1 ((if m.power.limiting then 1 else 0) + (if m.power.exceeded then 2 else 0)) ++ toLe 14 0
    ++ (List.range 16).flatMap (fun i => toLeI 2 (t.temps.getD i 0))
    ++ cellsOf 4 32 (fun i => (mget t.droops i).getD 0) ++ cellsOf 4 32 (busyOf m)
    ++ cellsOf 1 32 (fun i => ((m.cores[i]?).map fun c => c.regs.state).getD 0)
    ++ cellsOf 8 16 (fun i => (mget t.memBytes i).getD 0) ++ toLe 8 t.hostOut ++ toLe 8 t.hostIn
    ++ (List.range 4).flatMap (fun i => toLe 8 ((mget t.linkTx i).getD 0) ++ toLe 8 ((mget t.linkRx i).getD 0))
    ++ cellsOf 4 4 (fun i => ((m.links[i]?).bind fun l => (l.peers.find? (·.timePath)).map (·.delay)).getD 0)

/-- The 64-byte record of a domain (R425). -/
def telemRecord (m : Mach) (d : Nat) : List Byte :=
  let hot := m.telem.temps.foldl max (m.telem.temps.headD 0)
  toLe 8 m.tick.count ++ toLe 8 (domE m d).jobs ++ toLe 4 (roundDiv (16 * domBusyOf m d) (m.tick.cfg.period * 1000))
    ++ toLe 2 (roundDiv m.telem.powSum (1000 * m.telem.powCnt)) ++ toLeI 1 (round16 hot) ++ toLe 1 0
    ++ toLe 4 ((m.telem.droops.map (·.2)).foldl (· + ·) 0) ++ toLe 36 0

/-- Clerk 3 publishes the tick that ends; while it is down the last values stay (R405, R424, R425). -/
def publish (m : Mach) : Mach :=
  if !(m.clerks.getD 3 {}).running then m
  else
    let m := { m with telem := { m.telem with block := bwrite [] 0 (telemBlock m) } }
    m.telem.binds.foldl (fun m b =>
      match writeChk m.mem b.1 b.2.2 64 with
      | .ok => if inImage m b.2.2 64 then m else engPut b.2.2 (telemRecord m b.1) m
      | _ => m) m

/-- The counts of a tick start again at its boundary. -/
def telemReset (m : Mach) : Mach :=
  { m with telem := { m.telem with
      droops := [], busy := [], domBusy := [], powSum := 0, powCnt := 0, peak := 0, memBytes := [], hostOut := 0, hostIn := 0
      linkTx := [], linkRx := [] }
           power := { m.power with lowDuty := m.power.duty, limiting := decide (m.power.duty < 16), exceeded := false } }

end Sys2Proof.Machine
end

