-- ==== Sys2Proof/Machine/Tick.lean ====
section
/-! DEFINITION. Tick sources, the quiet margin and the boundary (R21 to R27, R223 to R226, R279 to R284, R288, R298 to R300,
R384, R385, R423, R440). -/

namespace Sys2Proof.Machine

/-! ### Feeds (R223 to R226) -/

/-- Physical address of a feed entry. -/
def feedAt (c : Cfg) (f : Nat) : Nat := c.tb.feed + 64 * f

/-- The driver fields of a feed entry name an enabled feed and keep their layout (R223). -/
def feedOn (b : List Byte) : Bool :=
  let slots := leAt b 0xC 2
  2 ^ 15 ≤ leAt b 0xE 2 && bits (leAt b 0xE 2) 12 3 = 0 && leAt b 0 8 % 4096 = 0 && leAt b 0 8 < 2 ^ 52
    && 0x1000 ≤ leAt b 8 4 && leAt b 8 4 ≤ 0x10000000 && leAt b 8 4 % 0x1000 = 0
    && 2 ≤ slots && slots ≤ 4096 && (List.range 13).any (fun i => slots == 2 ^ i)
    && leAt b 0x10 4 < 2 ^ 20 && leAt b 0x14 4 = 0 && leAt b 0x30 8 = 0 && leAt b 0x38 8 = 0

/-- The quiet margin reads one feed entry and samples its index (R223, R225). An entry whose line fails its tag is treated
as disabled until it is rewritten, and reported once (R352, R364). The first margin that finds it enabled with a valid layout since ENABLE was
last seen clear sets its engine fields; REJECTS is set to 0 by clearing the queue's count (DEDUCED, log 35). -/
def feedSample (c : Cfg) (m : Mach) (f : Nat) : Mach :=
  let a := feedAt c f
  let old : FeedS := (mget m.tick.feeds f).getD ⟨none, none, false, false⟩
  let bad := (badIn m.mem a 64).isSome
  let off := m.depot.feedOff.contains f
  let m := if bad && !off then
      post c evIntegrityFail [a, 0] { m with depot := { m.depot with feedOff := f :: m.depot.feedOff } } else m
  let b := bread m.mem.cells a 64
  let keep (s : FeedS) : Mach :=
    if s = ⟨none, none, false, false⟩ then { m with tick := { m.tick with feeds := mdel m.tick.feeds f } }
    else { m with tick := { m.tick with feeds := mset m.tick.feeds f s } }
  if bad || off || !c.lockTables then keep { old with next := none }
  else if leAt b 0xE 2 < 2 ^ 15 then keep { old with next := none, on := false, latched := false }
  else if !feedOn b then keep { old with next := none }
  else
    let q := leAt b 0x10 4 % 2 ^ 20
    let m := if old.on then m
      else
        qUpd q (fun x => { x with feedRejects := 0 })
          (engPut (a + 0x18) (toLe 4 0 ++ toLe 4 0xFFFFFFFF ++ toLe 4 0 ++ toLe 4 0 ++ toLe 4 0 ++ toLe 4 0) m)
    let idx := ((qGet m q).map (·.feedIdx)).getD 0
    { m with tick := { m.tick with
      feeds := mset m.tick.feeds f { next := some (idx, b.take 0x18), cur := old.cur, latched := old.on && old.latched, on := true } } }

/-- The lower of two frames in 32-bit modular order. -/
def lowerFrame (a b : Nat) : Nat := if subMod b a (2 ^ 32) < 2 ^ 31 then a else b

/-- Frames of a feed bound to unfinished layers. -/
def boundFrames (m : Mach) (f : Nat) : List Nat :=
  m.queues.flatMap fun p => p.2.descs.flatMap fun d =>
    if d.2.phase < 3 then (d.2.frames.filter fun b => b.feed == f && b.st == 0).map (·.frame) else []

/-- The boundary latches one feed's sample (R225, R226). -/
def feedLatch (c : Cfg) (m : Mach) (f : Nat) : Mach :=
  match mget m.tick.feeds f with
  | none => m
  | some s =>
    match s.next with
    | none => { m with tick := { m.tick with feeds := mset m.tick.feeds f { s with cur := none } } }
    | some (n, drv) =>
      let a := feedAt c f
      let snap := memNum m.mem (a + 0x18) 4
      let d := subMod n snap (2 ^ 32)
      let missed := min (memNum m.mem (a + 0x20) 4 + (d - 1)) (2 ^ 32 - 1)
      let stale := if d = 0 then satInc 32 (memNum m.mem (a + 0x24) 4) else memNum m.mem (a + 0x24) 4
      let rej := ((qGet m (leAt drv 0x10 4 % 2 ^ 20)).map (·.feedRejects)).getD 0
      let last := subMod n 1 (2 ^ 32)
      let cons := (boundFrames m f).foldl lowerFrame last
      let m := engPut (a + 0x18)
        (toLe 4 n ++ toLe 4 cons ++ toLe 4 missed ++ toLe 4 stale ++ toLe 4 rej ++ toLe 4 (m.tick.count % 2 ^ 32)) m
      { m with tick := { m.tick with feeds := mset m.tick.feeds f { s with cur := some drv, latched := s.latched || d ≠ 0 } } }

/-! ### The quiet margin (R282, R288, R424) -/

/-- At E: feeds are sampled, the ledger reloads, telemetry is published. -/
def margin (c : Cfg) (m : Mach) : Mach :=
  if m.tick.inMargin then m
  else
    let m := (List.range 128).foldl (feedSample c) m
    let m := publish (reload c m)
    { m with tick := { m.tick with inMargin := true } }

/-- QUIET_MARGIN_START: time moves to E. -/
def quietMargin (c : Cfg) (m : Mach) : Mach := margin c (tickTo m.tick.limit m)

/-! ### The boundary (R24, R298 to R300) -/

/-- Unfinished admitted layers of a real-time queue, in the order of admission. -/
def overrunOf (q : Queue) : List (Nat × Desc) :=
  if !q.ctx.rt then []
  else (q.descs.filter fun d => d.2.phase == 2 && d.2.isRun).mergeSort fun a b => a.2.order ≤ b.2.order

/-- Drop or carry one overrun layer (R299, R300). -/
def overrunLayer (q : Nat) (m : Mach) (d : Nat) : Mach :=
  match descGet m q d with
  | none => m
  | some x =>
    if x.drop || x.carried ≠ 0 then
      stopLayer q d stTickOverrun m.tick.count false ((groupOf m q d).foldl (fun m p => descUpd p.1 p.2 (fun z => { z with dropped := true }) m) m)
    else descUpd q d (fun y => { y with carried := 1 }) m

/-- Report and treat the overrun work of one queue. -/
def overrunQueue (c : Cfg) (m : Mach) (q : Nat) : Mach :=
  match qGet m q with
  | none => m
  | some y =>
    match overrunOf y with
    | [] => m
    | x :: r =>
      let m := post c evTickOverrun [q, x.2.layer, m.tick.count] m
      let m := { m with ledger := mmap (fun _ e => if e.queue = some q then { e with overruns := satInc 32 e.overruns } else e) m.ledger }
      ((x :: r).map (·.1)).foldl (overrunLayer q) m

/-- A tile-command the layer still has to issue, or may have to, exceeds what a tick leaves (R22, R244). -/
def neverIssues (lim : Nat) (x : Desc) : Bool :=
  if x.alt then x.next ≠ x.altTiles && lim < x.altWcet else (x.next < x.tiles && lim < x.wcet) || (x.altTiles ≠ 0 && lim < x.altWcet)

/-- A queue's ledger entry counts a refusal, and the entry's number (R285, R469). -/
def countRefusal (q : Nat) (m : Mach) : Nat × Mach :=
  let e := ((entryOf m q).map (·.1)).getD 0xFFFF
  (e, { m with ledger := mupd m.ledger e fun x => { x with refusals := satInc 32 x.refusals } })

/-- One layer is tested again: a presented one completes, an admitted one issues nothing more and completes when its running tile-commands have
drained; a merge group is judged by its first member (R22). -/
def retestOne (lim q d : Nat) (m : Mach) : Mach :=
  match descGet m q d with
  | none => m
  | some x =>
    if !x.isRun || x.cancelled then m
    else if x.phase = 1 && lim < max x.wcet x.altWcet then refuseAdm q d m
    else if x.phase = 2 && neverIssues lim x && (x.alt || (groupOf m q d).headD (q, d) = (q, d)) then
      let r := countRefusal q m
      stopMembers (if x.alt then [(q, d)] else groupOf m q d) stAdmissionRefused r.1 false r.2
    else m

/-- At the first full boundary after a reconfiguration, every admitted layer is tested again (R22). -/
def wcetRetest (m : Mach) : Mach :=
  let lim := (m.tick.cfg.period - m.tick.cfg.quiet) * 1000
  m.queues.foldl (fun m p => p.2.descs.foldl (fun m d => retestOne lim p.1 d.1 m) m) m

/-- The boundary's effects at time `b`; `count` is the count it reaches (R24, R284, R288, R298, R423, R424, R440). -/
def boundaryAt (c : Cfg) (b : Nat) (next : Option Nat) (count : Nat) (m : Mach) : Mach :=
  let m := tickTo b (margin c m)
  let wasPartial := m.tick.partialTick
  let m := if m.power.lowDuty < 16 then post c evPowerCapLimiting [m.power.lowDuty] m else m
  let m := { m with tick := { m.tick with
    count := count % 2 ^ 64, partialTick := false, base := b, nextB := next
    limit := b + (m.tick.cfg.period - m.tick.cfg.quiet) * 1000, inMargin := false, reloaded := false, outRise := some b
    t0 := if m.tick.cfg.src = 1 || (m.tick.cfg.src = 0 && wasPartial) then b else m.tick.t0 } }
  let m := (m.tick.feeds.map (·.1)).foldl (feedLatch c) m
  let m := (m.queues.map (·.1)).foldl (overrunQueue c) m
  let m := ledgerBoundary m.tick.count m
  let m := if wasPartial then wcetRetest m else m
  let m := match m.st.trimWait with
    | some t => { m with st := { m.st with trim := t, trimSeq := abSeq m.store.trimRec, trimWait := none } }
    | none => m
  let m := telemReset { m with sched := { m.sched with rot := (m.sched.rot + 1) % max 1 m.cores.length } }
  let m := send .tickOut m
  if roleOf c = 2 then
    (List.range 16).foldl (fun m e =>
      if e ≠ 0 then
        frameTo e 7 (toLe 8 m.tick.count ++ toLe 4 m.tick.cfg.period ++ toLe 4 m.tick.cfg.quiet ++ toLe 8 m.tick.t0 ++ toLe 8 0) m
      else m) m
  else m

/-- A boundary counted from this one. -/
def boundary (c : Cfg) (b : Nat) (next : Option Nat) (m : Mach) : Mach := boundaryAt c b next (m.tick.count + 1) m

/-- P in ns. -/
def pNs (m : Mach) : Nat := m.tick.cfg.period * 1000
def qNs (m : Mach) : Nat := m.tick.cfg.quiet * 1000

/-- The engine's own boundary: the internal timer's, or one made while the source is lost (R283). -/
def internalBoundary (c : Cfg) (m : Mach) : Mach :=
  match m.tick.nextB with
  | none => m
  | some b => if m.tick.cfg.src = 0 || m.tick.sourceLost then boundary c b (some (b + pNs m)) m else m

/-- The latest boundary time an edge may have: b + P + Q (R281, R283). -/
def edgeEnd (m : Mach) : Nat := m.tick.base + pNs m + qNs m

/-- A boundary made when no edge came, with TICK_MISSED (R283). -/
def missed (c : Cfg) (m : Mach) : Mach :=
  let m := boundary c (edgeEnd m) none m
  post c evTickMissed [m.tick.count] m

/-- Boundaries missed before a time. -/
def missedTo (c : Cfg) (bt : Nat) : Nat → Mach → Mach
  | 0, m => m
  | n + 1, m => if edgeEnd m < bt then missedTo c bt n (missed c m) else m

/-- A rising edge of tick_in, judged 80 ns later (R281, R283, R440). -/
def tickInEdge (t : Nat) (c : Cfg) (m : Mach) : Mach :=
  if m.tick.cfg.src ≠ 1 then tickTo t m
  else
    let bt := t + 80
    let m := missedTo c bt ((bt - m.tick.base) / max 1 (pNs m + qNs m) + 1) m
    let first := if m.tick.partialTick then m.tick.base + qNs m else m.tick.limit
    if bt < first then post c evTickEarly [m.tick.count] (tickTo bt m) else boundary c bt none m

/-- TICK_MISSED. -/
def tickMissed (c : Cfg) (m : Mach) : Mach := if m.tick.cfg.src = 1 then missed c m else m

/-- The tick count a source boundary reaches: a member's follows the master's last TICK frame (R384). -/
def sourceCount (bt : Nat) (m : Mach) : Nat :=
  match m.casc.tickRx with
  | some (rx, k) => if m.tick.cfg.src = 2 then (if rx ≤ bt then k + roundDiv (bt - rx) (pNs m) else k) else m.tick.count + 1
  | none => m.tick.count + 1

/-- A time of the source's series T0 + k·P (R283; both time bases are the engine's, log 26). -/
def onSeries (t : Nat) (m : Mach) : Bool := m.tick.t0 ≤ t && (t - m.tick.t0) % max 1 (pNs m) == 0

/-- A boundary of the cascade master's or PTM's series (R283): while the source is lost, only one within Q of an own
boundary returns to it; near the last own boundary it only moves the series (DEDUCED, log 33). -/
def sourceBoundary (t : Nat) (c : Cfg) (m : Mach) : Mach :=
  if m.tick.cfg.src < 2 || !onSeries t m then tickTo t m
  else if !m.tick.sourceLost then
    if t < m.tick.limit then tickTo t m else boundaryAt c t (some (t + pNs m)) (sourceCount t m) m
  else
    let back (m : Mach) : Mach := { m with tick := { m.tick with sourceLost := false } }
    if m.tick.nextB.any fun b => b ≤ t + qNs m && t ≤ b + qNs m then
      boundaryAt c t (some (t + pNs m)) (sourceCount t m) (back m)
    else if m.tick.base ≤ t && t ≤ m.tick.base + qNs m then
      tickTo t { back m with tick := { (back m).tick with nextB := some (t + pNs m) } }
    else tickTo t m

/-- The source is lost (R283, R385): under source 2 when the gPTP offset was above 1 µs for 4 intervals, or no TICK frame
came for 2 periods. -/
def sourceLost (t : Nat) (c : Cfg) (m : Mach) : Mach :=
  let m := tickTo t m
  let far := m.links.any fun l => l.peers.any fun p =>
    p.timePath && 4 ≤ p.offsets.length && (p.offsets.take 4).all fun o => decide (o < -1000 ∨ 1000 < o)
  let silent := (m.casc.tickRx).all fun r => r.1 + 2 * pNs m ≤ m.now
  if m.tick.cfg.src < 2 || m.tick.sourceLost || (m.tick.cfg.src = 2 && !far && !silent) then m
  else
    let m := { m with tick := { m.tick with
      sourceLost := true, nextB := if m.tick.partialTick then m.tick.nextB else some (m.tick.base + pNs m) } }
    post c evTickSourceLost [m.tick.cfg.src, m.tick.count] m

def execInternalTimerBoundary (s : State) : Host.Outcome State Fault Refusal := s.runM internalBoundary
def execTickInEdge (t : Nat) (s : State) : Host.Outcome State Fault Refusal := s.runM (tickInEdge t)
def execTickMissed (s : State) : Host.Outcome State Fault Refusal := s.runM tickMissed
def execSourceBoundary (t : Nat) (s : State) : Host.Outcome State Fault Refusal := s.runM (sourceBoundary t)
def execTickSourceLost (t : Nat) (s : State) : Host.Outcome State Fault Refusal := s.runM (sourceLost t)
def execQuietMarginStart (s : State) : Host.Outcome State Fault Refusal := s.runM quietMargin

end Sys2Proof.Machine
end

