-- ==== Sys2Proof/Machine/Cascade.lean ====
section
/-! DEFINITION. The cascade: tick, admission, management and image frames, and the cascade commands (R370, R371, R373, R377,
R384, R386, R387, R404, R466). -/

namespace Sys2Proof.Machine

/-! ### TICK (R384) -/

/-- Whether a frame was taken in sequence: the expected number moved on. -/
def tookFrame (port i : Nat) (old new : Mach) : Bool :=
  (peerGet new port i).map (·.expSeq) ≠ (peerGet old port i).map (·.expSeq)

/-- The series of source boundaries starts from another T0 (R281, R283). -/
def moveSeries (t0 : Nat) (m : Mach) : Mach :=
  let p := m.tick.cfg.period * 1000
  let q := m.tick.cfg.quiet * 1000
  let b := firstAt t0 p (if m.tick.partialTick then m.tick.base + q else m.tick.limit)
  { m with tick := { m.tick with
      t0 := t0
      nextB := if m.tick.sourceLost then m.tick.nextB else some b
      limit := if m.tick.partialTick && !m.tick.sourceLost then b - q else m.tick.limit } }

/-- A TICK frame: a member keeps the master's T0 and, with source 2, takes the master's settings; a change of P or Q is a reconfiguration
(R281, R384, R458). -/
def tickFrame (port i : Nat) (h : KHead) (count p q t0 t : Nat) (d : Dev) : Dev :=
  let m := frameRx port i 7 h (h.len == 32) t (fun _ m => m) d.cfg d.m
  let n : TickCfg := { d.cfg.tick with period := p, quiet := q }
  if !tookFrame port i d.m m || roleOf d.cfg ≠ 1 || (peerGet m port i).bind (·.engine) ≠ some 0 then { d with m := m }
  else
    let m := { m with casc := { m.casc with tickRx := some (m.now, count), tickT0 := some t0 } }
    if d.cfg.tick.src ≠ 2 || !tickOk n then { d with m := m }
    else if p ≠ d.cfg.tick.period || q ≠ d.cfg.tick.quiet then { cfg := { d.cfg with tick := n }, m := reconfigure n t0 m }
    else { d with m := if t0 = m.tick.t0 then m else moveSeries t0 m }

/-! ### LEDGER (R386) -/

/-- Terms of a member's entries in the master's ledger. -/
def memberTerms (l : Map LedgerE) (e : Nat) : List Terms := activeTerms (l.filter fun p => p.1 / 4096 == e)

/-- The test for a member over its cores and RT_SHARE, with the cascade's P and Q. A member that has told nothing counts
as the master's grade with share 0 (DESIGN CHOICE, log 38). -/
def memberOk (c : Cfg) (m : Mach) (e : Nat) (l : Map LedgerE) : Bool :=
  demandOf (memberTerms l e) ≤ reservedOf ((mget m.casc.shares e).getD c.strap.cores) m.tick.cfg.period m.tick.cfg.quiet
    ((mget m.casc.shares (16 + e)).getD 0)

/-- The master drops a member's entries in descending number until the test passes. -/
def memberDrop (c : Cfg) (e : Nat) (m : Mach) : Mach :=
  m.casc.memberLedger.reverse.foldl (fun m p =>
    if p.1 / 4096 ≠ e || memberOk c m e m.casc.memberLedger then m
    else { m with casc := { m.casc with memberLedger := mupd m.casc.memberLedger p.1 fun x => { x with dropped := true } } }) m

/-- A request of a member at the master. -/
def ledgerReq (c : Cfg) (e op entry req : Nat) (body : List Byte) (m : Mach) : Mach :=
  let key := 4096 * e + entry
  let answer (st : Nat) (m : Mach) : Mach :=
    frameTo e 8 (toLe 1 5 ++ toLe 1 st ++ toLe 2 entry ++ toLe 4 req ++ toLe 24 0) m
  match op with
  | 0 =>
    let t := termsOf body
    if termsBad body then answer stMalformed m
    else if 4096 ≤ entry || termsRange t then answer stParamRange m
    else
      let l := mset m.casc.memberLedger key (entryWith t)
      if memberOk c m e l then answer stOk { m with casc := { m.casc with memberLedger := l } } else answer stAdmissionRefused m
  | 1 => answer stOk { m with casc := { m.casc with memberLedger := mdel m.casc.memberLedger key } }
  | 2 => memberDrop c e { m with casc := { m.casc with shares := mset m.casc.shares (16 + e) (min 64 (leAt body 0 1)) } }
  | 3 =>
    let sh := (List.range 4).foldl (fun s p => mset s (64 + 4 * e + p) (min 64 (leAt body p 1))) m.casc.shares
    { m with casc := { m.casc with shares := sh } }
  | _ => memberDrop c e { m with casc := { m.casc with shares := mset m.casc.shares e (leAt body 0 1) } }

/-- The master's answer at the member, applied at its next reload (R386). -/
def ledgerAnswer (c : Cfg) (st req : Nat) (m : Mach) : Mach :=
  match mget m.casc.requests req with
  | none => m
  | some r =>
    let m := { m with casc := { m.casc with requests := mdel m.casc.requests req } }
    if st ≠ stOk || r.body = [] then respond c r.cmd st [] m
    else
      let t := termsOf r.body
      if mhas m.ledger r.arg then
        respond c r.cmd stOk (toLe 1 1) { m with ledger := mupd m.ledger r.arg fun x => { x with proposal := some t } }
      else respond c r.cmd stOk (toLe 1 0)
        { m with ledger := mset m.ledger r.arg { entryWith t with dropped := true, proposal := some t } }

def ledgerFrame (port i : Nat) (h : KHead) (op st entry req : Nat) (body : List Byte) (t : Nat) (c : Cfg) (m : Mach) : Mach :=
  frameRx port i 8 h (h.len == 32 && body.length == 24 && op ≤ 5 && (op == 5 || st == 0)) t (fun p m =>
    if op = 5 then (if roleOf c = 1 && p.engine = some 0 then ledgerAnswer c st req m else m)
    else if roleOf c = 2 then ledgerReq c (p.engine.getD 0xF) op entry req body m
    else m) c m

/-! ### MANAGE (R371, R466) -/

/-- The body of a request grows; `some` when it is whole. -/
def assemble (key bytes offset : Nat) (body : List Byte) (m : Mach) : Mach × Option (List Byte) :=
  let b := (if offset = 0 then [] else (mget m.casc.asm key).getD []) ++ body
  if b.length ≠ offset + body.length then ({ m with casc := { m.casc with asm := mdel m.casc.asm key } }, none)
  else if b.length = bytes then ({ m with casc := { m.casc with asm := mdel m.casc.asm key } }, some b)
  else ({ m with casc := { m.casc with asm := mset m.casc.asm key b } }, none)

/-- A relayed command joins those in progress as a domain-0 command, in arrival order. -/
def relayed (c : Cfg) (req : Nat) (b : List Byte) (m : Mach) : Mach :=
  let k : Cmd := { bytes := b.take 64, phase := 0, seq := m.rings.nextCmd, start := m.now, arg := 0, relay := some req, areaBytes := b.drop 64 }
  let m := { m with rings := { m.rings with cmds := mset m.rings.cmds k.seq k, nextCmd := m.rings.nextCmd + 1 } }
  if headerBad k then respond c k.seq stMalformed [] m else m

/-- A member's event in the master's ring, tagged with its engine number (R371). -/
def memberEvent (c : Cfg) (e : Nat) (b : List Byte) (m : Mach) : Mach :=
  if evtFree m ≤ owed m || m.boot.state ≠ bsRunning then { m with rings := { m.rings with lost := satInc 32 m.rings.lost } }
  else putEvent c (b.take 2 ++ toLe 1 (e % 16 + if m.rings.evtTail < 4096 then 128 else 0) ++ (b.drop 3).take 5
    ++ toLe 8 m.rings.seq ++ (b.drop 16).take 48) m

/-- The end of a relayed request at the master: a command's result returns behind its entry, register values from the start
of the argument area (DEDUCED, log 38). -/
def memberAnswer (c : Cfg) (kind req : Nat) (b : List Byte) (m : Mach) : Mach :=
  match mget m.casc.requests req with
  | none => m
  | some r =>
    let m := { m with casc := { m.casc with requests := mdel m.casc.requests req } }
    match mget m.rings.cmds r.cmd with
    | none => m
    | some k =>
      if kind = 4 then respond c r.cmd stOk [] (engPut k.argAddr b m)
      else
        let m := if (b.drop 64) = [] then m else engPut (k.argAddr + (if r.kind = 3 then 0 else 64)) (b.drop 64) m
        respond c r.cmd (leAt b 24 1) ((b.drop 32).take 32) m

/-- A whole body that changes no setting. -/
def managed (c : Cfg) (e kind req : Nat) (b : List Byte) (m : Mach) : Mach :=
  match kind with
  | 0 => if roleOf c = 1 && e = 0 then relayed c req b m else m
  | 2 => if roleOf c = 2 then memberEvent c e b m else m
  | 3 => m
  | _ => if roleOf c = 2 then memberAnswer c kind req b m else m

/-- Registers a list may not name (R466). -/
def listBarred (off : Nat) : Bool := off = 0x20 || off = 0x1000 || off = 0x8000 || off = 0x5000

/-- Apply a register list (R8, R466): the values read so far and the status. -/
def regList : Nat → List Byte → List Byte → Dev → Dev × Nat × List Byte
  | 0, _, vs, d => (d, stOk, vs)
  | n + 1, l, vs, d =>
    if l = [] then (d, stOk, vs)
    else
      let off := leAt l 0 4 % 2 ^ 31
      let w := leAt l 4 1
      if !(w = 4 || w = 8) || off % w ≠ 0 || 2 ^ 20 ≤ off || leAt l 5 3 ≠ 0 then (d, stMalformed, vs)
      else if listBarred (off - off % 8) then (d, stPermission, vs)
      else if 2 ^ 31 ≤ leAt l 0 4 then regList n (l.drop 16) vs (writeBar0 off w (leAt l 8 8) d.m.now d)
      else regList n (l.drop 16) (vs ++ toLe 8 (readBar0 d off w)) d

/-- A whole register list at a member. -/
def registerList (req : Nat) (b : List Byte) (d : Dev) : Dev :=
  let r := regList 64 b [] d
  if r.2.1 = stOk then { r.1 with m := manageTo 0 4 req r.2.2 r.1.m }
  else { r.1 with m := manageTo 0 1 req (evtEntry r.1.m 1 0 1 0 r.2.1 0x705 [] ++ r.2.2) r.1.m }

/-- A MANAGE frame. -/
def manageFrame (port i : Nat) (h : KHead) (kind req bytes offset : Nat) (body : List Byte) (t : Nat) (d : Dev) : Dev :=
  let ok := h.len == 16 + body.length && h.len ≤ 8192 && kind ≤ 4 && offset + body.length ≤ bytes
  let m := frameRx port i 9 h ok t (fun _ m => m) d.cfg d.m
  if !tookFrame port i d.m m then { d with m := m }
  else
    let e := ((peerGet m port i).bind (·.engine)).getD 0xF
    match assemble (2 ^ 40 * e + 2 ^ 32 * kind + req) bytes offset body m with
    | (m, none) => { d with m := m }
    | (m, some b) =>
      if kind = 3 then
        if roleOf d.cfg = 1 && e = 0 then registerList req b { d with m := m } else { d with m := m }
      else { d with m := managed d.cfg e kind req b m }

/-! ### IMAGE (R373, R404) -/

/-- The member's image is whole: it boots, or enters RECOVERY; the driver's load beside it goes on (R404). -/
def imageDone (c : Cfg) (m : Mach) : Mach :=
  let img := m.casc.image
  let m := { m with casc := { m.casc with image := [] } }
  if imageReason m.boot.minEpoch img = 0 then startRunning c (img.take 512) (img.drop 512) (assignBoot m)
  else if m.boot.source = 3 && m.boot.state = bsLoading then m
  else bootState bsRecovery { m with boot := { m.boot with loading := false } }

/-- An IMAGE frame: the master answers a request with its running image; a booting member takes bytes in order. -/
def imageFrame (port i : Nat) (h : KHead) (offset total : Nat) (data : List Byte) (t : Nat) (c : Cfg) (m : Mach) : Mach :=
  frameRx port i 0xA h (h.len == 16 + data.length && h.len ≤ 8192) t (fun p m =>
    if roleOf c = 2 then
      if total ≠ 0 || data ≠ [] then m
      else
        let img := m.boot.image
        (List.range (cdiv (img.length - offset) 8176)).foldl (fun m k =>
          let o := offset + 8176 * k
          framePeer port i 0xA (toLe 4 o ++ toLe 4 img.length ++ toLe 8 0 ++ (img.drop o).take 8176) m) m
    else if p.engine ≠ some 0 || !takesImage m
        || offset ≠ m.casc.image.length then m
    else
      let m := { m with casc := { m.casc with image := m.casc.image ++ data } }
      if total ≤ m.casc.image.length then imageDone c m else m) c m

/-! ### Commands -/

/-- The checks of cascadeRoster. -/
def cascadeRosterChecks : Cfg → Mach → Cmd → List (Bool × Nat) :=
  fun c m k =>
      let n := k.argN 0x1C 1
      let b := areaBytes m k (64 * n)
      [((List.range (min n 15)).any (fun i => !allZero ((b.drop (64 * i + 0x34)).take 12)), stMalformed),
       (k.argN 0x18 4 = 0 || n = 0 || 15 < n, stParamRange), (roleOf c ≠ 2, stPermission)]

/-- CASCADE_ROSTER (R370). -/
def cascadeRoster (id : Nat) : Cfg → Mach → Mach :=
  cmdRow 0x700 id (fun k => 64 * k.argN 0x1C 1)
    cascadeRosterChecks
    fun c k m =>
      let n := k.argN 0x1C 1
      let b := areaBytes m k (64 * n)
      respond c id stOk [] { m with casc := { m.casc with
        group := k.argN 0x18 4
        roster := (List.range n).map fun i => (leNat ((b.drop (64 * i)).take 48), leAt b (64 * i + 0x30) 4) } }

/-- The checks of cascadeTrust. -/
def cascadeTrustChecks : Cfg → Mach → Cmd → List (Bool × Nat) :=
  fun _ m k => [(!allZero ((areaBytes m k 64).drop 0x34), stMalformed), (k.argN 0x18 4 = 0, stParamRange)]

/-- CASCADE_TRUST (R370): the record is written to the store. -/
def cascadeTrust (id : Nat) : Cfg → Mach → Mach :=
  storeRow 0x701 id (fun _ => 64)
    cascadeTrustChecks
    (fun _ k m =>
      { storeStart id 2 (toLe 4 (k.argN 0x18 4) ++ (areaBytes m k 64).take 52) m with
        store := { m.store with busy := some id, trustRec := abErase m.store.trustRec } })

/-- A ledger entry of any engine of the cascade, when admitted. -/
def cascEntry (m : Mach) (e n : Nat) : Option LedgerE :=
  (if e = 0 then mget m.ledger n else mget m.casc.memberLedger (4096 * e + n)).filter fun x => !x.dropped

/-- The entries and port uses a CASCADE_JOB names. DESIGN CHOICE (log 38): a port use falls in the phase of the job's first entry on its engine. -/
def jobOf (m : Mach) (k : Cmd) : Job :=
  let ne := k.argN 0x1A 1
  let b := areaBytes m k (4 * ne + 16 * k.argN 0x1B 1)
  let es := (List.range ne).map fun i => (leAt b (4 * i) 4 % 16, bits (leAt b (4 * i) 4) 16 12)
  { mode := k.argN 0x18 1, divisor := k.argN 0x19 1, entries := es
    uses := (List.range (k.argN 0x1B 1)).map fun i =>
      let o := 4 * ne + 16 * i
      let e := leAt b o 1
      { engine := e, port := leAt b (o + 1) 1, peer := leAt b (o + 2) 1, bytes := leAt b (o + 8) 8
        phase := ((es.find? fun x => x.1 == e).bind fun x => (cascEntry m x.1 x.2).map (·.terms.phase)).getD 0 } }

/-- Bytes a set of jobs sends on a port, in the worst phase of each divisor (R387). -/
def portDemand (js : List Job) (e p : Nat) : Nat :=
  ((List.range 65).map fun d => ((List.range d).map fun r =>
    (((js.filter (·.divisor == d)).flatMap (·.uses)).filter fun u => u.engine == e && u.port == p && u.phase == r).foldl
      (fun a u => a + u.bytes) 0).foldl max 0).foldl (· + ·) 0

/-- The test of R387 for one port. -/
def portOk (c : Cfg) (m : Mach) (js : List Job) (e p : Nat) : Bool :=
  let share := if e = 0 then ((c.links[p]?).map (·.rtShare)).getD 0 else (mget m.casc.shares (64 + 4 * e + p)).getD 32
  portDemand js e p ≤ 49000 * (m.tick.cfg.period - m.tick.cfg.quiet) * share / 64

/-- The mode's rule (R387). -/
def modeOk (m : Mach) (j : Job) : Bool :=
  let ts := j.entries.filterMap fun e => (cascEntry m e.1 e.2).map (·.terms)
  ts.length == j.entries.length &&
    match j.mode with
    | 0 => ts.all fun t => t.divisor == j.divisor && t.phase == (ts.headD ⟨0, 0, 0, 0, 0, 0⟩).phase
    | 1 => ts.all fun t => t.divisor == j.divisor
    | _ => j.uses.isEmpty

def jobChecks (c : Cfg) (m : Mach) (k : Cmd) : List (Bool × Nat) :=
  let ne := k.argN 0x1A 1
  let nu := k.argN 0x1B 1
  let b := areaBytes m k (4 * ne + 16 * nu)
  let j := jobOf m k
  [((List.range (min ne 64)).any (fun i => bits (leAt b (4 * i) 4) 4 12 ≠ 0 || bits (leAt b (4 * i) 4) 28 4 ≠ 0)
      || (List.range (min nu 64)).any (fun i => leAt b (4 * ne + 16 * i + 3) 5 ≠ 0), stMalformed),
   (2 < j.mode || j.divisor = 0 || 64 < j.divisor || ne = 0 || 64 < ne || 64 < nu
      || j.uses.any (fun u => 16 ≤ u.engine || 4 ≤ u.port || 16 ≤ u.peer), stParamRange),
   (roleOf c ≠ 2, stPermission),
   (!modeOk m j || !(j.uses.all fun u => portOk c m (j :: m.casc.jobs.map (·.2)) u.engine u.port), stAdmissionRefused)]

/-- CASCADE_JOB (R387). -/
def cascadeJob (id : Nat) : Cfg → Mach → Mach :=
  cmdRow 0x702 id (fun k => 4 * k.argN 0x1A 1 + 16 * k.argN 0x1B 1) jobChecks fun c k m =>
    let n := m.casc.nextJob
    respond c id stOk (toLe 4 n) { m with casc := { m.casc with jobs := mset m.casc.jobs n (jobOf m k), nextJob := n + 1 } }

/-- The quotas of a port's receive bindings (R377). -/
def quotaSum (m : Mach) (port : Nat) : Nat :=
  (m.casc.binds.filter fun b => b.2.recv && b.2.port == port).foldl (fun a b => a + b.2.quota) 0

/-- The checks of remoteBind. -/
def remoteBindChecks : Cfg → Mach → Cmd → List (Bool × Nat) :=
  fun _ m k =>
      let recv := k.argN 0x1C 1 = 1
      let quota := k.argN 0x24 2
      [(2 ^ 20 ≤ k.argN 0x18 4 || 1 < k.argN 0x1C 1 || 3 < k.argN 0x1D 1 || 15 < k.argN 0x1E 1 || 2 ^ 20 ≤ k.argN 0x20 4
          || (recv && (quota < 32 || 16384 < quota || 16384 < quotaSum m (k.argN 0x1D 1) + quota)), stParamRange),
       ((qGet m (k.argN 0x18 4)).isNone, stPermission), (16384 ≤ m.casc.binds.length, stBindResources)]

/-- REMOTE_BIND (R377, R380). -/
def remoteBind (id : Nat) : Cfg → Mach → Mach :=
  cmdRow 0x703 id (fun _ => 0)
    remoteBindChecks
    fun c k m =>
      let recv := k.argN 0x1C 1 = 1
      let b : Bind := { q := k.argN 0x18 4, recv := recv, port := k.argN 0x1D 1, engine := k.argN 0x1E 1, remote := k.argN 0x20 4
                        quota := if recv then k.argN 0x24 2 else 0 }
      let i := mfree m.casc.binds 0
      let m := { m with casc := { m.casc with binds := mset m.casc.binds i b } }
      respond c id stOk (toLe 2 i) (if recv then creditBack b b.quota m else m)

/-- The checks of remoteUnbind. -/
def remoteUnbindChecks : Cfg → Mach → Cmd → List (Bool × Nat) :=
  fun _ m k => [(16384 ≤ k.argN 0x18 2, stParamRange), (!mhas m.casc.binds (k.argN 0x18 2), stPermission)]

/-- REMOTE_UNBIND: the binding's parked data is discarded, and its credits return (R381). -/
def remoteUnbind (id : Nat) : Cfg → Mach → Mach :=
  cmdRow 0x704 id (fun _ => 0)
    remoteUnbindChecks
    fun c k m =>
      let i := k.argN 0x18 2
      let ps := mfilter (fun _ l => l ≠ []) (mmap (fun _ l => l.filter fun f => f.bind != i) m.casc.parked)
      let m := match mget m.casc.binds i with | some b => if b.recv then creditBack b b.used m else m | none => m
      respond c id stOk [] { m with casc := { m.casc with binds := mdel m.casc.binds i, parked := ps } }

/-- The checks of memberCommand. -/
def memberCommandChecks : Cfg → Mach → Cmd → List (Bool × Nat) :=
  fun c _ k =>
      [(k.argN 0x18 1 = 0 || 15 < k.argN 0x18 1 || 1 < k.argN 0x19 1 || (k.argN 0x19 1 = 1 && 64 < k.argN 0x1A 1), stParamRange),
       (roleOf c ≠ 2, stPermission)]

/-- MEMBER_COMMAND (R371, R466). A member that cannot be reached answers LINK_LOST (DESIGN CHOICE, log 38). -/
def memberCommand (id : Nat) : Cfg → Mach → Mach :=
  cmdRow 0x705 id (fun k => if k.argN 0x19 1 = 1 then 16 * k.argN 0x1A 1 else 8192)
    memberCommandChecks
    fun c k m =>
      let e := k.argN 0x18 1
      let isList := k.argN 0x19 1 = 1
      if (peerOf m e).isNone then respond c id stLinkLost [] m
      else
        let r := m.casc.nextReq
        let kind := if isList then 3 else 0
        let m := underWay id r { m with casc := { m.casc with
          nextReq := r + 1, requests := mset m.casc.requests r ⟨e, kind, id, 0, []⟩ } }
        manageTo e kind r (areaBytes m k (if isList then 16 * k.argN 0x1A 1 else 8192)) m

def execTickFrame (port peer : Nat) (h : KHead) (count p q t0 t : Nat) (s : State) : Host.Outcome State Fault Refusal :=
  s.run (tickFrame port peer h count p q t0 t)
def execLedgerFrame (port peer : Nat) (h : KHead) (op status entry req : Nat) (body : List Byte) (t : Nat) (s : State) :
    Host.Outcome State Fault Refusal := s.runM (ledgerFrame port peer h op status entry req body t)
def execManageFrame (port peer : Nat) (h : KHead) (kind req bytes offset : Nat) (body : List Byte) (t : Nat) (s : State) :
    Host.Outcome State Fault Refusal := s.run (manageFrame port peer h kind req bytes offset body t)
def execImageFrame (port peer : Nat) (h : KHead) (offset total : Nat) (data : List Byte) (t : Nat) (s : State) :
    Host.Outcome State Fault Refusal := s.runM (imageFrame port peer h offset total data t)
def execCascadeRoster (id : Nat) (s : State) : Host.Outcome State Fault Refusal := s.runM (cascadeRoster id)
def execCascadeTrust (id : Nat) (s : State) : Host.Outcome State Fault Refusal := s.runM (cascadeTrust id)
def execCascadeJob (id : Nat) (s : State) : Host.Outcome State Fault Refusal := s.runM (cascadeJob id)
def execRemoteBind (id : Nat) (s : State) : Host.Outcome State Fault Refusal := s.runM (remoteBind id)
def execRemoteUnbind (id : Nat) (s : State) : Host.Outcome State Fault Refusal := s.runM (remoteUnbind id)
def execMemberCommand (id : Nat) (s : State) : Host.Outcome State Fault Refusal := s.runM (memberCommand id)

end Sys2Proof.Machine
end

