-- ==== Sys2Proof/Machine/HostMem.lean ====
section
/-! DEFINITION. Host windows: the host-translation cache, ATS and page requests, and the front end's own reads and
writes through a domain's tables (R304, R313, R314, R318, R327, R349). -/

namespace Sys2Proof.Machine

/-! ### Time that does not count (R196, R302, R411) -/

/-- Sixteenths of a core's cycles that droop and the cap hold (R411; log 34: the larger of the two). -/
def leftOut (m : Mach) (x : Core) : Nat := max (if x.regs.droop then 8 else 0) (16 - m.power.duty)

/-- A core waits for its host-port requests held for retry and for nothing else: none of its own requests is under way (R302, R337; log 46). -/
def heldOnly (m : Mach) (k : Nat) : Bool :=
  (!m.hp.l0 || !m.hp.bme) && (hpAll m).any (·.core == some k) && m.hp.sent.all (fun r => r.core != some k || r.kind == 0)
    && m.arb.waiting.all (fun r => r.who != k || r.host.isSome) && m.arb.tags.all (·.2.who != k)

/-- Bring a core's count of left-out time up to the present (R196, R302, R411; requests held for retry count as the only thing
a tile-command waits for, log 46). -/
def settleTime (k : Nat) (m : Mach) : Mach :=
  let gang := (((m.cores[k]?).bind (·.tc)).map (·.gang)).getD 0
  let halted := (m.cores.zipIdx.any fun p => p.1.halts != [] && (p.2 == k || (gang ≠ 0 && p.1.tc.any (·.gang == gang)))) || heldOnly m k
  { m with cores := lupd m.cores k fun x => { x with tc := x.tc.map fun t =>
      { t with halted := t.halted + (m.now - t.mark) * (if halted then 16 else leftOut m x) / 16, mark := m.now } } }

/-- The same for every core. -/
def settleAll (m : Mach) : Mach := (List.range m.cores.length).foldl (fun m k => settleTime k m) m

/-! ### Host pages -/

/-- The 4 KiB host page of a host virtual address. -/
def hostPage (a : Nat) : Nat := a / 4096

/-- A cached host translation that allows an access. -/
def hostFind (m : Mach) (pasid page : Nat) (wr : Bool) : Option HostE :=
  m.xl.host.find? fun e => e.pasid == pasid && e.page == page && (if wr then e.wr else e.rd)

/-- Sixteen ways in each of 1,024 sets, the least recently used replaced (R313; the set index is a choice, log 14). -/
def hostPut (e : HostE) (l : List HostE) : List HostE :=
  let l := l.filter fun x => !(x.pasid == e.pasid && x.page == e.page)
  let same := l.filter fun x => x.page % 1024 == e.page % 1024
  let l := if same.length < 16 then l else l.filter fun x => some x ≠ same.getLast?
  (e :: l).take 16384

/-- What a host address resolves to at 4 KiB grain: a translated address, a wait, a failed page, or a lost host. -/
inductive HostRes where
  | ready (phys : Nat)
  | wait
  | failed
  | lost
  deriving DecidableEq, Repr

/-- A page request already outstanding. -/
def prgFind (m : Mach) (pasid page : Nat) : Option Nat := (m.xl.prg.find? fun r => r.2.pasid == pasid && r.2.page == page).map (·.1)

/-- The stream a waiter stands for: its core, unit and direction. -/
def Waiter.stream (w : Waiter) : Option (Nat × Nat × Bool) := w.halt.map fun h => (h.1, h.2.unit, h.2.writing)

/-- Whether work already waits. -/
def waitsIn (w : Waiter) (l : List Waiter) : Bool := l.any fun x => x.q == w.q && x.stream == w.stream

/-- Put a halt record on its core; time up to now is not left out (R193, R196). -/
def putHalt (prg : Option Nat) (w : Waiter) (m : Mach) : Mach :=
  match w.halt with
  | none => m
  | some (k, h) => { m with cores := lupd m.cores k fun x =>
      { x with halts := x.halts.filter (fun y => !(y.unit == h.unit && y.writing == h.writing)) ++ [{ h with prg := prg }] } }

/-- A stream joins a page request: it halts, and time counts up to now (R196). -/
def joinHalt (prg : Option Nat) (w : Waiter) (m : Mach) : Mach := if w.halt.isSome then putHalt prg w (settleAll m) else m

/-- An ATS Translation Request joins the outbound queue, and is held there while it cannot be sent (R313, R337, R342). -/
def askAts (pasid page : Nat) (wr : Bool) (ws : List Waiter) (m : Mach) : Mach :=
  hpPut { hpReq 5 (4096 * page) with va := pasid, deadline := m.now }
    { m with xl := { m.xl with ats := m.xl.ats ++ [⟨pasid, page, wr, none, ws⟩] } }

/-- The first free page-request number (R314). -/
def prgFree (m : Mach) : Option Nat := let n := mfree m.xl.prg 0; if n < 512 then some n else none

/-- A page request joins the outbound queue, or waits until a number is free; its waiters halt (R193, R314). None is sent that nothing waits
for. -/
def pageRequest (c : Cfg) (r : PrgReq) (m : Mach) : Mach :=
  let m := settleAll m
  if r.waiters = [] then m else
  match prgFree m with
  | none => r.waiters.foldl (fun m w => putHalt none w m) { m with xl := { m.xl with stalled := m.xl.stalled ++ [r] } }
  | some n =>
    let m := hpPut { hpReq 6 n with deadline := m.now } { m with xl := { m.xl with prg := mset m.xl.prg n r } }
    let m := r.waiters.foldl (fun m w => putHalt (some n) w m) m
    let w := r.waiters.headD ⟨0, 0, none⟩
    post c evHostPagePending [w.q, n, w.va] m

/-- Page requests that wait are made, in order, as far as numbers are free (R193). -/
def nextPageRequests (c : Cfg) (m : Mach) : Mach :=
  m.xl.stalled.foldl (fun m r => pageRequest c r m) { m with xl := { m.xl with stalled := [] } }

/-- Look a host address up; a miss sends an ATS request, or joins what is outstanding for the page, whatever its access (R193, R197, R313,
R314, R338). `h` is a stream's core and halt record. -/
def hostLook (q va pasid a : Nat) (wr : Bool) (h : Option (Nat × HaltRec)) (m : Mach) : Mach × HostRes :=
  let page := hostPage a
  let w : Waiter := ⟨q, va, h⟩
  if m.hp.lost then (m, .lost)
  else match hostFind m pasid page wr with
    | some e => ({ m with xl := { m.xl with host := e :: m.xl.host.erase e } }, .ready (e.phys / 4096 * 4096 + a % 4096))
    | none =>
      match m.xl.failed.find? fun r => r.pasid == pasid && r.page == page && r.q == q with
      | some r => ({ m with xl := { m.xl with failed := m.xl.failed.erase r } }, .failed)
      | none =>
        match prgFind m pasid page with
        | some n =>
          if waitsIn w (((mget m.xl.prg n).map (·.waiters)).getD []) then (m, .wait)
          else (joinHalt (some n) w { m with xl := { m.xl with prg := mupd m.xl.prg n fun r => { r with waiters := r.waiters ++ [w] } } }, .wait)
        | none =>
          let alike (r : PrgReq) : Bool := r.pasid == pasid && r.page == page
          let asked (r : AtsReq) : Bool := r.pasid == pasid && r.page == page
          match m.xl.stalled.find? alike with
          | some r =>
            if waitsIn w r.waiters then (m, .wait)
            else
              let l := m.xl.stalled.map fun r => if alike r then { r with waiters := r.waiters ++ [w] } else r
              (joinHalt none w { m with xl := { m.xl with stalled := l } }, .wait)
          | none =>
            match m.xl.ats.find? asked with
            | some r =>
              if waitsIn w r.waiters then (m, .wait)
              else
                let l := m.xl.ats.map fun r => if asked r then { r with waiters := r.waiters ++ [w] } else r
                ({ m with xl := { m.xl with ats := l } }, .wait)
            | none =>
              (askAts pasid page wr [w] m, .wait)

/-- The outcome of an access the front end makes for a queue: it went through, waits for the host, killed the context,
failed with PERMISSION, or met a lost host. -/
inductive Fe (α : Type) where
  | ok (v : α)
  | wait
  | killed
  | failed
  | lost
  deriving DecidableEq, Repr

/-- Who asks, as a host request names it: 2 the front end, 3 the Sorting Office. -/
def askerOf (who : Nat) : Nat := if who = 33 then 3 else 2

/-- Lines of the host-line cache that hold a domain's copy serve the front end (R206, R327). -/
def feCached (d : Nat) (lines : List Nat) (m : Mach) : Mach :=
  (m.depot.lines.filter fun x => x.shared && x.dom == d && lines.contains (x.addr / 64) && !m.hp.feLines.contains (x.addr / 64)).foldl (fun m x =>
    { m with depot := { m.depot with lines := x :: m.depot.lines.erase x }
             hp := { m.hp with feData := bwrite m.hp.feData x.addr x.data, feLines := x.addr / 64 :: m.hp.feLines } }) m

/-- The bytes of a translated host line range, read for domain `d` by the front end or the Sorting Office. They are requested line by line, the
Sorting Office's within its share, and used once; a line whose fill a core of the domain has out is not asked for again: on CXL.cache from a page marked cacheable, where a peer's page fails, otherwise on CXL.io
(R12, R208, R327, R335). `va` is the address the translation was made for (R316). -/
def feHostBytes (who q d : Nat) (cacheable : Bool) (phys va n : Nat) (m : Mach) : Mach × Fe (List Byte) :=
  let lines := (List.range ((phys + n - 1) / 64 + 1 - phys / 64)).map (phys / 64 + ·)
  let m := if cacheable then feCached d lines m else m
  let missing := lines.filter fun l => !m.hp.feLines.contains l
  if cacheable && fnOf phys ≠ 0 then (m, .failed)
  else if missing = [] then
    ({ m with hp := { m.hp with feLines := m.hp.feLines.filter fun l => !lines.contains l } }, .ok (bread m.hp.feData phys n))
  else
    let asked (l : Nat) : Bool := (hpAll m ++ m.hp.sent).any fun r => r.addr == 64 * l && ((r.kind == 1 && 2 ≤ r.who) || (r.kind == 3 && r.dom == d))
    (missing.foldl (fun m l =>
      if asked l || (who == 33 && decide (8192 ≤ officeCount m)) then m
      else hpPut { hpReq (if cacheable then 3 else 1) (64 * l) with dom := d, len := 64, q := q, va := va, deadline := m.now + outsideDelay who, who := askerOf who } m) m, .wait)

/-- Read `n` bytes that lie in one 4 KiB page for a queue's domain `d`; `who` the requester of R187. -/
def feReadPart (c : Cfg) (who q d va n : Nat) (m : Mach) : Mach × Fe (List Byte) :=
  if n = 0 then (m, .ok [])
  else match translate c m none d va .read with
    | .fault st l => (faultQueue c q st l va m, .killed)
    | .held a => (walkWaits a m, .wait)
    | .dev a =>
      let m := xlateFill c none d va m
      match readChk m.mem d a n with
      | .perm => (faultQueue c q stPermission 0 va m, .killed)
      | .integrity p => (integrityKill c q p m, .killed)
      | .ok =>
        let m := backInval a n true m
        if (hostHolds m a n) ≠ [] then (m, .wait) else (outsideReqs c who d q false a n m, .ok (bread m.mem.cells a n))
    | .host p a cacheable =>
      let m := xlateFill c none d va m
      match hostLook q va p a false none m with
      | (m, .ready phys) => feHostBytes who q d cacheable phys va n m
      | (m, .wait) => (m, .wait)
      | (m, .failed) => (m, .failed)
      | (m, .lost) => (m, .lost)

/-- Host lines a larger read has used stay until all of it has arrived. -/
def keepLines (m0 m : Mach) : Mach := { m with hp := { m.hp with feLines := (m0.hp.feLines ++ m.hp.feLines).eraseDups } }

/-- A read followed by another: host lines of the first serve the second too, and stay while it waits. -/
def feThen {α β : Type} (m0 : Mach) (r : Mach × Fe α) (f : α → Mach → Mach × Fe β) : Mach × Fe β :=
  match r with
  | (m, .ok v) =>
    let used := m0.hp.feLines.filter fun l => !m.hp.feLines.contains l
    match f v (if used = [] then m else keepLines m0 m) with
    | (m', .ok w) => (if used = [] then m' else { m' with hp := { m'.hp with feLines := m'.hp.feLines.filter fun l => !used.contains l } }, .ok w)
    | (m', x) => (keepLines m0 m', x)
  | (m, .wait) => (m, .wait)
  | (m, .killed) => (m, .killed)
  | (m, .failed) => (m, .failed)
  | (m, .lost) => (m, .lost)

/-- Read `n` bytes page by page; `fuel` pages remain. -/
def feReadN (c : Cfg) (who q d : Nat) : Nat → Nat → Nat → Mach → Mach × Fe (List Byte)
  | 0, _, _, m => (m, .ok [])
  | fuel + 1, va, n, m =>
    if n = 0 then (m, .ok [])
    else
      let k := min n (4096 - va % 4096)
      feThen m (feReadPart c who q d va k m) fun l m1 =>
        match feReadN c who q d fuel (va + k) (n - k) m1 with
        | (m2, .ok r) => (m2, .ok (l ++ r))
        | x => x

/-- Read `n` bytes at a virtual address of a queue's domain. -/
def feRead (c : Cfg) (q d va n : Nat) (m : Mach) : Mach × Fe (List Byte) := feReadN c 32 q d (n / 4096 + 2) va n m

/-- The Sorting Office's read of `n` bytes at a virtual address of a queue's domain. -/
def soFetch (c : Cfg) (q d va n : Nat) (m : Mach) : Mach × Fe (List Byte) := feReadN c 33 q d (n / 4096 + 2) va n m

/-- Translate one page of an address that is held with a descriptor (R318). -/
def holdPage (c : Cfg) (q d va : Nat) (a : Acc) (m : Mach) : Mach × Fe Held :=
  match translate c m none d va a with
  | .fault st l => (faultQueue c q st l va m, .killed)
  | .held a => (walkWaits a m, .wait)
  | .dev p => (xlateFill c none d va m, .ok ⟨va, p, none, 0, false, (pagePerm c m d va).1, (pagePerm c m d va).2⟩)
  | .host pasid ha _ =>
    let pp := pagePerm c m d va
    let m := xlateFill c none d va m
    match hostLook q va pasid ha (a != .read) none m with
    | (m, .ready phys) => (m, .ok ⟨va, phys, some phys, hostPage ha, false, pp.1, pp.2⟩)
    | (m, .wait) => (m, .wait)
    | (m, .failed) => (m, .failed)
    | (m, .lost) => (m, .lost)

/-- Hold each 4 KiB page of a list of ranges. -/
def holdAll (c : Cfg) (q d : Nat) : List (Nat × Acc) → Mach → Mach × Fe (List Held)
  | [], m => (m, .ok [])
  | (va, a) :: r, m =>
    match holdPage c q d va a m with
    | (m, .ok h) =>
      match holdAll c q d r m with
      | (m, .ok hs) => (m, .ok (h :: hs))
      | x => x
    | (m, .wait) => (m, .wait)
    | (m, .killed) => (m, .killed)
    | (m, .failed) => (m, .failed)
    | (m, .lost) => (m, .lost)

/-- The 4 KiB pages of a range, each with its first byte in the range. -/
def pagesOf (va n : Nat) : List Nat :=
  (List.range ((va + n - 1) / 4096 + 1 - va / 4096)).map fun i => if i = 0 then va else (va / 4096 + i) * 4096

/-- The held translation that covers an address. -/
def heldFind (hs : List Held) (va : Nat) : Option Held := hs.find? fun h => h.va / 4096 == va / 4096

/-- Write bytes of one page through a held translation (R319, R349); `put` is how device memory takes them. -/
def heldPut (put : Nat → List Byte → Mach → Mach) (c : Cfg) (who q d desc : Nat) (hs : List Held) (va : Nat) (l : List Byte) (m : Mach) : Mach × Fe Unit :=
  match heldFind hs va with
  | none => (m, .ok ())
  | some h =>
    if h.void then (killQueue c q stFaultDeviceTable va va m, .killed)
    else if !h.wr then (faultQueue c q stPermission 0 va m, .killed)
    else
      let off := va % 4096
      match h.host with
      | some p =>
        if m.hp.lost then (m, .lost)
        else (hpPut { hpReq 0 (p / 4096 * 4096 + off) with data := l, len := l.length, q := q, va := va, desc := desc, deadline := m.now + outsideDelay who, who := askerOf who } m, .ok ())
      | none =>
        let a := h.phys / 4096 * 4096 + off
        if inImage m a l.length then (m, .failed)
        else match writeChk m.mem d a l.length with
          | .perm => (faultQueue c q stPermission 0 va m, .killed)
          | .integrity p => (integrityKill c q p m, .killed)
          | .ok => (outsideReqs c who d q true a l.length (put a l (awaitLines q desc a l.length m)), .ok ())

/-- A write straight to memory. -/
def heldWrite (c : Cfg) (who q d desc : Nat) (hs : List Held) (va : Nat) (l : List Byte) (m : Mach) : Mach × Fe Unit :=
  heldPut engPut c who q d desc hs va l m

end Sys2Proof.Machine
end

