-- ==== Sys2Proof/Machine/Descriptor.lean ====
section
/-! DEFINITION. What a descriptor must hold (R8, R233 to R235, R256 to R264, R304): the offset of its first offending
field, and the fields of its units. -/

namespace Sys2Proof.Machine

/-- The offset of the first check that fails. -/
def firstBad (l : List (Bool × Nat)) : Option Nat := (l.find? (·.1)).map (·.2)

/-- Some byte of a range is not zero. -/
def nonZero (b : List Byte) (off n : Nat) : Bool := ((b.drop off).take n).any (· != 0)

/-- An address field with bits [63:52] set (R304). -/
def highVa (b : List Byte) (off : Nat) : Bool := decide (2 ^ 52 ≤ leAt b off 8)

/-! ### Units of a RUN (R258, R259) -/

def inlineLen (b : List Byte) : Nat := leAt b 0xD 1
def inlineSlot (b : List Byte) : Option Nat := if 128 ≤ leAt b 0xE 1 then some (leAt b 0xE 1 % 64) else none
def returnSlot (b : List Byte) : Option Nat := if 128 ≤ leAt b 0xF 1 then some (leAt b 0xF 1 % 64) else none
def paramVa (b : List Byte) : Nat := leAt b 0x10 8
def returnVa (b : List Byte) : Nat := leAt b 0x18 8
def returnLen (b : List Byte) : Nat := leAt b 0x20 2
def hasUnit (b : List Byte) (i : Nat) : Bool := bits (leAt b 0xC 1) i 1 == 1
/-- Offset of unit i, 0 feed, 1 history, 2 pool, 3 the inline data. -/
def unitOff (b : List Byte) (i : Nat) : Nat := 0x40 + 64 * ((List.range i).filter (hasUnit b)).length

/-- The valid feed bindings: feed and slot (R226). -/
def feedBinds (b : List Byte) : List (Nat × Nat) :=
  if !hasUnit b 0 then []
  else (List.range 4).filterMap fun k =>
    let v := leAt b (unitOff b 0 + 4 * k) 4
    if 2 ^ 31 ≤ v then some (v % 128, bits v 8 6) else none

/-- A history binding (R234): address, slot, flags. -/
def histBinds (b : List Byte) : List (Nat × Nat × Nat) :=
  if !hasUnit b 1 then []
  else (List.range 2).filterMap fun k =>
    let o := unitOff b 1 + 16 * k
    if 128 ≤ leAt b (o + 9) 1 then some (leAt b o 8, leAt b (o + 8) 1 % 64, leAt b (o + 9) 1) else none

/-- The pool binding: pool, entries, map address (R229). -/
def poolBind (b : List Byte) : Option (Nat × Nat × Nat) :=
  if !hasUnit b 2 then none
  else some (leAt b (unitOff b 2) 2 % 4096, leAt b (unitOff b 2 + 2) 2 + 1, leAt b (unitOff b 2 + 8) 8)

/-- The parameter slots a RUN writes (R260). -/
def slotsWritten (b : List Byte) : List Nat :=
  (inlineSlot b).toList ++ (returnSlot b).toList ++ (feedBinds b).map (·.2)
    ++ ((histBinds b).filter fun h => h.2.2 % 4 ≠ 0).map fun h => h.2.1

/-! ### Checks by type -/

/-- The header (R256) and EXT by type (R261). -/
def headerChecks (b : List Byte) : List (Bool × Nat) :=
  let ty := leAt b 0 1
  [(ty == 0 || 6 < ty, 0), (2 ≤ leAt b 1 1, 1), (4 ≤ leAt b 2 2, 2),
   (ty = 4 && leAt b 1 1 % 2 = 0, 1), (ty ≠ 1 && ty ≠ 4 && leAt b 1 1 % 2 = 1, 1)]

def feedChecks (b : List Byte) : List (Bool × Nat) :=
  let o := unitOff b 0
  if !hasUnit b 0 then []
  else (List.range 4).map (fun k =>
      let v := leAt b (o + 4 * k) 4
      ((bits v 7 1 ≠ 0 || bits v 14 17 ≠ 0, o + 4 * k) : Bool × Nat)) ++ [(nonZero b (o + 0x10) 48, o + 0x10)]

/-- Reserved fields of the history unit, then its other fields. -/
def histReserved (b : List Byte) : List (Bool × Nat) :=
  let o := unitOff b 1
  if !hasUnit b 1 then []
  else (List.range 2).flatMap (fun k =>
      let a := o + 16 * k
      ([(64 ≤ leAt b (a + 8) 1, a + 8), (bits (leAt b (a + 9) 1) 4 3 ≠ 0, a + 9), (nonZero b (a + 10) 6, a + 10)] : List (Bool × Nat)))
    ++ [(nonZero b (o + 0x20) 32, o + 0x20)]
def histChecks (b : List Byte) : List (Bool × Nat) :=
  let o := unitOff b 1
  if !hasUnit b 1 then []
  else (List.range 2).flatMap fun k =>
      let a := o + 16 * k
      let f := leAt b (a + 9) 1
      ([(128 ≤ f && (highVa b a || leAt b a 8 % 64 ≠ 0), a), (128 ≤ f && f % 4 = 3, a + 9),
       (128 ≤ f && f % 4 = 0 && leAt b (a + 8) 1 ≠ 0, a + 9)] : List (Bool × Nat))

/-- Reserved fields of the pool unit, then its other fields. -/
def poolReserved (b : List Byte) : List (Bool × Nat) :=
  let o := unitOff b 2
  if !hasUnit b 2 then [] else [(4096 ≤ leAt b o 2, o), (nonZero b (o + 4) 4, o + 4), (nonZero b (o + 16) 48, o + 16)]
def poolChecks (b : List Byte) : List (Bool × Nat) :=
  let o := unitOff b 2
  if !hasUnit b 2 then [] else [(4096 ≤ leAt b (o + 2) 2, o + 2), (highVa b (o + 8) || leAt b (o + 8) 8 % 4 ≠ 0, o + 8)]

/-- A RUN (R258, R259, R264); `mbx` marks a mailbox's STANDING. -/
def runChecks (path : Nat) (mbx : Bool) (b : List Byte) : List (Bool × Nat) :=
  let ext := leAt b 1 1 % 2 = 1
  let body := if ext then 3 else 1
  let n := inlineLen b
  let slots := slotsWritten b
  ([(8 ≤ leAt b 0xC 1, 0xC), (bits (leAt b 0xE 1) 6 1 ≠ 0, 0xE), (bits (leAt b 0xF 1) 6 1 ≠ 0, 0xF), (nonZero b 0x22 30, 0x22)]
    : List (Bool × Nat))
    ++ feedChecks b ++ histReserved b ++ poolReserved b ++ histChecks b ++ poolChecks b ++
  ([((if ext then 192 else 64) < n, 0xD), (highVa b 0x10 || paramVa b % 64 ≠ 0, 0x10), (highVa b 0x18, 0x18),
   (if returnVa b = 0 then returnLen b ≠ 0 else returnLen b < 64 || 4096 < returnLen b || returnLen b % 64 ≠ 0, 0x20),
   (body < ((List.range 3).filter (hasUnit b)).length + cdiv n 64, 0xC),
   (n ≠ 0 && path ≠ 1, 0xD), ((inlineSlot b).isSome && path ≠ 1 && !mbx, 0xE), (n ≠ 0 && (inlineSlot b).isNone, 0xE),
   (slots.length ≠ slots.eraseDups.length, 0xE), (mbx && n ≠ 0, 0xD), (mbx && (inlineSlot b).isNone, 0xE)] : List (Bool × Nat))

def copyChecks (b : List Byte) : List (Bool × Nat) :=
  [(nonZero b 9 7, 9), (nonZero b 0x28 88, 0x28), (1 < leAt b 8 1, 8), (highVa b 0x10, 0x10), (highVa b 0x18, 0x18),
   (leAt b 8 1 = 0 && (leAt b 0x20 8 = 0 || 2 ^ 40 < leAt b 0x20 8), 0x20)]

def fenceChecks (b : List Byte) : List (Bool × Nat) :=
  [(bits (leAt b 8 4) 20 11 ≠ 0, 8), (nonZero b 0xC 4, 0xC), (nonZero b 0x18 104, 0x18)]

def enqTargetChecks (b : List Byte) : List (Bool × Nat) := [(2 ^ 20 ≤ leAt b 8 4, 8), (nonZero b 0xC 116, 0xC)]

def gatherChecks (b : List Byte) : List (Bool × Nat) :=
  let op := leAt b 8 1
  let df := leAt b 0xB 1
  [(4 ≤ leAt b 0xC 1, 0xC), (nonZero b 0xD 3, 0xD), (nonZero b 0x14 4, 0x14), (nonZero b 0x50 48, 0x50),
   (2 < op, 8), (3 < leAt b 9 1, 9), (63 < leAt b 0xA 1, 0xA),
   (!(df = 0xB || df = 0xC || (op = 0 && df = 0xA)), 0xB),
   (leAt b 0x10 4 = 0 || (leAt b 9 1 ≠ 0 && 65536 < leAt b 0x10 4), 0x10),
   (leAt b 9 1 ≠ 0 && highVa b 0x18, 0x18), (highVa b 0x20, 0x20), (highVa b 0x28, 0x28), (highVa b 0x30, 0x30),
   (bits (leAt b 0xC 1) 1 1 = 1 && highVa b 0x40, 0x40), (bits (leAt b 0xC 1) 1 1 = 1 && highVa b 0x48, 0x48)]

def reshardChecks (b : List Byte) : List (Bool × Nat) :=
  [(nonZero b 0x29 7, 0x29), (leAt b 0xA 1 = 1 && nonZero b 0x47 1, 0x47), (leAt b 0xA 1 = 1 && nonZero b 0x4F 1, 0x4F), (nonZero b 0x50 48, 0x50), (3 < leAt b 8 1, 8), (3 < leAt b 9 1, 9), (1 < leAt b 0xA 1, 0xA),
   (leAt b 0xA 1 = 0 && highVa b 0x18, 0x18), (leAt b 0xA 1 = 1 && leAt b 0x46 1 = 0 && highVa b 0x30, 0x30),
   (leAt b 0xA 1 = 1 && leAt b 0x4E 1 = 0 && highVa b 0x38, 0x38)]

/-- The first offending field of a descriptor in the order of R256: header, reserved fields, fields of its type. A mailbox's STANDING
is a RUN without EXT (R264). -/
def descBad (path : Nat) (mbx : Bool) (b : List Byte) : Option Nat :=
  match firstBad (headerChecks b ++ ([(mbx && leAt b 0 1 ≠ 1, 0), (mbx && leAt b 1 1 % 2 = 1, 1)] : List (Bool × Nat))) with
  | some o => some o
  | none =>
    firstBad (match leAt b 0 1 with
      | 1 => runChecks path mbx b
      | 2 => copyChecks b
      | 3 => fenceChecks b
      | 4 => enqTargetChecks b
      | 5 => reshardChecks b
      | _ => gatherChecks b)

/-- A fetched descriptor before its checks, with what it takes from its queue's context (R248). -/
def desc0 (q : QCtx) (bytes : List Byte) (index : Nat) (now : Nat) : Desc :=
  { bytes := bytes, index := index, seq := none, landing := 0, cpl := q.cplTail, cplHeld := none, held := [], fetched := now
    phase := 0, presented := 0, order := 0, tick := 0, admitTick := 0, params := [], tiles := 0, wcet := 0, next := 0
    running := 0, alt := false, altTiles := 0, altWcet := 0, narrow := 0, killed := 0, monitor := 0, threshold := 2 ^ 32 - 1
    maxv := none, nan := false, status := none, cancelled := false, carried := 0, timeoutAct := q.killAct
    timeout := q.timeout, drop := q.drop, owed := 0, group := 0, so := false, gather := 0, enqs := [], record := none
    flushing := 0, fns := [], frames := [], irqVec := if q.msixEn then some q.vec else none, coal := q.coalesce, coalWin := q.coalWin
    weight := q.weight }

/-- The flags of a binding that writes its record: UPDATE or CLEAR (R234, R237, R310). -/
def recWrites (f : Nat) : Bool := bits f 2 1 == 1 || bits f 3 1 == 1

/-- The addresses held with a descriptor besides its completion entry (R263): landing area, return area, history
records; a record in a host window is judged when the layer is presented (R235). -/
def heldRanges (c : Cfg) (m : Mach) (q : QCtx) (x : Desc) : List (Nat × Acc) :=
  let b := x.bytes
  if !x.isRun then []
  else
    let land := if q.path = 1 then (pagesOf (q.aux + 256 * x.index) 256).map fun v => (v, Acc.write) else []
    let ret := if returnVa b = 0 then [] else (pagesOf (returnVa b) (returnLen b)).map fun v => (v, Acc.write)
    let hist := (histBinds b).flatMap fun h =>
      if onHost c m q.dom h.1 then [] else (pagesOf h.1 128).map fun v => (v, if recWrites h.2.2 then Acc.rw else Acc.read)
    let mbx := if x.seq.isSome then (pagesOf q.aux 768).map fun v => (v, Acc.rw) else []
    land ++ ret ++ hist ++ mbx

end Sys2Proof.Machine
end

