-- ==== Sys2Proof/Machine/Fetch.lean ====
section
/-! DEFINITION. Contexts as they are loaded, pigeonholes, feed indices, mailboxes, and the parts of a descriptor's fetch (R18, R224, R246, R247, R249, R251 to
R256, R263 to R267, R274, R318, R339, R345, R456). -/

namespace Sys2Proof.Machine

/-- Whether writes to a queue's pigeonhole or mailbox are taken: the tables are locked and its domain is not in
teardown (R364, R456). -/
def doorOpen (c : Cfg) (m : Mach) (q : Queue) : Bool := c.lockTables && (domE m q.ctx.dom).state ≠ 2

/-- A count in the form of bits [31:0] of R251. -/
def ringForm (n v : Nat) : Nat := (v / n) % 2 * 2 ^ 31 + v % n

/-- The 64 bytes of a context (R246). -/
def ctxBytes (q : QCtx) : List Byte :=
  let b2 (b : Bool) (i : Nat) : Nat := if b then 2 ^ i else 0
  let s := 2 ^ q.ringLog2
  let n := 2 ^ q.cplLog2
  toLe 8 q.ringBase ++ toLe 8 q.cplBase
    ++ toLe 4 (q.ringLog2 + q.cplLog2 * 32 + b2 q.rt 10 + q.path * 2048 + b2 q.coalesce 13 + b2 q.forwardable 14 + b2 q.killAct 15
        + b2 q.drop 16 + b2 q.feed 17 + b2 q.msixEn 18)
    ++ toLe 2 q.dom ++ toLe 2 q.vec ++ toLe 4 q.timeout ++ toLe 2 q.weight ++ toLe 2 q.coalWin ++ toLe 8 q.aux
    ++ toLe 4 (q.parcel + b2 q.bound 31) ++ toLe 2 q.mailbox ++ toLe 1 q.state ++ toLe 1 0
    ++ toLe 4 (ringForm s q.tail) ++ toLe 4 (ringForm s q.head) ++ toLe 4 (ringForm n q.cplTail) ++ toLe 4 (ringForm n q.cplHead)

/-- The cache of 8,192 contexts, least recently used first out: what goes is written back to the table (R246). -/
def ctxTouch (c : Cfg) (q : Nat) (m : Mach) : Mach :=
  let all := q :: m.ctxCache.erase q
  (all.drop 8192).foldl (fun m r => ((qGet m r).map fun y => engPut (c.tb.ctx + 64 * r) (ctxBytes y.ctx) m).getD m)
    { m with ctxCache := all.take 8192 }

/-- A queue's context and its domain's entry are loaded: a failed tag kills the queue, or every queue of the domain
(R246, R345). -/
def loadCtx (c : Cfg) (q d : Nat) (m : Mach) : Mach :=
  let a := c.tb.ctx + 64 * q
  let e := c.tb.dom + 256 * d
  if !m.ctxCache.contains q && (badIn m.mem a 64).isSome then integrityKill c q a m
  else if !m.domCache.contains d && (badIn m.mem e 256).isSome then
    post c evIntegrityFail [e, d] ((queuesOf m d).foldl (fun m r => killOne r stIntegrity e m) m)
  else
    let m := if m.ctxCache.contains q then m else outsideReqs c 32 0 q false a 64 m
    let m := if m.domCache.contains d then m else outsideReqs c 32 0 q false e 256 m
    ctxTouch c q (domTouch c d m)

/-- Load the context of a queue that exists. -/
def loadQueue (c : Cfg) (q : Nat) (m : Mach) : Mach := ((qGet m q).map fun y => loadCtx c q y.ctx.dom m).getD m

/-- An EMPTY queue with work becomes READY (R274). -/
def wake (q : Nat) (m : Mach) : Mach :=
  match qGet m q with
  | some x => if x.ctx.state = qsEmpty && workLeft m x then ctxUpd q (fun y => { y with state := qsReady }) m else m
  | none => m

/-- One write ignored, whole or in part (R250, R252). -/
def rejectOne (c : Cfg) (q : Nat) (m : Mach) : Mach := counterUpd c q (fun x => { x with rejects := satInc 16 x.rejects }) m

/-- A feed queue's producer index (R224). -/
def feedIndex (q width v : Nat) (c : Cfg) (m : Mach) : Mach :=
  match qGet m q with
  | none => m
  | some x =>
    if !x.ctx.feed || !doorOpen c m x then m
    else if width ≠ 8 || 2 ^ 32 ≤ v % 2 ^ 64 || 2 ^ 31 ≤ subMod (v % 2 ^ 64) x.feedIdx (2 ^ 32) then
      qUpd q (fun x => { x with feedRejects := satInc 32 x.feedRejects }) m
    else qUpd q (fun x => { x with feedIdx := v % 2 ^ 64 }) m

/-- A pigeonhole write of a queue with rings (R251, R252): the two halves are judged separately. -/
def pigeonhole (q width v : Nat) (c : Cfg) (m : Mach) : Mach :=
  let m := loadQueue c q m
  match qGet m q with
  | none => m
  | some x =>
    if x.ctx.feed then feedIndex q width v c m
    else if !doorOpen c m x then m
    else
      let v := v % 2 ^ 64
      let s := 2 ^ x.ctx.ringLog2
      let n := 2 ^ x.ctx.cplLog2
      if width ≠ 8 || bits v 16 15 ≠ 0 || bits v 48 15 ≠ 0 || s ≤ bits v 0 16 || n ≤ bits v 32 16 then rejectOne c q m
      else
        let tail := bits v 31 1 * s + bits v 0 16
        let head := bits v 63 1 * n + bits v 32 16
        let off := x.ctx.forwardable || x.ctx.state == qsKilled
        let tailOk := subMod x.ctx.tail x.ctx.head (2 * s) ≤ subMod tail x.ctx.head (2 * s) && subMod tail x.ctx.head (2 * s) ≤ s
        let headOk := subMod head x.ctx.cplHead (2 * n) ≤ subMod x.ctx.cplTail x.ctx.cplHead (2 * n)
        let m := ctxUpd q (fun y => { y with tail := if tailOk && !off then tail else y.tail
                                             cplHead := if headOk then head else y.cplHead }) m
        let m := if (tailOk || off) && headOk then m else rejectOne c q m
        wake q m

/-- An 8-byte read of a pigeonhole (R253). -/
def readPigeonhole (q : Nat) (m : Mach) : Nat :=
  match qGet m q with
  | none => 0
  | some x => ringForm (2 ^ x.ctx.ringLog2) x.ctx.head + x.ctx.state * 2 ^ 32

/-- Data bytes of a mailbox (R325): 1 to 64 bytes within one 64-byte block, below the trigger word. -/
def mailboxData (i off : Nat) (data : List Byte) (c : Cfg) (m : Mach) : Mach :=
  if !c.lockTables || 4096 ≤ i || data = [] || 64 < data.length || off / 64 ≠ (off + data.length - 1) / 64
      || 0xF8 < off + data.length then m
  else
    let b := (mget m.mbx i).getD {}
    { m with mbx := mset m.mbx i { b with data := bwrite b.data off data } }

/-- The queue bound to a mailbox. -/
def mbxQueue (m : Mach) (i : Nat) : Option Nat :=
  (m.queues.find? fun p => p.2.ctx.path == 2 && p.2.ctx.mailbox == i).map (·.1)

/-- An 8-byte read of a mailbox's trigger word (R265). -/
def readTrigger (i : Nat) (m : Mach) : Nat :=
  match mget m.mbx i with
  | none => 0
  | some b => b.seq + (if b.pending.isSome then 2 ^ 24 else 0) + (if b.flight.isSome then 2 ^ 25 else 0)

/-- Where landing `l` of a mailbox block lies (R264). -/
def landingVa (aux l : Nat) : Nat := aux + 0x100 * (l + 1)

/-- A trigger (R265 to R267): the data is copied to the landing no submission in flight uses, landing A when neither is in
use (DESIGN CHOICE, log 32). -/
def mailboxTrigger (i width v : Nat) (c : Cfg) (m : Mach) : Mach :=
  match mbxQueue m i with
  | none => m
  | some q =>
    let m := loadQueue c q m
    match qGet m q with
    | none => m
    | some x =>
      let v := v % 2 ^ 64
      let len := bits v 16 8
      if !doorOpen c m x || x.ctx.feed || width ≠ 8 || 2 ^ 24 ≤ v || 248 < len || x.ctx.state = qsKilled then m
      else
        let b := (mget m.mbx i).getD {}
        let land := match b.flight with | some l => 1 - l | none => (b.pending.map (·.2)).getD 0
        let va := landingVa x.ctx.aux land
        let l := bread b.data 0 len ++ List.replicate (256 - len) (0 : Byte)
        match translateNow c m x.ctx.dom va .write with
        | .fault st l => faultQueue c q st l va m
        | .held _ => m
        | .host _ _ _ => faultQueue c q stPermission 0 va m
        | .dev a =>
          let m := xlateFill c none x.ctx.dom va m
          match writeChk m.mem x.ctx.dom a 256 with
          | .perm => faultQueue c q stPermission 0 va m
          | .integrity p => integrityKill c q p m
          | .ok => if inImage m a 256 then faultQueue c q stPermission 0 va m else
            let m := engPut a l m
            let m := if b.pending.isSome then counterUpd c q (fun y => { y with replaced := satInc 16 y.replaced }) m else m
            wake q { m with mbx := mset m.mbx i { b with seq := v % 2 ^ 16, pending := some (v % 2 ^ 16, land) } }

/-! ### Fetch (R254 to R256, R263) -/

/-- Whether a queue may fetch at all (R254, R274, R408). -/
def mayFetch (m : Mach) (q : Queue) : Bool :=
  (q.ctx.state == qsReady || q.ctx.state == qsRunning) && !q.pausing && q.closing == 0 && !q.ctx.feed
    && (q.descs.filter fun d => d.2.phase < 4).length < 16 && m.power.fail == 0
    && subMod q.ctx.cplTail q.ctx.cplHead (2 * 2 ^ q.ctx.cplLog2) < 2 ^ q.ctx.cplLog2

/-- The completion entry's held translation (R263, R271 cause 3, R339). -/
def holdCpl (c : Cfg) (q : Nat) (x : Queue) (m : Mach) : Mach × Fe (Option Held) :=
  let va := cplAddr x x.ctx.cplTail
  match holdPage c q x.ctx.dom va .write m with
  | (m, .ok h) => (m, .ok (some h))
  | (m, .failed) => (m, .ok none)
  | (m, .lost) => (m, .ok (some ⟨va, 0, some 0, 0, true, false, true⟩))
  | (m, .wait) => (m, .wait)
  | (m, .killed) => (m, .killed)

/-- The feeds of a RUN at its fetch (R226). -/
def bindFrames (c : Cfg) (m : Mach) (d : Nat) (x : Desc) : List FeedBind :=
  if !x.isRun then []
  else (feedBinds x.bytes).map fun b =>
    match (mget m.tick.feeds b.1).bind fun f => f.cur.map fun l => (f, l) with
    | none => ⟨b.1, b.2, 0, 0, stPermission⟩
    | some (f, l) =>
      if leAt l 0xE 2 % 4096 ≠ d then ⟨b.1, b.2, 0, 0, stPermission⟩
      else if !f.latched then ⟨b.1, b.2, 0, 0, stEmptyOutput⟩
      else
        let frame := subMod (memNum m.mem (c.tb.feed + 64 * b.1 + 0x18) 4) 1 (2 ^ 32)
        ⟨b.1, b.2, frame, leAt l 0 8 + frame % leAt l 0xC 2 * leAt l 8 4, 0⟩

/-- A descriptor enters the queue: its completion entry is reserved, its copy is kept, the queue runs. -/
def enter (q : Nat) (x : Desc) (head : Nat) (m : Mach) : Mach :=
  qUpd q (fun y =>
    { y with ctx := { y.ctx with head := head, cplTail := (y.ctx.cplTail + 1) % (2 * 2 ^ y.ctx.cplLog2), state := qsRunning }
             nextId := y.nextId + 1, drained := false, descs := mset y.descs y.nextId x }) m

/-- Copy the inline bytes into the landing area and zero the rest (R260 step 2, R263). -/
def landInline (c : Cfg) (q d : Nat) (y : Queue) (x : Desc) (m : Mach) : Mach × Fe Unit :=
  if y.ctx.path = 1 && x.seq.isNone && (inlineSlot x.bytes).isSome then
    let n := inlineLen x.bytes
    let data := (x.bytes.drop (unitOff x.bytes 3)).take n
    let va := y.ctx.aux + 256 * x.index
    let l := data ++ List.replicate (256 - n) (0 : Byte)
    let k := min 256 (4096 - va % 4096)
    match heldWrite c 32 q y.ctx.dom d x.held va (l.take k) m with
    | (m, .ok _) => if k = 256 then (m, .ok ()) else heldWrite c 32 q y.ctx.dom d x.held (va + k) (l.drop k) m
    | r => r
  else (m, .ok ())

/-- The two stream descriptors of a COPY in MODE 1, kept behind the descriptor's own bytes (R262). -/
def copyStreams (c : Cfg) (q d : Nat) (x : Desc) (m : Mach) : Mach × Fe Desc :=
  if x.type ≠ 2 || leAt x.bytes 8 1 ≠ 1 then (m, .ok x)
  else feThen m (feRead c q d (leAt x.bytes 0x10 8) 128 m) fun a m1 =>
    feThen m1 (feRead c q d (leAt x.bytes 0x18 8) 128 m1) fun b m2 => (m2, .ok { x with bytes := x.bytes ++ a ++ b })

/-- IDLE_RESAMPLE (R18, R255): a queue that has gone idle samples its pigeonhole again. -/
def idleResample (q : Nat) (m : Mach) : Mach :=
  match qGet m q with
  | none => m
  | some y =>
    if !y.drained || y.descs ≠ [] || y.ctx.state ≠ qsRunning then m
    else qUpd q (fun z => { z with drained := false, ctx := { z.ctx with state := if workLeft m y then qsReady else qsEmpty } }) m

def execPigeonholeWrite (q width v : Nat) (s : State) : Host.Outcome State Fault Refusal := s.runM (pigeonhole q width v)
def execFeedIndexWrite (q width v : Nat) (s : State) : Host.Outcome State Fault Refusal := s.runM fun c m => feedIndex q width v c (loadQueue c q m)
def execMailboxDataWrite (i off : Nat) (data : List Byte) (s : State) : Host.Outcome State Fault Refusal :=
  s.runM (mailboxData i off data)
def execMailboxTrigger (i width v : Nat) (s : State) : Host.Outcome State Fault Refusal := s.runM (mailboxTrigger i width v)
def execIdleResample (q : Nat) (s : State) : Host.Outcome State Fault Refusal := s.runM fun _ => idleResample q

end Sys2Proof.Machine
end

