-- ==== Sys2Proof/Machine/Queues.lean ====
section
/-! DEFINITION. The queue commands (R246 to R250, R273, R274, R286). -/

namespace Sys2Proof.Machine

/-! ### Context images (R246, R247) -/

/-- The context a 64-byte image spells, in EMPTY, unbound, heads and tails 0. -/
def parseCtx (b : List Byte) (dom : Nat) : QCtx :=
  let cfg := leAt b 0x10 4
  { ringBase := leAt b 0 8, cplBase := leAt b 8 8, ringLog2 := bits cfg 0 5, cplLog2 := bits cfg 5 5, rt := bits cfg 10 1 == 1
    path := bits cfg 11 2, coalesce := bits cfg 13 1 == 1, forwardable := bits cfg 14 1 == 1, killAct := bits cfg 15 1 == 1
    drop := bits cfg 16 1 == 1, feed := bits cfg 17 1 == 1, msixEn := bits cfg 18 1 == 1, dom := dom
    vec := leAt b 0x16 2 % 2048, timeout := leAt b 0x18 4, weight := leAt b 0x1C 2, coalWin := leAt b 0x1E 2
    aux := leAt b 0x20 8, parcel := 0, bound := false, mailbox := leAt b 0x2C 2 % 4096, state := qsEmpty
    tail := 0, head := 0, cplTail := 0, cplHead := 0 }

/-- A reserved bit of an image is set (R247). -/
def imageBad (b : List Byte) : Bool :=
  leAt b 0x10 4 / 2 ^ 19 ≠ 0 || leAt b 0x16 2 / 2 ^ 11 ≠ 0 || leAt b 0x2C 2 / 2 ^ 12 ≠ 0 || leAt b 0x2F 1 ≠ 0

/-- A real-time queue may name a ledger entry: admitted, unbound or its own, of its domain (R286). -/
def entryFree (m : Mach) (q e d : Nat) : Bool :=
  match mget m.ledger e with
  | some l => !l.dropped && !l.retiring && l.terms.dom == d && (l.queue == none || l.queue == some q)
  | none => false

/-- A mailbox is taken, or its page belongs to another domain (R247). -/
def mailboxTaken (m : Mach) (q mb d : Nat) : Bool :=
  m.queues.any fun p => p.1 != q && p.2.ctx.path == 2 &&
    (p.2.ctx.mailbox == mb || (p.2.ctx.mailbox / 16 == mb / 16 && p.2.ctx.dom != d))

/-- A field of a context lies outside its range (R246, R247, R286); `led` asks for the ledger entry's conditions. -/
def ctxRange (m : Mach) (q : Nat) (x : QCtx) (led : Bool) : Bool :=
  x.ringBase % 4096 ≠ 0 || 2 ^ 52 ≤ x.ringBase || x.cplBase % 4096 ≠ 0 || 2 ^ 52 ≤ x.cplBase || (x.feed && x.cplBase ≠ 0)
    || x.ringLog2 < 4 || 16 < x.ringLog2 || x.cplLog2 < 4 || 16 < x.cplLog2 || x.path = 3
    || x.timeout = 0 || 60000000 < x.timeout || (!x.rt && x.weight = 0) || (led && x.rt && !entryFree m q x.weight x.dom)
    || 2 ^ 52 ≤ x.aux || (x.path = 0 && x.aux ≠ 0) || (x.path = 2 && (x.aux % 256 ≠ 0 || !x.rt || mailboxTaken m q x.mailbox x.dom))

/-- A start value in the form of R251 for a ring of 2^n entries. -/
def startBad (n v : Nat) : Bool := bits v 16 15 ≠ 0 || 2 ^ n ≤ bits v 0 16
def startCount (n v : Nat) : Nat := bits v 31 1 * 2 ^ n + bits v 0 16

/-- The largest DEPOT among a parcel's layers (R286). -/
def depotMax (p : Parcel) : Nat := (p.records.map lrDepot).foldl max 0

/-- Bind and unbind a ledger entry to a queue; DEPOT_RES is the largest DEPOT of the parcel the queue is bound to (R286). -/
def bindEntry (e q : Nat) (m : Mach) : Mach :=
  let need := match qGet m q with
    | some x => if x.ctx.bound && !x.orphan then ((mget m.parcels x.ctx.parcel).map depotMax).getD 0 else 0
    | none => 0
  { m with ledger := mupd m.ledger e fun l => { l with queue := some q, depotRes := need } }
def unbindEntries (q : Nat) (m : Mach) : Mach :=
  { m with ledger := mmap (fun _ l => if l.queue = some q then { l with queue := none, depotRes := 0 } else l) m.ledger }

/-- Checks of every queue command but QUEUE_CREATE: the queue's number, that it exists, and its domain (R247). -/
def queueChecks (m : Mach) (k : Cmd) : List (Bool × Nat) :=
  let q := k.argN 0x18 4
  [(2 ^ 20 ≤ q, stParamRange), ((qGet m q).all fun x => x.ctx.dom ≠ k.dom, stPermission)]

/-- A queue command's row: the context it names is loaded, where the command names a queue of its domain (R246), then the row. -/
def queueRow (op id : Nat) (area : Cmd → Nat) (chk : Cfg → Mach → Cmd → List (Bool × Nat)) (act : Cfg → Cmd → Mach → Mach)
    (c : Cfg) (m : Mach) : Mach :=
  let load (k : Cmd) (m : Mach) : Mach := if qDom m (k.argN 0x18 4) = k.dom then loadQueue c (k.argN 0x18 4) m else m
  cmdRow op id area chk act c (withCmd op id load m)

/-! ### Create, set, bind, query -/

def createChecks (m : Mach) (k : Cmd) : List (Bool × Nat) :=
  let q := k.argN 0x18 4
  let b := areaBytes m k 64
  let x := parseCtx b k.dom
  [(imageBad b, stMalformed), (2 ^ 20 ≤ q || ctxRange m q x true || startBad x.ringLog2 (k.argN 0x1C 4), stParamRange),
   ((qGet m q).isSome || (m.queues.any fun p => p.1 / 512 == q / 512 && p.2.ctx.dom != k.dom) || (domE m k.dom).state ≠ 1, stPermission)]

def queueCreate (id : Nat) : Cfg → Mach → Mach :=
  cmdRow 0x400 id (fun _ => 64) (fun _ => createChecks) fun c k m =>
    let q := k.argN 0x18 4
    let x := parseCtx (areaBytes m k 64) k.dom
    let s := startCount x.ringLog2 (k.argN 0x1C 4)
    let m := { m with queues := mset m.queues q { ctx := { x with tail := s, head := s } }
                      mem := { m.mem with bad := mdel (mdel m.mem.bad ((c.tb.cnt + 16 * q) / 64)) ((c.tb.ctx + 64 * q) / 64) } }
    respond c id stOk [] (mbxClear q true (if x.rt then bindEntry x.weight q m else m))

/-- The context after QUEUE_SET's mask has taken its fields from the image (R248). -/
def setCtx (mask start : Nat) (n o : QCtx) : QCtx :=
  let o := if bits mask 0 1 = 1 then
      let s := startCount n.ringLog2 start
      { o with ringBase := n.ringBase, ringLog2 := n.ringLog2, head := s, tail := s } else o
  let o := if bits mask 1 1 = 1 then { o with cplBase := n.cplBase, cplLog2 := n.cplLog2, cplTail := 0, cplHead := 0 } else o
  let o := if bits mask 2 1 = 1 then { o with rt := n.rt, weight := n.weight } else o
  let o := if bits mask 3 1 = 1 then { o with path := n.path, aux := n.aux, mailbox := n.mailbox } else o
  let o := if bits mask 4 1 = 1 then { o with coalesce := n.coalesce, coalWin := n.coalWin } else o
  let o := if bits mask 5 1 = 1 then { o with forwardable := n.forwardable } else o
  let o := if bits mask 6 1 = 1 then { o with timeout := n.timeout, killAct := n.killAct } else o
  let o := if bits mask 7 1 = 1 then { o with drop := n.drop } else o
  let o := if bits mask 8 1 = 1 then { o with msixEn := n.msixEn, vec := n.vec } else o
  if bits mask 9 1 = 1 then { o with weight := n.weight } else o

/-- The Depot units a domain holds or has reserved (R201). -/
def depotUsed (m : Mach) (d except : Nat) : Nat :=
  let own (r : Map Region) : Nat := ((r.filter fun p => p.2.dom == d).map fun p => p.2.units).foldl (· + ·) 0
  own m.depot.regions + own m.depot.layers
    + ((m.ledger.filter fun p => p.2.queue.isSome && p.2.queue ≠ some except && p.2.terms.dom == d).map fun p => cdiv p.2.depotRes 65536).foldl (· + ·) 0

/-- Region units a column group holds. -/
def groupCap (c : Cfg) : Nat := 128 - c.tb.partH - c.tb.partT

/-- Units in use in each group. -/
def groupUsed (m : Mach) : List Nat :=
  let all := (m.depot.regions ++ m.depot.layers).flatMap fun p => p.2.groups
  (List.range 8).map fun g => (all.filter (· = g)).length

/-- Free units. -/
def freeUnits (c : Cfg) (m : Mach) : Nat := 8 * groupCap c - (groupUsed m).foldl (· + ·) 0

/-- Units reserved for real-time queues and not held by their layers at present (R201). -/
def reservedUnits (m : Mach) (except : Option Nat) : Nat :=
  (m.ledger.map fun e =>
    match e.2.queue with
    | none => 0
    | some q =>
      if some q = except then 0
      else
        let held := ((m.depot.layers.filter fun l => l.1 % 2 ^ 20 == q).map fun l => l.2.units).foldl (· + ·) 0
        cdiv e.2.depotRes 65536 - held).foldl (· + ·) 0

/-- Too few units are free for a real-time queue's largest layer beside what is reserved for others (R201; log 49). -/
def unitsShort (c : Cfg) (m : Mach) (q n : Nat) : Bool :=
  let held := ((m.depot.layers.filter fun l => l.1 % 2 ^ 20 == q).map fun l => l.2.units).foldl (· + ·) 0
  freeUnits c m + held < reservedUnits m (some q) + n

/-- A parcel's largest layer would take a domain over its share limit, or finds too few units (R201). -/
def depotShort (c : Cfg) (m : Mach) (q h d : Nat) : Bool :=
  match mget m.parcels h with
  | none => false
  | some p => (domE m d).depotLimit < depotUsed m d q + cdiv (depotMax p) 65536 || unitsShort c m q (cdiv (depotMax p) 65536)

/-- The checks of QUEUE_SET; a bound queue that becomes real-time needs the units its layers reserve, as QUEUE_BIND does (R201, R248, R286). -/
def setChecks (c : Cfg) (m : Mach) (k : Cmd) : List (Bool × Nat) :=
  let q := k.argN 0x18 4
  let mask := k.argN 0x20 4
  let b := areaBytes m k 64
  queueChecks m k ++ [(2 ^ 10 ≤ mask || imageBad b, stMalformed)] ++
    match qGet m q with
    | none => []
    | some x =>
      let n := parseCtx b k.dom
      let y := setCtx mask (k.argN 0x1C 4) n x.ctx
      let quiet := (x.ctx.state = qsEmpty || x.ctx.state = qsHeld || x.ctx.state = qsPaused) && x.descs = []
      [(ctxRange m q y (bits mask 2 1 == 1) || (bits mask 0 1 = 1 && startBad n.ringLog2 (k.argN 0x1C 4)), stParamRange),
       (((mask % 16 ≠ 0 || bits mask 5 1 = 1) && !quiet) || (x.ctx.state = qsKilled && mask ≠ 0)
          || (bits mask 9 1 = 1 && (x.ctx.rt || bits mask 2 1 = 1)), stPermission),
       (bits mask 2 1 = 1 && n.rt && x.ctx.bound && depotShort c m q x.ctx.parcel k.dom, stBindResources)]

def queueSet (id : Nat) : Cfg → Mach → Mach :=
  queueRow 0x401 id (fun _ => 64) setChecks fun c k m =>
    let q := k.argN 0x18 4
    let mask := k.argN 0x20 4
    let n := parseCtx (areaBytes m k 64) k.dom
    let m := ctxUpd q (setCtx mask (k.argN 0x1C 4) n) m
    let m := if bits mask 2 1 = 1 then (if n.rt then bindEntry n.weight q (unbindEntries q m) else unbindEntries q m) else m
    respond c id stOk [] m

def bindChecks (c : Cfg) (m : Mach) (k : Cmd) : List (Bool × Nat) :=
  let q := k.argN 0x18 4
  queueChecks m k ++
    match mget m.parcels (k.argN 0x1C 2), qGet m q with
    | some p, some x =>
      [(p.dom ≠ k.dom || p.unbinding || x.ctx.state = qsKilled, stPermission),
       (x.ctx.rt && depotShort c m q (k.argN 0x1C 2) k.dom, stBindResources)]
    | none, _ => [(true, stPermission)]
    | _, none => []

/-- QUEUE_BIND (R248, R286). A queue may be bound in every state but KILLED (DEDUCED, log 31). -/
def queueBind (id : Nat) : Cfg → Mach → Mach :=
  queueRow 0x402 id (fun _ => 0) bindChecks fun c k m =>
    let q := k.argN 0x18 4
    let h := k.argN 0x1C 2
    let m := qUpd q (fun x => { x with orphan := false, ctx := { x.ctx with parcel := h, bound := true } }) m
    let need := ((mget m.parcels h).map depotMax).getD 0
    respond c id stOk [] { m with
      ledger := mmap (fun _ l => if l.queue = some q then { l with depotRes := need } else l) m.ledger }

/-- The counter entry (R250). -/
def counterBytes (x : Queue) : List Byte := toLe 8 x.jobs ++ toLe 4 (x.rejects + 2 ^ 16 * x.replaced) ++ toLe 4 0

def queueQuery (id : Nat) : Cfg → Mach → Mach :=
  queueRow 0x403 id (fun _ => 80) (fun _ => queueChecks) fun c k m =>
    match qGet m (k.argN 0x18 4) with
    | none => m
    | some x =>
      let b := ctxBytes x.ctx
      respond c id stOk (toLe 1 x.ctx.state ++ List.replicate 7 (0 : Byte) ++ toLe 8 x.jobs ++ (b.drop 0x34).take 4 ++ (b.drop 0x30).take 4)
        (putResult id k (b ++ counterBytes x) m)

/-! ### States (R274) -/

/-- The state a stopped queue returns to: RUNNING while a fetched descriptor has not completed (R273; DEDUCED, log 31). -/
def liveState (m : Mach) (x : Queue) : Nat := if x.descs ≠ [] then qsRunning else if workLeft m x then qsReady else qsEmpty

/-- QUEUE_PAUSE: fetching and issue stop at once. A queue already HELD, PAUSED or KILLED keeps its state (log 31). -/
def queuePause (id : Nat) : Cfg → Mach → Mach :=
  queueRow 0x404 id (fun _ => 0) (fun _ => queueChecks) fun c k m =>
    let q := k.argN 0x18 4
    match qGet m q with
    | none => m
    | some x =>
      if x.ctx.state = qsHeld || x.ctx.state = qsPaused || x.ctx.state = qsKilled then respond c id stOk [] m
      else underWay id q (qUpd q (fun y => { y with pausing := true }) m)

/-- Nothing a queue has issued is running: no tile-command, no Sorting Office operation (R274). -/
def issuedEnded (m : Mach) (q : Nat) : Bool :=
  !(m.cores.any fun c => c.tc.any fun t => t.q == q) && !(m.depot.ops.any fun o => o.q == q)

/-- Answer the commands of a code that wait for a queue. -/
def answerWaiting (c : Cfg) (op q : Nat) (m : Mach) : Mach :=
  ((m.rings.cmds.filter fun p => p.2.opcode == op && p.2.phase == 1 && p.2.arg == q).map (·.1)).foldl
    (fun m i => respond c i stOk [] m) m

/-- QUEUE_PAUSED: a pausing queue whose issued work has ended enters PAUSED; HELD and KILLED stand over it. -/
def queuePaused (q : Nat) (c : Cfg) (m : Mach) : Mach :=
  match qGet m q with
  | none => m
  | some x =>
    if !x.pausing || !issuedEnded m q then m
    else
      let m := qUpd q (fun y => { y with pausing := false, drained := false, ctx := { y.ctx with
        state := if y.ctx.state = qsHeld || y.ctx.state = qsKilled then y.ctx.state else qsPaused } }) m
      answerWaiting c 0x404 q (zeroBalance q m)

/-- Whether the parcel a queue is bound to has gone or is going (R173). -/
def parcelGone (m : Mach) (x : Queue) : Bool :=
  x.ctx.bound && (x.orphan || (mget m.parcels x.ctx.parcel).all fun p => p.unbinding)

/-- The checks of queueResume. -/
def queueResumeChecks : Cfg → Mach → Cmd → List (Bool × Nat) :=
  fun _ m k => queueChecks m k ++
      match qGet m (k.argN 0x18 4) with
      | some x => [(x.ctx.state ≠ qsPaused, stPermission), (parcelGone m x, stBindResources)]
      | none => []

def queueResume (id : Nat) : Cfg → Mach → Mach :=
  queueRow 0x405 id (fun _ => 0)
    queueResumeChecks
    fun c k m => respond c id stOk [] (qUpd (k.argN 0x18 4) (fun y => { y with ctx := { y.ctx with state := liveState m y } }) m)

/-- The checks of queueRelease. -/
def queueReleaseChecks : Cfg → Mach → Cmd → List (Bool × Nat) :=
  fun _ m k => queueChecks m k ++
      match qGet m (k.argN 0x18 4) with
      | some x => [(x.ctx.state ≠ qsHeld, stPermission)]
      | none => []

def queueRelease (id : Nat) : Cfg → Mach → Mach :=
  queueRow 0x406 id (fun _ => 0)
    queueReleaseChecks
    fun c k m => respond c id stOk [] (qUpd (k.argN 0x18 4) (fun y => { y with ctx := { y.ctx with state := liveState m y } }) m)

/-- The checks of queueReset. -/
def queueResetChecks : Cfg → Mach → Cmd → List (Bool × Nat) :=
  fun _ m k => queueChecks m k ++
      match qGet m (k.argN 0x18 4) with
      | some x => [(startBad x.ctx.ringLog2 (k.argN 0x1C 4), stParamRange),
                   (x.ctx.state ≠ qsHeld && x.ctx.state ≠ qsKilled, stPermission)]
      | none => []

/-- QUEUE_RESET begins: nothing more is fetched until the fetched descriptors' records are written. -/
def queueReset (id : Nat) : Cfg → Mach → Mach :=
  queueRow 0x407 id (fun _ => 0)
    queueResetChecks
    fun _ k m => underWay id (k.argN 0x18 4) (qUpd (k.argN 0x18 4) (fun y => { y with closing := 1 }) m)

/-- QUEUE_RESET_DONE: the new pointers are set and the queue is EMPTY; a counter entry whose tag failed is written afresh
(R250). -/
def queueResetDone (id : Nat) : Cfg → Mach → Mach :=
  fun c => withCmd2 0x407 id fun k m =>
    let q := k.argN 0x18 4
    match qGet m q with
    | none => respond c id stPermission [] m
    | some x =>
      if x.descs ≠ [] then m
      else
        let line := (c.tb.cnt + 16 * q) / 64
        let fresh := mhas m.mem.bad line || x.cntBad
        let s := startCount x.ctx.ringLog2 (k.argN 0x1C 4)
        let m := { m with mem := { m.mem with bad := mdel (mdel m.mem.bad line) ((c.tb.ctx + 64 * q) / 64) } }
        respond c id stOk [] <| mbxClear q true <| (qUpd q (fun y =>
          { y with ctx := { y.ctx with state := qsEmpty, head := s, tail := s, cplTail := 0, cplHead := 0 }
                   closing := 0, drained := false, pausing := false, cntBad := false, jobs := if fresh then 0 else y.jobs
                   rejects := if fresh then 0 else y.rejects, replaced := if fresh then 0 else y.replaced }) m)

/-- Take a queue away with everything it holds. -/
def removeQueue (q : Nat) (m : Mach) : Mach :=
  let m := mbxClear q true (dropParked q (unbindEntries q m))
  { m with queues := mdel m.queues q, depot := { m.depot with layers := mfilter (fun i _ => i % 2 ^ 20 ≠ q) m.depot.layers }
           ctxCache := m.ctxCache.filter (· ≠ q)
           sched := { m.sched with collector := m.sched.collector.filter fun e => e.q ≠ q } }

/-- A queue can be destroyed: it is not RUNNING, nothing it issued still runs, and every descriptor it fetched has its record
(R269; DEDUCED, log 31). -/
def canDestroy (m : Mach) (q : Nat) : Bool := ((qGet m q).all fun x => x.ctx.state ≠ qsRunning && x.descs = []) && issuedEnded m q

def queueDestroy (id : Nat) : Cfg → Mach → Mach :=
  queueRow 0x408 id (fun _ => 0) (fun _ => queueChecks) fun c k m =>
    let q := k.argN 0x18 4
    if canDestroy m q then respond c id stOk [] (removeQueue q m) else underWay id q m

def queueDestroyDone (id : Nat) : Cfg → Mach → Mach :=
  fun c => withCmd2 0x408 id fun k m =>
    let q := k.argN 0x18 4
    if canDestroy m q then respond c id stOk [] (removeQueue q m) else m

def execQueueCreate (id : Nat) (s : State) : Host.Outcome State Fault Refusal := s.runM (queueCreate id)
def execQueueSet (id : Nat) (s : State) : Host.Outcome State Fault Refusal := s.runM (queueSet id)
def execQueueBind (id : Nat) (s : State) : Host.Outcome State Fault Refusal := s.runM (queueBind id)
def execQueueQuery (id : Nat) (s : State) : Host.Outcome State Fault Refusal := s.runM (queueQuery id)
def execQueuePause (id : Nat) (s : State) : Host.Outcome State Fault Refusal := s.runM (queuePause id)
def execQueuePaused (q : Nat) (s : State) : Host.Outcome State Fault Refusal := s.runM (queuePaused q)
def execQueueResume (id : Nat) (s : State) : Host.Outcome State Fault Refusal := s.runM (queueResume id)
def execQueueRelease (id : Nat) (s : State) : Host.Outcome State Fault Refusal := s.runM (queueRelease id)
def execQueueReset (id : Nat) (s : State) : Host.Outcome State Fault Refusal := s.runM (queueReset id)
def execQueueResetDone (id : Nat) (s : State) : Host.Outcome State Fault Refusal := s.runM (queueResetDone id)
def execQueueDestroy (id : Nat) (s : State) : Host.Outcome State Fault Refusal := s.runM (queueDestroy id)
def execQueueDestroyDone (id : Nat) (s : State) : Host.Outcome State Fault Refusal := s.runM (queueDestroyDone id)

end Sys2Proof.Machine
end

