-- ==== Sys2Proof/Machine/Domains.lean ====
section
/-! DEFINITION. Domains, owner keys, granules, invalidation, teardown, the resets of a domain and of a core, halt records,
page walks (R194, R308 to R321, R343 to R366, R407). -/

namespace Sys2Proof.Machine

/-- Enabled cores. -/
def coreCount (m : Mach) : Nat := m.cores.length

/-- Change a domain's entry in the cache of entries (R343). -/
def domUpd (d : Nat) (f : DomE → DomE) (m : Mach) : Mach := { m with doms := mset m.doms d (f (domE m d)) }

/-! ### Create and set (R344) -/

def domCreateChecks (c : Cfg) (m : Mach) (k : Cmd) : List (Bool × Nat) :=
  let root := k.argN 0x18 8
  let pasid := k.argN 0x20 4
  [(bits pasid 20 11 ≠ 0 || 2 ≤ k.argN 0x24 1, stMalformed),
   (root % 65536 ≠ 0 || protBytes c < root + 65536 || k.argN 0x25 1 = 0 || coreCount m < k.argN 0x25 1 || 1024 < k.argN 0x28 4, stParamRange),
   (k.dom = 0 || (domE m k.dom).state ≠ 0
      || (2 ^ 31 ≤ pasid && m.doms.any fun p => p.2.state == 1 && p.2.pasidV && p.2.pasid == pasid % 2 ^ 20), stPermission)]

def domainCreate (id : Nat) : Cfg → Mach → Mach :=
  cmdRow 0x100 id (fun _ => 0) domCreateChecks fun c k m =>
    let g := ((domE m k.dom).gen + 1) % 2 ^ 32
    let e : DomE := { root := k.argN 0x18 8, jobs := 0, pasid := k.argN 0x20 4 % 2 ^ 20, pasidV := 2 ^ 31 ≤ k.argN 0x20 4, state := 1
                      strict := k.argN 0x24 1 = 1, coreLimit := k.argN 0x25 1, depotLimit := k.argN 0x28 4, epoch := 0, gen := g }
    let a := c.tb.dom + 256 * k.dom
    let m := { m with doms := mset m.doms k.dom e, keys := { m.keys with slots := mset m.keys.slots k.dom (lineKeys m k.dom g) }
                      mem := { m.mem with bad := mfilter (fun l _ => !(a ≤ 64 * l && 64 * l < a + 256)) m.mem.bad } }
    respond c id stOk (toLe 4 g) (domTouch c k.dom m)

/-- The checks of domainSet. -/
def domainSetChecks : Cfg → Mach → Cmd → List (Bool × Nat) :=
  fun _ m k =>
      let on (i : Nat) : Bool := bits (k.argN 0x2C 1) i 1 == 1
      [(8 ≤ k.argN 0x2C 1 || (on 0 && 2 ≤ k.argN 0x24 1), stMalformed),
       ((on 1 && (k.argN 0x25 1 = 0 || coreCount m < k.argN 0x25 1)) || (on 2 && 1024 < k.argN 0x28 4), stParamRange),
       ((domE m k.dom).state ≠ 1, stPermission)]

def domainSet (id : Nat) : Cfg → Mach → Mach :=
  cmdRow 0x101 id (fun _ => 0)
    domainSetChecks
    fun c k m =>
      let on (i : Nat) : Bool := bits (k.argN 0x2C 1) i 1 == 1
      respond c id stOk [] (domUpd k.dom (fun e =>
        { e with strict := if on 0 then k.argN 0x24 1 = 1 else e.strict
                 coreLimit := if on 1 then k.argN 0x25 1 else e.coreLimit
                 depotLimit := if on 2 then k.argN 0x28 4 else e.depotLimit }) (domTouch c k.dom m))

/-! ### Owner keys (R346) -/

/-- The first unused place; 4 when every place holds a hash. -/
def ownerFree (l : List (Option Nat)) : Nat := l.findIdx (· == none)

/-- The checks of ownerEnrol. -/
def ownerEnrolChecks : Cfg → Mach → Cmd → List (Bool × Nat) :=
  fun _ m k => [(4 ≤ ownerFree (domE m k.dom).owners, stParamRange), ((domE m k.dom).state ≠ 1, stPermission)]

def ownerEnrol (id : Nat) : Cfg → Mach → Mach :=
  cmdRow 0x103 id (fun _ => 96)
    ownerEnrolChecks
    fun c k m =>
      let h := leNat (sha384 (areaBytes m k 96))
      let i := ownerFree (domE m k.dom).owners
      respond c id stOk (toLe 1 i) (domUpd k.dom (fun e => { e with owners := e.owners.set i (some h) }) (domTouch c k.dom m))

/-- The checks of ownerRemove. -/
def ownerRemoveChecks : Cfg → Mach → Cmd → List (Bool × Nat) :=
  fun _ m k => [((domE m k.dom).owners.getD (k.argN 0x18 1) none = none, stParamRange), ((domE m k.dom).state ≠ 1, stPermission)]

/-- OWNER_REMOVE; an index that holds no hash is PARAM_RANGE (DEDUCED, log 39). -/
def ownerRemove (id : Nat) : Cfg → Mach → Mach :=
  cmdRow 0x104 id (fun _ => 0)
    ownerRemoveChecks
    fun c k m => respond c id stOk [] (domUpd k.dom (fun e => { e with owners := e.owners.set (k.argN 0x18 1) none }) (domTouch c k.dom m))

/-! ### Granules (R347, R348) -/

/-- The granules a command names. -/
def runOf (k : Cmd) : List Nat := (List.range (k.argN 0x1C 4)).map (k.argN 0x18 4 + ·)

/-- A run outside the protected range, or with no granule. -/
def runBad (c : Cfg) (k : Cmd) : Bool := k.argN 0x1C 4 = 0 || 29127 < k.argN 0x1C 4 || c.protG < k.argN 0x18 4 + k.argN 0x1C 4

/-- A granule another REGION_ASSIGN is writing. -/
def granBusy (m : Mach) (g : Nat) : Bool :=
  m.rings.cmds.any fun p => p.2.opcode == 0x200 && p.2.phase == 1 && p.2.argN 0x18 4 ≤ g && g < p.2.argN 0x18 4 + p.2.argN 0x1C 4

/-- The device ranges a bind under way writes into: they stand with its command as pairs of 8-byte numbers. -/
def bindSpans (k : Cmd) : List (Nat × Nat) :=
  (List.range (k.areaBytes.length / 16)).map fun i => (leAt k.areaBytes (16 * i) 8, leAt k.areaBytes (16 * i + 8) 8)

/-- Zero a destination: its lines hold zeros with valid tags. -/
def spanZero (ss : List (Nat × Nat)) (m : Mach) : Mach :=
  ss.foldl (fun m s =>
    let m := backInval s.1 s.2 false m
    { m with mem := { m.mem with cells := bzero m.mem.cells s.1 s.2
                                 bad := mfilter (fun l _ => !overlap (64 * l) 64 s.1 s.2) m.mem.bad } }) m

/-- A bind under way writes into a range. -/
def bindBusy (m : Mach) (a n : Nat) : Bool :=
  m.rings.cmds.any fun p => p.2.opcode == 0x300 && p.2.phase == 1 && (bindSpans p.2).any fun s => overlap s.1 s.2 a n

/-- A granule holds a bound image, a bind in progress or a placement region (R333, R347). -/
def granHeld (m : Mach) (g : Nat) : Bool :=
  let a := g * 2 ^ 25
  inImage m a (2 ^ 25) || bindBusy m a (2 ^ 25) || m.hp.place.any fun p => p.2.pages.any fun x => granOf x.2 == g

/-- A granule that belongs to a domain. -/
def granOwn (m : Mach) (d g : Nat) : Bool := (mget m.mem.granules g).any (·.dom == d)

/-- The checks of regionAssign. -/
def regionAssignChecks : Cfg → Mach → Cmd → List (Bool × Nat) :=
  fun c m k =>
      [(runBad c k || 1 < k.argN 0x20 1, stParamRange),
       ((domE m k.dom).state ≠ 1 || (!runBad c k && (runOf k).any fun g => mhas m.mem.granules g || granBusy m g), stPermission)]

def regionAssign (id : Nat) : Cfg → Mach → Mach :=
  cmdRow 0x200 id (fun _ => 0)
    regionAssignChecks
    fun _ k m => underWay id k.dom m

/-- The zeroing ends: lines hold zeros with valid tags (R347). -/
def regionAssignDone (id : Nat) : Cfg → Mach → Mach :=
  fun c => withCmd2 0x200 id fun k m =>
    let a := k.argN 0x18 4 * 2 ^ 25
    let n := k.argN 0x1C 4 * 2 ^ 25
    let gs := (runOf k).foldl (fun gs g => mset gs g ⟨k.dom, k.argN 0x20 1 == 1⟩) m.mem.granules
    respond c id stOk [] { m with mem :=
      { cells := bzero m.mem.cells a n, bad := mfilter (fun l _ => !(a ≤ 64 * l && 64 * l < a + n)) m.mem.bad, granules := gs } }

/-- The checks of regionConvert. -/
def regionConvertChecks : Cfg → Mach → Cmd → List (Bool × Nat) :=
  fun c m k =>
      [(runBad c k || 1 < k.argN 0x20 1, stParamRange),
       (!runBad c k && (runOf k).any fun g => g < 2 || !granOwn m k.dom g || granHeld m g, stPermission)]

def regionConvert (id : Nat) : Cfg → Mach → Mach :=
  cmdRow 0x201 id (fun _ => 0)
    regionConvertChecks
    fun c k m =>
      let gs := (runOf k).foldl (fun gs g => mset gs g ⟨k.dom, k.argN 0x20 1 == 1⟩) m.mem.granules
      respond c id stOk [] { m with mem := { m.mem with granules := gs } }

/-- A structure whose base is a set-up register lies in a granule (R347). -/
def granTable (c : Cfg) (g : Nat) : Bool := c.lockTables && (tableSpans c.tb).any fun s => overlap s.1 s.2.1 (g * 2 ^ 25) (2 ^ 25)

/-- The checks of regionReturn. -/
def regionReturnChecks : Cfg → Mach → Cmd → List (Bool × Nat) :=
  fun c m k =>
      [(runBad c k, stParamRange),
       (!runBad c k && (runOf k).any fun g => g < 2 || !granOwn m k.dom g || granHeld m g || granTable c g, stPermission)]

def regionReturn (id : Nat) : Cfg → Mach → Mach :=
  cmdRow 0x202 id (fun _ => 0)
    regionReturnChecks
    fun c k m => respond c id stOk [] { m with mem := { m.mem with granules := (runOf k).foldl (fun gs g => mdel gs g) m.mem.granules } }

/-- The checks of regionQuery. -/
def regionQueryChecks : Cfg → Mach → Cmd → List (Bool × Nat) :=
  fun _ _ k => [(k.argN 0x1C 4 = 0 || 32768 < k.argN 0x18 4 + k.argN 0x1C 4, stParamRange)]

def regionQuery (id : Nat) : Cfg → Mach → Mach :=
  cmdRow 0x203 id (fun k => 4 * k.argN 0x1C 4)
    regionQueryChecks
    fun c k m =>
      let b := (runOf k).flatMap fun g => toLe 4 (match mget m.mem.granules g with
        | none => 0
        | some x => x.dom + 4096 * (if x.sealed then 2 else 1))
      respond c id stOk [] (putResult id k b m)

/-! ### Invalidation (R315, R316, R319) -/

/-- Entries of a domain that cover part of [a, a+n); `n` none for the whole space. -/
def tlbIn (d a : Nat) (n : Option Nat) (e : TlbE) : Bool :=
  let size := if e.level = 1 then 2 ^ 30 else 2 ^ 25
  e.dom == d && match n with
    | none => true
    | some k => overlap (e.page * size) size a k
def walkIn (d a : Nat) (n : Option Nat) (e : WalkE) : Bool :=
  let size := if e.level = 0 then 2 ^ 39 else 2 ^ 30
  e.dom == d && match n with
    | none => true
    | some k => overlap (e.page * size) size a k

/-- A virtual address lies in a range. -/
def vaIn (a : Nat) (n : Option Nat) (va : Nat) : Bool :=
  match n with
  | none => true
  | some k => a ≤ va && va < a + k

/-- Void the held translations a test names. -/
def voidHeld (f : Nat → Held → Bool) (m : Mach) : Mach :=
  let v (q : Nat) (h : Held) : Held := if f q h then { h with void := true } else h
  { m with queues := mmap (fun q y => { y with descs := mmap (fun _ x =>
      { x with cplHeld := x.cplHeld.map (v q), held := x.held.map (v q) }) y.descs }) m.queues }

/-- Drop a domain's device translations in a range and void what is held of it; a telemetry binding in it ends (R316, R425). -/
def invalidate (c : Cfg) (d a : Nat) (n : Option Nat) (m : Mach) : Mach :=
  let m := { m with
    xl := { m.xl with l2 := m.xl.l2.filter fun e => !tlbIn d a n e, walk := m.xl.walk.filter fun e => !walkIn d a n e }
    cores := m.cores.map fun k => { k with tlb := k.tlb.filter fun e => !tlbIn d a n e } }
  let m := voidHeld (fun q h => qDom m q = d && vaIn a n h.va) m
  match mget m.telem.binds d with
  | some b =>
    if vaIn a n b.1 then post c evTelemetryUnbound [d] { m with telem := { m.telem with binds := mdel m.telem.binds d } } else m
  | none => m

/-- The epoch must be the next, the domain LIVE, and no placement region may lie in the range (R316, R333). -/
def invalChecks (m : Mach) (k : Cmd) (a : Nat) (n : Option Nat) : List (Bool × Nat) :=
  let placed (p : Nat × Place) : Bool := p.2.dom == k.dom && match n with
    | none => true
    | some n => overlap p.2.base p.2.len a n
  [(k.argN 0x28 4 ≠ ((domE m k.dom).lastInval + 1) % 2 ^ 32, stParamRange),
   ((domE m k.dom).state ≠ 1 || m.hp.place.any placed, stPermission)]

/-- The checks of xlateInval. -/
def xlateInvalChecks : Cfg → Mach → Cmd → List (Bool × Nat) :=
  fun _ m k =>
      let all := k.argN 0x2C 1 = 1
      let a := k.argN 0x18 8
      let n := k.argN 0x20 8
      invalChecks m k a (if all then none else some n) ++
      ([(2 ≤ k.argN 0x2C 1, stMalformed),
       (if all then a ≠ 0 || n ≠ 0 else a % 2 ^ 25 ≠ 0 || n % 2 ^ 25 ≠ 0 || n = 0 || 2 ^ 52 < a + n, stParamRange)] : List (Bool × Nat))

def xlateInval (id : Nat) : Cfg → Mach → Mach :=
  cmdRow 0x204 id (fun _ => 0)
    xlateInvalChecks
    fun c k m =>
      let n := if k.argN 0x2C 1 = 1 then none else some (k.argN 0x20 8)
      let m := invalidate c k.dom (k.argN 0x18 8) n (domTouch c k.dom m)
      underWay id (k.argN 0x28 4) (domUpd k.dom (fun e => { e with lastInval := k.argN 0x28 4 }) m)

/-- The checks of xlateRoot. -/
def xlateRootChecks : Cfg → Mach → Cmd → List (Bool × Nat) :=
  fun c m k => invalChecks m k 0 none ++
      ([(k.argN 0x18 8 % 65536 ≠ 0 || protBytes c < k.argN 0x18 8 + 65536, stParamRange)] : List (Bool × Nat))

/-- XLATE_ROOT (R316); for domain 0 before the TABLES lock the root is kept for the lock (R455). -/
def xlateRoot (id : Nat) : Cfg → Mach → Mach :=
  cmdRow 0x205 id (fun _ => 0)
    xlateRootChecks
    fun c k m =>
      let r := k.argN 0x18 8
      let m := invalidate c k.dom 0 none (domUpd k.dom (fun e => { e with root := r, lastInval := k.argN 0x28 4 }) (domTouch c k.dom m))
      let m := if k.dom = 0 then { m with boot := { m.boot with xroot := r } } else m
      underWay id (k.argN 0x28 4) m

/-- Requests of a domain that a removed translation may serve still wait (R316 step 4). -/
def requestsOut (m : Mach) (d a : Nat) (n : Option Nat) : Bool :=
  ((hpAll m ++ m.hp.sent.filter (·.kind ≠ 0)).any fun r => (r.kind ≤ 1 || r.kind == 3) && r.dom == d && vaIn a n r.va)
    || (m.arb.later ++ m.arb.waiting ++ m.arb.tags.map (·.2)).any fun r => r.who < 34 && r.dom == d && r.va.all (vaIn a n)

/-- The invalidation ends: the epoch is recorded and the response written. -/
def xlateInvalDone (id : Nat) : Cfg → Mach → Mach :=
  fun c m =>
    match mget m.rings.cmds id with
    | none => m
    | some k =>
      if !(k.opcode = 0x204 || k.opcode = 0x205) || k.phase ≠ 1 || !clerkRuns m 1 then m
      else
        let all := k.opcode = 0x205 || k.argN 0x2C 1 = 1
        if requestsOut m k.dom (if all then 0 else k.argN 0x18 8) (if all then none else some (k.argN 0x20 8)) then m
        else respond c id stOk (toLe 4 k.arg) (domUpd k.dom (fun e => { e with epoch := k.arg }) (domTouch c k.dom m))

/-- PAGE_WALK (R308, R310, R320). -/
def pageWalk (q va : Nat) (write fetch : Bool) (c : Cfg) (m : Mach) : Mach :=
  match qGet m q with
  | none => m
  | some x =>
    let d := x.ctx.dom
    let acc := if fetch then Acc.fetch else if write then Acc.write else Acc.read
    match walkCached c m d va with
    | .fault st l => faultQueue c q st l va m
    | .held a => walkWaits a m
    | .leaf l p =>
      if !pteAllows acc p then faultQueue c q stPermission 0 va m
      else
        let m := (walkReads c m d va).foldl (fun m a => outsideReqs c 32 0 noQueue false a 8 m) (walkFill c d va m)
        { m with xl := { m.xl with l2 := l2Put ⟨d, l, pageOf l va, p⟩ m.xl.l2 } }

/-! ### Pieces of teardown and reset (R364, R407) -/

/-- Kill every queue of a domain: in-flight layers complete with PERMISSION. -/
def killDomain (d : Nat) (m : Mach) : Mach := (queuesOf m d).foldl (fun m q => killOne q stPermission killBit m) m

/-- Page and ATS requests of a domain's queues are failed: no answer finds them, and page requests that waited for their numbers are made (R193). -/
def dropRequests (c : Cfg) (d : Nat) (m : Mach) : Mach :=
  let keep (w : Waiter) : Bool := qDom m w.q != d
  let prg := (m.xl.prg.map fun r => (r.1, { r.2 with waiters := r.2.waiters.filter keep })).filter fun r => r.2.waiters != []
  nextPageRequests c { m with xl := { m.xl with
      ats := (m.xl.ats.map fun r => { r with waiters := r.waiters.filter keep }).filter fun r => r.waiters != []
      stalled := (m.xl.stalled.map fun r => { r with waiters := r.waiters.filter keep }).filter fun r => r.waiters != []
      prg := prg, failed := m.xl.failed.filter fun r => qDom m r.q != d } }

/-- Cores whose last tile-command was of a domain must be scrubbed. -/
def soilCores (d : Nat) (m : Mach) : Mach :=
  { m with cores := m.cores.map fun k => if !k.regs.clean && k.regs.dom = d then { k with regs := { k.regs with dirty := true } } else k }

/-- A parcel is no longer bound: its instruction-cache lines go, and no queue bound to it runs under its handle's next parcel (R173). -/
def dropParcel (h : Nat) (m : Mach) : Mach :=
  match mget m.parcels h with
  | none => m
  | some p =>
    { m with parcels := mdel m.parcels h
             queues := mmap (fun _ x => if x.ctx.bound && x.ctx.parcel == h && x.ctx.dom == p.dom then { x with orphan := true } else x) m.queues
             cores := m.cores.map fun k => { k with icache := k.icache.filter fun l => !(l.2 == p.dom && p.va ≤ l.1 && l.1 < p.va + p.size) } }

/-- A table's dirty lines are written back, its lines go, and its number is free (R210). -/
def tableFlush (n : Nat) (m : Mach) : Mach :=
  let m := tcFlush (fun l => l.tab == n) m
  { m with depot := { m.depot with tcache := m.depot.tcache.filter (·.tab ≠ n), tables := mdel m.depot.tables n } }

/-- Host lines of a domain are dropped from the Depot. -/
def dropHostLines (d : Nat) (m : Mach) : Mach := { m with depot := { m.depot with lines := m.depot.lines.filter fun l => l.dom ≠ d } }

/-- Every translation of a domain is dropped. -/
def dropXlate (c : Cfg) (d : Nat) (m : Mach) : Mach :=
  let e := domE m d
  let m := invalidate c d 0 none m
  { m with xl := { m.xl with host := m.xl.host.filter fun h => !(e.pasidV && h.pasid == e.pasid) } }

/-- Feeds and pools whose entries name a domain. -/
def entriesOf (m : Mach) (base ctl n d : Nat) : List Nat := (List.range n).filter fun i => memNum m.mem (base + 64 * i + ctl) 2 % 4096 = d

/-! ### Teardown (R364 to R366) -/

/-- The checks of domainTeardown. -/
def domainTeardownChecks : Cfg → Mach → Cmd → List (Bool × Nat) :=
  fun _ m k => [(k.dom = 0 || (domE m k.dom).state = 0, stPermission)]

/-- Binds of a domain under way are refused, their destinations zeroed (R169, R364). -/
def refuseBinds (c : Cfg) (d : Nat) (m : Mach) : Mach :=
  (m.rings.cmds.filter fun p => p.2.opcode == 0x300 && p.2.phase == 1 && p.2.dom == d && mget m.rings.cmds p.1 == some p.2).foldl
    (fun m p => respond c p.1 stPermission [] (spanZero (bindSpans p.2) m)) m

/-- DOMAIN_TEARDOWN: the drain step begins. It may be run again from its start. -/
def domainTeardown (id : Nat) : Cfg → Mach → Mach :=
  cmdRow 0x102 id (fun _ => 0) domainTeardownChecks fun c k m =>
    let m := domUpd k.dom (fun e => { e with state := 2, tearStep := 0 }) (domTouch c k.dom m)
    let m := refuseBinds c k.dom (dropRequests c k.dom (killDomain k.dom m))
    let m := { m with ledger := mmap (fun _ l => if l.terms.dom = k.dom then { l with retiring := true } else l) m.ledger }
    underWay id k.dom m

/-- A core's last tile-command was of a domain and no scrub has cleared it since. -/
def unscrubbed (m : Mach) (d : Nat) : Bool := m.cores.any fun x => !x.regs.clean && x.regs.dom = d

/-- The drain step has ended: every record has gone, nothing of the domain waits on the host port or for the host, and no invalidation of it is
under way. -/
def drained (m : Mach) (d : Nat) : Bool :=
  (m.rings.cmds.all fun p => !((p.2.opcode == 0x204 || p.2.opcode == 0x205) && p.2.phase == 1 && p.2.dom == d)) &&
  (m.hp.late.all fun w => !granOwn m d (granOf w.1)) && (queuesOf m d).all fun q => ((qGet m q).all fun x => x.descs == []) && issuedEnded m q
    && !((hpAll m ++ m.hp.sent.filter (·.kind ≠ 0)).any fun r => r.q == q && r.kind ≠ 2 && r.kind < 5)

/-- A domain's queues go, and its cores are to be scrubbed. -/
def dropQueues (d : Nat) (m : Mach) : Mach := soilCores d ((queuesOf m d).foldl (fun m q => removeQueue q m) m)

/-- A domain's parcels and tables go. -/
def dropOwned (d : Nat) (m : Mach) : Mach :=
  let m := ((m.parcels.filter fun p => p.2.dom == d).map (·.1)).foldl (fun m h => dropParcel h m) m
  ((m.depot.tables.filter fun p => p.2.dom == d).map (·.1)).foldl (fun m n => tableFlush n m) m

/-- A domain's placements, feeds, pools, regions, layer allocations and telemetry binding go. -/
def dropKept (c : Cfg) (d : Nat) (m : Mach) : Mach :=
  let feeds := entriesOf m c.tb.feed 0xE 128 d
  let pools := entriesOf m c.tb.pool 0x24 4096 d
  { m with
    hp := { m.hp with place := mfilter (fun _ p => p.dom ≠ d) m.hp.place }
    depot := { m.depot with feedOff := (feeds ++ m.depot.feedOff).eraseDups, poolOff := (pools ++ m.depot.poolOff).eraseDups
                            regions := mfilter (fun _ r => r.dom ≠ d) m.depot.regions
                            layers := mfilter (fun _ r => r.dom ≠ d) m.depot.layers }
    telem := { m.telem with binds := mdel m.telem.binds d } }

/-- Steps 3 to 5. -/
def teardownDrop (c : Cfg) (d : Nat) (m : Mach) : Mach :=
  domUpd d (fun e => { e with tearStep := 2 }) (dropXlate c d (dropHostLines d (dropKept c d (dropOwned d m))))

/-- TEARDOWN_DRAINED: the queues are destroyed and the scrubs begin; steps 3 to 5 follow when no core is to be scrubbed, at once or when the
row comes again after the scrubs. -/
def teardownDrained (id : Nat) : Cfg → Mach → Mach :=
  fun c => withCmd2 0x102 id fun k m =>
    let d := k.dom
    match (domE m d).tearStep with
    | 0 =>
      if !drained m d then m
      else
        let m := domUpd d (fun e => { e with tearStep := 1 }) (dropQueues d m)
        if unscrubbed m d then m else teardownDrop c d m
    | 1 => if unscrubbed m d then m else teardownDrop c d m
    | _ => m

/-- TEARDOWN_COMPLETE: steps 6 and 7, with steps 3 to 5 before them where they waited for the scrubs. -/
def teardownComplete (id : Nat) : Cfg → Mach → Mach :=
  fun c => withCmd2 0x102 id fun k m =>
    let d := k.dom
    if (domE m d).tearStep = 0 || unscrubbed m d then m
    else
      let m := if (domE m d).tearStep = 1 then teardownDrop c d m else m
      let m := { m with keys := { m.keys with slots := mdel m.keys.slots d }
                        mem := { m.mem with granules := mfilter (fun _ g => g.dom ≠ d) m.mem.granules } }
      respond c id stOk [] (domUpd d (fun e => { e with state := 0, tearStep := 0 }) (domTouch c d m))

/-! ### Resets of a domain and of a core (R407) -/

/-- The checks of domainReset. -/
def domainResetChecks : Cfg → Mach → Cmd → List (Bool × Nat) :=
  fun _ m k => [((domE m k.dom).state = 0, stPermission)]

def domainReset (id : Nat) : Cfg → Mach → Mach :=
  cmdRow 0x0005 id (fun _ => 0) domainResetChecks fun c k m =>
    let d := k.dom
    let m := dropRequests c d (killDomain d m)
    let m := dropHostLines d (dropXlate c d (soilCores d m))
    respond c id stOk [] (if (domE m d).state = 2 then domUpd d (fun e => { e with tearStep := 0 }) m else m)

/-- The core under test is no longer under test: in service again, or FAILED as it was before when the test is abandoned (R416; log 48). -/
def testEnds (c : Cfg) (k : Nat) (m : Mach) : Mach :=
  let f := m.st.failedBefore
  let r := bput m.st.record (0x34 + 32 * physOf c k) 1 (if f then 2 else 0)
  coresChanged c { m with
    st := { m.st with core := none, tries := 0, failedBefore := false, record := r }
    cores := lupd m.cores k fun x => { x with regs := { x.regs with
      test := if f then 3 else 0, state := if f then 5 else if x.tc.isSome then 1 else 0, dirty := true, since := m.now } } }

/-- A self-test on a core is abandoned: its command answers INTERNAL (R416). -/
def abandonTest (c : Cfg) (k : Nat) (m : Mach) : Mach :=
  if m.st.core ≠ some k then m
  else
    let ids := (m.rings.cmds.filter fun p => p.2.opcode == 0x900 && p.2.phase == 1).map (·.1)
    ids.foldl (fun m i => respond c i stInternal [] m) (testEnds c k m)

/-- The checks of coreReset. -/
def coreResetChecks : Cfg → Mach → Cmd → List (Bool × Nat) :=
  fun _ m k => [(coreCount m ≤ k.argN 0x18 1, stParamRange)]

/-- The tile-command on a core ends with INTERNAL, and its layer issues nothing more (R407). -/
def stopCore (n : Nat) (m : Mach) : Mach :=
  match (m.cores[n]?).bind (·.tc) with
  | some t =>
    killTiles (fun u => u.q == t.q && u.desc == t.desc && u.tile == t.tile && u.issued == t.issued) stInternal n
      (stopLayer t.q t.desc stInternal n false m)
  | none => m

def coreReset (id : Nat) : Cfg → Mach → Mach :=
  cmdRow 0x0004 id (fun _ => 0) coreResetChecks fun c k m =>
    let n := k.argN 0x18 1
    let m := abandonTest c n (stopCore n m)
    respond c id stOk [] { m with cores := lupd m.cores n fun x => { x with regs := { x.regs with dirty := true } } }

/-! ### Halt records (R194) -/

/-- A signed number as `w` bytes, two's complement. -/
def toLeS (w : Nat) (i : Int) : List Byte := toLe w (i % 2 ^ (8 * w)).toNat

/-- The 48 bytes of a window block (R178). -/
def winBytes (w : WinBlk) (outFirst : Nat) : List Byte :=
  toLe 2 w.fyM1 ++ toLe 2 w.fxM1 ++ toLe 2 w.t0y ++ toLe 2 w.t0x ++ toLe 1 w.fload ++ toLe 1 w.syM1 ++ toLe 1 w.sxM1 ++ toLe 1 w.dyM1
    ++ toLe 1 w.dxM1 ++ toLe 1 w.idil ++ toLe 1 w.mode ++ toLe 1 0 ++ toLe 2 w.pylo ++ toLe 2 w.pyhi ++ toLe 2 w.pxlo ++ toLe 2 w.pxhi
    ++ toLe 2 w.c0 ++ toLe 2 w.cwM1 ++ toLe 2 w.padConst ++ toLe 2 0 ++ toLe 8 outFirst ++ toLe 8 0

/-- The 128 bytes of a resolved stream descriptor (R174). -/
def sdBytes (s : Sd) : List Byte :=
  toLe 8 s.base ++ toLe 1 s.fmt ++ toLe 1 s.kind ++ toLe 1 s.space ++ toLe 1 (s.counts.length + if s.win.isSome then 128 else 0)
    ++ toLe 2 s.rate ++ toLe 2 0 ++ (List.range 6).flatMap (fun i => toLe 4 (nth s.counts i))
    ++ (List.range 6).flatMap (fun i => toLeS 6 (s.strides.getD i 0)) ++ toLe 4 0
    ++ match s.win with
      | some w => winBytes w s.outFirst
      | none => List.replicate 48 0

/-- The 256 bytes of a halt record. DESIGN CHOICE (log 48): PRG is 0 while the stream's page request waits for a free number. -/
def haltBytes (core : Nat) (h : HaltRec) : List Byte :=
  (sdBytes h.sd ++ (List.range 6).flatMap (fun i => toLe 4 (nth h.pos i)) ++ toLe 8 h.va ++ toLe 4 h.q ++ toLe 2 h.dom ++ toLe 1 core
    ++ toLe 1 (h.unit + if h.writing then 4 else 0) ++ toLe 2 (h.prg.getD 0) ++ List.replicate 256 (0 : Byte)).take 256

/-- The checks of streamHalt. -/
def streamHaltChecks : Cfg → Mach → Cmd → List (Bool × Nat) :=
  fun _ m k => [(2 ^ 20 ≤ k.argN 0x18 4, stParamRange), ((qGet m (k.argN 0x18 4)).isNone, stPermission)]

def streamHalt (id : Nat) : Cfg → Mach → Mach :=
  cmdRow 0x0003 id (fun k => 256 * k.argN 0x1C 2)
    streamHaltChecks fun c k m =>
    let hs := m.cores.zipIdx.flatMap fun x => (x.1.halts.filter fun h => h.q == k.argN 0x18 4).map fun h => haltBytes x.2 h
    let w := hs.take (k.argN 0x1C 2)
    respond c id stOk (toLe 2 w.length ++ toLe 2 hs.length) (putResult id k w.flatten m)

def execDomainCreate (id : Nat) (s : State) : Host.Outcome State Fault Refusal := s.runM (domainCreate id)
def execDomainSet (id : Nat) (s : State) : Host.Outcome State Fault Refusal := s.runM (domainSet id)
def execDomainTeardown (id : Nat) (s : State) : Host.Outcome State Fault Refusal := s.runM (domainTeardown id)
def execTeardownDrained (id : Nat) (s : State) : Host.Outcome State Fault Refusal := s.runM (teardownDrained id)
def execTeardownComplete (id : Nat) (s : State) : Host.Outcome State Fault Refusal := s.runM (teardownComplete id)
def execOwnerEnrol (id : Nat) (s : State) : Host.Outcome State Fault Refusal := s.runM (ownerEnrol id)
def execOwnerRemove (id : Nat) (s : State) : Host.Outcome State Fault Refusal := s.runM (ownerRemove id)
def execRegionAssign (id : Nat) (s : State) : Host.Outcome State Fault Refusal := s.runM (regionAssign id)
def execRegionAssignDone (id : Nat) (s : State) : Host.Outcome State Fault Refusal := s.runM (regionAssignDone id)
def execRegionConvert (id : Nat) (s : State) : Host.Outcome State Fault Refusal := s.runM (regionConvert id)
def execRegionReturn (id : Nat) (s : State) : Host.Outcome State Fault Refusal := s.runM (regionReturn id)
def execRegionQuery (id : Nat) (s : State) : Host.Outcome State Fault Refusal := s.runM (regionQuery id)
def execXlateInval (id : Nat) (s : State) : Host.Outcome State Fault Refusal := s.runM (xlateInval id)
def execXlateInvalDone (id : Nat) (s : State) : Host.Outcome State Fault Refusal := s.runM (xlateInvalDone id)
def execXlateRoot (id : Nat) (s : State) : Host.Outcome State Fault Refusal := s.runM (xlateRoot id)
def execPageWalk (q va : Nat) (write fetch : Bool) (s : State) : Host.Outcome State Fault Refusal := s.runM (pageWalk q va write fetch)
def execDomainReset (id : Nat) (s : State) : Host.Outcome State Fault Refusal := s.runM (domainReset id)
def execCoreReset (id : Nat) (s : State) : Host.Outcome State Fault Refusal := s.runM (coreReset id)
def execStreamHalt (id : Nat) (s : State) : Host.Outcome State Fault Refusal := s.runM (streamHalt id)

end Sys2Proof.Machine
end

