-- ==== Sys2Proof/Machine/HostPort.lean ====
section
/-! DEFINITION. The host port: CXL.mem, snoops, translation services, peers, the outbound queue, host loss and attaching
(R206 to R208, R313 to R315, R322 to R342, R193 to R197, R461). -/

namespace Sys2Proof.Machine

/-! ### CXL.mem (R328, R329, R349) -/

/-- A line of the range the host sees (R328). -/
def hostLine (c : Cfg) (a : Nat) : Bool := c.lockProt && a % 64 = 0 && a + 64 ≤ protBytes c

/-- The 64 bytes the host reads, and whether an open line failed its check (R329, R349). -/
def hostView (m : Mach) (a : Nat) : List Byte × Bool :=
  match mget m.mem.granules (granOf a) with
  | none => (List.replicate 64 0, false)
  | some g =>
    if g.sealed then (if mget m.mem.bad (a / 64) = some .raw then bread m.mem.cells a 64 else cipherOf m g.dom a, false)
    else if mhas m.mem.bad (a / 64) then (List.replicate 64 0, true)
    else (bread m.mem.cells a 64, false)

/-- The filter of 1,048,576 lines: a grant into a full filter back-invalidates the line granted longest ago. -/
def grantLine (l : Nat) (m : Mach) : Mach :=
  let f := m.hp.filter.filter (· ≠ l)
  let m := if 1048576 ≤ f.length then backInval (64 * f.getLast?.getD l) 64 false m else m
  { m with hp := { m.hp with filter := l :: (if 1048576 ≤ f.length then f.dropLast else f) } }

/-- A host-port read of an open line whose check fails is reported twice: for the host (R329), and as every failed check is (R352). -/
def hostReadBad (c : Cfg) (a d : Nat) (m : Mach) : Mach := post c evIntegrityFail [a, d] (post c evHostReadIntegrity [a, d] m)

def memReadHost (a : Nat) (c : Cfg) (m : Mach) : Mach :=
  if !hostLine c a then m
  else
    let (l, bad) := hostView m a
    let m := if bad then hostReadBad c a (((mget m.mem.granules (granOf a)).map (·.dom)).getD 0) m else m
    send (.memRead a l) (grantLine (a / 64) (outsideReqs c 34 ((mget m.mem.granules (granOf a)).map (·.dom) |>.getD 0) noQueue false a 64 m))

/-- A line domain 0 rewrites serves again where its failed tag had disabled an entry or a ring (R352), and a pool whose ENABLE it clears
is no longer enabled (R228). -/
def rewritten (c : Cfg) (l : Nat) (m : Mach) : Mach :=
  let inRing (base n : Nat) : Bool := base ≤ 64 * l && 64 * l < base + 64 * 2 ^ n
  { m with depot := { m.depot with feedOff := m.depot.feedOff.filter (fun f => (c.tb.feed + 64 * f) / 64 ≠ l)
                                   poolOff := m.depot.poolOff.filter (fun p => (c.tb.pool + 64 * p) / 64 ≠ l)
                                   poolOn := m.depot.poolOn.filter (fun p =>
                                     (c.tb.pool + 64 * p) / 64 ≠ l || bits (memNum m.mem (c.tb.pool + 64 * p + 0x24) 2) 15 1 == 1) }
           dlOff := m.dlOff && !inRing c.tb.dl c.tb.dlLog2, prOff := m.prOff && !inRing c.tb.pr c.tb.prLog2 }

/-- The line with some bytes changed. -/
def patch (old : List Byte) (off : Nat) (data : List Byte) : List Byte := (old.take off ++ data ++ old.drop (off + data.length)).take 64

def setBad (m : Mach) (l : Nat) (b : BadLine) : Mach := { m with mem := { m.mem with bad := mset m.mem.bad l b } }

def memWriteHost (a off : Nat) (data : List Byte) (poison : Bool) (c : Cfg) (m : Mach) : Mach :=
  if !hostLine c a || data = [] || 64 < off + data.length then m
  else match mget m.mem.granules (granOf a) with
    | none => m
    | some g =>
      let l := a / 64
      if g.sealed then
        let old := if mget m.mem.bad l = some .raw then bread m.mem.cells a 64 else cipherOf m g.dom a
        outsideReqs c 34 g.dom noQueue true (a + off) data.length
          (rewritten c l (setBad { m with mem := { m.mem with cells := bwrite m.mem.cells a (patch old off data) } } l .raw))
      else if data.length < 64 && mhas m.mem.bad l then post c evIntegrityFail [a, g.dom] m
      else
        let m := memStore (a + off) data m
        outsideReqs c 34 g.dom noQueue true (a + off) data.length (rewritten c l (if poison then setBad m l .poison else m))

/-- The host's answer to a back-invalidation: the line leaves the filter, and the writes and messages that waited for it go on (R328, R330). -/
def bisnpDone (a : Nat) (c : Cfg) (m : Mach) : Mach :=
  afterGive c <| lateGo { m with hp := { m.hp with bisnp := m.hp.bisnp.filter (· ≠ a / 64), filter := m.hp.filter.filter (· ≠ a / 64) } }

/-! ### Snoops and host lines (R206 to R208, R327) -/

/-- A snoop of a host line; `inv` takes the Shared copies away, and a pending fill is dropped on arrival. -/
def snoop (inv : Bool) (a : Nat) (m : Mach) : Mach :=
  let l := a / 64 * 64
  let hit := m.depot.lines.any fun x => x.addr == l && x.shared
  let marks := ((m.depot.lines.filter fun x => x.addr == l && !x.shared).map fun x => (x.dom, l)).filter fun p => !m.hp.dropped.contains p
  let m := { m with hp := { m.hp with dropped := marks ++ m.hp.dropped } }
  let m := if inv then { m with depot := { m.depot with lines := m.depot.lines.filter fun x => !(x.addr == l && x.shared) } } else m
  send (.snoopRsp hit (!inv)) m

/-- Sets and ways of the host-line cache: 16 ways, H × 512 KiB (R198, R206; the set index is a choice, log 14). -/
def lineSets (c : Cfg) : Nat := c.tb.partH * 512

/-- The lines of an address's set. -/
def lineSet (c : Cfg) (a : Nat) (ls : List HostLine) : List HostLine := ls.filter fun y => y.addr / 64 % lineSets c == a / 64 % lineSets c

/-- Insert a line as the latest used; the least recently used Shared line of a full set goes (R206). -/
def linePut (c : Cfg) (x : HostLine) (ls : List HostLine) : List HostLine :=
  if lineSets c = 0 then ls
  else
    let ls := ls.filter fun y => !(y.dom == x.dom && y.addr == x.addr)
    let same := lineSet c x.addr ls
    let ls := if same.length < 16 then ls else ls.filter fun y => some y ≠ (same.filter (·.shared)).getLast?
    x :: ls

/-- Every way of a line's set has its fill outstanding: a further fill of the set waits (R206, R207). -/
def waysTaken (c : Cfg) (m : Mach) (r : HpReq) : Bool :=
  r.kind = 3 && lineSets c ≠ 0 && 16 ≤ ((lineSet c r.addr m.depot.lines).filter fun y => !y.shared).length

/-- A stream's request on the host port has been served: a write's credits return, a read's lines come back, and segments that waited
for them issue (R183). -/
def hostServed (r : HpReq) (m : Mach) : Mach :=
  match r.core with
  | some k =>
    let n := cdiv (r.addr % 64 + r.len) 64
    pump (if r.kind = 0 then creditGive k r.unit n m else
      lineBack { point := 80, who := k, unit := r.unit, deadline := r.deadline, addr := r.addr, lines := n, write := false, dom := r.dom
                 q := r.q, op := r.op, n := if r.n = 0 then r.len else r.n, str := r.str, num := r.num } m)
  | none => pump m

/-- Data arrives for a core or for the front end. -/
def hostArrive (core : Option Nat) (a : Nat) (data : List Byte) (m : Mach) : Mach :=
  let ls := (List.range (cdiv (a % 64 + data.length) 64)).map (a / 64 + ·)
  let m := { m with telem := { m.telem with hostIn := m.telem.hostIn + 64 * ls.length } }
  match core with
  | some k => { m with cores := lupd m.cores k fun x =>
      { x with hostData := bwrite x.hostData a data, hostLines := (ls ++ x.hostLines).eraseDups } }
  | none => { m with hp := { m.hp with feData := bwrite m.hp.feData a data, feLines := (ls ++ m.hp.feLines).eraseDups } }

/-- HOST_LINE_FILL: the read that asked gets the data; the line becomes Shared unless a snoop met it. -/
def lineFill (d a : Nat) (data : List Byte) (c : Cfg) (m : Mach) : Mach :=
  let l := a / 64 * 64
  match m.hp.sent.find? fun r => r.kind == 3 && r.addr == l && r.dom == d with
  | none => m
  | some r =>
    let m := hostServed r (hostArrive r.core l (data.take 64) { m with hp := { m.hp with sent := m.hp.sent.filter (·.id ≠ r.id) } })
    let rest := m.depot.lines.filter fun x => !(x.dom == d && x.addr == l)
    if m.hp.dropped.contains (d, l) then
      { m with depot := { m.depot with lines := rest }, hp := { m.hp with dropped := m.hp.dropped.erase (d, l) } }
    else { m with depot := { m.depot with lines := linePut c ⟨d, l, true, data.take 64⟩ rest } }

/-- CXL_IO_READ_COMPLETION: a line of a non-cacheable read. -/
def ioRead (id : Nat) (data : List Byte) (m : Mach) : Mach :=
  match m.hp.sent.find? fun r => r.id == id && r.kind == 1 with
  | none => m
  | some r => hostServed r (hostArrive r.core r.addr (data.take r.len) { m with hp := { m.hp with sent := m.hp.sent.filter (·.id ≠ id) } })

/-! ### Page requests and failures (R193, R195, R314) -/

/-- The stream of a waiter no longer waits. -/
def endHalt (w : Waiter) (m : Mach) : Mach :=
  match w.halt with
  | none => m
  | some (k, h) => { m with cores := lupd m.cores k fun x =>
      { x with halts := x.halts.filter fun y => !(y.unit == h.unit && y.writing == h.writing) } }

/-- A host access of a waiter fails: a stream's tile-command is killed and its layer completes with PERMISSION; other work
meets the failure at its next access. -/
def failWaiter (pasid page : Nat) (m : Mach) (w : Waiter) : Mach :=
  match w.halt with
  | none => { m with xl := { m.xl with failed := m.xl.failed ++ [⟨pasid, page, w.q⟩] } }
  | some (k, _) =>
    match (m.cores[k]?).bind (·.tc) with
    | none => m
    | some t =>
      let m := stopLayer t.q t.desc stPermission w.va false m
      killTiles (fun u => u.q == t.q && u.desc == t.desc && u.tile == t.tile && u.alt == t.alt) stPermission w.va m

/-- ATS_COMPLETION. A grant covers the one page asked for; a peer's address has bit 52 set (log 30). -/
def atsDone (pasid va : Nat) (a : AtsAnswer) (c : Cfg) (m : Mach) : Mach :=
  let page := hostPage va
  match m.xl.ats.find? fun r => r.pasid == pasid && r.page == page && r.sent.isSome with
  | none => m
  | some r =>
    let m := pump { m with xl := { m.xl with ats := m.xl.ats.erase r } }
    match a with
    | .error => r.waiters.foldl (failWaiter pasid page) m
    | .denied => pageRequest c ⟨pasid, page, r.wr, r.waiters, false⟩ m
    | .granted phys rd wr peer =>
      if !(if r.wr then wr else rd) then pageRequest c ⟨pasid, page, r.wr, r.waiters, false⟩ m
      else
        let e : HostE := ⟨pasid, page, phys / 4096 * 4096 % 2 ^ 52 + if peer then 2 ^ 52 else 0, rd, wr⟩
        let m := settleAll m
        r.waiters.foldl (fun m w => endHalt w m) { m with xl := { m.xl with host := hostPut e m.xl.host } }

/-- No answer within the host-loss timeout (R314). -/
def atsSilent (pasid va t : Nat) (c : Cfg) (m : Mach) : Mach :=
  let m := tickTo t m
  match m.xl.ats.find? fun r => r.pasid == pasid && r.page == hostPage va && r.sent.any fun s => s + c.hp.lossTimeout * 1000000 ≤ m.now with
  | none => m
  | some r => r.waiters.foldl (failWaiter pasid r.page) { m with xl := { m.xl with ats := m.xl.ats.erase r } }

/-- PRG_RESPONSE: a success asks for the translation again, where something still waits for it; anything else is a failure (R195, R197, R314). -/
def prgDone (n : Nat) (ok : Bool) (c : Cfg) (m : Mach) : Mach :=
  match mget m.xl.prg n with
  | none => m
  | some r =>
    if !r.sent then m
    else
      let m := { m with xl := { m.xl with prg := mdel m.xl.prg n } }
      let m := if !ok then r.waiters.foldl (failWaiter r.pasid r.page) m
        else if r.waiters = [] then m else askAts r.pasid r.page r.wr r.waiters m
      pump (nextPageRequests c m)

/-- The invalidations whose requests have all been sent are completed (R315 steps 3 and 4). -/
def invsDone (m : Mach) : Mach :=
  let waits (ps : List Nat) : Bool := (hpAll m ++ m.arb.later.filterMap (·.host)).any fun r => (r.kind ≤ 1 || r.kind == 3) && ps.contains (r.addr / 4096)
  let m' := { m with hp := { m.hp with invs := m.hp.invs.filter waits } }
  (m.hp.invs.filter fun ps => !waits ps).foldl (fun m _ => send .atsInvDone m) m'

/-- ATS_INVALIDATION_REQUEST. -/
def atsInval (pasid va size : Nat) (m : Mach) : Mach :=
  let hit (page : Nat) : Bool := va < 4096 * page + 4096 && 4096 * page < va + size
  let gone := m.xl.host.filter fun e => e.pasid == pasid && hit e.page
  let m := { m with xl := { m.xl with host := m.xl.host.filter fun e => !(e.pasid == pasid && hit e.page) } }
  let pasidOf (q : Nat) : Bool := (domE m (qDom m q)).pasidV && (domE m (qDom m q)).pasid == pasid
  let mine (q : Nat) (h : Held) : Bool := h.host.isSome && pasidOf q && hit h.page
  let held := m.queues.flatMap fun y => y.2.descs.flatMap fun x => ((x.2.cplHeld.toList ++ x.2.held).filter (mine y.1)).filterMap (·.host)
  invsDone { voidHeld mine m with hp := { m.hp with invs := m.hp.invs ++ [gone.map (fun e => e.phys / 4096) ++ held.map (· / 4096)] } }

/-! ### Peers (R333, R334) -/

/-- The pages of a placement region with their device pages, when each is open, of the domain and allows the access. -/
def placePages (c : Cfg) (m : Mach) (d base n : Nat) (rd wr : Bool) : Option (List (Nat × Nat)) :=
  (List.range (n / 2 ^ 25)).mapM fun i =>
    let va := base + 2 ^ 25 * i
    match walkCached c (unheld m) d va with
    | .fault _ _ | .held _ => none
    | .leaf l p =>
      match leafAddr m d l p va with
      | .dev a => if openOf m.mem d a (2 ^ 25) && (!rd || pteAllows .read p) && (!wr || pteAllows .write p) then some (va, a) else none
      | _ => none

def placeChecks (c : Cfg) (m : Mach) (k : Cmd) : List (Bool × Nat) :=
  let base := k.argN 0x18 8
  let n := k.argN 0x20 8
  let f := k.argN 0x2C 1
  let bad := base % 2 ^ 25 ≠ 0 || n % 2 ^ 25 ≠ 0 || n = 0 || 2 ^ 52 < base + n
  [(bits (k.argN 0x28 4) 16 15 ≠ 0 || 4 ≤ f, stMalformed), (bad, stParamRange),
   ((domE m k.dom).state ≠ 1 || (!bad && (placePages c m k.dom base n (f % 2 = 1) (2 ≤ f)).isNone), stPermission),
   (256 ≤ m.hp.place.length, stBindResources)]

/-- PLACE_REGISTER; a 257th region is BIND_RESOURCES (DESIGN CHOICE, log 39). -/
def placeRegister (id : Nat) : Cfg → Mach → Mach :=
  cmdRow 0x206 id (fun _ => 0) placeChecks fun c k m =>
    let f := k.argN 0x2C 1
    match placePages c m k.dom (k.argN 0x18 8) (k.argN 0x20 8) (f % 2 = 1) (2 ≤ f) with
    | none => m
    | some ps =>
      let i := mfree m.hp.place 0
      let p : Place := ⟨k.dom, k.argN 0x18 8, k.argN 0x20 8, k.argN 0x28 4 % 65536, 2 ^ 31 ≤ k.argN 0x28 4, f % 2 == 1, 2 ≤ f, ps⟩
      respond c id stOk (toLe 2 i) { m with hp := { m.hp with place := mset m.hp.place i p } }

/-- The checks of placeRemove. -/
def placeRemoveChecks : Cfg → Mach → Cmd → List (Bool × Nat) :=
  fun _ m k => [(256 ≤ k.argN 0x18 2, stParamRange), (!mhas m.hp.place (k.argN 0x18 2), stPermission)]

def placeRemove (id : Nat) : Cfg → Mach → Mach :=
  cmdRow 0x207 id (fun _ => 0)
    placeRemoveChecks
    fun c k m => respond c id stOk [] { m with hp := { m.hp with place := mdel m.hp.place (k.argN 0x18 2) } }

/-- A placement region takes an access (R334). -/
def placeTakes (p : Place) (req : Nat) (write : Bool) (a n : Nat) : Bool :=
  (p.any || p.req == req) && (if write then p.wr else p.rd)
    && (List.range (granOf (a + n - 1) + 1 - granOf a)).all fun i => p.pages.any fun x => granOf x.2 == granOf a + i

/-- The bytes of an access line by line, each with its address; `fuel` lines remain. -/
def linePartsGo : Nat → Nat → List Byte → List (Nat × List Byte)
  | 0, _, _ => []
  | fuel + 1, a, l => if l = [] then [] else (a, l.take (64 - a % 64)) :: linePartsGo fuel (a + (64 - a % 64)) (l.drop (64 - a % 64))
def lineParts (a : Nat) (l : List Byte) : List (Nat × List Byte) := linePartsGo (l.length / 64 + 2) a l

/-- One line of a peer's write: a partial write of a line whose check fails is dropped (R329, R334). -/
def peerLine (c : Cfg) (d a : Nat) (l : List Byte) (m : Mach) : Mach :=
  if l.length < 64 && mhas m.mem.bad (a / 64) then post c evIntegrityFail [a / 64 * 64, d] m else rewritten c (a / 64) (engPut a l m)

/-- PEER_REQUEST: rules for failing lines apply line by line as for the host (R329); a read of a line the host holds waits for its answer,
and its row is sent again (R328). -/
def peerRequest (req : Nat) (write : Bool) (a : Nat) (data : List Byte) (len : Nat) (c : Cfg) (m : Mach) : Mach :=
  let n := if write then data.length else len
  match m.hp.place.find? fun p => n ≠ 0 && placeTakes p.2 req write a n with
  | none =>
    if write then { m with hp := { m.hp with placeRejects := satInc 32 m.hp.placeRejects } } else send .unsupported m
  | some p =>
    if write then outsideReqs c 34 p.2.dom noQueue true a n ((lineParts a data).foldl (fun m l => peerLine c p.2.dom l.1 l.2 m) m)
    else
      let m := backInval a n true m
      if hostHolds m a n ≠ [] then m
      else
        let bad := (lineParts a (bread m.mem.cells a n)).filter fun l => mhas m.mem.bad (l.1 / 64)
        let l := (lineParts a (bread m.mem.cells a n)).flatMap fun l => if mhas m.mem.bad (l.1 / 64) then l.2.map fun _ => 0 else l.2
        send (.peerData l) (outsideReqs c 34 p.2.dom noQueue false a n (bad.foldl (fun m x => hostReadBad c (x.1 / 64 * 64) p.2.dom m) m))

/-- A request of a feature that is not used: it is answered with Unsupported Request, which AER logs (R322). -/
def unsupportedReq (_kind : Nat) (m : Mach) : Mach :=
  send .aer (send .unsupported { m with hp := { m.hp with fnc := { m.hp.fnc with aerUr := true } } })

/-! ### The outbound queue (R323, R327, R330, R331, R336) -/

/-- A request's charge: its useful bytes, rounded up to whole 64-byte units (R181, R336). -/
def hpCost (r : HpReq) : Nat := 64 * cdiv (if r.n = 0 then r.len else r.n) 64

/-- The destination function of a request. -/
def hpFn (r : HpReq) : Nat := if r.kind = 2 then r.addr else fnOf r.addr

/-- An earlier request stands before this one (R330 steps 1, 2 and 5). ATS and page requests are messages no step orders. -/
def hpBlocked (m : Mach) (r : HpReq) : Bool :=
  (hpAll m).any fun x => x.id < r.id && x.kind == 0 && r.kind < 5 && (if r.kind = 4 then x.q == r.q else hpFn x == hpFn r)

/-- A request may go now. -/
def hpReady (m : Mach) (r : HpReq) : Bool :=
  hpOpen m && inShare m r && !hpBlocked m r
    && (match r.kind with
        | 0 => hpCost r ≤ m.hp.outTok
        | 1 => hpCost r ≤ m.hp.inTok
        | 3 => hpCost r ≤ m.hp.inTok
        | _ => true)
    && hpOut m < 4096

/-- The tie-break index of a request (R187). -/
def hpWho (r : HpReq) : Nat := r.core.getD (if r.who = 3 then 33 else 32)

/-- Distance of an index from a rotation pointer among 36. -/
def rot36 (ptr who : Nat) : Nat := (who + 36 - ptr % 36) % 36

/-- A page is flushed before its cached read, or to make room in the table of 256 pages (R327). -/
def flushPage (f : Nat) (m : Mach) : Mach :=
  if (hpAll m ++ m.hp.sent).any fun r => r.kind == 2 && r.addr == f && r.who == 2 then m
  else hpPut { hpReq 2 f with deadline := m.now } m

/-- A posted write enters the table of unflushed pages. -/
def unflush (page id : Nat) (l : List (Nat × Nat)) : List (Nat × Nat) :=
  if l.any (·.1 == page) then l.map fun p => if p.1 = page then (page, id) else p else l ++ [(page, id)]

/-- An own write meets lines of the Depot: Shared copies of its lines go, and pending fills of them are dropped on arrival (R207, R208, R327). -/
def dropOwn (first past : Nat) (m : Mach) : Mach :=
  let hit (x : HostLine) : Bool := decide (first ≤ x.addr ∧ x.addr < past)
  let marks := ((m.depot.lines.filter fun x => hit x && !x.shared).map fun x => (x.dom, x.addr)).filter fun p => !m.hp.dropped.contains p
  { m with hp := { m.hp with dropped := marks ++ m.hp.dropped }
           depot := { m.depot with lines := m.depot.lines.filter fun x => !(hit x && x.shared) } }

/-- What sending a request does. -/
def hpSend (c : Cfg) (r : HpReq) (m : Mach) : Mach :=
  let m := { m with hp := { m.hp with wait := m.hp.wait.filter (·.id ≠ r.id) } }
  let keep (s : List HpReq) : List HpReq := s.filter (·.kind ≠ 0) ++ ((s.filter (·.kind == 0)) ++ [r]).drop ((s.filter (·.kind == 0)).length + 1 - 4096)
  match r.kind with
  | 0 =>
    let m := dropOwn (r.addr / 64 * 64) (r.addr + r.len) m
    let m := { m with
      hp := { m.hp with outTok := m.hp.outTok - hpCost r, unflushed := unflush (r.addr / 4096) r.id m.hp.unflushed
                        sent := if r.who = 1 then keep m.hp.sent else m.hp.sent }
      telem := { m.telem with hostOut := m.telem.hostOut + hpCost r } }
    let m := if r.who = 1 then m else (groupOf m r.q r.desc).foldl (fun m p =>
          descUpd p.1 p.2 (fun x => { x with fns := (fnOf r.addr :: x.fns).eraseDups }) m) m
    send (.hostWrite r.addr r.data true) (hostServed r m)
  | 1 => send (.hostRead r.addr r.len true) { m with hp := { m.hp with inTok := m.hp.inTok - hpCost r, sent := m.hp.sent ++ [r] } }
  | 2 => send (.flush r.addr) { m with hp := { m.hp with sent := m.hp.sent ++ [r] } }
  | 3 =>
    send (.rdShared r.addr) { m with
      hp := { m.hp with inTok := m.hp.inTok - hpCost r, sent := m.hp.sent ++ [r] }
      depot := { m.depot with lines := linePut c ⟨r.dom, r.addr / 64 * 64, false, []⟩ m.depot.lines } }
  | 4 => msixQueue r.addr [] m
  | 5 =>
    match m.xl.ats.find? fun a => a.pasid == r.va && a.page == r.addr / 4096 && a.sent.isNone with
    | some a => send (.atsReq a.pasid a.page a.wr) { m with xl := { m.xl with ats := m.xl.ats.map fun x => if x = a then { a with sent := some m.now } else x } }
    | none => m
  | _ =>
    match mget m.xl.prg r.addr with
    | some p => if p.sent then m else send (.pageReq r.addr p.pasid p.page p.wr) { m with xl := { m.xl with prg := mset m.xl.prg r.addr { p with sent := true } } }
    | none => m

/-- HOST_REQUEST_SEND: the request may go, and none that may go comes before it (R185, R187, R330, R336). -/
def requestSend (id t : Nat) (c : Cfg) (m : Mach) : Mach :=
  let m := refill c (tickTo t m)
  match m.hp.wait.find? (·.id == id) with
  | none => m
  | some r =>
    let ptr := (mget m.arb.ptr 80).getD 0
    let before (x : HpReq) : Bool := hpReady m x && !waysTaken c m x && x.id != id &&
      (x.deadline < r.deadline || (x.deadline == r.deadline &&
        (if hpWho x = hpWho r then unitRank x.unit < unitRank r.unit else rot36 ptr (hpWho x) < rot36 ptr (hpWho r))))
    if !hpReady m r || waysTaken c m r || m.hp.wait.any before then m
    else if r.kind = 3 && m.hp.unflushed.any (·.1 == r.addr / 4096) then flushPage (fnOf r.addr) m
    else if r.kind = 0 && 256 ≤ m.hp.unflushed.length && !m.hp.unflushed.any (·.1 == r.addr / 4096) then
      flushPage (fnOf (4096 * ((m.hp.unflushed.head?).map (·.1)).getD 0)) m
    else
      let tie := m.hp.wait.any fun x => hpReady m x && x.deadline == r.deadline && hpWho x != hpWho r
      let m := if tie then { m with arb := { m.arb with ptr := mset m.arb.ptr 80 ((hpWho r + 1) % 36) } } else m
      pump (invsDone (hpSend c r m))

/-- FLUSH_READ_COMPLETE: the writes before the flush are visible. -/
def flushDone (id : Nat) (m : Mach) : Mach :=
  match m.hp.sent.find? fun r => r.id == id && r.kind == 2 with
  | none => m
  | some r =>
    let m := pump { m with hp := { m.hp with
      sent := m.hp.sent.filter (·.id ≠ id)
      unflushed := m.hp.unflushed.filter fun p => !(fnOf (4096 * p.1) == r.addr && p.2 < id) } }
    if r.who = 1 then descUpd r.q r.desc (fun x => { x with flushing := x.flushing - 1 }) m else m

/-! ### Host loss (R337 to R339, R342) -/

/-- A pause the orphan policy asks for (R297, R339). -/
def orphanPause (m : Mach) : Mach :=
  let stop (q : Queue) : Bool := (m.hp.orphan == 2 || (m.hp.orphan == 0 && !q.ctx.rt))
    && !(q.ctx.state == qsHeld || q.ctx.state == qsPaused || q.ctx.state == qsKilled) && !q.ctx.feed
  { m with queues := mmap (fun _ q => if stop q then { q with pausing := true } else q) m.queues }

/-- A tile-command meets the lost host: it is killed and its queue enters HELD (R338). -/
def hostLostTile (k : Nat) (m : Mach) : Mach :=
  match (m.cores[k]?).bind (·.tc) with
  | none => m
  | some t =>
    let m := stopLayer t.q t.desc stHostLost m.hp.epoch false m
    hold t.q (killTiles (fun u => u.q == t.q && u.desc == t.desc && u.tile == t.tile && u.alt == t.alt) stHostLost m.hp.epoch m)

/-- The core a stream's dropped write was made for: the one that still runs the tile-command of its queue and descriptor with that operation in its
queues; none where that tile-command has been killed (R338). -/
def writerCore (m : Mach) (r : HpReq) : Option Nat :=
  r.core.bind fun k => (m.cores[k]?).bind fun x => x.tc.bind fun t =>
    if (servedBy m t).contains (r.q, r.desc) && (r.op = 0 || x.slots.any fun l => l.any fun o => o.op == r.op) then some k else none

/-- A held request is dropped: what it belongs to ends with HOST_LOST; a record goes to the store (R338, R340). -/
def dropHeld (c : Cfg) (m : Mach) (r : HpReq) : Mach :=
  if r.who = 1 then
    if r.kind = 0 then
      let l := r.data.take 9 ++ [r.data.getD 9 0 ||| 4] ++ r.data.drop 10
      divert c r.q l r.va (qDom m r.q) m
    else m
  else if 5 ≤ r.kind then m
  else match writerCore m r with
    | some k => hostLostTile k m
    | none => if r.kind = 0 then hold r.q (reach r.q r.desc stHostLost m.hp.epoch m) else m

/-- A flush read that the loss fails: a GLOBAL descriptor completes with HOST_LOST (R331, R338). -/
def flushLost (m : Mach) : Mach :=
  { m with queues := mmap (fun _ y => { y with descs := mmap (fun _ x =>
      if 1 < x.flushing then
        { x with flushing := 1, record := if x.flagGlobal then meet x.record stHostLost m.hp.epoch else x.record } else x) y.descs }) m.queues }

/-- The declaration of host loss (R338). Reads and flushes that are out have no answer any more; a late one finds nothing. -/
def hostLoss (c : Cfg) (cause : Nat) (m : Mach) : Mach :=
  let held := hpAll m ++ m.arb.later.filterMap (·.host)
  let m := { m with arb := { m.arb with later := m.arb.later.filter (·.host.isNone), waiting := m.arb.waiting.filter (·.host.isNone) }, hp := { m.hp with lost := true, cause := cause, attached := false, lossStart := none, lossNext := none, wait := [], sent := m.hp.sent.filter (·.kind == 0) } }
  let m := flushLost m
  let m := held.foldl (dropHeld c) m
  let m := (m.cores.zipIdx.filter fun p => p.1.halts != []).foldl (fun m p => hostLostTile p.2 m) (settleAll m)
  let m := { m with xl := { m.xl with ats := [], prg := [], stalled := [], failed := [], host := [] }
                    depot := { m.depot with lines := [] }, hp := { m.hp with unflushed := [], dropped := [], invs := [] } }
  post c evHostLost [cause, m.hp.epoch] (orphanPause m)

/-- A cause starts the loss timer while attached; the first cause governs, and when the second began is kept (R337, R342; log 30). -/
def lossBegins (cause : Nat) (m : Mach) : Mach :=
  if !m.hp.attached || m.hp.lost then m
  else if m.hp.lossStart.isNone then { m with hp := { m.hp with lossStart := some m.now, lossCause := cause } }
  else if m.hp.lossCause ≠ cause && m.hp.lossNext.isNone then { m with hp := { m.hp with lossNext := some m.now } }
  else m

def linkDown (t : Nat) (m : Mach) : Mach :=
  let m := settleAll (tickTo t m)
  lossBegins 1 { m with hp := { m.hp with l0 := false } }
def bmeClear (t : Nat) (m : Mach) : Mach :=
  let m := settleAll (tickTo t m)
  lossBegins 2 { m with hp := { m.hp with bme := false } }

/-- FLR or hot reset: configuration space, BARs, MSI-X table and host-translation cache are cleared (R326). -/
def flrDone (t : Nat) (m : Mach) : Mach :=
  let m := settleAll (tickTo t m)
  lossBegins 2 { m with hp := { m.hp with bme := false, fnc := ⟨false, false, false, false, false, false⟩ }, irq := { m.irq with table := [] }
                        xl := { m.xl with host := [] } }

/-- Pending vectors that are not masked are sent (R341). -/
def sendPending (m : Mach) : Mach :=
  let vs := m.irq.pba.filter (vecOpen m)
  vs.foldl (fun m v => send (.msix v) m) { m with irq := { m.irq with pba := m.irq.pba.filter fun v => !vs.contains v } }

/-- What waited for the port goes: pending messages, and the boot ROM's read of its image (R341, R342). -/
def portBack (m : Mach) : Mach :=
  let m := sendPending m
  match m.boot.imageReq with
  | some (a, n) => imageRead a n m
  | none => m

/-- The timer after a cause has cleared: one that remains and did not govern runs from its own start (R337; log 30). -/
def lossClears (cause : Nat) (m : Mach) : Mach :=
  if m.hp.lossStart.isSome && m.hp.lossCause = cause then
    { m with hp := { m.hp with lossStart := m.hp.lossNext, lossNext := none, lossCause := if m.hp.lossNext.isSome then 3 - cause else m.hp.lossCause } }
  else { m with hp := { m.hp with lossNext := none } }

/-- A cause clears: 1, the link is in L0 again; 2, the function's configuration is restored and it may master the bus (R337). -/
def linkRestored (cause t : Nat) (m : Mach) : Mach :=
  let m := settleAll (tickTo t m)
  let m := if cause = 1 then { m with hp := { m.hp with l0 := true } }
    else { m with hp := { m.hp with bme := true, fnc := { m.hp.fnc with bars := true, msixOn := true, ptm := true } } }
  portBack (lossClears cause m)

def lossExpiry (t : Nat) (c : Cfg) (m : Mach) : Mach :=
  let m := tickTo t m
  if m.hp.lossStart.any fun s => s + c.hp.lossTimeout * 1000000 ≤ m.now then hostLoss c m.hp.lossCause m else m

def heartbeatExpiry (t : Nat) (c : Cfg) (m : Mach) : Mach :=
  let m := tickTo t m
  if m.hp.attached && !m.hp.lost && c.hp.hbLimit ≠ 0 && m.hp.hbStart + c.hp.hbLimit * 1000000 ≤ m.now then hostLoss c 3 m else m

/-! ### Attaching (R341, R342) -/

/-- Some table of a domain holds a host leaf. -/
def hostLeafFrom (c : Cfg) (m : Mach) : Nat → Nat → Nat → Bool
  | 0, _, _ => false
  | fuel + 1, level, table =>
    (List.range (if level = 0 then 8192 else if level = 1 then 512 else 32)).any fun i =>
      let p := memNum m.mem (table + 8 * i) 8
      !pteBad c m true level p && (if bits p 1 1 = 1 then bits p 5 1 == 1 else hostLeafFrom c m fuel (level + 1) (bits p 8 44 * 256))

/-- Domains whose tables hold a host leaf. -/
def hostLeafDoms (c : Cfg) (m : Mach) : Nat :=
  (m.doms.filter fun d => d.2.state == 1 && d.2.pasidV && tableOk c m d.2.root 65536 && hostLeafFrom c m 3 0 d.2.root).length

/-- Queues in each state, in the order of R394. -/
def stateCounts (m : Mach) : List Nat :=
  [qsEmpty, qsReady, qsRunning, qsHeld, qsPaused, qsKilled].map fun s => (m.queues.filter fun q => q.2.ctx.state == s).length

/-- The checks of attach. -/
def attachChecks : Cfg → Mach → Cmd → List (Bool × Nat) :=
  fun _ _ k => [(2 < k.argN 0x18 1, stParamRange)]

def attach (id : Nat) : Cfg → Mach → Mach :=
  cmdRow 0x0001 id (fun _ => 24) attachChecks fun c k m =>
    let m := if m.hp.attached && !m.hp.lost then hostLoss c 4 m else m
    let m := portBack { m with hp := { m.hp with
      epoch := (m.hp.epoch + 1) % 2 ^ 32, lost := false, attached := true, orphan := k.argN 0x18 1, hbStart := m.now, lossStart := none, lossNext := none } }
    let m := if m.hp.l0 then m else lossBegins 1 m
    let m := if m.hp.bme then m else lossBegins 2 m
    respond c id stOk (toLe 4 m.hp.epoch ++ toLe 4 m.prHead ++ toLe 4 m.prTail ++ toLe 4 m.prOverflow ++ toLe 2 (hostLeafDoms c m))
      (putResult id k ((stateCounts m).flatMap (toLe 4)) m)

/-- The checks of detach. -/
def detachChecks : Cfg → Mach → Cmd → List (Bool × Nat) :=
  fun _ _ _ => []

def detach (id : Nat) : Cfg → Mach → Mach :=
  cmdRow 0x0002 id (fun _ => 0) detachChecks fun c _ m =>
    let m := respond c id stOk [] m
    if m.hp.attached && !m.hp.lost then hostLoss c 4 m else m

def execAttach (id : Nat) (s : State) : Host.Outcome State Fault Refusal := s.runM (attach id)
def execDetach (id : Nat) (s : State) : Host.Outcome State Fault Refusal := s.runM (detach id)
def execPlaceRegister (id : Nat) (s : State) : Host.Outcome State Fault Refusal := s.runM (placeRegister id)
def execPlaceRemove (id : Nat) (s : State) : Host.Outcome State Fault Refusal := s.runM (placeRemove id)
def execCxlMemRead (addr : Nat) (s : State) : Host.Outcome State Fault Refusal := s.runM (memReadHost addr)
def execCxlMemWrite (addr off : Nat) (data : List Byte) (poison : Bool) (s : State) : Host.Outcome State Fault Refusal :=
  s.runM (memWriteHost addr off data poison)
def execSnpInv (addr : Nat) (s : State) : Host.Outcome State Fault Refusal := s.runM fun _ => snoop true addr
def execSnpData (addr : Nat) (s : State) : Host.Outcome State Fault Refusal := s.runM fun _ => snoop false addr
def execSnpCur (addr : Nat) (s : State) : Host.Outcome State Fault Refusal := s.runM fun _ => snoop false addr
def execBisnpResponse (addr : Nat) (s : State) : Host.Outcome State Fault Refusal := s.runM (bisnpDone addr)
def execHostLineFill (dom addr : Nat) (data : List Byte) (s : State) : Host.Outcome State Fault Refusal := s.runM (lineFill dom addr data)
def execAtsInvalidationRequest (pasid va size : Nat) (s : State) : Host.Outcome State Fault Refusal :=
  s.runM fun _ => atsInval pasid va size
def execAtsCompletion (pasid va : Nat) (a : AtsAnswer) (s : State) : Host.Outcome State Fault Refusal := s.runM (atsDone pasid va a)
def execPrgResponse (prg : Nat) (success : Bool) (s : State) : Host.Outcome State Fault Refusal := s.runM (prgDone prg success)
def execNoAtsAnswer (pasid va t : Nat) (s : State) : Host.Outcome State Fault Refusal := s.runM (atsSilent pasid va t)
def execPeerRequest (req : Nat) (write : Bool) (addr : Nat) (data : List Byte) (len : Nat) (s : State) :
    Host.Outcome State Fault Refusal := s.runM (peerRequest req write addr data len)
def execUnsupportedRequest (kind : Nat) (s : State) : Host.Outcome State Fault Refusal := s.runM fun _ => unsupportedReq kind
def execFlr (t : Nat) (s : State) : Host.Outcome State Fault Refusal := s.runM fun _ => flrDone t
def execBusMasterEnableClear (t : Nat) (s : State) : Host.Outcome State Fault Refusal := s.runM fun _ => bmeClear t
def execHostLinkDown (t : Nat) (s : State) : Host.Outcome State Fault Refusal := s.runM fun _ => linkDown t
def execHostLinkRestored (cause t : Nat) (s : State) : Host.Outcome State Fault Refusal := s.runM fun _ => linkRestored cause t
def execLossTimerExpiry (t : Nat) (s : State) : Host.Outcome State Fault Refusal := s.runM (lossExpiry t)
def execHeartbeatLimitExpiry (t : Nat) (s : State) : Host.Outcome State Fault Refusal := s.runM (heartbeatExpiry t)
def execHostRequestSend (id t : Nat) (s : State) : Host.Outcome State Fault Refusal := s.runM (requestSend id t)
def execFlushReadComplete (id : Nat) (s : State) : Host.Outcome State Fault Refusal := s.runM fun _ => flushDone id
def execCxlIoReadCompletion (id : Nat) (data : List Byte) (s : State) : Host.Outcome State Fault Refusal := s.runM fun _ => ioRead id data

end Sys2Proof.Machine
end

