-- ==== Sys2Proof/Machine/Approx.lean ====
section
/-! DEFINITION. The exact values against which R96 and R98 bound a result, to 140 bits and more: a value the engine gives stands only
where it lies within its bound of them. Fixed-point numbers carry 160 fraction bits. -/

namespace Sys2Proof.Machine

/-- 1, ln 2, log2 e, 2/√π and 1/√2 in fixed point. -/
def apOne : Int := 2 ^ 160
def apLn2 : Int := 1013035739299659071135698605846798551586536899366
def apLog2e : Int := 2108501164428393954197770173035669514763056903505
def apErfC : Int := 1649128000240172121335468122222580532118151184855
def apRt2 : Int := 1033437718471923706666374484006904511252097097914

/-- Product and quotient in fixed point. -/
def apMul (a b : Int) : Int := (a * b).fdiv apOne
def apDiv (a b : Int) : Int := (a * apOne).fdiv b

/-- A finite value in fixed point, magnitudes held below 2^11. -/
def apOf : Fv → Int
  | .fin s m e =>
    let v : Int := if m = 0 then 0 else if 11 ≤ (Nat.log2 m : Int) + e then 2048 * apOne
      else if 0 ≤ e + 160 then (m <<< (e + 160).toNat : Nat) else (m >>> (-(e + 160)).toNat : Nat)
    if s then -v else v
  | _ => 0

/-- A fixed-point number as a value. -/
def apFv (v : Int) : Fv := .fin (v < 0) v.natAbs (-160)

/-- Σ t^k / k! from term number `k` on, `fuel` terms. -/
def apExpGo (t : Int) : Nat → Int → Int → Int → Int
  | 0, _, _, acc => acc
  | fuel + 1, k, term, acc => let u := (apMul term t).fdiv k; apExpGo t fuel (k + 1) u (acc + u)

/-- 2^y and e^x. -/
def apExp2 (y : Int) : Fv :=
  .fin false (apExpGo (apMul (y.fmod apOne) apLn2) 45 1 apOne apOne).toNat (y.fdiv apOne - 160)
def apExp (x : Int) : Fv := apExp2 (apMul x apLog2e)

/-- Σ z^(2k+1) / (2k+1), `fuel` terms. -/
def apAtanhGo (z2 : Int) : Nat → Int → Int → Int → Int
  | 0, _, _, acc => acc
  | fuel + 1, k, p, acc => apAtanhGo z2 fuel (k + 2) (apMul p z2) (acc + p.fdiv k)

/-- The natural logarithm of m in [1, 2), in fixed point. -/
def apLnMant (m : Int) : Int := let z := apDiv (m - apOne) (m + apOne); 2 * apAtanhGo (apMul z z) 60 1 z 0

/-- Exponent and mantissa in [1, 2) of m · 2^e. -/
def apNorm (m : Nat) (e : Int) : Int × Int :=
  let l := Nat.log2 m
  ((l : Int) + e, if l ≤ 160 then (m <<< (160 - l) : Nat) else (m >>> (l - 160) : Nat))

/-- log2 and ln of m · 2^e. -/
def apLog2 (m : Nat) (e : Int) : Int := let p := apNorm m e; p.1 * apOne + apMul (apLnMant p.2) apLog2e
def apLn (m : Nat) (e : Int) : Int := let p := apNorm m e; p.1 * apLn2 + apLnMant p.2

/-- Σ (−1)^k x^(2k+1) / (k! (2k+1)), `fuel` terms. -/
def apErfGo (x2 : Int) : Nat → Int → Int → Int → Int
  | 0, _, _, acc => acc
  | fuel + 1, k, p, acc => apErfGo x2 fuel (k + 1) (-(apMul p x2).fdiv (k + 1)) (acc + p.fdiv (2 * k + 1))

/-- erf x; ±1 from |x| = 8 on. -/
def apErf (x : Int) : Int :=
  if 8 * apOne ≤ x then apOne else if x ≤ -(8 * apOne) then -apOne else apMul apErfC (apErfGo (apMul x x) 320 0 x 0)

/-- e^−|x| in fixed point. -/
def apDecay (x : Int) : Int := apOf (apExp (-(x.natAbs : Int)))

/-- 1 / (1 + e^−x). -/
def apSigm (x : Int) : Int := let w := apDecay x; if x < 0 then apDiv w (apOne + w) else apDiv apOne (apOne + w)

/-- tanh x. -/
def apTanh (x : Int) : Int := let w := apDecay (2 * x); let v := apDiv (apOne - w) (apOne + w); if x < 0 then -v else v

/-- Whether finite code `c` lies within `k` ulp, or 2^−24 where `abs` says and that is larger, of a value (R96); the value's own
error, below 2^−20 ulp, is allowed for. -/
def nearFv (c k : Nat) (abs : Bool) (v : Fv) : Bool :=
  match dec32 c, v with
  | .fin s m g, .fin t n e =>
    let u := ulpExp c
    let x := min (min g e) (min u (-24)) - 20
    let tol := max (k <<< (u - x).toNat) (if abs then 1 <<< (-24 - x).toNat else 0)
    decide ((sigAt s m g x - sigAt t n e x).natAbs + 1 <<< (u - 20 - x).toNat ≤ tol)
  | _, _ => false

/-- The engine's value where it lies within its bound, the rounded value where it would not; an exact zero keeps its sign (R39, R96). -/
def within (cand k : Nat) (abs : Bool) (v : Fv) : Nat :=
  let c := cand % 2 ^ 32
  if nearFv c k abs v && zeroOk c v then c else enc32 v

end Sys2Proof.Machine
end

