-- ==== Sys2Proof/Machine/Array.lean ====
section
/-! DEFINITION. The Matrix Array's arithmetic: alignment, rescale stations, plain integer mode, four-pass mode and the
drain accumulators (R41, R59 to R76). Clip events are counted beside every result (R54, R68, R69, R76). -/

namespace Sys2Proof.Machine

/-- Rounding to FP32 with saturation to the largest finite value and a clip event (R68, R76). -/
def satEnc : Fv → Nat × Nat
  | .nan => (0x7FC00000, 0)
  | .inf s => (withSign f32 s 0x7F7FFFFF, 1)
  | .fin s m e =>
    let g := roundMag f32 m e
    if f32.maxCode < g then (withSign f32 s f32.maxCode, 1) else (withSign f32 s g, 0)

/-- FP32 add with saturation (R68 step 4, R76). -/
def satAdd (a b : Nat) : Nat × Nat := satEnc (fvAdd (dec32 a) (dec32 b))

/-- Cut a list into pieces of `n`; `fuel` bounds the number of pieces. -/
def chunksAux {α : Type} (n : Nat) : Nat → List α → List (List α)
  | 0, _ => []
  | _, [] => []
  | k + 1, x :: xs => (x :: xs).take n :: chunksAux n k ((x :: xs).drop n)
def chunks {α : Type} (n : Nat) (l : List α) : List (List α) := chunksAux n l.length l

/-- One aligned group: signed significands, the unit's exponent and the mark (R57, R65, R41). -/
structure AGroup where
  a : List Int
  u : Int
  mark : Bool
  deriving DecidableEq, Repr

/-- The larger magnitude of two finite values. -/
def maxMag (x y : Fv) : Fv := if fvLt x (fvAbs y) then fvAbs y else x

/-- Significand of a finite value in units of 2^u, ties away. -/
def alignOne (u : Int) : Fv → Int
  | .fin s m e => rnaInt s m (e - u)
  | _ => 0

/-- Alignment of one group to b significant bits; integers stay exact with unit 1 (R65). -/
def alignGroup (b : Nat) (int : Bool) (vs : List Fv) : AGroup :=
  let mark := vs.any fun v => !fvIsFin v
  if int then ⟨vs.map (alignOne 0), 0, mark⟩ else
    match (vs.filter fvIsFin).foldl maxMag (.fin false 0 0) with
    | .fin _ m e =>
      if m = 0 then ⟨vs.map fun _ => 0, 0, mark⟩ else
        let l : Int := Nat.log2 m
        let q := rna m ((b : Int) - 1 - l)
        let ex := if q = 2 ^ b then l + e + 1 else l + e
        let u := ex - b + 1
        ⟨vs.map (alignOne u), u, mark⟩
    | _ => ⟨[], 0, true⟩

/-- The b of an operand (R65). -/
def alignBits (fourPass : Bool) (fmt : Nat) : Nat := if fourPass then 16 else if cls4 fmt then 4 else 8

/-- Exact dot product of two aligned groups: the group partial (R59). -/
def dot : List Int → List Int → Int
  | a :: r, b :: t => a * b + dot r t
  | _, _ => 0

/-- A value scaled by 2^k. -/
def fvScale (k : Int) : Fv → Fv
  | .fin s m e => .fin s m (e + k)
  | v => v

/-- One station term: r + round(P · f) (R67 steps 1 to 4, R68). `pl` is the plane shift of four-pass mode (R70).
A running sum that is a NaN stays one; the product's own saturation is a clip event all the same. DESIGN CHOICE (log 48): the product of a
marked group, which the spec does not define, counts none. -/
def station (r : Nat × Nat) (mark : Bool) (p : Int) (u pl : Int) (ss sm : Fv) : Nat × Nat :=
  if mark || fvIsNan ss || fvIsNan sm then (0x7FC00000, r.2) else
    let t := satEnc (fvMul (fvInt p) (fvScale (u + pl) (fvMul ss sm)))
    let t := if t.1 = 0x80000000 then (0, t.2) else t
    let s := satAdd r.1 t.1
    (s.1, r.2 + t.2 + s.2)

/-- High and low planes of an aligned value (R70). -/
def hiPlane (a : Int) : Int := if a < 0 then -((a.natAbs / 256 : Nat) : Int) else (a.natAbs / 256 : Nat)
def loPlane (a : Int) : Int := if a < 0 then -((a.natAbs % 256 : Nat) : Int) else (a.natAbs % 256 : Nat)

/-- One operand as the stations meet it: per row or vector, its aligned groups with their scale values. -/
abbrev ARow := List (AGroup × Fv)

/-- Align one row or vector in groups of `g`, pairing each group with its scale (R64, R65). -/
def alignRow (b g : Nat) (int : Bool) (vs : List Fv) (scales : List Fv) : ARow :=
  ((chunks g vs).zipIdx).map fun p => (alignGroup b int p.1, scales.getD p.2 (.fin false 1 0))

/-- The terms of one traversal of a pass over its groups, in station order from +0 (R67). -/
def traverse (f : Int → Int) (pls : List (Int × (Int → Int))) (st mv : ARow) : Nat × Nat :=
  (st.zip mv).foldl (fun r p =>
    pls.foldl (fun r q =>
      station r (p.1.1.mark || p.2.1.mark) (dot (p.1.1.a.map f) (p.2.1.a.map q.2)) (p.1.1.u + p.2.1.u) q.1
        p.1.2 p.2.2) r) (0, 0)

/-- Station results of one pass: one traversal, or the two of four-pass mode (R67, R70). -/
def passTerms (fourPass : Bool) (st mv : ARow) : List (Nat × Nat) :=
  if fourPass then
    [traverse hiPlane [(16, hiPlane), (8, loPlane)] st mv, traverse loPlane [(8, hiPlane), (0, loPlane)] st mv]
  else [traverse id [(0, id)] st mv]

/-- Drain accumulation of pass results onto an earlier sum (R76): the first write takes the value as it is. -/
def accum (prev : Option Nat) (ts : List (Nat × Nat)) : Option Nat × Nat :=
  ts.foldl (fun a t =>
    match a.1 with
    | none => (some t.1, a.2 + t.2)
    | some v => let s := satAdd v t.1; (some s.1, a.2 + t.2 + s.2)) (prev, 0)

/-- INT32 add with saturation (R69); the code is two's complement. -/
def i32 (c : Nat) : Int := if c < 2 ^ 31 then (c : Int) else (c : Int) - 2 ^ 32
def sat32 (v : Int) : Nat × Nat :=
  if v < -(2 ^ 31) then (0x80000000, 1) else if 2 ^ 31 - 1 < v then (0x7FFFFFFF, 1) else ((v % 2 ^ 32).toNat, 0)

/-- The reduction blocks' order: the program's order where it is a permutation of them (R75, R76, R83). -/
def blockOrder (n : Nat) (order : List Nat) : List Nat :=
  if order.length = n && (List.range n).all order.contains then order else List.range n

/-- One output in plain integer mode (R69). -/
def plainOut (order : List Nat) (prev : Option Nat) (st mv : List Int) : Nat × Nat :=
  let ss := chunks 128 st
  let ms := chunks 128 mv
  order.foldl (fun a k =>
    let p := dot (ss.getD k []) (ms.getD k [])
    let s := sat32 (i32 a.1 + p)
    (s.1, a.2 + s.2)) (prev.getD 0, 0)

/-- The operands of one array operation: stationary rows and moving vectors over the same reduction, decoded,
with outlier channels already zero, and their scale values per group. -/
structure MmaIn where
  st : List (List Fv)
  mv : List (List Fv)
  stFmt : Nat
  mvFmt : Nat
  group : Nat
  stScale : List (List Fv)
  mvScale : List (List Fv)
  order : List Nat

/-- Four-pass mode (R70) and plain integer mode (R69) of an operand pair. -/
def fourPass (a b : Nat) : Bool := a == 0xA || b == 0xA
def plainMode (group a b : Nat) : Bool := group == 0 && isInt a && isInt b

/-- Every output of an array operation, row by row, with the clip count (R67 to R77). `prev` is the chain's sums. -/
def mmaOut (x : MmaIn) (prev : Option (List (List Nat))) : List (List Nat) × Nat :=
  let prevAt (i n : Nat) : Option Nat := prev.map fun p => nth (p.getD i []) n
  let red := (x.st.map List.length).foldl max 0
  let order := blockOrder (cdiv red 128) x.order
  if plainMode x.group x.stFmt x.mvFmt then
    let ms := x.mv.map fun v => v.map (alignOne 0)
    let rows := x.st.zipIdx.map fun r =>
      let s := r.1.map (alignOne 0)
      ms.zipIdx.map fun v => plainOut order (prevAt r.2 v.2) s v.1
    (rows.map fun r => r.map (·.1), (rows.map fun r => (r.map (·.2)).sum).sum)
  else
    let fp := fourPass x.stFmt x.mvFmt
    let g := if x.group = 0 then 32 else x.group
    let per := 128 / g
    let ms := x.mv.zipIdx.map fun v =>
      chunks per (alignRow (alignBits fp x.mvFmt) g (isInt x.mvFmt) v.1 (x.mvScale.getD v.2 []))
    let rows := x.st.zipIdx.map fun r =>
      let ss := chunks per (alignRow (alignBits fp x.stFmt) g (isInt x.stFmt) r.1 (x.stScale.getD r.2 []))
      ms.zipIdx.map fun v =>
        let ts := (order.map fun k => passTerms fp (ss.getD k []) (v.1.getD k [])).flatten
        let a := accum (prevAt r.2 v.2) ts
        (a.1.getD 0, a.2)
    (rows.map fun r => r.map (·.1), (rows.map fun r => (r.map (·.2)).sum).sum)

/-! ### The cells after an operation (R57, R63, R70, R71, R80) -/

/-- The aligned elements of reduction block `k` of a row or vector, each with its group's mark; integers of plain mode as they are. -/
def blockOf (plain : Bool) (b g : Nat) (int : Bool) (k : Nat) (vs : List Fv) : List (Int × Bool) :=
  let u := (chunks 128 vs).getD k []
  if plain then u.map fun v => (alignOne 0 v, false)
  else (chunks g u).flatMap fun w => let a := alignGroup b int w; a.a.map fun v => (v, a.mark)

/-- The group accumulators along a row: sums of products from the start of each group of `g` (R57). -/
def groupSums (g : Nat) : Nat → Int → List Int → List Int
  | _, _, [] => []
  | i, acc, p :: r => let a := (if i % g = 0 then 0 else acc) + p; a :: groupSums g (i + 1) a r

/-- Rows as columns. -/
def transposed {α : Type} (l : List (List α)) : List (List α) :=
  (List.range ((l.map List.length).foldl max 0)).map fun i => l.filterMap (·[i]?)

/-- The last vectors that enter together: one, or a pair at double rate, whose second element is zero when N is odd (R71). -/
def lastMoving (double : Bool) (mv : List (List Int)) : List (List Int) :=
  let l := mv.drop (mv.length - (if double && mv.length % 2 = 0 then 2 else 1))
  if double && mv.length % 2 = 1 then l ++ l.map fun v => v.map fun _ => (0 : Int) else l

/-- The cells when the last vector of an operation has left: the last stationary tile in the working registers (its low plane in
four-pass mode), the tile before it (its high plane) in the shadow registers, the last moving elements and the group sums. Where sums flow
down columns (`flip`, the transposed orientation of R60), the reduction runs along i and the rows of the operand along j. -/
def arrayCells (flip : Bool) (old : Cells) (x : MmaIn) : Cells :=
  let lay {α : Type} (t : List (List α)) : List (List α) := if flip then transposed t else t
  let plain := plainMode x.group x.stFmt x.mvFmt
  let fp := fourPass x.stFmt x.mvFmt
  let g := if plain then 128 else if x.group = 0 then 32 else x.group
  let red := (x.st.map List.length).foldl max 0
  let tiles := (List.range (cdiv x.st.length 128)).flatMap fun r => (blockOrder (cdiv red 128) x.order).map fun k => (r, k)
  let tile (p : Nat × Nat) : List (List (Int × Bool)) :=
    ((x.st.drop (128 * p.1)).take 128).map (blockOf plain (alignBits fp x.stFmt) g (isInt x.stFmt) p.2)
  let plane (f : Int → Int) (t : List (List (Int × Bool))) : List (List (Int × Bool)) := t.map fun r => r.map fun v => (f v.1, v.2)
  match tiles.reverse with
  | [] => old
  | p :: before =>
    let t := tile p
    let w := if fp then plane loPlane t else t
    let mvs := lastMoving (cls4 x.mvFmt && !fp) (x.mv.map fun v =>
      (blockOf plain (alignBits fp x.mvFmt) g (isInt x.mvFmt) p.2 v).map fun e => if fp then loPlane e.1 else e.1)
    { working := lay w
      shadow := if fp then lay (plane hiPlane t) else ((before.head?).map fun q => lay (tile q)).getD old.working
      moving := mvs
      sums := mvs.map fun v => lay (w.map fun r => groupSums g 0 0 ((r.zip v).map fun q => q.1.1 * q.2))
      links := [] }

/-- The drain accumulators after results passed through them, row block by row block (R75, R76, R141). DESIGN CHOICE (log 48): R141 names the
rotation between MMA operations only, so every row block of one starts at the same next entry and overwrites the block before it. -/
def accPut (acc : Map Nat) (next : Nat) (rows : List (List Nat)) : Map Nat :=
  (chunks 128 rows).foldl (fun a b => b.zipIdx.foldl (fun a r =>
    (r.1.zipIdx).foldl (fun a p => mset a (2048 * r.2 + (next + p.2) % 2048) p.1) a) a) acc

/-- The number of passes of a tile (R75). -/
def passCount (fp : Bool) (m k n : Nat) : Nat :=
  let c := if k ≤ 128 && !fp then n else 2048
  cdiv m 128 * cdiv n c * cdiv k 128

/-- Streaming cycles of a pass of n vectors (R80). -/
def streamCycles (stFmt mvFmt n : Nat) : Nat :=
  if fourPass stFmt mvFmt then 4 * n else if cls4 mvFmt then cdiv n 2 else n

/-- Load cycles of a stationary tile (R79). -/
def loadCycles (fmt : Nat) : Nat :=
  if fmt = 6 || fmt = 7 then 96 else 16 * fmtBits fmt

/-- The outlier sum o of one output: fused multiply-adds in ascending channel order (R74). -/
def outlierSum : List Nat → List Nat → Nat → Nat
  | a :: r, b :: t, acc => outlierSum r t (fmaF a b acc)
  | _, _, acc => acc

/-- Outlier list check: at most 32, strictly ascending, inside the reduction (R73). -/
def ascending : List Nat → Bool
  | a :: b :: r => decide (a < b) && ascending (b :: r)
  | _ => true
def outliersOk (l : List Nat) (red : Nat) : Bool := decide (l.length ≤ 32) && ascending l && l.all (· < red)

/-- Set the outlier channels of a row or vector to zero (R73). -/
def zeroAt (l : List Nat) (vs : List Fv) : List Fv :=
  vs.zipIdx.map fun p => if l.contains p.2 then .fin false 0 0 else p.1

end Sys2Proof.Machine
end

