-- ==== Sys2Proof/Machine/Vector.lean ====
section
/-! DEFINITION. The Vector Engine: epilogue stages, generated scales, reductions, softmax, normalisation, user tables
and the optimiser step (R86 to R102). -/

namespace Sys2Proof.Machine

/-! ### Table functions (R96) -/

/-- The number of a table function for Config.tabFn. -/
def tabNum : TabFn → Nat
  | .exp => 2 | .log => 3 | .tanh => 4 | .sigmoid => 5 | .erf => 6 | .gelu => 7 | .silu => 8 | .softplus => 9

/-- The limit of a table function at −∞ and +∞, as codes (R96). -/
def tabLimit : TabFn → Bool → Nat
  | .exp, true => 0 | .exp, false => 0x7F800000
  | .log, true => 0x7FC00000 | .log, false => 0x7F800000
  | .tanh, true => 0xBF800000 | .tanh, false => 0x3F800000
  | .sigmoid, true => 0 | .sigmoid, false => 0x3F800000
  | .erf, true => 0xBF800000 | .erf, false => 0x3F800000
  | .gelu, true => 0 | .gelu, false => 0x7F800000
  | .silu, true => 0 | .silu, false => 0x7F800000
  | .softplus, true => 0 | .softplus, false => 0x7F800000

/-- Logarithms outside their domain: −∞ at zero, NaN below (R87: IEEE). -/
def logSpecial (a : Nat) : Option Nat :=
  match dec32 a with
  | .fin s m _ => if m = 0 then some 0xFF800000 else if s then some 0x7FC00000 else none
  | _ => none

/-- The exact value of a table function at a finite value; a logarithm's argument is positive, and the odd functions keep the sign of a zero (R39). -/
def tabExact (f : TabFn) (v : Fv) : Fv :=
  let x := apOf v
  match f, v with
  | .exp, _ => apExp x
  | .log, .fin _ m e => apFv (apLn m e)
  | .tanh, _ => if fvIsZero v then v else apFv (apTanh x)
  | .sigmoid, _ => apFv (apSigm x)
  | .erf, _ => if fvIsZero v then v else apFv (apErf x)
  | .gelu, _ => fvMul v (apFv ((apOne + apErf (apMul x apRt2)).fdiv 2))
  | .silu, _ => fvMul v (apFv (apSigm x))
  | .softplus, _ => fvAdd (if x < 0 then .fin false 0 0 else v) (apFv (apLn (apOne + apDecay x).toNat (-160)))
  | _, _ => v

/-- A built-in table function (R96): its limits, NaN for NaN, otherwise the engine's own value within 4 ulp, or 2^−24 where that is
larger (log 6). -/
def tableFn (f : TabFn) (a : Nat) : Nat :=
  match dec32 a with
  | .nan => 0x7FC00000
  | .inf s => tabLimit f s
  | .fin s m e =>
    match (if f = .log then logSpecial a else none) with
    | some v => v
    | none => within (Config.tabFn (tabNum f) a) 4 true (tabExact f (.fin s m e))

/-- exp2 and log2 (R96): within 2 ulp. -/
def exp2F (a : Nat) : Nat :=
  match dec32 a with
  | .nan => 0x7FC00000
  | .inf s => if s then 0 else 0x7F800000
  | .fin s m e => within (Config.tabFn 0 a) 2 false (apExp2 (apOf (.fin s m e)))
def log2F (a : Nat) : Nat :=
  match dec32 a with
  | .nan => 0x7FC00000
  | .inf s => if s then 0x7FC00000 else 0x7F800000
  | .fin _ m e => (logSpecial a).getD (within (Config.tabFn 1 a) 2 false (apFv (apLog2 m e)))

/-- A user table's bounds are usable: finite with lo < hi (R99). -/
def userTabOk (t : List Byte) : Bool :=
  let lo := dec32 (leAt t 1028 4)
  let hi := dec32 (leAt t 1032 4)
  fvIsFin lo && fvIsFin hi && fvLt lo hi

/-- One interpolation (R99): the engine's value where it lies within 1 ulp of the exact interpolant y0 + (y1 − y0)·w,
otherwise the rounded interpolant (R96). Between breakpoints that are not finite the spec states no value (log 6). -/
def interp (y0 y1 lo hi x : Nat) (i : Nat) : Nat :=
  match dec32 y0, dec32 y1, dec32 lo, dec32 hi, dec32 x with
  | .fin s0 m0 e0, .fin s1 m1 e1, .fin sl ml el, .fin sh mh eh, .fin sx mx ex =>
    let e := min el (min eh ex)
    let d := sigAt sh mh eh e - sigAt sl ml el e
    let w := 256 * (sigAt sx mx ex e - sigAt sl ml el e) - (i : Int) * d
    let g := min e0 e1
    let num := sigAt s0 m0 e0 g * d + (sigAt s1 m1 e1 g - sigAt s0 m0 e0 g) * w
    let c := Config.userTab y0 y1 lo hi x % 2 ^ 32
    if nearRat c 1 (num < 0) num.natAbs d.natAbs g && zeroOk c (fvInt num) then c else ratF (num < 0) num.natAbs d.natAbs g
  | _, _, _, _, _ => if fvIsNan (dec32 y0) || fvIsNan (dec32 y1) then 0x7FC00000 else enc32 (dec32 (Config.userTab y0 y1 lo hi x % 2 ^ 32))

/-- The user table function (R99); a NaN breakpoint gives the canonical NaN (R40). -/
def userTable (t : List Byte) (x : Nat) : Nat :=
  let y (i : Nat) := enc32 (dec32 (leAt t (4 * i) 4))
  let lo := leAt t 1028 4
  let hi := leAt t 1032 4
  let v := dec32 x
  if fvIsNan v then 0x7FC00000
  else if fvLt v (dec32 lo) then y 0
  else if fvLt (dec32 hi) v then y 256
  else
    match dec32 lo, dec32 hi, v with
    | .fin sl ml el, .fin sh mh eh, .fin sx mx ex =>
      let e := min el (min eh ex)
      let d := (sigAt sh mh eh e - sigAt sl ml el e).natAbs
      let n := (sigAt sx mx ex e - sigAt sl ml el e).natAbs
      let i := min 255 (256 * n / d)
      interp (y i) (y (i + 1)) lo hi x i
    | _, _, _ => 0x7FC00000

/-! ### Reductions (R97) -/

/-- ⌈log2 L⌉. -/
def clog2 (l : Nat) : Nat := if l ≤ 1 then 0 else Nat.log2 (l - 1) + 1

/-- Exact sum of a list of values. -/
def fvSum (l : List Fv) : Fv := l.foldl fvAdd (.fin true 0 0)

/-- |x − y| ≤ b for finite values. -/
def fvNear (x y b : Fv) : Bool := !fvLt b (fvAbs (fvAdd x (fvNeg y)))

/-- Whether the elements of one sign can add up to an infinity in some tree, roundings included (R87). -/
def mayOverflow (neg : Bool) (xs : List Fv) : Bool :=
  let t := fvSum ((xs.filter fun v => fvIsNeg v == neg && !fvIsNan v).map fvAbs)
  fvLt (.fin false 0xFFFFFF 104) (fvAdd t (fvMul t (.fin false (clog2 xs.length) (-24))))

/-- A sum the engine gives, within ⌈log2 L⌉ · 2^−24 · Σ|x| plus `extra`, or the rounded sum (R97; log 6). An infinity comes from partial sums of
its sign that may overflow, a NaN from both (R87). An exact zero has IEEE's sign (R39), and a sum of two is rounded once. -/
def boundedSum (cand : Nat) (xs : List Fv) (extra : Fv) : Nat :=
  let s := fvSum xs
  let c := cand % 2 ^ 32
  let nan := mayOverflow false xs && mayOverflow true xs
  if xs.length ≤ 2 && fvIsZero extra then enc32 s
  else match s, dec32 c with
  | .fin _ _ _, .fin _ _ _ =>
    let b := fvAdd (fvMul (.fin false (clog2 xs.length) (-24)) (fvSum (xs.map fvAbs))) extra
    if fvNear (dec32 c) s b && !(c = 0x80000000 && !fvIsNeg s) && !(fvIsZero b && fvIsZero s) then c else enc32 s
  | .fin _ _ _, .inf t => if mayOverflow t xs then enc32 (.inf t) else enc32 s
  | .nan, _ => enc32 s
  | _, .nan => if nan then 0x7FC00000 else enc32 s
  | .inf _, _ => enc32 s

/-- The sum and the sum of squares of FP32 codes (R97). -/
def sumF (l : List Nat) : Nat := boundedSum (Config.vsum l) (l.map dec32) (.fin false 0 0)
def sumsqF (l : List Nat) : Nat :=
  let q := l.map fun c => fvMul (dec32 c) (dec32 c)
  boundedSum (Config.vsumsq l) q (fvMul (.fin false 1 (-24)) (fvSum (q.map fvAbs)))

/-- Index of the extreme: the lowest NaN index where there is a NaN, else the lowest index of the extreme (R97). DESIGN CHOICE (log 48):
−0 and +0 are equal extremes here, as in a comparison (R87), though min and max order them. -/
def argExt (lt : Fv → Fv → Bool) (l : List Nat) : Nat :=
  let vs := l.map dec32
  match vs.findIdx? fvIsNan with
  | some i => i
  | none => ((vs.zipIdx).foldl (fun (b : Option (Fv × Nat)) p =>
      match b with
      | none => some p
      | some q => if lt p.1 q.1 then some p else some q) none).elim 0 (·.2)

/-- A reduction's result as an FP32 code (R97); argmax and argmin as the index's FP32 value. -/
def reduceF (r : Red) (l : List Nat) : Nat :=
  match r with
  | .sum => sumF l
  | .sumsq => sumsqF l
  | .max => match l with | [] => 0 | x :: t => t.foldl maxF (maxF x x)
  | .min => match l with | [] => 0 | x :: t => t.foldl minF (minF x x)
  | .argmax => enc32 (fvInt (argExt (fun a b => fvLt b a) l))
  | .argmin => enc32 (fvInt (argExt fvLt l))

/-! ### Softmax and normalisation (R98) -/

/-- m / n · 2^e to 200 bits. -/
def ratFv (m n : Nat) (e : Int) : Fv := let k := 200 + Nat.log2 n; .fin false ((m <<< k) / n) (e - k)

/-- Softmax of a vector, its special cases first (R98): each output within (12 + ⌈log2 L⌉) ulp of the exact one (log 6). -/
def softmaxF (l : List Nat) : List Nat :=
  let vs := l.map dec32
  let infs := (vs.filter (· = .inf false)).length
  if vs.any fvIsNan then l.map fun _ => 0x7FC00000
  else if infs ≠ 0 then vs.map fun v => if v = .inf false then ratF false 1 infs 0 else 0
  else if vs.all (· = .inf true) then l.map fun _ => 0
  else
    let top := vs.foldl (fun a v => if fvLt a v then v else a) (.inf true)
    let es := vs.map fun v => if v = .inf true then .fin false 0 0 else apExp (apOf (fvAdd v (fvNeg top)))
    match fvSum es with
    | .fin _ n g => es.zipIdx.map fun p =>
      match p.1 with
      | .fin _ m e =>
        if m = 0 then 0
        else
          let c := Config.softmax l p.2 % 2 ^ 32
          if nearFv c (12 + clog2 l.length) false (ratFv m n (e - g)) then c else ratF false m n (e - g)
      | _ => 0
    | _ => l.map fun _ => 0

/-- Whether σ² + ε is exactly zero (R98). -/
def zeroVar (rms : Bool) (l : List Nat) (eps : Nat) : Bool :=
  let vs := l.map dec32
  fvIsZero (dec32 eps) &&
    (if rms then vs.all fvIsZero else vs.all fvIsFin && vs.all fun v => fvEq v (vs.headD (.fin false 0 0)))

/-- x̂ of every element of a finite vector before γ and β, as numerator and denominator: (L·x − Σx) over L·√(ΣN²/L³ + ε), where N is the
numerator; in RMS form N is L·x. The root is taken to 2^−`k` of the numbers' unit. ε is finite. -/
def normExact (rms : Bool) (l : List Nat) (eps : Nat) : List (Int × Nat) :=
  let vs := l.map dec32
  let ex : Fv → Int := fun v => match v with | .fin _ _ e => e | _ => 0
  let n := l.length
  let u := ((ex (dec32 eps) :: vs.map ex).foldl min 0) - 1
  let at' (v : Fv) (g : Int) : Int := match v with | .fin s m e => sigAt s m e g | _ => 0
  let xs := vs.map fun v => at' v u
  let tot := if rms then 0 else xs.foldl (· + ·) 0
  let ns := xs.map fun x => (n : Int) * x - tot
  let sq := (ns.map fun x => x.natAbs * x.natAbs).foldl (· + ·) 0
  let k := 80
  let r := isqrt (((sq + n ^ 3 * (at' (dec32 eps) (2 * u)).natAbs) <<< (2 * k)) / n ^ 3)
  ns.map fun x => (x * 2 ^ k, n * r)

/-- Whether finite code `c` lies within (6 + 2⌈log2 L⌉) · 2^−23 · (1 + |x̂|) of x̂ = p/q (R98), 2^−40 of that allowed for the root. -/
def nearNorm (c l : Nat) (p : Int) (q : Nat) : Bool :=
  match dec32 c with
  | .fin s m e =>
    let x := min e 0 - 63
    let cd := sigAt s m e x * q
    let ex := p * 2 ^ (-x).toNat
    decide ((cd - ex).natAbs * 2 ^ 63 + (q + p.natAbs) * 2 ^ ((-x).toNat + 23) ≤ (6 + 2 * clog2 l) * (q + p.natAbs) * 2 ^ ((-x).toNat + 40))
  | _ => false

/-- Layer or RMS normalisation of a vector (R98): x̂ · γ + β; β alone where σ² + ε is zero. x̂ is the engine's where it lies within its
bound (log 6). An infinite element makes the mean or its own deviation a NaN, and in RMS form every finite x̂ +0 or −0 (R87); an infinite ε
makes every finite x̂ a zero of its deviation's sign. An exact zero keeps its sign (R39), and an RMS zero is exact. -/
def normF (rms : Bool) (l gamma beta : List Nat) (eps : Nat) : List Nat :=
  let zv := zeroVar rms l eps
  let bad := l.any fun c => fvIsNan (dec32 c)
  let inf := l.any fun c => !fvIsFin (dec32 c)
  let epsInf := !fvIsFin (dec32 eps)
  let ex := if inf then [] else normExact rms l (if epsInf then 0x3F800000 else eps)
  l.zipIdx.map fun p =>
    let b := nth beta p.2
    if zv then b
    else if bad || (inf && !rms) then 0x7FC00000
    else
      let q := ex.getD p.2 (0, 1)
      let c := Config.norm rms l eps p.2 % 2 ^ 32
      let xh := if inf || (rms && (epsInf || fvIsZero (dec32 p.1))) then mulF p.1 0
        else if epsInf then withSign f32 (q.1 < 0) 0
        else if nearNorm c l.length q.1 q.2 && zeroOk c (fvInt q.1) then c else ratF (q.1 < 0) q.1.natAbs q.2 0
      addF (mulF xh (nth gamma p.2)) b

/-- ε is usable: at least 0 and no NaN (R98). -/
def epsOk (eps : Nat) : Bool := !fvIsNan (dec32 eps) && !fvLt (dec32 eps) (.fin false 0 0)

/-! ### Comparison (R87, R143) -/

/-- A comparison with a predicate (R87). -/
def cmpF (p : Pred) (a b : Nat) : Bool :=
  let x := dec32 a
  let y := dec32 b
  match p with
  | .eq => fvEq x y
  | .ne => !fvEq x y
  | .lt => fvLt x y
  | .le => fvLt x y || fvEq x y
  | .gt => fvLt y x
  | .ge => fvLt y x || fvEq x y

/-! ### Output conversion (R53, R55, R91 to R93) -/

/-- Conversion with a given scale: x · (1/s) into the target (R93). -/
def requant (fmt z x s : Nat) : Nat × Bool := convert fmt z (dec32 (scaleDiv x s))

/-- The range [L, H] of a generated-scale target under an element's zero point (R91). -/
def genRange (fmt z : Nat) : Fv × Fv :=
  match fmt with
  | 0x0 => (fvInt (-7), fvInt 7)
  | 0x2 => (fvInt (-127), fvInt 127)
  | 0x1 => (fvInt (-(z % 16 : Nat)), fvInt (15 - (z % 16 : Nat)))
  | 0x3 => (fvInt (-(z % 256 : Nat)), fvInt (255 - (z % 256 : Nat)))
  | _ => match ffmt fmt with
    | some f => let m := decodeF f f.maxCode; (fvNeg m, m)
    | none => (fvInt 0, fvInt 0)

/-- Whether scale value `s` holds every finite element in its range (R91 step 2). -/
def scaleFits (s : Fv) (vs : List (Fv × Fv × Fv)) : Bool :=
  vs.all fun v => !fvIsFin v.1 || (!fvLt v.1 (fvMul v.2.1 s) && !fvLt (fvMul v.2.2 s) v.1)

/-- The smallest code from `c` upward that fits, `fuel` codes tried. -/
def leastScale (st : Nat) (vs : List (Fv × Fv × Fv)) : Nat → Nat → Option Nat
  | 0, _ => none
  | k + 1, c => if scaleFits (scaleVal st c) vs then some c else leastScale st vs k (c + 1)

/-- The FP32 code of a scale value; every finite scale is an FP32 value. -/
def scaleCode (st c : Nat) : Nat := enc32 (scaleVal st c)

/-- Generated scale of one group of FP32 codes with their zero points: the scale byte, the element codes and the clip events
(R91, R92). -/
def genGroup (fmt st : Nat) (l : List (Nat × Nat)) : Nat × List Nat × Nat :=
  let vs := l.map fun x => dec32 x.1
  let nan := vs.any fvIsNan
  let emit (c : Nat) : Nat × List Nat × Nat :=
    let r := l.map fun x => requant fmt x.2 x.1 (scaleCode st c)
    (c, r.map (·.1), (r.filter (·.2)).length)
  if nan && st = 2 then
    let r := l.map fun x => convert fmt x.2 .nan
    (0xFF, r.map (·.1), (r.filter (·.2)).length)
  else if vs.all fun v => !fvIsFin v || fvIsZero v then emit (if st = 1 then 0x38 else 0x7F)
  else
    match leastScale st (l.map fun x => (dec32 x.1, genRange fmt x.2)) (if st = 1 then 128 else 255) 0 with
    | some c => emit c
    | none => emit (if st = 1 then 0x7F else 0xFE)

/-! ### The activation stage (R88, R89) -/

/-- ReLU, clamp and leaky ReLU pass NaN unchanged (R89). -/
def reluF (x : Nat) : Nat := if fvIsNan (dec32 x) then x else maxF x 0
def clampF (lo hi x : Nat) : Nat := if fvIsNan (dec32 x) then x else minF (maxF x lo) hi
def leakyF (slope x : Nat) : Nat :=
  if fvIsNan (dec32 x) then x else if fvLt (dec32 x) (.fin false 0 0) then mulF x slope else x

/-- A clamp's bounds are usable (R89). -/
def clampOk (lo hi : Nat) : Bool :=
  !fvIsNan (dec32 lo) && !fvIsNan (dec32 hi) && !fvLt (dec32 hi) (dec32 lo)

/-! ### The optimiser step (R100 to R102) -/

/-- The host's scalars (R100), as FP32 codes in the order of the parameter block slots. -/
structure OptScalars where
  lr : Nat
  b1 : Nat
  ob1 : Nat
  b2 : Nat
  ob2 : Nat
  c1 : Nat
  c2 : Nat
  eps : Nat
  lambda : Nat
  gscale : Nat
  mu : Nat
  deriving DecidableEq, Repr

/-- One element: the new w, m, v, and whether it was left unchanged (R101, R102). -/
def optStep (adamw : Bool) (s : OptScalars) (w g m v : Nat) : Nat × Nat × Nat × Bool :=
  let g1 := mulF g s.gscale
  if !fvIsFin (dec32 g1) then (w, m, v, true) else
    if adamw then
      let m1 := addF (mulF s.b1 m) (mulF s.ob1 g1)
      let v1 := addF (mulF s.b2 v) (mulF (mulF s.ob2 g1) g1)
      let q := divF (mulF m1 s.c1) (addF (sqrtF (mulF v1 s.c2)) s.eps)
      (subF w (mulF s.lr (addF q (mulF s.lambda w))), m1, v1, false)
    else
      let m1 := addF (mulF s.mu m) g1
      (subF w (mulF s.lr (addF m1 (mulF s.lambda w))), m1, v, false)

end Sys2Proof.Machine
end

