-- ==== Sys2Proof/Machine/Clerks.lean ====
section
/-! DEFINITION. Clerk restarts, self-test of a core and of the block, telemetry bindings, power failure, droop, the power cap
and the test port (R405, R406, R408 to R411, R413 to R421, R425, R445, R453). -/

namespace Sys2Proof.Machine

/-! ### Restarting a Clerk (R405, R406) -/

/-- Change a Clerk. -/
def clerkUpd (i : Nat) (f : Clerk → Clerk) (m : Mach) : Mach := { m with clerks := lupd m.clerks i f }

/-- What an interrupted command had set, so that it can run again from its beginning (R405). -/
def undo (c : Cfg) (k : Cmd) (m : Mach) : Mach :=
  match k.opcode with
  | 0x204 => domUpd k.dom (fun e => { e with lastInval := (e.lastInval + 2 ^ 32 - 1) % 2 ^ 32 }) m
  | 0x205 => domUpd k.dom (fun e => { e with lastInval := (e.lastInval + 2 ^ 32 - 1) % 2 ^ 32 }) m
  | 0x301 => { m with parcels := mupd m.parcels (k.argN 0x18 2) fun p => { p with unbinding := false } }
  | 0x601 => { m with depot := { m.depot with regions := mupd m.depot.regions (k.argN 0x18 2) fun r => { r with freeing := false } } }
  | 0x603 => { m with depot := { m.depot with tables := mupd m.depot.tables (k.argN 0x18 1) fun t => { t with closing := false } } }
  | 0x900 =>
    match m.st.core with
    | none => m
    | some n => testEnds c n m
  | _ => m

/-- A Clerk halts, its SRAM zeroed: the commands it was executing wait to start again from their beginning. -/
def clerkHalt (c : Cfg) (i cause : Nat) (m : Mach) : Mach :=
  let m := clerkUpd i (fun k => { k with running := false, cause := cause, sram := [] }) m
  let mine := m.rings.cmds.filter fun p => clerkOf p.2.opcode == i && p.2.phase == 1
  let m := mine.foldl (fun m p => undo c p.2 m) m
  { m with
    rings := { m.rings with cmds := mmap (fun _ k =>
      if clerkOf k.opcode = i then { k with phase := 0, arg := 0, result := [], areaBytes := if k.relay.isSome then k.areaBytes else [] } else k) m.rings.cmds }
    store := if m.store.busy.any fun b => mine.any (·.1 == b) then { m.store with busy := none } else m.store
    casc := { m.casc with requests := mfilter (fun _ r => !mine.any (·.1 == r.cmd)) m.casc.requests } }

/-- The checks of clerkRestart. -/
def clerkRestartChecks : Cfg → Mach → Cmd → List (Bool × Nat) :=
  fun _ _ k => [(3 < k.argN 0x18 1, stParamRange)]

/-- CLERK_RESTART: the response goes before the halt (DESIGN CHOICE, log 28: Clerk 3 may restart itself). -/
def clerkRestart (id t : Nat) (c : Cfg) (m : Mach) : Mach :=
  cmdRow 0x0006 id (fun _ => 0) clerkRestartChecks
    (fun c k m =>
      let i := k.argN 0x18 1
      let m := respond c id stOk [] m
      if clerkRuns m i then clerkHalt c i 3 m else m) c (tickTo t m)

/-- A missed heartbeat or a Clerk fault. -/
def heartbeatMiss (i : Nat) (faulted : Bool) (t : Nat) (c : Cfg) (m : Mach) : Mach :=
  let m := tickTo t m
  if clerkRuns m i then clerkHalt c i (if faulted then 2 else 1) m else m

/-- A halted Clerk starts again, its segments loaded anew from the image, or is stopped: at its third restart within 1 s, or when its reload fails its hash
(DESIGN CHOICE, log 28). -/
def restartDone (i : Nat) (ok : Bool) (t : Nat) (c : Cfg) (m : Mach) : Mach :=
  let m := tickTo t m
  match m.clerks[i]? with
  | none => m
  | some k =>
    if k.running || k.stopped || k.cause = 0 then m
    else
      let past := m.now :: k.restarts.filter fun r => m.now ≤ r + 1000000000
      if !ok || 3 ≤ past.length then
        post c evFirmwareFailed [i] (clerkUpd i (fun k => { k with stopped := true, restarts := past }) m)
      else post c evClerkRestarted [i, k.cause] (clerkUpd i (fun k => { k with running := true, cause := 0, restarts := past, sram := clerkSram m.boot.image i }) m)

/-! ### Self-test of a core (R414 to R419) -/

/-- The expected signatures (R418). -/
def expLogic (stepping : Nat) : Nat := if stepping = 0x11 then 0x6E2B91D40C57A3F8 else 0x2A9D6F03C4E8715B
def expMem : Nat := 0x13C05A7EE9B24D61
def expShared (stepping : Nat) : Nat := if stepping = 0x11 then 0x8F1427D3B6500E9A else 0x5B07E2C91A3D86F4
def expSummary (stepping cores : Nat) : Nat :=
  if stepping = 0x11 then (if cores = 32 then 0xC35A0B187FE42D96 else if cores = 24 then 0x71E6D4902B5FC83A else 0x3A8F62C1E0579B4D)
  else (if cores = 32 then 0x04D9B7A26C31F85E else if cores = 24 then 0xE82C4F679D103BA5 else 0x96B31D5EF72A04C8)

/-- Write `w` bytes of the result record. -/
def recPut (off w v : Nat) (m : Mach) : Mach := { m with st := { m.st with record := bput m.st.record off w v } }

/-- The head of the record and the fused cores' STATE (R417). -/
def recHead (c : Cfg) (m : Mach) : Mach :=
  let m := recPut 4 4 c.strap.fused (recPut 1 1 c.strap.cores (recPut 0 1 c.strap.stepping m))
  (List.range 32).foldl (fun m p => if (List.range c.strap.cores).any fun k => physOf c k == p then m else recPut (0x34 + 32 * p) 1 3 m) m

/-- The capacity without a core (R414 step 1). -/
def coresWithout (m : Mach) (k : Nat) : Mach :=
  { m with cores := lupd m.cores k fun x => { x with regs := { x.regs with test := 1 } } }

/-- The checks of bistCore. -/
def bistCoreChecks : Cfg → Mach → Cmd → List (Bool × Nat) :=
  fun c m k =>
        let n := k.argN 0x18 1
        let mode := k.argN 0x19 1
        [(coreCount m ≤ n || mode = 0 || 3 < mode, stParamRange),
         (!ledgerOk c (coresWithout m n) m.ledger, stAdmissionRefused)]

def bistCore (id : Nat) (c : Cfg) (m : Mach) : Mach :=
  if m.st.core.isSome then m
  else
    cmdRow 0x0900 id (fun _ => 0)
      bistCoreChecks
      (fun c k m =>
        let n := k.argN 0x18 1
        let f := (m.cores.getD n core0).regs.test == 3
        let m := { m with st := { m.st with core := some n, tries := 0, failedBefore := f }
                          cores := lupd m.cores n fun x => { x with regs := { x.regs with test := 1, state := 4 } } }
        coresChanged c (recPut (0x34 + 32 * physOf c n) 1 1 (recHead c (underWay id n m)))) c m

/-- Clear a core and its need of a scrub (R360). -/
def cleanCore (k : Nat) (m : Mach) : Mach :=
  { m with cores := lupd m.cores k fun x => coreClear { x.regs with dirty := false, clean := true, gated := false, state := idleState x.regs } }

/-- BIST_CORE_DRAINED: steps 4 and 5. -/
def bistDrained (id t : Nat) (_ : Cfg) (m : Mach) : Mach :=
  withCmd2 0x0900 id (fun k m =>
    match m.cores[k.arg]? with
    | none => m
    | some x =>
      if x.tc.isSome || x.regs.test ≠ 1 || !readsBack m k.arg then m
      else
        let m := cleanCore k.arg m
        { m with cores := lupd m.cores k.arg fun x =>
            { x with regs := { x.regs with test := 2, state := 4, scrubs := (x.regs.scrubs + 1) % 2 ^ 64 } } }) (tickTo t m)

/-- BIST_TEST_DONE: steps 6 to 8. The signatures tested are recorded; every one of them must match. -/
def bistDone (id logic mem fail : Nat) (c : Cfg) (m : Mach) : Mach :=
  withCmd2 0x0900 id (fun k m =>
    match m.cores[k.arg]? with
    | none => m
    | some x =>
      if x.regs.test ≠ 2 then m
      else
        let mode := k.argN 0x19 1
        let p := physOf c k.arg
        let pass := (mode % 2 = 0 || logic == expLogic c.strap.stepping) && (mode / 2 = 0 || mem == expMem)
        let m := if mode % 2 = 1 then recPut (0x20 + 32 * p) 8 logic m else m
        let m := if mode / 2 = 1 then recPut (0x30 + 32 * p) 4 fail (recPut (0x28 + 32 * p) 8 mem m) else m
        let m := recPut (0x34 + 32 * p) 1 (if pass then 0 else 2) m
        let m := { m with st := { m.st with core := none, tries := 0, failedBefore := false }
                          cores := lupd m.cores k.arg fun x => { x with regs := { x.regs with test := if pass then 0 else 3, since := m.now } } }
        let m := coresChanged c (cleanCore k.arg m)
        let m := if pass then m else post c evSelftestFail [k.arg, p] m
        respond c id (if pass then stOk else stInternal)
          (toLe 1 p ++ toLe 1 (b2n pass) ++ toLe 6 0 ++ toLe 8 (if mode % 2 = 1 then logic else 0) ++ toLe 8 (if mode / 2 = 1 then mem else 0)) m) m

/-- The droop detector or the cap acts on a core under test: the test runs again, up to three times (R416). -/
def retryTest (c : Cfg) (n : Nat) (m : Mach) : Mach :=
  if m.st.core ≠ some n || (m.cores[n]?).all (fun x => x.regs.test ≠ 2) then m
  else if m.st.tries < 3 then
    { m with st := { m.st with tries := m.st.tries + 1 }
             cores := lupd m.cores n fun x => { x with regs := { x.regs with test := 1, dirty := true } } }
  else abandonTest c n m

/-- The checks of bistQuery. -/
def bistQueryChecks : Cfg → Mach → Cmd → List (Bool × Nat) :=
  fun _ _ _ => []

def bistQuery (id : Nat) : Cfg → Mach → Mach :=
  cmdRow 0x0901 id (fun _ => 0x420) bistQueryChecks fun c k m => respond c id stOk [] (putResult id k (bread m.st.record 0 0x420) m)

/-! ### Memory test of the block (R417) -/

/-- Every SRAM is lost. -/
def sramLost (m : Mach) : Mach :=
  { m with cores := m.cores.map fun x => coreClear { x.regs with dirty := false, clean := true, gated := false }
           depot := ⟨[], [], [], [], [], [], [], [], []⟩, xl := ⟨[], [], [], [], [], [], []⟩, domCache := [], ctxCache := []
           mem := { m.mem with granules := [] }, keys := { m.keys with slots := [] } }

/-- MBIST_DONE: `sigs` and `fails` give the enabled cores in ascending physical order. -/
def mbistDone (shared summary : Nat) (sigs fails : List Nat) (c : Cfg) (m : Mach) : Mach :=
  if m.st.mbistState ≠ 1 then m
  else
    let n := coreCount m
    let m := recPut 0x10 8 summary (recPut 8 8 shared (recHead c m))
    let m := (List.range n).foldl (fun m k =>
      recPut (0x30 + 32 * physOf c k) 4 (nth fails k) (recPut (0x28 + 32 * physOf c k) 8 (nth sigs k) m)) m
    let pass := (List.range n).all (fun k => nth sigs k == expMem) && shared == expShared c.strap.stepping
      && summary == expSummary c.strap.stepping c.strap.cores
    let m := sramLost { m with st := { m.st with mbistState := 2, mbistPass := pass } }
    bootState bsWaitLoad (readStore c m)

/-! ### Telemetry bindings (R425) -/

/-- The device page a binding's address gives, when the command may have it. -/
def telemPage (c : Cfg) (m : Mach) (d va : Nat) : Option Nat :=
  if va % 64 ≠ 0 || 2 ^ 52 ≤ va then none
  else match translateNow c m d va .write with
    | .dev a => if openOf m.mem d a 64 then some a else none
    | _ => none

/-- The checks of telemetryBind. -/
def telemetryBindChecks : Cfg → Mach → Cmd → List (Bool × Nat) :=
  fun c m k => [(k.dom = 0 || (domE m k.dom).state ≠ 1 || (telemPage c m k.dom (k.argN 0x18 8)).isNone, stPermission)]

def telemetryBind (id : Nat) : Cfg → Mach → Mach :=
  cmdRow 0x0904 id (fun _ => 0)
    telemetryBindChecks
    fun c k m =>
      match telemPage c m k.dom (k.argN 0x18 8) with
      | none => m
      | some a => respond c id stOk [] { m with telem := { m.telem with binds := mset m.telem.binds k.dom (k.argN 0x18 8, a) } }

/-- The checks of telemetryUnbind. -/
def telemetryUnbindChecks : Cfg → Mach → Cmd → List (Bool × Nat) :=
  fun _ m k => [(!mhas m.telem.binds k.dom, stPermission)]

def telemetryUnbind (id : Nat) : Cfg → Mach → Mach :=
  cmdRow 0x0905 id (fun _ => 0) telemetryUnbindChecks
    fun c k m => respond c id stOk [] { m with telem := { m.telem with binds := mdel m.telem.binds k.dom } }

/-! ### Power failure (R408) -/

/-- pfw_n is taken as asserted: nothing further issues. -/
def pfwAssert (t : Nat) (c : Cfg) (m : Mach) : Mach :=
  let m := tickTo t m
  if m.power.fail ≠ 0 then m
  else post c evPowerFail [] { m with power := { m.power with fail := 1, failAt := m.now }, st := { m.st with core := none } }

/-- 50 µs later: running tile-commands are stopped without a record, and memory-port traffic ends. -/
def failStop (t : Nat) (m : Mach) : Mach :=
  let m := tickTo t m
  if m.power.fail ≠ 1 || m.now < m.power.failAt + 50000 then m
  else
    { m with
      power := { m.power with fail := 2 }
      cores := m.cores.map fun x => match x.tc with
        | none => x
        | some _ => coreClear { x.regs with dirty := true, state := idleState x.regs, since := m.now }
      arb := { m.arb with later := [], waiting := [], tags := [] }
      depot := { m.depot with ops := [] } }

/-- The freeze, once no store operation is in flight. -/
def failFreeze (t : Nat) (m : Mach) : Mach :=
  let m := tickTo t m
  if m.power.fail = 2 && m.store.busy.isNone then { m with power := { m.power with fail := 3 } } else m

/-! ### Droop and the power cap (R409 to R411, R421) -/

def droopTrip (k t : Nat) (c : Cfg) (m : Mach) : Mach :=
  let m := tickTo t m
  if m.cores.length ≤ k then m
  else
    let m := settleTime k m
    retryTest c k { m with
      cores := lupd m.cores k fun x => { x with regs := { x.regs with droop := true } }
      telem := { m.telem with droops := mset m.telem.droops k ((mget m.telem.droops k).getD 0 + 1) } }

def droopRecovery (k t : Nat) (m : Mach) : Mach :=
  let m := settleTime k (tickTo t m)
  { m with cores := lupd m.cores k fun x => { x with regs := { x.regs with droop := false } } }

/-- Sensor temperatures after THERM_OFS, in 1/16 °C (R420, R424). -/
def tempsOf (trim : List Byte) (raw : List Int) : List Int :=
  (List.range 16).map fun i => raw.getD i 0 + signed16 (half trim 0x10 i)

/-- Estimated power in mW: the exact sum of coefficient times count, rounded under R50 (R421; log 34). -/
def powerMw (trim : List Byte) (temps : List Int) (counts : List Nat) : Nat :=
  let coef (i : Nat) : Fv := dec32 (leAt trim (0x70 + 4 * i) 4)
  let hot := temps.foldl max (temps.headD 0)
  let terms := [coef 0, fvMul (coef 1) (fvScale (-4) (fvInt (hot - 400)))]
    ++ (List.range 9).map fun i => fvMul (coef (i + 2)) (fvInt (nth counts i))
  match fvMul (fvSum terms) (fvInt 1000) with
  | .fin false m e => rna m e
  | _ => 0

/-- The voltage of the first entry whose bound is at or above the hottest sensor (R422). -/
def voltOf (trim : List Byte) (temps : List Int) : Nat :=
  let hot := temps.foldl max (temps.headD 0)
  vfOf trim (((List.range 15).find? fun i => decide (hot ≤ 16 * signed16 (vfOf trim i % 2 ^ 16))).getD 15) / 2 ^ 16

/-- POWER_ESTIMATE: counts of coefficients 2 to 10 and the sensors' readings of the last microsecond. -/
def powerEstimate (counts : List Nat) (raw : List Int) (t : Nat) (m : Mach) : Mach :=
  let m := tickTo t m
  let temps := tempsOf m.st.trim raw
  let p := powerMw m.st.trim temps counts
  let w := (p :: m.power.window).take 100
  let mean := roundDiv (w.foldl (· + ·) 0) w.length
  { m with power := { m.power with window := w, watts := mean, volt := voltOf m.st.trim temps }
           telem := { m.telem with powSum := m.telem.powSum + p, powCnt := m.telem.powCnt + 1, peak := max m.telem.peak mean, temps := temps } }

/-- The cap applied, in mW (R453). -/
def capNow (c : Cfg) (m : Mach) : Nat := 1000 * (if m.power.trimHold then 10 else c.cap)

/-- DUTY_STEP: POWER_CAP_EXCEEDED once in a tick (DESIGN CHOICE, log 34). -/
def dutyStep (t : Nat) (c : Cfg) (m : Mach) : Mach :=
  let m := settleAll (tickTo t m)
  let duty := if capNow c m < m.power.watts then m.power.duty - (if 1 < m.power.duty then 1 else 0)
    else if 100 * m.power.watts < 95 * capNow c m && m.power.duty < 16 then m.power.duty + 1 else m.power.duty
  let past := capNow c m < m.power.watts && m.power.duty ≤ 1
  let m := if past && !m.power.exceeded then post c evPowerCapExceeded [m.power.watts] m else m
  let m := { m with power := { m.power with
    duty := duty, lowDuty := min m.power.lowDuty duty, limiting := m.power.limiting || duty < 16, exceeded := m.power.exceeded || past } }
  match m.st.core with
  | some n => if duty < 16 then retryTest c n m else m
  | none => m

/-! ### The test port and PF_LATCH (R445, R453) -/

/-- BLOCK_ID as the test port shifts it out (R445). -/
def blockId (c : Cfg) : Nat := c.strap.stepping + 0x0320 * 256

/-- SCAN acts only in reset; it clears every SRAM, key slot and root. -/
def tapScan (rst : Bool) (d : Dev) : Dev := if rst then coldReset d else d

/-- A pulse longer than 100 ns and shorter than 200 ns is latched. -/
def lowPulse (ns : Nat) (d : Dev) : Dev :=
  if 100 < ns && ns < 200 then { d with m := { d.m with power := { d.m.power with pfLatch := satInc 16 d.m.power.pfLatch } } } else d

def execClerkRestart (id t : Nat) (s : State) : Host.Outcome State Fault Refusal := s.runM (clerkRestart id t)
def execClerkHeartbeatMiss (i : Nat) (faulted : Bool) (t : Nat) (s : State) : Host.Outcome State Fault Refusal :=
  s.runM (heartbeatMiss i faulted t)
def execClerkRestartDone (i : Nat) (ok : Bool) (t : Nat) (s : State) : Host.Outcome State Fault Refusal := s.runM (restartDone i ok t)
def execBistCore (id : Nat) (s : State) : Host.Outcome State Fault Refusal := s.runM (bistCore id)
def execBistCoreDrained (id t : Nat) (s : State) : Host.Outcome State Fault Refusal := s.runM (bistDrained id t)
def execBistTestDone (id logic mem fail : Nat) (s : State) : Host.Outcome State Fault Refusal := s.runM (bistDone id logic mem fail)
def execBistQuery (id : Nat) (s : State) : Host.Outcome State Fault Refusal := s.runM (bistQuery id)
def execMbistDone (shared summary : Nat) (sigs fails : List Nat) (s : State) : Host.Outcome State Fault Refusal :=
  s.runM (mbistDone shared summary sigs fails)
def execTelemetryBind (id : Nat) (s : State) : Host.Outcome State Fault Refusal := s.runM (telemetryBind id)
def execTelemetryUnbind (id : Nat) (s : State) : Host.Outcome State Fault Refusal := s.runM (telemetryUnbind id)
def execPfwNAssert (t : Nat) (s : State) : Host.Outcome State Fault Refusal := s.runM (pfwAssert t)
def execPowerFailStop (t : Nat) (s : State) : Host.Outcome State Fault Refusal := s.runM fun _ => failStop t
def execPowerFailFreeze (t : Nat) (s : State) : Host.Outcome State Fault Refusal := s.runM fun _ => failFreeze t
def execDroopTrip (core t : Nat) (s : State) : Host.Outcome State Fault Refusal := s.runM (droopTrip core t)
def execDroopRecovery (core t : Nat) (s : State) : Host.Outcome State Fault Refusal := s.runM fun _ => droopRecovery core t
def execPowerEstimate (counts : List Nat) (temps : List Int) (t : Nat) (s : State) : Host.Outcome State Fault Refusal :=
  s.runM fun _ => powerEstimate counts temps t
def execDutyStep (t : Nat) (s : State) : Host.Outcome State Fault Refusal := s.runM (dutyStep t)
def execTapScan (rst : Bool) (s : State) : Host.Outcome State Fault Refusal := s.runAlways (tapScan rst)
def execPfwNLowPulse (ns : Nat) (s : State) : Host.Outcome State Fault Refusal := s.runAlways (lowPulse ns)

end Sys2Proof.Machine
end

