-- ==== Sys2Proof/Machine/Window.lean ====
section
/-! DEFINITION. Window geometry of convolution and pooling (R103 to R109, R112 to R114, R116, R119). -/

namespace Sys2Proof.Machine

/-- The parameters of a window (R103, R178), with its first output position m0. -/
structure Geo where
  m0 : Nat
  b : Nat
  iy : Nat
  ix : Nat
  c : Nat
  c0 : Nat
  cw : Nat
  fY : Nat
  fX : Nat
  t0y : Nat
  t0x : Nat
  fy : Nat
  fx : Nat
  sy : Nat
  sx : Nat
  dy : Nat
  dx : Nat
  iDy : Nat
  iDx : Nat
  pyl : Nat
  pyh : Nat
  pxl : Nat
  pxh : Nat
  r : Nat
  mode : Nat
  pad : Nat
  deriving DecidableEq, Repr

/-- The window a block and the tensor's counts name, from output position 0 (R178, R179). -/
def geoOf (counts : List Nat) (w : WinBlk) : Geo :=
  { m0 := 0, b := nth counts 3, iy := nth counts 2, ix := nth counts 1, c := nth counts 0
    c0 := w.c0, cw := w.cwM1 + 1, fY := w.fyM1 + 1, fX := w.fxM1 + 1
    t0y := w.t0y, t0x := w.t0x, fy := bits w.fload 0 4, fx := bits w.fload 4 4
    sy := w.syM1 + 1, sx := w.sxM1 + 1, dy := w.dyM1 + 1, dx := w.dxM1 + 1
    iDy := bits w.idil 0 3 + 1, iDx := bits w.idil 4 3 + 1
    pyl := w.pylo, pyh := w.pyhi, pxl := w.pxlo, pxh := w.pxhi
    r := 2 ^ bits w.mode 0 2, mode := bits w.mode 2 2, pad := w.padConst }

/-- An extent lies in 1 to 65,536. -/
def ext (n : Nat) : Bool := 1 ≤ n && n ≤ 65536

/-- The slot size C_s of one tap (R107, R114). -/
def slotSize (g : Geo) : Nat := 16 * cdiv (g.r * g.r * g.cw) 16

/-- The reduction length of a window (R107, R114). -/
def winK (g : Geo) : Nat := g.fy * g.fx * slotSize g

/-- Parameter ranges of a window (R103, R114): false completes with PARAM_RANGE. DESIGN CHOICE (log 48): with r > 1, where t0 and f
count regrouped taps, the bound t0 + f ≤ F is taken as t0 + f ≤ ⌈F/r⌉. -/
def geoRange (g : Geo) : Bool :=
  ext g.b && ext g.iy && ext g.ix && ext g.c && 1 ≤ g.cw && g.c0 + g.cw ≤ g.c
    && g.fY ≤ 1024 && g.fX ≤ 1024 && 1 ≤ g.fy && g.fy ≤ 15 && 1 ≤ g.fx && g.fx ≤ 15
    && g.t0y + g.fy ≤ cdiv g.fY g.r && g.t0x + g.fx ≤ cdiv g.fX g.r
    && g.sy ≤ 64 && g.sx ≤ 64 && g.dy ≤ 256 && g.dx ≤ 256 && g.iDy ≤ 8 && g.iDx ≤ 8
    && g.pyl ≤ 1023 && g.pyh ≤ 1023 && g.pxl ≤ 1023 && g.pxh ≤ 1023
    && (g.r == 1 || (g.dy == 1 && g.dx == 1 && g.iDy == 1 && g.iDx == 1 && g.sy % g.r == 0 && g.sx % g.r == 0))

/-- The same for the array, whose reduction length R75 limits. -/
def geoOk (g : Geo) : Bool := geoRange g && winK g ≤ 65536

/-- A window a layer names is out of range when the layer is presented (R103): `use` 0 the array's, 1 a sum of the Window Unit, 2 a pooling
operation, which alone may ignore padding. -/
def winUseBad (use : Nat) (g : Geo) : Bool := !(if use = 0 then geoOk g else geoRange g) || (use ≠ 2 && g.mode == 3)

/-- Virtual extent under input dilation (R104). -/
def virt (i d : Nat) : Nat := (i - 1) * d + 1

/-- Output extent along one axis (R105); floor toward minus infinity. -/
def outExt (i dD plo phi d f s : Nat) : Int :=
  ((virt i dD : Int) + plo + phi - d * (f - 1 : Nat) - 1).fdiv s + 1
def outY (g : Geo) : Int := outExt g.iy g.iDy g.pyl g.pyh g.dy g.fY g.sy
def outX (g : Geo) : Int := outExt g.ix g.iDx g.pxl g.pxh g.dx g.fX g.sx

/-- Whether the layer's output is empty (R105). -/
def emptyOut (g : Geo) : Bool := outY g ≤ 0 || outX g ≤ 0

/-- What one tap of one output reads: padding, a zero inserted by input dilation (padding but for pooling, R104, R119), a value zero (slot
padding, void tap, row beyond the outputs), or an input element (image, row, column, channel). -/
inductive Tap where
  | pad
  | ins
  | zero
  | inp (b y x c : Nat)
  deriving DecidableEq, Repr

/-- Position along one axis: none in padding, some none an inserted zero, some v an input position (R104). -/
def axisPos (i dD plo d s o f : Nat) : Option (Option Nat) :=
  let v : Int := (o * s : Nat) - (plo : Int) + (f * d : Nat)
  if v < 0 || (virt i dD : Int) ≤ v then none
  else if v.toNat % dD = 0 then some (some (v.toNat / dD)) else some none

/-- The element of output position m0 + `i` under tap (f_y, f_x), channel `ch` of the tensor (R104, R107). -/
def tapAt (g : Geo) (i ty tx ch : Nat) : Tap :=
  let m := g.m0 + i
  let oy := (outY g).toNat
  let ox := (outX g).toNat
  if oy * ox = 0 || g.b ≤ m / (oy * ox) then .zero else
    match axisPos g.iy g.iDy g.pyl g.dy g.sy (m / ox % oy) ty, axisPos g.ix g.iDx g.pxl g.dx g.sx (m % ox) tx with
    | some (some y), some (some x) => .inp (m / (oy * ox)) y x ch
    | some _, some _ => .ins
    | _, _ => .pad

/-- The stationary element of row `m` at reduction index `k` (R107, R114). -/
def winElem (g : Geo) (m k : Nat) : Tap :=
  let cs := slotSize g
  let tap := k / cs
  let c := k % cs
  let gy := g.t0y + tap / g.fx
  let gx := g.t0x + tap % g.fx
  if g.r * g.r * g.cw ≤ c then .zero else
    let a := c / (g.r * g.cw)
    let b := c / g.cw % g.r
    let fy := g.r * gy + a
    let fx := g.r * gx + b
    if g.fY ≤ fy || g.fX ≤ fx then .zero else tapAt g m fy fx (g.c0 + c % g.cw)

/-- Limits of a Window Unit operation (R116): r is 1 and the taps fit. -/
def winUnitOk (g : Geo) (cg : Nat) : Bool := g.r == 1 && 1 ≤ cg && cg ≤ 8 && g.fy * g.fx * cg ≤ 225

/-- Pooling of the values that take part (R119, R120): none gives +0; `n` is the average's divisor. -/
def poolF (p : Pool) (n : Nat) (vs : List Nat) : Nat :=
  match vs with
  | [] => 0
  | x :: t =>
    match p with
    | .max => t.foldl maxF (maxF x x)
    | .min => t.foldl minF (minF x x)
    | .sum => (x :: t).foldl addF 0
    | _ => mulF ((x :: t).foldl addF 0) (rcpExact (enc32 (fvInt n)))

/-- The sum of a depthwise or grouped window: fused multiply-adds in order from the initial value (R117). -/
def winSum : List (Nat × Nat) → Nat → Nat
  | [], acc => acc
  | (x, w) :: r, acc => winSum r (fmaF x w acc)

end Sys2Proof.Machine
end

