-- ==== Sys2Proof/Machine/Operands.lean ====
section
/-! DEFINITION. Operand values of a program, stream descriptors, their checks, and the bytes they name (R29 to R33,
R126 to R130, R174 to R179, R202, R378). -/

namespace Sys2Proof.Machine

/-! ### Operand values (R126 to R129) -/

/-- A scalar operand; `w` is how many bits of a slot it takes (R127). -/
def opndW (t : TileCmd) (w : Nat) : Opnd → Nat
  | .lit v => v % 2 ^ 64
  | .slot n => nth t.params n % 2 ^ w
  | .sys .tile => t.tile
  | .sys .tiles => t.tiles
  | .sys .merged => t.merged
  | .sys .rows => t.rows

/-- A 32-bit operand: a count, an FP32 value, a zero point. -/
def opnd (t : TileCmd) (o : Opnd) : Nat := opndW t 32 o % 2 ^ 32

/-- The index of a loop level, 0 while it is not active. -/
def loopIdx (x : Core) (l : Nat) : Nat := ((mget x.loops l).map (·.1)).getD 0

/-- An affine value in 64-bit two's complement (R129). -/
def affW (x : Core) (t : TileCmd) (w : Nat) (a : Aff) : Nat :=
  (opndW t w a.c + (((a.a.take 4).zipIdx.map fun p => opndW t w p.1 * loopIdx x p.2).foldl (· + ·) 0) + opndW t w a.tile * t.tile) % 2 ^ 64

/-- An address, and an extent, a count or an offset. DESIGN CHOICE (log 41): a slot that names a window offset gives its low 32 bits; R127 states
no width for one. -/
def affA (x : Core) (t : TileCmd) (a : Aff) : Nat := affW x t 64 a
def affN (x : Core) (t : TileCmd) (a : Aff) : Nat := affW x t 32 a

/-- The DETAIL of PARAM_RANGE: the parameter slot, or 0xFFFF (R469). -/
def paramSlot : Opnd → Nat
  | .slot n => n
  | _ => 0xFFFF

/-! ### Stream descriptors (R174 to R176) -/

/-- A template with its base, resolved. -/
def sdOf (x : Core) (t : TileCmd) (p : Tmpl) : Sd :=
  ⟨p.format, p.kind, p.space, p.rate, p.counts, p.strides, p.win, affA x t p.base, affA x t p.outFirst, x.front⟩

/-- The window of a stream, from its first output position m0 (R107, R178). -/
def sdGeo (s : Sd) (w : WinBlk) : Geo := { geoOf s.counts w with m0 := s.outFirst }

/-- Bits of an element: KIND 0 by its format, 4 FP32, a byte otherwise. -/
def sdBits (s : Sd) : Nat := if s.kind = 0 then fmtBits s.fmt else if s.kind = 4 then 32 else 8

/-- Packed formats (R31, R32). -/
def sdPacked (s : Sd) : Bool := sdBits s = 4 || sdBits s = 6

/-- Bytes of a row of `n` elements one after another. -/
def rowSize (s : Sd) (n : Nat) : Nat :=
  if sdBits s = 4 then cdiv n 2 else if sdBits s = 6 then 3 * cdiv n 4 else n * (sdBits s / 8)

/-- Elements of a stream. -/
def sdCount (s : Sd) : Nat := s.counts.foldl (· * ·) 1

/-- Stride of a dimension. -/
def sdStride (s : Sd) (d : Nat) : Int := s.strides.getD d 0

/-- The address or offset of element 0. -/
def sdBase (s : Sd) : Nat := if s.space = 3 then s.base % 2 ^ 32 else s.base

/-- The handle of a Depot base. -/
def sdHandle (s : Sd) : Nat := bits s.base 32 16

/-! ### The elements in stream order (R175) -/

/-- Starts of the rows of dimension 0; dimensions are given from the outermost. -/
def rowStarts : List (Nat × Int) → Int → List Int
  | [], b => [b]
  | (c, s) :: r, b => (List.range c).flatMap fun (i : Nat) => rowStarts r (b + (i : Int) * s)

/-- A piece of a stream: address, bytes, the number of its first element, elements; in window mode its stationary row and reduction
index (R194), the number of its stationary tile (R180), and `e` its place in its bytes. -/
structure Piece where
  a : Nat
  n : Nat
  e : Nat
  k : Nat
  row : Nat := 0
  ix : Nat := 0
  tile : Nat := 0
  deriving DecidableEq, Repr

/-- Rows cut to `n` elements: start, first element, elements. -/
def cutRows (c : Nat) : List Int → Nat → Nat → List (Int × Nat × Nat)
  | [], _, _ => []
  | b :: r, e, n => if n = 0 then [] else (b, e, min n c) :: cutRows c r (e + min n c) (n - min n c)

/-- The pieces of the first `n` elements of a stream: a row where elements are packed, an element otherwise. -/
def pieces (s : Sd) (n : Nat) : List Piece :=
  if s.counts.any (· = 0) then []
  else
    let rows := cutRows (nth s.counts 0) (rowStarts ((s.counts.zip s.strides).drop 1).reverse (sdBase s)) 0 n
    rows.flatMap fun r =>
      if sdPacked s then [⟨r.1.toNat, rowSize s r.2.2, r.2.1, r.2.2, 0, 0, 0⟩]
      else (List.range r.2.2).map fun (i : Nat) => ⟨(r.1 + (i : Int) * sdStride s 0).toNat, sdBits s / 8, r.2.1 + i, 1, 0, 0, 0⟩

/-- The index per dimension of element `e`, six counters (R194). -/
def posOf (s : Sd) (e : Nat) : List Nat :=
  ((s.counts ++ List.replicate 6 1).take 6).foldl (fun (a : List Nat × Nat) c => (a.1 ++ [a.2 % max c 1], a.2 / max c 1)) ([], e) |>.1

/-- Codes of a packed or plain row of `k` elements. -/
def unpackRow (s : Sd) (k : Nat) (l : List Byte) : List Nat :=
  let v := leNat l
  (List.range k).map fun i =>
    if sdBits s = 6 then bits (leAt l (3 * (i / 4)) 3) (6 * (i % 4)) 6 else bits v (sdBits s * i) (sdBits s)

/-- Bytes of a row of codes; padding bits are zero (R33). -/
def packRow (s : Sd) (cs : List Nat) : List Byte :=
  if sdBits s = 6 then
    (chunks 4 cs).flatMap fun u => toLe 3 ((u.zipIdx.map fun p => p.1 % 64 * 2 ^ (6 * p.2)).foldl (· + ·) 0)
  else toLe (rowSize s cs.length) ((cs.zipIdx.map fun p => p.1 % 2 ^ sdBits s * 2 ^ (sdBits s * p.2)).foldl (· + ·) 0)

/-- The codes of a stream from the bytes of its pieces. -/
def unpack (s : Sd) : List Piece → List Byte → List Nat
  | [], _ => []
  | p :: r, l => unpackRow s p.k (l.take p.n) ++ unpack s r (l.drop p.n)

/-- The bytes of a stream's pieces from its codes. -/
def pack (s : Sd) : List Piece → List Nat → List Byte
  | [], _ => []
  | p :: r, cs => packRow s (cs.take p.k) ++ pack s r (cs.drop p.k)

/-! ### The checks at issue (R29, R106, R177, R179, R202, R378) -/

/-- What a unit's role allows: formats of KIND 0, kinds, spaces, window mode; whether it is the Window Unit's, whose windows R75 does not limit; and
whether the operation has issued before, so that a region being freed serves it to its end (R203). -/
structure Role where
  fmt : Nat → Bool
  kind : Nat → Bool
  space : Nat → Bool
  win : Bool
  unit : Bool := false
  issued : Bool := false

/-- The region a Depot base names for a domain; none where no handle resolves (R202, R203). -/
def depotRegion (m : Mach) (t : TileCmd) (h : Nat) : Option Region :=
  if h = 0xFFFF then mget m.depot.layers (2 ^ 20 * t.desc + t.q)
  else (mget m.depot.regions h).bind fun r => if r.dom = qDom m t.q && !r.freeing then some r else none

/-- The region an operation that has issued goes on using: one being freed serves it to its end (R203). -/
def regionOf (m : Mach) (t : TileCmd) (h : Nat) : Option Region :=
  if h = 0xFFFF then mget m.depot.layers (2 ^ 20 * t.desc + t.q)
  else (mget m.depot.regions h).bind fun r => if r.dom = qDom m t.q then some r else none

/-- A reserved bit or an out-of-width field of a window block (R178). -/
def winBad (w : WinBlk) : Bool :=
  1024 ≤ w.fyM1 || 1024 ≤ w.fxM1 || 1024 ≤ w.t0y || 1024 ≤ w.t0x || 256 ≤ w.fload || 64 ≤ w.syM1 || 64 ≤ w.sxM1 || 256 ≤ w.dyM1 || 256 ≤ w.dxM1
    || 128 ≤ w.idil || bits w.idil 3 1 ≠ 0 || 16 ≤ w.mode || 1024 ≤ w.pylo || 1024 ≤ w.pyhi || 1024 ≤ w.pxlo || 1024 ≤ w.pxhi
    || 65536 ≤ w.c0 || 65536 ≤ w.cwM1 || 65536 ≤ w.padConst

/-- Dimensions beyond 3 of a window are not walked (R179). -/
def walked (s : Sd) : List (Nat × Int) := (s.counts.zip s.strides).take (if s.win.isSome then 4 else 6)

/-- Conditions of DESCRIPTOR_MALFORMED with the offset of the offending field. -/
def sdMalformed (s : Sd) (r : Role) : List (Bool × Nat) :=
  let nd := s.counts.length
  let line := decide (4 ≤ s.space)
  let sz := sdBits s / 8
  [(s.kind = 0 && (15 ≤ s.fmt || !r.fmt s.fmt), 8), (s.kind ≠ 0 && s.fmt ≠ 0, 8), (5 < s.kind || !r.kind s.kind, 9),
   (7 < s.space || !r.space s.space, 0xA), (nd = 0 || 6 < nd || s.strides.length ≠ nd, 0xB), (line && nd ≠ 1, 0xB),
   (s.win.isSome && (!r.win || s.kind ≠ 0 || line || nd < 4), 0xB), (s.win.any winBad, 0x50),
   (line && sdStride s 0 ≠ (if sdPacked s then 1 else sz), 0x28),
   (sdPacked s && (sdStride s 0 ≠ 1 || (s.strides.drop 1).any fun d => d % max 1 (rowSize s (nth s.counts 0)) ≠ 0), 0x28),
   (!sdPacked s && s.space < 4 && (s.strides.any fun d => d % max 1 sz ≠ 0), 0x28), (!sdPacked s && s.space < 4 && s.base % max 1 sz ≠ 0, 0),
   ((s.space = 4 || s.space = 5) && 8 ≤ s.base, 0), (s.space = 7 && !(0x80 ≤ s.base && s.base ≤ 0xBF), 0),
   (s.space = 6 && (2 ^ 32 ≤ s.base || !(0x80 ≤ bits s.base 20 8 && bits s.base 20 8 ≤ 0xBF)), 0),
   (s.space = 3 && s.base < 2 ^ 52 && (2 ^ 48 ≤ s.base || (1024 ≤ sdHandle s && sdHandle s ≠ 0xFFFF)), 0)]

/-- First and last byte of the box of all elements. -/
def sdBox (s : Sd) : Int × Int :=
  let w := walked s
  let span (f : Int → Int → Int) : Int := (w.drop 1).foldl (fun a p => a + f 0 ((p.1 - 1 : Nat) * p.2)) 0
  let e0 : Int := (nth s.counts 0 - 1 : Nat) * sdStride s 0
  let lo := if sdPacked s then 0 else min 0 e0
  let hi := if sdPacked s then (rowSize s (nth s.counts 0) : Int) - 1 else max 0 e0 + (sdBits s / 8 : Nat) - 1
  ((sdBase s : Int) + span min + lo, (sdBase s : Int) + span max + hi)

/-- The region that a stream's handle names: as it issues, or when it has issued (R202, R203). -/
def roleRegion (m : Mach) (t : TileCmd) (r : Role) (s : Sd) : Option Region :=
  if r.issued then regionOf m t (sdHandle s) else depotRegion m t (sdHandle s)

/-- The box leaves what its space holds. -/
def boxBad (m : Mach) (t : TileCmd) (r : Role) (s : Sd) : Bool :=
  if s.counts.any (· = 0) || 4 ≤ s.space then false
  else
    let b := sdBox s
    let top : Int := if s.space = 0 then 2 ^ 52 else if s.space = 3 then (((roleRegion m t r s).map (·.size)).getD 0 : Nat) else 0x300000
    b.1 < 0 || top ≤ b.2

/-- The send binding of a Kalham destination (R377, R378). -/
def sendTo (m : Mach) (q : Nat) (base : Nat) : Option (Nat × Bind) :=
  m.casc.binds.find? fun b => !b.2.recv && b.2.q == q && b.2.engine == bits base 28 4 && b.2.remote == bits base 0 20

/-- The status and DETAIL a stream descriptor's checks give, `need` elements being asked for. -/
def sdCheck (m : Mach) (t : TileCmd) (r : Role) (need slot : Nat) (s : Sd) : Option (Nat × Nat) :=
  match (sdMalformed s r).find? (·.1) with
  | some p => some (stMalformed, p.2)
  | none =>
    if s.base < 2 ^ 52 && s.space = 3 && sdHandle s ≠ 0xFFFF && (roleRegion m t r s).isNone then some (stPermission, s.base)
    else if s.base < 2 ^ 52 && s.space = 6 && (sendTo m t.q s.base).isNone then some (stPermission, s.base)
    else if 2 ^ 52 ≤ s.base || boxBad m t r s || sdCount s < need || (s.win.any fun w => !(if r.unit then geoRange (geoOf s.counts w) else geoOk (geoOf s.counts w))) then
      some (stParamRange, slot)
    else none

/-- The roles of the units (R29, R136). -/
def allSpaces (_ : Nat) : Bool := true
def anyFmt (f : Nat) : Bool := f < 15
def vecFmt (f : Nat) : Bool := f ≤ 0xC
def stFmtOk (f : Nat) : Bool := f ≤ 3 || (5 ≤ f && f ≤ 0xB)
def mvFmtOk (f : Nat) : Bool := stFmtOk f || f = 0xD || f = 0xE
def srcSpace (s : Nat) : Bool := s ≤ 3 || s = 5 || s = 7
def dstSpace (s : Nat) : Bool := s ≤ 4 || s = 6
def roleStat : Role := ⟨stFmtOk, (· = 0), srcSpace, true, false, false⟩
def roleMove : Role := ⟨mvFmtOk, (· = 0), srcSpace, false, false, false⟩
def roleSrc : Role := ⟨anyFmt, (· ≤ 5), srcSpace, false, false, false⟩
def roleDst : Role := ⟨anyFmt, (· ≤ 5), dstSpace, false, false, false⟩
def rolePut : Role := ⟨anyFmt, (· ≤ 5), (fun s => s = 1 || s = 2), false, false, false⟩
def roleDrain : Role := ⟨vecFmt, (fun k => k = 0 || k = 4), dstSpace, false, false, false⟩
def roleKind (k : Nat) : Role := ⟨anyFmt, (· = k), srcSpace, false, false, false⟩
def roleOut : Role := ⟨(fun f => f = 0xB || f = 0xC), (fun k => k = 0 || k = 4), srcSpace, false, false, false⟩

end Sys2Proof.Machine
end

