-- ==== Sys2Proof/Machine/Streams.lean ====
section
/-! DEFINITION. What a core's streams read and write: line by line through the core's TLB, windows, the Depot, post lines,
Kalham links; halts; the requests a stream makes (R131, R132, R149 to R152, R180 to R186, R192 to R207, R378 to R381). -/

namespace Sys2Proof.Machine

/-! ### A tile-command that ends early (R129, R195) -/

/-- The tile-command on a core is killed with a status; its layer's unissued ones are cancelled, the rest finish; an alternate's stops
no other member of a merge group (R243, R277). -/
def endTile (k st detail : Nat) (m : Mach) : Mach :=
  match (m.cores[k]?).bind (·.tc) with
  | none => m
  | some t => killTiles (fun u => u.q == t.q && u.desc == t.desc && u.tile == t.tile && u.alt == t.alt) st detail
      (stopMembers (if t.alt then [(t.q, t.desc)] else groupOf m t.q t.desc) st detail false m)

/-! ### Runs and segments (R180, R181) -/

/-- Runs of bytes that follow one another; a window's elements that share bytes are one run, of 4 KiB at most (R180). -/
def runsGo (win : Bool) : Option (Nat × Nat) → List Piece → List (Nat × Nat)
  | o, [] => o.toList
  | none, p :: r => runsGo win (some (p.a, p.n)) r
  | some (a, n), p :: r =>
    let top := max (a + n) (p.a + p.n)
    if (if win then a ≤ p.a && p.a ≤ a + n && top ≤ a + 4096 else a + n == p.a) then runsGo win (some (a, top - a)) r
    else (a, n) :: runsGo win (some (p.a, p.n)) r

/-- Segments of a run: it is cut at 256-byte boundaries; `fuel` segments remain. -/
def segsOf : Nat → Nat × Nat → List (Nat × Nat)
  | 0, _ => []
  | fuel + 1, (a, n) => if n = 0 then [] else (a, min n (256 - a % 256)) :: segsOf fuel (a + min n (256 - a % 256), n - min n (256 - a % 256))

/-- The segments of a stream's pieces, each one request; on a post line or a link they count from its first byte. A window's stationary tiles
are fetched one after another, and share nothing (R180). -/
def segments (s : Sd) (ps : List Piece) : List (Nat × Nat) :=
  if 4 ≤ s.space then segsOf ((ps.map (·.n)).foldl (· + ·) 0 / 256 + 1) (0, (ps.map (·.n)).foldl (· + ·) 0)
  else ((ps.splitBy fun p q => p.tile == q.tile).flatMap (runsGo s.win.isSome none)).flatMap fun r => segsOf (r.2 / 256 + 2) r

/-! ### An access -/

/-- A stream at work: its core, tile-command, domain, unit (0 SU-A to 3 SU-D), descriptor, operation number, and the queue that a fault of
translation or ownership meets, in a coalesced tile-command the one that supplied the row (R321). -/
structure Acs where
  core : Nat
  t : TileCmd
  dom : Nat
  unit : Nat
  sd : Sd
  op : Nat
  fq : Nat

/-- Where a line of virtual memory lies: at an address of device memory or of the host, or on the host and still to be fetched, by the request
that asks for it (none where another's fill is awaited). -/
inductive LineAt where
  | dev (a : Nat)
  | host (a : Nat)
  | ask (r : Option Req)
  deriving DecidableEq, Repr

/-- The line is at hand. -/
def LineAt.here : LineAt → Bool
  | .ask _ => false
  | _ => true

/-- Lines of virtual memory, by number. -/
abbrev LineTab := List (Nat × LineAt)

/-- A line's place. -/
def tabFind (tab : LineTab) (ln : Nat) : Option LineAt := (tab.find? (·.1 == ln)).map (·.2)

/-- The stream of its operation that an access serves: streams of one unit and operation are told apart by what they name (R186). -/
def streamKey (s : Sd) : Nat := s.base + 2 ^ 64 * (s.fmt + 16 * s.kind)

/-- The lines some pieces touch, in order of first use. -/
def linesOf (ps : List Piece) : List Nat :=
  (ps.flatMap fun p => (List.range ((p.a + p.n - 1) / 64 + 1 - p.a / 64)).map (p.a / 64 + ·)).eraseDups

/-- The first byte some pieces name in a line. -/
def firstIn (ps : List Piece) (ln : Nat) : Nat :=
  ((ps.find? fun p => p.a / 64 ≤ ln && ln ≤ (p.a + p.n - 1) / 64).map fun p => max p.a (64 * ln)).getD (64 * ln)

/-- The halt record of a segment's line (R194). -/
def haltOf (x : Acs) (wr : Bool) (ps : List Piece) (ln now : Nat) : HaltRec :=
  let b := ln / 4
  let p := (ps.find? fun p => p.a / 256 ≤ b && b ≤ (p.a + p.n - 1) / 256).getD ⟨64 * ln, 1, 0, 1, 0, 0, 0⟩
  let va := max p.a (256 * b)
  let off := va - p.a
  let e := p.e + (if sdBits x.sd = 4 then 2 * off else if sdBits x.sd = 6 then off / 3 * 4 else 0)
  let pos := match x.sd.win with
    | some w =>
      let g := geoOf x.sd.counts w
      [p.ix % slotSize g, p.ix / slotSize g % max 1 g.fx, p.ix / slotSize g / max 1 g.fx, p.row, 0, 0]
    | none => posOf x.sd e
  ⟨x.sd, pos, va, x.t.q, x.dom, x.unit, wr, none, now⟩

/-- A line of the host-line cache, as a core reads it (R206). -/
def hitLine (c : Cfg) (k : Nat) (l : HostLine) (m : Mach) : Mach :=
  let m := { m with depot := { m.depot with lines := linePut c l m.depot.lines } }
  { m with cores := lupd m.cores k fun x =>
      { x with hostData := bwrite x.hostData l.addr l.data, hostLines := (l.addr / 64 :: x.hostLines).eraseDups } }

/-- A stream request on the host port; its deadline is set when it issues. -/
def hostReq (x : Acs) (kind addr len va : Nat) (data : List Byte) : HpReq :=
  { hpReq kind addr with data := data, len := len, q := x.t.q, core := some x.core
                         who := 0, va := va, desc := x.t.desc, op := x.op, unit := x.unit }

/-- The request for the segment a host line lies in, or for the line alone where it is cached; none where it has been asked for, by the core
or, of a cached line, by any requester of its domain (R181, R206 to R208). -/
def hostAsk (c : Cfg) (m : Mach) (x : Acs) (ps : List Piece) (cacheable : Bool) (ln va b : Nat) : Option Req :=
  let s := ((segments x.sd ps).find? fun s => s.1 ≤ va && va < s.1 + s.2).getD (va, 1)
  let lines := (s.1 + s.2 - 1) / 64 + 1 - s.1 / 64
  let first := max s.1 (64 * ln)
  let useful := min (s.1 + s.2) (64 * ln + 64) - first
  let h := if cacheable then { hostReq { x with op := 0 } 3 b 64 va [] with n := useful, str := streamKey x.sd }
    else { hostReq { x with op := 0 } 1 (b - 64 * (ln - s.1 / 64)) (64 * lines) va [] with n := s.2, str := streamKey x.sd }
  let asked (r : HpReq) : Bool := decide (r.addr ≤ b ∧ b < r.addr + r.len) &&
    ((r.kind == 1 && r.core == some x.core) || (r.kind == 3 && (r.core == some x.core || r.dom == x.dom)))
  if (hpAll m ++ m.hp.sent).any asked || (m.arb.later.any fun r => r.host.any asked) then none
  else some (Req.via (hostPath c x.core) { point := 80, who := x.core, unit := x.unit, deadline := 0, addr := h.addr, lines := h.len / 64, write := false
                                           dom := x.dom, q := x.t.q, op := 0, n := h.len, rate := x.sd.rate, host := some h, str := streamKey x.sd })

/-- One line a stream reads. `lost` says that its translation is awaited, so that no later segment issues (R193). -/
def lineRead (c : Cfg) (x : Acs) (ps : List Piece) (ln : Nat) (m : Mach) : Mach × Fe LineAt :=
  let va := firstIn ps ln
  match translate c m (some x.core) x.dom va .read with
  | .fault st l => (faultQueue c x.fq st l va m, .killed)
  | .held a => (walkWaits a m, .wait)
  | .dev a =>
    let m := xlateFill c (some x.core) x.dom va m
    let b := a / 64 * 64
    match readChk m.mem x.dom b 64 with
    | .perm => (faultQueue c x.fq stPermission 0 va m, .killed)
    | .integrity p => (integrityKill c x.fq p m, .killed)
    | .ok =>
      let m := backInval b 64 true m
      (m, if hostHolds m b 64 = [] then .ok (.dev b) else .wait)
  | .host p a cacheable =>
    match hostLook x.t.q va p a false (some (x.core, haltOf x false ps ln m.now)) (xlateFill c (some x.core) x.dom va m) with
    | (m, .wait) => (m, .lost)
    | (m, .failed) => (endTile x.core stPermission va m, .killed)
    | (m, .lost) => (hostLostTile x.core m, .killed)
    | (m, .ready phys) =>
      let b := phys / 64 * 64
      if cacheable && fnOf phys ≠ 0 then (endTile x.core stPermission va m, .killed) else
      let got := (m.cores[x.core]?).any fun k => k.hostLines.contains (b / 64)
      if got then (m, .ok (.host b))
      else match m.depot.lines.find? fun l => cacheable && l.dom == x.dom && l.addr == b with
        | some l => if l.shared then (hitLine c x.core l m, .ok (.host b)) else (m, .ok (.ask none))
        | none => (m, .ok (.ask (hostAsk c m x ps cacheable ln va b)))

/-- A held translation of the return area of a descriptor that the tile-command serves, with that descriptor's queue (R263). -/
def returnHeld (m : Mach) (x : Acs) (va : Nat) : Option (Nat × Held) :=
  (if x.t.merged ≤ 1 then [(x.t.q, x.t.desc)] else groupOf m x.t.q x.t.desc).findSome? fun p =>
    (descGet m p.1 p.2).bind fun d =>
      if returnVa d.bytes ≤ va && va < returnVa d.bytes + returnLen d.bytes && returnVa d.bytes ≠ 0 then (heldFind d.held va).map fun h => (p.1, h) else none

/-- One line of device memory a stream writes; `full` when all of it is written (R172, R182, R349, R352). -/
def devWrite (c : Cfg) (x : Acs) (full : Bool) (va a : Nat) (m : Mach) : Mach × Fe LineAt :=
  let b := a / 64 * 64
  if !granulesOf m.mem x.dom b 64 then (faultQueue c x.fq stPermission 0 va m, .killed)
  else if inImage m b 64 then (endTile x.core stPermission va m, .killed)
  else if !full && mhas m.mem.bad (b / 64) then (integrityKill c x.fq b m, .killed)
  else
    let m := backInval b 64 false m
    (m, if hostHolds m b 64 = [] then .ok (.dev b) else .wait)

/-- One line a stream writes. -/
def lineWrite (c : Cfg) (x : Acs) (ps : List Piece) (ln : Nat) (m : Mach) : Mach × Fe LineAt :=
  let va := firstIn ps ln
  let full := (List.range 64).all fun i => ps.any fun p => p.a ≤ 64 * ln + i && 64 * ln + i < p.a + p.n
  match returnHeld m x va with
  | some (q, h) =>
    if h.void then (killQueue c q stFaultDeviceTable va va m, .killed)
    else match h.host with
      | some pg => if m.hp.lost then (hostLostTile x.core m, .killed) else (m, .ok (.host (pg / 4096 * 4096 + ln % 64 * 64)))
      | none => devWrite c x full va (h.phys / 4096 * 4096 + va % 4096) m
  | none =>
    match translate c m (some x.core) x.dom va .write with
    | .fault st l => (faultQueue c x.fq st l va m, .killed)
    | .held a => (walkWaits a m, .wait)
    | .dev a => devWrite c x full va a (xlateFill c (some x.core) x.dom va m)
    | .host p a _ =>
      match hostLook x.t.q va p a true (some (x.core, haltOf x true ps ln m.now)) (xlateFill c (some x.core) x.dom va m) with
      | (m, .wait) => (m, .lost)
      | (m, .failed) => (endTile x.core stPermission va m, .killed)
      | (m, .lost) => (hostLostTile x.core m, .killed)
      | (m, .ready phys) => (m, .ok (.host (phys / 64 * 64)))

/-- Lines in order, up to the first whose place is not known yet: lines after an awaited translation are left. A line still to be fetched stands
in the table, and holds the operation back. -/
def acquire (f : Nat → Mach → Mach × Fe LineAt) : List Nat → Mach → Mach × LineTab × Fe Unit
  | [], m => (m, [], .ok ())
  | l :: r, m =>
    match f l m with
    | (m, .ok v) =>
      let z := acquire f r m
      (z.1, (l, v) :: z.2.1, if !v.here && z.2.2 = .ok () then .wait else z.2.2)
    | (m, .wait) => let z := acquire f r m; (z.1, [], if z.2.2 = .killed then .killed else .wait)
    | (m, .killed) => (m, [], .killed)
    | (m, _) => (m, [], .wait)

/-! ### Requests (R181 to R186, R193, R199) -/

/-- Write pieces into a buffer. -/
def bufPut (b : Map Byte) : List Piece → List Byte → Map Byte
  | [], _ => b
  | p :: r, l => bufPut (bwrite b p.a (l.take p.n)) r (l.drop p.n)

/-- The router outputs from a core to the east edge, where the links are (log 39). -/
def eastPath (p : Nat) : List Nat := (List.range (8 - p % 8)).map fun i => meshPoint (p + i) 0

/-- The router outputs of an outbound post line (R149, R191). -/
def linePath (c : Cfg) (m : Mach) (x : Acs) : List Nat :=
  let dest := ((m.cores[x.core]?).bind fun k => mget k.wires (x.sd.base % 8)).bind fun w =>
    ((List.range m.cores.length).find? fun j => ((m.cores[j]?).bind (·.tc)).any fun t => t.gang == x.t.gang && t.member == w.1)
  match dest with
  | some j => meshPath (physOf c x.core) (physOf c j)
  | none => [meshPoint (physOf c x.core) 4]

/-- The requests for the lines of a host segment that are still to be fetched, each once. -/
def segAsks (tab : LineTab) (s : Nat × Nat) : List Req :=
  ((List.range ((s.1 + s.2 - 1) / 64 + 1 - s.1 / 64)).filterMap fun i =>
    match tabFind tab (s.1 / 64 + i) with
    | some (.ask r) => r
    | _ => none).eraseDups

/-- The requests of one segment, where an arbitration point serves it; `img` holds the bytes a stream writes, the later of two elements on
the same bytes (R175). -/
def segReq (c : Cfg) (m : Mach) (x : Acs) (wr : Bool) (tab : LineTab) (img : Map Byte) (s : Nat × Nat) : List Req :=
  let r0 : Req := { point := 0, who := x.core, unit := x.unit, deadline := 0, addr := s.1, lines := cdiv (s.1 % 64 + s.2) 64, write := wr
                    dom := x.dom, q := x.t.q, op := x.op, n := s.2, rate := x.sd.rate, str := streamKey x.sd
                    va := if x.sd.space = 0 then some s.1 else none }
  match x.sd.space with
  | 0 =>
    match tabFind tab (s.1 / 64) with
    | some (.dev b) =>
      [Req.via (memPath c x.core b) { r0 with addr := b + s.1 % 64, lines := if wr then r0.lines else 4
                                              data := if wr then bread img s.1 s.2 else [] }]
    | some (.host b) =>
      if wr then [Req.via (hostPath c x.core) { r0 with host := some { hostReq x 0 (b + s.1 % 64) s.2 s.1 (bread img s.1 s.2) with str := streamKey x.sd } }]
      else segAsks tab s
    | some (.ask _) => segAsks tab s
    | none => []
  | 3 => ((regionOf m x.t (sdHandle x.sd)).map fun r =>
      Req.via (bankPath c x.core (depotBank r s.1)) { r0 with
        data := if wr then bread img s.1 s.2 else []
        depot := if !wr then none else if sdHandle x.sd = 0xFFFF then some (true, 2 ^ 20 * x.t.desc + x.t.q) else some (false, sdHandle x.sd) }).toList
  | 4 => [Req.via (linePath c m x) r0]
  | 6 => [Req.via (eastPath (physOf c x.core)) r0]
  | 7 => [{ r0 with who := 35, point := meshPoint (physOf c x.core) 4 }]
  | _ => []

/-- How many segments of a stream that waits have issued (R193). -/
def goneOf (m : Mach) (x : Acs) (wr : Bool) : Nat :=
  (((m.cores[x.core]?).bind fun k => k.gone.find? fun g => g.1 == 2 * x.unit + wr.toNat && g.2.1 == x.sd).map (·.2.2)).getD 0

def goneSet (x : Acs) (wr : Bool) (n : Nat) (m : Mach) : Mach :=
  { m with cores := lupd m.cores x.core fun k =>
      let l := k.gone.filter fun g => !(g.1 == 2 * x.unit + wr.toNat && g.2.1 == x.sd)
      { k with gone := if n = 0 then l else (2 * x.unit + wr.toNat, x.sd, n) :: l } }

/-- Segments from the first whose lines all stand in the table; `here`, that are all at hand. -/
def segsReady (here : Bool) (tab : LineTab) : List (Nat × Nat) → Nat
  | [] => 0
  | s :: r =>
    if (List.range ((s.1 + s.2 - 1) / 64 + 1 - s.1 / 64)).all fun i => (tabFind tab (s.1 / 64 + i)).any fun v => !here || v.here
    then segsReady here tab r + 1 else 0

/-- The segments of a stream from the first that has not issued up to number `n` are to issue, in stream order (R184); a host line of an earlier
one that has been lost again is asked for again. -/
def issueSegs (c : Cfg) (x : Acs) (wr : Bool) (ps : List Piece) (tab : LineTab) (l : List Byte) (n : Nat) (m : Mach) : Mach :=
  let g := goneOf m x wr
  let img := if wr && (x.sd.space = 0 || x.sd.space = 3) then bufPut [] ps l else []
  addLater (((segments x.sd ps).take n).zipIdx.flatMap fun s => if s.2 < g then segAsks tab s.1 else segReq c m x wr tab img s.1) m

/-- The requests a stream made while it waited belong to its operation. -/
def claim (x : Acs) (wr : Bool) (m : Mach) : Mach :=
  let f (r : Req) : Req := if r.who == x.core && r.unit == x.unit && r.write == wr && r.op == 0 && r.str == streamKey x.sd then { r with op := x.op } else r
  let g (h : HpReq) : HpReq :=
    if h.core == some x.core && h.unit == x.unit && (h.kind == 0) == wr && h.op == 0 && h.str == streamKey x.sd then { h with op := x.op } else h
  let fg (r : Req) : Req := f { r with host := r.host.map g }
  { m with arb := { m.arb with later := m.arb.later.map fg, waiting := m.arb.waiting.map fg, back := m.arb.back.map f
                               tags := mmap (fun _ r => f r) m.arb.tags }
           hp := { m.hp with wait := m.hp.wait.map g, sent := m.hp.sent.map g } }

/-- A stream that waits: its segments before the first line whose place is not known issue (R184, R193). -/
def aheadReqs (c : Cfg) (x : Acs) (wr : Bool) (ps : List Piece) (tab : LineTab) (l : List Byte) (m : Mach) : Mach :=
  let n := max (goneOf m x wr) (segsReady false tab (segments x.sd ps))
  let m1 := issueSegs c { x with op := 0 } wr ps tab l n m
  if n = goneOf m x wr then m1 else goneSet x wr n m1

/-- A stream's requests, but for those made while it waited, are to issue. -/
def addReqs (c : Cfg) (x : Acs) (wr : Bool) (ps : List Piece) (tab : LineTab) (l : List Byte) (m : Mach) : Mach :=
  let waited := goneOf m x wr ≠ 0
  let m1 := issueSegs c x wr ps tab l (segments x.sd ps).length (if waited then claim x wr m else m)
  if waited then goneSet x wr 0 m1 else m1

/-! ### Reading -/

/-- The half a window names while FRONT names half `front` (R131). -/
def halfAt (x : Core) (front : Nat) (back : Bool) : Map Byte := if (front == 0) != back then x.half0 else x.half1

/-- The half a window names now. -/
def winHalf (x : Core) (back : Bool) : Map Byte := halfAt x x.front back

/-- Bytes of pieces in a buffer. -/
def bufBytes (b : Map Byte) (ps : List Piece) : List Byte := ps.flatMap fun p => bread b p.a p.n

/-- A byte of virtual memory whose line has been acquired. -/
def tabByte (m : Mach) (k : Nat) (tab : LineTab) (a : Nat) : Byte :=
  match tabFind tab (a / 64) with
  | some (.dev b) => bget m.mem.cells (b + a % 64)
  | some (.host b) => bget ((m.cores.getD k core0).hostData) (b + a % 64)
  | _ => 0

/-- Total bytes of pieces. -/
def pieceBytes (ps : List Piece) : Nat := (ps.map (·.n)).foldl (· + ·) 0

/-- Take bytes from the front of a post line's blocks; blocks read whole are freed. -/
def takeBlocks : Nat → List (Nat × List Byte) → List (Nat × List Byte)
  | _, [] => []
  | n, b :: r => if n = 0 then b :: r else if b.2.length ≤ n then takeBlocks (n - b.2.length) r else (b.1, b.2.drop n) :: r

/-- Blocks of an inbound line are freed as they are read (R150). -/
def ringFrees (k l n : Nat) (m : Mach) : Mach := { m with cores := lupd m.cores k fun y => { y with rings := mupd y.rings l (takeBlocks n) } }

/-- Bytes a stream's line or route has given it while it waited. -/
def takenOf (m : Mach) (x : Acs) : List Byte := ((m.cores[x.core]?).bind fun k => mget k.taken (256 * x.sd.space + x.sd.base % 256)).getD []

def takenSet (x : Acs) (l : List Byte) (m : Mach) : Mach :=
  { m with cores := lupd m.cores x.core fun k =>
      { k with taken := if l = [] then mdel k.taken (256 * x.sd.space + x.sd.base % 256) else mset k.taken (256 * x.sd.space + x.sd.base % 256) l } }

/-- The first `n` bytes of a line or route that holds `l`, or a wait that takes what has arrived and frees its blocks (R150, R381). -/
def takeOr (x : Acs) (n : Nat) (l : List Byte) (free : Mach → Mach) (m : Mach) : Mach × Fe (List Byte × LineTab) :=
  if n ≤ (takenOf m x).length + l.length then (m, .ok ((takenOf m x ++ l).take n, []))
  else if l = [] then (m, .wait)
  else (takenSet x (takenOf m x ++ l) (free m), .wait)

/-- What a stream reads: its bytes with its lines, or a wait. -/
def srcBytes (c : Cfg) (x : Acs) (ps : List Piece) (m : Mach) : Mach × Fe (List Byte × LineTab) :=
  let core := m.cores.getD x.core core0
  match x.sd.space with
  | 0 =>
    match acquire (lineRead c x ps) (linesOf ps) m with
    | (m, tab, .ok _) => (m, .ok (ps.flatMap fun p => (List.range p.n).map fun i => tabByte m x.core tab (p.a + i), tab))
    | (m, _, .killed) => (m, .killed)
    | (m, tab, _) => (aheadReqs c x false ps tab [] m, .wait)
  | 1 => (m, .ok (bufBytes (halfAt core x.sd.front false) ps, []))
  | 2 => (m, .ok (bufBytes (halfAt core x.sd.front true) ps, []))
  | 3 => (m, .ok (bufBytes (((regionOf m x.t (sdHandle x.sd)).map (·.data)).getD []) ps, []))
  | 5 =>
    let l := ((mget core.rings (x.sd.base % 8)).getD []).flatMap (·.2)
    takeOr x (pieceBytes ps) l (ringFrees x.core (x.sd.base % 8) l.length) m
  | 7 =>
    let l := parkedBytes m x.t.q (x.sd.base % 256)
    match if (takenOf m x).length + l.length < pieceBytes ps then core.linkLost else none with
    | some detail => (stopLayer x.t.q x.t.desc stLinkLost detail true m, .killed)
    | none => takeOr x (pieceBytes ps) l (unpark x.t.q (x.sd.base % 256) l.length) m
  | _ => (m, .ok (List.replicate (pieceBytes ps) 0, []))

/-- A stream has read its bytes: host lines are used up, blocks are freed (R150, R381). -/
def srcTake (x : Acs) (ps : List Piece) (tab : LineTab) (m : Mach) : Mach :=
  match x.sd.space with
  | 0 =>
    let used := tab.filterMap fun l => match l.2 with
      | .host b => some (b / 64)
      | _ => none
    { m with cores := lupd m.cores x.core fun k => { k with hostLines := k.hostLines.filter fun l => !used.contains l } }
  | 5 => takenSet x ((takenOf m x).drop (pieceBytes ps)) (ringFrees x.core (x.sd.base % 8) (pieceBytes ps - (takenOf m x).length) m)
  | 7 => takenSet x ((takenOf m x).drop (pieceBytes ps)) (unpark x.t.q (x.sd.base % 256) (pieceBytes ps - (takenOf m x).length) m)
  | _ => m

/-! ### Writing -/

/-- What a stream had written of device memory when it met a fault remains (R192). -/
def storeAhead (x : Acs) (ps : List Piece) (tab : LineTab) (l : List Byte) (m : Mach) : Mach :=
  let ss := segments x.sd ps
  (ss.take (segsReady true tab ss)).foldl (fun m s =>
    match tabFind tab (s.1 / 64) with
    | some (.dev b) => engPut (b + s.1 % 64) (bread (bufPut [] ps l) s.1 s.2) m
    | _ => m) m

/-- Whether a destination can take a stream's bytes now; if not, the segments before the first that cannot go are written (R192, R193). -/
def dstReady (c : Cfg) (x : Acs) (ps : List Piece) (l : List Byte) (m : Mach) : Mach × Fe LineTab :=
  if x.sd.space ≠ 0 then (m, .ok [])
  else match acquire (lineWrite c x ps) (linesOf ps) m with
    | (m, tab, .ok _) => (m, .ok tab)
    | (m, tab, .killed) => (storeAhead x ps tab l m, .killed)
    | (m, tab, _) => (aheadReqs c x true ps tab l m, .wait)

/-- Change a window's half, as bound at issue (R131). -/
def halfUpd (k front : Nat) (back : Bool) (f : Map Byte → Map Byte) (m : Mach) : Mach :=
  { m with cores := lupd m.cores k fun y =>
      if (front == 0) != back then { y with half0 := f y.half0 } else { y with half1 := f y.half1 } }

/-- DATA frames of a Kalham destination (R378). -/
def sendFrames (x : Acs) (rt : Bool) (l : List Byte) (m : Mach) : Mach :=
  match sendTo m x.t.q x.sd.base with
  | none => m
  | some (_, b) =>
    match (m.links[b.port]?).bind fun k => k.peers.zipIdx.find? fun p => p.1.engine == some b.engine with
    | none => m
    | some p =>
      (chunks 8192 l).foldl (fun m d => framePut b.port p.2
        { head := { type := 1, dst := b.engine, src := 0xF, route := bits x.sd.base 20 8, queue := b.remote, len := d.length }
          data := d, q := x.t.q, desc := x.t.desc, op := x.op, cls := if rt then 1 else 2
          deadline := m.now + if x.sd.rate = 0 then 4096 else 16 * (64 * creditOf m x.core x.unit) / x.sd.rate } m) m

/-- The bytes are written; those of device memory, of the Depot and of the host go with their requests (R182, R204). -/
def dstPut (x : Acs) (ps : List Piece) (l : List Byte) (m : Mach) : Mach :=
  match x.sd.space with
  | 1 => halfUpd x.core x.sd.front false (fun b => bufPut b ps l) m
  | 2 => halfUpd x.core x.sd.front true (fun b => bufPut b ps l) m
  | 4 => { m with cores := lupd m.cores x.core fun k =>
      { k with rings := mset k.rings (8 + x.sd.base % 8) ((mget k.rings (8 + x.sd.base % 8)).getD [] ++ (chunks 256 l).map fun b => (x.op, b)) } }
  | 6 => sendFrames x ((qGet m x.t.q).any (·.ctx.rt)) l m
  | _ => m

/-! ### Issue (R122, R123) -/

/-- Operations a slot's queue holds: 0 to 3 the S slots, 4 M, 5 V (R122). -/
def slotDepth (s : Nat) : Nat := if s = 4 then 2 else 4

/-- A slot's queue is full. -/
def slotFull (x : Core) (slot : Nat) : Bool := decide (slotDepth slot ≤ (x.slots.getD slot []).length)

/-- A core whose tile-command still issues words. -/
def issuing (m : Mach) (k : Nat) : Option (Core × TileCmd) :=
  match m.cores[k]? with
  | none => none
  | some x => x.tc.bind fun t => if t.ended || m.power.fail ≠ 0 then none else some (x, t)

/-- A word's operation may issue on a core: its tile-command has not ended, nothing holds a word back, nothing stops it for a power
failure, and the slot's queue has a free entry (R123). -/
def canIssue (m : Mach) (k slot : Nat) : Option (Core × TileCmd) :=
  (issuing m k).bind fun p => if p.1.waiting.isSome || slotFull p.1 slot then none else some p

/-- What holds words back: a route it waits on, 0x100 FENCE, 0x200 and a slot whose queue is full, 0x300 ENQUEUE. -/
def setWait (k : Nat) (w : Option Nat) (m : Mach) : Mach := { m with cores := lupd m.cores k fun x => { x with waiting := w } }

/-- A word that names a full queue is held back, and holds back every later word until it issues (R123). DESIGN CHOICE (log 41): rows bring
operations, so the order of a word's rows and the line it stands in are the row's. -/
def unhold (k slot : Nat) (m : Mach) : Mach :=
  match issuing m k with
  | none => m
  | some (x, _) =>
    if x.waiting = none && slotFull x slot then setWait k (some (0x200 + slot)) m
    else if x.waiting = some (0x200 + slot) && !slotFull x slot then setWait k none m
    else m

/-- Run an operation when it may issue. -/
def withOp (k slot : Nat) (f : Core → TileCmd → Mach → Mach) (m : Mach) : Mach :=
  match canIssue (unhold k slot m) k slot with
  | none => unhold k slot m
  | some (x, t) => f x t (unhold k slot m)

/-- An operation enters its slot's queue. -/
def pushOp (k slot : Nat) (stamps uses : List Nat) (undrained : Bool) (m : Mach) : Mach :=
  { m with arb := { m.arb with nextOp := m.arb.nextOp + 1 }
           cores := lupd m.cores k fun x => { x with
             begun := x.begun.filter (·.1 ≠ slot)
             slots := lupd x.slots slot fun l => l ++ [⟨m.arb.nextOp, stamps, uses, undrained⟩] } }

/-- The region a stream uses, for DEPOT_FREE (R203). -/
def usesOf (s : Sd) : List Nat := if s.space = 3 && sdHandle s ≠ 0xFFFF then [sdHandle s] else []

/-- An operation has issued on a slot's unit and waits for its data: its regions serve it to its end (R203). -/
def began (k slot : Nat) (uses : List Nat) (m : Mach) : Mach :=
  { m with cores := lupd m.cores k fun x => { x with begun := (uses.map fun h => (slot, h)) ++ x.begun.filter (·.1 ≠ slot) } }

/-- The role of a stream of a slot's operation, which may have issued before (R203). -/
def Role.on (r : Role) (x : Core) (slot : Nat) (s : Sd) : Role :=
  { r with issued := usesOf s ≠ [] && (usesOf s).all fun h => x.begun.contains (slot, h) }

/-- The access of a stream of the present operation. -/
def acsOf (m : Mach) (k unit : Nat) (t : TileCmd) (s : Sd) : Acs := ⟨k, t, qDom m t.q, unit, s, m.arb.nextOp, t.q⟩

/-- Read `n` codes of a stream for the present operation, and go on with them. -/
def readCodes (c : Cfg) (x : Acs) (n : Nat) (m : Mach) : Mach × Fe (List Nat × LineTab) :=
  let ps := pieces x.sd n
  match srcBytes c x ps m with
  | (m, .ok (l, tab)) => (m, .ok (unpack x.sd ps l, tab))
  | (m, .killed) => (m, .killed)
  | (m, _) => (m, .wait)

/-- The codes have been used: the stream's requests are made and its source is taken. -/
def tookCodes (c : Cfg) (x : Acs) (n : Nat) (tab : LineTab) (m : Mach) : Mach :=
  let ps := pieces x.sd n
  srcTake x ps tab (addReqs c x false ps tab [] m)

/-- Codes to bytes at a destination, with the requests that takes. -/
def wroteCodes (c : Cfg) (x : Acs) (tab : LineTab) (codes : List Nat) (m : Mach) : Mach :=
  let ps := pieces x.sd codes.length
  addReqs c x true ps tab (pack x.sd ps codes) (dstPut x ps (pack x.sd ps codes) m)

end Sys2Proof.Machine
end

