-- ==== Sys2Proof/Machine/Control.lean ====
section
/-! DEFINITION. The C and P slots of a kernel core, the retirement of operations, and post lines (R123 to R126, R131, R134,
R135, R142, R144 to R152, R156, R157, R190, R475). -/

namespace Sys2Proof.Machine

/-- Change a core. -/
def coreUpd (k : Nat) (f : Core → Core) (m : Mach) : Mach := { m with cores := lupd m.cores k f }

/-! ### C slot (R131, R134, R135) -/

/-- LOOP: an active level's LOOP the finaliser refuses; a count of 0 goes on after the level's ENDL. -/
def loopC (k level : Nat) (count : Opnd) (endl : Nat) : Mach → Mach :=
  withOp k 6 fun x t =>
    if 4 ≤ level || mhas x.loops level then id
    else if opnd t count = 0 then coreUpd k fun x => { x with pc := some (endl + 1) }
    else coreUpd k fun x => { x with loops := mset x.loops level (0, opnd t count), pc := none }

/-- ENDL: the next iteration, or the level ends. -/
def endlC (k level target : Nat) : Mach → Mach :=
  withOp k 6 fun x _ =>
    match mget x.loops level with
    | none => id
    | some (i, n) =>
      if i + 1 < n then coreUpd k fun x => { x with loops := mset x.loops level (i + 1, n), pc := some target }
      else coreUpd k fun x => { x with loops := mdel x.loops level, pc := none }

/-- Whether a branch condition holds on index `i` of `n`. -/
def condMet (c : Cond) (i n : Nat) : Bool :=
  match c with
  | .first => i == 0
  | .last => i + 1 == n
  | .notFirst => i != 0
  | .notLast => i + 1 != n

def brlC (k level : Nat) (c : Cond) (target : Nat) : Mach → Mach :=
  withOp k 6 fun x _ =>
    match mget x.loops level with
    | none => id
    | some (i, n) => coreUpd k fun x => { x with pc := if condMet c i n then some target else none }

def swapC (k : Nat) : Mach → Mach := withOp k 6 fun _ _ => coreUpd k fun x => { x with front := 1 - x.front, pc := none }
def endC (k : Nat) : Mach → Mach :=
  withOp k 6 fun _ _ => coreUpd k fun x => { x with tc := x.tc.map fun t => { t with ended := true }, pc := none }
def nopC (k : Nat) : Mach → Mach := withOp k 6 fun _ _ => coreUpd k fun x => { x with pc := none }

/-! ### Device-side enqueue (R156, R157, R475) -/

/-- A target passes the check of R156; a FEED queue accepts no descriptors (R249). -/
def targetOk (m : Mach) (d q : Nat) : Bool :=
  (qGet m q).any fun x => x.ctx.dom == d && x.ctx.forwardable && !x.ctx.feed && x.ctx.state != qsKilled

/-- Entries of a ring that are neither published nor reserved. -/
def ringFree (x : Queue) : Nat :=
  2 ^ x.ctx.ringLog2 - subMod x.ctx.tail x.ctx.head (2 * 2 ^ x.ctx.ringLog2) - ((x.reserved.map (·.2)).foldl (· + ·) 0)

/-- Reserve a target's entries; the reservation has a number of its own. -/
def reserveC (k q n half off : Nat) (m : Mach) : Mach :=
  let e := m.arb.nextOp
  coreUpd k (fun x => { x with enqs := x.enqs ++ [⟨q, e, n, half, off, none, false⟩], pc := none, waiting := none })
    (qUpd q (fun y => { y with reserved := y.reserved ++ [(e, n)] }) { m with arb := { m.arb with nextOp := e + 1 } })

/-- ENQUEUE: loads the target's context (R246) and checks it, then reserves its entries, or holds the word back until there are enough (R123, R156). -/
def enqueueC (k slot : Nat) (back : Bool) (off : Aff) (size : Nat) (c : Cfg) (m0 : Mach) : Mach :=
  match issuing m0 k with
  | none => m0
  | some (x, t) =>
    let q := nth t.params slot % 2 ^ 20
    let o := affN x t off % 2 ^ 64
    let n := if size = 256 then 2 else 1
    let m := if qDom m0 q = qDom m0 t.q then loadQueue c q m0 else m0
    if x.waiting.any (· ≠ 0x300) then m0
    else if 16 ≤ x.enqs.length then endTile k stParamRange 0xFFFF m0
    else if 0x300000 < o + 128 * n then endTile k stParamRange (paramSlot off.c) m0
    else if !targetOk m (qDom m t.q) q then endTile k stPermission 0 m
    else if ((qGet m q).map ringFree).getD 0 < n then setWait k (some 0x300) m
    else reserveC k q n (if back then 1 - x.front else x.front) o m

/-! ### P slot (R144 to R148) -/

/-- A postmark arrives on a route (R145). -/
def postRoute (k r : Nat) (m : Mach) : Mach :=
  coreUpd k (fun x => { x with routes := mset x.routes r (((mget x.routes r).getD 0 + 1) % 2 ^ 16) }) m

/-- A route's count (R144). -/
def routeCount (m : Mach) (x : Core) (t : TileCmd) (r : Nat) : Nat :=
  if r < 0x80 then (mget x.routes r).getD 0 else ((qGet m t.q).bind fun y => mget y.routes r).getD 0

/-- A condition of a word holds or holds it back; `mark` says which. -/
def holdWord (k mark : Nat) (f : Mach → Core → TileCmd → Bool) (m : Mach) : Mach :=
  match issuing m k with
  | none => m
  | some (x, t) =>
    if x.waiting.any (· ≠ mark) then m else setWait k (if f m x t then none else some mark) m

def waitP (k route : Nat) (seq : Aff) : Mach → Mach :=
  holdWord k route fun m x t => seqMet (routeCount m x t route) (affN x t seq)

/-- FENCE: every earlier operation has retired. -/
def fenceP (k : Nat) : Mach → Mach :=
  holdWord k 0x100 fun _ x _ => x.slots.all (· = []) && x.enqs.all (·.bytes.isSome)

/-- POST: a local route at once; a post line behind every block sent on it. -/
def postP (k route : Nat) : Mach → Mach :=
  withOp k 6 fun _ _ =>
    if route < 0x40 then postRoute k route
    else if route < 0x48 then coreUpd k fun x => { x with rings := mset x.rings (route - 0x38) ((mget x.rings (route - 0x38)).getD [] ++ [(0, [])]) }
    else id

/-! ### EPI (R142) -/

def epiV (k : Nat) (o : EpiOp) : Mach → Mach :=
  withOp k 5 fun _ _ m => pushOp k 5 [] [] false (coreUpd k (fun x => { x with epi := some o }) m)

/-! ### Retirement (R124, R145, R157) -/

/-- Nothing an operation asked for or sent is outstanding. -/
def opDone (m : Mach) (x : Core) (n : Nat) : Bool :=
  m.arb.later.all (·.op ≠ n) && m.arb.waiting.all (·.op ≠ n) && m.arb.tags.all (·.2.op ≠ n) && (hpAll m).all (·.op ≠ n)
    && (m.links.all fun l => l.peers.all fun p => (p.queue ++ p.unacked).all (·.op ≠ n))
    && x.rings.all fun r => r.1 < 8 || r.2.all (·.1 ≠ n)

/-- The number at the head of a slot's queue. -/
def headOp (x : Core) (s : Nat) : Option OpRec := (x.slots.getD s []).head?

/-- The parts an array or V word has in the S slots stand at the heads of their queues. -/
def partsReady (x : Core) (n : Nat) : Bool :=
  [0, 1, 2, 3].all fun s => (x.slots.getD s []).all (·.op ≠ n) || (headOp x s).any (·.op = n)

/-- An operation leaves its queues and its stamps post. -/
def retireOp (k n : Nat) (stamps : List Nat) (m : Mach) : Mach :=
  stamps.foldl (fun m r => postRoute k r m)
    (coreUpd k (fun x => { x with slots := x.slots.map fun l => l.filter (·.op ≠ n) }) m)

/-- The half a reservation names. -/
def halfOf (x : Core) (h : Nat) : Map Byte := if h = 0 then x.half0 else x.half1

/-- The first ENQUEUE that has not retired reads its descriptor (R157). -/
def readEnq (x : Core) : List EnqRec → List EnqRec
  | [] => []
  | e :: r => if e.bytes.isSome then e :: readEnq x r else { e with bytes := some (bread (halfOf x e.half) e.off (128 * e.n)) } :: r

/-- OPERATION_RETIRE: the head of a slot's queue, 0 to 3 S, 4 M, 5 V; 6 the next ENQUEUE. -/
def operationRetire (k slot : Nat) (m : Mach) : Mach :=
  match m.cores[k]? with
  | none => m
  | some x =>
    if x.tc.isNone then m
    else if slot = 6 then coreUpd k (fun x => { x with enqs := readEnq x x.enqs }) m
    else match headOp x slot with
      | none => m
      | some r =>
        let part := slot < 4 && (r.op = 0 || (x.slots.getD 4 [] ++ x.slots.getD 5 []).any (·.op = r.op))
        if part || r.undrained || !opDone m x r.op || !partsReady x r.op then m else retireOp k r.op r.stamps m

/-! ### Post lines (R149 to R152, R190, R191) -/

/-- Ring space in use on an inbound line: whole blocks of 256 bytes. -/
def ringUsed (x : Core) (l : Nat) : Nat := 256 * (((mget x.rings l).getD []).filter (·.2 ≠ [])).length

/-- The block at the head of an outbound line has passed its router outputs: fewer of its operation's requests are left than blocks (R191). -/
def blockOut (m : Mach) (y : Core) (l op : Nat) : Bool :=
  op = 0 || decide ((((m.arb.later ++ m.arb.waiting).filter (·.op == op)).length) < ((((mget y.rings (8 + l)).getD []).filter (·.1 == op)).length))

/-- The member and line that sends this block next to an inbound line of a core: wired to it, within the gang (R149, R190). -/
def producerOf (m : Mach) (k line : Nat) (data : List Byte) : Option (Nat × Nat) :=
  match (m.cores[k]?).bind (·.tc) with
  | none => none
  | some t =>
    if t.gang = 0 || 8 ≤ line then none
    else
      ((m.cores.zipIdx).flatMap fun p => ((List.range 8).map fun l => (p.2, l))).find? fun p =>
        match (m.cores[p.1]?).bind fun y => y.tc.map fun u => (y, u) with
        | none => false
        | some (y, u) =>
          u.gang == t.gang && mget y.wires p.2 == some (t.member, line)
            && (((mget y.rings (8 + p.2)).getD []).head?).any fun b => b.2 == data && blockOut m y p.2 b.1

/-- The size of a core's receive ring on a line; 0 where none is declared. -/
def ringSize (x : Core) (line : Nat) : Nat := (mget x.ringSizes line).getD 0

/-- POST_LINE_BLOCK_ACCEPT: a block, or with no data a bare postmark, enters the consumer's receive ring, its producer's credits return, and the
line's route rises. -/
def postLineAccept (k line : Nat) (data : List Byte) (m : Mach) : Mach :=
  match m.cores[k]?, producerOf m k line data with
  | some x, some (j, l) =>
    if data ≠ [] && ringSize x line < ringUsed x line + 256 then m
    else
      let op := (((m.cores[j]?).bind fun y => (mget y.rings (8 + l)).bind (·.head?)).map (·.1)).getD 0
      let m := coreUpd j (fun y => { y with rings := mupd y.rings (8 + l) (·.drop 1) }) (if op = 0 then m else tookBytes j op data.length m)
      let m := if data = [] then m else coreUpd k (fun y => { y with rings := mset y.rings line ((mget y.rings line).getD [] ++ [(0, data)]) }) m
      pump (postRoute k (0x40 + line) m)
  | _, _ => m

def execLoop (core level : Nat) (count : Opnd) (endl : Nat) (s : State) : Host.Outcome State Fault Refusal :=
  s.runM fun _ => loopC core level count endl
def execEndl (core level target : Nat) (s : State) : Host.Outcome State Fault Refusal := s.runM fun _ => endlC core level target
def execBrl (core level : Nat) (cond : Cond) (target : Nat) (s : State) : Host.Outcome State Fault Refusal :=
  s.runM fun _ => brlC core level cond target
def execSwap (core : Nat) (s : State) : Host.Outcome State Fault Refusal := s.runM fun _ => swapC core
def execEnqueue (core slot : Nat) (back : Bool) (off : Aff) (size : Nat) (s : State) : Host.Outcome State Fault Refusal :=
  s.runM (enqueueC core slot back off size)
def execEndOp (core : Nat) (s : State) : Host.Outcome State Fault Refusal := s.runM fun _ => endC core
def execNop (core : Nat) (s : State) : Host.Outcome State Fault Refusal := s.runM fun _ => nopC core
def execWait (core route : Nat) (seq : Aff) (s : State) : Host.Outcome State Fault Refusal := s.runM fun _ => waitP core route seq
def execFence (core : Nat) (s : State) : Host.Outcome State Fault Refusal := s.runM fun _ => fenceP core
def execPost (core route : Nat) (s : State) : Host.Outcome State Fault Refusal := s.runM fun _ => postP core route
def execEpi (core : Nat) (o : EpiOp) (s : State) : Host.Outcome State Fault Refusal := s.runM fun _ => epiV core o
def execOperationRetire (core slot : Nat) (s : State) : Host.Outcome State Fault Refusal := s.runM fun _ => operationRetire core slot
def execPostLineBlockAccept (core line : Nat) (data : List Byte) (s : State) : Host.Outcome State Fault Refusal :=
  s.runM fun _ => postLineAccept core line data

end Sys2Proof.Machine
end

