-- ==== Sys2Proof/Machine/Depot.lean ====
section
/-! DEFINITION. Regions, layer allocations and tables (R198 to R205, R209, R210). -/

namespace Sys2Proof.Machine

/-! ### Units (R198 to R201) -/

/-- The groups of `n` units taken in turn from group `g`; `fuel` groups are tried. -/
def spread (cap : Nat) : Nat → Nat → Nat → List Nat → List Nat
  | 0, _, _, _ => []
  | fuel + 1, g, n, used =>
    if n = 0 then []
    else if nth used g < cap then g :: spread cap fuel ((g + 1) % 8) (n - 1) (lupd used g (· + 1))
    else spread cap fuel ((g + 1) % 8) n used

/-- Column groups by distance from a column, the lower first among equals. -/
def nearCols (g : Nat) : List Nat :=
  (List.range 8).flatMap fun d => if d = 0 then [g] else ([g - d, g + d].eraseDups).filter fun x => x < 8 && (x + d = g || g + d = x)

/-- The groups of `n` units, filling groups in an order. -/
def fill (cap : Nat) (used : List Nat) : List Nat → Nat → List Nat
  | [], _ => []
  | g :: r, n => let k := min n (cap - nth used g); List.replicate k g ++ fill cap used r (n - k)

/-- Units of `size` bytes placed SPREAD. -/
def spreadUnits (c : Cfg) (m : Mach) (n : Nat) : List Nat := spread (groupCap c) (8 * n + 8) 0 n (groupUsed m)

/-- A new region. -/
def newRegion (dom size : Nat) (gs : List Nat) : Region := ⟨dom, size, gs.length, gs, false, []⟩

/-! ### DEPOT_ALLOC and DEPOT_FREE (R200, R203) -/

def allocChecks (c : Cfg) (m : Mach) (k : Cmd) : List (Bool × Nat) :=
  let n := cdiv (k.argN 0x18 8) 65536
  [(k.argN 0x18 8 = 0 || 1 < k.argN 0x20 1 || 1023 < k.argN 0x22 2 || (k.argN 0x20 1 = 1 && m.cores.length ≤ k.argN 0x21 1), stParamRange),
   (mhas m.depot.regions (k.argN 0x22 2) || (domE m k.dom).state ≠ 1, stPermission),
   (freeUnits c m - reservedUnits m none < n || (domE m k.dom).depotLimit < depotUsed m k.dom (2 ^ 20) + n, stBindResources)]

def depotAlloc (id : Nat) : Cfg → Mach → Mach :=
  cmdRow 0x600 id (fun _ => 0) allocChecks fun c k m =>
    let n := cdiv (k.argN 0x18 8) 65536
    let gs := if k.argN 0x20 1 = 0 then spreadUnits c m n
      else fill (groupCap c) (groupUsed m) (nearCols (physOf c (k.argN 0x21 1) % 8)) n
    respond c id stOk (toLe 4 n)
      { m with depot := { m.depot with regions := mset m.depot.regions (k.argN 0x22 2) (newRegion k.dom (65536 * n) gs) } }

/-- The checks of depotFree. -/
def depotFreeChecks : Cfg → Mach → Cmd → List (Bool × Nat) :=
  fun _ m k => [(1023 < k.argN 0x18 2, stParamRange),
      ((mget m.depot.regions (k.argN 0x18 2)).all fun r => r.dom ≠ k.dom || r.freeing, stPermission)]

def depotFree (id : Nat) : Cfg → Mach → Mach :=
  cmdRow 0x601 id (fun _ => 0)
    depotFreeChecks
    fun _ k m =>
      underWay id (k.argN 0x18 2) { m with depot := { m.depot with
        regions := mupd m.depot.regions (k.argN 0x18 2) fun r => { r with freeing := true } } }

/-- Operations that name a region have all retired, those of the Sorting Office among them (R203). -/
def regionIdle (m : Mach) (h : Nat) : Bool :=
  (m.cores.all fun x => (x.slots.all fun l => l.all fun r => !r.uses.contains h) && x.begun.all (·.2 ≠ h)) && m.depot.ops.all fun o => !o.uses.contains h

/-- DEPOT_FREE_DONE: the units are zeroed and free. -/
def depotFreeDone (id : Nat) (c : Cfg) (m : Mach) : Mach :=
  withCmd2 0x601 id (fun k m =>
    let h := k.argN 0x18 2
    if regionIdle m h then respond c id stOk [] { m with depot := { m.depot with regions := mdel m.depot.regions h } } else m) m

/-! ### Tables (R209, R210) -/

/-- Fields of a table descriptor. -/
def tbBase (b : List Byte) : Nat := leAt b 0 8
def tbRows (b : List Byte) : Nat := leAt b 8 4 + 1
def tbRowBytes (b : List Byte) : Nat := leAt b 0xC 2
def tbFmt (b : List Byte) : Nat := leAt b 0xE 1
def tbFlag (b : List Byte) (i : Nat) : Bool := bits (leAt b 0xF 1) i 1 == 1
def tbStride (b : List Byte) : Nat := leAt b 0x10 8
def tbDom (b : List Byte) : Nat := leAt b 0x18 2

/-- A table descriptor that breaks its layout (R209). -/
def tableDescBad (b : List Byte) : Bool :=
  let r := tbRowBytes b
  tbBase b % 32 ≠ 0 || 2 ^ 52 ≤ tbBase b || r < 32 || 4096 < r || r % 32 ≠ 0 || !([2, 8, 9, 0xA, 0xB, 0xC] : List Nat).contains (tbFmt b)
    || 8 ≤ leAt b 0xF 1 || tbStride b < r || tbStride b % 32 ≠ 0 || 4096 ≤ tbDom b || nonZero b 0x1A 38

/-- The checks of tableOpen. -/
def tableOpenChecks : Cfg → Mach → Cmd → List (Bool × Nat) :=
  fun _ m k =>
      let b := areaBytes m k 64
      [(tableDescBad b, stMalformed), (63 < k.argN 0x18 1, stParamRange),
       (mhas m.depot.tables (k.argN 0x18 1) || (domE m (tbDom b)).state ≠ 1, stPermission)]

def tableOpen (id : Nat) : Cfg → Mach → Mach :=
  cmdRow 0x602 id (fun _ => 64)
    tableOpenChecks
    fun c k m =>
      let b := areaBytes m k 64
      respond c id stOk [] { m with depot := { m.depot with tables := mset m.depot.tables (k.argN 0x18 1) ⟨b, tbDom b, false, false⟩ } }

/-- The checks of tableClose. -/
def tableCloseChecks : Cfg → Mach → Cmd → List (Bool × Nat) :=
  fun _ m k => [(63 < k.argN 0x18 1, stParamRange), ((mget m.depot.tables (k.argN 0x18 1)).all (·.closing), stPermission)]

def tableClose (id : Nat) : Cfg → Mach → Mach :=
  cmdRow 0x603 id (fun _ => 0)
    tableCloseChecks
    fun _ k m =>
      underWay id (k.argN 0x18 1) { m with depot := { m.depot with
        tables := mupd m.depot.tables (k.argN 0x18 1) fun t => { t with closing := true } } }

/-- An operation accepted on a table is in the Sorting Office. -/
def tableBusy (m : Mach) (n : Nat) : Bool :=
  m.depot.ops.any fun o => (descGet m o.q o.desc).any fun x => x.type == 6 && leAt x.bytes 0xA 1 == n

/-- TABLE_CLOSE_DONE: written back, invalidated, and its number free. -/
def tableCloseDone (id : Nat) (c : Cfg) (m : Mach) : Mach :=
  withCmd2 0x603 id (fun k m =>
    let n := k.argN 0x18 1
    if tableBusy m n then m else respond c id stOk [] (tableFlush n m)) m

/-! ### Layer allocations (R201) -/

/-- The layer's allocation is made, or none is needed; none when it cannot be made yet. -/
def layerAlloc (c : Cfg) (q d : Nat) (m : Mach) : Option Mach :=
  match (descGet m q d).bind fun x => layerRec m x with
  | none => some m
  | some r =>
    let n := cdiv (lrDepot r) 65536
    let dom := qDom m q
    let rt := (qGet m q).any (·.ctx.rt)
    if n = 0 || mhas m.depot.layers (layerKey q d) then some m
    else if freeUnits c m < n + (if rt then 0 else reservedUnits m none) then none
    else if !rt && (domE m dom).depotLimit < depotUsed m dom (2 ^ 20) + n then none
    else some { m with depot := { m.depot with layers := mset m.depot.layers (layerKey q d) (newRegion dom (65536 * n) (spreadUnits c m n)) } }

def execDepotAlloc (id : Nat) (s : State) : Host.Outcome State Fault Refusal := s.runM (depotAlloc id)
def execDepotFree (id : Nat) (s : State) : Host.Outcome State Fault Refusal := s.runM (depotFree id)
def execDepotFreeDone (id : Nat) (s : State) : Host.Outcome State Fault Refusal := s.runM (depotFreeDone id)
def execTableOpen (id : Nat) (s : State) : Host.Outcome State Fault Refusal := s.runM (tableOpen id)
def execTableClose (id : Nat) (s : State) : Host.Outcome State Fault Refusal := s.runM (tableClose id)
def execTableCloseDone (id : Nat) (s : State) : Host.Outcome State Fault Refusal := s.runM (tableCloseDone id)

end Sys2Proof.Machine
end

