-- ==== Sys2Proof/Machine/StreamOps.lean ====
section
/-! DEFINITION. The operations of the S slots: copies, loads of codebooks, tables and weights, and the streams of an array
word (R48, R49, R66, R99, R118, R130, R136, R138, R150, R152, R174 to R177). -/

namespace Sys2Proof.Machine

/-- What some checks give: the outcome R470 ranks highest, the first of those. -/
def firstFail (l : List (Option (Nat × Nat))) : Option (Nat × Nat) := (l.filterMap id).foldl (fun a p => meet a p.1 p.2) none

/-- What differs between the two streams of a copy: KIND or FORMAT, under the offset of the field (R136, as R262; log 41). -/
def sdDiffer (s d : Sd) : Option (Nat × Nat) :=
  if s.kind ≠ d.kind then some (stMalformed, 9) else if s.fmt ≠ d.fmt then some (stMalformed, 8) else none

/-- Copy a stream: its codes move once all of the source is at hand; a destination takes what it can (R193). -/
def copyStream (c : Cfg) (k slot unit : Nat) (t : TileCmd) (s d : Sd) (stamps : List Nat) (m : Mach) : Mach :=
  let n := sdCount s
  let xs := acsOf m k unit t s
  let xd := acsOf m k unit t d
  match readCodes c xs n m with
  | (m, .ok (codes, tab)) =>
    match dstReady c xd (pieces d n) (pack d (pieces d n) codes) m with
    | (m, .ok dt) => pushOp k slot stamps (usesOf s ++ usesOf d) false (wroteCodes c xd dt codes (tookCodes c xs n tab m))
    | (m, .killed) => m
    | (m, _) => began k slot (usesOf s ++ usesOf d) m
  | (m, .killed) => m
  | (m, _) => began k slot (usesOf s ++ usesOf d) m

/-- The checks of both streams of a copy. -/
def copyChk (m : Mach) (x : Core) (slot : Nat) (t : TileCmd) (r : Role) (src dst : Tmpl) (s d : Sd) : Option (Nat × Nat) :=
  firstFail [sdCheck m t (r.on x slot s) 0 (paramSlot src.base.c) s, sdCheck m t (roleDst.on x slot d) (sdCount s) (paramSlot dst.base.c) d, sdDiffer s d]

/-- FETCH and PUT: the checks of both streams, then the copy. -/
def copyOp (c : Cfg) (k slot : Nat) (r : Role) (src dst : Tmpl) (stamp : Option Nat) : Mach → Mach :=
  withOp k slot fun x t m =>
    match copyChk m x slot t r src dst (sdOf x t src) (sdOf x t dst) with
    | some p => endTile k p.1 p.2 m
    | none => copyStream c k slot slot t (sdOf x t src) (sdOf x t dst) stamp.toList m

def fetchS (k unit : Nat) (src dst : Tmpl) (stamp : Option Nat) (c : Cfg) (m : Mach) : Mach :=
  if 4 ≤ unit then m else copyOp c k unit roleSrc src dst stamp m
def putS (k : Nat) (src dst : Tmpl) (stamp : Option Nat) (c : Cfg) (m : Mach) : Mach := copyOp c k 2 rolePut src dst stamp m

/-! ### Loads through SU-D (R66, R99, R118) -/

/-- Read the first `n` elements of a stream through SU-D and use their bytes, once `go` lets it; `more` is a further check. -/
def loadOp (c : Cfg) (k n : Nat) (r : Role) (src : Tmpl) (stamp : Option Nat) (go : Core → Bool) (more : Core → TileCmd → Option (Nat × Nat))
    (f : TileCmd → Sd → List Byte → Core → Core) : Mach → Mach :=
  withOp k 3 fun x t m =>
    let s := sdOf x t src
    match firstFail [sdCheck m t (r.on x 3 s) n (paramSlot src.base.c) s, more x t] with
    | some p => endTile k p.1 p.2 m
    | none =>
      if !go x then m else
      let a := acsOf m k 3 t s
      match srcBytes c a (pieces s n) m with
      | (m, .ok (l, tab)) => pushOp k 3 stamp.toList (usesOf s) false (coreUpd k (f t s l) (tookCodes c a n tab m))
      | (m, .killed) => m
      | (m, _) => began k 3 (usesOf s) m

/-- BF16 or FP32 elements, or raw bytes. -/
def roleWords (f : Nat) : Role := ⟨(· = f), (fun k => k = 0 || k = 5 || (k = 4 && f = 0xC)), srcSpace, false, false, false⟩

/-- Elements of a load that take `w` bytes in all. -/
def loadCount (src : Tmpl) (w b : Nat) : Nat := if src.kind = 5 then b else b / w

def codebookS (k slot size : Nat) (src : Tmpl) (stamp : Option Nat) (c : Cfg) (m : Mach) : Mach :=
  if 4 ≤ slot || (size ≠ 16 && size ≠ 256) then m
  else loadOp c k (loadCount src 2 (2 * size)) (roleWords 0xB) src stamp (fun _ => true) (fun _ _ => none)
    (fun _ _ l x => { x with codebooks := (List.range size).foldl (fun b i => mset b (256 * slot + i) (leAt l (2 * i) 2)) x.codebooks }) m

/-- Whether an operation that has not retired uses a user-table slot (R99). -/
def tableUsed (x : Core) (slot : Nat) : Bool := x.slots.any fun l => l.any fun r => r.uses.contains (2 ^ 20 + slot)

/-- TABLE: it waits until every operation that uses the slot has retired (R99). -/
def tableS (k slot : Nat) (src : Tmpl) (stamp : Option Nat) (c : Cfg) (m : Mach) : Mach :=
  if 2 ≤ slot then m
  else loadOp c k (loadCount src 4 1036) (roleWords 0xC) src stamp (fun x => !tableUsed x slot) (fun _ _ => none)
    (fun _ _ l x => { x with tables := mset x.tables slot l }) m

/-! ### Elements as the Vector Engine reads them (R36, R44 to R49, R117) -/

/-- A window reference's byte offset. -/
def winOff (x : Core) (t : TileCmd) (a : Aff) : Nat := affN x t a

/-- `n` bytes from an offset stay in a window (R129). -/
def inWin (off n : Nat) : Bool := decide (off + n ≤ 0x300000)

/-- A number of `w` bytes in a window. -/
def winNum (x : Core) (back : Bool) (a w : Nat) : Nat := bnum (winHalf x back) a w

/-- A zero point's place: none where the format has none (R36). -/
def zpOf (fmt : Nat) (z : ZpGrain) : ZpGrain := if hasZp fmt then z else .none

/-- Bytes of a row of n zero points of a format (R31, R175). -/
def zpRow (fmt n : Nat) : Nat := if fmt = 1 then cdiv n 2 else n

/-- Whether a zero-point array leaves its window, for `rows` × `vecs` results (R35, R129). -/
def zpGrainBad (x : Core) (t : TileCmd) (fmt rows vecs : Nat) (z : ZpGrain) : Bool :=
  match zpOf fmt z with
  | .row _ off => !inWin (winOff x t off) (zpRow fmt rows)
  | .channel _ off => !inWin (winOff x t off) (zpRow fmt vecs)
  | .group g _ off => !inWin (winOff x t off) (rows * zpRow fmt (cdiv vecs (max 1 g)))
  | _ => false

/-- Zero point number `i` of an array in a window, packed under R31 for UINT4. -/
def zpNum (x : Core) (fmt : Nat) (back : Bool) (a i : Nat) : Nat :=
  if fmt = 1 then bits (winNum x back (a + i / 2) 1) (4 * (i % 2)) 4 else winNum x back (a + i) 1

/-- The zero point of row i and vector n of `vecs` (R35, R55): 0 for a format without one (R36). -/
def zpGrainVal (x : Core) (t : TileCmd) (fmt vecs i n : Nat) (z : ZpGrain) : Nat :=
  match zpOf fmt z with
  | .none => 0
  | .tensor v => opnd t v
  | .row back off => zpNum x fmt back (winOff x t off) i
  | .channel back off => zpNum x fmt back (winOff x t off) n
  | .group g back off => zpNum x fmt back (winOff x t off + i * zpRow fmt (cdiv vecs (max 1 g))) (n / max 1 g)

/-- An element's value under a zero point or its codebook, before its scale. -/
def elemVal (x : Core) (e : ElemSrc) (fmt z code : Nat) : Fv :=
  if isCb fmt then decodeElem 0xB 0 ((mget x.codebooks (256 * (e.cb % 4) + code)).getD 0) else decodeElem fmt z code

/-- An element as FP32: its value times scale number `i` of the source's array, or for a codebook element without groups times t_c, rounded once
(R44, R47, R117). -/
def elemF (x : Core) (t : TileCmd) (e : ElemSrc) (fmt z i code : Nat) : Nat :=
  let v := elemVal x e fmt z code
  enc32 (if groupSize e.group = 0 then (if isCb fmt then fvMul v (dec32 (opnd t e.tc)) else v)
    else if e.stype = 0 then v else fvMul v (scaleVal e.stype (bnum (winHalf x e.back) (affN x t e.off + i) 1)))

/-- A weight's zero point has a grain per tensor, output channel or group: an array of one per row is one per channel (R35). -/
def weightZp : ZpGrain → ZpGrain
  | .channel back off => .row back off
  | z => z

/-- A source's scale array of `n` bytes leaves its window, or its codes have no meaning (R44, R129). -/
def elemBad (x : Core) (t : TileCmd) (e : ElemSrc) (n : Nat) : Option (Nat × Nat) :=
  if 3 < e.group || 2 < e.stype then some (stMalformed, 0)
  else if groupSize e.group ≠ 0 && e.stype ≠ 0 && !decide (affN x t e.off + n ≤ 0x300000) then some (stParamRange, 0xFFFF) else none

/-- WSTORE: dimension 0 runs along the 256 columns, the others along the 225 rows; a column's scales are a row of the array of R45
(log 42), and so are its zero points (R35). -/
def wstoreS (k : Nat) (src : Tmpl) (e : ElemSrc) (stamp : Option Nat) (c : Cfg) : Mach → Mach :=
  let n := src.counts.foldl (· * ·) 1
  let w := nth src.counts 0
  let gs := cdiv (n / max 1 w) (max 1 (groupSize e.group))
  loadOp c k n ⟨anyFmt, (fun q => q = 0 || q = 4), srcSpace, false, false, false⟩ src stamp (fun _ => true)
    (fun x t => firstFail [elemBad x t e (w * gs),
      if 256 < w || 225 * w < n || zpGrainBad x t (if src.kind = 4 then 0xC else src.format) w (n / max 1 w) (weightZp e.zp) then some (stParamRange, 0xFFFF) else none])
    (fun t s l x =>
      let codes := unpack s (pieces s n) l
      let fmt := if s.kind = 4 then 0xC else s.fmt
      { x with wstore := codes.zipIdx.foldl (fun b p =>
          let row := p.2 / max 1 w
          let col := p.2 % max 1 w
          mset b (256 * row + col) (elemF x t e fmt (zpGrainVal x t fmt (n / max 1 w) col row (weightZp e.zp)) (col * gs + row / max 1 (groupSize e.group)) p.1)) x.wstore })

/-! ### The streams of an array word (R136, R138) -/

/-- The part of an array word in an S slot. -/
def pushPart (k slot op : Nat) (uses : List Nat) (m : Mach) : Mach :=
  coreUpd k (fun x => { x with slots := lupd x.slots slot fun l => l ++ [⟨op, [], uses, false⟩] }) m

/-- Latch a stream of an array word for its MMA. -/
def latchOp (k slot : Nat) (r : Role) (src : Tmpl) (stamp : Option Nat) (taken : Core → Bool) (f : Sd → Core → Core) : Mach → Mach :=
  withOp k slot fun x t m =>
    let s := sdOf x t src
    if taken x then m
    else match sdCheck m t r 0 (paramSlot src.base.c) s with
      | some p => endTile k p.1 p.2 m
      | none => pushPart k slot 0 (usesOf s) (coreUpd k (fun x => f s { x with arrayStamps := x.arrayStamps ++ stamp.toList }) m)

def statS (k : Nat) (src : Tmpl) (stamp : Option Nat) : Mach → Mach :=
  latchOp k 0 roleStat src stamp (·.statSd.isSome) fun s x => { x with statSd := some s }
def moveS (k : Nat) (src : Tmpl) (stamp : Option Nat) : Mach → Mach :=
  latchOp k 1 roleMove src stamp (·.moveSd.isSome) fun s x => { x with moveSd := some s }

/-- The check of a stream SIDE may name. -/
def sideOne (m : Mach) (x : Core) (t : TileCmd) (r : Role) (o : Option Tmpl) : Option (Nat × Nat) :=
  o.bind fun p => sdCheck m t r 0 (paramSlot p.base.c) (sdOf x t p)

/-- The checks of SIDE, a stream each. -/
def sideChk (m : Mach) (x : Core) (t : TileCmd) (stScale mvScale stZp mvZp selector outSt outMv : Option Tmpl) : Option (Nat × Nat) :=
  firstFail [sideOne m x t (roleKind 1) stScale, sideOne m x t (roleKind 1) mvScale, sideOne m x t (roleKind 2) stZp,
    sideOne m x t (roleKind 2) mvZp, sideOne m x t (roleKind 3) selector, sideOne m x t roleOut outSt, sideOne m x t roleOut outMv]

/-- SIDE: each of its streams is checked as it issues. -/
def sideS (k : Nat) (stScale mvScale stZp mvZp selector outSt outMv : Option Tmpl) (stamp : Option Nat) : Mach → Mach :=
  withOp k 3 fun x t m =>
    let sd (o : Option Tmpl) : Option Sd := o.map (sdOf x t)
    if x.side.isSome then m
    else match sideChk m x t stScale mvScale stZp mvZp selector outSt outMv with
      | some p => endTile k p.1 p.2 m
      | none =>
        let all := [stScale, mvScale, stZp, mvZp, selector, outSt, outMv].filterMap sd
        pushPart k 3 0 (all.flatMap usesOf) (coreUpd k (fun x =>
          { x with side := some ⟨sd stScale, sd mvScale, sd stZp, sd mvZp, sd selector, sd outSt, sd outMv⟩
                   arrayStamps := x.arrayStamps ++ stamp.toList }) m)

/-! ### DRAIN (R91, R124, R130, R138, R152) -/

/-- What a tile-command reads or writes for one descriptor: its queue, which a fault of these rows meets (R321), the stream, its rows. -/
structure Part where
  q : Nat
  sd : Sd
  rows : Nat

/-- A stream for each descriptor a tile-command serves, moved by its own slot, with its rows (R130). -/
def memberParts (m : Mach) (t : TileCmd) (slot rows : Nat) (s : Sd) : List Part :=
  if t.merged ≤ 1 then [⟨t.q, s, rows⟩]
  else (groupOf m t.q t.desc).filterMap fun p => (descGet m p.1 p.2).map fun d =>
    ⟨p.1, { s with base := (s.base + nth d.params slot + 2 ^ 64 - nth t.params slot) % 2 ^ 64 }, nth d.params 2 % 2 ^ 32⟩

/-- What a DRAIN writes through one stream: the queue a fault meets, the stream, its codes. -/
structure DrainPart where
  q : Nat
  sd : Sd
  codes : List Nat

/-- Cut a result's rows among the descriptors. -/
def cutMembers : List Part → List (List Nat) → List DrainPart
  | [], _ => []
  | p :: r, rows => ⟨p.q, p.sd, (rows.take p.rows).flatten⟩ :: cutMembers r (rows.drop p.rows)

/-- Whether every destination can be written. -/
def partsGo (c : Cfg) (k : Nat) (t : TileCmd) : List DrainPart → Mach → Mach × Fe (List (Sd × List Nat × LineTab))
  | [], m => (m, .ok [])
  | ⟨q, s, l⟩ :: r, m =>
    match dstReady c { acsOf m k 2 t s with fq := q } (pieces s l.length) (pack s (pieces s l.length) l) m with
    | (m, .ok tab) =>
      match partsGo c k t r m with
      | (m, .ok v) => (m, .ok ((s, l, tab) :: v))
      | y => y
    | (m, .killed) => (m, .killed)
    | (m, _) => (m, .wait)

/-- The slot's first operation whose result has not been drained. -/
def undrainedOp (x : Core) (slot : Nat) : Option OpRec := (x.slots.getD slot []).find? (·.undrained)

/-- A result leaves: its operation may retire once the writes are accepted. -/
def resultGone (k slot n : Nat) (stamp : Option Nat) (uses : List Nat) (m : Mach) : Mach :=
  coreUpd k (fun x => { x with
    result := none
    begun := x.begun.filter (·.1 ≠ 2)
    slots := lupd (lupd x.slots slot fun l => l.map fun r => if r.op = n then { r with undrained := false, stamps := r.stamps ++ stamp.toList } else r)
      2 fun l => l ++ [⟨n, [], uses, false⟩] }) m

/-- The format a drain stream writes. -/
def drainFmt (s : Sd) : Nat := if s.kind = 4 then 0xC else s.fmt

/-- The rows of a V word's result in a tile-command that serves several descriptors: as many as it has stationary rows, where they divide its
elements evenly; otherwise its rows as they are (R130; log 41). -/
def wordRows (t : TileCmd) (rows : List (List Nat)) : List (List Nat) :=
  let l := rows.flatten
  if t.merged ≤ 1 || t.rows = 0 || l.length % t.rows ≠ 0 then rows else chunks (l.length / t.rows) l

/-- What a DRAIN writes: the rows by their streams, then the generated scales. -/
def drainParts (m : Mach) (x : Core) (t : TileCmd) (dst : Tmpl) (res : Result) : List DrainPart :=
  let rows := if res.array then res.rows else wordRows t res.rows
  cutMembers (memberParts m t 1 rows.length (sdOf x t dst)) rows
def drainScales (x : Core) (t : TileCmd) (scales : Option Tmpl) (res : Result) : List DrainPart :=
  if res.scales = [] then [] else (scales.map fun z => ⟨t.q, sdOf x t z, res.scales.flatten⟩).toList

/-- The checks of a DRAIN. -/
def drainChk (m : Mach) (x : Core) (t : TileCmd) (dst : Tmpl) (scales : Option Tmpl) (res : Result) : Option (Nat × Nat) :=
  firstFail ((drainParts m x t dst res).map (fun p => sdCheck m t (roleDrain.on x 2 p.sd) p.codes.length (paramSlot dst.base.c) p.sd)
    ++ [if drainFmt (sdOf x t dst) = res.fmt then none else some (stMalformed, 8),
        if res.scales ≠ [] && scales.isNone then some (stParamRange, 0xFFFF) else none]
    ++ (drainScales x t scales res).map fun p => sdCheck m t ⟨anyFmt, (· = 1), dstSpace, false, false, false⟩ p.codes.length 0xFFFF p.sd)

/-- DRAIN: the result of the array or V word, row by row, and generated scales. -/
def drainS (k : Nat) (dst : Tmpl) (scales : Option Tmpl) (stamp : Option Nat) (c : Cfg) : Mach → Mach :=
  withOp k 2 fun x t m =>
    match x.result with
    | none => m
    | some res =>
      let slot := if res.array then 4 else 5
      match undrainedOp x slot with
      | none => m
      | some op =>
        match drainChk m x t dst scales res with
        | some p => endTile k p.1 p.2 m
        | none =>
          match partsGo c k t (drainParts m x t dst res ++ drainScales x t scales res) m with
          | (m, .killed) => m
          | (m, .ok all) =>
            let m := all.foldl (fun m p => wroteCodes c { acsOf m k 2 t p.1 with op := op.op } p.2.2 p.2.1 m) m
            resultGone k slot op.op stamp (all.flatMap fun p => usesOf p.1) m
          | (m, _) => began k 2 ((drainParts m x t dst res ++ drainScales x t scales res).flatMap fun p => usesOf p.sd) m

def execFetch (core unit : Nat) (src dst : Tmpl) (stamp : Option Nat) (s : State) : Host.Outcome State Fault Refusal :=
  s.runM (fetchS core unit src dst stamp)
def execStat (core : Nat) (src : Tmpl) (stamp : Option Nat) (s : State) : Host.Outcome State Fault Refusal :=
  s.runM fun _ => statS core src stamp
def execMove (core : Nat) (src : Tmpl) (stamp : Option Nat) (s : State) : Host.Outcome State Fault Refusal :=
  s.runM fun _ => moveS core src stamp
def execDrain (core : Nat) (dst : Tmpl) (scales : Option Tmpl) (stamp : Option Nat) (s : State) : Host.Outcome State Fault Refusal :=
  s.runM (drainS core dst scales stamp)
def execPut (core : Nat) (src dst : Tmpl) (stamp : Option Nat) (s : State) : Host.Outcome State Fault Refusal :=
  s.runM (putS core src dst stamp)
def execSide (core : Nat) (stScale mvScale stZp mvZp selector outSt outMv : Option Tmpl) (stamp : Option Nat) (s : State) :
    Host.Outcome State Fault Refusal := s.runM fun _ => sideS core stScale mvScale stZp mvZp selector outSt outMv stamp
def execCodebook (core slot size : Nat) (src : Tmpl) (stamp : Option Nat) (s : State) : Host.Outcome State Fault Refusal :=
  s.runM (codebookS core slot size src stamp)
def execTable (core slot : Nat) (src : Tmpl) (stamp : Option Nat) (s : State) : Host.Outcome State Fault Refusal :=
  s.runM (tableS core slot src stamp)
def execWstore (core : Nat) (src : Tmpl) (e : ElemSrc) (stamp : Option Nat) (s : State) : Host.Outcome State Fault Refusal :=
  s.runM (wstoreS core src e stamp)

end Sys2Proof.Machine
end

