-- ==== Sys2Proof/Machine/Fold.lean ====
section
/-! DEFINITION. The array word: MMA with its streams, and the epilogue pipe (R35 to R49, R60 to R77, R87 to R95, R103 to R114,
R130, R137 to R142). -/

namespace Sys2Proof.Machine

/-! ### The epilogue (R46, R56, R87 to R95, R142) -/

/-- Whether a grain's array leaves its window, for `rows` × `vecs` results of `w` bytes each. -/
def grainBad (x : Core) (t : TileCmd) (rows vecs w : Nat) : Grain → Bool
  | .channel _ off => !inWin (winOff x t off) (w * vecs)
  | .row _ off => !inWin (winOff x t off) (w * rows)
  | _ => false

/-- A grain's value for row i and vector n. -/
def grainVal (x : Core) (t : TileCmd) (w i n : Nat) : Grain → Option Nat
  | .none => none
  | .tensor v => some (opnd t v)
  | .channel back off => some (winNum x back (winOff x t off + w * n) w)
  | .row back off => some (winNum x back (winOff x t off + w * i) w)

/-- An activation (R88, R89, R96, R99). -/
def actF (x : Core) (t : TileCmd) (a : Act) (v : Nat) : Nat :=
  match a with
  | .none => v
  | .relu => reluF v
  | .clamp lo hi => clampF (opnd t lo) (opnd t hi) v
  | .leaky s => leakyF (opnd t s) v
  | .fn f => tableFn f v
  | .exp2 => exp2F v
  | .log2 => log2F v
  | .rcp => rcpF v
  | .rsq => rsqF v
  | .sqrt => sqrtF v
  | .table n => userTable ((mget x.tables n).getD []) v

/-- An activation's parameters are unusable (R89, R99). -/
def actBad (x : Core) (t : TileCmd) : Act → Bool
  | .clamp lo hi => !clampOk (opnd t lo) (opnd t hi)
  | .table n => !userTabOk ((mget x.tables n).getD [])
  | _ => false

/-- Bytes of an element stored whole. -/
def elemBytes (fmt : Nat) : Nat := cdiv (fmtBits fmt) 8

/-- The residual of row i, vector n (R88 stage E2). -/
def residual (x : Core) (t : TileCmd) (e : EpiOp) (vecs i n : Nat) : Option Nat :=
  e.resFmt.map fun f =>
    let w := elemBytes f
    mulF (enc32 (decodeElem f 0 (winNum x e.resBack (winOff x t e.resOff + w * (i * vecs + n)) w))) (opnd t e.resFactor)

/-- What E4 cannot do: a format no output has, or a group or scale code without a meaning (R30, R44, R92). DESIGN CHOICE (log 48): generated
scales with the group off or of no type end the layer as a reserved code does. -/
def outBad : OutMode → Bool
  | .fp32 => false
  | .convert f => 0xC < f
  | .requant f _ _ => 0xC < f
  | .generated f g st _ => !(f ≤ 3 || (5 ≤ f && f ≤ 9)) || g = 0 || 3 < g || st = 0 || 3 ≤ st

/-- Conditions of PARAM_RANGE of a configured epilogue over rows × vecs results. -/
def epiBad (x : Core) (t : TileCmd) (e : EpiOp) (rows vecs : Nat) : Bool :=
  grainBad x t rows vecs 4 e.scale || grainBad x t rows vecs 4 e.bias || actBad x t e.act
    || (e.resFmt.any fun f => !inWin (winOff x t e.resOff) (elemBytes f * (rows * vecs)))
    || (match e.out with
        | .requant f s z => grainBad x t rows vecs 4 s || zpGrainBad x t f rows vecs z
        | .generated f _ _ z => zpGrainBad x t f rows vecs z
        | _ => false)

/-- Stages E1 to E3 of one value: `tc` is the codebook scale where it applies. -/
def stages (x : Core) (t : TileCmd) (e : EpiOp) (tc : Option Nat) (vecs i n v : Nat) : Nat :=
  let v := (tc.map (mulF v)).getD v
  let v := ((grainVal x t 4 i n e.scale).map (mulF v)).getD v
  let v := ((grainVal x t 4 i n e.bias).map (addF v)).getD v
  let v := ((residual x t e vecs i n).map (addF v)).getD v
  actF x t e.act v

/-- E4 on one row: format codes, scale bytes, clip events (R53 to R55, R91 to R93). -/
def outRow (x : Core) (t : TileCmd) (o : OutMode) (i : Nat) (vs : List Nat) : List Nat × List Nat × Nat :=
  let plain (l : List (Nat × Bool)) : List Nat × List Nat × Nat := (l.map (·.1), [], (l.filter (·.2)).length)
  match o with
  | .fp32 => (vs, [], 0)
  | .convert f => plain (vs.map fun v => convert f 0 (dec32 v))
  | .requant f s z =>
    plain (vs.zipIdx.map fun p =>
      requant f (zpGrainVal x t f vs.length i p.2 z) p.1 ((grainVal x t 4 i p.2 s).getD 0x3F800000))
  | .generated f g st z =>
    let gs := (chunks (groupSize g) (vs.zipIdx.map fun p => (p.1, zpGrainVal x t f vs.length i p.2 z))).map (genGroup f st)
    (gs.flatMap (·.2.1), gs.map (·.1), (gs.map (·.2.2)).foldl (· + ·) 0)

/-- The format E4 writes. -/
def outFmt : OutMode → Nat
  | .fp32 => 0xC
  | .convert f => f
  | .requant f _ _ => f
  | .generated f _ _ _ => f

/-- The kept maximum with further values (R95). -/
def keepMaxOf (o : Option Nat) (vs : List Nat) : Option Nat :=
  vs.foldl (fun a v =>
    if fvIsNan (dec32 v) then a
    else some (max (a.getD 0) (v % 2 ^ 31))) o

/-- Clip events counted in a core, up to 2^32 − 1 (R94). -/
def addClips (n : Nat) (x : Core) : Core := { x with clip := min (x.clip + n) (2 ^ 32 - 1) }

/-- The staging buffer after E4 has generated scales (R86, R91): the last group of each row, 128 entries a lane. -/
def stagePut (o : OutMode) (vs : List (List Nat)) (b : Map Nat) : Map Nat :=
  match o with
  | .generated _ g _ _ =>
    vs.zipIdx.foldl (fun b r => (((chunks (groupSize g) r.1).getLast?).getD []).zipIdx.foldl (fun b p => mset b (128 * (r.2 % 256) + p.2) p.1) b) b
  | _ => b

/-- The pipe from E1 on: the result for DRAIN, the kept maximum and the clip events. DESIGN CHOICE (log 48): in the weight-resident
orientation the array's rows (k) are the rows of the result and its vectors (m) the channels (R60, R89). -/
def epilogue (t : TileCmd) (tc : Option Nat) (array : Bool) (rows : List (List Nat)) (x : Core) : Core :=
  let e := x.epi.getD {}
  let vs := rows.zipIdx.map fun r => r.1.zipIdx.map fun p => stages x t e tc r.1.length r.2 p.2 p.1
  let out := vs.zipIdx.map fun r => outRow x t e.out r.2 r.1
  let sc := out.map (·.2.1)
  let x := addClips ((out.map (·.2.2)).foldl (· + ·) 0) x
  let x := if e.keepMax then
    { x with keptMax := vs.foldl keepMaxOf x.keptMax, keptNan := x.keptNan || vs.any (·.any fun v => fvIsNan (dec32 v)) } else x
  { x with result := some ⟨array, outFmt e.out, out.map (·.1), if sc.all (· = []) then [] else sc⟩, staging := stagePut e.out vs x.staging }

/-! ### The fold's operands (R60 to R66, R73, R74, R103 to R114) -/

/-- Rows, reduction and vectors of a logical tile by orientation (R60, R62). -/
def foldDims (o : Orient) (m k n : Nat) : Nat × Nat × Nat :=
  match o with
  | .normal => (m, k, n)
  | .transposed => (k, m, n)
  | .weightResident => (k, n, m)

/-- An extent of a logical tile is out of range (R75). -/
def extBad (n : Nat) : Bool := n = 0 || 65536 < n

/-- The outlier list of the parameters (R137): two indices to a slot. -/
def outlierList (t : TileCmd) (count first : Nat) : List Nat :=
  (List.range count).map fun i => bits (nth t.params (first + i / 2)) (32 * (i % 2)) 32

/-- Groups along a reduction; with the group size off there is one. -/
def groupsOf (group red : Nat) : Nat := if groupSize group = 0 then 1 else cdiv red (groupSize group)

/-- Side streams one MMA reads, with how many elements: stationary and moving scales, zero points, selector, outliers. -/
def zpBytes (fmt rows groups : Nat) (s : Sd) : Nat :=
  let per (n : Nat) : Nat := if fmt = 1 then cdiv n 2 else n
  if s.counts.length ≤ 1 then per rows else rows * max (nth s.counts 0) (per groups)

/-- A zero-point stream's rows cannot hold a value per group. -/
def zpShort (fmt groups : Nat) (s : Sd) : Bool :=
  1 < s.counts.length && nth s.counts 0 < (if fmt = 1 then cdiv groups 2 else groups)

/-- The zero point of row r, group g, in an array's bytes (R35, R175). DESIGN CHOICE (log 48): no operand of SIDE names the grain of a zero-point
array; a stream of one dimension holds one zero point per row, all rows packed as one row, and a stream of more dimensions one per group, its
dimension 0 as the pitch of a row. -/
def zpAt (fmt : Nat) (s : Sd) (l : List Nat) (r g : Nat) : Nat :=
  let i := if s.counts.length ≤ 1 then r else g
  let base := if s.counts.length ≤ 1 then 0 else r * nth s.counts 0
  if fmt = 1 then bits (nth l (base + i / 2)) (4 * (i % 2)) 4 else nth l (base + i)

/-- A side stream with the elements it must give. -/
structure SideNeed where
  sd : Option Sd
  need : Nat
  on : Bool

/-- What the present MMA reads from SIDE; `win`: how many stationary scales a window names. -/
def sideNeeds (o : MmaOp) (y : SideSd) (rows red vecs outs : Nat) (win : Option Nat) : List SideNeed :=
  let g := groupsOf o.group red
  let grouped := o.group ≠ 0
  let zp (z : ZpSrc) (f r : Nat) (s : Option Sd) : SideNeed := ⟨s, (s.map (zpBytes f r g)).getD 0, z = .array && hasZp f⟩
  [⟨y.stScale, win.getD (rows * g), grouped && o.stScale ≠ 0⟩, ⟨y.mvScale, vecs * g, grouped && o.mvScale ≠ 0⟩,
   zp o.stZp o.stFmt rows y.stZp, zp o.mvZp o.mvFmt vecs y.mvZp, ⟨y.selector, cdiv vecs 4, isCb o.mvFmt && o.selector⟩,
   ⟨y.outSt, rows * outs, outs ≠ 0⟩, ⟨y.outMv, outs * vecs, outs ≠ 0⟩]

/-- Zero points an operand takes: none for formats without them (R36). -/
def zpArrayBad (o : MmaOp) (y : SideSd) (g : Nat) : Bool :=
  (o.stZp = .array && hasZp o.stFmt && y.stZp.any (zpShort o.stFmt g)) || (o.mvZp = .array && hasZp o.mvFmt && y.mvZp.any (zpShort o.mvFmt g))

/-- Window conditions of an array layer that are ranges (R108, R112). -/
def winRangeBad (o : MmaOp) (s : Sd) : Bool :=
  match s.win with
  | none => false
  | some w =>
    let g := geoOf s.counts w
    let gs := groupSize o.group
    g.mode = 3 || (o.stZp = .array && hasZp o.stFmt)
      || (o.group ≠ 0 && o.stScale ≠ 0 && (o.orient ≠ .normal || g.cw % gs ≠ 0 || g.c0 % gs ≠ 0))

/-- The number of each group's scale in a window's scale array (R45, R112): none for an inserted group, whose scale is 1. -/
def winScaleIx (g : Geo) (gs rows groups : Nat) : List (List (Option Nat)) :=
  (List.range rows).map fun i => (List.range groups).map fun j =>
    match winElem g i (j * gs) with
    | .inp b y x c => some (((b * g.iy + y) * g.ix + x) * cdiv g.c gs + c / gs)
    | _ => none

/-- Where the stationary scales of a window's groups stand; nothing unless they are read. -/
def winScales (o : MmaOp) (s : Sd) (rows red : Nat) : List (List (Option Nat)) :=
  match s.win with
  | some w => if o.group ≠ 0 && o.stScale ≠ 0 then winScaleIx (sdGeo s w) (groupSize o.group) rows (groupsOf o.group red) else []
  | none => []

/-- The scales a list of places asks for, each once. -/
def placesIx (l : List (List (Option Nat))) : List Nat := (l.flatten.filterMap id).eraseDups

/-- How many elements a list of places asks for. -/
def placesNeed (l : List (List (Option Nat))) : Nat := (l.flatten.map fun p => (p.map (· + 1)).getD 0).foldl max 0

/-- What the MMAs of a chain must share differs. -/
def chainDiffers (c : ChainSt) (o : MmaOp) (tm tn rows vecs : Nat) : Bool :=
  [c.m, c.n, c.rows, c.vecs, c.group, c.stFmt, c.mvFmt] ≠ [tm, tn, rows, vecs, o.group, o.stFmt, o.mvFmt] || c.orient ≠ o.orient

/-- A chain's next MMA does not fit it (R140): M_t, N_t, orientation, group size or formats differ, or the results' extents do, which in
the other orientations are not M_t and N_t (log 48). -/
def chainBad (x : Core) (o : MmaOp) (tm tn rows vecs : Nat) : Bool :=
  match x.chain, o.chain with
  | none, .sole => false
  | none, .opn => false
  | some c, .cont => chainDiffers c o tm tn rows vecs
  | some c, .close => chainDiffers c o tm tn rows vecs
  | _, _ => true

/-- The checks of an MMA (R44, R73, R75, R106 to R112, R129, R140, R177, R470): what is malformed first, then the ranges. DESIGN CHOICE (log 48): an array word whose extent along the window's K is another
number than that K, a smaller one included, is out of range; R177 says of plain streams only that surplus elements are not read. -/
def mmaBad (m : Mach) (x : Core) (t : TileCmd) (o : MmaOp) (st mv : Sd) (y : SideSd) : Option (Nat × Nat) :=
  let tm := affN x t o.m
  let tk := affN x t o.k
  let tn := affN x t o.n
  let (rows, red, vecs) := foldDims o.orient tm tk tn
  let outs := opnd t o.outCount
  let range (b : Bool) (slot : Nat) : Option (Nat × Nat) := if b then some (stParamRange, slot) else none
  let (lines, per) := if o.orient = .transposed then (red, rows) else (rows, red)
  let parts := memberParts m t 0 lines st
  let ends := o.chain = .sole || o.chain = .close
  let extents := extBad tm || extBad tk || extBad tn
  let needs := sideNeeds o y rows red vecs outs (st.win.map fun _ => if extents then 0 else placesNeed (winScales o st rows red))
  firstFail ([if 3 < o.group || 3 ≤ o.stScale || 3 ≤ o.mvScale || st.fmt ≠ o.stFmt || mv.fmt ≠ o.mvFmt then some (stMalformed, 8) else none,
     if st.win.isSome && o.orient = .weightResident then some (stMalformed, 0xB) else none,
     if ends && outBad (x.epi.getD {}).out then some (stMalformed, 0) else none,
     range (extBad tm) (paramSlot o.m.c), range (extBad tk) (paramSlot o.k.c), range (extBad tn) (paramSlot o.n.c),
     range (32 < outs || !outliersOk (outlierList t outs o.outSlot) red) (paramSlot o.outCount), range (winRangeBad o st) 0xFFFF,
     range (match st.win with
       | some w => winK (geoOf st.counts w) ≠ (if o.orient = .normal then red else rows)
       | none => false) (paramSlot o.k.c),
     range (st.win.isNone && parts.any fun p => sdCount p.sd < p.rows * per) 0xFFFF,
     range (1 < t.merged && (parts.map (·.rows)).foldl (· + ·) 0 < lines) 0xFFFF,
     range (sdCount mv < vecs * red) 0xFFFF,
     range (needs.any fun s => s.on && s.sd.all fun d => sdCount d < s.need) 0xFFFF, range (zpArrayBad o y (groupsOf o.group red)) 0xFFFF,
     range (o.chain ≠ .sole && 2048 < tn) (paramSlot o.n.c), range (chainBad x o tm tn rows vecs) 0xFFFF,
     range (ends && epiBad x t (x.epi.getD {}) rows vecs) 0xFFFF] ++
     parts.map fun p => sdCheck m t { roleStat with issued := true } 0 0xFFFF p.sd)

/-! ### Reading a window (R104, R107 to R109, R180) -/

/-- The bytes that hold an input element of a window, and its code within them, for a stationary row and reduction index. -/
def inpPiece (s : Sd) (b y x c row ix : Nat) : Piece :=
  let at' : Int := (sdBase s : Int) + (x : Int) * sdStride s 1 + (y : Int) * sdStride s 2 + (b : Int) * sdStride s 3
  if sdBits s = 4 then ⟨(at' + (c / 2 : Nat)).toNat, 1, c % 2, 1, row, ix, 0⟩
  else if sdBits s = 6 then ⟨(at' + (3 * (c / 4) : Nat)).toNat, 3, c % 4, 1, row, ix, 0⟩
  else ⟨(at' + (c : Int) * sdStride s 0).toNat, sdBits s / 8, 0, 1, row, ix, 0⟩

/-- The code of an element in the bytes of its piece. -/
def inpCode (s : Sd) (p : Piece) (l : List Byte) : Nat := bits (leNat l) (sdBits s * p.e) (sdBits s)

/-- The taps of rows × reduction of a window's stationary operand. -/
def winTaps (g : Geo) (rows red : Nat) : List (List Tap) :=
  (List.range rows).map fun i => (List.range red).map fun k => winElem g i k

/-- Whether two pieces are the same bytes and place in them. -/
def Piece.same (p q : Piece) : Bool := p.a == q.a && p.n == q.n && p.e == q.e

/-- A piece joins the others by address, unless it is there. -/
def pieceIn (p : Piece) : List Piece → List Piece
  | [] => [p]
  | q :: r => if p.same q then q :: r else if p.a < q.a || (p.a == q.a && p.e < q.e) then p :: q :: r else q :: pieceIn p r

/-- The pieces the taps of rows from `r0` and reduction indices from `k0` on name, each once, by address and under the first row that names it
(R109, R180, R194). -/
def tilePieces (s : Sd) (r0 k0 : Nat) (ts : List (List Tap)) : List Piece :=
  (ts.zipIdx.flatMap fun r => r.1.zipIdx.filterMap fun t => match t.1 with
    | .inp b y x c => some (inpPiece s b y x c (r0 + r.2) (k0 + t.2))
    | _ => none).foldl (fun l p => pieceIn p l) []

/-- The pieces of all stationary tiles of 128 × 128 taps in turn: a tile keeps nothing for the next (R180). -/
def tapPieces (s : Sd) (ts : List (List Tap)) : List Piece :=
  (chunks 128 ts).zipIdx.flatMap fun b =>
    (List.range (cdiv ((ts.head?.map List.length).getD 0) 128)).flatMap fun k =>
      (tilePieces s (128 * b.2) (128 * k) (b.1.map fun r => (r.drop (128 * k)).take 128)).map fun p => { p with tile := 512 * b.2 + k }

/-- The bytes of a piece in what a stream gave. -/
def pieceOf : List Piece → List Byte → Piece → List Byte
  | [], _, _ => []
  | p :: r, l, q => if p.same q then l.take p.n else pieceOf r (l.drop p.n) q

/-- The value of a tap (R108): `z` the operand's zero point. -/
def tapVal (s : Sd) (g : Geo) (z : Nat) (ps : List Piece) (l : List Byte) : Tap → Fv
  | .inp b y x c => let p := inpPiece s b y x c 0 0; decodeElem s.fmt z (inpCode s p (pieceOf ps l p))
  | .zero => .fin false 0 0
  | .ins => if g.mode = 2 then decodeElem s.fmt z g.pad else .fin false 0 0
  | .pad => if g.mode = 2 then decodeElem s.fmt z g.pad else .fin false 0 0

/-- Read pieces of a stream for the present operation. -/
def readPieces (c : Cfg) (a : Acs) (ps : List Piece) (m : Mach) : Mach × Fe (List Byte × LineTab) := srcBytes c a ps m

/-- A stream's pieces have been used. -/
def tookPieces (c : Cfg) (a : Acs) (ps : List Piece) (tab : LineTab) (m : Mach) : Mach := srcTake a ps tab (addReqs c a false ps tab [] m)

/-- A stream read by the present operation: its unit, its descriptor, its pieces, the queue a fault meets (R321). -/
structure Wanted where
  unit : Nat
  sd : Sd
  ps : List Piece
  fq : Nat

/-- A wanted stream as an access. -/
def Wanted.acs (m : Mach) (k : Nat) (t : TileCmd) (w : Wanted) : Acs := { acsOf m k w.unit t w.sd with fq := w.fq }

/-- Read several streams, or wait for all of them. -/
def readAll (c : Cfg) (k : Nat) (t : TileCmd) : List Wanted → Mach → Mach × Fe (List (List Byte × LineTab))
  | [], m => (m, .ok [])
  | w :: r, m =>
    match srcBytes c (w.acs m k t) w.ps m with
    | (m, .killed) => (m, .killed)
    | (m, .ok v) =>
      match readAll c k t r m with
      | (m, .ok vs) => (m, .ok (v :: vs))
      | y => y
    | (m, _) =>
      match readAll c k t r m with
      | (m, .killed) => (m, .killed)
      | (m, _) => (m, .wait)

/-- All the streams have been used. -/
def tookAll (c : Cfg) (k : Nat) (t : TileCmd) (ws : List (Wanted × List Byte × LineTab)) (m : Mach) : Mach :=
  ws.foldl (fun m w => tookPieces c (w.1.acs m k t) w.1.ps w.2.2 m) m

/-! ### The operands as numbers -/

/-- The codes of row i, element r of an operand stored row by row, or column by column when transposed. -/
def codeRows (transposed : Bool) (rows red : Nat) (l : List Nat) : List (List Nat) :=
  if transposed then (List.range rows).map fun i => (List.range red).map fun r => nth l (r * rows + i)
  else (chunks (max 1 red) l).take rows

/-- The zero point of a row and element (R35, R36). DESIGN CHOICE (log 48): in the transposed orientation a per-row array of the stationary
operand is indexed by the array's row k, as its scales are. -/
def zpFn (t : TileCmd) (z : ZpSrc) (fmt group : Nat) (s : Option Sd) (l : List Nat) (r e : Nat) : Nat :=
  match z, s with
  | .none, _ => 0
  | .value v, _ => opnd t v
  | .array, some d => zpAt fmt d l r (if groupSize group = 0 then 0 else e / groupSize group)
  | .array, none => 0

/-- The scale values of a row from an array's bytes (R44, R45). -/
def scaleRows (st rows g : Nat) (on : Bool) (l : List Nat) : List (List Fv) :=
  if on then ((chunks (max 1 g) l).take rows).map fun r => r.map (scaleVal st) else []

/-- The codebook slot of vector n (R66). -/
def cbSlotOf (o : MmaOp) (sel : List Nat) (n : Nat) : Nat := if o.selector then bits (nth sel (n / 4)) (2 * (n % 4)) 2 else o.cbSlot % 4

/-- A moving element (R63 step 2). -/
def mvElem (x : Core) (o : MmaOp) (sel : List Nat) (z n code : Nat) : Fv :=
  if isCb o.mvFmt then decodeElem 0xB 0 ((mget x.codebooks (256 * cbSlotOf o sel n + code)).getD 0) else decodeElem o.mvFmt z code

/-- An outlier side element as FP32. -/
def sideVal (s : Sd) (code : Nat) : Nat := if drainFmt s = 0xB then code % 2 ^ 16 * 2 ^ 16 else code

/-- Stage X: the conversion of INT32 values (R56), then the outlier sum of each output (R74, R88). -/
def stageX (conv : Bool) (rows : Nat) (os ys : List (List Nat)) : List (List Nat) :=
  (ys.take rows).zipIdx.map fun r => r.1.zipIdx.map fun p =>
    let v := if conv then int32ToF (i32 p.1) else p.1
    (((os.getD r.2 [])[p.2]?).map (addF v)).getD v

/-- The outlier sums of every output, on from those of the chain's earlier operations (R74, R140); none without outliers. -/
def outlierSums (rows outs vecs : Nat) (os om : List Nat) (prev : List (List Nat)) : List (List Nat) :=
  if outs = 0 then prev
  else
    let sr := chunks outs os
    (List.range rows).map fun r => (List.range vecs).map fun n =>
      outlierSum (sr.getD r []) ((List.range outs).map fun j => nth om (j * vecs + n)) (nth (prev.getD r []) n)

/-- The outlier buffer, a ring of 2,048 vectors for each of 128 rows, after the sums of the last row block (R86, R90). -/
def outlierBuf (os : List (List Nat)) (b : Map Nat) : Map Nat := accPut b 0 os

/-- What the MMA's streams gave, ready for the array. -/
structure Fed where
  st : List (List Fv)
  mv : List (List Fv)
  stScale : List (List Fv)
  mvScale : List (List Fv)
  outSt : List Nat
  outMv : List Nat

/-- The operands of the array. -/
def mmaIn (o : MmaOp) (f : Fed) : MmaIn := ⟨f.st, f.mv, o.stFmt, o.mvFmt, groupSize o.group, f.stScale, f.mvScale, o.kOrder⟩

/-- Whether an operation's results pass through the drain accumulators (R70, R75, R140). -/
def throughAcc (o : MmaOp) (f : Fed) : Bool := o.chain ≠ .sole || fourPass o.stFmt o.mvFmt || (f.st.any fun r => 128 < r.length)

/-- The passes, the chain, stage X and the epilogue of one MMA on a core (R56, R67 to R77, R88, R140 to R142). Stage X converts the sums of
plain integer mode, which are the INT32 ones, and no others, whatever entry conversion EPI names (R56, R88). -/
def mmaRun (t : TileCmd) (o : MmaOp) (rows vecs outs : Nat) (f : Fed) (x : Core) : Core :=
  let r := mmaOut (mmaIn o f) (x.chain.map (·.sums))
  let os := outlierSums rows outs vecs f.outSt f.outMv ((x.chain.map (·.outl)).getD [])
  let x := addClips r.2 { x with
    statSd := none, moveSd := none, side := none, arrayStamps := [], cells := arrayCells (o.orient = .transposed) x.cells (mmaIn o f)
    acc := if throughAcc o f then accPut x.acc x.accNext r.1 else x.acc
    accNext := if throughAcc o f && !(o.chain = .opn || o.chain = .cont) then (x.accNext + vecs) % 2048 else x.accNext
    outlier := if outs = 0 then x.outlier else outlierBuf os x.outlier }
  if o.chain = .opn || o.chain = .cont then
    { x with chain := some ⟨affN x t o.m, affN x t o.n, rows, vecs, o.orient, o.group, o.stFmt, o.mvFmt, r.1, os⟩ }
  else
    let tc := if isCb o.mvFmt && o.group = 0 then some (opnd t o.tc) else none
    epilogue t tc true (stageX (plainMode o.group o.stFmt o.mvFmt) rows os r.1) { x with chain := none }

/-- The streams one MMA reads, in order: stationary parts, moving, then the side streams it needs. -/
def mmaWants (t : TileCmd) (st : List Wanted) (mv : Sd) (mvN : Nat) (needs : List SideNeed) (scales : Option (List Nat)) : List Wanted :=
  st ++ [⟨1, mv, pieces mv mvN, t.q⟩]
    ++ needs.zipIdx.map fun p =>
      match p.1.on, p.1.sd with
      | true, some s =>
        let ps := pieces s p.1.need
        ⟨3, s, if p.2 = 0 then (scales.map fun l => l.filterMap fun i => ps[i]?).getD ps else ps, t.q⟩
      | _, _ => ⟨3, mv, [], t.q⟩

/-- The codes of a wanted stream. -/
def wantCodes (w : Wanted × List Byte × LineTab) : List Nat := unpack w.1.sd w.1.ps w.2.1

/-- The array word's numbers from what its streams gave. -/
def mmaFed (x : Core) (t : TileCmd) (o : MmaOp) (st : Sd) (rows red vecs : Nat) (outl : List Nat) (y : SideSd)
    (winSc : List (List (Option Nat))) (winParts : List Nat) (sts : List (Wanted × List Byte × LineTab)) (mv : Wanted × List Byte × LineTab)
    (sides : List (Wanted × List Byte × LineTab)) : Fed :=
  let side (i : Nat) : List Nat := ((sides[i]?).map wantCodes).getD []
  let g := groupsOf o.group red
  let grouped := o.group ≠ 0
  let zst (r e : Nat) : Nat := zpFn t o.stZp o.stFmt o.group y.stZp (side 2) r e
  let zmv (r e : Nat) : Nat := zpFn t o.mvZp o.mvFmt o.group y.mvZp (side 3) r e
  let stv : List (List Fv) := match st.win with
    | some w =>
      let ge := sdGeo st w
      let all := (winParts.zip sts).flatMap fun p => (winTaps ge p.1 (winK ge)).map fun r => r.map (tapVal p.2.1.sd ge (zst 0 0) p.2.1.ps p.2.2.1)
      if o.orient = .normal then all else (List.range rows).map fun i => all.map fun r => r.getD i (.fin false 0 0)
    | none =>
      (codeRows (o.orient = .transposed) rows red (sts.flatMap wantCodes)).zipIdx.map fun r =>
        r.1.zipIdx.map fun e => decodeElem o.stFmt (zst r.2 e.2) e.1
  let mvv := (codeRows false vecs red (wantCodes mv)).zipIdx.map fun r =>
    r.1.zipIdx.map fun e => mvElem x o (side 4) (zmv r.2 e.2) r.2 e.1
  let stSc : List (List Fv) := match st.win with
    | some _ =>
      winSc.map fun r => r.map fun p => (p.map fun i => scaleVal o.stScale (nth (side 0) ((placesIx winSc).idxOf i))).getD (.fin false 1 0)
    | none => scaleRows o.stScale rows g (grouped && o.stScale ≠ 0) (side 0)
  { st := stv.map (zeroAt outl), mv := mvv.map (zeroAt outl), stScale := stSc
    mvScale := scaleRows o.mvScale vecs g (grouped && o.mvScale ≠ 0) (side 1)
    outSt := (side 5).map fun v => (y.outSt.map fun s => sideVal s v).getD v
    outMv := (side 6).map fun v => (y.outMv.map fun s => sideVal s v).getD v }

/-- The array word's parts in the S slots take the MMA's number (R139). -/
def joinParts (k n : Nat) (m : Mach) : Mach :=
  coreUpd k (fun x => { x with slots := x.slots.zipIdx.map fun l =>
    if 4 ≤ l.2 then l.1 else l.1.map fun r => if r.op = 0 then { r with op := n } else r }) m

/-- What an MMA reads: the extents, the outlier list, the stationary streams with their rows, the scale pieces of a window, all its streams. -/
structure MmaPlan where
  rows : Nat
  red : Nat
  vecs : Nat
  outs : Nat
  outl : List Nat
  wst : List Wanted
  winParts : List Nat
  winSc : List (List (Option Nat))
  wants : List Wanted

def noSide : SideSd := ⟨none, none, none, none, none, none, none⟩

/-- The plan of an MMA (R60 to R66, R103 to R112, R130, R137). -/
def mmaPlan (m : Mach) (x : Core) (t : TileCmd) (o : MmaOp) (st mv : Sd) (y : SideSd) : MmaPlan :=
  let (rows, red, vecs) := foldDims o.orient (affN x t o.m) (affN x t o.k) (affN x t o.n)
  let outs := opnd t o.outCount
  let ge := st.win.map (sdGeo st)
  let (lines, per) := if o.orient = .transposed then (red, rows) else (rows, red)
  let parts := memberParts m t 0 lines st
  let wst : List Wanted := parts.map fun p => ⟨0, p.sd, match ge with
    | some g => tapPieces p.sd (winTaps g p.rows (winK g))
    | none => pieces p.sd (p.rows * per), p.q⟩
  let winSc := winScales o st rows red
  let needs := sideNeeds o y rows red vecs outs (ge.map fun _ => placesNeed winSc)
  ⟨rows, red, vecs, outs, outlierList t outs o.outSlot, wst, parts.map (·.rows), winSc, mmaWants t wst mv (vecs * red) needs (ge.map fun _ => placesIx winSc)⟩

/-- The array's numbers from what the streams of a plan gave. -/
def planFed (x : Core) (t : TileCmd) (o : MmaOp) (st mv : Sd) (y : SideSd) (p : MmaPlan) (got : List (List Byte × LineTab)) : Fed :=
  let all := p.wants.zip got
  let rest := all.drop p.wst.length
  mmaFed x t o st p.rows p.red p.vecs p.outl y p.winSc p.winParts (all.take p.wst.length) ((rest.head?).getD ((⟨1, mv, [], t.q⟩, [], []))) (rest.drop 1)

/-- The layer's saturation threshold, in every descriptor the tile-command serves (R137, R239, R277). -/
def setThreshold (t : TileCmd) (v : Nat) (m : Mach) : Mach :=
  (if t.merged ≤ 1 then [(t.q, t.desc)] else groupOf m t.q t.desc).foldl (fun m p => descUpd p.1 p.2 (fun d => { d with threshold := v }) m) m

/-- The user-table slot an epilogue uses (R99). -/
def epiUses (x : Core) : List Nat :=
  match (x.epi.getD {}).act with
  | .table n => [2 ^ 20 + n]
  | _ => []

/-- MMA (R137 to R140): the fold over what STAT, MOVE and SIDE name. -/
def mmaM (k : Nat) (o : MmaOp) (c : Cfg) : Mach → Mach :=
  withOp k 4 fun x t m =>
    match x.statSd, x.moveSd with
    | some st, some mv =>
      if x.result.isSome then m
      else
        let y := x.side.getD noSide
        match mmaBad m x t o st mv y with
        | some p => endTile k p.1 p.2 m
        | none =>
          if st.win.any fun w => emptyOut (geoOf st.counts w) then endTile k stEmptyOutput 0 m
          else
            let p := mmaPlan m x t o st mv y
            match readAll c k t p.wants m with
            | (m, .ok got) =>
              let m := tookAll c k t (p.wants.zip got) m
              let m := setThreshold t (opnd t o.threshold) m
              let open' := o.chain = .opn || o.chain = .cont
              pushOp k 4 x.arrayStamps (if open' then [] else epiUses x) (!open')
                (coreUpd k (mmaRun t o p.rows p.vecs p.outs (planFed x t o st mv y p got)) (joinParts k m.arb.nextOp m))
            | (m, _) => m
    | _, _ => m

def execMma (core : Nat) (o : MmaOp) (s : State) : Host.Outcome State Fault Refusal := s.runM (mmaM core o)

end Sys2Proof.Machine
end

