-- ==== Sys2Proof/Machine/SoData.lean ====
section
/-! DEFINITION. What the Sorting Office reads and writes: spans of memory and regions, COPY, GATHER/SCATTER and RESHARD as
plans of writes (R209 to R222, R262). -/

namespace Sys2Proof.Machine

/-- A span: space 0 or 3, or 16 and a table's number for rows in the table cache; base, bytes. -/
abbrev Span := Nat × Nat × Nat

/-- A write: space, base, bytes. -/
abbrev SoW := Nat × Nat × List Byte

/-- The result of an operation: its status with DETAIL, its writes, how many free bytes it drew, and the writes of what is left unspecified
(R213). -/
structure Plan where
  st : Nat
  detail : Nat
  writes : List SoW
  draws : Nat
  loose : List SoW := []

/-- A stand-in for the tile-command of a descriptor, for the checks of a stream. -/
def soTc (q d : Nat) : TileCmd := ⟨q, d, 0, 1, false, 0, 0, 0, 0, true, 1, 0, [], 0, 0⟩

/-- Lines of a span. -/
def spanLines (a n : Nat) : Nat := if n = 0 then 0 else (a + n - 1) / 64 + 1 - a / 64

/-! ### Reading and writing spans -/

/-- Bytes of a region from an offset (R202). -/
def regionBytes (m : Mach) (q d base n : Nat) : List Byte :=
  bread (((regionOf m (soTc q d) (sdHandle ⟨0, 5, 3, 0, [n], [1], none, base, 0, 0⟩)).map (·.data)).getD []) (base % 2 ^ 32) n

/-- The lines of a range. -/
def lineAddrs (a n : Nat) : List Nat := (List.range (if n = 0 then 0 else (a + n - 1) / 64 + 1 - a / 64)).map fun i => (a / 64 + i) * 64

/-- Bytes of a table as its cache has them (R216): what an operation wrote and has not written back stands over memory. -/
def tcView (m : Mach) (dom tab a : Nat) (l : List Byte) : List Byte :=
  let ts := m.depot.tcache.filter fun t => t.dom == dom && t.tab == tab
  l.zipIdx.map fun p => (ts.findSome? fun t => mget t.data (a + p.2)).getD p.1

/-- The lines the table cache holds: T × 512 KiB (R198). -/
def tcLines (c : Cfg) : Nat := c.tb.partT * 8192

/-- The lines of a range are in the cache, as the latest used; the least recently used beyond its capacity leave it, their updates written
back (R198, R216; log 19). -/
def tcHold (c : Cfg) (dom tab a n : Nat) (m : Mach) : Mach :=
  let used := lineAddrs a n
  let mine (t : TLine) : Bool := t.dom == dom && t.tab == tab && used.contains t.addr
  let new := used.filter fun b => !m.depot.tcache.any fun t => mine t && t.addr == b
  let all := m.depot.tcache.filter (fun t => !mine t) ++ m.depot.tcache.filter mine ++ new.map fun b => ⟨tab, dom, b, [], []⟩
  let out := all.take (all.length - tcLines c)
  let m := tcFlush (fun l => out.contains l) { m with depot := { m.depot with tcache := all } }
  { m with depot := { m.depot with tcache := m.depot.tcache.drop (all.length - tcLines c) } }

/-- An operation's bytes go into the cache and mark their lines dirty; a line the cache cannot hold is written at once. -/
def tcPut (c : Cfg) (op : Nat × Nat) (dom tab a : Nat) (l : List Byte) (m : Mach) : Mach :=
  let m := tcHold c dom tab a l.length m
  let kept := (lineAddrs a l.length).filter fun b => m.depot.tcache.any fun t => t.dom == dom && t.tab == tab && t.addr == b
  let m := (lineAddrs a l.length).foldl (fun m b =>
    if kept.contains b then m
    else let lo := max a b; engPut lo ((l.drop (lo - a)).take (min (a + l.length) (b + 64) - lo)) m) m
  let f (t : TLine) : TLine :=
    if t.dom == dom && t.tab == tab && (lineAddrs a l.length).contains t.addr then
      let lo := max a t.addr
      { t with dirty := (op :: t.dirty).eraseDups, data := bwrite t.data lo ((l.drop (lo - a)).take (min (a + l.length) (t.addr + 64) - lo)) }
    else t
  { m with depot := { m.depot with tcache := m.depot.tcache.map f } }

/-- Bytes of a cacheable table's rows: memory's under the cache's, page by page; what lies on the host is not cached. -/
def tableRead (c : Cfg) (q tab va n : Nat) (m : Mach) : Mach × Fe (List Byte) :=
  feThen m (soFetch c q (qDom m q) va n m) fun l m =>
    let k := min n (4096 - va % 4096)
    let part (m : Mach) (va : Nat) (l : List Byte) : Mach × List Byte :=
      match translateNow c m (qDom m q) va .read with
      | .dev a => (tcHold c (qDom m q) tab a l.length m, tcView m (qDom m q) tab a l)
      | _ => (m, l)
    let r := part m va (l.take k)
    let z := part r.1 (va + k) (l.drop k)
    (z.1, .ok (r.2 ++ z.2))

/-- The space of a table's rows: memory, or its lines in the cache where FLAGS marks it cacheable (R209, R216). -/
def rowSpace (b : List Byte) (tab : Nat) : Nat := if tbFlag b 1 then 16 + tab else 0

/-- The requests of an access to a region (R185, R186). -/
def regionAsk (c : Cfg) (q d base n : Nat) (wr : Bool) (m : Mach) : Mach :=
  match regionOf m (soTc q d) (sdHandle ⟨0, 5, 3, 0, [n], [1], none, base, 0, 0⟩) with
  | some r => regionReqs c r (qDom m q) q wr (base % 2 ^ 32) n m
  | none => m

/-- Read one span for a queue's operation. -/
def soRead (c : Cfg) (q d : Nat) (s : Span) (m : Mach) : Mach × Fe (List Byte) :=
  if 16 ≤ s.1 then tableRead c q (s.1 - 16) s.2.1 s.2.2 m
  else if s.1 = 3 then (regionAsk c q d s.2.1 s.2.2 false m, .ok (regionBytes m q d s.2.1 s.2.2)) else soFetch c q (qDom m q) s.2.1 s.2.2 m

/-- Read spans in order. -/
def soReads (c : Cfg) (q d : Nat) : List Span → Mach → Mach × Fe (List (List Byte))
  | [], m => (m, .ok [])
  | s :: r, m =>
    feThen m (soRead c q d s m) fun l m1 =>
      match soReads c q d r m1 with
      | (m2, .ok ls) => (m2, .ok (l :: ls))
      | x => x

/-- Cut bytes at 4 KiB boundaries; `fuel` pages remain. -/
def cutPages : Nat → Nat → List Byte → List (Nat × List Byte)
  | 0, _, _ => []
  | fuel + 1, a, l =>
    if l = [] then [] else (a, l.take (4096 - a % 4096)) :: cutPages fuel (a + (4096 - a % 4096)) (l.drop (4096 - a % 4096))

/-- Writes cut at page boundaries; those to a region stay whole. -/
def soCut (ws : List SoW) : List SoW :=
  ws.flatMap fun w => if w.1 = 3 then [w] else (cutPages (w.2.2.length / 4096 + 2) w.2.1 w.2.2).map fun p => (w.1, p.1, p.2)

/-- Write into a region. -/
def regionPut (c : Cfg) (q d base : Nat) (l : List Byte) (m0 : Mach) : Mach :=
  let m := regionAsk c q d base l.length true m0
  let h := bits base 32 16
  let f (r : Region) : Region := { r with data := bwrite r.data (base % 2 ^ 32) l }
  if h = 0xFFFF then { m with depot := { m.depot with layers := mupd m.depot.layers (layerKey q d) f } }
  else { m with depot := { m.depot with regions := mupd m.depot.regions h f } }

/-- Make the writes, in order, through translations held for all of them. -/
def soPut (c : Cfg) (q d : Nat) (hs : List Held) : List SoW → Mach → Mach × Fe Unit
  | [], m => (m, .ok ())
  | w :: r, m =>
    if w.1 = 3 then soPut c q d hs r (regionPut c q d w.2.1 w.2.2 m)
    else match heldPut (if 16 ≤ w.1 then tcPut c (q, d) (qDom m q) (w.1 - 16) else engPut) c 33 q (qDom m q) d hs w.2.1 w.2.2 m with
      | (m, .ok _) => soPut c q d hs r m
      | x => x

/-- Every page a plan writes is translated before anything is written. -/
def soWrite (c : Cfg) (q d : Nat) (ws : List SoW) (m : Mach) : Mach × Fe Unit :=
  let ws := soCut ws
  let va := ((ws.filter (·.1 ≠ 3)).map fun w => (w.2.1, Acc.write)).eraseDups
  match holdAll c q (qDom m q) va m with
  | (m, .ok hs) => soPut c q d hs ws m
  | (m, .wait) => (m, .wait)
  | (m, .killed) => (m, .killed)
  | (m, .failed) => (m, .failed)
  | (m, .lost) => (m, .lost)

/-- Bytes left unspecified are written where their page takes them at once; elsewhere the bytes stay, which is one of the contents they may have
(R213; log 19). -/
def soLoose (c : Cfg) (q d : Nat) (ws : List SoW) (m : Mach) : Mach :=
  (soCut ws).foldl (fun m w =>
    match translateNow c m (qDom m q) w.2.1 .write with
    | .dev a => if inImage m a w.2.2.length || writeChk m.mem (qDom m q) a w.2.2.length ≠ .ok then m
        else if 16 ≤ w.1 then tcPut c (q, d) (qDom m q) (w.1 - 16) a w.2.2 m else engPut a w.2.2 m
    | _ => m) m

/-- Free bytes: what the spec leaves unspecified (log 19). -/
def freeBytes (m : Mach) (n : Nat) : List Byte := (List.range n).map fun i => BitVec.ofNat 8 (Config.draw (m.draws + i))

/-! ### COPY (R262) -/

/-- A stream descriptor read from its bytes, with the offset of a reserved field that is not zero (R174, R177). -/
def sdParse (b : List Byte) : Option Nat × Sd :=
  let nd := bits (leAt b 0xB 1) 0 3
  let win := bits (leAt b 0xB 1) 7 1 = 1
  let stride (i : Nat) : Int := let v := leAt b (0x28 + 6 * i) 6; if v < 2 ^ 47 then (v : Int) else (v : Int) - 2 ^ 48
  let sd : Sd := ⟨leAt b 8 1 % 16, leAt b 9 1 % 16, leAt b 0xA 1 % 16, leAt b 0xC 2, (List.range nd).map fun i => leAt b (0x10 + 4 * i) 4,
    (List.range nd).map stride, none, leAt b 0 8, 0, 0⟩
  (firstBad ([(16 ≤ leAt b 8 1, 8), (16 ≤ leAt b 9 1, 9), (16 ≤ leAt b 0xA 1, 0xA),
     (nd = 0 || nd = 7 || win || bits (leAt b 0xB 1) 3 4 ≠ 0, 0xB), (nonZero b 0xE 2, 0xE),
     (nonZero b (0x10 + 4 * nd) (24 - 4 * nd), 0x10 + 4 * nd), (nonZero b (0x28 + 6 * nd) (36 - 6 * nd), 0x28 + 6 * nd),
     (nonZero b 0x4C 52, 0x4C)] : List (Bool × Nat)), sd)

/-- A copy's streams lie in memory or a region. -/
def roleCopy : Role := ⟨anyFmt, (· ≤ 5), (fun s => s = 0 || s = 3), false, false, false⟩

/-- The two streams of a COPY in MODE 1. -/
def copySds (x : Desc) : Sd × Sd := ((sdParse ((x.bytes.drop 128).take 128)).2, (sdParse ((x.bytes.drop 256).take 128)).2)

/-- The checks of a COPY before it runs: MALFORMED for each stream's form and their agreement, then the rest. -/
def copyBad (m : Mach) (q d : Nat) (x : Desc) : Option (Nat × Nat) :=
  if leAt x.bytes 8 1 = 0 then none
  else
    let (s, t) := copySds x
    let bad (o : Nat) : Option (Nat × Nat) := ((sdParse ((x.bytes.drop o).take 128)).1).map fun p => (stMalformed, p)
    let chk (y : Sd) : Option (Nat × Nat) := sdCheck m (soTc q d) roleCopy 0 0xFFFF y
    let mal (r : Option (Nat × Nat)) : Option (Nat × Nat) := if r.any (·.1 = stMalformed) then r else none
    ([bad 128, bad 256, mal (chk s), mal (chk t), if s.kind ≠ t.kind then some (stMalformed, 9) else if s.fmt ≠ t.fmt then some (stMalformed, 8) else none,
      chk s, chk t, if sdCount s ≠ sdCount t then some (stParamRange, 0xFFFF) else none].find? (·.isSome)).bind id

/-- The spans a stream's first `n` elements take. -/
def sdSpans (s : Sd) (n : Nat) : List Span :=
  (pieces s n).map fun p => (s.space, if s.space = 3 then s.base / 2 ^ 32 * 2 ^ 32 + p.a else p.a, p.n)

/-- Spans of a COPY: what it reads and what it writes. -/
def copySpans (x : Desc) : List Span × List Span :=
  if leAt x.bytes 8 1 = 0 then ([(0, leAt x.bytes 0x10 8, leAt x.bytes 0x20 8)], [(0, leAt x.bytes 0x18 8, leAt x.bytes 0x20 8)])
  else let (s, t) := copySds x; (sdSpans s (sdCount s), sdSpans t (sdCount s))

/-- A byte of a destination lies in the source (judged on virtual addresses, log 19). -/
def inSpans (ss : List Span) (sp a : Nat) : Bool := ss.any fun s => s.1 == sp && s.2.1 ≤ a && a < s.2.1 + s.2.2

/-- The copy's writes; `k` free bytes have been drawn before. -/
def copyWrites (m : Mach) (src : List Span) (k : Nat) (sp a : Nat) : List Byte → List Byte
  | [] => []
  | b :: r => (if inSpans src sp a then BitVec.ofNat 8 (Config.draw (m.draws + k)) else b) :: copyWrites m src (k + 1) sp (a + 1) r

/-- Spread a run of bytes over destination spans. -/
def copyParts (m : Mach) (src : List Span) : Nat → List Span → List Byte → List SoW
  | _, [], _ => []
  | k, t :: r, l => (t.1, t.2.1, copyWrites m src k t.1 t.2.1 (l.take t.2.2)) :: copyParts m src (k + t.2.2) r (l.drop t.2.2)

/-- What a COPY writes from the bytes it read: the elements in stream order, laid out as the destination's rows (R262). -/
def copyBytes (x : Desc) (l : List Byte) : List Byte :=
  if leAt x.bytes 8 1 = 0 then l
  else
    let (s, t) := copySds x
    pack t (pieces t (sdCount t)) (unpack s (pieces s (sdCount s)) l)

def copyPlan (c : Cfg) (q d : Nat) (x : Desc) (m : Mach) : Mach × Fe Plan :=
  let (src, dst) := copySpans x
  match soReads c q d src m with
  | (m, .ok ls) => (m, .ok ⟨stOk, 0, copyParts m src 0 dst (copyBytes x ls.flatten), (dst.map (·.2.2)).foldl (· + ·) 0, []⟩)
  | (m, .wait) => (m, .wait)
  | (m, .killed) => (m, .killed)
  | (m, .failed) => (m, .failed)
  | (m, .lost) => (m, .lost)

/-! ### GATHER and SCATTER (R211 to R214) -/

def gsOp (x : Desc) : Nat := leAt x.bytes 8 1
def gsPool (x : Desc) : Nat := leAt x.bytes 9 1
def gsTable (m : Mach) (x : Desc) : Option TableE := mget m.depot.tables (leAt x.bytes 0xA 1)
def gsFmt (x : Desc) : Nat := leAt x.bytes 0xB 1
def gsWeighted (x : Desc) : Bool := leAt x.bytes 0xC 1 % 2 == 1
def gsDistinct (x : Desc) : Bool := bits (leAt x.bytes 0xC 1) 1 1 == 1
def gsCount (x : Desc) : Nat := leAt x.bytes 0x10 4
def gsOffsets (x : Desc) : Nat := leAt x.bytes 0x18 8
def gsIds (x : Desc) : Nat := leAt x.bytes 0x20 8
def gsWeights (x : Desc) : Nat := leAt x.bytes 0x28 8
def gsData (x : Desc) : Nat := leAt x.bytes 0x30 8
def gsStride (x : Desc) : Nat := leAt x.bytes 0x38 8

/-- Elements of a table row (R209). -/
def rowElems (b : List Byte) : Nat := if tbFmt b = 2 then tbRowBytes b - 4 else tbRowBytes b / (fmtBits (tbFmt b) / 8)

/-- Bytes of an output or update row. -/
def dataWidth (t : TableE) (x : Desc) : Nat := rowElems t.bytes * (fmtBits (gsFmt x) / 8)

/-- DATA_STRIDE is under one row (R261). -/
def strideShort (t : TableE) (x : Desc) : Bool := gsStride x < dataWidth t x

/-- Checks before a GATHER or SCATTER runs. -/
def gatherBad (m : Mach) (q : Nat) (x : Desc) : Option (Nat × Nat) :=
  match gsTable m x with
  | none => some (stPermission, 0)
  | some t =>
    if strideShort t x && t.dom = qDom m q then some (stMalformed, 0x38)
    else if t.closing || t.off || t.dom ≠ qDom m q then some (stPermission, 0)
    else if (gsOp x = 1 && gsPool x ≠ 0) || (gsOp x = 2 && gsPool x = 3) || (gsOp x ≠ 0 && (!tbFlag t.bytes 2 || tbFmt t.bytes = 2))
        then some (stParamRange, 0xFFFF)
    else none

/-- Bags as ranges of ID positions: one per ID under NONE, otherwise from OFFSETS; none when OFFSETS fails its check. -/
def bagsOf (x : Desc) (offs : List Byte) : Option (List (Nat × Nat)) :=
  if gsPool x = 0 then some ((List.range (gsCount x)).map fun i => (i, i + 1))
  else
    let o := (List.range (gsCount x + 1)).map fun i => leAt offs (4 * i) 4
    let b := o.zip (o.drop 1)
    if b.all fun p => p.1 ≤ p.2 && p.2 ≤ p.1 + 1024 then some b else none

/-- Read OFFSETS and check it. -/
def readBags (c : Cfg) (q d : Nat) (x : Desc) (m : Mach) : Mach × Fe (Option (List (Nat × Nat))) :=
  feThen m (if gsPool x = 0 then (m, .ok []) else soRead c q d (0, gsOffsets x, 4 * (gsCount x + 1)) m) fun l m => (m, .ok (bagsOf x l))

/-- First and past-the-last position of the bags. -/
def idRange (bs : List (Nat × Nat)) : Nat × Nat := (((bs.head?).map (·.1)).getD 0, ((bs.getLast?).map (·.2)).getD 0)

/-- Update or output rows. -/
def dataRows (x : Desc) (bs : List (Nat × Nat)) : Nat := if gsPool x = 0 || gsOp x = 1 then (idRange bs).2 - (idRange bs).1 else bs.length

/-- Every row of a table starts on a 64-byte boundary. -/
def rowsAligned (b : List Byte) : Bool := tbBase b % 64 = 0 && tbStride b % 64 = 0

/-- Weights are read under SUM and MEAN (R212). -/
def gsReadsWeights (x : Desc) : Bool := gsWeighted x && (gsPool x = 1 || gsPool x = 2)

/-- Lines a GATHER or SCATTER reads and writes, for its bound: a row that starts off a line costs one more (R217, R218). -/
def gatherLines (m : Mach) (x : Desc) (bs : List (Nat × Nat)) (ids : List Nat) : Nat :=
  match gsTable m x with
  | none => 0
  | some t =>
    let (a, z) := idRange bs
    let b := t.bytes
    let rows := cdiv (tbRowBytes b) 64 * (z - a) + if rowsAligned b then 0 else (ids.filter fun i => (tbBase b + i * tbStride b) % 64 ≠ 0).length
    let data := ((List.range (dataRows x bs)).map fun i => spanLines (gsData x + i * gsStride x) (dataWidth t x)).foldl (· + ·) 0
    (if gsPool x = 0 then 0 else spanLines (gsOffsets x) (4 * (gsCount x + 1))) + spanLines (gsIds x + 4 * a) (4 * (z - a))
      + (if gsReadsWeights x then spanLines (gsWeights x + 4 * a) (4 * (z - a)) else 0)
      + rows * (if gsOp x = 2 then 2 else 1) + data
      + (if gsOp x = 0 && gsDistinct x then spanLines (leAt x.bytes 0x40 8) (4 * (z - a)) + spanLines (leAt x.bytes 0x48 8) (4 * (z - a)) else 0)

/-- A table row's elements as FP32 (R209, R212). -/
def rowVals (b : List Byte) (l : List Byte) : List Nat :=
  let n := rowElems b
  if tbFmt b = 2 then
    let s := leAt l n 4
    (List.range n).map fun i => mulF (enc32 (decodeElem 2 0 (leAt l i 1))) s
  else let w := fmtBits (tbFmt b) / 8; (List.range n).map fun i => enc32 (decodeElem (tbFmt b) 0 (leAt l (w * i) w))

/-- Elements converted into a format, one after another. -/
def packVals (fmt : Nat) (vs : List Nat) : List Byte := vs.flatMap fun v => toLe (fmtBits fmt / 8) (convert fmt 0 (dec32 v)).1
def unpackVals (fmt n : Nat) (l : List Byte) : List Nat :=
  let w := fmtBits fmt / 8; (List.range n).map fun i => enc32 (decodeElem fmt 0 (leAt l (w * i) w))

/-- Element by element. -/
def addRows (a b : List Nat) : List Nat := a.zipWith addF b
def scaleRow (w : Nat) (a : List Nat) : List Nat := a.map fun v => mulF v w

/-- The reciprocal of a bag's size, rounded once. -/
def rcpLen (n : Nat) : Nat := rcpExact (enc32 (fvInt n))

/-- One output row of a GATHER from its IDs' rows and weights (R212). -/
def poolRow (pool n : Nat) (rows : List (List Nat)) (ws : List (Option Nat)) : List Nat :=
  let zero := List.replicate n 0
  let sum := (rows.zip ws).foldl (fun a p => addRows a ((p.2.map fun w => scaleRow w p.1).getD p.1)) zero
  if rows = [] then zero
  else match pool with
    | 0 => rows.headD zero
    | 1 => sum
    | 2 => scaleRow (rcpLen rows.length) sum
    | _ => (rows.drop 1).foldl (fun a r => a.zipWith maxF r) ((rows.headD zero).map fun v => maxF v v)

/-- Distinct values in order of first occurrence, at most `n` of them. -/
def firstSeen (n : Nat) (l : List Nat) : List Nat := (l.foldl (fun (a : List Nat) i => if a.contains i then a else a ++ [i]) []).take n

/-- What a GATHER or SCATTER has read: IDs, weights, and by ID its row's values. -/
structure GsIn where
  tb : List Byte
  ids : List Nat
  ws : List (Option Nat)
  rows : List (Nat × List Nat)

/-- The row of an ID; out of range it is zero. -/
def GsIn.row (g : GsIn) (i : Nat) : List Nat := ((g.rows.find? (·.1 == i)).map (·.2)).getD (List.replicate (rowElems g.tb) 0)

/-- The position of the first ID out of range, where that is an error (R213). -/
def GsIn.stop (g : GsIn) : Option Nat := if tbFlag g.tb 0 then none else g.ids.findIdx? fun i => tbRows g.tb ≤ i

/-- The writes of a GATHER. -/
def gatherPlan (m : Mach) (x : Desc) (bs : List (Nat × Nat)) (g : GsIn) : Plan :=
  let a := (idRange bs).1
  let n := rowElems g.tb
  let w := n * (fmtBits (gsFmt x) / 8)
  let outs := bs.map fun b => packVals (gsFmt x) (poolRow (gsPool x) n ((g.ids.drop (b.1 - a)).take (b.2 - b.1) |>.map g.row) ((g.ws.drop (b.1 - a)).take (b.2 - b.1)))
  match g.stop with
  | some p =>
    let good := (bs.takeWhile fun b => b.2 - a ≤ p).length
    let free := freeBytes m ((bs.length - good) * w)
    let rest := (List.range (bs.length - good)).map fun i => (free.drop (i * w)).take w
    let at' (r : List Byte × Nat) : SoW := (0, gsData x + r.2 * gsStride x, r.1)
    ⟨stParamRange, 0xFFFF, (outs.take good).zipIdx.map at', (bs.length - good) * w, (rest.zipIdx good).map at'⟩
  | none =>
    let ds := firstSeen 65536 g.ids
    let inv := g.ids.map fun i => (ds.findIdx? (· == i)).getD 0xFFFFFFFF
    let more : List SoW := if gsDistinct x then
      [(0, leAt x.bytes 0x40 8, ds.flatMap (toLe 4)), (0, leAt x.bytes 0x48 8, inv.flatMap (toLe 4))] else []
    ⟨stOk, 0, (outs.zipIdx.map fun r => (0, gsData x + r.2 * gsStride x, r.1)) ++ more, 0, []⟩

/-- The sum of every update that reaches a row, in occurrence order; `ups` pairs each position with its update. -/
def rowSum (n : Nat) (ups : List (Nat × List Nat)) (i : Nat) : List Nat :=
  (ups.filter (·.1 == i)).foldl (fun a u => addRows a u.2) (List.replicate n 0)

/-- The writes of a SCATTER or SCATTER_ADD: `upd` holds the update rows. -/
def scatterPlan (m : Mach) (x : Desc) (bs : List (Nat × Nat)) (g : GsIn) (upd : List (List Nat)) : Plan :=
  let a := (idRange bs).1
  let n := rowElems g.tb
  let at' (i : Nat) : Nat := tbBase g.tb + i * tbStride g.tb
  let sp := rowSpace g.tb (leAt x.bytes 0xA 1)
  let lim := g.stop.getD g.ids.length
  let each : List (Nat × List Nat) :=
    if gsPool x = 0 then g.ids.zipIdx.map fun p => (p.1, upd.getD p.2 [])
    else bs.zipIdx.flatMap fun b => (List.range (b.1.2 - b.1.1)).map fun j =>
      let pos := b.1.1 - a + j
      let u := upd.getD b.2 []
      let u := ((g.ws.getD pos none).map fun w => scaleRow w u).getD u
      (nth g.ids pos, if gsPool x = 2 then scaleRow (rcpLen (b.1.2 - b.1.1)) u else u)
  let live := (each.take lim).filter fun u => u.1 < tbRows g.tb
  let written := firstSeen (live.length + 1) (live.map (·.1))
  let rows : List SoW :=
    if gsOp x = 1 then written.map fun i => (sp, at' i, packVals (tbFmt g.tb) ((((live.filter (·.1 == i)).getLast?).map (·.2)).getD []))
    else written.map fun i => (sp, at' i, packVals (tbFmt g.tb) (addRows (g.row i) (rowSum n live i)))
  let rest := (firstSeen (each.length + 1) ((each.drop lim).map (·.1))).filter fun i => i < tbRows g.tb && !written.contains i
  let free := freeBytes m (rest.length * tbRowBytes g.tb)
  let open' : List SoW := rest.zipIdx.map fun p => (sp, at' p.1, (free.drop (p.2 * tbRowBytes g.tb)).take (tbRowBytes g.tb))
  if g.stop.isSome then ⟨stParamRange, 0xFFFF, rows, rest.length * tbRowBytes g.tb, open'⟩ else ⟨stOk, 0, rows, 0, []⟩

/-- Cut a byte string into 32-bit numbers. -/
def nums32 (l : List Byte) : List Nat := (chunks 4 l).map leNat

/-- GATHER/SCATTER: OFFSETS, IDs, weights, then rows and updates up to the first ID that stops it (R213) are read; the writes follow. -/
def gsPlan (c : Cfg) (q d : Nat) (x : Desc) (m : Mach) : Mach × Fe Plan :=
  match gsTable m x with
  | none => (m, .ok ⟨stPermission, 0, [], 0, []⟩)
  | some t =>
    feThen m (readBags c q d x m) fun bs m =>
      match bs with
      | none => (m, .ok ⟨stParamRange, 0xFFFF, [], 0, []⟩)
      | some bs =>
        let (a, z) := idRange bs
        let ws := gsReadsWeights x
        feThen m (soReads c q d ([(0, gsIds x + 4 * a, 4 * (z - a))] ++ if ws then [(0, gsWeights x + 4 * a, 4 * (z - a))] else []) m) fun ls m =>
          let ids := nums32 (ls.getD 0 [])
          let wl := if ws then (nums32 (ls.getD 1 [])).map some else ids.map fun _ => none
          let stop := ((GsIn.mk t.bytes ids wl []).stop).getD ids.length
          let want := if gsOp x = 1 then [] else firstSeen (ids.length + 1) ((ids.take stop).filter (· < tbRows t.bytes))
          let nup := if gsOp x = 0 then 0 else if gsPool x = 0 || gsOp x = 1 then stop else (bs.filter fun b => b.1 - a < stop).length
          let ups := (List.range nup).map fun i => (0, gsData x + i * gsStride x, dataWidth t x)
          feThen m (soReads c q d (want.map (fun i => (rowSpace t.bytes (leAt x.bytes 0xA 1), tbBase t.bytes + i * tbStride t.bytes, tbRowBytes t.bytes)) ++ ups) m) fun rs m =>
            let g : GsIn := ⟨t.bytes, ids, wl, want.zip (rs.map (rowVals t.bytes))⟩
            (m, .ok (if gsOp x = 0 then gatherPlan m x bs g
              else scatterPlan m x bs g ((rs.drop want.length).map (unpackVals (gsFmt x) (rowElems t.bytes)))))

/-! ### RESHARD (R220, R221) -/

/-- A piece entry (R261): bases, strides and spaces of source and destination. -/
structure RPiece where
  src : Nat
  dst : Nat
  sStr : Nat
  dStr : Nat
  sSp : Nat
  dSp : Nat

def pieceAt (b : List Byte) (o : Nat) : RPiece :=
  ⟨leAt b o 8, leAt b (o + 8) 8, leAt b (o + 0x10) 6, leAt b (o + 0x18) 6, leAt b (o + 0x16) 1, leAt b (o + 0x1E) 1⟩
def pieceMal (b : List Byte) (o : Nat) : Bool := nonZero b (o + 0x17) 1 || nonZero b (o + 0x1F) 1

def rsSrc (x : Desc) : Nat := leAt x.bytes 8 1
def rsDst (x : Desc) : Nat := leAt x.bytes 9 1
def rsScope (x : Desc) : Nat := leAt x.bytes 0xA 1
def rsP (x : Desc) : Nat := leAt x.bytes 0xB 1
def rsW (x : Desc) : Nat := leAt x.bytes 0xC 4
def rsR (x : Desc) : Nat := leAt x.bytes 0x10 8

/-- The bytes of a row a participant holds: from, width (R220). -/
def mapCols (map p parts w : Nat) : Nat × Nat := if map = 2 then (p * (w / parts), w / parts) else (0, w)

/-- Whether participant p holds row r, and at which place in its piece. -/
def mapRow (map p parts rows r : Nat) : Option Nat :=
  let b := cdiv rows parts
  match map with
  | 0 => if r / b = p then some (r - p * b) else none
  | 1 => if r % parts = p then some (r / parts) else none
  | _ => some r

/-- Rows a participant holds, ascending. -/
def rowsOf (map p parts rows : Nat) : List Nat :=
  match map with
  | 0 => let b := cdiv rows parts; (List.range (min rows ((p + 1) * b) - min rows (p * b))).map (p * b + ·)
  | 1 => (List.range (if p < rows then cdiv (rows - p) parts else 0)).map fun i => p + i * parts
  | _ => List.range rows

/-- The conditions of R220 on the numbers; `pmax` bounds the participants. -/
def reshardBad (x : Desc) (pmax : Nat) : Bool :=
  let w := rsW x
  rsP x < 2 || pmax < rsP x || rsR x = 0 || 2 ^ 32 < rsR x || w % 4 ≠ 0 || w < 4 || 65536 < w
    || ((rsSrc x = 2 || rsDst x = 2) && w % (4 * rsP x) ≠ 0)

/-- A participant's piece breaks R220: a space or a stride. -/
def pieceBad (x : Desc) (p : Nat) (e : RPiece) : Bool :=
  !(e.sSp = 0 || e.sSp = 3) || !(e.dSp = 0 || e.dSp = 3) || e.sStr < (mapCols (rsSrc x) p (rsP x) (rsW x)).2
    || e.dStr < (mapCols (rsDst x) p (rsP x) (rsW x)).2

/-- A move: participant and span it comes from, participant and place it goes to. -/
structure Move where
  sp : Nat
  src : Span
  dp : Nat
  dst : Nat × Nat

/-- An address some bytes past a base; an offset beyond 32 bits leaves every region (R202). -/
def stepAt (sp base n : Nat) : Nat := if sp = 3 && 2 ^ 32 ≤ base % 2 ^ 32 + n then 2 ^ 52 else base + n

/-- The moves that fill participant dp's row r: from its own source under REPLICATED, else from each holder. -/
def movesInto (x : Desc) (ps : List RPiece) (dp r : Nat) : List Move :=
  let parts := rsP x
  match mapRow (rsDst x) dp parts (rsR x) r, ps[dp]? with
  | some j, some de =>
    let (d0, dw) := mapCols (rsDst x) dp parts (rsW x)
    (List.range parts).filterMap fun p =>
      if rsSrc x = 3 && p ≠ dp then none
      else match mapRow (rsSrc x) p parts (rsR x) r, ps[p]? with
        | some i, some se =>
          let (s0, sw) := mapCols (rsSrc x) p parts (rsW x)
          let lo := max s0 d0
          let hi := min (s0 + sw) (d0 + dw)
          if hi ≤ lo then none
          else
            let a := stepAt se.sSp se.src (i * se.sStr + (lo - s0))
            let b := stepAt de.dSp de.dst (j * de.dStr + (lo - d0))
            if (p = dp || rsScope x = 0) && se.sSp = de.dSp && a = b then none else some ⟨p, (se.sSp, a, hi - lo), dp, (de.dSp, b)⟩
        | _, _ => none
  | _, _ => []

/-- All moves into a participant. -/
def movesOf (x : Desc) (ps : List RPiece) (dp : Nat) : List Move :=
  (rowsOf (rsDst x) dp (rsP x) (rsR x)).flatMap fun r => movesInto x ps dp r

/-- Lines moves read and write. -/
def moveLines (ms : List Move) : Nat :=
  (ms.map fun v => spanLines v.src.2.1 v.src.2.2 + spanLines v.dst.2 v.src.2.2).foldl (· + ·) 0

/-- Spans stay within their regions and within 52 bits (R202, R304). -/
def spansBad (m : Mach) (q d : Nat) (l : List Span) : Option (Nat × Nat) :=
  l.findSome? fun s => sdCheck m (soTc q d) roleCopy 0 0xFFFF ⟨0, 5, s.1, 0, [s.2.2], [1], none, s.2.1, 0, 0⟩

/-- What a move writes. -/
def Move.into (v : Move) : Span := (v.dst.1, v.dst.2, v.src.2.2)

/-- The same of what some moves read and write. -/
def movesBad (m : Mach) (q d : Nat) (ms : List Move) : Option (Nat × Nat) := spansBad m q d (ms.flatMap fun v => [v.src, v.into])

/-- The pieces of a RESHARD within the engine. -/
def readPieceTable (c : Cfg) (q d : Nat) (x : Desc) (m : Mach) : Mach × Fe (List Byte) := soRead c q d (0, leAt x.bytes 0x18 8, 32 * rsP x) m

/-- The pieces in a participant table. -/
def piecesIn (x : Desc) (l : List Byte) : List RPiece := (List.range (rsP x)).map fun p => pieceAt l (32 * p)

/-- Every move of a RESHARD within the engine. -/
def allMoves (x : Desc) (l : List Byte) : List Move := (List.range (rsP x)).flatMap (movesOf x (piecesIn x l))

def reshardPlan (c : Cfg) (q d : Nat) (x : Desc) (m : Mach) : Mach × Fe Plan :=
  feThen m (readPieceTable c q d x m) fun l m =>
    let ms := allMoves x l
    feThen m (soReads c q d (ms.map (·.src)) m) fun ls m =>
      (m, .ok ⟨stOk, 0, (ms.zip ls).map fun p => (p.1.dst.1, p.1.dst.2, p.2), 0, []⟩)

end Sys2Proof.Machine
end

