-- ==== Sys2Proof/Machine/Intake.lean ====
section
/-! DEFINITION. The fetch of descriptors and of mailbox submissions (R254, R256, R261 to R267, R339). -/

namespace Sys2Proof.Machine

/-- DATA_STRIDE of a GATHER or SCATTER under one row of a table of its domain (R261); a table opened later is judged at entry. -/
def strideBad (m : Mach) (d : Nat) (x : Desc) : Option Nat :=
  if x.type ≠ 6 then none
  else match gsTable m x with
    | none => none
    | some t => if !t.closing && t.dom = d && strideShort t x then some 0x38 else none

/-- The streams of a COPY in MODE 1 break R177 or R262. -/
def copyFetchBad (m : Mach) (q d : Nat) (x : Desc) : Option (Nat × Nat) := if x.type = 2 then copyBad m q d x else none

/-- Finish a fetch: hold the completion entry, then the other addresses of a well-formed descriptor, then enter it. -/
def fetchWith (c : Cfg) (q head : Nat) (y : Queue) (x : Desc) (m : Mach) : Mach :=
  match holdCpl c q y m with
  | (m, .ok h) =>
    let x := { x with cplHeld := h }
    if x.phase = 4 then complete q y.nextId stPermission 0 (enter q x head m)
    else match (descBad y.ctx.path x.seq.isSome x.bytes).orElse fun _ => strideBad m y.ctx.dom x with
    | some off => complete q y.nextId stMalformed off (enter q x head m)
    | none =>
      match copyStreams c q y.ctx.dom x m with
      | (m, .ok x) =>
        match copyFetchBad m q y.nextId x with
        | some s => complete q y.nextId s.1 s.2 (enter q x head m)
        | none =>
        match holdAll c q y.ctx.dom (heldRanges c m y.ctx x) m with
        | (m, .ok hs) => enter q { x with held := hs, frames := bindFrames c m y.ctx.dom x } head m
        | (m, .failed) => complete q y.nextId stPermission 0 (enter q x head m)
        | (m, .lost) => complete q y.nextId stHostLost m.hp.epoch (enter q x head m)
        | (m, _) => m
      | (m, .failed) => complete q y.nextId stPermission 0 (enter q x head m)
      | (m, .lost) => complete q y.nextId stHostLost m.hp.epoch (enter q x head m)
      | (m, _) => m
  | (m, _) => m

/-- The ring lies in a host window (R339). -/
def ringOnHost (c : Cfg) (m : Mach) (q : QCtx) (va : Nat) : Bool :=
  match translate c m none q.dom va .read with
  | .host _ _ _ => true
  | _ => false

/-- DESCRIPTOR_FETCH (R254): the descriptor at HEAD, when its entries are all published. -/
def descriptorFetch (q t : Nat) (c : Cfg) (m : Mach) : Mach :=
  let m := tickTo t m
  match qGet m q with
  | none => m
  | some y0 =>
    let m := loadCtx c q y0.ctx.dom m
    match qGet m q with
    | none => m
    | some y =>
      let s := 2 ^ y.ctx.ringLog2
      let avail := subMod y.ctx.tail y.ctx.head (2 * s)
      let pending := y.ctx.path = 2 && ((mget m.mbx y.ctx.mailbox).bind (·.pending)).isSome
      let va := y.ctx.ringBase + 128 * (y.ctx.head % s)
      if !mayFetch m y || avail = 0 || pending then m
      else if m.hp.lost && ringOnHost c m y.ctx va then
        if y.descs = [] then ctxUpd q (fun z => { z with state := qsEmpty }) m else m
      else
        match feRead c q y.ctx.dom va 128 m with
        | (m, .ok l) =>
          if leAt l 1 1 % 2 = 0 then
            fetchWith c q ((y.ctx.head + 1) % (2 * s)) y (desc0 y.ctx l (y.ctx.head % s) m.now) m
          else if avail < 2 then m
          else
            match feRead c q y.ctx.dom (y.ctx.ringBase + 128 * ((y.ctx.head + 1) % s)) 128 m with
            | (m, .ok r) => fetchWith c q ((y.ctx.head + 2) % (2 * s)) y (desc0 y.ctx (l ++ r) (y.ctx.head % s) m.now) m
            | (m, .failed) =>
              fetchWith c q ((y.ctx.head + 2) % (2 * s)) y { desc0 y.ctx (l ++ List.replicate 128 0) (y.ctx.head % s) m.now with
                phase := 4, record := some (stPermission, 0) } m
            | (m, _) => m
        | (m, .failed) =>
          fetchWith c q ((y.ctx.head + 1) % (2 * s)) y { desc0 y.ctx (List.replicate 128 0) (y.ctx.head % s) m.now with
            phase := 4, record := some (stPermission, 0) } m
        | (m, _) => m

/-- MAILBOX_FETCH (R264, R266): STANDING with the pending landing. -/
def mailboxFetch (q t : Nat) (c : Cfg) (m : Mach) : Mach :=
  let m := tickTo t m
  match qGet m q with
  | none => m
  | some y0 =>
    let m := loadCtx c q y0.ctx.dom m
    match qGet m q with
    | none => m
    | some y =>
      match mget m.mbx y.ctx.mailbox with
      | none => m
      | some b =>
        match b.pending with
        | none => m
        | some (sq, land) =>
          if y.ctx.path ≠ 2 || b.flight.isSome || !mayFetch m y then m
          else
            let go (l : List Byte) (f : Desc → Desc) (m : Mach) : Mach :=
              let m2 := fetchWith c q y.ctx.head y (f { desc0 y.ctx l 0xFFFF m.now with seq := some sq, landing := landingVa y.ctx.aux land }) m
              if (descGet m2 q y.nextId).isSome then
                { m2 with mbx := mset m2.mbx y.ctx.mailbox { b with pending := none, flight := some land } } else m2
            match feRead c q y.ctx.dom y.ctx.aux 128 m with
            | (m, .ok l) => go l id m
            | (m, .failed) => go (List.replicate 128 0) (fun x => { x with phase := 4, record := some (stPermission, 0) }) m
            | (m, _) => m

def execDescriptorFetch (q t : Nat) (s : State) : Host.Outcome State Fault Refusal := s.runM (descriptorFetch q t)
def execMailboxFetch (q t : Nat) (s : State) : Host.Outcome State Fault Refusal := s.runM (mailboxFetch q t)

end Sys2Proof.Machine
end

