-- ==== Sys2Proof/Machine/Lanes.lean ====
section
/-! DEFINITION. The V slot: elementwise operations, conversions, functions, reductions, softmax, normalisation, the optimiser
step, and the Window Unit (R86, R87, R90, R96 to R102, R116 to R120, R142, R143). -/

namespace Sys2Proof.Machine

/-! ### Sources and destinations (R143) -/

/-- Bytes of `n` elements of a format one after another. -/
def fmtBytes (fmt n : Nat) : Nat := if fmtBits fmt = 4 then cdiv n 2 else if fmtBits fmt = 6 then 3 * cdiv n 4 else n * (fmtBits fmt / 8)

/-- A stream descriptor of `n` elements of a format at 0, for packing. -/
def rowSd (fmt n : Nat) : Sd := ⟨fmt, 0, 1, 0, [n], [1], none, 0, 0, 0⟩

/-- A place cannot hold `n` elements of a format (R129, R143). DESIGN CHOICE (log 42): a window offset that is no multiple of its 16- or 32-bit
elements is taken as it is, with no status: R33 gives an outcome for streams only. -/
def locBad (x : Core) (t : TileCmd) (dst : Bool) (fmt n : Nat) : VLoc → Bool
  | .reg r => 8192 < n || 32 < r + cdiv n 256
  | .win _ off => !inWin (affN x t off) (fmtBytes fmt n)
  | .drain => !dst

/-- The codes of `n` elements of a format in a window. -/
def winCodes (x : Core) (t : TileCmd) (fmt n : Nat) (back : Bool) (off : Aff) : List Nat :=
  unpackRow (rowSd fmt n) n (bread (winHalf x back) (affN x t off) (fmtBytes fmt n))

/-- The elements at a place as FP32 values; registers hold FP32 (log 42). `z` gives the zero point of an element, which is subtracted on
read (R36), `cb` is the codebook slot of an index. -/
def vGet (x : Core) (t : TileCmd) (fmt : Nat) (z : Nat → Nat) (cb n : Nat) : VLoc → List Nat
  | .reg r => (List.range n).map fun i => (mget x.vregs (256 * r + i)).getD 0
  | .win back off =>
    (winCodes x t fmt n back off).zipIdx.map fun p =>
      let v := p.1
      let i := p.2
      enc32 (if isCb fmt then decodeElem 0xB 0 ((mget x.codebooks (256 * cb + v)).getD 0) else decodeElem fmt (z i) v)
  | .drain => []

/-- Codes go to a place; registers take their values. -/
def vPut (t : TileCmd) (dst : VLoc) (fmt : Nat) (z : Nat → Nat) (codes : List Nat) (x : Core) : Core :=
  match dst with
  | .reg r =>
    { x with vregs := codes.zipIdx.foldl (fun b p =>
        mset b (256 * r + p.2) (if fmt = 0xC then p.1 else enc32 (decodeElem fmt (z p.2) p.1))) x.vregs }
  | .win back off =>
    let f (b : Map Byte) : Map Byte := bwrite b (affN x t off) (packRow (rowSd fmt codes.length) codes)
    if (x.front == 0) != back then { x with half0 := f x.half0 } else { x with half1 := f x.half1 }
  | .drain => { x with result := some ⟨false, fmt, [codes], []⟩ }

/-- Codes go to a place but for the elements a flag marks, which keep what they are (R102). -/
def vPutKept (t : TileCmd) (dst : VLoc) (fmt : Nat) (vs : List (Nat × Bool)) (x : Core) : Core :=
  match dst with
  | .reg r =>
    { x with vregs := vs.zipIdx.foldl (fun b p =>
        if p.1.2 then b else mset b (256 * r + p.2) (if fmt = 0xC then p.1.1 else enc32 (decodeElem fmt 0 p.1.1))) x.vregs }
  | .win back off =>
    vPut t dst fmt (fun _ => 0) ((vs.zip (winCodes x t fmt vs.length back off)).map fun p => if p.1.2 then p.2 else p.1.1) x
  | .drain => vPut t dst fmt (fun _ => 0) (vs.map (·.1)) x

/-- No zero point. -/
def noZp (_ : Nat) : Nat := 0

/-- A V operation: its places are checked, it waits for an undrained result, then `f` runs (R142, R143). -/
def vOp (k : Nat) (len : Aff) (lenOk : Nat → Bool) (places : Nat → List (Bool × Nat × Nat × VLoc)) (uses : List Nat)
    (f : Nat → TileCmd → Core → Core) : Mach → Mach :=
  withOp k 5 fun x t m =>
    let n := affN x t len
    if !lenOk n then endTile k stParamRange (paramSlot len.c) m
    else match (places n).find? fun p => locBad x t p.1 p.2.1 p.2.2.1 p.2.2.2 with
      | some _ => endTile k stParamRange 0xFFFF m
      | none =>
        let dr := (places n).any fun p => p.1 && p.2.2.2 = .drain
        if dr && x.result.isSome then m else pushOp k 5 [] uses dr (coreUpd k (f n t) m)

/-- A destination and sources of n FP32 elements. -/
def f32Places (dst : VLoc) (srcs : List VLoc) (n : Nat) : List (Bool × Nat × Nat × VLoc) :=
  (true, 0xC, n, dst) :: srcs.map fun s => (false, 0xC, n, s)

/-- An operation on FP32 vectors. -/
def vVec (k : Nat) (dst : VLoc) (srcs : List VLoc) (len : Aff) (f : List (List Nat) → List Nat) (uses : List Nat := []) : Mach → Mach :=
  vOp k len (fun _ => true) (f32Places dst srcs) uses fun n t x => vPut t dst 0xC noZp (f (srcs.map (vGet x t 0xC noZp 0 n))) x

/-- Elementwise forms. -/
def map1 (f : Nat → Nat) (l : List (List Nat)) : List Nat := (l.getD 0 []).map f
def map2 (f : Nat → Nat → Nat) (l : List (List Nat)) : List Nat := (l.getD 0 []).zipWith f (l.getD 1 [])
def map3 (f : Nat → Nat → Nat → Nat) (l : List (List Nat)) : List Nat := ((l.getD 0 []).zip (l.getD 1 [])).zipWith (fun p c => f p.1 p.2 c) (l.getD 2 [])

/-- What VCMP writes for a truth value, and what VSEL reads from one (the spec gives no encoding; log 43). -/
def truthCode (b : Bool) : Nat :=
  let n := Config.cmpFalse % 2 ^ 32
  if b then (if Config.cmpTrue % 2 ^ 32 = n then (n + 1) % 2 ^ 32 else Config.cmpTrue % 2 ^ 32) else n
def isTrue (c : Nat) : Bool := if c = truthCode true then true else if c = truthCode false then false else Config.selOther c

/-! ### Conversion (R30, R51, R53, R93, R143) -/

/-- A scale operand for element i; 1 when there is none. -/
def scaleAt (x : Core) (t : TileCmd) (g : Grain) (i : Nat) : Option Nat := grainVal x t 4 0 i g

/-- VCVT of one value: onto a scaled target, or from a scaled source when the target is FP32 (log 42). -/
def cvtOne (dfmt : Nat) (zp : Nat) (s : Option Nat) (v : Nat) : Nat × Bool :=
  if dfmt = 0xC then ((s.map (mulF v)).getD v, false)
  else match s with
    | some s => requant dfmt zp v s
    | none => convert dfmt zp (dec32 v)

/-- VCVT: a source's zero point is subtracted and a target's added, both taken from the one operand; `cb` is the slot of a codebook source
(DESIGN CHOICE, log 42: R143 names no operand for it). A format outside its role ends the layer as a program that names one is refused (R29, R30). -/
def vcvtV (k : Nat) (dst : VLoc) (dfmt : Nat) (a : VLoc) (sfmt : Nat) (scale : Grain) (zp : ZpGrain) (cb : Nat) (len : Aff) : Mach → Mach :=
  withOp k 5 fun x t m =>
    if 0xC < dfmt || 0xE < sfmt then endTile k stMalformed 8 m
    else if grainBad x t 1 (affN x t len) 4 scale || zpGrainBad x t sfmt 1 (affN x t len) zp || zpGrainBad x t dfmt 1 (affN x t len) zp then
      endTile k stParamRange 0xFFFF m
    else vOp k len (fun _ => true) (fun n => [(true, dfmt, n, dst), (false, sfmt, n, a)]) []
      (fun n t x =>
        let zs (i : Nat) : Nat := zpGrainVal x t sfmt n 0 i zp
        let zd (i : Nat) : Nat := zpGrainVal x t dfmt n 0 i zp
        let r := (vGet x t sfmt zs (cb % 4) n a).zipIdx.map fun p => cvtOne dfmt (zd p.2) (scaleAt x t scale p.2) p.1
        addClips (r.filter (·.2)).length (vPut t dst dfmt zd (r.map (·.1)) x)) m

/-- VTAB: a table whose bounds are unusable ends the layer (R99). -/
def vtabV (k slot : Nat) (dst a : VLoc) (len : Aff) : Mach → Mach :=
  withOp k 5 fun x _ m =>
    let tab := (mget x.tables slot).getD []
    if !userTabOk tab then endTile k stParamRange 0xFFFF m
    else vVec k dst [a] len (map1 (userTable tab)) [2 ^ 20 + slot] m

/-- A vector length of R97 and R98. -/
def redLen (n : Nat) : Bool := 1 ≤ n && n ≤ 65536

def vredV (k : Nat) (r : Red) (dst a : VLoc) (len : Aff) : Mach → Mach :=
  vOp k len redLen (fun n => [(true, 0xC, 1, dst), (false, 0xC, n, a)]) [] fun n t x => vPut t dst 0xC noZp [reduceF r (vGet x t 0xC noZp 0 n a)] x

def vsoftmaxV (k : Nat) (dst a : VLoc) (len : Aff) : Mach → Mach :=
  vOp k len redLen (f32Places dst [a]) [] fun n t x => vPut t dst 0xC noZp (softmaxF (vGet x t 0xC noZp 0 n a)) x

def vnormV (k : Nat) (rms : Bool) (dst a gamma beta : VLoc) (eps : Opnd) (len : Aff) : Mach → Mach :=
  withOp k 5 fun _ t m =>
    if !epsOk (opnd t eps) then endTile k stParamRange (paramSlot eps) m
    else vOp k len redLen (f32Places dst [a, gamma, beta]) []
      (fun n t x => vPut t dst 0xC noZp (normF rms (vGet x t 0xC noZp 0 n a) (vGet x t 0xC noZp 0 n gamma) (vGet x t 0xC noZp 0 n beta) (opnd t eps)) x) m

/-! ### The optimiser step (R100 to R102) -/

/-- The host's scalars, one to a slot from the first (R100). -/
def optScalars (t : TileCmd) (f : Nat) : OptScalars :=
  let v (i : Nat) : Nat := nth t.params (f + i) % 2 ^ 32
  ⟨v 0, v 1, v 2, v 3, v 4, v 5, v 6, v 7, v 8, v 9, v 10⟩

/-- A moment tensor as FP32 values: FP32, or FP8 E4M3 with UE8M0 scales at G = 32. -/
def momentGet (x : Core) (t : TileCmd) (narrow : Bool) (v sc : VLoc) (n : Nat) : List Nat :=
  if !narrow then vGet x t 0xC noZp 0 n v
  else
    let raw := match sc with
      | .win back off => (bread (winHalf x back) (affN x t off) (cdiv n 32)).map (·.toNat)
      | _ => []
    (vGet x t 8 noZp 0 n v).zipIdx.map fun p => enc32 (fvMul (dec32 p.1) (scaleVal 2 (nth raw (p.2 / 32))))

/-- One group of new moments: its scale from the updated elements, the code of each (of no account where it is left unchanged), its clips; a group
with none updated keeps its scale (R91, R102). DESIGN CHOICE (log 42): an unchanged element is the code it was, whatever scale its group
takes. -/
def momentGroup (old : Nat) (vs : List (Nat × Bool)) : Nat × List Nat × Nat :=
  let live := (vs.filter fun p => !p.2).map fun p => (p.1, 0)
  if live = [] then (old, vs.map fun _ => 0, 0)
  else
    let g := genGroup 8 2 live
    let code (v : Nat) : Nat := (if g.1 = 0xFF then convert 8 0 .nan else requant 8 0 v (scaleCode 2 g.1)).1
    (g.1, vs.map fun p => code p.1, g.2.2)

/-- Store a moment tensor; the flag marks elements left unchanged. -/
def momentPut (t : TileCmd) (narrow : Bool) (v sc : VLoc) (vs : List (Nat × Bool)) (x : Core) : Core :=
  if !narrow then vPutKept t v 0xC vs x
  else
    let raw := match sc with
      | .win back off => (bread (winHalf x back) (affN x t off) (cdiv vs.length 32)).map (·.toNat)
      | _ => []
    let gs := (chunks 32 vs).zipIdx.map fun g => momentGroup (nth raw g.2) g.1
    let x := addClips ((gs.map (·.2.2)).foldl (· + ·) 0) (vPutKept t v 8 ((gs.flatMap (·.2.1)).zip (vs.map (·.2))) x)
    match sc with
    | .win back off =>
      let f (b : Map Byte) : Map Byte := bwrite b (affN x t off) (gs.map fun g => BitVec.ofNat 8 g.1)
      if (x.front == 0) != back then { x with half0 := f x.half0 } else { x with half1 := f x.half1 }
    | _ => x

/-- Zip four lists. -/
def zip4 (a b c d : List Nat) : List (Nat × Nat × Nat × Nat) := a.zip (b.zip (c.zip d))

/-- The operands of an optimiser step (R100, R143): AdamW or momentum; the weights and whether in BF16; the gradient with its format,
zero point and codebook slot; the moments, whether each is narrow, and the scales of narrow ones. DESIGN CHOICE (log 42): R143 names no
zero point and no slot for the gradient; R36 and R48 need them. -/
structure OptOp where
  adamw : Bool
  w : VLoc
  wBf16 : Bool
  g : VLoc
  gFmt : Nat
  gZp : Opnd
  gCb : Nat
  m : VLoc
  v : VLoc
  mNarrow : Bool
  vNarrow : Bool
  mScale : VLoc
  vScale : VLoc

/-- The weights' format. -/
def OptOp.wFmt (o : OptOp) : Nat := if o.wBf16 then 0xB else 0xC

/-- The places of an optimiser step: weights, gradient, moments, and the scales of narrow moments. -/
def voptPlaces (o : OptOp) (n : Nat) : List (Bool × Nat × Nat × VLoc) :=
  let one (narrow : Bool) (l sc : VLoc) : List (Bool × Nat × Nat × VLoc) :=
    (false, if narrow then 8 else 0xC, n, l) :: if narrow then [(false, 2, cdiv n 32, sc)] else []
  [(false, o.wFmt, n, o.w), (false, o.gFmt, n, o.g)] ++ one o.mNarrow o.m o.mScale ++ (if o.adamw then one o.vNarrow o.v o.vScale else [])

/-- The step of each element: new weight, new moments, whether it is left unchanged (R101, R102). DESIGN CHOICE (log 42): the zero point of a
UINT gradient and the slot of a codebook one are operands of the row. -/
def voptSteps (o : OptOp) (firstSlot n : Nat) (t : TileCmd) (x : Core) : List (Nat × Nat × Nat × Bool) :=
  let vs := if o.adamw then momentGet x t o.vNarrow o.v o.vScale n else List.replicate n 0
  (zip4 (vGet x t o.wFmt noZp 0 n o.w) (vGet x t o.gFmt (fun _ => opnd t o.gZp) (o.gCb % 4) n o.g) (momentGet x t o.mNarrow o.m o.mScale n) vs).map
    fun p => optStep o.adamw (optScalars t firstSlot) p.1 p.2.1 p.2.2.1 p.2.2.2

/-- What an optimiser step leaves in its core: an element left unchanged keeps its w, m and v bit for bit and counts (R94, R102). -/
def voptCore (o : OptOp) (r : List (Nat × Nat × Nat × Bool)) (t : TileCmd) (x : Core) : Core :=
  let kept (p : Nat × Nat × Nat × Bool) : Bool := p.2.2.2
  let cw := r.map fun p => (convert o.wFmt 0 (dec32 p.1), kept p)
  let x := addClips ((cw.filter fun p => p.1.2 || p.2).length) (vPutKept t o.w o.wFmt (cw.map fun p => (p.1.1, p.2)) x)
  let x := momentPut t o.mNarrow o.m o.mScale (r.map fun p => (p.2.1, kept p)) x
  if o.adamw then momentPut t o.vNarrow o.v o.vScale (r.map fun p => (p.2.2.1, kept p)) x else x

def voptV (k : Nat) (o : OptOp) (firstSlot : Nat) (len : Aff) : Mach → Mach :=
  vOp k len (fun _ => true) (voptPlaces o) [] fun n t x => voptCore o (voptSteps o firstSlot n t x) t x

/-! ### The Window Unit (R116 to R120) -/

/-- The taps of output position o, channel range `chs`: loaded tap rows, tap columns, channels. -/
def unitTaps (g : Geo) (o : Nat) (chs : List Nat) : List (Nat × Tap) :=
  (List.range g.fy).flatMap fun y => (List.range g.fx).flatMap fun xx => chs.zipIdx.map fun c =>
    ((y * g.fx + xx) * chs.length + c.2, tapAt g o (g.t0y + y) (g.t0x + xx) c.1)

/-- The number of an element's scale in the array of R45: a row to a position, a byte to a group of channels. -/
def unitScaleIx (g : Geo) (e : ElemSrc) (b y xx c : Nat) : Nat :=
  let gs := max 1 (groupSize e.group)
  ((b * g.iy + y) * g.ix + xx) * cdiv g.c gs + c / gs

/-- The zero point of an input element: an activation's rows are its positions (R35, R45). -/
def unitZp (x : Core) (t : TileCmd) (s : Sd) (g : Geo) (e : ElemSrc) (b y xx c : Nat) : Nat :=
  zpGrainVal x t s.fmt g.c ((b * g.iy + y) * g.ix + xx) c e.zp

/-- The zero point of a constant tap in padding: one per tensor, or, as padding lies in no row, a free value (log 42). -/
def padZp (t : TileCmd) (fmt : Nat) (e : ElemSrc) : Nat :=
  match zpOf fmt e.zp with
  | .none => 0
  | .tensor v => opnd t v
  | _ => Config.padZp

/-- What a tap gives a Window Unit operation: nothing where it is ignored. An inserted zero is padding for a sum (R104) and the value 0 for
pooling (R119); a constant is P − z, with scale 1 (R108). -/
def unitVal (x : Core) (t : TileCmd) (s : Sd) (g : Geo) (e : ElemSrc) (pool : Bool) (b : Map Byte) : Tap → Option Nat
  | .inp i y xx c =>
    let p := inpPiece s i y xx c 0 0
    some (elemF x t e s.fmt (unitZp x t s g e i y xx c) (unitScaleIx g e i y xx c) (inpCode s p (bread b p.a p.n)))
  | .zero => some 0
  | .ins => if !pool && g.mode = 2 then some (enc32 (elemVal x e s.fmt (padZp t s.fmt e) g.pad)) else some 0
  | .pad => if g.mode = 3 then none else if g.mode = 2 then some (enc32 (elemVal x e s.fmt (padZp t s.fmt e) g.pad)) else some 0

/-- The positions of the output from m0 to the last; the operands name no other end (log 42). -/
def outPositions (g : Geo) : Nat := g.b * (outY g).toNat * (outX g).toNat - g.m0

/-- An initial value of output number i. -/
def initVal (x : Core) (t : TileCmd) (i : Nat) : Option VLoc → Nat
  | some (.win back off) => winNum x back (affN x t off + 4 * i) 4
  | some (.reg r) => (mget x.vregs (256 * r + i)).getD 0
  | _ => 0

/-- Depthwise and grouped sums (R116, R117): rows of output positions, columns of channels. DESIGN CHOICE (log 42): the weights of channel j of the
window stand in column j mod 256 of the weight store. -/
def unitSums (x : Core) (t : TileCmd) (s : Sd) (g : Geo) (e : ElemSrc) (cg : Nat) (init : Option VLoc) : List (List Nat) :=
  let b := winHalf x (s.space = 2)
  (List.range (outPositions g)).map fun o => (List.range g.cw).map fun j =>
    let chs := (List.range cg).map fun c => g.c0 + j / cg * cg + c
    winSum ((unitTaps g o chs).map fun p => ((unitVal x t s g e false b p.2).getD 0, (mget x.wstore (256 * p.1 + j % 256)).getD 0))
      (initVal x t (o * g.cw + j) init)

/-- Pooling (R119). -/
def unitPool (x : Core) (t : TileCmd) (p : Pool) (s : Sd) (g : Geo) (e : ElemSrc) : List (List Nat) :=
  let b := winHalf x (s.space = 2)
  (List.range (outPositions g)).map fun o => (List.range g.cw).map fun j =>
    let vs := (unitTaps g o [g.c0 + j]).filterMap fun q => unitVal x t s g e true b q.2
    poolF p (if p = .avgExclude then vs.length else g.fy * g.fx) vs

/-- Global pooling over all positions of a channel: an output for each image from OUT_FIRST on (R120, R179). -/
def globalPool (x : Core) (t : TileCmd) (p : Pool) (s : Sd) (g : Geo) (e : ElemSrc) : List (List Nat) :=
  let b := winHalf x (s.space = 2)
  (List.range (g.b - g.m0)).map fun i => (List.range g.cw).map fun j =>
    poolF p (g.iy * g.ix) ((List.range (g.iy * g.ix)).filterMap fun q => unitVal x t s g e true b (.inp (g.m0 + i) (q / g.ix) (q % g.ix) (g.c0 + j)))

/-- The role of a Window Unit's input (R29, R116): any format the Vector Engine reads, in a window of FRONT or BACK. -/
def roleUnit : Role := ⟨anyFmt, (· = 0), (fun s => s = 1 || s = 2), true, true, false⟩

/-- The Window Unit's input: its stream, the window from m0 on, and how its elements are read. -/
structure UnitIn where
  s : Sd
  g : Geo
  e : ElemSrc

/-- A Window Unit operation: its checks, then its results through the epilogue from E1 (R118). -/
def unitOp (k : Nat) (src : Tmpl) (e : ElemSrc) (fits : Geo → Bool) (empty : Geo → Bool) (more : Core → TileCmd → Geo → Bool)
    (f : Core → TileCmd → UnitIn → List (List Nat)) : Mach → Mach :=
  withOp k 5 fun x t m =>
    let s := sdOf x t src
    match firstFail [sdCheck m t roleUnit 0 (paramSlot src.base.c) s, elemBad x t e 0,
        if outBad (x.epi.getD {}).out then some (stMalformed, 0) else none], s.win with
    | some p, _ => endTile k p.1 p.2 m
    | none, none => endTile k stMalformed 0xB m
    | none, some w =>
      let g := sdGeo s w
      let scales := g.b * g.iy * g.ix * cdiv g.c (max 1 (groupSize e.group))
      if !fits g || more x t g || (elemBad x t e scales).isSome || zpGrainBad x t s.fmt (g.b * g.iy * g.ix) g.c e.zp then endTile k stParamRange 0xFFFF m
      else if empty g then endTile k stEmptyOutput 0 m
      else if x.result.isSome then m
      else
        let rows := f x t ⟨s, g, e⟩
        if epiBad x t (x.epi.getD {}) rows.length g.cw then endTile k stParamRange 0xFFFF m
        else pushOp k 5 [] (epiUses x) true (coreUpd k (epilogue t none false rows) m)

/-- The initial values leave their place. -/
def initBad (x : Core) (t : TileCmd) (g : Geo) : Option VLoc → Bool
  | none => false
  | some l => locBad x t false 0xC (outPositions g * g.cw) l

/-- Padding cannot be ignored by a sum (R103). DESIGN CHOICE (log 42): a grouped sum whose channels are no whole number of groups does not fit. -/
def sumFits (cg : Nat) (g : Geo) : Bool := winUnitOk g cg && g.mode ≠ 3 && g.cw % cg = 0

def wdwV (k : Nat) (src : Tmpl) (e : ElemSrc) (init : Option VLoc) : Mach → Mach :=
  unitOp k src e (sumFits 1) emptyOut (fun x t g => initBad x t g init) fun x t i => unitSums x t i.s i.g i.e 1 init
def wgrpV (k cg : Nat) (src : Tmpl) (e : ElemSrc) (init : Option VLoc) : Mach → Mach :=
  unitOp k src e (sumFits cg) emptyOut (fun x t g => initBad x t g init) fun x t i => unitSums x t i.s i.g i.e cg init
def wpoolV (k : Nat) (p : Pool) (src : Tmpl) (e : ElemSrc) : Mach → Mach :=
  unitOp k src e (fun g => winUnitOk g 1) emptyOut (fun _ _ _ => false) fun x t i => unitPool x t p i.s i.g i.e
def wgpoolV (k : Nat) (p : Pool) (src : Tmpl) (e : ElemSrc) : Mach → Mach :=
  unitOp k src e (fun g => g.r == 1 && g.iy * g.ix ≤ 2 ^ 24) (fun _ => false) (fun _ _ _ => false) fun x t i => globalPool x t p i.s i.g i.e

/-! ### The rows -/

def execVadd (core : Nat) (dst a b : VLoc) (len : Aff) (s : State) : Host.Outcome State Fault Refusal :=
  s.runM fun _ => vVec core dst [a, b] len (map2 addF)
def execVsub (core : Nat) (dst a b : VLoc) (len : Aff) (s : State) : Host.Outcome State Fault Refusal :=
  s.runM fun _ => vVec core dst [a, b] len (map2 subF)
def execVmul (core : Nat) (dst a b : VLoc) (len : Aff) (s : State) : Host.Outcome State Fault Refusal :=
  s.runM fun _ => vVec core dst [a, b] len (map2 mulF)
def execVfma (core : Nat) (dst a b c : VLoc) (len : Aff) (s : State) : Host.Outcome State Fault Refusal :=
  s.runM fun _ => vVec core dst [a, b, c] len (map3 fmaF)
def execVmin (core : Nat) (dst a b : VLoc) (len : Aff) (s : State) : Host.Outcome State Fault Refusal :=
  s.runM fun _ => vVec core dst [a, b] len (map2 minF)
def execVmax (core : Nat) (dst a b : VLoc) (len : Aff) (s : State) : Host.Outcome State Fault Refusal :=
  s.runM fun _ => vVec core dst [a, b] len (map2 maxF)
def execVabs (core : Nat) (dst a : VLoc) (len : Aff) (s : State) : Host.Outcome State Fault Refusal :=
  s.runM fun _ => vVec core dst [a] len (map1 absF)
def execVneg (core : Nat) (dst a : VLoc) (len : Aff) (s : State) : Host.Outcome State Fault Refusal :=
  s.runM fun _ => vVec core dst [a] len (map1 negF)
def execVcmp (core : Nat) (p : Pred) (dst a b : VLoc) (len : Aff) (s : State) : Host.Outcome State Fault Refusal :=
  s.runM fun _ => vVec core dst [a, b] len (map2 fun x y => truthCode (cmpF p x y))
def execVsel (core : Nat) (dst c a b : VLoc) (len : Aff) (s : State) : Host.Outcome State Fault Refusal :=
  s.runM fun _ => vVec core dst [c, a, b] len (map3 fun q x y => if isTrue q then x else y)
def execVcvt (core : Nat) (dst : VLoc) (dfmt : Nat) (a : VLoc) (sfmt : Nat) (scale : Grain) (zp : ZpGrain) (cb : Nat) (len : Aff) (s : State) :
    Host.Outcome State Fault Refusal := s.runM fun _ => vcvtV core dst dfmt a sfmt scale zp cb len
def execVrcp (core : Nat) (dst a : VLoc) (len : Aff) (s : State) : Host.Outcome State Fault Refusal :=
  s.runM fun _ => vVec core dst [a] len (map1 rcpF)
def execVrsq (core : Nat) (dst a : VLoc) (len : Aff) (s : State) : Host.Outcome State Fault Refusal :=
  s.runM fun _ => vVec core dst [a] len (map1 rsqF)
def execVdiv (core : Nat) (dst a b : VLoc) (len : Aff) (s : State) : Host.Outcome State Fault Refusal :=
  s.runM fun _ => vVec core dst [a, b] len (map2 divF)
def execVsqrt (core : Nat) (dst a : VLoc) (len : Aff) (s : State) : Host.Outcome State Fault Refusal :=
  s.runM fun _ => vVec core dst [a] len (map1 sqrtF)
def execVexp2 (core : Nat) (dst a : VLoc) (len : Aff) (s : State) : Host.Outcome State Fault Refusal :=
  s.runM fun _ => vVec core dst [a] len (map1 exp2F)
def execVlog2 (core : Nat) (dst a : VLoc) (len : Aff) (s : State) : Host.Outcome State Fault Refusal :=
  s.runM fun _ => vVec core dst [a] len (map1 log2F)
def execVfun (core : Nat) (f : TabFn) (dst a : VLoc) (len : Aff) (s : State) : Host.Outcome State Fault Refusal :=
  s.runM fun _ => vVec core dst [a] len (map1 (tableFn f))
def execVtab (core slot : Nat) (dst a : VLoc) (len : Aff) (s : State) : Host.Outcome State Fault Refusal :=
  s.runM fun _ => vtabV core slot dst a len
def execVred (core : Nat) (r : Red) (dst a : VLoc) (len : Aff) (s : State) : Host.Outcome State Fault Refusal :=
  s.runM fun _ => vredV core r dst a len
def execVsoftmax (core : Nat) (dst a : VLoc) (len : Aff) (s : State) : Host.Outcome State Fault Refusal :=
  s.runM fun _ => vsoftmaxV core dst a len
def execVnorm (core : Nat) (rms : Bool) (dst a gamma beta : VLoc) (eps : Opnd) (len : Aff) (s : State) : Host.Outcome State Fault Refusal :=
  s.runM fun _ => vnormV core rms dst a gamma beta eps len
def execVopt (core : Nat) (adamw : Bool) (w : VLoc) (wBf16 : Bool) (g : VLoc) (gFmt : Nat) (gZp : Opnd) (gCb : Nat) (m v : VLoc)
    (mNarrow vNarrow : Bool) (mScale vScale : VLoc) (firstSlot : Nat) (len : Aff) (s : State) : Host.Outcome State Fault Refusal :=
  s.runM fun _ => voptV core ⟨adamw, w, wBf16, g, gFmt, gZp, gCb, m, v, mNarrow, vNarrow, mScale, vScale⟩ firstSlot len
def execWdw (core : Nat) (src : Tmpl) (e : ElemSrc) (init : Option VLoc) (s : State) : Host.Outcome State Fault Refusal :=
  s.runM fun _ => wdwV core src e init
def execWgrp (core : Nat) (cg : Nat) (src : Tmpl) (e : ElemSrc) (init : Option VLoc) (s : State) : Host.Outcome State Fault Refusal :=
  s.runM fun _ => wgrpV core cg src e init
def execWpool (core : Nat) (p : Pool) (src : Tmpl) (e : ElemSrc) (s : State) : Host.Outcome State Fault Refusal :=
  s.runM fun _ => wpoolV core p src e
def execWgpool (core : Nat) (p : Pool) (src : Tmpl) (e : ElemSrc) (s : State) : Host.Outcome State Fault Refusal :=
  s.runM fun _ => wgpoolV core p src e

end Sys2Proof.Machine
end

