-- ==== Sys2Proof/Machine/Layers.lean ====
section
/-! DEFINITION. A layer from its presentation to its record: parameters, history records, pools, admission, merge groups, drain,
re-run, completion, timeout, runaway (R13, R16, R22, R158, R226, R228 to R230, R233 to R244, R257 to R260, R269, R275 to
R277, R289, R290, R301 to R303). -/

namespace Sys2Proof.Machine

/-- Work of a queue goes on: it is RUNNING, or HELD with descriptors in flight (R273, R274). -/
def goesOn (y : Queue) : Bool := (y.ctx.state == qsRunning || y.ctx.state == qsHeld) && !y.pausing

/-- Replace bytes at an offset. -/
def bytesAt (b : List Byte) (o : Nat) (l : List Byte) : List Byte := b.take o ++ l ++ b.drop (o + l.length)

/-! ### History records (R233 to R237) -/

def rcWindow (b : List Byte) : Nat := leAt b 0x40 1
def rcCount (b : List Byte) : Nat := leAt b 0x41 1
def rcHead (b : List Byte) : Nat := leAt b 0x42 1
def rcMode (b : List Byte) : Nat := leAt b 0x43 1
def rcTarget (b : List Byte) : Nat := leAt b 0x44 1
def rcSeed (b : List Byte) : Nat := leAt b 0x48 4

/-- A record that fails a check of R235. -/
def recBad (b : List Byte) : Bool :=
  rcWindow b = 0 || 16 < rcWindow b || 16 < rcCount b || 15 < rcHead b || !([0, 2, 4, 5, 6, 7, 8, 9, 0xA, 0xB] : List Nat).contains (rcTarget b)
    || rcSeed b < 0x00800000 || 0x7F800000 ≤ rcSeed b

/-- The largest finite value of a target format (R233). -/
def largestOf (f : Nat) : Fv :=
  match ffmt f with
  | some g => decodeF g g.maxCode
  | none => fvInt (((intRange f).map (·.2)).getD 0)

/-- A: the largest of the last entries in the window (R236). -/
def recMax (b : List Byte) : Nat :=
  ((List.range (min (rcCount b) (rcWindow b))).map fun i => leAt b (4 * ((rcHead b + 15 - i) % 16)) 4).foldl max 0

/-- The scale derived from a record (R236). -/
def recScale (b : List Byte) : Nat :=
  let a := recMax b
  if rcCount b = 0 || a = 0 then rcSeed b
  else
    let f := largestOf (rcTarget b)
    let x := fvScale (bits (rcMode b) 1 3) (dec32 a)
    if rcMode b % 2 = 0 then
      let ok (i : Nat) : Bool := !fvLt (fvScale ((i : Int) - 126) f) x
      enc32 (.fin false 1 ((((List.range 254).find? ok).getD 253 : Nat) - 126))
    else match x, f with
      | .fin _ p e, .fin _ r g => min (max (ratF false p r (e - g)) 0x00800000) 0x7F7FFFFF
      | _, _ => 0x7F7FFFFF

/-- CLEAR (R234). -/
def recClear (b : List Byte) : List Byte := bytesAt (bytesAt b 0x41 [0, 0]) 0x4C (toLe 4 (rcSeed b))

/-- A saturating 32-bit count in a record. -/
def recInc (o : Nat) (b : List Byte) : List Byte := bytesAt b o (toLe 4 (satInc 32 (leAt b o 4)))

/-- The update of R237 with a layer's combined maximum and NaN flag. -/
def recUpdate (maxv : Option Nat) (nan : Bool) (b : List Byte) : List Byte :=
  let b := if nan then recInc 0x5C b else b
  let b := match maxv with
    | some v =>
      if v < 0x7F800000 then
        recInc 0x54 (bytesAt (bytesAt b (4 * (rcHead b % 16)) (toLe 4 v)) 0x41 (toLe 1 (min (rcCount b + 1) 16) ++ toLe 1 ((rcHead b + 1) % 16)))
      else recInc 0x58 b
    | none => recInc 0x58 b
  bytesAt b 0x4C (toLe 4 (recScale b))

/-- The pages a record lies in: virtual address and bytes. -/
def recParts (va : Nat) : List (Nat × Nat) :=
  let k := min 128 (4096 - va % 4096)
  if k = 128 then [(va, 128)] else [(va, k), (va + k, 128 - k)]

/-- The device address a held translation gives. -/
def devAt (x : Desc) (va : Nat) : Option Nat :=
  (heldFind x.held va).bind fun h => if h.host.isSome then none else some (h.phys / 4096 * 4096 + va % 4096)

/-- Device ranges of a record. -/
def recSpots (x : Desc) (va : Nat) : List (Nat × Nat) := (recParts va).filterMap fun p => (devAt x p.1).map fun a => (a, p.2)

/-- A held translation of a record has become void (R319). -/
def recVoid (x : Desc) (va : Nat) : Bool := (recParts va).any fun p => (heldFind x.held p.1).any (·.void)

/-- Where a record may not lie: not in device memory, in another domain's, or, for one that is written, in a bound image (R172, R235). -/
def recPlace (m : Mach) (q : Nat) (x : Desc) (h : Nat × Nat × Nat) : Option (Nat × Nat) :=
  if recVoid x h.1 then none
  else if (recSpots x h.1).length ≠ (recParts h.1).length then some (stParamRange, h.2.1)
  else if !(recSpots x h.1).all fun p => granulesOf m.mem (qDom m q) p.1 p.2 then some (stPermission, h.1)
  else if recWrites h.2.2 && (recSpots x h.1).any fun p => inImage m p.1 p.2 then some (stPermission, h.1) else none

/-- Read a record through its held translation. -/
def recRead (c : Cfg) (q : Nat) (x : Desc) (va : Nat) (m : Mach) : Mach × Fe (List Byte) :=
  if recVoid x va then (killQueue c q stFaultDeviceTable va va m, .killed)
  else
    let ps := recSpots x va
    match ps.findSome? fun (p : Nat × Nat) => (match readChk m.mem (qDom m q) p.1 p.2 with | .integrity a => some a | _ => none) with
    | some a => (integrityKill c q a m, .killed)
    | none =>
      let m := ps.foldl (fun m p => backInval p.1 p.2 true m) m
      if ps.any fun p => hostHolds m p.1 p.2 ≠ [] then (m, .wait) else (m, .ok (ps.flatMap fun p => bread m.mem.cells p.1 p.2))

/-- Write a record back. -/
def histPut (q d : Nat) (x : Desc) (va : Nat) (b : List Byte) (m : Mach) : Mach :=
  ((recSpots x va).foldl (fun (s : List Byte × Mach) p => (s.1.drop p.2, engPutFor q d p.1 (s.1.take p.2) s.2)) (b, m)).2

/-- Read several records. -/
def recsRead (c : Cfg) (q : Nat) (x : Desc) : List Nat → Mach → Mach × Fe (List (List Byte))
  | [], m => (m, .ok [])
  | va :: r, m =>
    match recRead c q x va m with
    | (m, .ok b) =>
      match recsRead c q x r m with
      | (m, .ok bs) => (m, .ok (b :: bs))
      | z => z
    | (m, .killed) => (m, .killed)
    | (m, _) => (m, .wait)

/-- The effect of one binding at presentation: CLEAR, the value its slot receives, APPLIED (R234). -/
def recTake (q d : Nat) (x : Desc) (s : List (Nat × Nat) × Mach) (h : Nat × Nat × Nat) : List (Nat × Nat) × Mach :=
  let b := (recSpots x h.1).flatMap fun p => bread s.2.mem.cells p.1 p.2
  let f := h.2.2
  let b := if bits f 3 1 = 1 then recClear b else b
  let v := if bits f 0 1 = 1 then (if rcCount b = 0 then rcSeed b else leAt b 0x4C 4) else leAt b 0x50 4
  let b := if bits f 0 1 = 1 && bits f 2 1 = 1 then bytesAt b 0x50 (toLe 4 v) else b
  (if f % 4 = 0 then s.1 else s.1 ++ [(h.2.1, v)], if bits f 3 1 = 1 || (bits f 0 1 = 1 && bits f 2 1 = 1) then histPut q d x h.1 b s.2 else s.2)

/-- An earlier layer of the queue still owes an update to a record this one reads (R238). -/
def recWaits (y : Queue) (d : Nat) (x : Desc) : Bool :=
  y.descs.any fun e => e.1 < d && e.2.isRun && e.2.phase < 4 && (histBinds e.2.bytes).any fun h =>
    bits h.2.2 2 1 = 1 && (histBinds x.bytes).any fun g => g.1 == h.1 && (g.2.2 % 4 ≠ 0 || bits g.2.2 3 1 = 1)

/-! ### State pools (R228 to R230) -/

/-- Physical address of a pool's entry. -/
def poolAt (c : Cfg) (p : Nat) : Nat := c.tb.pool + 64 * p
def plBase (b : List Byte) : Nat := leAt b 0 8
def plBytes (b : List Byte) : Nat := leAt b 8 4
def plSlots (b : List Byte) : Nat := leAt b 0xC 4
def plSeed (b : List Byte) : Nat := leAt b 0x10 8
def plLive (b : List Byte) : Nat := leAt b 0x18 8

/-- The entry of a pool as the engine reads it. -/
def poolEntry (c : Cfg) (m : Mach) (p : Nat) : List Byte := bread m.mem.cells (poolAt c p) 64

/-- The pool serves this queue: enabled, of its domain, its own, within the layout (R228; log 45). -/
def poolServes (c : Cfg) (m : Mach) (q p : Nat) : Bool :=
  let b := poolEntry c m p
  let k := leAt b 0x24 2
  c.lockTables && !m.depot.poolOff.contains p && (badIn m.mem (poolAt c p) 64).isNone
    && 2 ^ 15 ≤ k && bits k 12 3 = 0 && k % 4096 = qDom m q && leAt b 0x20 4 = q && !nonZero b 0x26 26
    && plBase b % 64 = 0 && plBase b < 2 ^ 52 && plSeed b < 2 ^ 52 && plLive b < 2 ^ 52
    && 64 ≤ plBytes b && plBytes b ≤ 0x1000000 && plBytes b % 64 = 0 && 1 ≤ plSlots b && plSlots b ≤ 65536

/-- An entry whose line fails its tag is reported once and stays disabled (R352). -/
def poolTag (c : Cfg) (p : Nat) (m : Mach) : Mach :=
  if (badIn m.mem (poolAt c p) 64).isSome && !m.depot.poolOff.contains p then
    post c evIntegrityFail [poolAt c p, 0] { m with depot := { m.depot with poolOff := p :: m.depot.poolOff } } else m

/-- Slot, JOIN and LEAVE of a map entry. -/
def meSlot (v : Nat) : Nat := v % 2 ^ 16
def meJoin (v : Nat) : Bool := bits v 30 1 == 1
def meLeave (v : Nat) : Bool := bits v 31 1 == 1

/-- A slot's live bit. -/
def liveBit (l : List Byte) (s : Nat) : Bool := bits (leAt l (s / 8) 1) (s % 8) 1 == 1

/-- Set or clear live bits. -/
def liveSet (v : Bool) (slots : List Nat) (l : List Byte) : List Byte :=
  slots.foldl (fun l s =>
    let b := leAt l (s / 8) 1
    let z := b - bits b (s % 8) 1 * 2 ^ (s % 8)
    lset l (s / 8) (BitVec.ofNat 8 (if v then z + 2 ^ (s % 8) else z))) l

/-- The first entry of a slot map that fails (R229). -/
def mapBad (slots : Nat) (live : List Byte) (map : List Nat) : Option Nat :=
  (List.range map.length).find? fun i =>
    let v := nth map i
    slots ≤ meSlot v || (map.take i).any (meSlot · = meSlot v) || meJoin v == liveBit live (meSlot v)

/-- Bytes of a live bitmap. -/
def liveLen (b : List Byte) : Nat := cdiv (plSlots b) 8

/-- What a step reads of its pool: the entry, the map, the bitmap. The bitmap is cleared when ENABLE is first seen (log 45). -/
def poolReads (c : Cfg) (q d : Nat) (x : Desc) (m : Mach) : Mach × Fe (List Byte × List Nat × List Byte) :=
  match poolBind x.bytes with
  | none => (m, .ok ([], [], []))
  | some (p, n, va) =>
    let b := poolEntry c m p
    let zero := List.replicate (liveLen b) (0 : Byte)
    let first := !m.depot.poolOn.contains p
    feThen m (if first then soWrite c q d [(0, plLive b, zero)] m else (m, .ok ())) fun _ m1 =>
      let m1 := if first then { m1 with depot := { m1.depot with poolOn := p :: m1.depot.poolOn } } else m1
      feThen m1 (feRead c q (qDom m q) va (4 * n) m1) fun l m2 =>
        feThen m2 (feRead c q (qDom m q) (plLive b) (liveLen b) m2) fun live m3 =>
          (m3, .ok (b, nums32 l, live))

/-! ### Parameters (R260) -/

/-- Where a RUN's inline bytes or mailbox data lie. -/
def landingOf (y : Queue) (x : Desc) : Nat := if x.seq.isSome then x.landing else y.ctx.aux + 256 * x.index

/-- The slots a RUN writes but for its history slots, in the order of R260. -/
def slotWrites (y : Queue) (x : Desc) : List (Nat × Nat) :=
  (inlineSlot x.bytes).toList.map (fun s => (s, landingOf y x % 2 ^ 52)) ++ (returnSlot x.bytes).toList.map (fun s => (s, returnVa x.bytes % 2 ^ 52))
    ++ x.frames.map fun f => (f.slot, f.addr % 2 ^ 52)

/-- Write slots. -/
def putSlots (ws : List (Nat × Nat)) (ps : List Nat) : List Nat := ws.foldl (fun ps w => lset ps w.1 w.2) ps

/-- A parameter block as 64 numbers. -/
def paramNums (l : List Byte) : List Nat := (List.range 64).map fun i => leAt l (8 * i) 8

/-! ### Merge groups (R130, R275) -/

/-- A layer has started, or will never start (R16). -/
def hasStarted (m : Mach) (q d : Nat) (x : Desc) : Bool :=
  3 ≤ x.phase || x.alt || x.cancelled || x.next ≠ 0 || (groupOf m q d).any fun p => (descGet m p.1 p.2).any fun z => z.next ≠ 0

/-- A RUN that may be merged, its row count aside. -/
def mayMerge (x : Desc) (r : List Byte) : Bool := lrCoalescible r && x.coal && x.units = 0 && inlineLen x.bytes = 0 && x.seq.isNone

/-- A group has closed or its time has come: it is full, its window has ended, or R21 passes for the last time (R276). One whose window had
ended when it opened takes what was fetched by then. -/
def groupOver (m : Mach) (g : Group) (first : Desc) : Bool :=
  g.closed || 128 ≤ g.rows || g.ends ≤ m.now || (m.tick.limit ≤ m.now + first.wcet && first.presented + first.wcet ≤ m.tick.limit)
def groupTakes (m : Mach) (g : Group) (first x : Desc) : Bool := !groupOver m g first || (!g.closed && g.late && x.fetched ≤ g.ends)

/-- Earlier RUNs of the queue have started or are in the group: descriptor order holds (R16, R275). -/
def orderKept (m : Mach) (q : Nat) (y : Queue) (d : Nat) (g : Group) : Bool :=
  y.descs.all fun e => d ≤ e.1 || !e.2.isRun || hasStarted m q e.1 e.2 || g.members.contains (q, e.1)

/-- The open group a RUN matches, its row limit aside. -/
def openGroup (m : Mach) (q d : Nat) (y : Queue) (x : Desc) : Option (Nat × Group) :=
  m.sched.groups.find? fun g => !g.2.closed &&
    match g.2.members.head? with
    | none => false
    | some (q0, d0) =>
      match qGet m q0, descGet m q0 d0 with
      | some y0, some x0 =>
        y0.ctx.dom == y.ctx.dom && x0.parcel == x.parcel && x0.layer == x.layer && !x0.cancelled && x0.phase == 2
          && groupTakes m g.2 x0 x && orderKept m q y d g.2 && (if y.ctx.rt then q0 == q else !y0.ctx.rt) && (x0.params.take 64).drop 3 == (x.params.take 64).drop 3
      | _, _ => false

/-- Groups whose members have all gone are forgotten. -/
def groupsLive (m : Mach) : Map Group := mfilter (fun _ g => g.members.any fun p => (descGet m p.1 p.2).isSome) m.sched.groups

/-- Open a group with one member. -/
def groupOpen (q d : Nat) (x : Desc) (m : Mach) : Mach :=
  let n := m.sched.nextGroup
  let w := x.fetched + x.coalWin * 1000
  let g : Group := ⟨[(q, d)], rowsOf2 x, max w m.now, false, w ≤ m.now⟩
  descUpd q d (fun z => { z with group := n })
    { m with sched := { m.sched with groups := mset (groupsLive m) n g, nextGroup := n + 1 } }

/-- A RUN about to be divided opens or joins a group; one that breaks only the row limit closes the group (R275). -/
def groupJoin (q d : Nat) (m : Mach) : Mach :=
  match qGet m q, descGet m q d with
  | some y, some x =>
    match layerRec m x with
    | none => m
    | some r =>
      let rows := rowsOf2 x
      let fits := 1 ≤ rows && rows ≤ 127
      if !mayMerge x r then m
      else match openGroup m q d y x with
        | none => if fits then groupOpen q d x m else m
        | some (n, g) =>
          if 128 < g.rows + rows || 128 ≤ g.members.length then
            let m := { m with sched := { m.sched with groups := mset m.sched.groups n { g with closed := true } } }
            if fits then groupOpen q d x m else m
          else if rows = 0 then m
          else descUpd q d (fun z => { z with group := n })
            { m with sched := { m.sched with groups := mset m.sched.groups n { g with members := g.members ++ [(q, d)], rows := g.rows + rows } } }
  | _, _ => m

/-- COALESCE_GROUP_CLOSE (R276): the group is full, its window has ended, or R21 passes for the last time. -/
def groupClose (n t : Nat) (m : Mach) : Mach :=
  let m := tickTo t m
  match mget m.sched.groups n with
  | none => m
  | some g =>
    match (g.members.head?).bind fun p => descGet m p.1 p.2 with
    | none => m
    | some x =>
      if groupOver m g x then
        { m with sched := { m.sched with groups := mset m.sched.groups n { g with closed := true } } }
      else m

/-! ### Presentation and admission (R16, R22, R23, R257 to R260, R289) -/

/-- What a layer costs its ledger entry (R244, R289). -/
def costOf (x : Desc) : Nat := x.tiles * x.wcet + x.altTiles * x.altWcet

/-- Earlier RUNs of the queue have come as far as a phase. -/
def earlierAt (y : Queue) (d phase : Nat) : Bool := y.descs.all fun e => d ≤ e.1 || !e.2.isRun || phase ≤ e.2.phase

/-- The layer is divided: it may issue, and a step of a pool gathers first. -/
def divide (q d : Nat) (m : Mach) : Mach :=
  groupJoin q d (descUpd q d (fun x => { x with phase := 2, order := m.sched.order, admitTick := m.tick.count, admitAt := m.now })
    { m with sched := { m.sched with order := m.sched.order + 1 } })

/-- The joins of a step are set live (R230). -/
def poolJoin (c : Cfg) (q d : Nat) (x : Desc) (m : Mach) : Mach × Fe Unit :=
  match poolBind x.bytes with
  | none => (m, .ok ())
  | some (p, _, _) =>
    let b := poolEntry c m p
    let map := x.params.drop 64
    feThen m (feRead c q (qDom m q) (plLive b) (liveLen b) m) fun live m1 =>
      soWrite c q d [(0, plLive b, liveSet true (map.map meSlot) live)] m1

/-- A presented layer is admitted, when its queue is best-effort or its entry's BALANCE covers its cost (R289). -/
def tryAdmit (c : Cfg) (q d : Nat) (m : Mach) : Mach :=
  match qGet m q, descGet m q d with
  | some y, some x =>
    let e := entryOf m q
    let pays := !y.ctx.rt || (!m.tick.partialTick && m.now < m.tick.limit && e.any fun p => p.2.running && costOf x ≤ p.2.balance)
    if x.phase ≠ 1 || !x.isRun || x.cancelled || !goesOn y || !earlierAt y d 2 || !pays then m
    else match poolJoin c q d x m with
      | (m, .ok _) =>
        let m := if !y.ctx.rt then m else
          descUpd q d (fun z => { z with owed := costOf x })
            { m with ledger := mmap (fun _ l => if l.queue = some q then
                { l with balance := l.balance - costOf x, owed := l.owed + costOf x } else l) m.ledger }
        divide q d (if x.pool.isSome then descUpd q d (fun z => { z with gather := 1 }) m else m)
      | (m, .failed) => refuse q d stPermission 0 m
      | (m, .lost) => refuse q d stHostLost m.hp.epoch m
      | (m, _) => m
  | _, _ => m

/-- Checks that need no read: BIND_RESOURCES, then PERMISSION, then PARAM_RANGE of a record's place (R226, R228, R235, R258). -/
def presentEarly (c : Cfg) (m : Mach) (q : Nat) (y : Queue) (x : Desc) : Option (Nat × Nat) :=
  let places := (histBinds x.bytes).map (recPlace m q x)
  ([if y.ctx.bound then none else some (stBindResources, x.layer),
    if x.parcel = y.ctx.parcel && !y.orphan && (layerRec m x).isSome then none else some (stPermission, 0),
    if x.frames.any (·.st = stPermission) then some (stPermission, 0) else none,
    x.pool.bind fun p => if poolServes c m q p then none else some (stPermission, 0)]
    ++ places.map (fun r => r.filter (·.1 = stPermission)) ++ places).findSome? id

/-- Checks after the reads, in the order of R470: a reserved bit of the map, PARAM_RANGE, POOL_RANGE, EMPTY_OUTPUT; windows as R103 and R105
have them at presentation. -/
def presentLate (x : Desc) (ws : List (Nat × List Nat × WinBlk)) (r : List Byte) (recs : List (List Byte)) (b : List Byte) (map : List Nat) (live : List Byte) : Option (Nat × Nat) :=
  let slots := (histBinds x.bytes).map (·.2.1)
  let held : List (Option (Nat × Nat)) := (recs.zip slots).map fun p => if recBad p.1 then some (stParamRange, p.2) else none
  ([((map.findIdx? fun v => bits v 16 14 ≠ 0)).map fun i => (stMalformed, 4 * i)] ++ held
    ++ [if ws.any fun w => winUseBad w.1 (geoOf w.2.1 w.2.2) then some (stParamRange, 0xFFFF) else none,
        if x.pool.isSome && 65536 * cdiv (lrDepot r) 65536 < map.length * plBytes b then some (stParamRange, 0xFFFF) else none,
        if x.pool.isSome then (mapBad (plSlots b) live map).map fun i => (stPoolRange, i) else none,
        if ws.any fun w => emptyOut (geoOf w.2.1 w.2.2) then some (stEmptyOutput, 0) else none,
        if x.frames.any (·.st = stEmptyOutput) then some (stEmptyOutput, 1) else none]).findSome? id

/-- A layer no tick can hold, or beyond its entry's terms (R22, R244, R287, R289). -/
def neverFits (m : Mach) (q : Nat) (y : Queue) (r : List Byte) : Bool :=
  let w := max (lrWcet r) (lrRerunWcet r)
  (m.tick.cfg.period - m.tick.cfg.quiet) * 1000 < w
    || (y.ctx.rt && (entryOf m q).all fun e => e.2.dropped || e.2.terms.wmax < w
        || e.2.terms.budget < lrTiles r * lrWcet r + lrRerunTiles r * lrRerunWcet r)

/-- Everything the front end reads for a layer: its records, its pool, its parameter block. -/
def presentReads (c : Cfg) (q d : Nat) (x : Desc) (m : Mach) :
    Mach × Fe (List (List Byte) × (List Byte × List Nat × List Byte) × List Byte) :=
  feThen m (recsRead c q x ((histBinds x.bytes).map (·.1)) m) fun recs m1 =>
    feThen m1 (poolReads c q d x m1) fun pool m2 =>
      feThen m2 (feRead c q (qDom m q) (paramVa x.bytes) 512 m2) fun ps m3 => (m3, .ok (recs, pool, ps))

/-- The remote WAITs of a layer's tile-commands (R148). -/
def wordWaits (r : List Byte) (ps : List Nat) : Map (Nat × Nat) :=
  (List.range (max (lrTiles r) (lrRerunTiles r))).flatMap fun i =>
    ((Config.remoteWait r (ps.take 64) i false).map fun w => (2 * i, w)).toList ++ ((Config.remoteWait r (ps.take 64) i true).map fun w => (2 * i + 1, w)).toList

/-- The windows a layer's templates name (R103). -/
def layerWins (m : Mach) (x : Desc) : List (Nat × List Nat × WinBlk) := ((mget m.parcels x.parcel).bind fun p => p.windows[x.layer]?).getD []

/-- The prepared layer. -/
def prepared (r : List Byte) (ps map : List Nat) (now : Nat) (x : Desc) : Desc :=
  { x with phase := 1, presented := now, params := ps ++ map, tiles := lrTiles r, wcet := lrWcet r, altTiles := lrRerunTiles r
           altWcet := lrRerunWcet r, monitor := 0, threshold := Config.threshold r ps % 2 ^ 32, waits := wordWaits r ps }

/-- LAYER_PRESENT: the checks of R470 in their order, the parameter block of R260, then admission. -/
def present (c : Cfg) (q d : Nat) (m : Mach) : Mach :=
  match qGet m q, descGet m q d with
  | some y, some x =>
    if x.phase ≠ 0 || !x.isRun || !goesOn y || !depsMet m q d || !earlierAt y d 1 || recWaits y d x then m
    else
      let m := (x.pool.map fun p => poolTag c p m).getD m
      match presentEarly c m q y x with
      | some s => refuse q d s.1 s.2 m
      | none =>
        match presentReads c q d x m with
        | (m, .failed) => refuse q d stPermission 0 m
        | (m, .lost) => refuse q d stHostLost m.hp.epoch m
        | (m, .ok (recs, (b, map, live), l)) =>
          let r := (layerRec m x).getD []
          match presentLate x (layerWins m x) r recs b map live with
          | some s => refuse q d s.1 s.2 m
          | none =>
            if neverFits m q y r then refuseAdm q d m
            else match landInline c q d y x m with
              | (m, .ok _) =>
                let (hs, m) := (histBinds x.bytes).foldl (recTake q d x) ([], m)
                let ps := putSlots (slotWrites y x ++ hs) (paramNums l)
                tryAdmit c q d (descUpd q d (prepared r ps map m.now) m)
              | (m, .failed) => refuse q d stPermission 0 m
              | (m, .lost) => refuse q d stHostLost m.hp.epoch m
              | (m, _) => m
        | (m, _) => m
  | _, _ => m

def layerPresent (q d t : Nat) (c : Cfg) (m : Mach) : Mach := present c q d (tickTo t m)

/-! ### Drain and re-run (R13, R94, R95, R158, R239 to R243) -/

/-- Release reservations in the targets' rings (R158). -/
def unreserve (es : List EnqRec) (m : Mach) : Mach :=
  es.foldl (fun m e => qUpd e.q (fun y => { y with reserved := y.reserved.erase (e.entry, e.n) }) m) m

/-- A tile-command has drained: words, operations, reads of ENQUEUEs and writes are all done. -/
def hasDrained (m : Mach) (k : Nat) (x : Core) (t : TileCmd) : Bool :=
  t.ended && x.slots.all (· = []) && x.enqs.all (·.bytes.isSome) && x.halts = [] && (hpAll m).all (·.core ≠ some k)

/-- The core after its tile-command: nothing of it is left but cache, TLB and the mapping of its windows (R15, R133, R153). -/
def coreAfter (m : Mach) (x : Core) (t : TileCmd) : Core :=
  { coreClear { x.regs with state := idleState x.regs, since := m.now, busy := (x.regs.busy + (m.now - t.issued)) % 2 ^ 64 } with
    icache := x.icache, tlb := x.tlb, front := x.front }

/-- A tile-command's clip count, maximum and NaN flag enter its layer (R94, R95, R239), with the tick and the core of its drain (R26, R298). -/
def addDrain (k tick : Nat) (x : Core) (t : TileCmd) (z : Desc) : Desc :=
  let z := { z with monitor := min (z.monitor + x.clip) (2 ^ 32 - 1), drainTick := some tick, drainCore := some k }
  if z.alt && !t.alt then z
  else { z with nan := z.nan || x.keptNan
                maxv := match z.maxv, x.keptMax with
                  | some a, some b => some (max a b)
                  | a, b => a.orElse fun _ => b }

/-- The monitor has passed the threshold of a re-runnable layer (R241): the narrow run ends; the alternate waits for its drain. The alternate's
clips are counted and never compared; OK_RERUN reports the value that triggered (R239). -/
def toAlternate (n : Nat) (z : Desc) : Desc :=
  { z with alt := true, narrow := n, trigger := z.monitor, next := z.altTiles + 1, maxv := none, nan := false, enqs := [] }

/-- Tile-commands of the run in hand. -/
def totalOf (x : Desc) : Nat := if x.alt then x.altTiles else x.tiles

/-- Every issued tile-command of a member's run has drained and none is left to issue. -/
def memberDone (m : Mach) (lead : Nat × Nat) (p : Nat × Nat) : Bool :=
  match descGet m p.1 p.2 with
  | some z => z.running == 0 && (z.cancelled || z.next == totalOf z || (p != lead && !z.alt))
  | none => true

/-- A layer with its group has done all its work: it is left to complete (phase 3). -/
def workDone (q d : Nat) (m : Mach) : Mach :=
  let g := groupOf m q d
  if g.all (memberDone m (g.headD (q, d))) then
    g.foldl (fun m p => descUpd p.1 p.2 (fun z => if z.phase = 2 then { z with phase := 3 } else z) m) m
  else m

/-- TILE_COMMAND_DRAIN. -/
def tileDrain (k t : Nat) (m : Mach) : Mach :=
  let m := tickTo t m
  match m.cores[k]? with
  | none => m
  | some x =>
    match x.tc with
    | none => m
    | some u =>
      if !hasDrained m k x u then m
      else
        let g := if u.alt then [(u.q, u.desc)] else groupOf m u.q u.desc
        let m := busyAdd k (some x.regs.dom) u.issued { m with cores := lset m.cores k (coreAfter m x u) }
        let m := g.foldl (fun m p => descUpd p.1 p.2 (addDrain k m.tick.count x u) m) m
        match descGet m u.q u.desc with
        | none => m
        | some z =>
          let stale := z.alt && !u.alt
          let es := x.enqs.map fun e => { e with half := u.tile }
          let m := if stale then unreserve es m else m
          let m := descUpd u.q u.desc (fun z => { z with running := z.running - 1, enqs := if stale then z.enqs else z.enqs ++ es }) m
          let past := !z.alt && !z.cancelled && z.threshold < z.monitor && (layerRec m z).any lrRerun
          let m := if past then
              let m := unreserve (z.enqs ++ es) m
              g.foldl (fun m p => descUpd p.1 p.2 (toAlternate z.next) m) m
            else m
          settle (workDone u.q u.desc m)

/-- RERUN_START: the narrow run has drained; the alternate issues (R241). -/
def rerunStart (q d : Nat) (m : Mach) : Mach :=
  match descGet m q d with
  | none => m
  | some x =>
    let g := groupOf m q d
    let narrow := m.cores.any fun k => k.tc.any fun t => !t.alt && g.contains (t.q, t.desc)
    if x.phase = 2 && x.alt && !x.cancelled && x.next = x.altTiles + 1 && !narrow then descUpd q d (fun z => { z with next := 0 }) m else m

/-! ### Completion (R158, R237, R240, R269, R290) -/

/-- The status a layer completes with (R240, R470). -/
def finalStatus (x : Desc) : Nat × Nat :=
  let s := x.status
  let s := if x.alt then meet s stOkRerun x.narrow else if x.threshold < x.monitor then meet s stSaturation x.threshold else s
  s.getD (stOk, 0)

/-- Publish one reserved descriptor: it is written behind the target's TAIL, which moves past it (R156 to R158, R321; log 47). -/
def publishOne (c : Cfg) (e : EnqRec) (m0 : Mach) : Mach × Fe Unit :=
  let m := loadQueue c e.q m0
  match qGet m e.q with
  | none => (m, .failed)
  | some y =>
    let s := 2 ^ y.ctx.ringLog2
    let l := e.bytes.getD []
    let vas := (List.range e.n).map fun i => y.ctx.ringBase + 128 * ((y.ctx.tail + i) % s)
    match holdAll c e.q y.ctx.dom (vas.map fun v => (v, Acc.write)) m with
    | (m, .ok hs) =>
      let put := (vas.zip (chunks 128 l)).foldl (fun (r : Mach × Fe Unit) p =>
        match r with
        | (m, .ok _) => heldWrite c 32 e.q y.ctx.dom (2 ^ 32) hs p.1 p.2 m
        | r => r) (m, .ok ())
      match put with
      | (m, .ok _) => (wake e.q (qUpd e.q (fun z =>
          { z with reserved := z.reserved.erase (e.entry, e.n), ctx := { z.ctx with tail := (z.ctx.tail + e.n) % (2 * s) } }) m), .ok ())
      | r => r
    | (m, .wait) => (m, .wait)
    | (m, .killed) => (m, .killed)
    | (m, .failed) => (m, .failed)
    | (m, .lost) => (m, .lost)

/-- An outcome reaches a layer with those merged with it (R277). -/
def reachServed (q d st detail : Nat) (m : Mach) : Mach :=
  (if (descGet m q d).any (·.alt) then [(q, d)] else groupOf m q d).foldl (fun m p => reach p.1 p.2 st detail m) m

/-- A member of a merge group waits for what the first member publishes: the group has one status (R158, R277). -/
def leadFirst (m : Mach) (q d : Nat) (x : Desc) : Bool :=
  !x.alt && match groupOf m q d with
    | [] => false
    | p :: _ => p != (q, d) && (descGet m p.1 p.2).any (·.phase < 4)

/-- Publish a layer's descriptors in order; a failure leaves the later ones of its tile-command on that target unpublished and
the layer completes with PERMISSION. True when none is left; `fuel` bounds the list. -/
def publishAll (c : Cfg) (q d : Nat) : Nat → Mach → Mach × Bool
  | 0, m => (m, true)
  | fuel + 1, m =>
    match (descGet m q d).map (·.enqs) with
    | none => (m, true)
    | some [] => (m, true)
    | some (e :: r) =>
      let keep (l : List EnqRec) (m : Mach) : Mach := descUpd q d (fun z => { z with enqs := l }) m
      let drop (st det : Nat) (m : Mach) : Mach × Bool :=
        let gone (f : EnqRec) : Bool := f.q == e.q && f.half == e.half
        publishAll c q d fuel (keep (r.filter fun f => !gone f) (reachServed q d st det (unreserve (e :: r.filter gone) m)))
      if e.void then publishAll c q d fuel (keep r m)
      else if (qGet m e.q).all fun y => y.ctx.dom ≠ qDom m q || y.ctx.state = qsKilled then publishAll c q d fuel (keep r (unreserve [e] m))
      else match publishOne c e m with
        | (m, .ok _) => publishAll c q d fuel (keep r m)
        | (m, .wait) => (m, false)
        | (m, .lost) => drop stHostLost m.hp.epoch m
        | (m, _) => drop stPermission 0 m

/-- One record is updated with the layer's maximum (R237). -/
def histOne (q d : Nat) (x : Desc) (va : Nat) (m : Mach) : Mach :=
  histPut q d x va (recUpdate x.maxv x.nan ((recSpots x va).flatMap fun p => bread m.mem.cells p.1 p.2)) m

/-- The UPDATE bindings of a layer that completes well: once, and only when every record can be read (R237); a record that lies in an image bound since
is not written, and the layer completes with PERMISSION (R172). -/
def histories (c : Cfg) (q d : Nat) (x : Desc) (vas : List Nat) (m : Mach) : Mach × Fe Unit :=
  if x.histDone then (m, .ok ())
  else if vas.any fun va => (recSpots x va).any fun p => inImage m p.1 p.2 then
    (descUpd q d (fun z => { z with histDone := true }) (reach q d stPermission 0 m), .ok ())
  else match recsRead c q x vas m with
    | (m, .ok _) => (descUpd q d (fun z => { z with histDone := true }) (vas.foldl (fun m va => histOne q d x va m) m), .ok ())
    | (m, .killed) => (m, .killed)
    | (m, _) => (m, .wait)

/-- A status after which descriptors are published and a pool is written back (R158, R230). -/
def goodEnd (st : Nat) : Bool := st == stOk || st == stOkRerun || st == stEmptyOutput

/-- A layer's descriptors are published: it ends well, or publication began and a target has failed since (R158). -/
def goesPublic (x : Desc) : Bool :=
  goodEnd (finalStatus x).1 || (x.publish && ((finalStatus x).1 == stPermission || (finalStatus x).1 == stHostLost))

/-- The layer's last acts: its allocation is released, what it owes leaves OWED, its record is ready (R201, R269, R290). -/
def layerEnd (q d : Nat) (m : Mach) : Mach :=
  match descGet m q d with
  | none => m
  | some x => complete q d (finalStatus x).1 (finalStatus x).2 (layerFree q d (descUpd q d (fun z => { z with owed := 0 }) (lessOwed q x.owed m)))

/-- LAYER_COMPLETE: ENQUEUE publication, pool scatter, history update, then the record. With GLOBAL the layer's writes are flushed before a
history record is updated, so that a flush that fails leaves the record as it was (R237, R331). -/
def layerComplete (q d t : Nat) (c : Cfg) (m : Mach) : Mach :=
  let m := tickTo t m
  match descGet m q d with
  | none => m
  | some x =>
    if x.phase ≠ 3 || x.running ≠ 0 || leadFirst m q d x then m
    else if !x.isRun then complete q d (finalStatus x).1 (finalStatus x).2 { m with depot := { m.depot with
      ops := m.depot.ops.filter fun o => !(o.q = q && o.desc = d) } }
    else
      let (m, done) := if goesPublic x then
          publishAll c q d (x.enqs.length + 1) (descUpd q d (fun z => { z with publish := true }) m)
        else (descUpd q d (fun z => { z with enqs := [] }) (unreserve x.enqs m), true)
      match done, descGet m q d with
      | true, some x =>
        let good := goodEnd (finalStatus x).1
        if x.gather ≠ 0 && x.gather ≠ 6 then
          if good && x.gather = 3 then descUpd q d (fun z => { z with gather := 4, so := false }) m
          else if good || x.gather = 5 then m
          else descUpd q d (fun z => { z with gather := 5, so := false })
            { m with depot := { m.depot with ops := m.depot.ops.filter fun o => !(o.q = q && o.desc = d) } }
        else
          let us := if (finalStatus x).1 = stOk || (finalStatus x).1 = stOkRerun then
              ((histBinds x.bytes).filter fun h => bits h.2.2 2 1 = 1).map (·.1) else []
          if us ≠ [] && x.flagGlobal && !x.histDone && (unsent m q d || linesOut m x) then m
          else if us ≠ [] && x.flagGlobal && !x.histDone && flushWaits m x then sendFlush q d x m
          else if us ≠ [] && !x.histDone && flushFailed m x then layerEnd q d (reach q d stHostLost m.hp.epoch m)
          else match histories c q d x us m with
          | (m, .ok _) => layerEnd q d m
          | (m, _) => m
      | _, _ => m

/-- POOL_SCATTER_DONE: the leaves take effect (R230). -/
def scatterDone (q d : Nat) (c : Cfg) (m : Mach) : Mach :=
  match descGet m q d with
  | none => m
  | some x =>
    match poolBind x.bytes with
    | none => m
    | some (p, _, _) =>
      if x.gather ≠ 5 then m
      else
        let b := poolEntry c m p
        let out := ((x.params.drop 64).filter meLeave).map meSlot
        let r := feThen m (feRead c q (qDom m q) (plLive b) (liveLen b) m) fun live m1 =>
          soWrite c q d [(0, plLive b, liveSet false out live)] m1
        match r with
        | (m, .wait) => m
        | (m, .failed) => descUpd q d (fun z => { z with gather := 6 }) (reach q d stPermission 0 m)
        | (m, .lost) => descUpd q d (fun z => { z with gather := 6 }) (reach q d stHostLost m.hp.epoch m)
        | (m, _) => descUpd q d (fun z => { z with gather := 6 }) m

/-! ### Timeout and runaway (R197, R219, R277, R301 to R303) -/

/-- When a descriptor's TIMEOUT runs out. -/
def timeoutAt (x : Desc) : Nat := (if x.isRun then x.presented else x.fetched) + x.timeout * 1000

/-- No member of the group runs out before this one (R277). -/
def firstOut (m : Mach) (q d : Nat) (x : Desc) : Bool :=
  (groupOf m q d).all fun p => (descGet m p.1 p.2).all fun y => timeoutAt x ≤ timeoutAt y

/-- An operation of the Sorting Office ends (R219). -/
def officeDrop (q d : Nat) (m : Mach) : Mach := { m with depot := { m.depot with ops := m.depot.ops.filter fun o => !(o.q = q && o.desc = d) } }

/-- Tile-commands of a group still to issue: TIMEOUT_DRAINED's DETAIL (R469). -/
def unissued (m : Mach) (g : List (Nat × Nat)) : Nat :=
  (g.map fun p => ((descGet m p.1 p.2).map fun z =>
    if z.phase = 3 || (p ≠ g.headD p && !z.alt) then 0 else totalOf z - z.next).getD 0).foldl (· + ·) 0

/-- QUEUE_TIMEOUT. -/
def queueTimeout (q d t : Nat) (m : Mach) : Mach :=
  let m := tickTo t m
  match descGet m q d with
  | none => m
  | some x =>
    if x.phase = 4 || x.timeout = 0 || m.now < timeoutAt x || (x.isRun && x.phase = 0) || !firstOut m q d x then m
    else if !x.isRun then
      complete q d (if x.timeoutAct then stTimeoutKilled else stTimeoutDrained) 0 (officeDrop q d m)
    else
      let g := groupOf m q d
      if x.timeoutAct then
        stopLayer q d stTimeoutKilled (m.cores.filter fun k => k.tc.any fun u => g.contains (u.q, u.desc)).length true (officeDrop q d m)
      else
        let n := unissued m g
        let m := stopLayer q d stTimeoutDrained n false (officeDrop q d m)
        let halted (u : TileCmd) : Bool := g.contains (u.q, u.desc) && m.cores.any fun k => k.halts != [] && k.tc == some u
        killTiles halted stTimeoutDrained n m

/-- RUNAWAY_LIMIT: twice the declared worst case, less the time left out. -/
def runaway (k t : Nat) (m : Mach) : Mach :=
  let m := settleTime k (tickTo t m)
  match (m.cores[k]?).bind (·.tc) with
  | none => m
  | some u => if 2 * u.wcet + u.halted ≤ m.now - u.issued then endTile k stRunaway k m else m

/-! ### FENCE and ENQUEUE-TARGET (R262) -/

/-- A descriptor that is not a RUN may begin (R257). -/
def mayBegin (m : Mach) (q d : Nat) (x : Desc) : Bool :=
  x.phase == 0 && !x.isRun && !x.so && depsMet m q d && (qGet m q).any goesOn

/-- FENCE_DESCRIPTOR. -/
def fenceDesc (q d : Nat) (m : Mach) : Mach :=
  match descGet m q d with
  | none => m
  | some x =>
    let w := leAt x.bytes 8 4
    if x.type ≠ 3 || !mayBegin m q d x then m
    else if w < 2 ^ 31 then complete q d stOk 0 m
    else match qGet m (w % 2 ^ 20) with
      | none => refuse q d stPermission 0 m
      | some y =>
        if y.ctx.dom ≠ qDom m q then refuse q d stPermission 0 m
        else if leAt x.bytes 0x10 8 ≤ y.jobs then complete q d stOk 0 m
        else m

/-- FORWARD breaks a check of R256, is extended, or is itself an ENQUEUE-TARGET. -/
def forwardBad (path : Nat) (f : List Byte) : Option Nat :=
  if leAt f 0 1 = 4 then some 0 else if leAt f 1 1 % 2 = 1 then some 1 else descBad path false f

/-- ENQUEUE_TARGET. -/
def enqTarget (q d : Nat) (c : Cfg) (m : Mach) : Mach :=
  match descGet m q d with
  | none => m
  | some x =>
    let r := leAt x.bytes 8 4
    let f := (x.bytes.drop 0x80).take 128
    if x.type ≠ 4 || !mayBegin m q d x then m
    else
      let m := if qDom m r = qDom m q then loadQueue c r m else m
      match forwardBad (((qGet m r).map fun y => y.ctx.path).getD 0) f with
      | some o => refuse q d stMalformed (0x80 + o) m
      | none =>
        if !targetOk m (qDom m q) r then refuse q d stPermission 0 m
        else match qGet m r with
          | none => m
          | some y =>
            if ringFree y < 1 then m
            else match publishOne c ⟨r, 0, 1, 0, 0, some f, false⟩ m with
              | (m, .ok _) => complete q d stOk 0 m
              | (m, .wait) => m
              | (m, .lost) => refuse q d stHostLost m.hp.epoch m
              | (m, _) => refuse q d stPermission 0 m

def execLayerPresent (q desc t : Nat) (s : State) : Host.Outcome State Fault Refusal := s.runM (layerPresent q desc t)
def execLayerAdmit (q desc : Nat) (s : State) : Host.Outcome State Fault Refusal := s.runM fun c => tryAdmit c q desc
def execCoalesceGroupClose (g t : Nat) (s : State) : Host.Outcome State Fault Refusal := s.runM fun _ => groupClose g t
def execTileCommandDrain (core t : Nat) (s : State) : Host.Outcome State Fault Refusal := s.runM fun _ => tileDrain core t
def execRerunStart (q desc : Nat) (s : State) : Host.Outcome State Fault Refusal := s.runM fun _ => rerunStart q desc
def execLayerComplete (q desc t : Nat) (s : State) : Host.Outcome State Fault Refusal := s.runM (layerComplete q desc t)
def execPoolScatterDone (q desc : Nat) (s : State) : Host.Outcome State Fault Refusal := s.runM (scatterDone q desc)
def execQueueTimeout (q desc t : Nat) (s : State) : Host.Outcome State Fault Refusal := s.runM fun _ => queueTimeout q desc t
def execRunawayLimit (core t : Nat) (s : State) : Host.Outcome State Fault Refusal := s.runM fun _ => runaway core t
def execFenceDescriptor (q desc : Nat) (s : State) : Host.Outcome State Fault Refusal := s.runM fun _ => fenceDesc q desc
def execEnqueueTarget (q desc : Nat) (s : State) : Host.Outcome State Fault Refusal := s.runM (enqTarget q desc)

end Sys2Proof.Machine
end

