-- ==== Sys2Proof/Machine/Office.lean ====
section
/-! DEFINITION. Operations of the Sorting Office from entry to end: COPY, GATHER/SCATTER, RESHARD, pool steps (R211 to R222, R230, R262). -/

namespace Sys2Proof.Machine

/-! ### Pool steps (R230) -/

/-- The pool's entry and the step's map. -/
def stepOf (c : Cfg) (m : Mach) (x : Desc) : List Byte × List Nat :=
  (((poolBind x.bytes).map fun p => poolEntry c m p.1).getD [], x.params.drop 64)

/-- Where a map entry's state lies in its slot, and where in the layer allocation. -/
def slotSpan (b : List Byte) (v : Nat) : Span := (0, plBase b + meSlot v * plBytes b, plBytes b)
def rowSpan (b : List Byte) (i : Nat) : Span := (3, 0xFFFF * 2 ^ 32 + i * plBytes b, plBytes b)

/-- What an entry is gathered from: its slot, SEED, or zeros. -/
def gatherFrom (b : List Byte) (v : Nat) : Option Span :=
  if !meJoin v then some (slotSpan b v) else if plSeed b = 0 then none else some (0, plSeed b, plBytes b)

def poolGather (c : Cfg) (q d : Nat) (x : Desc) (m : Mach) : Mach × Fe Plan :=
  let (b, map) := stepOf c m x
  feThen m (soReads c q d (map.map fun v => (gatherFrom b v).getD (0, 0, 0)) m) fun ls m =>
    let rows := (map.zip ls).map fun p => if (gatherFrom b p.1).isSome then p.2 else List.replicate (plBytes b) (0 : Byte)
    (m, .ok ⟨stOk, 0, rows.zipIdx.map fun r => (3, 0xFFFF * 2 ^ 32 + r.2 * plBytes b, r.1), 0, []⟩)

def poolScatter (c : Cfg) (q d : Nat) (x : Desc) (m : Mach) : Mach × Fe Plan :=
  let (b, map) := stepOf c m x
  feThen m (soReads c q d ((List.range map.length).map (rowSpan b)) m) fun ls m =>
    (m, .ok ⟨stOk, 0, (map.zip ls).map fun p => (0, plBase b + meSlot p.1 * plBytes b, p.2), 0, []⟩)

/-- Lines a pool step's gather, or its scatter into the slots, reads and writes (R218, R230). -/
def poolLines (c : Cfg) (m : Mach) (x : Desc) : Nat :=
  let (b, map) := stepOf c m x
  let slot (v : Nat) : Option Span := if x.gather = 1 then gatherFrom b v else some (slotSpan b v)
  (map.map fun v => ((slot v).map fun s => spanLines s.2.1 s.2.2).getD 0 + spanLines 0 (plBytes b)).foldl (· + ·) 0

/-! ### RESHARD across a cascade (R222; the exchange's form is a choice, log 44) -/

/-- Routes of the summaries and of the parts. -/
def rtSummary : Nat := 0x80
def rtParts : Nat := 0x81

/-- A send or receive binding of a queue with an engine. -/
def bindWith (m : Mach) (q e : Nat) (recv : Bool) : Option (Nat × Bind) :=
  m.casc.binds.find? fun b => b.2.recv == recv && b.2.q == q && b.2.engine == e

/-- The participants by index: this engine and those its send bindings name, ascending. -/
def rsEngines (c : Cfg) (m : Mach) (q : Nat) : List Nat :=
  (List.range 16).filter fun e => e == selfEngine c m || (bindWith m q e false).isSome

def rsIndex (x : Desc) : Nat := leAt x.bytes 0x28 1
def rsSelf (x : Desc) : RPiece := pieceAt x.bytes 0x30

/-- The summary: R, W, P, the mappings, the number. -/
def rsSummary (x : Desc) : List Byte :=
  toLe 8 (rsR x) ++ toLe 4 (rsW x) ++ toLe 1 (rsP x) ++ toLe 1 (rsSrc x) ++ toLe 1 (rsDst x) ++ toLe 1 0 ++ toLe 4 (leAt x.bytes 0x24 4)

/-- Pieces by participant: only this member's is known here. -/
def rsPieces (x : Desc) : List RPiece := lset (List.replicate (rsP x) ⟨0, 0, 0, 0, 0, 0⟩) (rsIndex x) (rsSelf x)

/-- Moves from a participant into another, in row order. -/
def movesFrom (x : Desc) (sp dp : Nat) : List Move := (movesOf x (rsPieces x) dp).filter (·.sp == sp)

/-- Bytes of moves. -/
def moveBytes (ms : List Move) : Nat := (ms.map fun v => v.src.2.2).foldl (· + ·) 0

/-- The other participants: index and engine. -/
def rsOthers (c : Cfg) (m : Mach) (q : Nat) (x : Desc) : List (Nat × Nat) :=
  ((rsEngines c m q).zipIdx.map fun p => (p.2, p.1)).filter fun p => p.1 ≠ rsIndex x

/-- This member's own moves: what it reads and what it writes. -/
def rsOut (x : Desc) : List Move := (List.range (rsP x)).flatMap fun p => movesFrom x (rsIndex x) p
def rsIn (x : Desc) : List Move := movesOf x (rsPieces x) (rsIndex x)

/-- Checks before the exchange. -/
def crossBad (c : Cfg) (m : Mach) (q d : Nat) (x : Desc) : Option (Nat × Nat) :=
  if pieceMal x.bytes 0x30 then some (stMalformed, 0x47)
  else if (rsEngines c m q).length ≠ rsP x || (rsEngines c m q)[rsIndex x]? ≠ some (selfEngine c m) || leAt x.bytes 0x20 4 ≠ m.casc.group
      || (rsOthers c m q x).any (fun p => (bindWith m q p.2 true).isNone) then some (stPermission, 0)
  else if reshardBad x 16 || pieceBad x (rsIndex x) (rsSelf x) then some (stParamRange, 0xFFFF)
  else spansBad m q d ((rsOut x).map (·.src) ++ (rsIn x).map Move.into)

/-- Lines this member reads and writes, and the time of its busiest link in ns. -/
def crossLines (x : Desc) : Nat :=
  ((rsOut x).map fun v => spanLines v.src.2.1 v.src.2.2).foldl (· + ·) 0 + ((rsIn x).map fun v => spanLines v.dst.2 v.src.2.2).foldl (· + ·) 0
def crossLink (c : Cfg) (m : Mach) (q : Nat) (x : Desc) : Nat :=
  let by' (recv : Bool) (port : Nat) : Nat :=
    ((rsOthers c m q x).map fun p => if (bindWith m q p.2 recv).any fun b => b.2.port == port then
      moveBytes (if recv then movesFrom x p.1 (rsIndex x) else movesFrom x (rsIndex x) p.1) else 0).foldl (· + ·) 0
  cdiv (((List.range 4).flatMap fun p => [by' true p, by' false p]).foldl max 0) 49

/-- DATA frames of a RESHARD to a member. -/
def crossSend (q d e route : Nat) (l : List Byte) (m : Mach) : Mach :=
  match bindWith m q e false with
  | none => m
  | some (_, b) =>
    match (m.links[b.port]?).bind fun k => k.peers.zipIdx.find? fun p => p.1.engine == some e with
    | none => m
    | some p =>
      (chunks 8192 l).foldl (fun m g => framePut b.port p.2
        { head := { type := 1, dst := e, src := 0xF, route := route, queue := b.remote, len := g.length }, data := g, q := q, desc := d
          cls := if (qGet m q).any (·.ctx.rt) then 1 else 2, deadline := m.now } m) m

/-- Bytes parked on a route from one member. -/
def parkedFrom (m : Mach) (q e route : Nat) : List Byte :=
  match bindWith m q e true with
  | none => []
  | some (i, _) => (((mget m.casc.parked (256 * q + route)).getD []).filter (·.bind = i)).flatMap (·.data)

/-- This member's frames have all been accepted. -/
def crossAcked (m : Mach) (q d : Nat) : Bool :=
  m.links.all fun l => l.peers.all fun p => (p.queue ++ p.unacked).all fun f => !(f.head.type == 1 && f.q == q && f.desc == d)

/-- Spread bytes over moves. -/
def fillMoves : List Move → List Byte → List SoW
  | [], _ => []
  | v :: r, l => (v.dst.1, v.dst.2, l.take v.src.2.2) :: fillMoves r (l.drop v.src.2.2)

/-! ### Entry (R209, R211, R217, R218, R262) -/

/-- A descriptor or pool step that waits to enter; real-time work waits out a partial tick (R23). -/
def wantsOffice (m : Mach) (q d : Nat) (x : Desc) : Bool :=
  !x.so && !((qGet m q).any (·.ctx.rt) && m.tick.partialTick) && (if x.isRun then ((x.gather = 1 && x.phase = 2 && !x.cancelled) || (x.gather = 4 && x.phase = 3)) && (qGet m q).any goesOn
    else (x.type = 2 || x.type = 5 || x.type = 6) && mayBegin m q d x)

/-- Whether an earlier one must enter first: those of real-time queues ahead, then the order of fetch (log 20). -/
def othersFirst (m : Mach) (q d : Nat) (x : Desc) : Bool :=
  let rt (r : Nat) : Bool := (qGet m r).any (·.ctx.rt)
  m.queues.any fun p => p.2.descs.any fun e => !(p.1 == q && e.1 == d) && wantsOffice m p.1 e.1 e.2 &&
    ((rt p.1 && !rt q) || (rt p.1 == rt q && (e.2.fetched < x.fetched || (e.2.fetched == x.fetched && (p.1 < q || (p.1 == q && e.1 < d))))))

/-- An operation of a RUN or of another descriptor cannot go on: it completes with a status (R218, R230). -/
def officeFail (q d st detail : Nat) (m : Mach) : Mach :=
  match descGet m q d with
  | none => m
  | some x =>
    let m := descUpd q d (fun z => { z with so := false }) m
    if !x.isRun then refuse q d st detail m
    else if x.phase = 3 then descUpd q d (fun z => { z with gather := 5 }) (reach q d st detail m)
    else stopLayer q d st detail false m

/-- Lines a descriptor's operation counts, or the status it completes with before it runs. -/
def officeBound (c : Cfg) (q d : Nat) (x : Desc) (m : Mach) : Mach × Fe ((Nat × Nat) ⊕ (Nat × Nat)) :=
  if x.isRun then (m, .ok (.inr (poolLines c m x, 0)))
  else if x.type = 2 then
    match copyBad m q d x with
    | some s => (m, .ok (.inl s))
    | none =>
      let s := copySpans x
      (m, .ok (.inr (((s.1 ++ s.2).map fun p => spanLines p.2.1 p.2.2).foldl (· + ·) 0, 0)))
  else if x.type = 6 then
    match gatherBad m q x with
    | some s => (m, .ok (.inl s))
    | none =>
      feThen m (readBags c q d x m) fun bs m =>
        match bs with
        | none => (m, .ok (.inl (stParamRange, 0xFFFF)))
        | some bs =>
          let ids := if (gsTable m x).any fun t => !rowsAligned t.bytes then
              soRead c q d (0, gsIds x + 4 * (idRange bs).1, 4 * ((idRange bs).2 - (idRange bs).1)) m else (m, .ok [])
          feThen m ids fun l m => (m, .ok (.inr (gatherLines m x bs (nums32 l), 0)))
  else if rsScope x = 1 then
    match crossBad c m q d x with
    | some s => (m, .ok (.inl s))
    | none => (m, .ok (.inr (crossLines x, crossLink c m q x)))
  else if reshardBad x 32 then (m, .ok (.inl (stParamRange, 0xFFFF)))
  else feThen m (readPieceTable c q d x m) fun l m =>
    let ps := piecesIn x l
    (m, .ok (match (List.range (rsP x)).find? fun p => pieceMal l (32 * p) with
      | some p => .inl (stMalformed, 32 * p)
      | none =>
        if ps.zipIdx.any fun p => pieceBad x p.2 p.1 then .inl (stParamRange, 0xFFFF)
        else match movesBad m q d (allMoves x l) with
          | some s => .inl s
          | none => .inr (spanLines (leAt x.bytes 0x18 8) (32 * rsP x) + moveLines (allMoves x l), 0)))

/-- The regions an operation names, by handle (R203). -/
def officeUses (x : Desc) (l : List Byte) : List Nat :=
  let of (s : Span) : List Nat := if s.1 = 3 then [bits s.2.1 32 16] else []
  let ms := if x.type ≠ 5 then [] else if rsScope x = 1 then rsOut x ++ rsIn x else allMoves x l
  ((if x.type = 2 then (copySpans x).1 ++ (copySpans x).2 else []) ++ ms.flatMap fun v => [v.src, (v.dst.1, v.dst.2, 0)]).flatMap of |>.eraseDups

/-- The operation begins. -/
def officeBegin (c : Cfg) (q d tns : Nat) (x : Desc) (m : Mach) : Mach :=
  let l := if x.type = 5 && rsScope x ≠ 1 then (match readPieceTable c q d x m with | (_, .ok l) => l | _ => []) else []
  let m := { m with depot := { m.depot with ops := m.depot.ops ++ [⟨q, d, m.now, tns, stOk, 0, officeUses x l⟩] } }
  let m := descUpd q d (fun z => { z with so := true, gather := if x.isRun && z.gather = 1 then 2 else z.gather }) m
  if x.type = 5 && rsScope x = 1 then
    (rsOthers c m q x).foldl (fun m p => crossSend q d p.2 rtSummary (rsSummary x) m) (descUpd q d (fun z => { z with gather := 1 }) m)
  else m

/-- SORTING_OFFICE_ENTRY. -/
def officeEntry (q d t : Nat) (c : Cfg) (m : Mach) : Mach :=
  let m := tickTo t m
  match descGet m q d with
  | none => m
  | some x =>
    if !wantsOffice m q d x || othersFirst m q d x || 16 ≤ m.depot.ops.length || m.power.fail ≠ 0 then m
    else match if x.isRun && x.phase = 2 then layerAlloc c q d m else some m with
      | none => m
      | some m =>
        match officeBound c q d x m with
        | (m, .ok (.inl s)) => officeFail q d s.1 s.2 m
        | (m, .ok (.inr (n, link))) =>
          let tns := 2000 + cdiv n 4 + link
          if (m.tick.cfg.period - m.tick.cfg.quiet) * 1000 < tns then
            officeFail q d stAdmissionRefused (((entryOf m q).map (·.1)).getD 0xFFFF) m
          else if m.tick.limit < m.now + tns then m
          else officeBegin c q d tns x m
        | (m, .failed) => officeFail q d stPermission 0 m
        | (m, .lost) => officeFail q d stHostLost m.hp.epoch m
        | (m, _) => m

/-! ### End (R212 to R216, R219, R222) -/

/-- What an operation reads, as a plan of its writes. -/
def officePlan (c : Cfg) (q d : Nat) (x : Desc) (m : Mach) : Mach × Fe Plan :=
  if x.isRun then (if x.gather = 2 then poolGather c q d x m else poolScatter c q d x m)
  else if x.type = 2 then copyPlan c q d x m
  else if x.type = 6 then gsPlan c q d x m
  else reshardPlan c q d x m

/-- A finished operation leaves; its descriptor completes, or its layer goes on. -/
def officeLeave (q d st detail : Nat) (m : Mach) : Mach :=
  match descGet m q d with
  | none => officeDrop q d m
  | some x =>
    let m := descUpd q d (fun z => { z with so := false }) (officeDrop q d m)
    if !x.isRun then complete q d st detail m
    else descUpd q d (fun z => { z with gather := if z.gather = 2 then 3 else 5 }) m

/-- Carry a plan out. -/
def officeWrite (c : Cfg) (q d : Nat) (r : Mach × Fe Plan) : Mach :=
  let stop (st detail : Nat) (m : Mach) : Mach := officeFail q d st detail (officeDrop q d m)
  match r with
  | (m, .ok p) =>
    match soWrite c q d p.writes m with
    | (m, .ok _) => officeLeave q d p.st p.detail { soLoose c q d p.loose m with draws := m.draws + p.draws }
    | (m, .failed) => stop stPermission 0 m
    | (m, .lost) => stop stHostLost m.hp.epoch m
    | (m, _) => m
  | (m, .failed) => stop stPermission 0 m
  | (m, .lost) => stop stHostLost m.hp.epoch m
  | (m, _) => m

/-- A RESHARD across the cascade: the summaries are compared and the outbound parts sent; then the inbound parts are written. -/
def crossStep (c : Cfg) (q d : Nat) (x : Desc) (m : Mach) : Mach :=
  let others := rsOthers c m q x
  if x.gather = 1 then
    if others.any fun p => (parkedFrom m q p.2 rtSummary).length < 20 then m
    else if others.any fun p => (parkedFrom m q p.2 rtSummary).take 20 ≠ rsSummary x then
      officeLeave q d stRemoteFault 0 (unpark q rtSummary (20 * others.length) m)
    else match soReads c q d ((others.flatMap fun p => movesFrom x (rsIndex x) p.1).map (·.src)) m with
      | (m, .ok ls) =>
        let m := unpark q rtSummary (20 * others.length) (descUpd q d (fun z => { z with gather := 2 }) m)
        let m := { m with depot := { m.depot with ops := m.depot.ops.map fun o => if o.q = q && o.desc = d then { o with start := m.now } else o } }
        (others.foldl (fun (s : List Byte × Mach) p =>
          let n := moveBytes (movesFrom x (rsIndex x) p.1)
          (s.1.drop n, crossSend q d p.2 rtParts (s.1.take n) s.2)) (ls.flatten, m)).2
      | (m, .failed) => officeFail q d stPermission 0 (officeDrop q d m)
      | (m, .lost) => officeFail q d stHostLost m.hp.epoch (officeDrop q d m)
      | (m, _) => m
  else
    let want (p : Nat × Nat) : Nat := moveBytes (movesFrom x p.1 (rsIndex x))
    if !crossAcked m q d || others.any fun p => (parkedFrom m q p.2 rtParts).length < want p then m
    else
      let own := movesFrom x (rsIndex x) (rsIndex x)
      let total := (others.map want).foldl (· + ·) 0
      let r := feThen m (soReads c q d (own.map (·.src)) m) fun ls m =>
        (m, Fe.ok (⟨stOk, 0, fillMoves own ls.flatten
          ++ others.flatMap fun p => fillMoves (movesFrom x p.1 (rsIndex x)) (parkedFrom m q p.2 rtParts), 0, []⟩ : Plan))
      let m' := officeWrite c q d r
      if m'.depot.ops.any (fun o => o.q == q && o.desc == d) then m' else unpark q rtParts total m'

/-- After a lost link the destination pieces of a RESHARD across the cascade hold unspecified bytes (R222). -/
def lostPieces (c : Cfg) (q d : Nat) (x : Desc) (st : Nat) (m : Mach) : Mach :=
  if x.type = 5 && rsScope x = 1 && st = stLinkLost then
    let n := moveBytes (rsIn x)
    (soWrite c q d (fillMoves (rsIn x) (freeBytes m n)) { m with draws := m.draws + n }).1
  else m

/-- SORTING_OFFICE_END. An operation whose queue was killed or whose link was lost only leaves (R219, R222). -/
def officeEnd (q d t : Nat) (c : Cfg) (m : Mach) : Mach :=
  let m := tickTo t m
  match m.depot.ops.find? (fun o => o.q == q && o.desc == d), descGet m q d with
  | some o, some x =>
    if o.status ≠ stOk then
      let m := lostPieces c q d x o.status (officeDrop q d m)
      if !x.isRun && x.phase < 3 then complete q d o.status o.detail m else m
    else if x.type = 5 && rsScope x = 1 && x.gather = 1 then crossStep c q d x m
    else if o.start + 2 * o.t ≤ m.now then m
    else if x.type = 5 && rsScope x = 1 then crossStep c q d x m
    else officeWrite c q d (officePlan c q d x m)
  | some _, none => officeDrop q d m
  | none, _ => m

/-- A RESHARD across the cascade still waits for a member to submit its own: it is held until its queue's timeout acts (R222). -/
def awaitsMember (m : Mach) (q d : Nat) : Bool := (descGet m q d).any fun x => x.type == 5 && rsScope x == 1 && x.gather == 1

/-- SORTING_OFFICE_RUNAWAY: still running at 2T, counted for a RESHARD across the cascade from when every member had submitted (R218, R222; log 44). -/
def officeRunaway (q d t : Nat) (m : Mach) : Mach :=
  let m := tickTo t m
  match m.depot.ops.find? fun o => o.q == q && o.desc == d with
  | some o => if o.status = stOk && !awaitsMember m q d && o.start + 2 * o.t ≤ m.now then officeFail q d stRunaway 0xFF (officeDrop q d m) else m
  | none => m

def execSortingOfficeEntry (q desc t : Nat) (s : State) : Host.Outcome State Fault Refusal := s.runM (officeEntry q desc t)
def execSortingOfficeEnd (q desc t : Nat) (s : State) : Host.Outcome State Fault Refusal := s.runM (officeEnd q desc t)
def execSortingOfficeRunaway (q desc t : Nat) (s : State) : Host.Outcome State Fault Refusal := s.runM fun _ => officeRunaway q desc t

end Sys2Proof.Machine
end

