-- ==== Sys2Proof/Machine/Parcels.lean ====
section
/-! DEFINITION. Parcels: binding, unbinding and the instruction cache (R153, R154, R160 to R173, R358, R359). -/

namespace Sys2Proof.Machine

/-! ### The header and the section table (R160 to R163) -/

/-- A section of a parcel: type, generation, offset in units, bytes, hash. -/
structure Section where
  type : Nat
  gen : Nat
  unit : Nat
  size : Nat
  hash : List Byte
  deriving DecidableEq, Repr

/-- A section's first byte. -/
def Section.start (s : Section) : Nat := 4096 * s.unit

/-- The header breaks its layout (R160, R161). -/
def parcelHeadBad (h : List Byte) : Bool :=
  leAt h 0 4 ≠ 0x43525059 || leAt h 4 2 ≠ 1 || leAt h 6 2 < 0x0100 || 0x0102 < leAt h 6 2
    || leAt h 8 4 < 0x1000 || 0x10000000 < leAt h 8 4 || leAt h 0xC 2 < 3 || 32 < leAt h 0xC 2 || 2 ≤ leAt h 0xE 2
    || nonZero h 0x28 8 || nonZero h 0x120 224

/-- The entries of a section table. -/
def sectionsOf (t : List Byte) : List Section :=
  (List.range (t.length / 64)).map fun i =>
    ⟨leAt t (64 * i) 2, leAt t (64 * i + 2) 1, leAt t (64 * i + 4) 4, leAt t (64 * i + 8) 4, (t.drop (64 * i + 0x10)).take 48⟩

/-- The sections of a type. -/
def ofType (l : List Section) (t : Nat) : List Section := l.filter (·.type == t)

/-- The section table breaks its layout or the rules of a parcel (R162, R163). `total` is TOTAL_SIZE, `franked` FLAGS bit 0.
DESIGN CHOICE (log 40): a franked parcel has one KEYS and one FRANK section; R163 says "a" of each and names no count. -/
def tableBad (total : Nat) (franked : Bool) (t : List Byte) : Bool :=
  let l := sectionsOf t
  let gens (n : Nat) := (ofType l n).map (·.gen)
  let clash := l.zipIdx.any fun p => l.zipIdx.any fun r =>
    p.2 < r.2 && p.1.size ≠ 0 && r.1.size ≠ 0 && overlap p.1.start p.1.size r.1.start r.1.size
  ((List.range l.length).any fun i => leAt t (64 * i + 3) 1 ≠ 0 || leAt t (64 * i + 0xC) 4 ≠ 0)
    || (l.any fun s => s.type = 0 || 7 < s.type || s.unit = 0 || total < s.start + s.size
        || (if s.type = 2 || s.type = 4 then s.gen = 0 else s.gen ≠ 0))
    || clash || (ofType l 1).length ≠ 1 || (ofType l 3).length ≠ 1 || (ofType l 2).length = 0 || 8 < (ofType l 2).length
    || (gens 2).eraseDups.length ≠ (gens 2).length || (ofType l 4).length ≠ (ofType l 2).length
    || (gens 2).any (fun g => !(gens 4).contains g) || (gens 4).any (fun g => !(gens 2).contains g)
    || 1 < (ofType l 7).length || (ofType l 5).length ≠ (if franked then 1 else 0) || (ofType l 6).length ≠ (if franked then 1 else 0)

/-! ### KEYS and FRANK (R358, R359) -/

/-- The KEYS section breaks its layout (R358). -/
def keysBad (b : List Byte) : Bool :=
  let n := leAt b 0 2
  n = 0 || 64 < n || b.length % 4096 ≠ 0 || b.length < 0x80 + 96 * n || leAt b 2 2 ≠ 0 || leAt b 4 4 ≠ 1 || nonZero b 0x14 12
    || ((List.range n).any fun i => leAt b (0x80 + 96 * i + 0x34) 4 ≠ 0) || !allZero (b.drop (0x80 + 96 * n))

/-- The FRANK section as plaintext, or the status its keys refuse it with. -/
def unfrank (m : Mach) (parcelId keys frank : List Byte) : Except Nat (List Byte) :=
  if keysBad keys then .error stMalformed
  else
    let id := engineId m m.boot.epoch
    let es := (List.range (leAt keys 0 2)).map fun i => (keys.drop (0x80 + 96 * i)).take 96
    match es.find? fun e => e.take 48 == id && leAt e 0x30 4 == m.boot.epoch with
    | none => .error stPermission
    | some e =>
      let kek (z : List Byte) : List Byte := kdf z "TRB-FRANK" (parcelId ++ id ++ toLe 4 m.boot.epoch) 32
      match (ecdh (enrolPriv m m.boot.epoch) (leAt keys 0x20 48) (leAt keys 0x50 48)).bind fun z => kwUnwrap (kek z) (e.drop 0x38) with
      | none => .error stParcelTamper
      | some k => .ok (aesCtr k ((keys.drop 8).take 12) frank)

/-! ### RESOURCE (R166 to R168) -/

/-- More fields of a layer record (R166). -/
def lrScratch (r : List Byte) : Nat := leAt r 0x14 4
def lrEntry (r : List Byte) : Nat := leAt r 0x20 4
def lrAltEntry (r : List Byte) : Nat := leAt r 0x24 4
def lrLines (r : List Byte) : Nat := leAt r 0x30 4

/-- The layer records and the dependency list of a RESOURCE section. -/
def resRecords (b : List Byte) : List (List Byte) := (List.range (leAt b 0 4)).map fun i => (b.drop (0x40 + 64 * i)).take 64
def resDeps (b : List Byte) : List Nat := (List.range (leAt b 4 4)).map fun i => leAt b (0x40 + 64 * leAt b 0 4 + 4 * i) 4

/-- One record's structure fails R168; `i` is its position and `entries` the size of the layer entry table.
DESIGN CHOICE (log 40): a record that is not re-runnable and whose RERUN_WCET, RERUN_TILES or ALT_ENTRY is not 0 binds; R168's list names no such
condition. -/
def recordBad (i entries : Nat) (deps : List Nat) (r : List Byte) : Bool :=
  leAt r 0 4 ≠ i || nonZero r 0x34 12 || lrTiles r = 0 || 65536 < lrTiles r || lrWcet r = 0 || 65536 < lrRerunTiles r
    || lrGang r = 1 || 32 < lrGang r || 64 < lrDepCount r || 64 < lrParams r || 16 ≤ lrFlags r
    || (lrRing r && lrGang r = 0) || deps.length < lrDepFirst r + lrDepCount r
    || (!lrListed r && (lrDepFirst r ≠ 0 || lrDepCount r ≠ 0))
    || (((deps.drop (lrDepFirst r)).take (lrDepCount r)).any fun n => i ≤ n)
    || entries ≤ lrEntry r || (lrRerun r && entries ≤ lrAltEntry r)

/-- The RESOURCE section's structure fails R168. -/
def resourceBad (entries : Nat) (b : List Byte) : Bool :=
  let n := leAt b 0 4
  let d := leAt b 4 4
  b.length < 0x40 || n = 0 || 65536 < n || 4194304 < d || nonZero b 8 56 || b.length < 0x40 + 64 * n + 4 * d
    || !allZero (b.drop (0x40 + 64 * n + 4 * d))
    || (resRecords b).zipIdx.any fun p => recordBad p.2 entries (resDeps b) p.1

/-- The limits of R149 and R167, for N enabled cores and a Depot share limit in units. -/
def resourceOver (cores limit : Nat) (b : List Byte) : Bool :=
  let rs := resRecords b
  (rs.any fun r => 1000000 < lrWcet r || 1000000 < lrRerunWcet r || lrWcet r < 600 * lrLines r || 0x600000 < lrScratch r
      || cores < lrGang r || 65536 * limit < lrDepot r || lrDepot r < ringTotal r
      || (lrRerun r != (lrRerunWcet r ≠ 0 && lrRerunTiles r ≠ 0 && lrAltEntry r ≠ 0)))
    || 65536 * limit < ((rs.filter fun r => lrGang r ≠ 0).map lrDepot).foldl (· + ·) 0

/-! ### The copy (R169 to R171) -/

/-- The device ranges of a destination when it lies wholly in sealed granules of the domain that it may write (R169, R310). -/
def destSpans (c : Cfg) (m : Mach) (d va n : Nat) : Option (List (Nat × Nat)) :=
  if 2 ^ 52 < va + n then none
  else (List.range ((va + n - 1) / 2 ^ 25 + 1 - va / 2 ^ 25)).mapM fun i =>
    let a := if i = 0 then va else (va / 2 ^ 25 + i) * 2 ^ 25
    let k := min (va + n) ((va / 2 ^ 25 + i + 1) * 2 ^ 25) - a
    match translateNow c m d a .write with
    | .dev p => if (mget m.mem.granules (granOf p)).any fun g => g.dom == d && g.sealed then some (p, k) else none
    | _ => none

/-- The parts of a range of a destination as device ranges. -/
def spanParts : List (Nat × Nat) → Nat → Nat → List (Nat × Nat)
  | [], _, _ => []
  | (a, k) :: r, off, n =>
    if k ≤ off then spanParts r (off - k) n
    else if n = 0 then []
    else (a + off, min n (k - off)) :: spanParts r 0 (n - (k - off))

/-- Write bytes at an offset of a destination; its lines get valid tags. -/
def spanPut (ss : List (Nat × Nat)) (off : Nat) (l : List Byte) (m : Mach) : Mach :=
  (spanParts ss off l.length).foldl (fun (x : Mach × List Byte) s =>
    let m := backInval s.1 s.2 false x.1
    ({ m with mem := { m.mem with cells := bwrite m.mem.cells s.1 (x.2.take s.2)
                                  bad := mfilter (fun b _ => !overlap (64 * b) 64 s.1 s.2) m.mem.bad } }, x.2.drop s.2)) (m, l) |>.1

/-- One piece of the source within a 4 KiB page: its bytes, or the status that refuses the bind. DESIGN CHOICE (log 40): a source that does not
translate, is another's, fails its tag or its page request or lies in a lost host answers the status a queue's access would meet (R320, R338). -/
def bindPart (c : Cfg) (d va n : Nat) (m : Mach) : Mach × Fe (Except Nat (List Byte)) :=
  match translate c m none d va .read with
  | .fault st l => (if st = stIntegrity then post c evIntegrityFail [l, 0] m else m, .ok (.error st))
  | .held a => (walkWaits a m, .wait)
  | .dev a =>
    match readChk m.mem d a n with
    | .perm => (m, .ok (.error stPermission))
    | .integrity p => (post c evIntegrityFail [p, d] m, .ok (.error stIntegrity))
    | .ok =>
      let m := backInval a n true (xlateFill c none d va m)
      if hostHolds m a n ≠ [] then (m, .wait) else (m, .ok (.ok (bread m.mem.cells a n)))
  | .host p a cacheable =>
    match hostLook noQueue va p a false none m with
    | (m, .ready phys) =>
      match feHostBytes 32 noQueue d cacheable phys va n m with
      | (m, .ok l) => (m, .ok (.ok l))
      | (m, .failed) => (m, .ok (.error stPermission))
      | (m, _) => (m, .wait)
    | (m, .wait) => (m, .wait)
    | (m, .failed) => (m, .ok (.error stPermission))
    | (m, .lost) => (m, .ok (.error stHostLost))

/-- A range of the source, page by page; `fuel` pages remain. -/
def bindRead (c : Cfg) (d : Nat) : Nat → Nat → Nat → Mach → Mach × Fe (Except Nat (List Byte))
  | 0, _, _, m => (m, .ok (.ok []))
  | fuel + 1, va, n, m =>
    if n = 0 then (m, .ok (.ok []))
    else
      let k := min n (4096 - va % 4096)
      feThen m (bindPart c d va k m) fun r m1 =>
        match r with
        | .error st => (m1, .ok (.error st))
        | .ok l =>
          match bindRead c d fuel (va + k) (n - k) m1 with
          | (m2, .ok (.ok t)) => (m2, .ok (.ok (l ++ t)))
          | x => x

/-- Each section's bytes, in the order of the table. -/
def bindSections (c : Cfg) (d src : Nat) : List Section → Mach → Mach × Fe (Except Nat (List (List Byte)))
  | [], m => (m, .ok (.ok []))
  | s :: r, m =>
    feThen m (bindRead c d (s.size / 4096 + 2) (src + s.start) s.size m) fun x m1 =>
      match x with
      | .error st => (m1, .ok (.error st))
      | .ok l =>
        match bindSections c d src r m1 with
        | (m2, .ok (.ok t)) => (m2, .ok (.ok (l :: t)))
        | y => y

/-- A read of the source that refuses the bind ends it; one that waits leaves it under way. -/
def bindThen {α β : Type} (m0 : Mach) (r : Mach × Fe (Except Nat α)) (f : α → Mach → Mach × Fe (Except Nat β)) :
    Mach × Fe (Except Nat β) :=
  feThen m0 r fun x m => match x with
    | .error st => (m, .ok (.error st))
    | .ok v => f v m

/-- What a verified parcel gives: its pieces by offset, and the record kept of it. -/
structure Bound where
  parts : List (Nat × List Byte)
  total : Nat
  id : List Byte
  records : List (List Byte)
  deps : List Nat

/-- Steps 2 to 4 of R169, the sections' bytes read. -/
def bindJudge (m : Mach) (d : Nat) (h t : List Byte) (ss : List Section) (bs : List (List Byte)) : Except Nat Bound :=
  let sb := ss.zip bs
  let of (ty g : Nat) : List Byte := ((sb.find? fun p => p.1.type == ty && p.1.gen == g).map (·.2)).getD []
  if sb.any fun p => sha384 p.2 ≠ p.1.hash then .error stParcelTamper
  else
    let pid := (h.drop 0x10).take 16
    match (if leAt h 0xE 2 = 1 then unfrank m pid (of 5 0) (of 6 0) else .ok []) with
    | .error st => .error st
    | .ok plain =>
      if !ss.any (fun s => s.type == 2 && s.gen == 1) then .error stBindResources
      else if resourceBad (Config.finalEntries (of 2 1)) (of 4 1) || Config.rolesBad (of 2 1) then .error stMalformed
      else if resourceOver m.cores.length (domE m d).depotLimit (of 4 1) then .error stBindResources
      else .ok ⟨(0, h ++ t) :: sb.map fun p => (p.1.start, if p.1.type = 6 then plain else p.2), leAt h 8 4, pid,
                resRecords (of 4 1), resDeps (of 4 1)⟩

/-- The whole verification of a parcel (R169). -/
def bindCheck (c : Cfg) (d src n : Nat) (m : Mach) : Mach × Fe (Except Nat Bound) :=
  bindThen m (bindRead c d 3 src 512 m) fun h m1 =>
    if parcelHeadBad h then (m1, .ok (.error stMalformed))
    else bindThen m1 (bindRead c d 3 (src + 512) (64 * leAt h 0xC 2) m1) fun t m2 =>
      let total := leAt h 8 4
      if tableBad total (leAt h 0xE 2 == 1) t then (m2, .ok (.error stMalformed))
      else if n < total then (m2, .ok (.error stBindResources))
      else
        let key := (h.drop 0x30).take 96
        if sha384 t ≠ (h.drop 0x90).take 48 || !sigOk key (sha384 (h.take 0xC0)) ((h.drop 0xC0).take 96)
            || !(domE m d).owners.contains (some (leNat (sha384 key))) then
          (m2, .ok (.error stParcelTamper))
        else bindThen m2 (bindSections c d src (sectionsOf t) m2) fun bs m3 => (m3, .ok (bindJudge m3 d h t (sectionsOf t) bs))

/-! ### BIND and UNBIND -/

/-- Binds under way. -/
def bindsBusy (m : Mach) : Nat := (m.rings.cmds.filter fun p => p.2.opcode == 0x300 && p.2.phase == 1).length

/-- The destination of a BIND is not the domain's to bind in, or not free (R169). -/
def bindDestBad (c : Cfg) (m : Mach) (k : Cmd) : Bool :=
  match destSpans c m k.dom (k.argN 0x20 8) (k.argN 0x28 8) with
  | none => true
  | some ss => ss.any fun s => inImage m s.1 s.2 || bindBusy m s.1 s.2

/-- The destination is too short, or every handle is taken; a handle is kept for each bind under way (R169). -/
def bindRoomBad (m : Mach) (k : Cmd) : Bool := k.argN 0x28 8 < 0x1000 || 65536 ≤ m.parcels.length + bindsBusy m

/-- The checks of R169 before the source is read; only when they pass is a source address beyond 52 bits PARAM_RANGE (R304). -/
def bindRowChecks (c : Cfg) (m : Mach) (k : Cmd) : List (Bool × Nat) :=
  [(bindDestBad c m k, stPermission), (bindRoomBad m k, stBindResources),
   (!bindDestBad c m k && !bindRoomBad m k && 2 ^ 52 ≤ k.argN 0x18 8, stParamRange)]

def bind (id : Nat) : Cfg → Mach → Mach :=
  cmdRow 0x300 id (fun _ => 0) bindRowChecks fun c k m =>
    let ss := (destSpans c m k.dom (k.argN 0x20 8) (k.argN 0x28 8)).getD []
    let m := underWay id k.dom m
    { m with rings := { m.rings with cmds := mupd m.rings.cmds id fun y =>
        { y with areaBytes := ss.flatMap fun s => toLe 8 s.1 ++ toLe 8 s.2 } } }

/-- The first handle at or after the pointer that is not bound (R169). -/
def handleFrom (m : Mach) : Nat :=
  let h := mfree m.parcels m.parcelNext
  if h < 65536 then h else mfree m.parcels 0

/-- BIND_COMPLETE: the source is read once, verified and bound, or the destination is left zeroed. -/
def bindComplete (id : Nat) : Cfg → Mach → Mach :=
  fun c => withCmd2 0x300 id fun k m =>
    let ss := bindSpans k
    match bindCheck c k.dom (k.argN 0x18 8) (k.argN 0x28 8) m with
    | (m, .ok (.ok b)) =>
      let m := b.parts.foldl (fun m p => spanPut ss p.1 p.2 m) m
      let h := handleFrom m
      let p : Parcel := ⟨k.dom, k.argN 0x20 8, k.argN 0x28 8, ss, b.records, b.deps, b.id, false, b.records.map (Config.windows b.id)⟩
      respond c id stOk (toLe 4 h ++ toLe 4 b.total ++ b.id)
        { m with parcels := mset m.parcels h p, parcelNext := (h + 1) % 65536 }
    | (m, .ok (.error st)) => respond c id st [] (spanZero ss m)
    | (m, _) => m

/-- The checks of unbind; one whose parcel an earlier UNBIND freed while it waited passes (`arg` is 1). -/
def unbindChecks : Cfg → Mach → Cmd → List (Bool × Nat) :=
  fun _ m k => [(k.arg ≠ 1 && (mget m.parcels (k.argN 0x18 2)).all fun p => p.dom ≠ k.dom, stPermission)]

/-- UNBIND: issue stops at once, and the queues bound to the parcel begin to pause; one that waited for another of the same parcel has no further
effect (R173). -/
def unbind (id : Nat) : Cfg → Mach → Mach :=
  cmdRow 0x301 id (fun _ => 0)
    unbindChecks
    fun c k m =>
      let h := k.argN 0x18 2
      let live (x : Queue) : Bool := x.ctx.bound && !x.orphan && x.ctx.parcel == h && x.ctx.state ≤ qsRunning
      if k.arg = 1 then respond c id stOk [] m
      else underWay id h { m with
        parcels := mupd m.parcels h fun p => { p with unbinding := true }
        queues := mmap (fun _ x => if live x then { x with pausing := true } else x) m.queues }

/-- A core runs a tile-command of a parcel. -/
def parcelRuns (m : Mach) (h : Nat) : Bool :=
  m.cores.any fun k => k.tc.any fun t => (descGet m t.q t.desc).any fun x => x.parcel == h

/-- UNBIND_DONE: the handle is free; an UNBIND of the same parcel that has waited is answered OK, now or when its turn comes (R173). -/
def unbindDone (id : Nat) : Cfg → Mach → Mach :=
  fun c => withCmd2 0x301 id fun k m =>
    let h := k.argN 0x18 2
    if parcelRuns m h then m
    else
      let m := respond c id stOk [] (dropParcel h m)
      let same := m.rings.cmds.filter fun p => p.2.opcode == 0x301 && p.2.phase == 0 && p.2.argN 0x18 2 == h && p.2.dom == k.dom && !argsBad p.2
      let m := { m with rings := { m.rings with cmds := mmap (fun i y => if same.any (·.1 == i) then { y with arg := 1 } else y) m.rings.cmds } }
      same.foldl (fun m p => if cmdReady m p.2 then respond c p.1 stOk [] m else m) m

/-! ### The instruction cache (R153, R154) -/

/-- A line arrives: it becomes the latest used of 2,048, or its parcel's queues are killed with PARCEL_TAMPER. `a` is the
virtual address of a line of the image that the core's tile-command runs. -/
def icacheFill (k a : Nat) (c : Cfg) (m : Mach) : Mach :=
  match (m.cores[k]?).bind (·.tc) with
  | none => m
  | some t =>
    match (descGet m t.q t.desc).bind fun x => (mget m.parcels x.parcel).map fun p => (x.parcel, p) with
    | none => m
    | some (h, p) =>
      let va := a / 128 * 128
      let d := qDom m t.q
      if va < p.va || p.va + p.size ≤ va then m
      else if (m.cores[k]?).any fun x => x.icache.contains (va, d) then
        { m with cores := lupd m.cores k fun x => { x with icache := lruPut 2048 (va, d) x.icache } }
      else
        let m := { m with cores := lupd m.cores k fun x =>
          { x with regs := { x.regs with icacheMisses := (x.regs.icacheMisses + 1) % 2 ^ 64 } } }
        match translate c m (some k) d va .fetch with
        | .fault st l => faultQueue c t.q st l va m
        | .held a => walkWaits a m
        | .host _ _ _ => faultQueue c t.q stPermission 0 va m
        | .dev q =>
          let m := xlateFill c (some k) d va m
          match readChk m.mem d q 128 with
          | .perm => faultQueue c t.q stPermission 0 va m
          | .integrity x =>
            let qs := (m.queues.filter fun y => y.2.ctx.bound && !y.2.orphan && y.2.ctx.parcel == h && y.2.ctx.dom == p.dom).map (·.1)
            post c evIntegrityFail [x, d] ((t.q :: qs.filter (· ≠ t.q)).foldl (fun m y => killOne y stParcelTamper h m) m)
          | .ok =>
            let m := backInval q 128 true m
            if hostHolds m q 128 ≠ [] then m
            else { m with cores := lupd m.cores k fun x => { x with icache := lruPut 2048 (va, d) x.icache } }

def execBind (id : Nat) (s : State) : Host.Outcome State Fault Refusal := s.runM (bind id)
def execBindComplete (id : Nat) (s : State) : Host.Outcome State Fault Refusal := s.runM (bindComplete id)
def execUnbind (id : Nat) (s : State) : Host.Outcome State Fault Refusal := s.runM (unbind id)
def execUnbindDone (id : Nat) (s : State) : Host.Outcome State Fault Refusal := s.runM (unbindDone id)
def execIcacheFill (core addr : Nat) (s : State) : Host.Outcome State Fault Refusal := s.runM (icacheFill core addr)

end Sys2Proof.Machine
end

