-- ==== Sys2Proof/Machine/Ports.lean ====
section
/-! DEFINITION. Arbitration points and memory ports (R12, R181 to R188, R199, R352, R430 to R437). -/

namespace Sys2Proof.Machine

/-- Tags in use on a port. -/
def tagsOn (m : Mach) (p : Nat) : Nat := (m.arb.tags.filter fun t => t.1 / 1024 == p).length

/-- The cycles of mp_clk, two a nanosecond, of a port's requests within the last 16, in order (R430, R437). -/
def recentOn (m : Mach) (p : Nat) : List Nat := (m.ports.recent.filter fun r => r.1 == p && 2 * m.now < r.2 + 16).map (·.2)

/-- The cycle a port's next request takes: one a cycle, and at most the port's share in 16 (R430, R437). -/
def nextCycle (now share : Nat) (l : List Nat) : Nat :=
  max (2 * now) (max (match l.getLast? with | some t => t + 1 | none => 0) (if l.length < share then 0 else l.getD (l.length - share) 0 + 16))

/-- The cycles after `n` more requests. -/
def takeCycles (now share : Nat) : Nat → List Nat → List Nat
  | 0, l => l
  | n + 1, l => takeCycles now share n (l ++ [nextCycle now share l])

/-- A partial write of a line is under way on a port (R182). -/
def rmwOn (m : Mach) (p line : Nat) : Bool := m.arb.tags.any fun t => t.1 / 1024 == p && t.2.write && t.2.rmw && t.2.addr / 64 == line

/-- The lines a write covers. -/
def writeLines (r : Req) : List Nat := (List.range r.lines).map (r.addr / 64 + ·)

/-- A request may be granted now: at a memory port its tags, its share, and no read-modify-write of a line it writes, which would store older
bytes behind it (R12, R182, R437). -/
def grantable (c : Cfg) (m : Mach) (r : Req) : Bool :=
  if atPort r.point then
    let p := r.point - 32
    m.ports.failed.contains p
      || (tagsOn m p + r.lines ≤ 1024 && (recentOn m p).length < c.mpShare.getD p 16 && !(r.write && (writeLines r).any (rmwOn m p)))
  else true

/-- A request comes before another at its point (R185, R187). -/
def reqBefore (ptr : Nat) (a b : Req) : Bool :=
  a.deadline < b.deadline || (a.deadline == b.deadline &&
    (if a.who = b.who then unitRank a.unit < unitRank b.unit else (a.who + 36 - ptr) % 36 < (b.who + 36 - ptr) % 36))

/-- The request a point grants. -/
def pick (ptr : Nat) : List Req → Option Req
  | [] => none
  | r :: l => match pick ptr l with
    | none => some r
    | some b => some (if reqBefore ptr b r then b else r)

/-- Free tags of a port, the lowest first. -/
def freeTags (m : Mach) (p n : Nat) : List Nat := ((List.range 1024).filter fun t => !mhas m.arb.tags (1024 * p + t)).take n

/-- Bytes a granted write brings to device memory: the port has accepted them (R182). A line written whole gets a valid tag. A line that has
become part of a bound image is not written, and the layer of the core's tile-command ends with PERMISSION (R172). -/
def storeLine (c : Cfg) (r : Req) (m : Mach) : Mach :=
  if r.data = [] then m
  else if inImage m r.addr r.data.length then (if (m.cores[r.who]?).any fun k => k.tc.any fun t => t.q == r.q then endTile r.who stPermission (r.va.getD 0) m else m)
  else if r.data.length = 64 then rewritten c (r.addr / 64) (engPut r.addr r.data m) else engPut r.addr r.data m

/-- A failed read of a line, by who asked for it: the host port's is reported, any other kills its queue's context (R329, R352, R434). -/
def readFailed (c : Cfg) (r : Req) (m : Mach) : Mach :=
  if r.who = 34 then hostReadBad c (r.addr / 64 * 64) r.dom m else integrityKill c r.q (r.addr / 64 * 64) m

/-- A failed write (R434). -/
def writeFailed (c : Cfg) (p : Nat) (r : Req) (m : Mach) : Mach :=
  post c evMemoryPortError [p, r.addr / 64 * 64] (if r.who = 34 then m else killCtx r.q stIntegrity (r.addr / 64 * 64) m)

/-- A line of a granted request is done: a write's credit returns; a read's line, where the segment wants bytes of it, has come back (R183). -/
def lineEnd (r : Req) (m : Mach) : Mach :=
  if r.write then creditGive r.who r.unit 1 m else lineBack { r with lines := if r.n = 0 then 0 else 1 } m

/-- A line's response (R182, R352, R434): the read of a partial write is followed by its write; otherwise the tag is free again, the unit's
credit returns, segments that waited for it issue, and an error or a failed tag ends what asked. -/
def answer (c : Cfg) (p tag : Nat) (err tagOk : Bool) (m : Mach) : Mach :=
  match mget m.arb.tags (1024 * p + tag) with
  | none => m
  | some r =>
    if r.write && r.rmw && !err && tagOk then
      let m := { m with arb := { m.arb with tags := mset m.arb.tags (1024 * p + tag) { r with rmw := false } } }
      let m := storeLine c r m
      send (.portReq p (r.addr / 64 * 64) 1 true (wireLine m (r.addr / 64 * 64))) m
    else
      let m := pump (lineEnd r { m with arb := { m.arb with tags := mdel m.arb.tags (1024 * p + tag) } })
      if r.write && !r.rmw then
        if err then writeFailed c p r m else m
      else if err || !tagOk then readFailed c r m
      else m

/-- MEMORY_PORT_RESPONSE: an error response is counted (R460); a frozen block ignores it (R436), and a port being flushed gives none. -/
def portResponse (port tag : Nat) (err tagOk : Bool) (c : Cfg) (m : Mach) : Mach :=
  if 16 ≤ port || 1024 ≤ tag || m.ports.flush.contains port || !mhas m.arb.tags (1024 * port + tag) then m
  else answer c port tag err tagOk
    (if err then { m with ports := { m.ports with err := mset m.ports.err port (satInc 32 ((mget m.ports.err port).getD 0)) } } else m)

/-- The part of a request in line number `i` of it: the line of a write with its bytes, or a line of the aligned block of a read. -/
def linePart (r : Req) (i : Nat) : Req :=
  if r.write then
    let a := max r.addr ((r.addr / 64 + i) * 64)
    let n := min (r.addr + r.n) ((r.addr / 64 + i + 1) * 64) - a
    { r with addr := a, n := n, lines := 1, data := (r.data.drop (a - r.addr)).take n, rmw := n ≠ 64 }
  else
    let b := r.addr / 256 * 256 + 64 * i
    { r with addr := b, n := min (r.addr + r.n) (b + 64) - max r.addr b, lines := 1 }

/-- One line of a granted request takes a tag; the bytes of a whole line are stored. -/
def takeTag (c : Cfg) (p : Nat) (r : Req) (m : Mach) (t : Nat × Nat) : Mach :=
  let l := linePart r t.2
  let m := { m with arb := { m.arb with tags := mset m.arb.tags (1024 * p + t.1) l } }
  let w := l.write && !l.rmw
  let m := if w && !m.ports.failed.contains p then storeLine c l m else m
  send (.portReq p (l.addr / 64 * 64) 1 w (if w then wireLine m (l.addr / 64 * 64) else [])) m

/-- A granted memory request takes a tag for each line; a line written in part is read first; at a failed port each is answered with an
error at once (R182, R430, R434). -/
def portGrant (c : Cfg) (r : Req) (m : Mach) : Mach :=
  let p := r.point - 32
  let ts := freeTags m p r.lines
  let m := ts.zipIdx.foldl (takeTag c p r) { m with ports := { m.ports with
    recent := (m.ports.recent.filter fun x => x.1 ≠ p && 2 * m.now < x.2 + 16)
      ++ (takeCycles m.now (c.mpShare.getD p 16) r.lines (recentOn m p)).map fun t => (p, t) } }
  if m.ports.failed.contains p then ts.foldl (fun m t => answer c p t true true m) m else m

/-- A Depot bank has accepted a request: bytes of a write are in the region, as the last accepted (R204); a write's credits return, a read's
lines have come back. -/
def bankTake (r : Req) (m : Mach) : Mach :=
  let put (x : Region) : Region := { x with data := bwrite x.data r.addr r.data }
  let m := match r.depot with
    | some (true, k) => { m with depot := { m.depot with layers := mupd m.depot.layers k put } }
    | some (false, h) => { m with depot := { m.depot with regions := mupd m.depot.regions h put } }
    | none => m
  if r.write then creditGive r.who r.unit r.cover m else lineBack { r with lines := r.cover } m

/-- A request that no memory port serves passes to the next point of its path, or is done. The credits of post-line blocks and of frames return
when the consumer's ring or the peer has accepted them (R183, R185, R191). -/
def passOn (r : Req) (m : Mach) : Mach :=
  match r.path with
  | p :: rest => pump (stand { r with point := p, path := rest } m)
  | [] => pump (if r.point < 32 then bankTake r m else m)

/-- SEGMENT_GRANT: the earliest deadline among the requests that may go; a tie between requesters moves the pointer. -/
def segmentGrant (point t : Nat) (c : Cfg) (m : Mach) : Mach :=
  let m := tickTo t m
  let ptr := (mget m.arb.ptr point).getD 0
  let here := m.arb.waiting.filter fun r => r.point == point && grantable c m r
  match pick ptr here with
  | none => m
  | some r =>
    let tie := here.any fun x => x.deadline == r.deadline && x.who != r.who
    let m := { m with arb := { m.arb with
      waiting := m.arb.waiting.erase r
      ptr := if tie then mset m.arb.ptr point ((r.who + 1) % 36) else m.arb.ptr
      recent := ((point, m.now) :: m.arb.recent).take 96 } }
    if atPort point then portGrant c r m else passOn r m

/-- MP_READY_FALL: MEMORY_PORT_ERROR, and every request outstanding on the port is answered with an error (R434). -/
def readyFall (port : Nat) (c : Cfg) (m : Mach) : Mach :=
  let m := mpReadyFall c port m
  (m.arb.tags.filter fun t => t.1 / 1024 == port).foldl (fun m t => answer c port (t.1 % 1024) true true m) m

def execSegmentGrant (point t : Nat) (s : State) : Host.Outcome State Fault Refusal := s.runM (segmentGrant point t)
def execMemoryPortResponse (port tag : Nat) (err tagOk : Bool) (s : State) : Host.Outcome State Fault Refusal :=
  s.runM (portResponse port tag err tagOk)
def execMpReadyFall (port : Nat) (s : State) : Host.Outcome State Fault Refusal := s.runM (readyFall port)

end Sys2Proof.Machine
end

