-- ==== Sys2Proof/Machine/Sched.lean ====
section
/-! DEFINITION. The scheduler: which tile-command goes to which core, gangs, the scrubber, idle gating (R19 to R23, R148, R149, R190,
R205, R290 to R295, R360, R412). -/

namespace Sys2Proof.Machine

/-! ### What may issue (R16, R21, R23, R148, R291) -/

/-- A tile-command, or a gang, that may issue: its layer, domain, class, declared worst case, cores it takes. -/
structure Cand where
  q : Nat
  d : Nat
  x : Desc
  lrec : List Byte
  dom : Nat
  rt : Bool
  w : Nat
  size : Nat

/-- Cores already kept for a layer. -/
def keptFor (m : Mach) (q d : Nat) : List Nat := (m.sched.chosen.filter fun p => p.2.1 == q && p.2.2 == d).map (·.1)

/-- A layer's merge group lets it issue: closed, and this its first member, or this member's own alternate (R243, R276). -/
def groupReady (m : Mach) (q d : Nat) (x : Desc) : Bool :=
  match mget m.sched.groups x.group with
  | some g => !g.members.contains (q, d) || (g.closed && (x.alt || g.members.head? == some (q, d)))
  | none => true

/-- The declared worst case of the run in hand, in cycles. -/
def wcetOf (x : Desc) : Nat := if x.alt then x.altWcet else x.wcet

/-- The next tile-command or gang of a layer, when only time and cores can hold it back. -/
def candOf (c : Cfg) (m : Mach) (q d : Nat) : Option Cand :=
  match qGet m q, descGet m q d with
  | some y, some x =>
    match layerRec m x with
    | none => none
    | some r =>
      let left := totalOf x - x.next
      let gang := 2 ≤ lrGang r
      let n := if gang then min (lrGang r) left else 1
      let kept := if gang then 0 else (keptFor m q d).length
      if x.phase = 2 && x.isRun && !x.cancelled && kept < left && goesOn y && !(y.orphan && x.parcel == y.ctx.parcel) && (x.gather = 0 || x.gather = 3)
          && !(y.ctx.rt && m.tick.partialTick) && groupReady m q d x
          && (y.descs.all fun e => d ≤ e.1 || !e.2.isRun || hasStarted m q e.1 e.2)
          && (List.range n).all (fun i => remoteMet y x (x.next + i)) && !((mget m.parcels x.parcel).any (·.unbinding)) && (layerAlloc c q d m).isSome
      then some ⟨q, d, x, r, y.ctx.dom, y.ctx.rt, wcetOf x, n⟩ else none
  | _, _ => none

/-! ### Cores (R20, R205, R294, R360, R412) -/

/-- What the scheduler counts for a scrub, in cycles (R294). -/
def scrubCost : Nat := 3000

/-- The core must be scrubbed before a tile-command of a domain. -/
def needScrub (x : Core) (dom : Nat) : Bool := x.regs.dirty || x.regs.gated || (!x.regs.clean && x.regs.dom ≠ dom)

/-- A core that runs nothing, is in service and is not being scrubbed. -/
def coreFree (x : Core) : Bool := x.tc.isNone && x.regs.test == 0 && x.regs.state ≠ 2

/-- The free cores the scheduler may still give away. -/
def freeCores (m : Mach) : List Nat :=
  (List.range m.cores.length).filter fun k => (m.cores[k]?).any coreFree && !m.sched.chosen.any fun p => p.1 == k

/-- The column group of the region unit that holds a base's first byte, with the layer's allocation made (R201, R205). -/
def residentGroup (c : Cfg) (m0 : Mach) (a : Cand) : Option Nat :=
  let m := (layerAlloc c a.q a.d m0).getD m0
  if m.depot.regions.all (fun r => r.2.dom ≠ a.dom) && !mhas m.depot.layers (layerKey a.q a.d) then none
  else (Config.resident a.lrec (a.x.params.take 64) a.x.next a.x.alt).bind fun b =>
    (depotRegion m (soTc a.q a.d) (bits b 32 16)).bind fun r => r.groups[b % 2 ^ 32 / 65536]?

/-- The cores of a list after the last one issued to, then the others. -/
def rotate (m : Mach) (ks : List Nat) : List Nat :=
  let s := (m.sched.last.map (· + 1)).getD 0
  ks.filter (s ≤ ·) ++ ks.filter (· < s)

/-- Free cores in the order the scheduler takes them (R205, R294). -/
def coreOrder (c : Cfg) (m : Mach) (a : Cand) : List Nat :=
  let free := freeCores m
  match residentGroup c m a with
  | some g => (nearCols g).flatMap fun col => free.filter fun k => physOf c k % 8 == col
  | none =>
    let same (k : Nat) : Bool := (m.cores[k]?).any fun x => x.regs.dom == a.dom && x.regs.issued ≠ 0
    rotate m (free.filter same) ++ rotate m (free.filter fun k => !same k)

/-- When a core's tile-command for a domain would begin (R294). -/
def beginAt (m : Mach) (dom k : Nat) : Nat :=
  match m.cores[k]? with
  | none => m.now
  | some x => if x.regs.state = 2 then max m.now (x.regs.since + scrubCost) else m.now + if needScrub x dom then scrubCost else 0

/-- R21 on a core. -/
def fitsOn (m : Mach) (a : Cand) (k : Nat) : Bool := decide (beginAt m a.dom k + a.w ≤ m.tick.limit)

/-- The end of a core's present commitment (R292). -/
def commitEnd (m : Mach) (k : Nat) (x : Core) : Nat :=
  match x.tc with
  | some t => t.issued + t.wcet
  | none =>
    let scrub := if x.regs.state = 2 then x.regs.since + scrubCost else m.now
    match m.sched.chosen.find? fun p => p.1 == k with
    | some p =>
      let w := ((descGet m p.2.1 p.2.2).map wcetOf).getD 0
      (if x.regs.state = 2 then max m.now scrub else beginAt m (qDom m p.2.1) k) + w
    | none => scrub

/-- F of R292 with cores given a tile-command: the issue time is the end of the scrubs it needs (R294). -/
def coreTime (m : Mach) (a : Cand) (ks : List Nat) : Nat :=
  let t := (ks.map (beginAt m a.dom)).foldl max m.now
  (m.cores.zipIdx.map fun p =>
    if p.1.regs.test ≠ 0 then 0
    else m.tick.limit - max t (if ks.contains p.2 then t + a.w else commitEnd m p.2 p.1)).foldl (· + ·) 0

/-- U and W of R292. -/
def owedTime (m : Mach) : Nat := (m.ledger.map fun e => (if e.2.running then e.2.balance else 0) + e.2.owed).foldl (· + ·) 0
def widest (m : Mach) : Nat := (m.ledger.map fun e => if e.2.balance ≠ 0 || e.2.owed ≠ 0 then e.2.terms.wmax else 0).foldl max 0

/-- R292: best-effort work leaves the core-time that real-time work may still need. -/
def leavesTime (m : Mach) (a : Cand) (ks : List Nat) : Bool := decide (owedTime m + m.cores.length * widest m ≤ coreTime m a ks)

/-- Best-effort tile-commands of a domain that run or have a core kept. -/
def domainRuns (m : Mach) (d : Nat) : Nat :=
  let be (q : Nat) : Bool := (qGet m q).any fun y => !y.ctx.rt && y.ctx.dom == d
  (m.cores.filter fun x => x.tc.any fun t => be t.q).length + (m.sched.chosen.filter fun p => be p.2.1).length

/-! ### The choice (R291, R293, R295) -/

/-- Another gang holds reservations (R295). -/
def gangHeld (m : Mach) (q d : Nat) : Bool :=
  m.sched.chosen.any fun p => !(p.2.1 == q && p.2.2 == d) &&
    ((descGet m p.2.1 p.2.2).bind (layerRec m)).any fun r => 2 ≤ lrGang r

/-- The cores a candidate would take now; none where it is passed over. -/
def coresFor (c : Cfg) (m : Mach) (a : Cand) : Option (List Nat) :=
  if 2 ≤ lrGang a.lrec then
    let kept := keptFor m a.q a.d
    let can := (m.cores.zipIdx.filter fun p => p.1.regs.test = 0 && (!(m.sched.chosen.any fun r => r.1 == p.2) || kept.contains p.2)
      && decide (max m.now (commitEnd m p.2 p.1) + (if needScrub p.1 a.dom then scrubCost else 0) + a.w ≤ m.tick.limit)).length
    let ks := ((coreOrder c m a).filter (fitsOn m a)).take (a.size - kept.length)
    if gangHeld m a.q a.d || (kept = [] && can < a.size) || kept.length = a.size || (!a.rt && !leavesTime m a ks) then none
    else if ks = [] then none else some ks
  else
    match (coreOrder c m a).find? (fitsOn m a) with
    | some k => if a.rt || leavesTime m a [k] then some [k] else none
    | none => none

/-- The order of admission; layers of one cycle go by entry number (R291). -/
def admitBefore (m : Mach) (a b : Cand) : Bool :=
  let e (x : Cand) : Nat := ((entryOf m x.q).map (·.1)).getD 4096
  a.x.admitAt < b.x.admitAt || (a.x.admitAt == b.x.admitAt && (e a < e b || (e a == e b && a.x.order ≤ b.x.order)))

/-- Every candidate of the real-time queues in the order of R291: admitted layers of this tick, then carried ones. -/
def rtCands (c : Cfg) (m : Mach) : List Cand :=
  let all := m.queues.flatMap fun p => if p.2.ctx.rt then p.2.descs.filterMap fun d => candOf c m p.1 d.1 else []
  let byOrder (l : List Cand) : List Cand := l.mergeSort (admitBefore m)
  byOrder (all.filter (·.x.carried = 0)) ++ byOrder (all.filter (·.x.carried ≠ 0))

/-- A best-effort queue with something to issue: its number, quantum, counter, candidate, cores. -/
structure Turn where
  q : Nat
  quantum : Nat
  have' : Nat
  a : Cand
  ks : List Nat

/-- A queue is held by its domain's core limit (R293). -/
def atLimit (m : Mach) (y : Queue) (n : Nat) : Bool := decide ((domE m y.ctx.dom).coreLimit < domainRuns m y.ctx.dom + n)

/-- What a best-effort layer can take beside what it has: cores kept for its gang count already. -/
def openTurn (c : Cfg) (m : Mach) (q : Nat) (y : Queue) (a : Cand) : Option Turn :=
  let kept := if 2 ≤ lrGang a.lrec then (keptFor m a.q a.d).length else 0
  if atLimit m y (a.size - kept) then none else (coresFor c m a).map fun ks => ⟨q, a.x.weight * 1000, y.deficit, a, ks⟩

/-- The best-effort layers of a queue that could issue, a gang that has cores kept apart from the others. -/
def turnsOf (c : Cfg) (m : Mach) (q : Nat) (y : Queue) (going : Bool) : Option Turn :=
  if y.ctx.rt || y.ctx.feed then none
  else (y.descs.filterMap fun d => candOf c m q d.1).findSome? fun a =>
    if (decide (2 ≤ lrGang a.lrec) && keptFor m a.q a.d != []) == going then openTurn c m q y a else none

/-- What a best-effort queue would issue at a visit. -/
def turnOf (c : Cfg) (m : Mach) (q : Nat) (y : Queue) : Option Turn := turnsOf c m q y false

/-- A queue's counter. -/
def setDeficit (q n : Nat) (m : Mach) : Mach := qUpd q (fun y => { y with deficit := n }) m

/-- What an issue takes from the counter: GANG × WCET for a gang (R295). -/
def Turn.cost (t : Turn) : Nat := t.a.size * t.a.w

/-- Visits in order until a counter covers its cost (R293). -/
def visit : List Turn → Mach → Mach × Option Turn
  | [], m => (m, none)
  | t :: r, m =>
    let n := ((qGet m t.q).map (·.deficit)).getD 0 + t.quantum
    if t.cost ≤ n then (setDeficit t.q (n - t.cost) { m with sched := { m.sched with round := t.q + 1, serving := some t.q } }, some t)
    else visit r (setDeficit t.q n m)

/-- Deficit round robin over the queues with something to issue; whole rounds that serve nobody are taken at once. -/
def roundRobin (ts : List Turn) (m : Mach) : Mach × Option Turn :=
  match ts.find? fun t => m.sched.serving == some t.q && t.cost ≤ t.have' with
  | some t => (setDeficit t.q (t.have' - t.cost) m, some t)
  | none =>
    let s := m.sched.round
    let ts := ts.filter (s ≤ ·.q) ++ ts.filter (·.q < s)
    let idle := (ts.map fun t => cdiv (t.cost - t.have') (max 1 t.quantum) - 1).foldl min 1000000
    let m := ts.foldl (fun m t => setDeficit t.q (t.have' + idle * t.quantum) m) { m with sched := { m.sched with serving := none } }
    visit ts m

/-- The counters of best-effort queues with nothing issuable are 0; one that only a core, its domain's limit or core-time holds keeps its
counter (R293). -/
def resetDeficits (c : Cfg) (m : Mach) : Mach :=
  { m with queues := mmap (fun q y =>
      if y.ctx.rt || y.descs.any fun d => (candOf c m q d.1).isSome then y else { y with deficit := 0 }) m.queues }

/-- The scheduler's choice: a candidate and the cores it takes. A best-effort gang with cores kept has paid and takes the next ones without a
visit (R295). -/
def choose (c : Cfg) (m : Mach) : Mach × Option (Cand × List Nat) :=
  match (rtCands c m).findSome? fun a => (coresFor c m a).map fun ks => (a, ks) with
  | some r => (m, some r)
  | none =>
    let m := resetDeficits c m
    match m.queues.findSome? fun p => turnsOf c m p.1 p.2 true with
    | some t => (m, some (t.a, t.ks))
    | none =>
      let r := roundRobin (m.queues.filterMap fun p => turnOf c m p.1 p.2) m
      (r.1, r.2.map fun t => (t.a, t.ks))

/-! ### Issue (R13, R127, R128, R290, R464) -/

/-- The tile-command of a layer that a core receives. -/
def tileFor (m : Mach) (a : Cand) (i gang member : Nat) : TileCmd :=
  let g := groupOf m a.q a.d
  let merged := g.length ≠ 1 && !a.x.alt
  { q := a.q, desc := a.d, tile := i, tiles := totalOf a.x, alt := a.x.alt, wcet := a.w, issued := m.now, halted := 0, mark := m.now
    ended := false, merged := if merged then g.length else 1
    rows := if merged then ((mget m.sched.groups a.x.group).map (·.rows)).getD 0 else nth a.x.params 2 % 2 ^ 32
    params := a.x.params.take 64, gang := gang, member := member }

/-- What outbound line `l` of gang member `j` is wired to: in a ring, line 0 to the next member's line 0 (R149, R190). -/
def wireOf (r : List Byte) (j l : Nat) : Option (Nat × Nat) :=
  if lrRing r && l = 0 then some ((j + 1) % max 1 (lrGang r), 0) else (Config.gangOut r j l).map fun p => (p.1 % max 1 (lrGang r), p.2 % 8)

/-- A value for each of the eight lines that has one. -/
def byLine {α : Type} (f : Nat → Option α) : Map α := (List.range 8).filterMap fun l => (f l).map fun v => (l, v)

/-- A core with a tile-command: cleared but for cache, TLB and the mapping of its windows (R15, R132, R133), with a gang member's lines. -/
def coreWith (a : Cand) (t : TileCmd) (x : Core) : Core :=
  { coreClear { x.regs with state := 1, dom := a.dom, clean := false, issued := (x.regs.issued + 1) % 2 ^ 64 } with
    icache := x.icache, tlb := x.tlb, front := x.front, tc := some t
    ringSizes := if t.gang = 0 then [] else byLine fun l => let n := ringBytes a.lrec t.member l; if n = 0 then none else some n
    wires := if t.gang = 0 then [] else byLine (wireOf a.lrec t.member) }

/-- One tile-command issues on a core. -/
def issueOn (a : Cand) (k i gang member : Nat) (m : Mach) : Mach :=
  let t := tileFor m a i gang member
  let m := { m with cores := lupd m.cores k (coreWith a t)
                    sched := { m.sched with last := some k, chosen := m.sched.chosen.filter fun p => p.1 ≠ k } }
  descUpd a.q a.d (fun z => { z with next := i + 1, running := z.running + 1, owed := z.owed - a.w }) (lessOwed a.q a.w m)

/-- The layer allocation is made before the first tile-command (R201). -/
def withAlloc (c : Cfg) (a : Cand) (m : Mach) : Mach := (layerAlloc c a.q a.d m).getD m

/-- Cores are kept for a layer; those that need it are to be scrubbed. -/
def keep (a : Cand) (ks : List Nat) (m : Mach) : Mach :=
  let mark (x : Core) : Core := if needScrub x a.dom then { x with regs := { x.regs with dirty := true } } else x
  ks.foldl (fun m k =>
    { m with sched := { m.sched with chosen := m.sched.chosen ++ [(k, a.q, a.d)] }, cores := lupd m.cores k mark }) m

/-- What a best-effort layer's turn took from its queue's counter. -/
def paid (m : Mach) (q d : Nat) : Nat :=
  match descGet m q d, (descGet m q d).bind (layerRec m) with
  | some x, some r => (if 2 ≤ lrGang r then min (lrGang r) (totalOf x - x.next) else 1) * wcetOf x
  | _, _ => 0

/-- A kept core goes back: a best-effort tile-command's cost returns to its queue's counter, a gang's once none of its cores is kept (R293,
R295). -/
def giveBack (m : Mach) (p : Nat × Nat × Nat) : Mach :=
  let m := { m with sched := { m.sched with chosen := m.sched.chosen.filter (· ≠ p) } }
  let gang := ((descGet m p.2.1 p.2.2).bind (layerRec m)).any fun r => 2 ≤ lrGang r
  if gang && keptFor m p.2.1 p.2.2 ≠ [] then m
  else qUpd p.2.1 (fun y => if y.ctx.rt then y else { y with deficit := y.deficit + paid m p.2.1 p.2.2 }) m

/-- A kept core's layer can still use it: R21 holds, and R292 for a best-effort tile-command. -/
def stillKept (c : Cfg) (m : Mach) (p : Nat × Nat × Nat) : Bool :=
  let free : Mach := { m with sched := { m.sched with chosen := [] } }
  (m.cores[p.1]?).any (fun x => x.tc.isNone && x.regs.test == 0) &&
    (candOf c free p.2.1 p.2.2).any fun a =>
      max m.now (commitEnd free p.1 (m.cores.getD p.1 core0)) + a.w ≤ m.tick.limit
        && (a.rt || 2 ≤ lrGang a.lrec || leavesTime { m with sched := { m.sched with chosen := m.sched.chosen.filter (· ≠ p) } } a [p.1])

/-- Kept cores whose layer can no longer use them are given back. -/
def tidy (c : Cfg) (m : Mach) : Mach := (m.sched.chosen.filter fun p => !stillKept c m p).foldl giveBack m

/-- A kept core is ready: free and in need of no scrub. -/
def keptReady (m : Mach) (a : Cand) (k : Nat) : Bool := (m.cores[k]?).any fun x => coreFree x && !needScrub x a.dom

/-- The first kept core that is ready for a tile-command outside a gang. -/
def readyKept (c : Cfg) (m : Mach) : Option (Nat × Cand) :=
  m.sched.chosen.findSome? fun p =>
    (candOf c { m with sched := { m.sched with chosen := [] } } p.2.1 p.2.2).bind fun a =>
      if lrGang a.lrec < 2 && keptReady m a p.1 then some (p.1, a) else none

/-- A choice is acted on: a gang's cores are reserved; a core that needs a scrub is kept until it is scrubbed; otherwise the
tile-command issues (R20, R294, R295). -/
def act (c : Cfg) (a : Cand) (ks : List Nat) (m : Mach) : Mach :=
  if 2 ≤ lrGang a.lrec then keep a ks m
  else match ks with
    | [] => m
    | k :: _ =>
      if (m.cores[k]?).any fun x => needScrub x a.dom then keep a [k] m
      else issueOn a k a.x.next 0 0 (withAlloc c a m)

/-- TILE_COMMAND_ISSUE: one decision of the scheduler. -/
def tileIssue (t : Nat) (c : Cfg) (m : Mach) : Mach :=
  let m := tickTo t m
  if m.power.fail ≠ 0 then m
  else
    let m := tidy c m
    match readyKept c m with
    | some (k, a) => issueOn a k a.x.next 0 0 (withAlloc c a m)
    | none =>
      match choose c m with
      | (m, some (a, ks)) => act c a ks m
      | (m, none) => m

/-- The mesh order of a ring of 32: along row 0, then back through rows 1 to 3 column by column (R190). -/
def ringOrder : List Nat :=
  List.range 8 ++ (List.range 8).flatMap fun i => let col := 7 - i; if i % 2 = 0 then [8 + col, 16 + col, 24 + col] else [24 + col, 16 + col, 8 + col]

/-- The cores of a gang by member: mesh neighbours for a ring of all 32, otherwise as reserved (R190, R295). -/
def gangCores (c : Cfg) (m : Mach) (a : Cand) : List Nat :=
  let ks := keptFor m a.q a.d
  if lrRing a.lrec && a.size = 32 && c.strap.cores = 32 then ringOrder.filterMap fun p => ks.find? fun k => physOf c k == p else ks

/-- GANG_ISSUE: with all its cores reserved and ready, the gang issues in one decision (R149, R295). -/
def gangIssue (q d t : Nat) (c : Cfg) (m : Mach) : Mach :=
  let m := tickTo t m
  if m.power.fail ≠ 0 then m
  else
    let m := tidy c m
    let m := match choose c m with
      | (m', some (a, ks)) => if a.q = q && a.d = d && 2 ≤ lrGang a.lrec then keep a ks m' else m
      | _ => m
    match candOf c { m with sched := { m.sched with chosen := [] } } q d with
    | none => m
    | some a =>
      let ks := gangCores c m a
      if lrGang a.lrec < 2 || ks.length ≠ a.size || !ks.all (keptReady m a) || m.tick.limit < m.now + a.w
          || !(a.rt || leavesTime { m with sched := { m.sched with chosen := m.sched.chosen.filter fun p => !ks.contains p.1 } } a ks) then m
      else
        let g := m.sched.gang + 1
        let m := withAlloc c a { m with sched := { m.sched with gang := g } }
        ks.zipIdx.foldl (fun m p => issueOn a p.1 (a.x.next + p.2) g p.2 m) m

/-! ### The scrubber and idle gating (R360, R412) -/

/-- SCRUB_START. -/
def scrubStart (k t : Nat) (m : Mach) : Mach :=
  let m := tickTo t m
  match m.cores[k]? with
  | none => m
  | some x =>
    if x.tc.isNone && x.regs.dirty && x.regs.test < 2 && x.regs.state ≠ 2 && readsBack m k then
      { m with cores := lset m.cores k { x with regs := { x.regs with state := 2, since := m.now } } }
    else m

/-- SCRUB_END: within 3,000 cycles of its start the core is clear and offered again. -/
def scrubEnd (k t : Nat) (m : Mach) : Mach :=
  let m := tickTo t m
  match m.cores[k]? with
  | none => m
  | some x =>
    if x.regs.state ≠ 2 then m
    else
      let r := { x.regs with state := idleState x.regs, dirty := false, clean := true, gated := false, scrubs := (x.regs.scrubs + 1) % 2 ^ 64
                             busy := (x.regs.busy + (m.now - x.regs.since)) % 2 ^ 64, since := m.now }
      busyAdd k none x.regs.since { m with cores := lset m.cores k { coreClear r with front := x.front } }

/-- NO_GATE as it stood when the core's idle period began (R464). -/
def noGateNow (c : Cfg) (k : Nat) (r : CoreRegs) : Bool :=
  match r.gateWas with
  | some g => if r.since ≤ g.1 then g.2 else c.noGate.contains k
  | none => c.noGate.contains k

/-- CORE_IDLE_GATE: 100 µs without a tile-command. -/
def idleGate (k t : Nat) (c : Cfg) (m : Mach) : Mach :=
  let m := tickTo t m
  match m.cores[k]? with
  | none => m
  | some x =>
    if c.gateIdle && !noGateNow c k x.regs && coreFree x && !x.regs.gated && x.regs.since + 100000 ≤ m.now
        && !m.sched.chosen.any (fun p => p.1 == k) then
      { m with cores := lset m.cores k { coreClear { x.regs with gated := true, state := 3 } with front := x.front } }
    else m

def execTileCommandIssue (t : Nat) (s : State) : Host.Outcome State Fault Refusal := s.runM (tileIssue t)
def execGangIssue (q desc t : Nat) (s : State) : Host.Outcome State Fault Refusal := s.runM (gangIssue q desc t)
def execScrubStart (core t : Nat) (s : State) : Host.Outcome State Fault Refusal := s.runM fun _ => scrubStart core t
def execScrubEnd (core t : Nat) (s : State) : Host.Outcome State Fault Refusal := s.runM fun _ => scrubEnd core t
def execCoreIdleGate (core t : Nat) (s : State) : Host.Outcome State Fault Refusal := s.runM (idleGate core t)

end Sys2Proof.Machine
end

