-- ==== Sys2Proof/Machine/Dispatch.lean ====
section
/-! DEFINITION. One arm per command: a direct call of its meaning. -/

namespace Sys2Proof.Machine
open Sys2Proof

def exec (i : Instr) (s : State) : Host.Outcome State Fault Refusal :=
  match i with
  | .cmdTailWrite v => Sys2Proof.Machine.execCmdTailWrite v s
  | .commandRead => Sys2Proof.Machine.execCommandRead s
  | .evtHeadWrite v => Sys2Proof.Machine.execEvtHeadWrite v s
  | .attach id => Sys2Proof.Machine.execAttach id s
  | .detach id => Sys2Proof.Machine.execDetach id s
  | .streamHalt id => Sys2Proof.Machine.execStreamHalt id s
  | .coreReset id => Sys2Proof.Machine.execCoreReset id s
  | .domainReset id => Sys2Proof.Machine.execDomainReset id s
  | .clerkRestart id t => Sys2Proof.Machine.execClerkRestart id t s
  | .domainCreate id => Sys2Proof.Machine.execDomainCreate id s
  | .domainSet id => Sys2Proof.Machine.execDomainSet id s
  | .domainTeardown id => Sys2Proof.Machine.execDomainTeardown id s
  | .teardownDrained id => Sys2Proof.Machine.execTeardownDrained id s
  | .teardownComplete id => Sys2Proof.Machine.execTeardownComplete id s
  | .ownerEnrol id => Sys2Proof.Machine.execOwnerEnrol id s
  | .ownerRemove id => Sys2Proof.Machine.execOwnerRemove id s
  | .enrolQuery id => Sys2Proof.Machine.execEnrolQuery id s
  | .enrolCertify id => Sys2Proof.Machine.execEnrolCertify id s
  | .regionAssign id => Sys2Proof.Machine.execRegionAssign id s
  | .regionAssignDone id => Sys2Proof.Machine.execRegionAssignDone id s
  | .regionConvert id => Sys2Proof.Machine.execRegionConvert id s
  | .regionReturn id => Sys2Proof.Machine.execRegionReturn id s
  | .regionQuery id => Sys2Proof.Machine.execRegionQuery id s
  | .xlateInval id => Sys2Proof.Machine.execXlateInval id s
  | .xlateInvalDone id => Sys2Proof.Machine.execXlateInvalDone id s
  | .xlateRoot id => Sys2Proof.Machine.execXlateRoot id s
  | .placeRegister id => Sys2Proof.Machine.execPlaceRegister id s
  | .placeRemove id => Sys2Proof.Machine.execPlaceRemove id s
  | .bind id => Sys2Proof.Machine.execBind id s
  | .bindComplete id => Sys2Proof.Machine.execBindComplete id s
  | .unbind id => Sys2Proof.Machine.execUnbind id s
  | .unbindDone id => Sys2Proof.Machine.execUnbindDone id s
  | .queueCreate id => Sys2Proof.Machine.execQueueCreate id s
  | .queueSet id => Sys2Proof.Machine.execQueueSet id s
  | .queueBind id => Sys2Proof.Machine.execQueueBind id s
  | .queueQuery id => Sys2Proof.Machine.execQueueQuery id s
  | .queuePause id => Sys2Proof.Machine.execQueuePause id s
  | .queuePaused q => Sys2Proof.Machine.execQueuePaused q s
  | .queueResume id => Sys2Proof.Machine.execQueueResume id s
  | .queueRelease id => Sys2Proof.Machine.execQueueRelease id s
  | .queueReset id => Sys2Proof.Machine.execQueueReset id s
  | .queueResetDone id => Sys2Proof.Machine.execQueueResetDone id s
  | .queueDestroy id => Sys2Proof.Machine.execQueueDestroy id s
  | .queueDestroyDone id => Sys2Proof.Machine.execQueueDestroyDone id s
  | .ledgerAdmit id => Sys2Proof.Machine.execLedgerAdmit id s
  | .ledgerQuery id => Sys2Proof.Machine.execLedgerQuery id s
  | .ledgerRetire id => Sys2Proof.Machine.execLedgerRetire id s
  | .depotAlloc id => Sys2Proof.Machine.execDepotAlloc id s
  | .depotFree id => Sys2Proof.Machine.execDepotFree id s
  | .depotFreeDone id => Sys2Proof.Machine.execDepotFreeDone id s
  | .tableOpen id => Sys2Proof.Machine.execTableOpen id s
  | .tableClose id => Sys2Proof.Machine.execTableClose id s
  | .tableCloseDone id => Sys2Proof.Machine.execTableCloseDone id s
  | .cascadeRoster id => Sys2Proof.Machine.execCascadeRoster id s
  | .cascadeTrust id => Sys2Proof.Machine.execCascadeTrust id s
  | .cascadeJob id => Sys2Proof.Machine.execCascadeJob id s
  | .remoteBind id => Sys2Proof.Machine.execRemoteBind id s
  | .remoteUnbind id => Sys2Proof.Machine.execRemoteUnbind id s
  | .memberCommand id => Sys2Proof.Machine.execMemberCommand id s
  | .slotWrite id => Sys2Proof.Machine.execSlotWrite id s
  | .slotValidate id => Sys2Proof.Machine.execSlotValidate id s
  | .slotRetire id => Sys2Proof.Machine.execSlotRetire id s
  | .bootRecordWrite id => Sys2Proof.Machine.execBootRecordWrite id s
  | .epochCommit id => Sys2Proof.Machine.execEpochCommit id s
  | .storeOperationDone ok => Sys2Proof.Machine.execStoreOperationDone ok s
  | .bistCore id => Sys2Proof.Machine.execBistCore id s
  | .bistCoreDrained id t => Sys2Proof.Machine.execBistCoreDrained id t s
  | .bistTestDone id logic mem fail => Sys2Proof.Machine.execBistTestDone id logic mem fail s
  | .bistQuery id => Sys2Proof.Machine.execBistQuery id s
  | .trimRead id => Sys2Proof.Machine.execTrimRead id s
  | .trimWrite id => Sys2Proof.Machine.execTrimWrite id s
  | .telemetryBind id => Sys2Proof.Machine.execTelemetryBind id s
  | .telemetryUnbind id => Sys2Proof.Machine.execTelemetryUnbind id s
  | .fwGo v => Sys2Proof.Machine.execFwGo v s
  | .firmwareBlockArrival header block err => Sys2Proof.Machine.execFirmwareBlockArrival header block err s
  | .warmReset width v => Sys2Proof.Machine.execWarmReset width v s
  | .lockTables => Sys2Proof.Machine.execLockTables s
  | .tablesCheckDone => Sys2Proof.Machine.execTablesCheckDone s
  | .lockProtection => Sys2Proof.Machine.execLockProtection s
  | .lockRole => Sys2Proof.Machine.execLockRole s
  | .tickCfgWrite width v t => Sys2Proof.Machine.execTickCfgWrite width v t s
  | .dlHeadWrite v => Sys2Proof.Machine.execDlHeadWrite v s
  | .prHeadWrite v => Sys2Proof.Machine.execPrHeadWrite v s
  | .heartbeat t => Sys2Proof.Machine.execHeartbeat t s
  | .mbistGo v => Sys2Proof.Machine.execMbistGo v s
  | .mbistDone shared summary sigs fails => Sys2Proof.Machine.execMbistDone shared summary sigs fails s
  | .linkEnable port => Sys2Proof.Machine.execLinkEnable port s
  | .linkDisable port => Sys2Proof.Machine.execLinkDisable port s
  | .badWriteClear => Sys2Proof.Machine.execBadWriteClear s
  | .tickRefusedClear => Sys2Proof.Machine.execTickRefusedClear s
  | .registerWrite off width v t => Sys2Proof.Machine.execRegisterWrite off width v t s
  | .pigeonholeWrite q width v => Sys2Proof.Machine.execPigeonholeWrite q width v s
  | .feedIndexWrite q width v => Sys2Proof.Machine.execFeedIndexWrite q width v s
  | .mailboxDataWrite m off data => Sys2Proof.Machine.execMailboxDataWrite m off data s
  | .mailboxTrigger m width v => Sys2Proof.Machine.execMailboxTrigger m width v s
  | .cxlMemRead addr => Sys2Proof.Machine.execCxlMemRead addr s
  | .cxlMemWrite addr off data poison => Sys2Proof.Machine.execCxlMemWrite addr off data poison s
  | .snpInv addr => Sys2Proof.Machine.execSnpInv addr s
  | .snpData addr => Sys2Proof.Machine.execSnpData addr s
  | .snpCur addr => Sys2Proof.Machine.execSnpCur addr s
  | .bisnpResponse addr => Sys2Proof.Machine.execBisnpResponse addr s
  | .hostLineFill dom addr data => Sys2Proof.Machine.execHostLineFill dom addr data s
  | .atsInvalidationRequest pasid va size => Sys2Proof.Machine.execAtsInvalidationRequest pasid va size s
  | .atsCompletion pasid va a => Sys2Proof.Machine.execAtsCompletion pasid va a s
  | .prgResponse prg success => Sys2Proof.Machine.execPrgResponse prg success s
  | .peerRequest req write addr data len => Sys2Proof.Machine.execPeerRequest req write addr data len s
  | .unsupportedRequest kind => Sys2Proof.Machine.execUnsupportedRequest kind s
  | .flr t => Sys2Proof.Machine.execFlr t s
  | .busMasterEnableClear t => Sys2Proof.Machine.execBusMasterEnableClear t s
  | .hostLinkDown t => Sys2Proof.Machine.execHostLinkDown t s
  | .hostLinkRestored cause t => Sys2Proof.Machine.execHostLinkRestored cause t s
  | .lossTimerExpiry t => Sys2Proof.Machine.execLossTimerExpiry t s
  | .heartbeatLimitExpiry t => Sys2Proof.Machine.execHeartbeatLimitExpiry t s
  | .hostRequestSend id t => Sys2Proof.Machine.execHostRequestSend id t s
  | .flushReadComplete id => Sys2Proof.Machine.execFlushReadComplete id s
  | .hostPortWriteError id => Sys2Proof.Machine.execHostPortWriteError id s
  | .internalTimerBoundary => Sys2Proof.Machine.execInternalTimerBoundary s
  | .tickInEdge t => Sys2Proof.Machine.execTickInEdge t s
  | .tickMissed => Sys2Proof.Machine.execTickMissed s
  | .sourceBoundary t => Sys2Proof.Machine.execSourceBoundary t s
  | .tickSourceLost t => Sys2Proof.Machine.execTickSourceLost t s
  | .quietMarginStart => Sys2Proof.Machine.execQuietMarginStart s
  | .ledgerRelease entry => Sys2Proof.Machine.execLedgerRelease entry s
  | .descriptorFetch q t => Sys2Proof.Machine.execDescriptorFetch q t s
  | .idleResample q => Sys2Proof.Machine.execIdleResample q s
  | .mailboxFetch q t => Sys2Proof.Machine.execMailboxFetch q t s
  | .layerPresent q desc t => Sys2Proof.Machine.execLayerPresent q desc t s
  | .layerAdmit q desc => Sys2Proof.Machine.execLayerAdmit q desc s
  | .coalesceGroupClose g t => Sys2Proof.Machine.execCoalesceGroupClose g t s
  | .tileCommandIssue t => Sys2Proof.Machine.execTileCommandIssue t s
  | .gangIssue q desc t => Sys2Proof.Machine.execGangIssue q desc t s
  | .scrubStart core t => Sys2Proof.Machine.execScrubStart core t s
  | .scrubEnd core t => Sys2Proof.Machine.execScrubEnd core t s
  | .coreIdleGate core t => Sys2Proof.Machine.execCoreIdleGate core t s
  | .tileCommandDrain core t => Sys2Proof.Machine.execTileCommandDrain core t s
  | .rerunStart q desc => Sys2Proof.Machine.execRerunStart q desc s
  | .layerComplete q desc t => Sys2Proof.Machine.execLayerComplete q desc t s
  | .poolScatterDone q desc => Sys2Proof.Machine.execPoolScatterDone q desc s
  | .completionRecordWrite q desc t => Sys2Proof.Machine.execCompletionRecordWrite q desc t s
  | .irqModerationExpiry dl t => Sys2Proof.Machine.execIrqModerationExpiry dl t s
  | .queueTimeout q desc t => Sys2Proof.Machine.execQueueTimeout q desc t s
  | .runawayLimit core t => Sys2Proof.Machine.execRunawayLimit core t s
  | .fenceDescriptor q desc => Sys2Proof.Machine.execFenceDescriptor q desc s
  | .enqueueTarget q desc => Sys2Proof.Machine.execEnqueueTarget q desc s
  | .sortingOfficeEntry q desc t => Sys2Proof.Machine.execSortingOfficeEntry q desc t s
  | .sortingOfficeEnd q desc t => Sys2Proof.Machine.execSortingOfficeEnd q desc t s
  | .sortingOfficeRunaway q desc t => Sys2Proof.Machine.execSortingOfficeRunaway q desc t s
  | .pageWalk q va write fetch => Sys2Proof.Machine.execPageWalk q va write fetch s
  | .segmentGrant point t => Sys2Proof.Machine.execSegmentGrant point t s
  | .memoryPortResponse port tag err tagOk => Sys2Proof.Machine.execMemoryPortResponse port tag err tagOk s
  | .icacheFill core addr => Sys2Proof.Machine.execIcacheFill core addr s
  | .mpReadyFall port => Sys2Proof.Machine.execMpReadyFall port s
  | .mpFlushAck port => Sys2Proof.Machine.execMpFlushAck port s
  | .operationRetire core slot => Sys2Proof.Machine.execOperationRetire core slot s
  | .postLineBlockAccept core line data => Sys2Proof.Machine.execPostLineBlockAccept core line data s
  | .loop core level count endl => Sys2Proof.Machine.execLoop core level count endl s
  | .endl core level target => Sys2Proof.Machine.execEndl core level target s
  | .brl core level cond target => Sys2Proof.Machine.execBrl core level cond target s
  | .swap core => Sys2Proof.Machine.execSwap core s
  | .enqueue core slot back off size => Sys2Proof.Machine.execEnqueue core slot back off size s
  | .endOp core => Sys2Proof.Machine.execEndOp core s
  | .nop core => Sys2Proof.Machine.execNop core s
  | .fetch core unit src dst stamp => Sys2Proof.Machine.execFetch core unit src dst stamp s
  | .stat core src stamp => Sys2Proof.Machine.execStat core src stamp s
  | .move core src stamp => Sys2Proof.Machine.execMove core src stamp s
  | .drain core dst scales stamp => Sys2Proof.Machine.execDrain core dst scales stamp s
  | .put core src dst stamp => Sys2Proof.Machine.execPut core src dst stamp s
  | .side core stScale mvScale stZp mvZp selector outSt outMv stamp => Sys2Proof.Machine.execSide core stScale mvScale stZp mvZp selector outSt outMv stamp s
  | .codebook core slot size src stamp => Sys2Proof.Machine.execCodebook core slot size src stamp s
  | .table core slot src stamp => Sys2Proof.Machine.execTable core slot src stamp s
  | .wstore core src e stamp => Sys2Proof.Machine.execWstore core src e stamp s
  | .mma core o => Sys2Proof.Machine.execMma core o s
  | .epi core o => Sys2Proof.Machine.execEpi core o s
  | .vadd core dst a b len => Sys2Proof.Machine.execVadd core dst a b len s
  | .vsub core dst a b len => Sys2Proof.Machine.execVsub core dst a b len s
  | .vmul core dst a b len => Sys2Proof.Machine.execVmul core dst a b len s
  | .vfma core dst a b c len => Sys2Proof.Machine.execVfma core dst a b c len s
  | .vmin core dst a b len => Sys2Proof.Machine.execVmin core dst a b len s
  | .vmax core dst a b len => Sys2Proof.Machine.execVmax core dst a b len s
  | .vabs core dst a len => Sys2Proof.Machine.execVabs core dst a len s
  | .vneg core dst a len => Sys2Proof.Machine.execVneg core dst a len s
  | .vcmp core p dst a b len => Sys2Proof.Machine.execVcmp core p dst a b len s
  | .vsel core dst c a b len => Sys2Proof.Machine.execVsel core dst c a b len s
  | .vcvt core dst dfmt a sfmt scale zp cb len => Sys2Proof.Machine.execVcvt core dst dfmt a sfmt scale zp cb len s
  | .vrcp core dst a len => Sys2Proof.Machine.execVrcp core dst a len s
  | .vrsq core dst a len => Sys2Proof.Machine.execVrsq core dst a len s
  | .vdiv core dst a b len => Sys2Proof.Machine.execVdiv core dst a b len s
  | .vsqrt core dst a len => Sys2Proof.Machine.execVsqrt core dst a len s
  | .vexp2 core dst a len => Sys2Proof.Machine.execVexp2 core dst a len s
  | .vlog2 core dst a len => Sys2Proof.Machine.execVlog2 core dst a len s
  | .vfun core f dst a len => Sys2Proof.Machine.execVfun core f dst a len s
  | .vtab core slot dst a len => Sys2Proof.Machine.execVtab core slot dst a len s
  | .vred core r dst a len => Sys2Proof.Machine.execVred core r dst a len s
  | .vsoftmax core dst a len => Sys2Proof.Machine.execVsoftmax core dst a len s
  | .vnorm core rms dst a gamma beta eps len => Sys2Proof.Machine.execVnorm core rms dst a gamma beta eps len s
  | .vopt core adamw w wBf16 g gFmt gZp gCb m v mNarrow vNarrow mScale vScale firstSlot len => Sys2Proof.Machine.execVopt core adamw w wBf16 g gFmt gZp gCb m v mNarrow vNarrow mScale vScale firstSlot len s
  | .wdw core src e init => Sys2Proof.Machine.execWdw core src e init s
  | .wgrp core cg src e init => Sys2Proof.Machine.execWgrp core cg src e init s
  | .wpool core p src e => Sys2Proof.Machine.execWpool core p src e s
  | .wgpool core p src e => Sys2Proof.Machine.execWgpool core p src e s
  | .wait core route seq => Sys2Proof.Machine.execWait core route seq s
  | .fence core => Sys2Proof.Machine.execFence core s
  | .post core route => Sys2Proof.Machine.execPost core route s
  | .linkMacUp port t => Sys2Proof.Machine.execLinkMacUp port t s
  | .linkMacDown port t => Sys2Proof.Machine.execLinkMacDown port t s
  | .helloBroadcast port t => Sys2Proof.Machine.execHelloBroadcast port t s
  | .helloFrame port hd h t => Sys2Proof.Machine.execHelloFrame port hd h t s
  | .attestFrame port peer hd a t => Sys2Proof.Machine.execAttestFrame port peer hd a t s
  | .attestRetry port peer t => Sys2Proof.Machine.execAttestRetry port peer t s
  | .mkaPdu port peer bothInstalled t => Sys2Proof.Machine.execMkaPdu port peer bothInstalled t s
  | .mkaLifeExpiry port peer t => Sys2Proof.Machine.execMkaLifeExpiry port peer t s
  | .sakRekey port peer => Sys2Proof.Machine.execSakRekey port peer s
  | .gptpPdu port peer offset delay t => Sys2Proof.Machine.execGptpPdu port peer offset delay t s
  | .frameSend port t => Sys2Proof.Machine.execFrameSend port t s
  | .dataFrame port peer h data t => Sys2Proof.Machine.execDataFrame port peer h data t s
  | .creditFrame port peer h entries t => Sys2Proof.Machine.execCreditFrame port peer h entries t s
  | .nakFrame port peer h t => Sys2Proof.Machine.execNakFrame port peer h t s
  | .refuseFrame port peer h entries t => Sys2Proof.Machine.execRefuseFrame port peer h entries t s
  | .idleFrame port peer h t => Sys2Proof.Machine.execIdleFrame port peer h t s
  | .tickFrame port peer h count p q t0 t => Sys2Proof.Machine.execTickFrame port peer h count p q t0 t s
  | .ledgerFrame port peer h op status entry req body t => Sys2Proof.Machine.execLedgerFrame port peer h op status entry req body t s
  | .manageFrame port peer h kind req bytes offset body t => Sys2Proof.Machine.execManageFrame port peer h kind req bytes offset body t s
  | .imageFrame port peer h offset total data t => Sys2Proof.Machine.execImageFrame port peer h offset total data t s
  | .retransmitTimer port peer t => Sys2Proof.Machine.execRetransmitTimer port peer t s
  | .linkTimeoutExpiry port peer t => Sys2Proof.Machine.execLinkTimeoutExpiry port peer t s
  | .noMasterExpiry t => Sys2Proof.Machine.execNoMasterExpiry t s
  | .coldReset => Sys2Proof.Machine.execColdReset s
  | .keyPortWord w => Sys2Proof.Machine.execKeyPortWord w s
  | .keyPortTimeout t => Sys2Proof.Machine.execKeyPortTimeout t s
  | .bootWaitLoadEntry t => Sys2Proof.Machine.execBootWaitLoadEntry t s
  | .pfwNAssert t => Sys2Proof.Machine.execPfwNAssert t s
  | .powerFailStop t => Sys2Proof.Machine.execPowerFailStop t s
  | .powerFailFreeze t => Sys2Proof.Machine.execPowerFailFreeze t s
  | .droopTrip core t => Sys2Proof.Machine.execDroopTrip core t s
  | .droopRecovery core t => Sys2Proof.Machine.execDroopRecovery core t s
  | .powerEstimate counts temps t => Sys2Proof.Machine.execPowerEstimate counts temps t s
  | .dutyStep t => Sys2Proof.Machine.execDutyStep t s
  | .clerkHeartbeatMiss c faulted t => Sys2Proof.Machine.execClerkHeartbeatMiss c faulted t s
  | .clerkRestartDone c ok t => Sys2Proof.Machine.execClerkRestartDone c ok t s
  | .tapScan rstAsserted => Sys2Proof.Machine.execTapScan rstAsserted s
  | .noAtsAnswer pasid va t => Sys2Proof.Machine.execNoAtsAnswer pasid va t s
  | .pfwNLowPulse ns => Sys2Proof.Machine.execPfwNLowPulse ns s
  | .cxlIoReadCompletion id data => Sys2Proof.Machine.execCxlIoReadCompletion id data s

end Sys2Proof.Machine
end

