-- ==== Sys2Proof/Safety.lean ====
section
/-! DEFINITION. The terms in which claims about the block are stated: a state that runs, a command row that has its
own effect, settings that are legal. -/

namespace Sys2Proof.Machine
open Sys2Proof

/-- Everything of a state but its settings and its queue of commands. -/
abbrev State.m (s : State) : Mach := s.dev.m

/-- The settings of a state. -/
abbrev State.c (s : State) : Cfg := s.dev.cfg

/-- The block a meaning starts from: what was driven in the step before is dropped. -/
abbrev State.q (s : State) : Mach := s.dev.quiet.m

/-- The block is not frozen by a power failure (R408). -/
def live (s : State) : Bool := !s.dev.frozen

/-- `exec` answers a next state for a command, of which a property holds. -/
def Runs (i : Instr) (s : State) (P : State → Prop) : Prop := ∃ t, exec i s = .next t ∧ P t

/-- A command read from the ring under number `id` is `k`, of code `op`; it may start, and no check of its row fails
(R393 to R395, R474). -/
def accepted (op id : Nat) (area : Cmd → Nat) (chk : Cfg → Mach → Cmd → List (Bool × Nat)) (s : State) (k : Cmd) : Bool :=
  live s && mget s.m.rings.cmds id == some k && k.opcode == op && k.phase == 0 && cmdReady s.q k
    && cmdStatus (baseChecks s.c s.q k (area k) ++ chk s.c s.q k) == stOk

/-- A command under way, `k` of code `op`, whose Clerk runs: its second row may act. -/
def continues (op id : Nat) (s : State) (k : Cmd) : Bool :=
  live s && mget s.m.rings.cmds id == some k && k.opcode == op && k.phase == 1 && (s.m.clerks.getD (clerkOf k.opcode) {}).running

/-- A command has been answered: it no longer waits. -/
def Answered (id : Nat) (s t : State) : Prop := t.m.rings.cmds = mdel s.m.rings.cmds id

/-- A command is under way with a value kept for its second row. -/
def begun (id arg : Nat) (t : State) : Prop := (mget t.m.rings.cmds id).map (fun k => (k.phase, k.arg)) = some (1, arg)

/-- An operation of a kernel program may issue on core `k`: its tile-command runs, no wait is open, its slot's queue has
room (R122, R123). -/
def issues (k slot : Nat) (s : State) (x : Core) (u : TileCmd) : Prop := live s = true ∧ canIssue s.q k slot = some (x, u)

/-- Nothing but core `k` has changed, and what the step before drove is gone. -/
def onlyCore (k : Nat) (s t : State) : Prop :=
  t.m = { s.q with cores := t.m.cores } ∧ (∀ j, j ≠ k → t.m.cores[j]? = s.m.cores[j]?) ∧ t.c = s.c ∧ t.pending = s.pending

/-- A V-slot operation of `n` elements may run: it issues, its places hold their elements, no result waits in its way
(R142, R143). -/
def vReady (s : State) (k : Nat) (x : Core) (u : TileCmd) (len : Aff) (n : Nat) (places : List (Bool × Nat × Nat × VLoc)) : Prop :=
  issues k 5 s x u ∧ affN x u len = n ∧ (∀ p ∈ places, locBad x u p.1 p.2.1 p.2.2.1 p.2.2.2 = false)
    ∧ ((∃ p ∈ places, p.1 = true ∧ p.2.2.2 = .drain) → x.result = none)

/-- Codes of a format stand at their destination, element `i` with zero point `z i`, and nothing else of the core's data has changed;
FP32 codes in registers, packed elements in a window, a result for DRAIN. -/
def Lands (u : TileCmd) (fmt : Nat) (z : Nat → Nat) (codes : List Nat) (x y : Core) : VLoc → Prop
  | .reg r => y = { x with vregs := y.vregs, slots := y.slots, begun := y.begun, clip := y.clip }
      ∧ (∀ i v, codes[i]? = some v → mget y.vregs (256 * r + i) = some (if fmt = 0xC then v else enc32 (decodeElem fmt (z i) v)))
      ∧ ∀ j, j < 256 * r ∨ 256 * r + codes.length ≤ j → mget y.vregs j = mget x.vregs j
  | .win back off => y = { x with half0 := y.half0, half1 := y.half1, slots := y.slots, begun := y.begun, clip := y.clip }
      ∧ winHalf y (!back) = winHalf x (!back)
      ∧ (let l := packRow (rowSd fmt codes.length) codes
         bread (winHalf y back) (affN x u off) l.length = l
          ∧ ∀ a, a < affN x u off ∨ affN x u off + l.length ≤ a → bget (winHalf y back) a = bget (winHalf x back) a)
  | .drain => y = { x with result := some ⟨false, fmt, [codes], []⟩, slots := y.slots, begun := y.begun, clip := y.clip }

/-- An operation of the V slot has entered its slot's queue with what it uses; nothing but its core and the number of the next
operation has changed. -/
def vEntered (k : Nat) (drain : Bool) (uses : List Nat) (s t : State) (x y : Core) : Prop :=
  t.m = { s.q with cores := t.m.cores, arb := { s.q.arb with nextOp := s.q.arb.nextOp + 1 } }
    ∧ (∀ j, j ≠ k → t.m.cores[j]? = s.m.cores[j]?) ∧ t.m.cores[k]? = some y ∧ t.c = s.c ∧ t.pending = s.pending
    ∧ y.slots = lupd x.slots 5 (· ++ [⟨s.m.arb.nextOp, [], uses, drain⟩]) ∧ y.begun = x.begun.filter (·.1 ≠ 5)

/-- A V-slot operation has written FP32 codes, and counted no clip event. -/
def vWrote (k : Nat) (d : VLoc) (u : TileCmd) (codes : List Nat) (s t : State) (x : Core) (uses : List Nat := []) : Prop :=
  ∃ y, vEntered k (d == .drain) uses s t x y ∧ Lands u 0xC noZp codes x y d ∧ y.clip = x.clip

/-- A Window Unit operation whose checks pass (R116, R118, R178). -/
def wReady (s : State) (k : Nat) (x : Core) (u : TileCmd) (p : Tmpl) (e : ElemSrc) (w : WinBlk) : Prop :=
  issues k 5 s x u ∧ sdCheck s.q u roleUnit 0 (paramSlot p.base.c) (sdOf x u p) = none ∧ elemBad x u e 0 = none
    ∧ (sdOf x u p).win = some w ∧ x.result = none ∧ outBad (x.epi.getD {}).out = false
    ∧ (let g := sdGeo (sdOf x u p) w
       elemBad x u e (g.b * g.iy * g.ix * cdiv g.c (max 1 (groupSize e.group))) = none
        ∧ zpGrainBad x u (sdOf x u p).fmt (g.b * g.iy * g.ix) g.c e.zp = false)

/-- A Window Unit operation has sent its rows through the epilogue, and its result waits for a DRAIN. -/
def wWrote (k : Nat) (u : TileCmd) (rows : List (List Nat)) (s t : State) (x : Core) : Prop :=
  ∃ y, vEntered k true (epiUses x) s t x y ∧ y = { epilogue u none false rows x with slots := y.slots, begun := y.begun }

/-- A controlled frame that arrives from a peer in SECURE or later with a header of its type and no bit out of place
(R361, R372, R382). -/
def arrives (port i type : Nat) (h : KHead) (lenOk : Bool) (s : State) (l : Link) (p : Peer) : Prop :=
  live s = true ∧ s.m.links[port]? = some l ∧ peerGet s.q port i = some p ∧ portOn s.c port = true ∧ l.macUp = true ∧ 5 ≤ p.state
    ∧ h.plain = false ∧ h.version = 1 ∧ h.type = type ∧ h.dst = selfEngine s.c s.q ∧ some h.src = p.engine ∧ h.rsv = 0 ∧ lenOk = true
    ∧ (type = 1 ∨ (h.route = 0 ∧ h.queue = 0 ∧ h.postmark = 0)) ∧ h.queue < 2 ^ 20

/-- A frame of a peer that an acknowledgement accepts (R379, R382). -/
def accepts (ack : Nat) (f : Frame) : Bool := decide (subMod ack f.head.seq 65536 < 32768)

/-- The tail and the completion head of a pigeonhole value, as counts (R251). -/
def pgTail (v : Nat) (q : QCtx) : Nat := bits v 31 1 * 2 ^ q.ringLog2 + bits v 0 16
def pgHead (v : Nat) (q : QCtx) : Nat := bits v 63 1 * 2 ^ q.cplLog2 + bits v 32 16

/-- A pigeonhole write of 8 bytes, no reserved bit set, no index at or beyond its ring's size (R252). -/
def pgForm (width v : Nat) (q : QCtx) : Bool :=
  width == 8 && bits v 16 15 == 0 && bits v 48 15 == 0 && decide (bits v 0 16 < 2 ^ q.ringLog2) && decide (bits v 32 16 < 2 ^ q.cplLog2)

/-- The two tests of R252. -/
def pgTailOk (v : Nat) (q : QCtx) : Bool :=
  let s := 2 ^ q.ringLog2
  subMod q.tail q.head (2 * s) ≤ subMod (pgTail v q) q.head (2 * s) && subMod (pgTail v q) q.head (2 * s) ≤ s
def pgHeadOk (v : Nat) (q : QCtx) : Bool :=
  let n := 2 ^ q.cplLog2
  decide (subMod (pgHead v q) q.cplHead (2 * n) ≤ subMod q.cplTail q.cplHead (2 * n))

/-- A queue whose context and domain load, which may fetch, with its descriptor at HEAD read: `n` entries, bytes `l`, in
the state `m` the reads leave (R254). -/
def published (s : State) (q t : Nat) (y : Queue) (m : Mach) (l : List Byte) (n : Nat) : Prop :=
  let m0 := loadCtx s.c q y.ctx.dom (tickTo t s.q)
  let sz := 2 ^ y.ctx.ringLog2
  let va (i : Nat) := y.ctx.ringBase + 128 * ((y.ctx.head + i) % sz)
  live s = true ∧ qGet s.q q = some y ∧ badIn s.m.mem (s.c.tb.ctx + 64 * q) 64 = none ∧ badIn s.m.mem (s.c.tb.dom + 256 * y.ctx.dom) 256 = none
    ∧ mayFetch s.q y = true ∧ n ≤ subMod y.ctx.tail y.ctx.head (2 * sz) ∧ (y.ctx.path = 2 → (mget s.m.mbx y.ctx.mailbox).bind (·.pending) = none)
    ∧ s.m.hp.lost = false
    ∧ ((n = 1 ∧ feRead s.c q y.ctx.dom (va 0) 128 m0 = (m, .ok l) ∧ leAt l 1 1 % 2 = 0)
      ∨ (n = 2 ∧ ∃ m1 a b, feRead s.c q y.ctx.dom (va 0) 128 m0 = (m1, .ok a) ∧ leAt a 1 1 % 2 = 1
          ∧ feRead s.c q y.ctx.dom (va 1) 128 m1 = (m, .ok b) ∧ l = a ++ b))

/-- A queue of the third path whose context and domain load, with a submission pending in its mailbox and none in flight, and
STANDING read: the bytes `l`, in the state `m` the read leaves (R264). -/
def submitted (s : State) (q t : Nat) (y : Queue) (b : Mbx) (sq land : Nat) (m : Mach) (l : List Byte) : Prop :=
  live s = true ∧ qGet s.q q = some y ∧ badIn s.m.mem (s.c.tb.ctx + 64 * q) 64 = none ∧ badIn s.m.mem (s.c.tb.dom + 256 * y.ctx.dom) 256 = none
    ∧ mayFetch s.q y = true ∧ y.ctx.path = 2 ∧ mget s.m.mbx y.ctx.mailbox = some b ∧ b.pending = some (sq, land) ∧ b.flight = none
    ∧ feRead s.c q y.ctx.dom y.ctx.aux 128 (loadCtx s.c q y.ctx.dom (tickTo t s.q)) = (m, .ok l)

/-- The context a queue command names, and its domain's entry, load without a failed tag, and no other of either leaves its cache (R246, R343). -/
def ctxReady (s : State) (q d : Nat) : Prop :=
  (q ∈ s.m.ctxCache ∨ (badIn s.m.mem (s.c.tb.ctx + 64 * q) 64 = none ∧ s.m.ctxCache.length < 8192)) ∧ s.m.ctxCache.length ≤ 8192
    ∧ (d ∈ s.m.domCache ∨ (badIn s.m.mem (s.c.tb.dom + 256 * d) 256 = none ∧ s.m.domCache.length < 256)) ∧ s.m.domCache.length ≤ 256

/-- A queue command that is accepted, on a queue whose context loads. -/
def queueRowOk (op id : Nat) (area : Cmd → Nat) (chk : Cfg → Mach → Cmd → List (Bool × Nat)) (s : State) (k : Cmd) : Prop :=
  accepted op id area chk s k = true ∧ ctxReady s (k.argN 0x18 4) k.dom

/-- The core and the slot of a word's operation, 0 to 3 S, 4 M, 5 V; none for the C and P slots (R122). -/
def wordSlot : Instr → Option (Nat × Nat)
  | .fetch k unit _ _ _ => if unit < 4 then some (k, unit) else none
  | .stat k _ _ => some (k, 0)
  | .move k _ _ => some (k, 1)
  | .drain k _ _ _ => some (k, 2)
  | .put k _ _ _ => some (k, 2)
  | .side k _ _ _ _ _ _ _ _ => some (k, 3)
  | .codebook k slot size _ _ => if slot < 4 && (size == 16 || size == 256) then some (k, 3) else none
  | .table k slot _ _ => if slot < 2 then some (k, 3) else none
  | .wstore k _ _ _ => some (k, 3)
  | .mma k _ => some (k, 4)
  | .epi k _ => some (k, 5)
  | .vadd k _ _ _ _ => some (k, 5)
  | .vsub k _ _ _ _ => some (k, 5)
  | .vmul k _ _ _ _ => some (k, 5)
  | .vfma k _ _ _ _ _ => some (k, 5)
  | .vmin k _ _ _ _ => some (k, 5)
  | .vmax k _ _ _ _ => some (k, 5)
  | .vabs k _ _ _ => some (k, 5)
  | .vneg k _ _ _ => some (k, 5)
  | .vcmp k _ _ _ _ _ => some (k, 5)
  | .vsel k _ _ _ _ _ => some (k, 5)
  | .vcvt k _ _ _ _ _ _ _ _ => some (k, 5)
  | .vrcp k _ _ _ => some (k, 5)
  | .vrsq k _ _ _ => some (k, 5)
  | .vdiv k _ _ _ _ => some (k, 5)
  | .vsqrt k _ _ _ => some (k, 5)
  | .vexp2 k _ _ _ => some (k, 5)
  | .vlog2 k _ _ _ => some (k, 5)
  | .vfun k _ _ _ _ => some (k, 5)
  | .vtab k _ _ _ _ => some (k, 5)
  | .vred k _ _ _ _ => some (k, 5)
  | .vsoftmax k _ _ _ => some (k, 5)
  | .vnorm k _ _ _ _ _ _ _ => some (k, 5)
  | .vopt k _ _ _ _ _ _ _ _ _ _ _ _ _ _ _ => some (k, 5)
  | .wdw k _ _ _ => some (k, 5)
  | .wgrp k _ _ _ _ => some (k, 5)
  | .wpool k _ _ _ => some (k, 5)
  | .wgpool k _ _ _ => some (k, 5)
  | _ => none

/-- What the block holds once the target an ENQUEUE names, if its domain's own, has loaded its context (R156, R246). -/
def enqLoaded (s : State) (u : TileCmd) (a : Nat) : Mach :=
  if qDom s.q (nth u.params a % 2 ^ 20) = qDom s.q u.q then loadQueue s.c (nth u.params a % 2 ^ 20) s.q else s.q

/-- The queue after a descriptor has entered: HEAD and the completion tail have moved on, it is RUNNING unless a status
holds it (R254, R274). -/
def fetchedInto (y z : Queue) (head : Nat) : Prop :=
  z.ctx.head = head ∧ z.ctx.cplTail = (y.ctx.cplTail + 1) % (2 * 2 ^ y.ctx.cplLog2) ∧ z.nextId = y.nextId + 1
    ∧ (z.ctx.state = qsRunning ∨ z.ctx.state = qsHeld)

/-- Command rows whose checks come before everything else they do: code, read number, argument area, checks of their own
(R393, R394, R474). -/
def rowChecks : Instr → Option (Nat × Nat × (Cmd → Nat) × (Cfg → Mach → Cmd → List (Bool × Nat)))
  | .domainCreate id => some (0x100, id, fun _ => 0, domCreateChecks)
  | .domainSet id => some (0x101, id, fun _ => 0, domainSetChecks)
  | .ownerEnrol id => some (0x103, id, fun _ => 96, ownerEnrolChecks)
  | .ownerRemove id => some (0x104, id, fun _ => 0, ownerRemoveChecks)
  | .enrolQuery id => some (0x105, id, fun _ => 0x900, enrolQueryChecks)
  | .regionAssign id => some (0x200, id, fun _ => 0, regionAssignChecks)
  | .regionConvert id => some (0x201, id, fun _ => 0, regionConvertChecks)
  | .regionReturn id => some (0x202, id, fun _ => 0, regionReturnChecks)
  | .regionQuery id => some (0x203, id, fun k => 4 * k.argN 0x1C 4, regionQueryChecks)
  | .xlateInval id => some (0x204, id, fun _ => 0, xlateInvalChecks)
  | .xlateRoot id => some (0x205, id, fun _ => 0, xlateRootChecks)
  | .placeRegister id => some (0x206, id, fun _ => 0, placeChecks)
  | .placeRemove id => some (0x207, id, fun _ => 0, placeRemoveChecks)
  | .domainTeardown id => some (0x102, id, fun _ => 0, domainTeardownChecks)
  | .domainReset id => some (0x005, id, fun _ => 0, domainResetChecks)
  | .coreReset id => some (0x004, id, fun _ => 0, coreResetChecks)
  | .streamHalt id => some (0x003, id, fun k => 256 * k.argN 0x1C 2, streamHaltChecks)
  | .attach id => some (0x001, id, fun _ => 24, attachChecks)
  | .detach id => some (0x002, id, fun _ => 0, detachChecks)
  | .bind id => some (0x300, id, fun _ => 0, bindRowChecks)
  | .unbind id => some (0x301, id, fun _ => 0, unbindChecks)
  | .queueCreate id => some (0x400, id, fun _ => 64, (fun _ => createChecks))
  | .queueSet id => some (0x401, id, fun _ => 64, setChecks)
  | .queueBind id => some (0x402, id, fun _ => 0, bindChecks)
  | .queueQuery id => some (0x403, id, fun _ => 80, (fun _ => queueChecks))
  | .queuePause id => some (0x404, id, fun _ => 0, (fun _ => queueChecks))
  | .queueResume id => some (0x405, id, fun _ => 0, queueResumeChecks)
  | .queueRelease id => some (0x406, id, fun _ => 0, queueReleaseChecks)
  | .queueReset id => some (0x407, id, fun _ => 0, queueResetChecks)
  | .queueDestroy id => some (0x408, id, fun _ => 0, (fun _ => queueChecks))
  | .ledgerAdmit id => some (0x500, id, fun _ => 0, admitChecks)
  | .ledgerQuery id => some (0x501, id, fun _ => 64, ledgerQueryChecks)
  | .ledgerRetire id => some (0x502, id, fun _ => 0, ledgerRetireChecks)
  | .depotAlloc id => some (0x600, id, fun _ => 0, allocChecks)
  | .depotFree id => some (0x601, id, fun _ => 0, depotFreeChecks)
  | .tableOpen id => some (0x602, id, fun _ => 64, tableOpenChecks)
  | .tableClose id => some (0x603, id, fun _ => 0, tableCloseChecks)
  | .cascadeRoster id => some (0x700, id, fun k => 64 * k.argN 0x1C 1, cascadeRosterChecks)
  | .cascadeJob id => some (0x702, id, fun k => 4 * k.argN 0x1A 1 + 16 * k.argN 0x1B 1, jobChecks)
  | .remoteBind id => some (0x703, id, fun _ => 0, remoteBindChecks)
  | .remoteUnbind id => some (0x704, id, fun _ => 0, remoteUnbindChecks)
  | .trimRead id => some (0x902, id, fun _ => 0x4000, trimReadChecks)
  | .bistQuery id => some (0x901, id, fun _ => 0x420, bistQueryChecks)
  | .telemetryBind id => some (0x904, id, fun _ => 0, telemetryBindChecks)
  | .telemetryUnbind id => some (0x905, id, fun _ => 0, telemetryUnbindChecks)
  | _ => none

/-- The settings the host writes keep the ranges of their registers (R279, R336, R348, R369, R411, R437, R454, R458 to R462), and a
lock stands where R450 says it must. -/
def cfgOk (c : Cfg) : Bool :=
  tickOk c.tick && decide (10 ≤ c.cap ∧ c.cap ≤ 95)
    && c.mpShare.length == 16 && c.mpShare.all (fun n => decide (1 ≤ n ∧ n ≤ 16))
    && hpOk c.hp.outRate c.hp.outDepth && hpOk c.hp.inRate c.hp.inDepth
    && decide (1 ≤ c.hp.lossTimeout ∧ c.hp.lossTimeout ≤ 10000 ∧ c.hp.hbLimit ≤ 60000)
    && decide (c.tb.partT ≤ 64 ∧ c.tb.partH ≤ 64 ∧ c.tb.partT + c.tb.partH ≤ 96)
    && (c.tb.dlLog2 == 0 || decide (6 ≤ c.tb.dlLog2 ∧ c.tb.dlLog2 ≤ 16)) && (c.tb.prLog2 == 0 || decide (10 ≤ c.tb.prLog2 ∧ c.tb.prLog2 ≤ 20))
    && decide (c.tb.ctx < 2 ^ 40 ∧ c.tb.cnt < 2 ^ 40 ∧ c.tb.dom < 2 ^ 40 ∧ c.tb.feed < 2 ^ 40 ∧ c.tb.pool < 2 ^ 40 ∧ c.tb.dl < 2 ^ 40 ∧ c.tb.pr < 2 ^ 40)
    && decide (c.fwAddr % 4096 = 0 ∧ c.fwAddr < 2 ^ 52 ∧ c.fwLen < 2 ^ 32) && decide (c.evtIrq.vector < 2048 ∧ c.dlIrq.vector < 2048)
    && c.links.length == 4
    && c.links.all (fun l => etypeOk l.etype && decide (l.vid < 4095 ∧ l.mac < 2 ^ 48 ∧ bits l.mac 40 1 = 0 ∧ l.pcp < 8 ∧ 100 ≤ l.timeout ∧ l.timeout ≤ 100000 ∧ l.rtShare ≤ 64))
    && (!c.lockProt || protOk c.protG) && (c.lockRole || c.links.all (fun l => !l.enable))

end Sys2Proof.Machine
end

