-- ==== Sys2Proof/Certificates/Slice0/Obligations.lean ====
section
/-! DEFINITION. The statements for the provers. -/

open Sys2Proof Sys2Proof.Machine

/-! ### Domains, owners, granules (R343 to R366) -/

/-- R344, R346: DOMAIN_CREATE writes the whole entry with the next GEN and gives the domain a key slot of that GEN;
DOMAIN_SET changes the fields its mask names; OWNER_ENROL puts the key's hash into the first unused place; OWNER_REMOVE
empties a place. Every other domain's entry is as before. -/
def Obligations.DomainCommandsWriteEntry : Prop :=
  (∀ s id k, accepted 0x100 id (fun _ => 0) domCreateChecks s k = true →
    Runs (.domainCreate id) s fun t => Answered id s t
      ∧ mget t.m.doms k.dom = some
          { root := k.argN 0x18 8, jobs := 0, pasid := k.argN 0x20 4 % 2 ^ 20, pasidV := decide (2 ^ 31 ≤ k.argN 0x20 4)
            state := 1, strict := decide (k.argN 0x24 1 = 1), coreLimit := k.argN 0x25 1, depotLimit := k.argN 0x28 4
            epoch := 0, gen := ((domE s.m k.dom).gen + 1) % 2 ^ 32 }
      ∧ mget t.m.keys.slots k.dom = some (lineKeys s.q k.dom (((domE s.m k.dom).gen + 1) % 2 ^ 32))
      ∧ ∀ d, d ≠ k.dom → mget t.m.doms d = mget s.m.doms d ∧ mget t.m.keys.slots d = mget s.m.keys.slots d)
  ∧ (∀ s id k, accepted 0x101 id (fun _ => 0) domainSetChecks s k = true →
    Runs (.domainSet id) s fun t => Answered id s t
      ∧ mget t.m.doms k.dom = some { domE s.m k.dom with
          strict := if bits (k.argN 0x2C 1) 0 1 = 1 then decide (k.argN 0x24 1 = 1) else (domE s.m k.dom).strict
          coreLimit := if bits (k.argN 0x2C 1) 1 1 = 1 then k.argN 0x25 1 else (domE s.m k.dom).coreLimit
          depotLimit := if bits (k.argN 0x2C 1) 2 1 = 1 then k.argN 0x28 4 else (domE s.m k.dom).depotLimit }
      ∧ ∀ d, d ≠ k.dom → mget t.m.doms d = mget s.m.doms d)
  ∧ (∀ s id k, accepted 0x103 id (fun _ => 96) ownerEnrolChecks s k = true →
    Runs (.ownerEnrol id) s fun t => Answered id s t
      ∧ mget t.m.doms k.dom = some { domE s.m k.dom with
          owners := (domE s.m k.dom).owners.set (ownerFree (domE s.m k.dom).owners) (some (leNat (sha384 (areaBytes s.q k 96)))) }
      ∧ ∀ d, d ≠ k.dom → mget t.m.doms d = mget s.m.doms d)
  ∧ (∀ s id k, accepted 0x104 id (fun _ => 0) ownerRemoveChecks s k = true →
    Runs (.ownerRemove id) s fun t => Answered id s t
      ∧ mget t.m.doms k.dom = some { domE s.m k.dom with owners := (domE s.m k.dom).owners.set (k.argN 0x18 1) none }
      ∧ ∀ d, d ≠ k.dom → mget t.m.doms d = mget s.m.doms d)

/-- R347: REGION_ASSIGN is under way until its zeroing ends and changes no owner before; its end makes every granule of
the run the domain's, sealed or open as asked, with no line that fails its tag; REGION_CONVERT changes the kind of each;
REGION_RETURN leaves each without an owner; REGION_QUERY writes the owners and kinds into the argument area. -/
def Obligations.RegionCommandsSetOwners : Prop :=
  (∀ s id k, accepted 0x200 id (fun _ => 0) regionAssignChecks s k = true →
    Runs (.regionAssign id) s fun t => begun id k.dom t ∧ t.m.mem = s.m.mem)
  ∧ (∀ s id k, continues 0x200 id s k = true →
    Runs (.regionAssignDone id) s fun t => Answered id s t
      ∧ (∀ g, g ∈ runOf k → mget t.m.mem.granules g = some ⟨k.dom, k.argN 0x20 1 == 1⟩)
      ∧ (∀ g, g ∉ runOf k → mget t.m.mem.granules g = mget s.m.mem.granules g)
      ∧ ∀ l, k.argN 0x18 4 * 2 ^ 25 ≤ 64 * l → 64 * l < k.argN 0x18 4 * 2 ^ 25 + k.argN 0x1C 4 * 2 ^ 25 → mget t.m.mem.bad l = none)
  ∧ (∀ s id k, accepted 0x201 id (fun _ => 0) regionConvertChecks s k = true →
    Runs (.regionConvert id) s fun t => Answered id s t
      ∧ (∀ g, g ∈ runOf k → mget t.m.mem.granules g = some ⟨k.dom, k.argN 0x20 1 == 1⟩)
      ∧ ∀ g, g ∉ runOf k → mget t.m.mem.granules g = mget s.m.mem.granules g)
  ∧ (∀ s id k, accepted 0x202 id (fun _ => 0) regionReturnChecks s k = true →
    Runs (.regionReturn id) s fun t => Answered id s t
      ∧ (∀ g, g ∈ runOf k → mget t.m.mem.granules g = none)
      ∧ ∀ g, g ∉ runOf k → mget t.m.mem.granules g = mget s.m.mem.granules g)
  ∧ (∀ s id k, accepted 0x203 id (fun k => 4 * k.argN 0x1C 4) regionQueryChecks s k = true → k.relay = none →
    k.argAddr + 4 * k.argN 0x1C 4 ≤ evtRing ∨ evtRing + 64 * 4096 ≤ k.argAddr → lineBusy s.q k.argAddr (4 * k.argN 0x1C 4) = false →
    Runs (.regionQuery id) s fun t => Answered id s t ∧ t.m.mem.granules = s.m.mem.granules
      ∧ bread t.m.mem.cells k.argAddr (4 * k.argN 0x1C 4) = (runOf k).flatMap fun g =>
          toLe 4 (match mget s.m.mem.granules g with
            | none => 0
            | some x => x.dom + 4096 * (if x.sealed then 2 else 1)))

/-- R364, R366, R407: DOMAIN_TEARDOWN puts the domain into TEARDOWN and begins its drain; at its end the domain's queues go, and once none of its
cores is to be scrubbed TEARDOWN_DRAINED leaves it no placement, Depot region, cached host line or cached translation; TEARDOWN_COMPLETE frees its
granules and key slot and leaves it FREE; DOMAIN_RESET keeps every domain's entry; CORE_RESET leaves the core to be scrubbed.
The rows of a drain come when the sender sends them (log 12). -/
def Obligations.TeardownAndResetRows : Prop :=
  (∀ s id k, accepted 0x102 id (fun _ => 0) domainTeardownChecks s k = true →
    Runs (.domainTeardown id) s fun t => begun id k.dom t
      ∧ mget t.m.doms k.dom = some { domE s.q k.dom with state := 2, tearStep := 0 })
  ∧ (∀ s id k, continues 0x102 id s k = true → (domE s.q k.dom).tearStep = 0 → drained s.q k.dom = true → unscrubbed s.q k.dom = true →
    Runs (.teardownDrained id) s fun t => (domE t.m k.dom).tearStep = 1 ∧ ∀ p ∈ t.m.queues, p.2.ctx.dom ≠ k.dom)
  ∧ (∀ s id k, continues 0x102 id s k = true →
      ((domE s.q k.dom).tearStep = 0 ∧ drained s.q k.dom = true) ∨ (domE s.q k.dom).tearStep = 1 → unscrubbed s.q k.dom = false →
    Runs (.teardownDrained id) s fun t => (domE t.m k.dom).tearStep = 2
      ∧ (∀ p ∈ t.m.hp.place, p.2.dom ≠ k.dom) ∧ (∀ r ∈ t.m.depot.regions, r.2.dom ≠ k.dom)
      ∧ (∀ l ∈ t.m.depot.lines, l.dom ≠ k.dom) ∧ (∀ e ∈ t.m.xl.l2, e.dom ≠ k.dom))
  ∧ (∀ s id k, continues 0x102 id s k = true → (domE s.q k.dom).tearStep ≠ 0 → unscrubbed s.q k.dom = false →
    Runs (.teardownComplete id) s fun t => Answered id s t ∧ (domE t.m k.dom).state = 0
      ∧ mget t.m.keys.slots k.dom = none ∧ ∀ g ∈ t.m.mem.granules, g.2.dom ≠ k.dom)
  ∧ (∀ s id k, accepted 0x0005 id (fun _ => 0) domainResetChecks s k = true → (domE s.q k.dom).state ≠ 2 →
    Runs (.domainReset id) s fun t => Answered id s t ∧ t.m.doms = s.m.doms
      ∧ (∀ l ∈ t.m.depot.lines, l.dom ≠ k.dom) ∧ (∀ e ∈ t.m.xl.l2, e.dom ≠ k.dom))
  ∧ (∀ s id k, accepted 0x0004 id (fun _ => 0) coreResetChecks s k = true → s.m.st.core ≠ some (k.argN 0x18 1) →
    Runs (.coreReset id) s fun t => Answered id s t
      ∧ ∀ x, t.m.cores[k.argN 0x18 1]? = some x → x.regs.dirty = true)

/-! ### Translation and placement (R308 to R316, R333, R194) -/

/-- R308, R310, R311, R316, R333, R194: a page walk that meets a leaf allowing the access leaves it in the shared TLB and
changes no byte of memory; XLATE_INVAL and XLATE_ROOT drop every cached translation of the range and record the epoch
asked for, which becomes the domain's when the invalidation ends; PLACE_REGISTER lists the region with its resolved pages,
PLACE_REMOVE takes it away; STREAM_HALT writes the queue's halt records.
Where the entry goes in the TLB is the model's choice (log 14). -/
def Obligations.TranslationRows : Prop :=
  (∀ s q va w f x l p, live s = true → qGet s.q q = some x → walkCached s.c s.q x.ctx.dom va = .leaf l p →
      pteAllows (if f then Acc.fetch else if w then Acc.write else Acc.read) p = true →
    Runs (.pageWalk q va w f) s fun t => t.m.xl.l2 = l2Put ⟨x.ctx.dom, l, pageOf l va, p⟩ s.m.xl.l2
      ∧ t.m.mem = s.m.mem ∧ t.m.queues = s.m.queues)
  ∧ (∀ s id k, accepted 0x204 id (fun _ => 0) xlateInvalChecks s k = true →
    Runs (.xlateInval id) s fun t => begun id (k.argN 0x28 4) t ∧ (domE t.m k.dom).lastInval = k.argN 0x28 4
      ∧ ∀ e ∈ t.m.xl.l2, tlbIn k.dom (k.argN 0x18 8) (if k.argN 0x2C 1 = 1 then none else some (k.argN 0x20 8)) e = false)
  ∧ (∀ s id k, live s = true → mget s.m.rings.cmds id = some k → k.opcode = 0x204 ∨ k.opcode = 0x205 → k.phase = 1 →
      clerkRuns s.q 1 = true →
      requestsOut s.q k.dom (if k.opcode = 0x205 ∨ k.argN 0x2C 1 = 1 then 0 else k.argN 0x18 8)
        (if k.opcode = 0x205 ∨ k.argN 0x2C 1 = 1 then none else some (k.argN 0x20 8)) = false →
    Runs (.xlateInvalDone id) s fun t => Answered id s t ∧ (domE t.m k.dom).epoch = k.arg)
  ∧ (∀ s id k, accepted 0x205 id (fun _ => 0) xlateRootChecks s k = true →
    Runs (.xlateRoot id) s fun t => begun id (k.argN 0x28 4) t ∧ (domE t.m k.dom).root = k.argN 0x18 8
      ∧ (domE t.m k.dom).lastInval = k.argN 0x28 4 ∧ ∀ e ∈ t.m.xl.l2, e.dom ≠ k.dom)
  ∧ (∀ s id k ps, accepted 0x206 id (fun _ => 0) placeChecks s k = true →
      placePages s.c s.q k.dom (k.argN 0x18 8) (k.argN 0x20 8) (k.argN 0x2C 1 % 2 = 1) (2 ≤ k.argN 0x2C 1) = some ps →
    Runs (.placeRegister id) s fun t => Answered id s t
      ∧ mget t.m.hp.place (mfree s.m.hp.place 0) = some ⟨k.dom, k.argN 0x18 8, k.argN 0x20 8, k.argN 0x28 4 % 65536,
          2 ^ 31 ≤ k.argN 0x28 4, k.argN 0x2C 1 % 2 == 1, 2 ≤ k.argN 0x2C 1, ps⟩)
  ∧ (∀ s id k, accepted 0x207 id (fun _ => 0) placeRemoveChecks s k = true →
    Runs (.placeRemove id) s fun t => Answered id s t ∧ mget t.m.hp.place (k.argN 0x18 2) = none)
  ∧ (∀ s id k l, accepted 0x0003 id (fun k => 256 * k.argN 0x1C 2) streamHaltChecks s k = true → k.relay = none →
      l = ((s.m.cores.zipIdx.flatMap fun x => (x.1.halts.filter fun h => h.q == k.argN 0x18 4).map fun h =>
        haltBytes x.2 h).take (k.argN 0x1C 2)).flatten →
      k.argAddr + l.length ≤ evtRing ∨ evtRing + 64 * 4096 ≤ k.argAddr → lineBusy s.q k.argAddr l.length = false →
    Runs (.streamHalt id) s fun t => Answered id s t ∧ bread t.m.mem.cells k.argAddr l.length = l)

/-! ### The host's accesses (R206 to R208, R322, R327 to R334, R349) -/

/-- R328, R329, R349: a host read of an open line returns its bytes, or ciphertext of a sealed one, changes nothing of
memory, and the line enters the filter; a host write of an open line that does not poison it stores its bytes and no
other; a write of a sealed line leaves it raw; the answer to a back-invalidation takes the line from the filter, and an engine's write that waited for it
alone is stored. -/
def Obligations.HostMemoryAccesses : Prop :=
  (∀ s a l, live s = true → hostLine s.c a = true → hostView s.q a = (l, false) → s.m.hp.filter.length < 1048576 →
    Runs (.cxlMemRead a) s fun t => t.m.out = [.memRead a l] ∧ a / 64 ∈ t.m.hp.filter ∧ t.m.mem = s.m.mem)
  ∧ (∀ s a off data g, live s = true → hostLine s.c a = true → data ≠ [] → off + data.length ≤ 64 →
      mget s.m.mem.granules (granOf a) = some g → g.sealed = false → mhas s.m.mem.bad (a / 64) = false →
    Runs (.cxlMemWrite a off data false) s fun t => bread t.m.mem.cells (a + off) data.length = data
      ∧ (∀ b, b < a + off ∨ a + off + data.length ≤ b → bget t.m.mem.cells b = bget s.m.mem.cells b)
      ∧ t.m.mem.granules = s.m.mem.granules)
  ∧ (∀ s a off data p g, live s = true → hostLine s.c a = true → data ≠ [] → off + data.length ≤ 64 →
      mget s.m.mem.granules (granOf a) = some g → g.sealed = true →
    Runs (.cxlMemWrite a off data p) s fun t => mget t.m.mem.bad (a / 64) = some .raw
      ∧ (∀ b, b < a ∨ a + 64 ≤ b → bget t.m.mem.cells b = bget s.m.mem.cells b))
  ∧ (∀ s a, live s = true →
    Runs (.bisnpResponse a) s fun t => a / 64 ∉ t.m.hp.filter ∧ (∀ l, l ≠ a / 64 → (l ∈ t.m.hp.filter ↔ l ∈ s.m.hp.filter))
      ∧ (s.m.hp.late = [] → t.m.mem = s.m.mem))
  ∧ (∀ s a b l, live s = true → s.m.hp.late = [(b, l)] → l ≠ [] → inImage s.q b l.length = false → (∀ x ∈ hostHolds s.q b l.length, x = a / 64) →
    Runs (.bisnpResponse a) s fun t => t.m.hp.late = [] ∧ bread t.m.mem.cells b l.length = l
      ∧ ∀ x, x < b ∨ b + l.length ≤ x → bget t.m.mem.cells x = bget s.m.mem.cells x)

/-- R207, R208, R322, R334: SnpInv takes the Shared copies of a line away, SnpData and SnpCur keep them, each answers
whether there was one, and a line whose data is pending is dropped on its arrival; data that arrives for a line no snoop
met makes it Shared; a peer's access inside a placement acts on memory, outside one it is refused. -/
def Obligations.SnoopsFillsAndPeers : Prop :=
  (∀ s a, live s = true →
    Runs (.snpInv a) s fun t => (∀ x ∈ t.m.depot.lines, x.addr = a / 64 * 64 → x.shared = false)
      ∧ t.m.out = [.snoopRsp (s.m.depot.lines.any fun x => x.addr == a / 64 * 64 && x.shared) false])
  ∧ (∀ s a x, live s = true → x ∈ s.m.depot.lines → x.addr = a / 64 * 64 → x.shared = false →
    Runs (.snpInv a) s fun t => (x.dom, a / 64 * 64) ∈ t.m.hp.dropped)
  ∧ (∀ s a, live s = true →
    Runs (.snpData a) s fun t => t.m.depot.lines = s.m.depot.lines
      ∧ t.m.out = [.snoopRsp (s.m.depot.lines.any fun x => x.addr == a / 64 * 64 && x.shared) true])
  ∧ (∀ s a, live s = true →
    Runs (.snpCur a) s fun t => t.m.depot.lines = s.m.depot.lines
      ∧ t.m.out = [.snoopRsp (s.m.depot.lines.any fun x => x.addr == a / 64 * 64 && x.shared) true])
  ∧ (∀ s d a data r, live s = true →
      s.m.hp.sent.find? (fun r => r.kind == 3 && r.addr == a / 64 * 64 && r.dom == d) = some r → s.c.tb.partH ≠ 0 →
    (s.m.hp.dropped.contains (d, a / 64 * 64) = false →
      Runs (.hostLineFill d a data) s fun t => ⟨d, a / 64 * 64, true, data.take 64⟩ ∈ t.m.depot.lines
        ∧ t.m.hp.sent = s.m.hp.sent.filter (·.id ≠ r.id))
    ∧ (s.m.hp.dropped.contains (d, a / 64 * 64) = true →
      Runs (.hostLineFill d a data) s fun t => (∀ x ∈ t.m.depot.lines, ¬(x.dom = d ∧ x.addr = a / 64 * 64))
        ∧ t.m.hp.sent = s.m.hp.sent.filter (·.id ≠ r.id)))
  ∧ (∀ s id data r, live s = true → s.m.hp.sent.find? (fun r => r.id == id && r.kind == 1) = some r → r.core = none →
    Runs (.cxlIoReadCompletion id data) s fun t => t.m.hp.sent = s.m.hp.sent.filter (·.id ≠ id)
      ∧ bread t.m.hp.feData r.addr (data.take r.len).length = data.take r.len)
  ∧ (∀ s req a data len p, live s = true → data ≠ [] →
      s.m.hp.place.find? (fun p => data.length ≠ 0 && placeTakes p.2 req true a data.length) = some p →
      writeChk s.m.mem p.2.dom a data.length = .ok → lineBusy s.q a data.length = false →
    Runs (.peerRequest req true a data len) s fun t => bread t.m.mem.cells a data.length = data
      ∧ ∀ b, b < a ∨ a + data.length ≤ b → bget t.m.mem.cells b = bget s.m.mem.cells b)
  ∧ (∀ s req a data len p, live s = true → len ≠ 0 →
      s.m.hp.place.find? (fun p => len ≠ 0 && placeTakes p.2 req false a len) = some p → badIn s.m.mem a len = none → hostHolds s.q a len = [] →
    Runs (.peerRequest req false a data len) s fun t => .peerData (bread s.m.mem.cells a len) ∈ t.m.out ∧ t.m.mem = s.m.mem)
  ∧ (∀ s kind, live s = true → Runs (.unsupportedRequest kind) s fun t =>
    t.m = { s.m with out := [.unsupported, .aer], hp := { s.m.hp with fnc := { s.m.hp.fnc with aerUr := true } } })

/-! ### Translation services and the loss of the host (R193, R313 to R315, R326, R330, R336 to R342) -/

/-- R313 to R315: an ATS invalidation drops every host translation of the PASID in its range; a grant that allows the
access asked for enters the host-translation cache and ends the request; a denial asks the page of the host, under a free
number, and a success of that request asks for the translation again; a request that meets no answer ends.
Which free number a page request takes is the model's choice (log 14). -/
def Obligations.TranslationServices : Prop :=
  (∀ s pasid va size, live s = true →
    Runs (.atsInvalidationRequest pasid va size) s fun t => ∀ e ∈ t.m.xl.host, ¬(e.pasid = pasid ∧
      va < 4096 * e.page + 4096 ∧ 4096 * e.page < va + size))
  ∧ (∀ s pasid va phys rd wr peer r, live s = true →
      s.m.xl.ats.find? (fun r => r.pasid == pasid && r.page == hostPage va && r.sent.isSome) = some r → (if r.wr then wr else rd) = true →
    Runs (.atsCompletion pasid va (.granted phys rd wr peer)) s fun t => t.m.xl.ats = s.m.xl.ats.erase r
      ∧ t.m.xl.host = hostPut ⟨pasid, hostPage va, phys / 4096 * 4096 % 2 ^ 52 + if peer then 2 ^ 52 else 0, rd, wr⟩ s.m.xl.host)
  ∧ (∀ s pasid va r n, live s = true →
      s.m.xl.ats.find? (fun r => r.pasid == pasid && r.page == hostPage va && r.sent.isSome) = some r →
    (r.waiters ≠ [] → prgFree s.q = some n →
      Runs (.atsCompletion pasid va .denied) s fun t => t.m.xl.ats = s.m.xl.ats.erase r
        ∧ mget t.m.xl.prg n = some ⟨pasid, hostPage va, r.wr, r.waiters, false⟩ ∧ ∃ x ∈ t.m.hp.wait, x.kind = 6 ∧ x.addr = n)
    ∧ (r.waiters = [] → Runs (.atsCompletion pasid va .denied) s fun t => t.m.xl.ats = s.m.xl.ats.erase r ∧ t.m.xl.prg = s.m.xl.prg))
  ∧ (∀ s n r, live s = true → mget s.m.xl.prg n = some r → r.sent = true → s.m.xl.stalled = [] →
    Runs (.prgResponse n true) s fun t => mget t.m.xl.prg n = none
      ∧ (r.waiters ≠ [] → t.m.xl.ats = s.m.xl.ats ++ [⟨r.pasid, r.page, r.wr, none, r.waiters⟩]
          ∧ ∃ x ∈ t.m.hp.wait, x.kind = 5 ∧ x.addr = 4096 * r.page ∧ x.va = r.pasid)
      ∧ (r.waiters = [] → t.m.xl.ats = s.m.xl.ats))
  ∧ (∀ s pasid va now r, live s = true →
      s.m.xl.ats.find? (fun r => r.pasid == pasid && r.page == hostPage va
        && r.sent.any fun b => b + s.c.hp.lossTimeout * 1000000 ≤ max s.m.now now) = some r → r.waiters = [] →
    Runs (.noAtsAnswer pasid va now) s fun t => t.m.xl.ats = s.m.xl.ats.erase r)

/-- R326, R337, R341, R342: a function reset clears bus mastering, the MSI-X table and the host translations; a link that
leaves L0 and a cleared Bus Master Enable start the loss timer of an attached host, with the first cause; when that cause clears the timer stops,
or runs from when the other cause began (the model's reading, log 30).
R337 to R342: the host is declared lost when the loss timer has run for the timeout, when an attached host has not
written its heartbeat for the limit, and at DETACH; then no host translation, resident host line or request stays. ATTACH
starts the next epoch with the orphan policy it names. -/
def Obligations.HostLinkAndLoss : Prop :=
  ((∀ s t0, live s = true → Runs (.flr t0) s fun t => t.m.hp.bme = false ∧ t.m.irq.table = [] ∧ t.m.irq.pba = s.m.irq.pba
      ∧ t.m.xl.host = [] ∧ t.m.now = max s.m.now t0)
  ∧ (∀ s t0, live s = true → s.m.hp.attached = true → s.m.hp.lost = false → s.m.hp.lossStart = none →
    Runs (.busMasterEnableClear t0) s fun t => t.m.hp.bme = false ∧ t.m.hp.lossStart = some (max s.m.now t0) ∧ t.m.hp.lossCause = 2)
  ∧ (∀ s t0, live s = true → s.m.hp.attached = true → s.m.hp.lost = false → s.m.hp.lossStart = none →
    Runs (.hostLinkDown t0) s fun t => t.m.hp.l0 = false ∧ t.m.hp.lossStart = some (max s.m.now t0) ∧ t.m.hp.lossCause = 1)
  ∧ (∀ s t0 b, live s = true → s.m.hp.lossStart = some b →
    (Runs (.hostLinkDown t0) s fun t => t.m.hp.lossStart = some b ∧ t.m.hp.lossCause = s.m.hp.lossCause)
      ∧ Runs (.busMasterEnableClear t0) s fun t => t.m.hp.lossStart = some b ∧ t.m.hp.lossCause = s.m.hp.lossCause)
  ∧ (∀ s cause t0, live s = true →
    Runs (.hostLinkRestored cause t0) s fun t => (cause = 1 → t.m.hp.l0 = true ∧ t.m.hp.bme = s.m.hp.bme)
      ∧ (cause ≠ 1 → t.m.hp.bme = true ∧ t.m.hp.l0 = s.m.hp.l0)
      ∧ t.m.hp.lossStart = if s.m.hp.lossStart ≠ none ∧ s.m.hp.lossCause = cause then s.m.hp.lossNext else s.m.hp.lossStart))
  ∧ ((∀ s t0 b, live s = true → s.m.hp.lossStart = some b → b + s.c.hp.lossTimeout * 1000000 ≤ max s.m.now t0 →
    Runs (.lossTimerExpiry t0) s fun t => t.m.hp.lost = true ∧ t.m.hp.attached = false ∧ t.m.hp.cause = s.m.hp.lossCause
      ∧ t.m.hp.wait = [] ∧ t.m.xl.host = [] ∧ t.m.xl.ats = [] ∧ t.m.depot.lines = [])
  ∧ (∀ s t0, live s = true → s.m.hp.attached = true → s.m.hp.lost = false → s.c.hp.hbLimit ≠ 0 →
      s.m.hp.hbStart + s.c.hp.hbLimit * 1000000 ≤ max s.m.now t0 →
    Runs (.heartbeatLimitExpiry t0) s fun t => t.m.hp.lost = true ∧ t.m.hp.attached = false ∧ t.m.hp.cause = 3
      ∧ t.m.hp.wait = [] ∧ t.m.xl.host = [] ∧ t.m.depot.lines = [])
  ∧ (∀ s id k, accepted 0x0002 id (fun _ => 0) detachChecks s k = true → s.m.hp.attached = true → s.m.hp.lost = false →
    Runs (.detach id) s fun t => mget t.m.rings.cmds id = none ∧ t.m.hp.lost = true ∧ t.m.hp.cause = 4)
  ∧ (∀ s id k, accepted 0x0001 id (fun _ => 24) attachChecks s k = true → s.m.hp.attached = false → s.m.hp.l0 = true →
      s.m.hp.bme = true →
    Runs (.attach id) s fun t => Answered id s t ∧ t.m.hp.epoch = (s.m.hp.epoch + 1) % 2 ^ 32 ∧ t.m.hp.lost = false
      ∧ t.m.hp.attached = true ∧ t.m.hp.orphan = k.argN 0x18 1 ∧ t.m.hp.hbStart = s.m.now ∧ t.m.hp.lossStart = none))

/-- R330, R336: a read that may go and that no other precedes is sent, and leaves the outbound queue; a posted write that
may go is sent, and its page counts as not flushed; the end of a flush makes the writes before it visible. -/
def Obligations.OutboundQueue : Prop :=
  (∀ s id t0 r, live s = true → (refill s.c (tickTo t0 s.q)).hp.wait.find? (·.id == id) = some r → r.kind = 1 →
      hpReady (refill s.c (tickTo t0 s.q)) r = true → (∀ x ∈ s.m.hp.wait, x.id ≠ id → hpReady (refill s.c (tickTo t0 s.q)) x = false) →
    Runs (.hostRequestSend id t0) s fun t => .hostRead r.addr r.len true ∈ t.m.out ∧ r ∈ t.m.hp.sent
      ∧ ∃ new, t.m.hp.wait = s.m.hp.wait.filter (·.id ≠ r.id) ++ new ∧ ∀ x ∈ new, s.m.hp.seq ≤ x.id)
  ∧ (∀ s id t0 r, live s = true → (refill s.c (tickTo t0 s.q)).hp.wait.find? (·.id == id) = some r → r.kind = 0 →
      hpReady (refill s.c (tickTo t0 s.q)) r = true → (∀ x ∈ s.m.hp.wait, x.id ≠ id → hpReady (refill s.c (tickTo t0 s.q)) x = false) →
      s.m.hp.unflushed.length < 256 →
    Runs (.hostRequestSend id t0) s fun t => .hostWrite r.addr r.data true ∈ t.m.out
      ∧ t.m.hp.unflushed = unflush (r.addr / 4096) r.id s.m.hp.unflushed
      ∧ ∃ new, t.m.hp.wait = s.m.hp.wait.filter (·.id ≠ r.id) ++ new ∧ ∀ x ∈ new, s.m.hp.seq ≤ x.id)
  ∧ (∀ s id r, live s = true → s.m.hp.sent.find? (fun r => r.id == id && r.kind == 2) = some r →
    Runs (.flushReadComplete id) s fun t => t.m.hp.sent = s.m.hp.sent.filter (·.id ≠ id)
      ∧ ∀ p ∈ t.m.hp.unflushed, fnOf (4096 * p.1) ≠ r.addr ∨ id ≤ p.2)


/-! ### Kernel words: the C and P slots (R122 to R135, R144 to R157) -/

/-- R126, R135: a LOOP of count 0 goes on behind its ENDL, another makes its level active at index 0; ENDL starts the next
iteration at its target or ends the level; BRL goes to its target exactly when its condition holds. Only the core changes.
R131, R134: SWAP exchanges the front and the back half of the scratchpad and writes neither; END ends the
tile-command's program, so that no later word issues; a NOP changes no more than the address the core goes on at.
R122, R123: a word with an operation for a slot whose queue is full is held back, and changes nothing else. -/
def Obligations.SequencerWords : Prop :=
  ((∀ s k x u l n e, issues k 6 s x u → l < 4 → mhas x.loops l = false → opnd u n = 0 →
    Runs (.loop k l n e) s fun t => onlyCore k s t ∧ t.m.cores[k]? = some { x with pc := some (e + 1) })
  ∧ (∀ s k x u l n e, issues k 6 s x u → l < 4 → mhas x.loops l = false → opnd u n ≠ 0 →
    Runs (.loop k l n e) s fun t => onlyCore k s t ∧ ∃ y, t.m.cores[k]? = some y ∧ y = { x with loops := y.loops, pc := none }
      ∧ mget y.loops l = some (0, opnd u n) ∧ ∀ j, j ≠ l → mget y.loops j = mget x.loops j)
  ∧ (∀ s k x u l i n e, issues k 6 s x u → mget x.loops l = some (i, n) → i + 1 < n →
    Runs (.endl k l e) s fun t => onlyCore k s t ∧ ∃ y, t.m.cores[k]? = some y ∧ y = { x with loops := y.loops, pc := some e }
      ∧ mget y.loops l = some (i + 1, n) ∧ ∀ j, j ≠ l → mget y.loops j = mget x.loops j)
  ∧ (∀ s k x u l i n e, issues k 6 s x u → mget x.loops l = some (i, n) → n ≤ i + 1 →
    Runs (.endl k l e) s fun t => onlyCore k s t ∧ ∃ y, t.m.cores[k]? = some y ∧ y = { x with loops := y.loops, pc := none }
      ∧ mget y.loops l = none ∧ ∀ j, j ≠ l → mget y.loops j = mget x.loops j)
  ∧ ∀ s k x u l i n b e, issues k 6 s x u → mget x.loops l = some (i, n) →
    Runs (.brl k l b e) s fun t => onlyCore k s t ∧ t.m.cores[k]? = some { x with pc :=
      if (b = .first ∧ i = 0) ∨ (b = .last ∧ i + 1 = n) ∨ (b = .notFirst ∧ i ≠ 0) ∨ (b = .notLast ∧ i + 1 ≠ n) then some e else none })
  ∧ (∀ i s k l x u, wordSlot i = some (k, l) → live s = true → issuing s.q k = some (x, u) → x.waiting = none → slotFull x l = true →
    Runs i s fun t => onlyCore k s t ∧ t.m.cores[k]? = some { x with waiting := some (0x200 + l) })
  ∧ ((∀ s k x u, issues k 6 s x u → Runs (.swap k) s fun t => onlyCore k s t ∧ ∃ y, t.m.cores[k]? = some y
      ∧ y = { x with front := y.front, pc := none } ∧ winHalf y false = winHalf x true ∧ winHalf y true = winHalf x false)
  ∧ (∀ s k x u, issues k 6 s x u → Runs (.endOp k) s fun t => onlyCore k s t
      ∧ t.m.cores[k]? = some { x with tc := some { u with ended := true }, pc := none } ∧ ∀ l, canIssue t.m k l = none)
  ∧ ∀ s k x u, issues k 6 s x u → Runs (.nop k) s fun t => onlyCore k s t ∧ t.m.cores[k]? = some { x with pc := none })

/-- R123, R156, R157, R475: an ENQUEUE whose target may be forwarded to by its domain, and has room, reserves the next entries of the
target's ring and remembers where its descriptor stands; it writes no ring entry and no tail yet. Without room the word is held back.
One whose target fails the check, or the 17th of a tile-command, ends its tile-command.
R145, R146, R147: a WAIT holds back the words after it while its route's count has not met the sequence, FENCE while an
earlier operation has not retired; POST to a local route raises that route's count by one modulo 65,536, POST to a post line
stands behind every block sent on the line.
A reservation is a count of entries, taken at publication (the model's reading, log 47); a WAIT that is held back is sent again (log 13). -/
def Obligations.EnqueueWaitFenceAndPost : Prop :=
  ((∀ s k x u a b o n y z m1, live s = true → issuing s.q k = some (x, u) → x.waiting = none ∨ x.waiting = some 0x300 → x.enqs.length < 16 →
      affN x u o % 2 ^ 64 + 128 * (if n = 256 then 2 else 1) ≤ 0x300000 → m1 = enqLoaded s u a →
      targetOk m1 (qDom m1 u.q) (nth u.params a % 2 ^ 20) = true → qGet m1 (nth u.params a % 2 ^ 20) = some y → m1.cores[k]? = some z →
    ((if n = 256 then 2 else 1) ≤ ringFree y →
      Runs (.enqueue k a b o n) s fun t =>
        t.m.cores[k]? = some { z with
          enqs := z.enqs ++ [⟨nth u.params a % 2 ^ 20, m1.arb.nextOp, if n = 256 then 2 else 1, if b then 1 - x.front else x.front,
            affN x u o % 2 ^ 64, none, false⟩]
          pc := none, waiting := none }
        ∧ qGet t.m (nth u.params a % 2 ^ 20) = some { y with reserved := y.reserved ++ [(m1.arb.nextOp, if n = 256 then 2 else 1)] }
        ∧ (∀ r, r ≠ nth u.params a % 2 ^ 20 → qGet t.m r = qGet m1 r) ∧ (∀ j, j ≠ k → t.m.cores[j]? = m1.cores[j]?)
        ∧ t.m = { m1 with cores := t.m.cores, queues := t.m.queues, arb := { m1.arb with nextOp := m1.arb.nextOp + 1 } })
    ∧ (ringFree y < (if n = 256 then 2 else 1) →
      Runs (.enqueue k a b o n) s fun t => t.m = setWait k (some 0x300) m1))
  ∧ (∀ s k x u a b o n m1, live s = true → issuing s.q k = some (x, u) → x.waiting = none ∨ x.waiting = some 0x300 → x.enqs.length < 16 →
      affN x u o % 2 ^ 64 + 128 * (if n = 256 then 2 else 1) ≤ 0x300000 → m1 = enqLoaded s u a →
      targetOk m1 (qDom m1 u.q) (nth u.params a % 2 ^ 20) = false →
    Runs (.enqueue k a b o n) s fun t => t.m = endTile k stPermission 0 m1)
  ∧ ∀ s k x u a b o n, live s = true → issuing s.q k = some (x, u) → x.waiting = none ∨ x.waiting = some 0x300 → 16 ≤ x.enqs.length →
    Runs (.enqueue k a b o n) s fun t => t.m = endTile k stParamRange 0xFFFF s.q)
  ∧ ((∀ s k x u r q, live s = true → issuing s.q k = some (x, u) → x.waiting = none ∨ x.waiting = some r →
    Runs (.wait k r q) s fun t => onlyCore k s t ∧ t.m.cores[k]? = some { x with waiting :=
      if (routeCount s.q x u r + 2 ^ 16 - affN x u q % 2 ^ 16) % 2 ^ 16 < 2 ^ 15 then none else some r })
  ∧ (∀ s k x u, live s = true → issuing s.q k = some (x, u) → x.waiting = none ∨ x.waiting = some 0x100 →
    Runs (.fence k) s fun t => onlyCore k s t ∧ t.m.cores[k]? = some { x with waiting :=
      if (∀ l ∈ x.slots, l = []) ∧ (∀ e ∈ x.enqs, e.bytes.isSome = true) then none else some 0x100 })
  ∧ (∀ s k x u r, issues k 6 s x u → r < 0x40 →
    Runs (.post k r) s fun t => onlyCore k s t ∧ ∃ y, t.m.cores[k]? = some y ∧ y = { x with routes := y.routes }
      ∧ mget y.routes r = some (((mget x.routes r).getD 0 + 1) % 65536) ∧ ∀ j, j ≠ r → mget y.routes j = mget x.routes j)
  ∧ ∀ s k x u r, issues k 6 s x u → 0x40 ≤ r → r < 0x48 →
    Runs (.post k r) s fun t => onlyCore k s t ∧ ∃ y, t.m.cores[k]? = some y ∧ y = { x with rings := y.rings }
      ∧ mget y.rings (r - 0x38) = some ((mget x.rings (r - 0x38)).getD [] ++ [(0, [])])
      ∧ ∀ j, j ≠ r - 0x38 → mget y.rings j = mget x.rings j)

/-- R124, R145: the operation at the head of a slot's queue, in an S slot one of its own, with nothing outstanding, leaves every queue
it has a part in and posts one count for each of its stamps; an ENQUEUE that retires reads its descriptor from the half
that was in front when it issued.
R149 to R151, R190: a block at the head of a gang member's outbound line enters the consumer's receive ring when
the ring has room for it, leaves the producer's line, and raises the line's route; with no data only the route rises. -/
def Obligations.StampsAndPostLines : Prop :=
  ((∀ s k x l r, live s = true → s.m.cores[k]? = some x → x.tc.isSome = true → headOp x l = some r →
      l = 4 ∨ l = 5 ∨ (l < 4 ∧ r.op ≠ 0 ∧ ∀ p ∈ x.slots.getD 4 [] ++ x.slots.getD 5 [], p.op ≠ r.op) → r.undrained = false → opDone s.q x r.op = true → partsReady x r.op = true →
    Runs (.operationRetire k l) s fun t => onlyCore k s t ∧ ∃ y, t.m.cores[k]? = some y
      ∧ y = { x with slots := x.slots.map fun q => q.filter (·.op ≠ r.op), routes := y.routes }
      ∧ ∀ j, (mget y.routes j).getD 0 % 65536 = ((mget x.routes j).getD 0 + r.stamps.count j) % 65536)
  ∧ ∀ s k x a e b, live s = true → s.m.cores[k]? = some x → x.tc.isSome = true → x.enqs = a ++ e :: b →
      (∀ i ∈ a, i.bytes.isSome = true) → e.bytes = none →
    Runs (.operationRetire k 6) s fun t => onlyCore k s t ∧ t.m.cores[k]? = some { x with
      enqs := a ++ { e with bytes := some (bread (halfOf x e.half) e.off (128 * e.n)) } :: b })
  ∧ (∀ s k l d x j p, live s = true → s.m.cores[k]? = some x → producerOf s.q k l d = some (j, p) →
      d = [] ∨ ringUsed x l + 256 ≤ ringSize x l →
    Runs (.postLineBlockAccept k l d) s fun t =>
      (∃ y, t.m.cores[k]? = some y ∧ mget y.routes (0x40 + l) = some (((mget x.routes (0x40 + l)).getD 0 + 1) % 65536)
        ∧ (d ≠ [] → mget y.rings l = some ((mget x.rings l).getD [] ++ [(0, d)])) ∧ (d = [] → mget y.rings l = mget x.rings l))
      ∧ (∃ y z, s.m.cores[j]? = some y ∧ t.m.cores[j]? = some z ∧ mget z.rings (8 + p) = (mget y.rings (8 + p)).map (·.drop 1))
      ∧ (s.m.arb.later = [] → (∀ i, i ≠ k → i ≠ j → t.m.cores[i]? = s.m.cores[i]?) ∧ t.m = { s.q with cores := t.m.cores }))

/-! ### Streams (R29 to R33, R48, R66, R99, R118, R130, R136, R138, R150, R174 to R177) -/

/-- R124, R136, R174, R175: FETCH and PUT, once their checks pass, the source has come and the destination can be written,
write the source's codes into the destination's elements in stream order, and the operation stands last in its slot's
queue. R182, R204: for device memory and the Depot the bytes go with the requests of the segments, and no byte of either has changed yet.
R48, R66, R99, R118: CODEBOOK writes the entries of its slot in order and no other slot, TABLE replaces its slot's segment
table once no operation uses the slot, WSTORE writes the weights it reads, as FP32 values, row after row of 256 columns. Memory is not
written.
A row issues and executes at once (the model's choice, log 7). -/
def Obligations.LoadsAndCopies : Prop :=
  (∀ s k unit x u r src dst st a b m1 m2 codes tab dt i, issues k unit s x u →
    (i = .fetch k unit src dst st ∧ unit < 4 ∧ r = roleSrc) ∨ (i = .put k src dst st ∧ unit = 2 ∧ r = rolePut) →
    a = sdOf x u src → b = sdOf x u dst → copyChk s.q x unit u r src dst a b = none →
    readCodes s.c (acsOf s.q k unit u a) (sdCount a) s.q = (m1, .ok (codes, tab)) →
    dstReady s.c (acsOf s.q k unit u b) (pieces b (sdCount a)) (pack b (pieces b (sdCount a)) codes) m1 = (m2, .ok dt) →
    Runs i s fun t => t.m.arb.nextOp = m2.arb.nextOp + 1
      ∧ (∀ y, m2.cores[k]? = some y → ∃ z, t.m.cores[k]? = some z
        ∧ z.slots = lupd y.slots unit (· ++ [⟨m2.arb.nextOp, st.toList, usesOf a ++ usesOf b, false⟩])
        ∧ (winHalf z false = if b.space = 1 then bufPut (winHalf y false) (pieces b codes.length) (pack b (pieces b codes.length) codes) else winHalf y false)
        ∧ (winHalf z true = if b.space = 2 then bufPut (winHalf y true) (pieces b codes.length) (pack b (pieces b codes.length) codes) else winHalf y true))
      ∧ (b.space = 3 → x.gone = [] → (regionOf m2 u (sdHandle b)).isSome = true → ∀ g ∈ segments b (pieces b codes.length),
          ∃ q ∈ t.m.arb.later ++ t.m.arb.waiting, q.write = true ∧ q.who = k ∧ q.unit = unit ∧ q.addr = g.1 ∧ q.n = g.2
            ∧ q.depot = (if sdHandle b = 0xFFFF then some (true, 2 ^ 20 * u.desc + u.q) else some (false, sdHandle b))
            ∧ q.data = bread (bufPut [] (pieces b codes.length) (pack b (pieces b codes.length) codes)) g.1 g.2)
      ∧ (b.space = 0 → x.gone = [] → ∀ g ∈ segments b (pieces b codes.length), ∀ p, tabFind dt (g.1 / 64) = some (.dev p) →
          ∃ q ∈ t.m.arb.later ++ t.m.arb.waiting, q.write = true ∧ q.who = k ∧ q.unit = unit ∧ q.addr = p + g.1 % 64 ∧ q.n = g.2
            ∧ q.data = bread (bufPut [] (pieces b codes.length) (pack b (pieces b codes.length) codes)) g.1 g.2)
      ∧ t.m.depot.regions = m2.depot.regions
      ∧ t.m.mem = s.m.mem ∧ t.c = s.c ∧ t.pending = s.pending)
  ∧ ((∀ s k x u slot size p st n a m1 l tab y, issues k 3 s x u → slot < 4 → size = 16 ∨ size = 256 →
      n = loadCount p 2 (2 * size) → a = sdOf x u p → sdCheck s.q u ((roleWords 0xB).on x 3 a) n (paramSlot p.base.c) a = none →
      srcBytes s.c (acsOf s.q k 3 u a) (pieces a n) s.q = (m1, .ok (l, tab)) → m1.cores[k]? = some y →
    Runs (.codebook k slot size p st) s fun t => ∃ z, t.m.cores[k]? = some z
      ∧ (∀ i, i < size → mget z.codebooks (256 * slot + i) = some (leAt l (2 * i) 2))
      ∧ (∀ i, i < 256 * slot ∨ 256 * slot + size ≤ i → mget z.codebooks i = mget y.codebooks i) ∧ t.m.mem = s.m.mem)
  ∧ (∀ s k x u slot p st n a m1 l tab y, issues k 3 s x u → slot < 2 → tableUsed x slot = false →
      n = loadCount p 4 1036 → a = sdOf x u p → sdCheck s.q u ((roleWords 0xC).on x 3 a) n (paramSlot p.base.c) a = none →
      srcBytes s.c (acsOf s.q k 3 u a) (pieces a n) s.q = (m1, .ok (l, tab)) → m1.cores[k]? = some y →
    Runs (.table k slot p st) s fun t => ∃ z, t.m.cores[k]? = some z ∧ mget z.tables slot = some l
      ∧ (∀ i, i ≠ slot → mget z.tables i = mget y.tables i) ∧ t.m.mem = s.m.mem)
  ∧ (∀ s k x u slot p st, issues k 3 s x u → slot < 2 → tableUsed x slot = true →
      sdCheck s.q u ((roleWords 0xC).on x 3 (sdOf x u p)) (loadCount p 4 1036) (paramSlot p.base.c) (sdOf x u p) = none →
    Runs (.table k slot p st) s fun t => t.m = s.q)
  ∧ ∀ s k x u p e st n w gs a m1 l tab y, issues k 3 s x u → n = p.counts.foldl (· * ·) 1 → w = nth p.counts 0 → w ≤ 256 → n ≤ 225 * w →
      gs = cdiv (n / max 1 w) (max 1 (groupSize e.group)) → elemBad x u e (w * gs) = none →
      zpGrainBad x u (if p.kind = 4 then 0xC else p.format) w (n / max 1 w) (weightZp e.zp) = false →
      a = sdOf x u p → sdCheck s.q u ((⟨anyFmt, (fun q => q = 0 || q = 4), srcSpace, false, false, false⟩ : Role).on x 3 a) n (paramSlot p.base.c) a = none →
      srcBytes s.c (acsOf s.q k 3 u a) (pieces a n) s.q = (m1, .ok (l, tab)) → m1.cores[k]? = some y →
    Runs (.wstore k p e st) s fun t => ∃ z, t.m.cores[k]? = some z ∧ t.m.mem = s.m.mem
      ∧ ∀ i v, (unpack a (pieces a n) l)[i]? = some v →
        mget z.wstore (256 * (i / max 1 w) + i % max 1 w)
          = some (elemF y u e (if a.kind = 4 then 0xC else a.fmt)
              (zpGrainVal y u (if a.kind = 4 then 0xC else a.fmt) (n / max 1 w) (i % max 1 w) (i / max 1 w) (weightZp e.zp))
              (i % max 1 w * gs + i / max 1 w / max 1 (groupSize e.group)) v))

/-- R31, R32, R33: elements of 4, 6, 8, 16 and 32 bits are packed into bytes so that each is read back; and a buffer written
in pieces that do not overlap reads back the bytes written.
R87: the absolute value and the negation of an FP32 code change its sign bit and no other, but for a NaN, which becomes
the default NaN; minimum and maximum give one of their operands where neither is a NaN, and a NaN where one is. -/
def Obligations.NumberFormatsKeepTheirValues : Prop :=
  ((∀ s cs, (∀ c ∈ cs, c < 2 ^ sdBits s) → sdBits s ∈ [4, 6, 8, 16, 32] → unpackRow s cs.length (packRow s cs) = cs)
  ∧ (∀ s cs, sdBits s ∈ [4, 6, 8, 16, 32] → (packRow s cs).length = rowSize s cs.length)
  ∧ ∀ b ps l, ps.Pairwise (fun p q => p.a + p.n ≤ q.a ∨ q.a + q.n ≤ p.a) → l.length = pieceBytes ps → bufBytes (bufPut b ps l) ps = l)
  ∧ ((∀ v, v < 2 ^ 32 → fvIsNan (dec32 v) = false → absF v = v % 2 ^ 31 ∧ negF v = (v + 2 ^ 31) % 2 ^ 32)
  ∧ (∀ v, fvIsNan (dec32 v) = true → absF v = 0x7FC00000 ∧ negF v = 0x7FC00000)
  ∧ (∀ a b, fvIsNan (dec32 a) = false → fvIsNan (dec32 b) = false →
      (minF a b = a ∨ minF a b = b) ∧ (maxF a b = a ∨ maxF a b = b)
        ∧ fvLt (dec32 b) (dec32 (minF a b)) = false ∧ fvLt (dec32 (maxF a b)) (dec32 b) = false)
  ∧ ∀ a b, fvIsNan (dec32 a) = true ∨ fvIsNan (dec32 b) = true → minF a b = 0x7FC00000 ∧ maxF a b = 0x7FC00000)

/-- R136, R138: STAT, MOVE and SIDE check their streams and keep them for the array word; nothing is read yet.
R137 to R140: an MMA whose checks pass and whose streams have come takes the latched streams and their stamps, records
its threshold in the descriptor, ends or extends the chain, gives the array's result to the epilogue where the chain ends,
and leaves memory as it was. -/
def Obligations.ArrayWords : Prop :=
  ((∀ s k x u p st, issues k 0 s x u → x.statSd = none → sdCheck s.q u roleStat 0 (paramSlot p.base.c) (sdOf x u p) = none →
    Runs (.stat k p st) s fun t => onlyCore k s t ∧ t.m.cores[k]? = some { x with
      statSd := some (sdOf x u p),
      arrayStamps := x.arrayStamps ++ st.toList, slots := lupd x.slots 0 (· ++ [⟨0, [], usesOf (sdOf x u p), false⟩]) })
  ∧ (∀ s k x u p st, issues k 1 s x u → x.moveSd = none → sdCheck s.q u roleMove 0 (paramSlot p.base.c) (sdOf x u p) = none →
    Runs (.move k p st) s fun t => onlyCore k s t ∧ t.m.cores[k]? = some { x with
      moveSd := some (sdOf x u p),
      arrayStamps := x.arrayStamps ++ st.toList, slots := lupd x.slots 1 (· ++ [⟨0, [], usesOf (sdOf x u p), false⟩]) })
  ∧ ∀ s k x u a b c d e f g st, issues k 3 s x u → x.side = none → sideChk s.q x u a b c d e f g = none →
    Runs (.side k a b c d e f g st) s fun t => onlyCore k s t ∧ t.m.cores[k]? = some { x with
      side := some ⟨a.map (sdOf x u), b.map (sdOf x u), c.map (sdOf x u), d.map (sdOf x u), e.map (sdOf x u), f.map (sdOf x u), g.map (sdOf x u)⟩,
      arrayStamps := x.arrayStamps ++ st.toList,
      slots := lupd x.slots 3 (· ++ [⟨0, [], ([a, b, c, d, e, f, g].filterMap fun o => o.map (sdOf x u)).flatMap usesOf, false⟩]) })
  ∧ (∀ s k x u o st mv m1 got y, issues k 4 s x u → x.statSd = some st → x.moveSd = some mv → x.result = none →
    mmaBad s.q x u o st mv (x.side.getD noSide) = none → (st.win.any fun w => emptyOut (geoOf st.counts w)) = false →
    readAll s.c k u (mmaPlan s.q x u o st mv (x.side.getD noSide)).wants s.q = (m1, .ok got) → m1.cores[k]? = some y →
    Runs (.mma k o) s fun t =>
      let p := mmaPlan s.q x u o st mv (x.side.getD noSide)
      let f := planFed x u o st mv (x.side.getD noSide) p got
      let r := mmaOut (mmaIn o f) (y.chain.map (·.sums))
      let os := outlierSums p.rows p.vecs p.outs f.outSt f.outMv ((y.chain.map (·.outl)).getD [])
      ∃ z, t.m.cores[k]? = some z ∧ z.statSd = none ∧ z.moveSd = none ∧ z.side = none ∧ z.arrayStamps = [] ∧ t.m.mem = s.m.mem
        ∧ z.acc = (if throughAcc o f then accPut y.acc y.accNext r.1 else y.acc) ∧ z.cells = arrayCells (o.orient = .transposed) y.cells (mmaIn o f)
        ∧ (o.chain = .opn ∨ o.chain = .cont →
            z.chain = some ⟨affN y u o.m, affN y u o.n, p.rows, p.vecs, o.orient, o.group, o.stFmt, o.mvFmt, r.1, os⟩
              ∧ z.result = y.result ∧ z.clip = min (y.clip + r.2) (2 ^ 32 - 1))
        ∧ (o.chain = .sole ∨ o.chain = .close →
            z.chain = none ∧ z.result = (mmaRun u o p.rows p.vecs p.outs f y).result ∧ (z.result.map (·.array)) = some true))

/-- R91, R124, R138, R152: a DRAIN whose destinations can be written takes the result away, writes each row by its stream and
the generated scales by theirs, and lets the operation that made the result retire, with the DRAIN's stamp.
A row issues and executes at once (the model's choice, log 7). -/
def Obligations.DrainTakesTheResult : Prop :=
  (∀ s k x u d sc st res op m1 all y, issues k 2 s x u → x.result = some res → undrainedOp x (if res.array then 4 else 5) = some op →
      drainChk s.q x u d sc res = none →
      partsGo s.c k u (drainParts s.q x u d res ++ drainScales x u sc res) s.q = (m1, .ok all) → m1.cores[k]? = some y →
    Runs (.drain k d sc st) s fun t => ∃ z, t.m.cores[k]? = some z ∧ z.result = none
      ∧ ((z.slots.getD (if res.array then 4 else 5) []) = (y.slots.getD (if res.array then 4 else 5) []).map fun r =>
          if r.op = op.op then { r with undrained := false, stamps := r.stamps ++ st.toList } else r))
  ∧ ∀ s k x u d st res op, issues k 2 s x u → x.result = some res → res.array = false → res.scales = [] → u.merged ≤ 1 → undrainedOp x 5 = some op →
      drainChk s.q x u d none res = none → (sdOf x u d).space = 1 →
    Runs (.drain k d none st) s fun t => ∃ z, t.m.cores[k]? = some z ∧ t.m.mem = s.m.mem
      ∧ (let b := sdOf x u d
         let cs := res.rows.flatten
         winHalf z false = bufPut (winHalf x false) (pieces b cs.length) (pack b (pieces b cs.length) cs))

/-! ### The array and the V slot (R50, R63 to R76, R86 to R102, R116 to R120, R137 to R143) -/

/-- R69: in plain integer mode the drain accumulators give the exact sum of products, in whatever order the blocks come,
unless a saturation was counted; and no saturation is counted on a reduction of at most 32,768 products of 0x0 to 0x3
operands, whose magnitude is at most 65,025. -/
def Obligations.PlainIntegerSumsAreExact : Prop :=
  (∀ order prev st mv, st.length = mv.length → order.Perm (List.range (cdiv st.length 128)) → prev.getD 0 < 2 ^ 32 →
    (plainOut order prev st mv).2 = 0 →
    i32 (plainOut order prev st mv).1 = i32 (prev.getD 0) + ((st.zip mv).map fun p => p.1 * p.2).sum)
  ∧ ∀ order st mv, st.length = mv.length → order.Perm (List.range (cdiv st.length 128)) → st.length ≤ 32768 →
    (∀ p ∈ st.zip mv, (p.1 * p.2).natAbs ≤ 65025) → (plainOut order none st mv).2 = 0

/-- R87, R96, R143: an elementwise operation whose places hold its elements writes, element by element, the operation's
value of its sources, to registers, a window or the result for DRAIN, and counts no clip event; EPI configures the epilogue. -/
def Obligations.ElementwiseVectorWords : Prop :=
  (∀ s k x u d a b l n i f, vReady s k x u l n (f32Places d [a, b] n) →
      (i, f) ∈ [(Instr.vadd k d a b l, addF), (.vsub k d a b l, subF), (.vmul k d a b l, mulF), (.vdiv k d a b l, divF),
        (.vmin k d a b l, minF), (.vmax k d a b l, maxF)] →
    Runs i s fun t => vWrote k d u ((vGet x u 0xC noZp 0 n a).zipWith f (vGet x u 0xC noZp 0 n b)) s t x)
  ∧ (∀ s k x u d a l n i f g, vReady s k x u l n (f32Places d [a] n) →
      (i, f) ∈ [(Instr.vabs k d a l, absF), (.vneg k d a l, negF), (.vrcp k d a l, rcpF), (.vrsq k d a l, rsqF),
        (.vsqrt k d a l, sqrtF), (.vexp2 k d a l, exp2F), (.vlog2 k d a l, log2F), (.vfun k g d a l, tableFn g)] →
    Runs i s fun t => vWrote k d u ((vGet x u 0xC noZp 0 n a).map f) s t x)
  ∧ (∀ s k x u d a b c l n, vReady s k x u l n (f32Places d [a, b, c] n) →
    Runs (.vfma k d a b c l) s fun t => vWrote k d u
      ((List.range n).map fun i => fmaF (nth (vGet x u 0xC noZp 0 n a) i) (nth (vGet x u 0xC noZp 0 n b) i) (nth (vGet x u 0xC noZp 0 n c) i)) s t x)
  ∧ ∀ s k x u o, issues k 5 s x u →
    Runs (.epi k o) s fun t => ∃ y, vEntered k false [] s t x y ∧ y = { x with epi := some o, slots := y.slots, begun := y.begun }

/-- R143: VCMP writes truth values that VSEL reads back, whatever codes an engine gives them; VSEL takes an element of its
second source where the truth value holds and of its third elsewhere; VTAB looks its elements up in a usable segment
table.
The codes of the truth values are free (log 43). -/
def Obligations.CompareSelectAndTable : Prop :=
  (∀ b, isTrue (truthCode b) = b)
  ∧ (∀ s k x u q d a b l n, vReady s k x u l n (f32Places d [a, b] n) →
    Runs (.vcmp k q d a b l) s fun t => ∃ codes, vWrote k d u codes s t x ∧ codes.length = n
      ∧ ∀ i, i < n → isTrue (nth codes i) = cmpF q (nth (vGet x u 0xC noZp 0 n a) i) (nth (vGet x u 0xC noZp 0 n b) i))
  ∧ (∀ s k x u d c a b l n, vReady s k x u l n (f32Places d [c, a, b] n) →
    Runs (.vsel k d c a b l) s fun t => ∃ codes, vWrote k d u codes s t x ∧ codes.length = n
      ∧ ∀ i, i < n → nth codes i = if isTrue (nth (vGet x u 0xC noZp 0 n c) i) then nth (vGet x u 0xC noZp 0 n a) i else nth (vGet x u 0xC noZp 0 n b) i)
  ∧ ∀ s k x u j d a l n, vReady s k x u l n (f32Places d [a] n) → userTabOk ((mget x.tables j).getD []) = true →
    Runs (.vtab k j d a l) s fun t => vWrote k d u ((vGet x u 0xC noZp 0 n a).map (userTable ((mget x.tables j).getD []))) s t x [2 ^ 20 + j]

/-- R53, R93, R97, R98, R143: VCVT writes each element converted, and counts the clip events of its conversions; a reduction
writes one element, softmax and normalisation one for each of theirs, for lengths from 1 to 65,536; a longer or empty
vector completes with PARAM_RANGE, a VCVT of a format outside its role with DESCRIPTOR_MALFORMED. -/
def Obligations.ConversionsAndReductions : Prop :=
  (∀ s k x u d df a sf g z cb l n, vReady s k x u l n [(true, df, n, d), (false, sf, n, a)] → df ≤ 0xC → sf ≤ 0xE →
      grainBad x u 1 n 4 g = false → zpGrainBad x u sf 1 n z = false → zpGrainBad x u df 1 n z = false →
    Runs (.vcvt k d df a sf g z cb l) s fun t => ∃ y, vEntered k (d == .drain) [] s t x y
      ∧ (let r := (vGet x u sf (fun i => zpGrainVal x u sf n 0 i z) (cb % 4) n a).zipIdx.map
           fun p => cvtOne df (zpGrainVal x u df n 0 p.2 z) (scaleAt x u g p.2) p.1
         Lands u df (fun i => zpGrainVal x u df n 0 i z) (r.map (·.1)) x y d ∧ y.clip = min (x.clip + (r.filter (·.2)).length) (2 ^ 32 - 1)))
  ∧ (∀ s k x u d df a sf g z cb l, issues k 5 s x u → 0xC < df ∨ 0xE < sf →
    Runs (.vcvt k d df a sf g z cb l) s fun t => t.m = endTile k stMalformed 8 s.q)
  ∧ (∀ s k x u r d a l n, vReady s k x u l n [(true, 0xC, 1, d), (false, 0xC, n, a)] → 1 ≤ n → n ≤ 65536 →
    Runs (.vred k r d a l) s fun t => vWrote k d u [reduceF r (vGet x u 0xC noZp 0 n a)] s t x)
  ∧ (∀ s k x u d a l n, vReady s k x u l n (f32Places d [a] n) → 1 ≤ n → n ≤ 65536 →
    Runs (.vsoftmax k d a l) s fun t => vWrote k d u (softmaxF (vGet x u 0xC noZp 0 n a)) s t x)
  ∧ (∀ s k x u r d a g b e l n, vReady s k x u l n (f32Places d [a, g, b] n) → 1 ≤ n → n ≤ 65536 → epsOk (opnd u e) = true →
    Runs (.vnorm k r d a g b e l) s fun t => vWrote k d u
      (normF r (vGet x u 0xC noZp 0 n a) (vGet x u 0xC noZp 0 n g) (vGet x u 0xC noZp 0 n b) (opnd u e)) s t x)
  ∧ ∀ s k x u d a l r, issues k 5 s x u → affN x u l = 0 ∨ 65536 < affN x u l →
    (Runs (.vred k r d a l) s fun t => t.m = endTile k stParamRange (paramSlot l.c) s.q)
    ∧ Runs (.vsoftmax k d a l) s fun t => t.m = endTile k stParamRange (paramSlot l.c) s.q

/-- R100 to R102: an optimiser step whose places hold its tensors writes weights and moments element by element and moves no
other data of the core; the step of an element it leaves unchanged gives back its weight and moments (R102).
R116 to R120: WDW, WGRP, WPOOL and WGPOOL, once their checks pass, send one row for each output position, or for each
image, through the epilogue; the result waits for its DRAIN. -/
def Obligations.OptimiserAndWindowUnit : Prop :=
  ((∀ s k x u aw w wb g gf gz gc m v mn vn ms vs fs l n o, o = OptOp.mk aw w wb g gf gz gc m v mn vn ms vs →
      vReady s k x u l n (voptPlaces o n) →
    Runs (.vopt k aw w wb g gf gz gc m v mn vn ms vs fs l) s fun t => ∃ y, vEntered k false [] s t x y
      ∧ y = { x with half0 := y.half0, half1 := y.half1, vregs := y.vregs, clip := y.clip, slots := y.slots, begun := y.begun }
      ∧ y = { voptCore o (voptSteps o fs n u x) u x with slots := y.slots, begun := y.begun })
  ∧ ∀ aw c w g m v, (optStep aw c w g m v).2.2.2 = true → (optStep aw c w g m v) = (w, m, v, true))
  ∧ ((∀ s k x u p e w i g, wReady s k x u p e w → g = sdGeo (sdOf x u p) w →
      sumFits 1 g = true → initBad x u g i = false → emptyOut g = false → epiBad x u (x.epi.getD {}) (outPositions g) g.cw = false →
    Runs (.wdw k p e i) s fun t => wWrote k u (unitSums x u (sdOf x u p) g e 1 i) s t x)
  ∧ (∀ s k x u p e w i c g, wReady s k x u p e w → g = sdGeo (sdOf x u p) w →
      sumFits c g = true → initBad x u g i = false → emptyOut g = false → epiBad x u (x.epi.getD {}) (outPositions g) g.cw = false →
    Runs (.wgrp k c p e i) s fun t => wWrote k u (unitSums x u (sdOf x u p) g e c i) s t x)
  ∧ (∀ s k x u p e w q g, wReady s k x u p e w → g = sdGeo (sdOf x u p) w →
      winUnitOk g 1 = true → emptyOut g = false → epiBad x u (x.epi.getD {}) (outPositions g) g.cw = false →
    Runs (.wpool k q p e) s fun t => wWrote k u (unitPool x u q (sdOf x u p) g e) s t x)
  ∧ (∀ s k x u p e w q g, wReady s k x u p e w → g = sdGeo (sdOf x u p) w →
      g.r = 1 → g.iy * g.ix ≤ 2 ^ 24 → epiBad x u (x.epi.getD {}) (g.b - g.m0) g.cw = false →
    Runs (.wgpool k q p e) s fun t => wWrote k u (globalPool x u q (sdOf x u p) g e) s t x)
  ∧ ∀ u rows x, ∃ r, (epilogue u none false rows x).result = some r ∧ r.array = false ∧ r.rows.length = rows.length)

/-! ### Registers, locks and rings (R393, R448 to R464) -/

/-- R393, R457: the head and tail registers of the rings move forward only, and only over entries that exist; any other value
leaves the register and is recorded in BAD_WRITE. Reading a command takes the next entry, in the order published. -/
def Obligations.RingPointersMoveForward : Prop :=
  (∀ s v, live s = true → subMod s.m.rings.cmdTail s.m.rings.cmdHead 8192 ≤ subMod (v % 8192) s.m.rings.cmdHead 8192 →
      subMod (v % 8192) s.m.rings.cmdHead 8192 ≤ 4096 →
    Runs (.cmdTailWrite v) s fun t => t.m = { s.q with rings := { s.q.rings with cmdTail := v % 8192 } })
  ∧ (∀ s v, live s = true → subMod (v % 8192) s.m.rings.cmdHead 8192 < subMod s.m.rings.cmdTail s.m.rings.cmdHead 8192
        ∨ 4096 < subMod (v % 8192) s.m.rings.cmdHead 8192 →
    Runs (.cmdTailWrite v) s fun t => t.m = { s.q with bad := true, badOff := 0x28 })
  ∧ (∀ s v, live s = true → headOk 12 s.m.rings.evtHead s.m.rings.evtTail (v % 8192) = true →
    Runs (.evtHeadWrite v) s fun t => t.m.rings.evtHead = v % 8192 ∧ t.m.rings.cmds = s.m.rings.cmds)
  ∧ (∀ s v, live s = true → headOk 12 s.m.rings.evtHead s.m.rings.evtTail (v % 8192) = false →
    Runs (.evtHeadWrite v) s fun t => t.m = { s.q with bad := true, badOff := 0x40 })
  ∧ (∀ s v, live s = true →
    (Runs (.dlHeadWrite v) s fun t => t.m = if headOk s.c.tb.dlLog2 s.m.dlHead s.m.dlTail (v % 2 ^ 17) then { s.q with dlHead := v % 2 ^ 17 } else { s.q with bad := true, badOff := 0x2040 })
    ∧ Runs (.prHeadWrite v) s fun t => t.m = if headOk s.c.tb.prLog2 s.m.prHead s.m.prTail (v % 2 ^ 21) then { s.q with prHead := v % 2 ^ 21 } else { s.q with bad := true, badOff := 0x2068 })
  ∧ ∀ s a k, live s = true → s.m.boot.state = bsRunning → clerkRuns s.q 1 = true → s.m.rings.cmdTail ≠ s.m.rings.cmdHead →
      owed s.q < 64 → owed s.q + 64 ≤ evtFree s.q → a = cmdRing + 64 * (s.m.rings.cmdHead % 4096) → badIn s.m.mem a 64 = none →
      k = { bytes := bread s.m.mem.cells a 64, phase := 0, seq := s.m.rings.nextCmd, start := s.m.now, arg := 0 } → headerBad k = false →
    Runs .commandRead s fun t => t.m = { s.q with rings := { s.q.rings with
      cmdHead := (s.m.rings.cmdHead + 1) % 8192, nextCmd := s.m.rings.nextCmd + 1, cmds := mset s.m.rings.cmds s.m.rings.nextCmd k } }

/-- R450, R451, R455: each lock is taken by a write of 1 and stays; TABLES is taken only when its checks pass, which zeroes the
tables; a check that fails leaves the lock open with its error.
R400, R404, R434, R443, R444: twelve words give the identity key and then the port locks; without them in time the engine
stays in RESET; with them, the boot ROM reads the stored epoch and goes to WAIT_LOAD, or by its boot record further. -/
def Obligations.LocksAndKeyPort : Prop :=
  ((∀ s, live s = true → protOk s.c.protG = true → Runs .lockProtection s fun t => t.c = { s.c with lockProt := true } ∧ t.m = s.q)
  ∧ (∀ s, live s = true → Runs .lockRole s fun t => t.c = { s.c with lockRole := true } ∧ t.m.doms = s.m.doms)
  ∧ (∀ s, live s = true → s.c.lockTables = false → s.m.lockBusy = false →
    Runs .lockTables s fun t => t.c = s.c ∧ t.m = { s.q with lockBusy := true })
  ∧ (∀ s, live s = true → s.m.lockBusy = true → tablesErr s.c s.q = 0 →
    Runs .tablesCheckDone s fun t => t.c = { s.c with lockTables := true } ∧ t.m.lockBusy = false ∧ t.m.lockErr = 0
      ∧ (∀ d, d ≠ 0 → mget t.m.doms d = none) ∧ (domE t.m 0).state = 1 ∧ t.m.mem.granules = s.m.mem.granules)
  ∧ ∀ s, live s = true → s.m.lockBusy = true → tablesErr s.c s.q ≠ 0 →
    Runs .tablesCheckDone s fun t => t.c = s.c ∧ t.m = { s.q with lockBusy := false, lockErr := tablesErr s.c s.q })
  ∧ ((∀ s w, live s = true → s.m.boot.kpReq = true → s.m.boot.kpLock = false → s.m.boot.keyFail = false →
    Runs (.keyPortWord w) s fun t => t.m.keys.identity = s.m.keys.identity ++ [w % 2 ^ 32] ∧ t.m.boot.keyWords = s.m.boot.keyWords + 1
      ∧ t.m.boot.kpLock = decide (12 ≤ s.m.boot.keyWords + 1) ∧ t.m.boot.state = s.m.boot.state)
  ∧ (∀ s w, live s = true → s.m.boot.kpLock = true → Runs (.keyPortWord w) s fun t => t.m = s.q)
  ∧ (∀ s t0, live s = true → s.m.boot.keyWords < 12 → 10000000 ≤ max s.m.now t0 →
    Runs (.keyPortTimeout t0) s fun t => t.m.boot.keyFail = true ∧ t.m.boot.kpReq = false ∧ t.m.boot.state = s.m.boot.state)
  ∧ (∀ s t0, live s = true → s.m.boot.state = bsReset → 12 ≤ s.m.boot.keyWords → s.m.boot.keyFail = false → s.m.ports.flush = [] →
      16 ≤ s.c.strap.cores → s.m.ports.ready = 0xFFFF ∨ 1000000000 ≤ max s.m.now t0 → (bootSource s.m.store).1 = 0 ∨ s.m.ports.ready ≠ 0xFFFF →
    Runs (.bootWaitLoadEntry t0) s fun t => t.m.boot.state = bsWaitLoad ∧ t.m.boot.minEpoch = storedEpoch s.m.store ∧ t.c = s.c
      ∧ (s.m.store.present = false ∨ abRead s.m.store.trimRec = none → t.m.power.trimHold = true))
  ∧ ∀ s t0, live s = true → s.m.boot.state = bsReset → s.m.boot.keyWords < 12 →
    Runs (.bootWaitLoadEntry t0) s fun t => t.m = tickTo t0 s.q)

/-- R279, R280, R448, R449, R453, R458, R461: a register write sets its field when the value is in range and is otherwise
recorded; a read gives the value back; an access that is not an aligned 4 or 8 bytes changes no register.
TICK_CFG completes: it is taken whole, and recorded and refused whole where a setting is out of range or is the master's, or where
the access is not of 8 bytes. TICK_REFUSED_CLEAR, BAD_WRITE_CLEAR, HEARTBEAT, LINK_ENABLE and LINK_DISABLE complete in every state, each
with the register's new value. -/
def Obligations.RegisterWritesAreChecked : Prop :=
  (∀ s v t0, live s = true → 10 ≤ v % 2 ^ 64 % 128 → v % 2 ^ 64 % 128 ≤ 95 →
    Runs (.registerWrite 0x1008 8 v t0) s fun t => t.c = { s.c with gateIdle := bits (v % 2 ^ 64) 8 1 == 1, cap := bits (v % 2 ^ 64) 0 7 }
      ∧ regVal t.dev 0x1008 % 128 = v % 128 ∧ t.m = tickTo t0 s.q)
  ∧ (∀ s v t0, live s = true → v % 2 ^ 64 % 128 < 10 ∨ 95 < v % 2 ^ 64 % 128 →
    Runs (.registerWrite 0x1008 8 v t0) s fun t => t.c = s.c ∧ t.m = { tickTo t0 s.q with bad := true, badOff := 0x1008 })
  ∧ (∀ s off w v t0, live s = true → ¬(w = 8 ∧ off % 8 = 0) → ¬(w = 4 ∧ off % 4 = 0) →
    Runs (.registerWrite off w v t0) s fun t => t.c = s.c ∧ t.m = tickTo t0 s.q)
  ∧ (let masters (s : State) (n : TickCfg) : Prop :=
      (s.c.links[0]?).any (·.role == 1) = true ∧ s.c.tick.src = 2 ∧ (n.period ≠ s.c.tick.period ∨ n.quiet ≠ s.c.tick.quiet)
    (∀ s v t0 n, live s = true → n = tickOf v → tickOk n = true → ¬masters s n →
      Runs (.tickCfgWrite 8 v t0) s fun t => t.c = { s.c with tick := n }
        ∧ (n.period ≠ s.c.tick.period ∨ n.quiet ≠ s.c.tick.quiet ∨ n.src ≠ s.c.tick.src →
            t.m.tick.partialTick = true ∧ t.m.tick.base = max s.m.now t0 ∧ t.m.tick.count = s.m.tick.count ∧ t.m.tick.cfg = n)
        ∧ (n.period = s.c.tick.period ∧ n.quiet = s.c.tick.quiet ∧ n.src = s.c.tick.src → t.m.tick = s.m.tick))
    ∧ (∀ s v t0, live s = true → tickOk (tickOf v) = false ∨ masters s (tickOf v) →
      Runs (.tickCfgWrite 8 v t0) s fun t => t.c = s.c ∧ t.m.tick.refused = true ∧ t.m.bad = true ∧ t.m.badOff = 0x3000 ∧ t.m.tick.cfg = s.m.tick.cfg)
    ∧ ∀ s w v t0, live s = true → w ≠ 8 → Runs (.tickCfgWrite w v t0) s fun t => t.c = s.c ∧ t.m = { tickTo t0 s.q with bad := true, badOff := 0x3000 })
  ∧ (∀ s, live s = true → (Runs .tickRefusedClear s fun t => t.m = { s.q with tick := { s.q.tick with refused := false } })
      ∧ Runs .badWriteClear s fun t => t.m = { s.q with bad := false })
  ∧ (∀ s t0, live s = true → s.m.hp.attached = true → s.m.hp.lost = false →
    Runs (.heartbeat t0) s fun t => t.m = { tickTo t0 s.q with hp := { s.q.hp with hbStart := max s.m.now t0 } })
  ∧ (∀ s t0, live s = true → s.m.hp.attached = false ∨ s.m.hp.lost = true → Runs (.heartbeat t0) s fun t => t.m = tickTo t0 s.q ∧ t.c = s.c)
  ∧ (∀ s i, live s = true → (s.c.links[i]?).any (!·.enable) = true →
    Runs (.linkEnable i) s fun t => t.c = linkUpd i (fun l => { l with enable := true }) { s.c with lockRole := true }
      ∧ (t.c.links[i]?).map (·.enable) = some true)
  ∧ (∀ s i, live s = true → (s.c.links[i]?).any (!·.enable) = false → Runs (.linkEnable i) s fun t => t.c = s.c ∧ t.m = s.q)
  ∧ (∀ s i, live s = true → (s.c.links[i]?).any (·.enable) = false → Runs (.linkDisable i) s fun t => t.c = s.c ∧ t.m = s.q)
  ∧ ∀ s i, live s = true → (s.c.links[i]?).any (·.enable) = true →
    Runs (.linkDisable i) s fun t => t.c = linkUpd i (fun l => { l with enable := false }) s.c ∧ (t.c.links[i]?).map (·.enable) = some false
      ∧ ∀ l, t.m.links[i]? = some l → ∀ x ∈ l.peers, x.state = 0

/-! ### Boot, keys, resets (R397 to R407, R434, R436, R443, R444, R452) -/

/-- R342, R398, R400, R452: FW_GO in WAIT_LOAD, FAILED or RECOVERY begins a load when the protected range and the memory ports allow, and fails with
REASON 7 or 6 otherwise; in another state it is recorded; the read of the image goes out, or waits while the host port cannot send. A block that has
the hash the header, or its predecessor, names is kept; one that has not, a bad header or a bus error fail the load; the last block starts the Clerks.
Which signing keys the vendor trusts is free (log 5). -/
def Obligations.FirmwareLoad : Prop :=
  let loads (s : State) : Prop := s.m.boot.state = bsWaitLoad ∨ s.m.boot.state = bsFailed ∨ s.m.boot.state = bsRecovery
  let driver (s : State) : Prop := s.m.boot.state = bsLoading ∧ s.m.boot.loading = true ∧ (s.m.boot.source = 0 ∨ s.m.boot.source = 3)
    ∧ s.m.boot.imageReq = none
  let header (s : State) (h : List Byte) : List Byte := if s.m.boot.nextBlock = 0 then h else s.m.boot.header
  let named (s : State) (h : List Byte) : List Byte := if s.m.boot.nextBlock = 0 then (h.drop 0x20).take 48 else s.m.boot.hash
  (∀ s v, live s = true → v % 2 = 1 → s.m.st.mbistState ≠ 1 → loads s → protOk s.c.protG = true →
      s.m.ports.ready = 0xFFFF → s.m.ports.failed = [] →
    Runs (.fwGo v) s fun t => t.m.boot.state = bsLoading ∧ t.c = { s.c with lockProt := true }
      ∧ (hpOpen s.q = true → t.m.out = [.hostRead s.c.fwAddr s.c.fwLen false] ∧ t.m.boot.imageReq = none)
      ∧ (hpOpen s.q = false → t.m.out = [] ∧ t.m.boot.imageReq = some (s.c.fwAddr, s.c.fwLen))
      ∧ mget t.m.mem.granules 0 = some ⟨0, true⟩ ∧ mget t.m.mem.granules 1 = some ⟨0, false⟩)
  ∧ (∀ s v, live s = true → v % 2 = 1 → s.m.st.mbistState ≠ 1 → loads s → protOk s.c.protG = false →
    Runs (.fwGo v) s fun t => t.m.boot.state = bsFailed ∧ t.m.boot.reason = 7 ∧ t.c = s.c)
  ∧ (∀ s v, live s = true → v % 2 = 1 → s.m.st.mbistState ≠ 1 → loads s → protOk s.c.protG = true →
      s.m.ports.ready ≠ 0xFFFF ∨ s.m.ports.failed ≠ [] →
    Runs (.fwGo v) s fun t => t.m.boot.state = bsFailed ∧ t.m.boot.reason = 6)
  ∧ (∀ s v, live s = true → v % 2 = 1 → s.m.st.mbistState ≠ 1 → ¬loads s →
    Runs (.fwGo v) s fun t => t.c = s.c ∧ t.m = { s.q with bad := true, badOff := 0x20 })
  ∧ (∀ s h b, live s = true → driver s →
    (Runs (.firmwareBlockArrival h b true) s fun t => t.m.boot.state = bsFailed ∧ t.m.boot.reason = 5)
    ∧ (s.m.boot.nextBlock = 0 → headerReason s.m.boot.minEpoch h ≠ 0 →
      Runs (.firmwareBlockArrival h b false) s fun t => t.m.boot.state = bsFailed ∧ t.m.boot.reason = headerReason s.m.boot.minEpoch h)
    ∧ ((s.m.boot.nextBlock = 0 → headerReason s.m.boot.minEpoch h = 0) → b.length ≠ 65536 ∨ sha384 b ≠ named s h →
      Runs (.firmwareBlockArrival h b false) s fun t => t.m.boot.state = bsFailed ∧ t.m.boot.reason = 3))
  ∧ (∀ s h b, live s = true → driver s → (s.m.boot.nextBlock = 0 → headerReason s.m.boot.minEpoch h = 0) →
      b.length = 65536 → sha384 b = named s h → s.m.boot.nextBlock + 1 ≠ leAt (header s h) 6 2 →
    Runs (.firmwareBlockArrival h b false) s fun t => t.m = { s.q with boot := { s.q.boot with
      header := header s h, nextBlock := s.m.boot.nextBlock + 1, hash := blockHash b, blocks := s.m.boot.blocks ++ b } })
  ∧ ∀ s h b, live s = true → driver s → (s.m.boot.nextBlock = 0 → headerReason s.m.boot.minEpoch h = 0) →
      b.length = 65536 → sha384 b = named s h → s.m.boot.nextBlock + 1 = leAt (header s h) 6 2 → s.m.rings.early = [] →
    Runs (.firmwareBlockArrival h b false) s fun t => t.m.boot.state = bsRunning ∧ t.m.boot.epoch = leAt (header s h) 8 4
      ∧ (∀ i, i < 4 → clerkRuns t.m i = true) ∧ (domE t.m 0).state = 1

/-- R407, R436, R445: a cold reset gives every setting and every register its reset value and keeps the store's records; a
warm reset by its key keeps PF_LATCH and the host link as well and starts the ports' flush; any other write of WARM_RESET is
recorded; SCAN acts in reset only. Both act on a frozen block, and so does PF_LATCH. -/
def Obligations.ResetsLeaveTheStore : Prop :=
  (∀ s, Runs .coldReset s fun t => t.c = cfg0 s.c.strap ∧ t.pending = s.pending
      ∧ t.m = mach0 s.c.strap { s.m.store with busy := none, writes := 0, errors := 0, slotBooted := 0 } 0 true true)
  ∧ (∀ s v, live s = true → v % 2 ^ 32 = 0x4D524157 →
    Runs (.warmReset 8 v) s fun t => t.c = cfg0 s.c.strap ∧ t.m.power.pfLatch = s.m.power.pfLatch ∧ t.m.hp.bme = s.m.hp.bme
      ∧ t.m.hp.l0 = s.m.hp.l0 ∧ t.m.store.trimRec = s.m.store.trimRec ∧ t.m.store.slotA = s.m.store.slotA ∧ t.m.store.slotB = s.m.store.slotB
      ∧ t.m.ports.flush = List.range 16 ∧ t.m.out = [.mpFlush] ∧ t.m.boot.state = bsReset ∧ t.m.queues = [])
  ∧ (∀ s w v, live s = true → w ≠ 8 ∨ v % 2 ^ 32 ≠ 0x4D524157 →
    Runs (.warmReset w v) s fun t => t.c = s.c ∧ t.m = { s.q with bad := true, badOff := 0x1000 })
  ∧ (∀ s p, live s = true → Runs (.mpFlushAck p) s fun t => t.m.ports.flush = s.m.ports.flush.erase p
      ∧ t.m.power.warm = (s.m.power.warm && decide (s.m.ports.flush.erase p ≠ [])) ∧ t.m.boot = s.m.boot)
  ∧ (∀ s, (Runs (.tapScan true) s fun t => t.c = cfg0 s.c.strap ∧ t.m.keys.slots = [] ∧ t.m.keys.rootEpoch = none)
      ∧ Runs (.tapScan false) s fun t => t.c = s.c ∧ t.m = s.q)
  ∧ ∀ s ns, Runs (.pfwNLowPulse ns) s fun t => t.c = s.c
      ∧ t.m = if 100 < ns ∧ ns < 200 then { s.q with power := { s.q.power with pfLatch := min (s.m.power.pfLatch + 1) 65535 } } else s.q

/-! ### The store (R357, R399, R401 to R404, R420, R423) -/

/-- R401, R402: a store command that may start is under way with the operations it takes, and the store is busy with it; the
copy a record's write takes is erased first, and the record still reads as before.
R399, R401 to R403: an operation that is not a command's last leaves one fewer; the last writes what the command asked
for, the committed epoch, the boot record, a slot's image or marker, the enrolment, trust or trim record, and answers; one that fails is counted and answered.
The order of a command's operations is the model's reading (log 28). -/
def Obligations.StoreCommands : Prop :=
  (let idle (s : State) : Prop := s.m.store.busy = none ∧ s.m.power.fail = 0 ∧ s.m.store.present = true
   let under (id n : Nat) (b : List Byte) (s t : State) : Prop :=
    begun id n t ∧ (mget t.m.rings.cmds id).map (·.areaBytes) = some b ∧ t.m.store.busy = some id ∧ t.m.store.slotA = s.m.store.slotA
      ∧ t.m.store.slotB = s.m.store.slotB ∧ abRead t.m.store.bootRec = abRead s.m.store.bootRec ∧ abRead t.m.store.epochRec = abRead s.m.store.epochRec
      ∧ abRead t.m.store.enrolRec = abRead s.m.store.enrolRec ∧ abRead t.m.store.trimRec = abRead s.m.store.trimRec ∧ t.m.mem = s.m.mem
   (∀ s id k, accepted 0x800 id (fun k => k.argN 0x18 4) slotWriteChecks s k = true → idle s →
      Runs (.slotWrite id) s (under id (1 + 2 * unitsOf (k.argN 0x18 4)) (areaBytes s.q k (k.argN 0x18 4)) s))
    ∧ (∀ s id k, accepted 0x801 id (fun _ => 0) slotValidateChecks s k = true → idle s → Runs (.slotValidate id) s (under id 2 [] s))
    ∧ (∀ s id k, accepted 0x802 id (fun _ => 0) slotRetireChecks s k = true → idle s → Runs (.slotRetire id) s (under id 1 [] s))
    ∧ (∀ s id k, accepted 0x803 id (fun _ => 0) bootRecordWriteChecks s k = true → idle s →
      Runs (.bootRecordWrite id) s (under id 2 ((k.bytes.drop 0x18).take 4) s))
    ∧ (∀ s id k, accepted 0x804 id (fun _ => 0) epochCommitChecks s k = true → idle s →
      Runs (.epochCommit id) s (under id 2 (toLe 4 s.m.boot.epoch) s))
    ∧ (∀ s id k, accepted 0x106 id (fun k => k.argN 0x18 2) enrolCertifyChecks s k = true → idle s →
      Runs (.enrolCertify id) s (under id 4 (toLe 4 s.m.boot.epoch ++ toLe 2 (k.argN 0x18 2) ++ areaBytes s.q k (k.argN 0x18 2)) s))
    ∧ (∀ s id k, accepted 0x903 id (fun _ => 0x3FF8) trimWriteChecks s k = true → idle s →
      Runs (.trimWrite id) s (under id 8 (areaBytes s.q k 0x3FF8) s))
  ∧ (∀ r, abRead (abErase r) = abRead r)
  ∧ ∀ r v, abRead (abWrite r v) = some v ∧ abSeq (abWrite r v) = abSeq r + 1)
  ∧ ((∀ s id k, live s = true → s.m.store.busy = some id → mget s.m.rings.cmds id = some k → 1 < k.arg → s.m.power.fail = 0 →
    Runs (.storeOperationDone true) s fun t => (mget t.m.rings.cmds id) = some { k with arg := k.arg - 1 } ∧ t.m.store.busy = some id
      ∧ t.m.store.bootRec = s.m.store.bootRec ∧ t.m.store.epochRec = s.m.store.epochRec ∧ t.m.boot = s.m.boot)
  ∧ (∀ s id k, live s = true → s.m.store.busy = some id → mget s.m.rings.cmds id = some k → k.arg ≤ 1 → k.opcode = 0x804 →
    Runs (.storeOperationDone true) s fun t => Answered id s t ∧ t.m.store.busy = none
      ∧ t.m.store.epochRec = abWrite s.m.store.epochRec k.areaBytes ∧ t.m.boot.minEpoch = leNat k.areaBytes)
  ∧ (∀ s id k, live s = true → s.m.store.busy = some id → mget s.m.rings.cmds id = some k → k.arg ≤ 1 → k.opcode = 0x803 →
    Runs (.storeOperationDone true) s fun t => Answered id s t ∧ t.m.store.busy = none
      ∧ t.m.store.bootRec = abWrite s.m.store.bootRec k.areaBytes ∧ t.m.boot = s.m.boot)
  ∧ (∀ s id k, live s = true → s.m.store.busy = some id → mget s.m.rings.cmds id = some k → k.arg ≤ 1 → k.opcode = 0x802 →
    Runs (.storeOperationDone true) s fun t => Answered id s t ∧ (slotOf t.m.store (otherSlot s.q)).marker = none
      ∧ slotOf t.m.store (1 - otherSlot s.q) = slotOf s.m.store (1 - otherSlot s.q))
  ∧ (∀ s id k, live s = true → s.m.store.busy = some id → mget s.m.rings.cmds id = some k → k.arg ≤ 1 → k.opcode = 0x800 → unitsOf (k.argN 0x18 4) ≠ 0 →
    Runs (.storeOperationDone true) s fun t => Answered id s t
      ∧ slotOf t.m.store (otherSlot s.q) = { slotOf s.m.store (otherSlot s.q) with image := k.areaBytes }
      ∧ slotOf t.m.store (1 - otherSlot s.q) = slotOf s.m.store (1 - otherSlot s.q))
  ∧ (∀ s id k, live s = true → s.m.store.busy = some id → mget s.m.rings.cmds id = some k → k.arg ≤ 1 → k.opcode = 0x801 →
    Runs (.storeOperationDone true) s fun t => Answered id s t ∧ slotOf t.m.store (otherSlot s.q) = { slotOf s.m.store (otherSlot s.q) with
        marker := some ((((slotOf s.m.store (1 - otherSlot s.q)).marker.map (·.1)).getD 0) + 1, sha384 ((slotOf s.m.store (otherSlot s.q)).image.take 512)) }
      ∧ slotOf t.m.store (1 - otherSlot s.q) = slotOf s.m.store (1 - otherSlot s.q))
  ∧ (∀ s id k, live s = true → s.m.store.busy = some id → mget s.m.rings.cmds id = some k → k.arg ≤ 1 → k.opcode = 0x106 →
    Runs (.storeOperationDone true) s fun t => Answered id s t ∧ t.m.store.enrolRec = abWrite s.m.store.enrolRec k.areaBytes)
  ∧ (∀ s id k, live s = true → s.m.store.busy = some id → mget s.m.rings.cmds id = some k → k.arg ≤ 1 → k.opcode = 0x701 →
    Runs (.storeOperationDone true) s fun t => Answered id s t ∧ t.m.store.trustRec = abWrite s.m.store.trustRec k.areaBytes
      ∧ t.m.casc.group = leAt k.areaBytes 0 4)
  ∧ (∀ s id k, live s = true → s.m.store.busy = some id → mget s.m.rings.cmds id = some k → k.arg ≤ 1 → k.opcode = 0x903 →
    Runs (.storeOperationDone true) s fun t => Answered id s t ∧ t.m.store.trimRec = abWrite s.m.store.trimRec k.areaBytes
      ∧ t.m.st.trimWait = some k.areaBytes ∧ t.m.st.trim = s.m.st.trim ∧ t.m.power.trimHold = false)
  ∧ ∀ s id k, live s = true → s.m.store.busy = some id → mget s.m.rings.cmds id = some k →
    Runs (.storeOperationDone false) s fun t => Answered id s t ∧ t.m.store.busy = none ∧ t.m.store.errors = min (s.m.store.errors + 1) (2 ^ 32 - 1)
      ∧ t.m.store.bootRec = s.m.store.bootRec ∧ t.m.store.epochRec = s.m.store.epochRec ∧ t.m.boot = s.m.boot)

/-- R357, R394, R418, R423: ENROL_QUERY, TRIM_READ and BIST_QUERY write what they report into the argument area and answer;
they change no register.
R405, R406, R425: a restart command, a missed heartbeat and a fault halt the Clerk with their cause, and a command it was
executing waits to start again; a halted Clerk starts again, unless this would be the third time within a second, when it
stays stopped. TELEMETRY_BIND records the page, UNBIND forgets it. -/
def Obligations.QueriesClerksAndTelemetry : Prop :=
  ((∀ s id k, accepted 0x105 id (fun _ => 0x900) enrolQueryChecks s k = true → k.relay = none →
      k.argAddr + 4 ≤ evtRing ∨ evtRing + 64 * 4096 ≤ k.argAddr → lineBusy s.q k.argAddr (256 + (enrolBlob s.q).length) = false →
    Runs (.enrolQuery id) s fun t => Answered id s t ∧ bread t.m.mem.cells k.argAddr 4 = toLe 4 s.m.boot.epoch ∧ t.m.boot = s.m.boot)
  ∧ (∀ s id k, accepted 0x902 id (fun _ => 0x4000) trimReadChecks s k = true → k.relay = none →
      k.argAddr + 0x4000 ≤ evtRing ∨ evtRing + 64 * 4096 ≤ k.argAddr → lineBusy s.q k.argAddr 0x4000 = false →
    Runs (.trimRead id) s fun t => Answered id s t ∧ t.m.st = s.m.st ∧ bread t.m.mem.cells k.argAddr 0x4000
      = (let b := (s.m.st.trim ++ List.replicate 0x3FF8 (0 : Byte)).take 0x3FF8 ++ toLe 4 s.m.st.trimSeq
         b ++ toLe 4 (crc32 b)))
  ∧ ∀ s id k, accepted 0x901 id (fun _ => 0x420) bistQueryChecks s k = true → k.relay = none →
      k.argAddr + 0x420 ≤ evtRing ∨ evtRing + 64 * 4096 ≤ k.argAddr → lineBusy s.q k.argAddr 0x420 = false →
    Runs (.bistQuery id) s fun t => Answered id s t ∧ t.m.st = s.m.st ∧ bread t.m.mem.cells k.argAddr 0x420 = bread s.m.st.record 0 0x420)
  ∧ ((∀ s id k t0, accepted 0x0006 id (fun _ => 0) clerkRestartChecks s k = true → clerkRuns s.q (k.argN 0x18 1) = true →
    Runs (.clerkRestart id t0) s fun t => mget t.m.rings.cmds id = none
      ∧ (t.m.clerks[k.argN 0x18 1]?).map (fun x => (x.running, x.cause)) = some (false, 3))
  ∧ (∀ s i f t0, live s = true → clerkRuns s.q i = true →
    Runs (.clerkHeartbeatMiss i f t0) s fun t => (t.m.clerks[i]?).map (fun x => (x.running, x.cause)) = some (false, if f then 2 else 1)
      ∧ (∀ j, j ≠ i → t.m.clerks[j]? = s.m.clerks[j]?)
      ∧ ∀ id k, mget t.m.rings.cmds id = some k → clerkOf k.opcode = i → k.phase = 0)
  ∧ (∀ s i x t0, live s = true → s.m.clerks[i]? = some x → x.running = false → x.stopped = false → x.cause ≠ 0 →
      (x.restarts.filter fun r => max s.m.now t0 ≤ r + 1000000000).length < 2 →
    Runs (.clerkRestartDone i true t0) s fun t => (t.m.clerks[i]?).map (fun x => (x.running, x.cause, x.stopped)) = some (true, 0, false))
  ∧ (∀ s i x ok t0, live s = true → s.m.clerks[i]? = some x → x.running = false → x.stopped = false → x.cause ≠ 0 →
      ok = false ∨ 2 ≤ (x.restarts.filter fun r => max s.m.now t0 ≤ r + 1000000000).length →
    Runs (.clerkRestartDone i ok t0) s fun t => (t.m.clerks[i]?).map (fun x => (x.running, x.stopped)) = some (false, true))
  ∧ (∀ s id k a, accepted 0x0904 id (fun _ => 0) telemetryBindChecks s k = true → telemPage s.c s.q k.dom (k.argN 0x18 8) = some a →
    Runs (.telemetryBind id) s fun t => Answered id s t ∧ mget t.m.telem.binds k.dom = some (k.argN 0x18 8, a)
      ∧ ∀ d, d ≠ k.dom → mget t.m.telem.binds d = mget s.m.telem.binds d)
  ∧ ∀ s id k, accepted 0x0905 id (fun _ => 0) telemetryUnbindChecks s k = true →
    Runs (.telemetryUnbind id) s fun t => Answered id s t ∧ mget t.m.telem.binds k.dom = none
      ∧ ∀ d, d ≠ k.dom → mget t.m.telem.binds d = mget s.m.telem.binds d)

/-! ### Clerks, self-test, telemetry, power (R405 to R425, R453) -/

/-- R360, R414 to R419: BIST_CORE takes the core out of service and is under way; the drained core is cleared and put under test; a
test whose signatures match puts it back, another marks it failed; MBIST_GO runs in WAIT_LOAD, and its end leaves a verdict and
every on-die table empty. -/
def Obligations.SelfTestRows : Prop :=
  (∀ s id k, accepted 0x0900 id (fun _ => 0) bistCoreChecks s k = true → s.m.st.core = none →
    Runs (.bistCore id) s fun t => begun id (k.argN 0x18 1) t ∧ t.m.st.core = some (k.argN 0x18 1)
      ∧ ∀ x, t.m.cores[k.argN 0x18 1]? = some x → x.regs.test = 1)
  ∧ (∀ s id k x t0, continues 0x0900 id s k = true → s.m.cores[k.arg]? = some x → x.tc = none → x.regs.test = 1 →
      readsBack s.q k.arg = true →
    Runs (.bistCoreDrained id t0) s fun t => ∃ y, t.m.cores[k.arg]? = some y ∧ y.regs.test = 2 ∧ y.half0 = [] ∧ y.half1 = [] ∧ y.vregs = []
      ∧ y.tables = [] ∧ y.tlb = [] ∧ y.icache = [] ∧ (∀ j, j ≠ k.arg → t.m.cores[j]? = s.m.cores[j]?))
  ∧ (∀ s id k x a b f, continues 0x0900 id s k = true → s.m.cores[k.arg]? = some x → x.regs.test = 2 →
    Runs (.bistTestDone id a b f) s fun t => Answered id s t ∧ t.m.st.core = none ∧ ∃ y, t.m.cores[k.arg]? = some y
      ∧ y.regs.test = if (k.argN 0x19 1 % 2 = 0 ∨ a = expLogic s.c.strap.stepping) ∧ (k.argN 0x19 1 / 2 = 0 ∨ b = expMem) then 0 else 3)
  ∧ (∀ s v, live s = true → v % 2 = 1 → s.m.boot.state = bsWaitLoad ∨ s.m.boot.state = bsFailed → s.m.st.mbistState ≠ 1 →
    Runs (.mbistGo v) s fun t => t.m = { s.q with st := { s.q.st with mbistState := 1 } })
  ∧ ∀ s sh su sg fl, live s = true → s.m.st.mbistState = 1 →
    Runs (.mbistDone sh su sg fl) s fun t => t.m.st.mbistState = 2 ∧ t.m.boot.state = bsWaitLoad ∧ t.m.xl.l2 = [] ∧ t.m.depot.regions = []
      ∧ t.m.keys.slots = [] ∧ t.m.mem.granules = []
      ∧ t.m.st.mbistPass = ((List.range (coreCount s.q)).all (fun k => nth sg k == expMem) && sh == expShared s.c.strap.stepping
        && su == expSummary s.c.strap.stepping s.c.strap.cores)

/-- R408 to R411, R421, R453: a power failure stops issue, 50 µs later stops the cores and the ports, and freezes the block once
no store operation is in flight; droop marks its core and is counted; the duty of the cap moves one step at a time, down
above the cap, up below 95% of it; an estimate enters the window of the last 100. -/
def Obligations.PowerFailureDroopAndCap : Prop :=
  (∀ s t0, live s = true → s.m.power.fail = 0 →
    Runs (.pfwNAssert t0) s fun t => t.m.power.fail = 1 ∧ t.m.power.failAt = max s.m.now t0 ∧ (∀ k l, canIssue t.m k l = none) ∧ t.m.cores = s.m.cores)
  ∧ (∀ s t0, live s = true → s.m.power.fail = 1 → s.m.power.failAt + 50000 ≤ max s.m.now t0 →
    Runs (.powerFailStop t0) s fun t => t.m.power.fail = 2 ∧ (∀ x ∈ t.m.cores, x.tc = none) ∧ t.m.arb.waiting = [] ∧ t.m.arb.later = [] ∧ t.m.arb.tags = []
      ∧ t.m.queues = s.m.queues ∧ t.m.store = s.m.store)
  ∧ (∀ s t0, live s = true → s.m.power.fail = 2 → s.m.store.busy = none →
    Runs (.powerFailFreeze t0) s fun t => live t = false ∧ t.m = { tickTo t0 s.q with power := { s.q.power with fail := 3 } })
  ∧ (∀ s k t0, live s = true → k < s.m.cores.length → s.m.st.core = none →
    Runs (.droopTrip k t0) s fun t => (∃ y, t.m.cores[k]? = some y ∧ y.regs.droop = true)
      ∧ (mget t.m.telem.droops k).getD 0 = (mget s.m.telem.droops k).getD 0 + 1 ∧ ∀ j, j ≠ k → t.m.cores[j]? = s.m.cores[j]?)
  ∧ (∀ s k t0, live s = true → k < s.m.cores.length →
    Runs (.droopRecovery k t0) s fun t => (∃ y, t.m.cores[k]? = some y ∧ y.regs.droop = false) ∧ t.m.telem = s.m.telem
      ∧ ∀ j, j ≠ k → t.m.cores[j]? = s.m.cores[j]?)
  ∧ (∀ s cs ts t0, live s = true →
    Runs (.powerEstimate cs ts t0) s fun t => t.m.power.window = (powerMw s.m.st.trim (tempsOf s.m.st.trim ts) cs :: s.m.power.window).take 100
      ∧ t.m.power.window.length ≤ 100 ∧ t.m.power.volt = voltOf s.m.st.trim (tempsOf s.m.st.trim ts) ∧ t.m.telem.peak = max s.m.telem.peak t.m.power.watts ∧ t.m.power.duty = s.m.power.duty)
  ∧ ∀ s t0, live s = true → s.m.st.core = none →
    Runs (.dutyStep t0) s fun t => t.m.power.duty = (if capNow s.c s.q < s.m.power.watts then (if 1 < s.m.power.duty then s.m.power.duty - 1 else s.m.power.duty)
        else if 100 * s.m.power.watts < 95 * capNow s.c s.q ∧ s.m.power.duty < 16 then s.m.power.duty + 1 else s.m.power.duty)
      ∧ t.m.power.watts = s.m.power.watts

/-! ### Queues, parcels, the ledger, the Depot (R169 to R173, R198 to R210, R246 to R250, R273, R274, R285 to R290) -/

/-- R246 to R250: QUEUE_CREATE writes the context its image spells, EMPTY with head and tail at the start given; QUEUE_SET takes the
masked fields; QUEUE_BIND binds the parcel; QUEUE_QUERY writes context and counters into the argument area. No other queue
changes. A context that is loaded from a line whose tag fails kills its queue, whatever command names it. -/
def Obligations.QueueContexts : Prop :=
  (∀ s id k q x n, accepted 0x400 id (fun _ => 64) (fun _ => createChecks) s k = true → q = k.argN 0x18 4 →
      x = parseCtx (areaBytes s.q k 64) k.dom → n = startCount x.ringLog2 (k.argN 0x1C 4) →
    Runs (.queueCreate id) s fun t => Answered id s t ∧ qGet t.m q = some { ctx := { x with tail := n, head := n } }
      ∧ (∀ r, r ≠ q → qGet t.m r = qGet s.m r) ∧ (x.rt = true → (mget t.m.ledger x.weight).bind (·.queue) = some q))
  ∧ (∀ s id k q y, queueRowOk 0x401 id (fun _ => 64) setChecks s k → q = k.argN 0x18 4 → qGet s.q q = some y →
    Runs (.queueSet id) s fun t => Answered id s t
      ∧ qGet t.m q = some { y with ctx := setCtx (k.argN 0x20 4) (k.argN 0x1C 4) (parseCtx (areaBytes s.q k 64) k.dom) y.ctx }
      ∧ ∀ r, r ≠ q → qGet t.m r = qGet s.m r)
  ∧ (∀ s id k q y, queueRowOk 0x402 id (fun _ => 0) bindChecks s k → q = k.argN 0x18 4 → qGet s.q q = some y →
    Runs (.queueBind id) s fun t => Answered id s t
      ∧ qGet t.m q = some { y with orphan := false, ctx := { y.ctx with parcel := k.argN 0x1C 2, bound := true } } ∧ ∀ r, r ≠ q → qGet t.m r = qGet s.m r)
  ∧ (∀ s id k y, queueRowOk 0x403 id (fun _ => 80) (fun _ => queueChecks) s k → qGet s.q (k.argN 0x18 4) = some y → k.relay = none →
      k.argAddr + 80 ≤ evtRing ∨ evtRing + 64 * 4096 ≤ k.argAddr → lineBusy s.q k.argAddr 80 = false →
    Runs (.queueQuery id) s fun t => Answered id s t ∧ t.m.queues = s.m.queues
      ∧ bread t.m.mem.cells k.argAddr 80 = ctxBytes y.ctx ++ counterBytes y)
  ∧ ∀ s id k q, accepted 0x403 id (fun _ => 80) (fun _ => queueChecks) s k = true → q = k.argN 0x18 4 → q ∉ s.m.ctxCache →
      badIn s.m.mem (s.c.tb.ctx + 64 * q) 64 ≠ none →
    Runs (.queueQuery id) s fun t => Answered id s t ∧ (qGet t.m q).map (·.ctx.state) = some qsKilled

/-- R246: the 64 bytes QUEUE_QUERY gives spell the context that QUEUE_CREATE reads from them, but for what creation resets. -/
def Obligations.ContextImageReadsBack : Prop :=
  ∀ x : QCtx, x.ringBase < 2 ^ 64 → x.cplBase < 2 ^ 64 → x.ringLog2 < 32 → x.cplLog2 < 32 → x.path < 4 → x.vec < 2048 →
    x.timeout < 2 ^ 32 → x.weight < 2 ^ 16 → x.coalWin < 2 ^ 16 → x.aux < 2 ^ 64 → x.mailbox < 4096 → x.state < 256 → x.dom < 2 ^ 16 → x.parcel < 2 ^ 31 →
    parseCtx (ctxBytes x) x.dom
      = { x with parcel := 0, bound := false, state := qsEmpty, tail := 0, head := 0, cplTail := 0, cplHead := 0 }
    ∧ imageBad (ctxBytes x) = false ∧ (ctxBytes x).length = 64

/-- R274: QUEUE_PAUSE is under way until what the queue issued has ended, then the queue is PAUSED, unless HELD or KILLED, and every pause
that waited for it is answered; RESUME and RELEASE let it go on; RESET waits for the records of its fetched descriptors and
leaves it EMPTY at the new start; DESTROY takes it away.
A HELD or KILLED queue stays so when its pause ends (the model's reading, log 31). -/
def Obligations.QueueStates : Prop :=
  (∀ s id k y, queueRowOk 0x404 id (fun _ => 0) (fun _ => queueChecks) s k → qGet s.q (k.argN 0x18 4) = some y →
      y.ctx.state ≠ qsHeld → y.ctx.state ≠ qsPaused → y.ctx.state ≠ qsKilled →
    Runs (.queuePause id) s fun t => begun id (k.argN 0x18 4) t ∧ qGet t.m (k.argN 0x18 4) = some { y with pausing := true })
  ∧ (∀ s q y, live s = true → qGet s.q q = some y → y.pausing = true → issuedEnded s.q q = true →
    Runs (.queuePaused q) s fun t => (qGet t.m q).map (fun z => (z.ctx.state, z.pausing))
        = some (if y.ctx.state = qsHeld ∨ y.ctx.state = qsKilled then y.ctx.state else qsPaused, false)
      ∧ (∀ i k, mget t.m.rings.cmds i = some k → ¬(k.opcode = 0x404 ∧ k.phase = 1 ∧ k.arg = q)) ∧ ∀ r, r ≠ q → qGet t.m r = qGet s.m r)
  ∧ (∀ s id k y, queueRowOk 0x405 id (fun _ => 0) queueResumeChecks s k → qGet s.q (k.argN 0x18 4) = some y →
    Runs (.queueResume id) s fun t => Answered id s t ∧ qGet t.m (k.argN 0x18 4) = some { y with ctx := { y.ctx with
      state := if y.descs ≠ [] then qsRunning else if workLeft s.q y then qsReady else qsEmpty } })
  ∧ (∀ s id k y, queueRowOk 0x406 id (fun _ => 0) queueReleaseChecks s k → qGet s.q (k.argN 0x18 4) = some y →
    Runs (.queueRelease id) s fun t => Answered id s t ∧ qGet t.m (k.argN 0x18 4) = some { y with ctx := { y.ctx with
      state := if y.descs ≠ [] then qsRunning else if workLeft s.q y then qsReady else qsEmpty } })
  ∧ (∀ s id k y, queueRowOk 0x407 id (fun _ => 0) queueResetChecks s k → qGet s.q (k.argN 0x18 4) = some y →
    Runs (.queueReset id) s fun t => begun id (k.argN 0x18 4) t ∧ qGet t.m (k.argN 0x18 4) = some { y with closing := 1 })
  ∧ (∀ s id k y n, continues 0x407 id s k = true → qGet s.q (k.argN 0x18 4) = some y → y.descs = [] →
      n = startCount y.ctx.ringLog2 (k.argN 0x1C 4) →
    Runs (.queueResetDone id) s fun t => Answered id s t ∧ ∃ z, qGet t.m (k.argN 0x18 4) = some z
      ∧ z.ctx = { y.ctx with state := qsEmpty, head := n, tail := n, cplTail := 0, cplHead := 0 } ∧ z.closing = 0 ∧ z.descs = [])
  ∧ (∀ s id k, queueRowOk 0x408 id (fun _ => 0) (fun _ => queueChecks) s k → canDestroy s.q (k.argN 0x18 4) = true →
    Runs (.queueDestroy id) s fun t => Answered id s t ∧ qGet t.m (k.argN 0x18 4) = none ∧ ∀ r, r ≠ k.argN 0x18 4 → qGet t.m r = qGet s.m r)
  ∧ ∀ s id k, continues 0x408 id s k = true → canDestroy s.q (k.argN 0x18 4) = true →
    Runs (.queueDestroyDone id) s fun t => Answered id s t ∧ qGet t.m (k.argN 0x18 4) = none ∧ ∀ r, r ≠ k.argN 0x18 4 → qGet t.m r = qGet s.m r

/-- R169, R173: BIND is under way with its destination; a parcel that verifies is bound under the first free handle, one that does
not leaves no parcel; UNBIND stops its queues, and when none of its tile-commands runs, the handle is free.
Which handle is free first is the model's choice (log 40). -/
def Obligations.ParcelsAreBound : Prop :=
  (∀ s id k, accepted 0x0300 id (fun _ => 0) bindRowChecks s k = true →
    Runs (.bind id) s fun t => begun id k.dom t ∧ t.m.parcels = s.m.parcels ∧ t.m.mem = s.m.mem)
  ∧ (∀ s id k m1 b, continues 0x0300 id s k = true → bindCheck s.c k.dom (k.argN 0x18 8) (k.argN 0x28 8) s.q = (m1, .ok (.ok b)) →
    Runs (.bindComplete id) s fun t => mget t.m.rings.cmds id = none
      ∧ mget t.m.parcels (handleFrom m1) = some ⟨k.dom, k.argN 0x20 8, k.argN 0x28 8, bindSpans k, b.records, b.deps, b.id, false,
          b.records.map (Config.windows b.id)⟩
      ∧ t.m.parcelNext = (handleFrom m1 + 1) % 65536)
  ∧ (∀ s id k m1 st, continues 0x0300 id s k = true → bindCheck s.c k.dom (k.argN 0x18 8) (k.argN 0x28 8) s.q = (m1, .ok (.error st)) →
    Runs (.bindComplete id) s fun t => mget t.m.rings.cmds id = none ∧ t.m.parcels = m1.parcels)
  ∧ (∀ s id k p, accepted 0x0301 id (fun _ => 0) unbindChecks s k = true → k.arg ≠ 1 → mget s.m.parcels (k.argN 0x18 2) = some p →
    Runs (.unbind id) s fun t => begun id (k.argN 0x18 2) t ∧ mget t.m.parcels (k.argN 0x18 2) = some { p with unbinding := true }
      ∧ ∀ q y, qGet s.q q = some y → y.ctx.bound = true → y.orphan = false → y.ctx.parcel = k.argN 0x18 2 → y.ctx.state ≤ qsRunning →
          qGet t.m q = some { y with pausing := true })
  ∧ ∀ s id k, continues 0x0301 id s k = true → parcelRuns s.q (k.argN 0x18 2) = false →
    Runs (.unbindDone id) s fun t => mget t.m.rings.cmds id = none ∧ mget t.m.parcels (k.argN 0x18 2) = none
      ∧ ∀ h, h ≠ k.argN 0x18 2 → mget t.m.parcels h = mget s.m.parcels h

/-- R287: the demand of a ledger bounds, in every tick, the budgets of the entries that run in it; so a ledger that passes the test can
grant every budget it holds out of the reserved share. -/
def Obligations.LedgerDemandBoundsEveryTick : Prop :=
  ∀ ts k, (∀ t ∈ ts, 1 ≤ t.divisor ∧ t.divisor ≤ 64 ∧ t.phase < t.divisor) →
    ((ts.filter fun t => k % t.divisor = t.phase).map (·.budget)).sum ≤ demandOf ts

/-- R285, R286, R289, R290: on an engine that is no member LEDGER_ADMIT makes an entry of its terms, or a proposal for an entry that
exists; a member asks the master; QUERY writes the entry; RETIRE marks it; at its RELEASE an entry's balance is 0. -/
def Obligations.LedgerCommands : Prop :=
  (∀ s id k, accepted 0x500 id (fun _ => 0) admitChecks s k = true → roleOf s.c ≠ 1 → mhas s.m.ledger (k.argN 0x18 2) = false →
    Runs (.ledgerAdmit id) s fun t => Answered id s t
      ∧ mget t.m.ledger (k.argN 0x18 2) = some (entryWith (termsOf ((k.bytes.drop 0x20).take 24)))
      ∧ ∀ e, e ≠ k.argN 0x18 2 → mget t.m.ledger e = mget s.m.ledger e)
  ∧ (∀ s id k x, accepted 0x500 id (fun _ => 0) admitChecks s k = true → roleOf s.c ≠ 1 → mget s.m.ledger (k.argN 0x18 2) = some x →
    Runs (.ledgerAdmit id) s fun t => Answered id s t
      ∧ mget t.m.ledger (k.argN 0x18 2) = some { x with proposal := some (termsOf ((k.bytes.drop 0x20).take 24)) }
      ∧ ∀ e, e ≠ k.argN 0x18 2 → mget t.m.ledger e = mget s.m.ledger e)
  ∧ (∀ s id k, accepted 0x500 id (fun _ => 0) admitChecks s k = true → roleOf s.c = 1 →
    Runs (.ledgerAdmit id) s fun t => begun id (k.argN 0x18 2) t ∧ t.m.ledger = s.m.ledger)
  ∧ (∀ s id k, accepted 0x501 id (fun _ => 64) ledgerQueryChecks s k = true → k.relay = none →
      k.argAddr + 64 ≤ evtRing ∨ evtRing + 64 * 4096 ≤ k.argAddr → lineBusy s.q k.argAddr 64 = false →
    Runs (.ledgerQuery id) s fun t => Answered id s t ∧ t.m.ledger = s.m.ledger ∧ bread t.m.mem.cells k.argAddr 64
      = ((mget s.m.ledger (k.argN 0x18 2)).map ledgerBytes).getD (List.replicate 64 0))
  ∧ (∀ s id k, accepted 0x502 id (fun _ => 0) ledgerRetireChecks s k = true → roleOf s.c ≠ 1 →
    Runs (.ledgerRetire id) s fun t => Answered id s t
      ∧ mget t.m.ledger (k.argN 0x18 2) = (mget s.m.ledger (k.argN 0x18 2)).map fun x => { x with retiring := true })
  ∧ ∀ s e x, live s = true → mget s.m.ledger e = some x → x.terms.release ≠ 0 → x.terms.release < s.m.tick.cfg.period - s.m.tick.cfg.quiet →
    Runs (.ledgerRelease e) s fun t => mget t.m.ledger e = some { x with balance := 0 }
      ∧ t.m.now = max s.m.now (s.m.tick.base + x.terms.release * 1000) ∧ ∀ j, j ≠ e → mget t.m.ledger j = mget s.m.ledger j

/-- R198 to R203, R209, R210: DEPOT_ALLOC gives the handle a region of the units that hold the size asked, no byte of it written;
DEPOT_FREE is under way until no operation names the region, then the handle is free; TABLE_OPEN and TABLE_CLOSE do the same
with tables. -/
def Obligations.DepotRegionsAndTables : Prop :=
  (∀ s id k n, accepted 0x600 id (fun _ => 0) allocChecks s k = true → n = cdiv (k.argN 0x18 8) 65536 →
    Runs (.depotAlloc id) s fun t => Answered id s t ∧ (∃ r, mget t.m.depot.regions (k.argN 0x22 2) = some r ∧ r.dom = k.dom ∧ r.size = 65536 * n
        ∧ r.units = n ∧ (∀ g ∈ r.groups, g < 8) ∧ r.freeing = false ∧ r.data = [])
      ∧ ∀ h, h ≠ k.argN 0x22 2 → mget t.m.depot.regions h = mget s.m.depot.regions h)
  ∧ (∀ s id k r, accepted 0x601 id (fun _ => 0) depotFreeChecks s k = true → mget s.m.depot.regions (k.argN 0x18 2) = some r →
    Runs (.depotFree id) s fun t => begun id (k.argN 0x18 2) t ∧ mget t.m.depot.regions (k.argN 0x18 2) = some { r with freeing := true })
  ∧ (∀ s id k, continues 0x601 id s k = true → regionIdle s.q (k.argN 0x18 2) = true →
    Runs (.depotFreeDone id) s fun t => Answered id s t ∧ mget t.m.depot.regions (k.argN 0x18 2) = none
      ∧ ∀ h, h ≠ k.argN 0x18 2 → mget t.m.depot.regions h = mget s.m.depot.regions h)
  ∧ (∀ s id k, accepted 0x602 id (fun _ => 64) tableOpenChecks s k = true →
    Runs (.tableOpen id) s fun t => Answered id s t
      ∧ mget t.m.depot.tables (k.argN 0x18 1) = some ⟨areaBytes s.q k 64, tbDom (areaBytes s.q k 64), false, false⟩)
  ∧ (∀ s id k x, accepted 0x603 id (fun _ => 0) tableCloseChecks s k = true → mget s.m.depot.tables (k.argN 0x18 1) = some x →
    Runs (.tableClose id) s fun t => begun id (k.argN 0x18 1) t ∧ mget t.m.depot.tables (k.argN 0x18 1) = some { x with closing := true })
  ∧ ∀ s id k, continues 0x603 id s k = true → tableBusy s.q (k.argN 0x18 1) = false →
    Runs (.tableCloseDone id) s fun t => Answered id s t ∧ mget t.m.depot.tables (k.argN 0x18 1) = none

/-! ### The tick (R279 to R284, R287, R288, R298) -/

/-- R281 to R284, R287, R288: the internal timer's boundary and an edge that is neither early nor late count one tick at their time, end a
partial tick and drive tick_out; an early edge counts none; a missing edge counts one at b + P + Q; the quiet margin
computes the demand and the reserved share of the ledger that the next tick has. -/
def Obligations.TickBoundaries : Prop :=
  (∀ s b, live s = true → s.m.tick.nextB = some b → s.m.tick.cfg.src = 0 ∨ s.m.tick.sourceLost = true →
    Runs .internalTimerBoundary s fun t => t.m.tick.count = (s.m.tick.count + 1) % 2 ^ 64 ∧ t.m.tick.base = b
      ∧ t.m.tick.nextB = some (b + s.m.tick.cfg.period * 1000) ∧ t.m.tick.partialTick = false ∧ t.m.tick.inMargin = false ∧ .tickOut ∈ t.m.out)
  ∧ (∀ s t0, live s = true → s.m.tick.cfg.src = 1 → t0 + 80 ≤ edgeEnd s.q →
      (if s.m.tick.partialTick then s.m.tick.base + s.m.tick.cfg.quiet * 1000 else s.m.tick.limit) ≤ t0 + 80 →
    Runs (.tickInEdge t0) s fun t => t.m.tick.count = (s.m.tick.count + 1) % 2 ^ 64 ∧ t.m.tick.base = t0 + 80 ∧ t.m.tick.partialTick = false)
  ∧ (∀ s t0, live s = true → s.m.tick.cfg.src = 1 → t0 + 80 ≤ edgeEnd s.q →
      t0 + 80 < (if s.m.tick.partialTick then s.m.tick.base + s.m.tick.cfg.quiet * 1000 else s.m.tick.limit) →
    Runs (.tickInEdge t0) s fun t => t.m.tick = s.m.tick)
  ∧ (∀ s, live s = true → s.m.tick.cfg.src = 1 →
    Runs .tickMissed s fun t => t.m.tick.count = (s.m.tick.count + 1) % 2 ^ 64
      ∧ t.m.tick.base = s.m.tick.base + s.m.tick.cfg.period * 1000 + s.m.tick.cfg.quiet * 1000)
  ∧ (∀ s t0, live s = true → 2 ≤ s.m.tick.cfg.src → onSeries t0 s.q = true → s.m.tick.sourceLost = false → s.m.tick.limit ≤ t0 →
    Runs (.sourceBoundary t0) s fun t => t.m.tick.count = sourceCount t0 s.q % 2 ^ 64 ∧ t.m.tick.base = t0)
  ∧ (∀ s t0, live s = true → s.m.tick.cfg.src = 3 → s.m.tick.sourceLost = false → s.m.tick.partialTick = false →
    Runs (.tickSourceLost t0) s fun t => t.m.tick.sourceLost = true ∧ t.m.tick.nextB = some (s.m.tick.base + s.m.tick.cfg.period * 1000)
      ∧ t.m.tick.count = s.m.tick.count)
  ∧ ∀ s, live s = true → s.m.tick.inMargin = false →
    Runs .quietMarginStart s fun t => t.m.tick.inMargin = true ∧ t.m.tick.reloaded = true ∧ t.m.now = max s.m.now s.m.tick.limit
      ∧ t.m.tick.demand = demandOf (activeTerms t.m.ledger) ∧ t.m.tick.count = s.m.tick.count

/-! ### The cascade (R361, R367 to R390, R404, R439, R466) -/

/-- R370, R371, R377, R387: the master's roster, the trust record, the jobs and the bindings are recorded as their commands say; a
command for a member waits for the member's answer.
That a binding takes the lowest free index and a job the next number is the model's choice (log 38). -/
def Obligations.CascadeCommands : Prop :=
  (∀ s id k n, accepted 0x700 id (fun k => 64 * k.argN 0x1C 1) cascadeRosterChecks s k = true → n = k.argN 0x1C 1 →
    Runs (.cascadeRoster id) s fun t => Answered id s t ∧ t.m.casc.group = k.argN 0x18 4 ∧ t.m.casc.roster.length = n
      ∧ ∀ i, i < n → t.m.casc.roster[i]? = some (leNat (((areaBytes s.q k (64 * n)).drop (64 * i)).take 48), leAt (areaBytes s.q k (64 * n)) (64 * i + 0x30) 4))
  ∧ (∀ s id k, accepted 0x701 id (fun _ => 64) cascadeTrustChecks s k = true → s.m.store.busy = none → s.m.power.fail = 0 → s.m.store.present = true →
    Runs (.cascadeTrust id) s fun t => begun id 2 t ∧ t.m.store.busy = some id ∧ abRead t.m.store.trustRec = abRead s.m.store.trustRec
      ∧ t.m.casc = s.m.casc)
  ∧ (∀ s id k, accepted 0x702 id (fun k => 4 * k.argN 0x1A 1 + 16 * k.argN 0x1B 1) jobChecks s k = true →
    Runs (.cascadeJob id) s fun t => Answered id s t ∧ mget t.m.casc.jobs s.m.casc.nextJob = some (jobOf s.q k) ∧ t.m.casc.nextJob = s.m.casc.nextJob + 1)
  ∧ (∀ s id k, accepted 0x703 id (fun _ => 0) remoteBindChecks s k = true →
    Runs (.remoteBind id) s fun t => Answered id s t ∧ mget t.m.casc.binds (mfree s.m.casc.binds 0) = some
      { q := k.argN 0x18 4, recv := k.argN 0x1C 1 = 1, port := k.argN 0x1D 1, engine := k.argN 0x1E 1, remote := k.argN 0x20 4
        quota := if k.argN 0x1C 1 = 1 then k.argN 0x24 2 else 0 })
  ∧ (∀ s id k, accepted 0x704 id (fun _ => 0) remoteUnbindChecks s k = true →
    Runs (.remoteUnbind id) s fun t => Answered id s t ∧ mget t.m.casc.binds (k.argN 0x18 2) = none
      ∧ ∀ p ∈ t.m.casc.parked, ∀ f ∈ p.2, f.bind ≠ k.argN 0x18 2)
  ∧ ∀ s id k, accepted 0x705 id (fun k => if k.argN 0x19 1 = 1 then 16 * k.argN 0x1A 1 else 8192) memberCommandChecks s k = true →
      (peerOf s.q (k.argN 0x18 1)).isSome = true →
    Runs (.memberCommand id) s fun t => begun id s.m.casc.nextReq t ∧ t.m.casc.nextReq = s.m.casc.nextReq + 1
      ∧ mget t.m.casc.requests s.m.casc.nextReq = some ⟨k.argN 0x18 1, if k.argN 0x19 1 = 1 then 3 else 0, id, 0, []⟩

/-- R371, R374 to R376, R384, R388, R439: the handshake: link up and down move the peers between TRAIN and HELLO; a HELLO is
recorded; an offer is answered; the key agreement brings the peer UP or to TIME; its end, a timeout or a rekey do what the
rules say.
The draws of nonces and keys are the model's own numbers (log 5). -/
def Obligations.LinkHandshake : Prop :=
  (∀ s p t0 l, live s = true → s.m.links[p]? = some l → portOn s.c p = true →
    Runs (.linkMacUp p t0) s fun t => t.m.links[p]? = some { l with macUp := true, peers := l.peers.map fun x => if x.state < 2 then { x with state := 2 } else x }
      ∧ ∀ j, j ≠ p → t.m.links[j]? = s.m.links[j]?)
  ∧ (∀ s p t0 l, live s = true → s.m.links[p]? = some l →
    Runs (.linkMacDown p t0) s fun t => t.m.links[p]? = some { l with
        macUp := false, downAt := if l.macUp then max s.m.now t0 else l.downAt
        peers := l.peers.map fun x => if 2 ≤ x.state ∧ x.state < 5 then { x with state := 1 } else x }
      ∧ ∀ j, j ≠ p → t.m.links[j]? = s.m.links[j]?)
  ∧ (∀ s p t0 l, live s = true → s.m.links[p]? = some l → portOn s.c p = true → l.macUp = true → inHello l = true →
      shakes s.q = true → l.helloAt.all (fun a => a + 10000000 ≤ max s.m.now t0) = true →
    Runs (.helloBroadcast p t0) s fun t => t.m.out = [.frame p (2 ^ 48 - 1) (wrapOf s.c p) (plainHead 5 0xF (selfEngine s.c s.q) 128) (helloBytes (ownHello s.c s.q p))]
      ∧ t.m.links[p]? = some { l with helloAt := some (max s.m.now t0) })
  ∧ (∀ s p hd h t0 l, live s = true → s.m.links[p]? = some l → portOn s.c p = true → l.macUp = true → shakes s.q = true →
      headBad hd 5 128 = false → hd.dst = 0xF ∨ hd.dst = selfEngine s.c s.q → h.engine < 16 → h.port < 4 → h.caps < 2 →
      l.peers.length < 15 ∨ (∃ x ∈ l.peers, x.mac = h.mac) →
    Runs (.helloFrame p hd h t0) s fun t => ∃ k, t.m.links[p]? = some k ∧ ∃ x ∈ k.peers, x.mac = h.mac ∧ x.hello = some h ∧ x.helloAt = max s.m.now t0)
  ∧ (∀ s p i hd a t0 x h, live s = true → peerGet s.q p i = some x → portOn s.c p = true → shakes s.q = true → x.state = 3 → x.hello = some h →
      headBad hd 6 232 = false → hd.dst = selfEngine s.c s.q → a.step = 0 → a.assign < 16 → a.signature = 0 →
    Runs (.attestFrame p i hd a t0) s fun t => (peerGet t.m p i) = some { x with offered := true, nonce := a.nonce, ephKey := a.ephKey } ∧ t.m.out.length = 1)
  ∧ (∀ s p i t0 x, live s = true → peerGet s.q p i = some x → portOn s.c p = true → s.m.casc.noMaster = false → shakes s.q = true → x.state = 3 →
      x.since + 1000000000 ≤ max s.m.now t0 →
    Runs (.attestRetry p i t0) s fun t => (peerGet t.m p i) = some
        { x with since := max s.m.now t0, offered := false, myNonce := Config.draw s.m.draws, eph := Config.draw (s.m.draws + 1) % (ecN - 1) + 1 }
      ∧ t.m.draws = s.m.draws + 2)
  ∧ (∀ s p i t0 x, live s = true → peerGet s.q p i = some x → portOn s.c p = true → shakes s.q = true → x.state = 4 →
    Runs (.mkaPdu p i true t0) s fun t => ∃ y, peerGet t.m p i = some y ∧ (y.state = 6 ∨ y.state = 7) ∧ y.mkaAt = max s.m.now t0)
  ∧ (∀ s p i t0 x, live s = true → peerGet s.q p i = some x → 4 ≤ x.state → x.mkaAt + 6000000000 ≤ max s.m.now t0 →
    Runs (.mkaLifeExpiry p i t0) s fun t => ∃ y, peerGet t.m p i = some y ∧ y.state = 2 ∧ y.unacked = [] ∧ y.credits = [])
  ∧ (∀ s p i x, live s = true → peerGet s.q p i = some x → 5 ≤ x.state →
    Runs (.sakRekey p i) s fun t => peerGet t.m p i = some { x with an := (x.an + 1) % 4, pn := 0, sa := Config.draw s.m.draws } ∧ t.m.draws = s.m.draws + 1)
  ∧ (∀ s p i o d t0 x, live s = true → peerGet s.q p i = some x → x.timePath = true → shakes s.q = true →
    Runs (.gptpPdu p i o d t0) s fun t => ∃ y, peerGet t.m p i = some y ∧ y.offsets = (o :: x.offsets).take 8 ∧ y.delay = d
      ∧ (y.state ≠ x.state → y.state = 7 ∧ ∀ v ∈ y.offsets, -1000 ≤ v ∧ v ≤ 1000))
  ∧ ∀ s t0, live s = true → s.m.casc.noMaster = true → s.m.casc.noMasterAt + 1000000000 ≤ max s.m.now t0 →
    Runs (.noMasterExpiry t0) s fun t => t.m = { tickTo t0 s.q with casc := { s.q.casc with noMaster := false } }

/-- R372, R379, R380, R382: a DATA frame in sequence for a receive binding is parked whole and raises its route's count; CREDIT adds
its credits; an acknowledgement takes the frames up to it from the retry buffer and no other; NAK and the retransmit timer
send again what is left. -/
def Obligations.LinkFramesInSequence : Prop :=
  (∀ s p i h d t0 l x y, arrives p i 1 h (h.len == d.length && h.len ≤ 8192 && 0x80 ≤ h.route && h.route ≤ 0xBF) s l x → h.seq = x.expSeq →
      (∃ b ∈ s.m.casc.binds, b.2.recv = true ∧ b.2.q = h.queue ∧ b.2.port = p ∧ some b.2.engine = x.engine) →
      qGet s.q h.queue = some y → y.ctx.state ≠ qsKilled → (domE s.q y.ctx.dom).state ≠ 2 →
    Runs (.dataFrame p i h d t0) s fun t => (peerGet t.m p i).map (·.expSeq) = some ((x.expSeq + 1) % 65536)
      ∧ (∃ z, qGet t.m h.queue = some z ∧ mget z.routes h.route = some (((mget y.routes h.route).getD 0 + 1) % 65536))
      ∧ ∃ n, mget t.m.casc.parked (256 * h.queue + h.route) = some ((mget s.m.casc.parked (256 * h.queue + h.route)).getD [] ++ [⟨n, 0, d⟩]))
  ∧ (∀ s p i h es t0 l x, arrives p i 2 h (h.len == 8 * es.length && h.len ≤ 8192 && es.all fun e => e.1 < 2 ^ 20 && e.2 < 2 ^ 16) s l x → h.seq = x.expSeq →
    Runs (.creditFrame p i h es t0) s fun t => ∃ y, peerGet t.m p i = some y ∧ y.expSeq = (x.expSeq + 1) % 65536
      ∧ ∀ q, (mget y.credits q).getD 0 = (mget x.credits q).getD 0 + ((es.filter fun e => e.1 == q).map (·.2)).sum)
  ∧ (∀ s p i h t0 l x, arrives p i 0 h (h.len == 0) s l x →
    Runs (.idleFrame p i h t0) s fun t => ∃ y, peerGet t.m p i = some y ∧ y.unacked = x.unacked.filter (fun f => !accepts h.ack f)
      ∧ y.expSeq = x.expSeq ∧ y.credits = x.credits)
  ∧ (∀ s p i h t0 l x, arrives p i 3 h (h.len == 0) s l x →
    Runs (.nakFrame p i h t0) s fun t => ∃ y, peerGet t.m p i = some y
      ∧ y.unacked = (x.unacked.filter (fun f => !accepts h.ack f)).map fun f => { f with lastAt := max s.m.now t0, resends := f.resends + 1 })
  ∧ (∀ s p i t0 x f, live s = true → portOn s.c p = true → peerGet s.q p i = some x → 5 ≤ x.state → x.unacked.head? = some f →
      f.lastAt + 20000 ≤ max s.m.now t0 →
    Runs (.retransmitTimer p i t0) s fun t => ∃ y, peerGet t.m p i = some y
      ∧ y.unacked = x.unacked.map (fun f => { f with lastAt := max s.m.now t0, resends := f.resends + 1 })
      ∧ t.m.out = x.unacked.zipIdx.map fun f =>
          let h := { f.1.head with ack := (x.expSeq + 65535) % 65536 }
          .frame p x.mac (secWrap s.c p x (x.pn + 1 + f.2) h f.1.data) h f.1.data)
  ∧ ∀ s p i t0 l x v, live s = true → s.m.links[p]? = some l → peerGet s.q p i = some x → s.c.links[p]? = some v → 5 ≤ x.state →
      x.lastRx + v.timeout * 1000 ≤ max s.m.now t0 →
    Runs (.linkTimeoutExpiry p i t0) s fun t => ∃ y, peerGet t.m p i = some y ∧ y.state = (if l.macUp then 2 else 1) ∧ y.unacked = []

/-- R379, R383: a port sends a frame that no other frame ready to go precedes, with the next sequence number, and keeps it until it is
acknowledged; with nothing ready it sends IDLE to each open peer; REFUSE stops the sending layers: those with frames to the refused queue
that were not acknowledged before, or with none, the running ones bound to it (the model's reading, log 36). -/
def Obligations.FramesLeaveInOrder : Prop :=
  (∀ s p t0 l x r b y f, live s = true → s.m.links[p]? = some l → portOn s.c p = true → l.macUp = true → s.m.casc.noMaster = false →
      sendCands s.c (tickTo t0 s.q) l = x :: r → b = sendFirst x r → peerGet s.q p b.2.2.1 = some y → y.queue[b.2.2.2]? = some f →
    Runs (.frameSend p t0) s fun t => (∀ c ∈ x :: r, frameBefore c b = false)
      ∧ (∃ g, .frame p y.mac (secWrap s.c p y (y.pn + 1) g f.data) g f.data ∈ t.m.out ∧ g.type = f.head.type
        ∧ g.seq = if sequenced f.head.type then y.nextSeq else (y.nextSeq + 65535) % 65536)
      ∧ ∃ z, peerGet t.m p b.2.2.1 = some z ∧ z.queue = y.queue.eraseIdx b.2.2.2
        ∧ z.nextSeq = (if sequenced f.head.type then (y.nextSeq + 1) % 65536 else y.nextSeq)
        ∧ z.unacked.length = y.unacked.length + if sequenced f.head.type then 1 else 0)
  ∧ (∀ s p t0 l, live s = true → s.m.links[p]? = some l → portOn s.c p = true → l.macUp = true → s.m.casc.noMaster = false →
      sendCands s.c (tickTo t0 s.q) l = [] →
    Runs (.frameSend p t0) s fun t => t.m.out.length = (l.peers.filter fun x => 5 ≤ x.state).length)
  ∧ ∀ s p i h es t0 l x e q d y, arrives p i 4 h (h.len == 8 * es.length && h.len ≤ 8192 && es.all fun e => e.1 < 2 ^ 20 && e.2 < 2 ^ 8) s l x → h.seq = x.expSeq →
      e ∈ es →
      descGet s.q q d = some y →
      (∃ f ∈ x.unacked ++ x.queue, f.head.type = 1 ∧ f.head.queue = e.1 ∧ f.q = q ∧ f.desc = d)
        ∨ ((∀ f ∈ x.unacked ++ x.queue, ¬(f.head.type = 1 ∧ f.head.queue = e.1)) ∧ y.phase = 2 ∧ y.running ≠ 0
          ∧ ∃ b ∈ s.m.casc.binds, b.2.recv = false ∧ b.2.port = p ∧ some b.2.engine = x.engine ∧ b.2.remote = e.1 ∧ b.2.q = q) →
    Runs (.refuseFrame p i h es t0) s fun t => ∃ z, descGet t.m q d = some z ∧ z.cancelled = true

/-- R384, R386, R404, R466: a member takes the master's tick settings from a TICK frame; the master admits a member's ledger
entry that passes, and takes a retired one out; a member runs the command the master sends; a booting member takes image
bytes in order. -/
def Obligations.CascadeFrames : Prop :=
  (∀ s p i h n pp q z t0 l x, arrives p i 7 h (h.len == 32) s l x → h.seq = x.expSeq → roleOf s.c = 1 → x.engine = some 0 → s.c.tick.src = 2 →
      tickOk { s.c.tick with period := pp, quiet := q } = true →
    Runs (.tickFrame p i h n pp q z t0) s fun t => t.c = { s.c with tick := { s.c.tick with period := pp, quiet := q } }
      ∧ t.m.casc.tickRx = some (max s.m.now t0, n) ∧ t.m.casc.tickT0 = some z ∧ t.m.tick.t0 = z)
  ∧ (∀ s p i h e rq b t0 l x g, arrives p i 8 h (h.len == 32 && b.length == 24) s l x → h.seq = x.expSeq → roleOf s.c = 2 → x.engine = some g →
      e < 4096 → termsBad b = false → termsRange (termsOf b) = false →
      memberOk s.c s.q g (mset s.m.casc.memberLedger (4096 * g + e) (entryWith (termsOf b))) = true →
    Runs (.ledgerFrame p i h 0 0 e rq b t0) s fun t => mget t.m.casc.memberLedger (4096 * g + e) = some (entryWith (termsOf b)))
  ∧ (∀ s p i h e rq b t0 l x g, arrives p i 8 h (h.len == 32 && b.length == 24) s l x → h.seq = x.expSeq → roleOf s.c = 2 → x.engine = some g →
    Runs (.ledgerFrame p i h 1 0 e rq b t0) s fun t => mget t.m.casc.memberLedger (4096 * g + e) = none)
  ∧ (∀ s p i h rq b t0 l x, arrives p i 9 h (h.len == 16 + b.length && h.len ≤ 8192) s l x → h.seq = x.expSeq → roleOf s.c = 1 → x.engine = some 0 →
      headerBad { bytes := b.take 64, phase := 0, seq := s.m.rings.nextCmd, start := max s.m.now t0, arg := 0, relay := some rq, areaBytes := b.drop 64 } = false →
    Runs (.manageFrame p i h 0 rq b.length 0 b t0) s fun t => mget t.m.rings.cmds s.m.rings.nextCmd
      = some { bytes := b.take 64, phase := 0, seq := s.m.rings.nextCmd, start := max s.m.now t0, arg := 0, relay := some rq, areaBytes := b.drop 64 })
  ∧ ∀ s p i h o n d t0 l x, arrives p i 0xA h (h.len == 16 + d.length && h.len ≤ 8192) s l x → h.seq = x.expSeq → roleOf s.c ≠ 2 → x.engine = some 0 →
      takesImage s.q = true → o = s.m.casc.image.length → o + d.length < n →
    Runs (.imageFrame p i h o n d t0) s fun t => t.m.casc.image = s.m.casc.image ++ d ∧ t.m.boot = s.m.boot

/-! ### Doors, mailboxes, fetch (R224, R251 to R256, R260, R263 to R267) -/

/-- R251, R252: a pigeonhole write is ignored whole, or its halves are judged apart: an accepted half becomes the queue's tail
or completion head, a half that fails changes nothing, and each write ignored in whole or part counts. R224: a feed queue's
write sets the producer index that is not behind. R264 to R267: mailbox data is kept; a trigger copies it, zero-filled, to a
landing and waits with its sequence number. No other queue changes. R253, R265: a read of a pigeonhole gives HEAD and STATE, a read of
a trigger word the last SEQ, whether a submission is pending and whether one is in flight. -/
def Obligations.DoorsJudgeTheirWrites : Prop :=
  (∀ s q w v x, live s = true → qGet s.q q = some x → ctxReady s q x.ctx.dom → x.ctx.feed = false → doorOpen s.c s.q x = true →
      badIn s.m.mem (s.c.tb.cnt + 16 * q) 16 = none →
    Runs (.pigeonholeWrite q w v) s fun t => (∀ r, r ≠ q → qGet t.m r = qGet s.m r) ∧ ∃ y, qGet t.m q = some y
      ∧ (pgForm w (v % 2 ^ 64) x.ctx = false → y = { x with rejects := satInc 16 x.rejects })
      ∧ (pgForm w (v % 2 ^ 64) x.ctx = true →
          (let took := pgTailOk (v % 2 ^ 64) x.ctx && !x.ctx.forwardable && x.ctx.state != qsKilled
           y.ctx.tail = if took then pgTail (v % 2 ^ 64) x.ctx else x.ctx.tail)
          ∧ y.ctx.cplHead = (if pgHeadOk (v % 2 ^ 64) x.ctx then pgHead (v % 2 ^ 64) x.ctx else x.ctx.cplHead)
          ∧ y.rejects = (if (pgTailOk (v % 2 ^ 64) x.ctx || x.ctx.forwardable || x.ctx.state == qsKilled) && pgHeadOk (v % 2 ^ 64) x.ctx
              then x.rejects else satInc 16 x.rejects)))
  ∧ (∀ s q v x, live s = true → qGet s.q q = some x → ctxReady s q x.ctx.dom → x.ctx.feed = true → doorOpen s.c s.q x = true → v < 2 ^ 32 →
      subMod v x.feedIdx (2 ^ 32) < 2 ^ 31 →
    Runs (.feedIndexWrite q 8 v) s fun t => (∀ r, r ≠ q → qGet t.m r = qGet s.m r) ∧ qGet t.m q = some { x with feedIdx := v })
  ∧ (∀ s q w v x, live s = true → qGet s.q q = some x → ctxReady s q x.ctx.dom → x.ctx.feed = true → doorOpen s.c s.q x = true →
      w ≠ 8 ∨ (v < 2 ^ 64 ∧ (2 ^ 32 ≤ v ∨ 2 ^ 31 ≤ subMod v x.feedIdx (2 ^ 32))) →
    Runs (.feedIndexWrite q w v) s fun t => qGet t.m q = some { x with feedRejects := satInc 32 x.feedRejects })
  ∧ (∀ m q x v, qGet m q = some x → x.ctx.ringLog2 ≤ 16 → x.ctx.state < 8 → v = readPigeonhole q m →
      bits v 0 16 = x.ctx.head % 2 ^ x.ctx.ringLog2 ∧ bits v 16 15 = 0 ∧ bits v 31 1 = x.ctx.head / 2 ^ x.ctx.ringLog2 % 2 ∧ bits v 32 3 = x.ctx.state
        ∧ v < 2 ^ 35)
  ∧ (∀ m i b v, mget m.mbx i = some b → b.seq < 2 ^ 16 → v = readTrigger i m →
      bits v 0 16 = b.seq ∧ bits v 16 8 = 0 ∧ bits v 24 1 = b.pending.toList.length ∧ bits v 25 1 = b.flight.toList.length ∧ v < 2 ^ 26)
  ∧ (∀ s i o d, live s = true → s.c.lockTables = true → i < 4096 → d ≠ [] → o / 64 = (o + d.length - 1) / 64 → o + d.length ≤ 0xF8 →
    Runs (.mailboxDataWrite i o d) s fun t => t.m = { s.q with mbx := t.m.mbx } ∧ t.c = s.c
      ∧ (∃ b, mget t.m.mbx i = some b ∧ bread b.data o d.length = d
          ∧ ∀ a, a < o ∨ o + d.length ≤ a → bget b.data a = bget ((mget s.m.mbx i).getD {}).data a)
      ∧ ∀ j, j ≠ i → mget t.m.mbx j = mget s.m.mbx j)
  ∧ ∀ s i v q x a b land, live s = true → mbxQueue s.q i = some q → qGet s.q q = some x → ctxReady s q x.ctx.dom → doorOpen s.c s.q x = true →
      x.ctx.feed = false → v < 2 ^ 24 → bits v 16 8 ≤ 248 → x.ctx.state ≠ qsKilled → badIn s.m.mem (s.c.tb.cnt + 16 * q) 16 = none → b = (mget s.m.mbx i).getD {} →
      land = (match b.flight with | some l => 1 - l | none => (b.pending.map (·.2)).getD 0) →
      translateNow s.c s.q x.ctx.dom (landingVa x.ctx.aux land) .write = .dev a → writeChk s.m.mem x.ctx.dom a 256 = .ok → inImage s.q a 256 = false →
      lineBusy s.q a 256 = false →
    Runs (.mailboxTrigger i 8 v) s fun t => mget t.m.mbx i = some { b with seq := v % 2 ^ 16, pending := some (v % 2 ^ 16, land) }
      ∧ bread t.m.mem.cells a 256 = bread b.data 0 (bits v 16 8) ++ List.replicate (256 - bits v 16 8) (0 : Byte)
      ∧ (∀ j, j < a ∨ a + 256 ≤ j → bget t.m.mem.cells j = bget s.m.mem.cells j)
      ∧ ∃ y, qGet t.m q = some y ∧ y.replaced = if b.pending.isSome then satInc 16 x.replaced else x.replaced

/-- R254, R256, R263: a published descriptor is fetched whole: HEAD passes its entries, its completion entry is reserved, and it
completes with DESCRIPTOR_MALFORMED at its first bad byte or is kept with its translations. R264: a pending submission is
fetched with the standing descriptor. R18: a drained queue becomes READY with work, EMPTY without. -/
def Obligations.FetchTakesPublishedDescriptors : Prop :=
  (∀ s q t0 y m l n m1 h o, published s q t0 y m l n → holdCpl s.c q y m = (m1, .ok h) → descBad y.ctx.path false l = some o →
    Runs (.descriptorFetch q t0) s fun t => ∃ z x, qGet t.m q = some z ∧ fetchedInto y z ((y.ctx.head + n) % (2 * 2 ^ y.ctx.ringLog2))
      ∧ descGet t.m q y.nextId = some x ∧ x.bytes = l ∧ x.phase = 4 ∧ x.record = some (stMalformed, o))
  ∧ (∀ s q t0 y m l n m1 h x m2 m3 hs, published s q t0 y m l n → holdCpl s.c q y m = (m1, .ok h) → descBad y.ctx.path false l = none →
      strideBad m1 y.ctx.dom (desc0 y.ctx l (y.ctx.head % 2 ^ y.ctx.ringLog2) (max s.m.now t0)) = none →
      copyStreams s.c q y.ctx.dom { desc0 y.ctx l (y.ctx.head % 2 ^ y.ctx.ringLog2) (max s.m.now t0) with cplHeld := h } m1 = (m2, .ok x) → copyFetchBad m2 q y.nextId x = none →
      holdAll s.c q y.ctx.dom (heldRanges s.c m2 y.ctx x) m2 = (m3, .ok hs) →
    Runs (.descriptorFetch q t0) s fun t => ∃ z, qGet t.m q = some z ∧ fetchedInto y z ((y.ctx.head + n) % (2 * 2 ^ y.ctx.ringLog2))
      ∧ descGet t.m q y.nextId = some { x with held := hs, frames := bindFrames s.c m3 y.ctx.dom x } ∧ l = x.bytes.take l.length)
  ∧ (∀ s q t0 y b sq land m l m1 h o, submitted s q t0 y b sq land m l → holdCpl s.c q y m = (m1, .ok h) → descBad 2 true l = some o →
    Runs (.mailboxFetch q t0) s fun t => mget t.m.mbx y.ctx.mailbox = some { b with pending := none, flight := some land }
      ∧ ∃ z x, qGet t.m q = some z ∧ fetchedInto y z y.ctx.head ∧ descGet t.m q y.nextId = some x ∧ x.seq = some sq ∧ x.bytes = l
        ∧ x.record = some (stMalformed, o))
  ∧ (∀ s q t0 y b sq land m l m1 h x0 x m2 m3 hs, submitted s q t0 y b sq land m l → holdCpl s.c q y m = (m1, .ok h) → descBad 2 true l = none →
      x0 = { desc0 y.ctx l 0xFFFF (max s.m.now t0) with seq := some sq, landing := landingVa y.ctx.aux land, cplHeld := h } →
      strideBad m1 y.ctx.dom x0 = none → copyStreams s.c q y.ctx.dom x0 m1 = (m2, .ok x) → copyFetchBad m2 q y.nextId x = none →
      holdAll s.c q y.ctx.dom (heldRanges s.c m2 y.ctx x) m2 = (m3, .ok hs) →
    Runs (.mailboxFetch q t0) s fun t => mget t.m.mbx y.ctx.mailbox = some { b with pending := none, flight := some land }
      ∧ (∃ z, qGet t.m q = some z ∧ fetchedInto y z y.ctx.head)
      ∧ descGet t.m q y.nextId = some { x with held := hs, frames := bindFrames s.c m3 y.ctx.dom x } ∧ x.seq = some sq ∧ x.landing = landingVa y.ctx.aux land
      ∧ l = x.bytes.take l.length)
  ∧ ∀ s q y, live s = true → qGet s.q q = some y → y.drained = true → y.descs = [] → y.ctx.state = qsRunning →
    Runs (.idleResample q) s fun t => qGet t.m q = some { y with drained := false, ctx := { y.ctx with
        state := if workLeft s.m y then qsReady else qsEmpty } } ∧ ∀ r, r ≠ q → qGet t.m r = qGet s.m r

/-! ### Layers: presentation, admission, scheduling, drain, completion (R13 to R23, R239 to R244, R257 to R260, R269, R275 to R303) -/

/-- R470, R471, R260, R22: a RUN whose turn it is and whose first check fails completes with that status and runs nothing; one that
passes receives its parameter block with the landing, return, feed and history slots written, its pool's map behind it, and
what its layer record declares; a layer no tick can hold is refused. -/
def Obligations.LayersArePresented : Prop :=
  let turn (s : State) (q d t : Nat) (y : Queue) (x : Desc) (m : Mach) : Prop :=
    live s = true ∧ qGet s.q q = some y ∧ descGet s.q q d = some x ∧ x.phase = 0 ∧ x.isRun = true ∧ goesOn y = true ∧ depsMet s.q q d = true
      ∧ earlierAt y d 1 = true ∧ recWaits y d x = false ∧ m = (x.pool.map fun p => poolTag s.c p (tickTo t s.q)).getD (tickTo t s.q)
  (∀ s q d t0 y x m st e, turn s q d t0 y x m → presentEarly s.c m q y x = some (st, e) →
    Runs (.layerPresent q d t0) s fun t => ∃ z, descGet t.m q d = some z ∧ z.phase = 4 ∧ z.record = some (st, e) ∧ z.cancelled = true)
  ∧ (∀ s q d t0 y x m m1 recs b map lv l st e, turn s q d t0 y x m → presentEarly s.c m q y x = none →
      presentReads s.c q d x m = (m1, .ok (recs, (b, map, lv), l)) → presentLate x (layerWins s.m x) ((layerRec s.m x).getD []) recs b map lv = some (st, e) →
    Runs (.layerPresent q d t0) s fun t => ∃ z, descGet t.m q d = some z ∧ z.phase = 4 ∧ z.record = some (st, e) ∧ z.cancelled = true)
  ∧ (∀ s q d t0 y x m m1 recs b map lv l r, turn s q d t0 y x m → presentEarly s.c m q y x = none → r = (layerRec s.m x).getD [] →
      presentReads s.c q d x m = (m1, .ok (recs, (b, map, lv), l)) → presentLate x (layerWins s.m x) r recs b map lv = none → neverFits m1 q y r = true →
    Runs (.layerPresent q d t0) s fun t => ∃ z, descGet t.m q d = some z ∧ z.phase = 4
      ∧ z.record = some (stAdmissionRefused, ((entryOf s.m q).map (·.1)).getD 0xFFFF))
  ∧ ∀ s q d t0 y x m m1 m2 recs b map lv l r, turn s q d t0 y x m → presentEarly s.c m q y x = none → r = (layerRec s.m x).getD [] →
      presentReads s.c q d x m = (m1, .ok (recs, (b, map, lv), l)) → presentLate x (layerWins s.m x) r recs b map lv = none → neverFits m1 q y r = false →
      landInline s.c q d y x m1 = (m2, .ok ()) →
    Runs (.layerPresent q d t0) s fun t => ∃ z, descGet t.m q d = some z ∧ z.tiles = lrTiles r ∧ z.wcet = lrWcet r
      ∧ z.altTiles = lrRerunTiles r ∧ z.altWcet = lrRerunWcet r ∧ z.presented = max s.m.now t0
      ∧ z.params = putSlots (slotWrites y x ++ ((histBinds x.bytes).foldl (recTake q d x) ([], m2)).1) (paramNums l) ++ map

/-- R289: a presented layer of a best-effort queue whose turn it is may issue; one of a real-time queue does when its entry's
BALANCE covers its cost, which moves from BALANCE to OWED; any other waits unchanged. R276: a merge group that is full or
whose window has ended is closed. R241: once the narrow run has drained the alternate issues from its first tile-command. -/
def Obligations.LayersAreAdmitted : Prop :=
  (∀ s q d y x, live s = true → qGet s.q q = some y → descGet s.q q d = some x → x.phase = 1 → x.isRun = true → x.cancelled = false →
      goesOn y = true → earlierAt y d 2 = true → y.ctx.rt = false → poolBind x.bytes = none →
    Runs (.layerAdmit q d) s fun t => t.m.ledger = s.m.ledger
      ∧ ∃ z, descGet t.m q d = some z ∧ z.phase = 2 ∧ z.admitTick = s.m.tick.count ∧ z.admitAt = s.m.now ∧ z.order = s.m.sched.order)
  ∧ (∀ s q d y x k e, live s = true → qGet s.q q = some y → descGet s.q q d = some x → x.phase = 1 → x.isRun = true → x.cancelled = false →
      goesOn y = true → earlierAt y d 2 = true → y.ctx.rt = true → poolBind x.bytes = none → s.m.tick.partialTick = false → s.m.now < s.m.tick.limit →
      entryOf s.m q = some (k, e) → e.running = true → mget s.m.ledger k = some e → x.tiles * x.wcet + x.altTiles * x.altWcet ≤ e.balance →
    Runs (.layerAdmit q d) s fun t => (∃ z, descGet t.m q d = some z ∧ z.phase = 2 ∧ z.owed = x.tiles * x.wcet + x.altTiles * x.altWcet)
      ∧ ∃ e', mget t.m.ledger k = some e' ∧ e'.balance = e.balance - (x.tiles * x.wcet + x.altTiles * x.altWcet)
        ∧ e'.owed = e.owed + (x.tiles * x.wcet + x.altTiles * x.altWcet))
  ∧ (∀ s q d y x k e, live s = true → qGet s.q q = some y → descGet s.q q d = some x → y.ctx.rt = true → entryOf s.m q = some (k, e) →
      e.balance < x.tiles * x.wcet + x.altTiles * x.altWcet ∨ s.m.tick.partialTick = true ∨ s.m.tick.limit ≤ s.m.now →
    Runs (.layerAdmit q d) s fun t => t.m = s.q)
  ∧ (∀ s n t0 g p x, live s = true → mget s.m.sched.groups n = some g → g.members.head? = some p → descGet s.q p.1 p.2 = some x →
      128 ≤ g.rows ∨ g.ends ≤ max s.m.now t0 →
    Runs (.coalesceGroupClose n t0) s fun t => mget t.m.sched.groups n = some { g with closed := true }
      ∧ ∀ k, k ≠ n → mget t.m.sched.groups k = mget s.m.sched.groups k)
  ∧ ∀ s q d x, live s = true → descGet s.q q d = some x → x.phase = 2 → x.alt = true → x.cancelled = false → x.next = x.altTiles + 1 →
      (∀ k ∈ s.m.cores, ∀ u, k.tc = some u → u.alt = true ∨ (u.q, u.desc) ∉ groupOf s.m q d) →
    Runs (.rerunStart q d) s fun t => descGet t.m q d = some { x with next := 0 }

/-- R21, R290, R295: no tile-command, alone or of a gang, issues unless it would end by the tick's issue limit, whatever the
scheduler chooses. -/
def Obligations.NothingIssuesPastTheLimit : Prop :=
  ∀ (s : State) (i : Instr), (∃ t0, i = .tileCommandIssue t0) ∨ (∃ q d t0, i = .gangIssue q d t0) →
    Runs i s fun t => t.m.tick = s.m.tick ∧ ∀ (k : Nat) (y : Core) (u : TileCmd), t.m.cores[k]? = some y → y.tc = some u → ((s.m.cores[k]?).bind fun x => x.tc) ≠ some u →
      u.issued = t.m.now ∧ s.m.now ≤ t.m.now ∧ u.issued + u.wcet ≤ s.m.tick.limit

/-- R20, R294, R295: a kept core that is ready receives its layer's next tile-command; a chosen core that must be scrubbed first is
kept and marked; a gang issues on all its cores in one decision; R360: a scrub starts on a core with work of another domain
behind it and leaves it without any of its contents; R412: a core idle for 100 µs loses its contents and is gated.
Which core is chosen, and that a core is kept while it is scrubbed, is the model's reading (log 20). -/
def Obligations.TileCommandsIssue : Prop :=
  (∀ s t0 k a m1, live s = true → s.m.power.fail = 0 → readyKept s.c (tidy s.c (tickTo t0 s.q)) = some (k, a) →
      m1 = withAlloc s.c a (tidy s.c (tickTo t0 s.q)) →
    Runs (.tileCommandIssue t0) s fun t => (∃ x y, s.m.cores[k]? = some x ∧ t.m.cores[k]? = some y ∧ y = coreWith a (tileFor m1 a a.x.next 0 0) x)
      ∧ (∀ j, j ≠ k → t.m.cores[j]? = s.m.cores[j]?)
      ∧ descGet t.m a.q a.d = some { a.x with next := a.x.next + 1, running := a.x.running + 1, owed := a.x.owed - a.w })
  ∧ (∀ s t0 m m1 a k ks x, live s = true → s.m.power.fail = 0 → m = tidy s.c (tickTo t0 s.q) → readyKept s.c m = none →
      choose s.c m = (m1, some (a, k :: ks)) → lrGang a.lrec < 2 → s.m.cores[k]? = some x →
    Runs (.tileCommandIssue t0) s fun t => ∃ y, t.m.cores[k]? = some y ∧ (∀ j, j ≠ k → t.m.cores[j]? = s.m.cores[j]?)
      ∧ (needScrub x a.dom = true → (k, a.q, a.d) ∈ t.m.sched.chosen ∧ y = { x with regs := { x.regs with dirty := true } })
      ∧ (needScrub x a.dom = false → ∃ u, y.tc = some u ∧ u.q = a.q ∧ u.desc = a.d ∧ u.tile = a.x.next ∧ y.regs.dom = a.dom ∧ y.regs.state = 1))
  ∧ (∀ s q d t0 m a ks, live s = true → s.m.power.fail = 0 → m = tidy s.c (tickTo t0 s.q) →
      candOf s.c { m with sched := { m.sched with chosen := [] } } q d = some a → 2 ≤ lrGang a.lrec → ks = gangCores s.c m a → ks.Nodup →
      ks.length = a.size → ks.all (keptReady m a) = true → max s.m.now t0 + a.w ≤ s.m.tick.limit →
      a.rt = true ∨ leavesTime { m with sched := { m.sched with chosen := m.sched.chosen.filter fun p => !ks.contains p.1 } } a ks = true →
    Runs (.gangIssue q d t0) s fun t => (∀ j, j ∉ ks → t.m.cores[j]? = s.m.cores[j]?)
      ∧ ∀ i k, ks[i]? = some k → ∃ y u, t.m.cores[k]? = some y ∧ y.tc = some u ∧ u.q = q ∧ u.desc = d ∧ u.tile = a.x.next + i
        ∧ u.gang = s.m.sched.gang + 1 ∧ u.member = i ∧ u.issued = max s.m.now t0)
  ∧ (∀ s k t0 x, live s = true → s.m.cores[k]? = some x → x.tc = none → x.regs.dirty = true → x.regs.test < 2 → x.regs.state ≠ 2 →
      readsBack s.m k = true →
    Runs (.scrubStart k t0) s fun t => t.m = { s.q with now := max s.m.now t0, cores := t.m.cores } ∧ (∀ j, j ≠ k → t.m.cores[j]? = s.m.cores[j]?)
      ∧ t.m.cores[k]? = some { x with regs := { x.regs with state := 2, since := max s.m.now t0 } })
  ∧ (∀ s k t0 x, live s = true → s.m.cores[k]? = some x → x.regs.state = 2 →
    Runs (.scrubEnd k t0) s fun t => (∀ j, j ≠ k → t.m.cores[j]? = s.m.cores[j]?)
      ∧ ∃ y, t.m.cores[k]? = some y ∧ y = { coreClear y.regs with front := x.front } ∧ y.regs.clean = true ∧ y.regs.dirty = false ∧ y.regs.gated = false
        ∧ y.regs.scrubs = (x.regs.scrubs + 1) % 2 ^ 64)
  ∧ ∀ s k t0 x, live s = true → s.m.cores[k]? = some x → s.c.gateIdle = true → noGateNow s.c k x.regs = false → coreFree x = true → x.regs.gated = false →
      x.regs.since + 100000 ≤ max s.m.now t0 → (∀ p ∈ s.m.sched.chosen, p.1 ≠ k) →
    Runs (.coreIdleGate k t0) s fun t => t.m.cores[k]? = some { coreClear { x.regs with gated := true, state := 3 } with front := x.front }
      ∧ ∀ j, j ≠ k → t.m.cores[j]? = s.m.cores[j]?

/-- R13, R94, R95, R239 to R241: a drained tile-command leaves its core cleared, its clip events are added to its layer's MONITOR, and
past the threshold of a re-runnable layer the layer turns to its alternate. R237, R240, R269, R470: a finished layer's record holds
its deciding status; a history record receives its update; R230: a scattered pool's leaves take effect. -/
def Obligations.LayersDrainAndComplete : Prop :=
  (∀ s k t0 x u z, live s = true → s.m.cores[k]? = some x → x.tc = some u → hasDrained s.m k x u = true → descGet s.q u.q u.desc = some z →
      groupOf s.m u.q u.desc = [(u.q, u.desc)] → u.alt = false → z.alt = false →
    Runs (.tileCommandDrain k t0) s fun t => (∃ y, t.m.cores[k]? = some y ∧ y = { coreClear y.regs with icache := x.icache, tlb := x.tlb, front := x.front })
      ∧ (∀ j, j ≠ k → t.m.cores[j]? = s.m.cores[j]?)
      ∧ ∃ w, descGet t.m u.q u.desc = some w ∧ w.running = z.running - 1 ∧ w.drainTick = some s.m.tick.count ∧ w.drainCore = some k ∧ w.monitor = min (z.monitor + x.clip) (2 ^ 32 - 1)
        ∧ w.alt = (!z.cancelled && decide (z.threshold < min (z.monitor + x.clip) (2 ^ 32 - 1)) && (layerRec s.m z).any lrRerun)
        ∧ (w.alt = true → w.narrow = z.next ∧ w.trigger = w.monitor ∧ w.maxv = none ∧ w.enqs = []))
  ∧ (∀ s q d t0 x, live s = true → descGet s.q q d = some x → x.phase = 3 → x.running = 0 → leadFirst s.m q d x = false → x.isRun = false →
    Runs (.layerComplete q d t0) s fun t => ∃ z, descGet t.m q d = some z ∧ z.phase = 4 ∧ z.record = some (finalStatus x)
      ∧ z.tick = x.drainTick.getD s.m.tick.count)
  ∧ (∀ s q d t0 x, live s = true → descGet s.q q d = some x → x.phase = 3 → x.running = 0 → leadFirst s.m q d x = false → x.isRun = true → x.enqs = [] →
      x.gather = 0 ∨ x.gather = 6 → (∀ h ∈ histBinds x.bytes, bits h.2.2 2 1 ≠ 1) →
    Runs (.layerComplete q d t0) s fun t => mget t.m.depot.layers (layerKey q d) = none ∧ t.m.mem = s.m.mem
      ∧ ∃ z, descGet t.m q d = some z ∧ z.phase = 4 ∧ z.record = some (finalStatus x) ∧ z.owed = 0
        ∧ z.tick = x.drainTick.getD s.m.tick.count)
  ∧ (∀ s q d t0 x va sl f a m1 b, live s = true → descGet s.q q d = some x → x.phase = 3 → x.running = 0 → leadFirst s.m q d x = false → x.isRun = true → x.enqs = [] →
      x.gather = 0 ∨ x.gather = 6 → histBinds x.bytes = [(va, sl, f)] → bits f 2 1 = 1 →
      (finalStatus x).1 = stOk ∨ (finalStatus x).1 = stOkRerun → recRead s.c q x va (tickTo t0 s.q) = (m1, .ok b) → recSpots x va = [(a, 128)] →
      x.histDone = false → inImage s.q a 128 = false → lineBusy s.q a 128 = false → flushFailed s.m x = false →
      x.flagGlobal = false ∨ (unsent s.m q d = false ∧ linesOut s.m x = false ∧ flushWaits s.m x = false) →
    Runs (.layerComplete q d t0) s fun t => bread t.m.mem.cells a 128 = recUpdate x.maxv x.nan b
      ∧ (∀ j, j < a ∨ a + 128 ≤ j → bget t.m.mem.cells j = bget s.m.mem.cells j)
      ∧ ∃ z, descGet t.m q d = some z ∧ z.record = some (finalStatus x))
  ∧ ∀ s q d x p n va m1 l m2, live s = true → descGet s.q q d = some x → poolBind x.bytes = some (p, n, va) → x.gather = 5 →
      feRead s.c q (qDom s.m q) (plLive (poolEntry s.c s.m p)) (liveLen (poolEntry s.c s.m p)) s.q = (m1, .ok l) →
      soWrite s.c q d [(0, plLive (poolEntry s.c s.m p), liveSet false (((x.params.drop 64).filter meLeave).map meSlot) l)] m1 = (m2, .ok ()) →
    Runs (.poolScatterDone q d) s fun t => t.m = descUpd q d (fun z => { z with gather := 6 }) m2

/-- R26 to R28, R268, R269, R278: a ready record is written whole to its completion entry and its descriptor is gone, with JOBS
one higher. R271: a write error sends it to the dead-letter ring instead and holds the queue. R459: a moderation window that ends
sends the pending vector. R270: a record's vector waits 64 front-end cycles for those that share its message, which then goes out (at
which row is the model's choice, log 49). -/
def Obligations.CompletionRecordsAreWritten : Prop :=
  (∀ s q d t0 y x h m0, live s = true → m0 = ownFlushed q d (msixDue (tickTo t0 s.q)) → qGet m0 q = some y → mget y.descs d = some x →
      x.phase = 4 → x.running = 0 → unsent m0 q d = false → linesOut m0 x = false → memberFirst m0 q d x = true → collectorTurn m0 q d = true →
      s.m.power.fail < 2 → flushFns x = [] → x.cplHeld = some h → h.host = none → h.void = false → lineBusy m0 h.phys 32 = false →
      inImage m0 h.phys 32 = false → writeChk m0.mem y.ctx.dom h.phys 32 = .ok → badIn m0.mem (s.c.tb.cnt + 16 * q) 16 = none →
    Runs (.completionRecordWrite q d t0) s fun t => bread t.m.mem.cells h.phys 32 = recordBytes q y x false
      ∧ (∀ j, j < h.phys ∨ h.phys + 32 ≤ j → bget t.m.mem.cells j = bget m0.mem.cells j)
      ∧ (∀ v, x.irqVec = some v → x.noIrq = false → ∃ e ∈ t.m.irq.due, e.1 = v)
      ∧ (∃ z, qGet t.m q = some z ∧ z.jobs = (y.jobs + 1) % 2 ^ 64 ∧ z.descs = mdel y.descs d) ∧ ∀ r, r ≠ q → qGet t.m r = qGet s.m r)
  ∧ (∀ s id r y, live s = true → s.m.hp.sent.find? (fun r => r.id == id && r.kind == 0) = some r → r.who = 1 → s.m.dlOff = false →
      qGet s.q r.q = some y → y.ctx.state ≠ qsKilled →
      lineBusy s.q (s.c.tb.dl + 64 * (s.m.dlTail % 2 ^ s.c.tb.dlLog2)) 64 = false →
      ringFails s.m (s.c.tb.dl + 64 * (s.m.dlTail % 2 ^ s.c.tb.dlLog2)) = none → subMod s.m.dlTail s.m.dlHead (2 * 2 ^ s.c.tb.dlLog2) < 2 ^ s.c.tb.dlLog2 →
    Runs (.hostPortWriteError id) s fun t =>
      bread t.m.mem.cells (s.c.tb.dl + 64 * (s.m.dlTail % 2 ^ s.c.tb.dlLog2)) 64 = letterBytes r.data r.va 2 y.ctx.dom 0 s.m.dlSeq
        ∧ t.m.dlTail = (s.m.dlTail + 1) % (2 * 2 ^ s.c.tb.dlLog2) ∧ t.m.hp.sent = s.m.hp.sent.filter (·.id ≠ id) ∧ .aer ∈ t.m.out
        ∧ t.m.hp.fnc.aerWrite = true
        ∧ (qGet t.m r.q).map (·.ctx.state) = some qsHeld)
  ∧ (∀ s t0, live s = true → s.m.irq.dlPend = true → s.m.irq.dlUntil ≤ max s.m.now t0 → s.c.dlIrq.en = true → vecOpen s.m s.c.dlIrq.vector = true →
      givingUp s.m s.c.tb.dl (64 * 2 ^ s.c.tb.dlLog2) = false → (∀ e ∈ s.m.irq.due, max s.m.now t0 < e.2.1 + 64) →
    Runs (.irqModerationExpiry true t0) s fun t => t.m.out = [.msix s.c.dlIrq.vector] ∧ t.m.irq.dlPend = false
      ∧ t.m.irq.dlUntil = max s.m.now t0 + s.c.dlIrq.modUs * 1000)
  ∧ (∀ s t0 v a l, live s = true → s.m.irq.due = [(v, a, l)] → a + 64 ≤ max s.m.now t0 → (∀ b ∈ l, b ∉ s.m.hp.bisnp) → s.m.irq.dlPend = false →
      vecOpen s.m v = true →
    Runs (.irqModerationExpiry true t0) s fun t => t.m.out = [.msix v] ∧ t.m.irq.due = [])
  ∧ ∀ s t0, live s = true → s.m.irq.evtPend = true → s.m.irq.evtUntil ≤ max s.m.now t0 → s.c.evtIrq.en = true → vecOpen s.m s.c.evtIrq.vector = true →
      givingUp s.m evtRing 0x40000 = false → (∀ e ∈ s.m.irq.due, max s.m.now t0 < e.2.1 + 64) →
    Runs (.irqModerationExpiry false t0) s fun t => t.m.out = [.msix s.c.evtIrq.vector] ∧ t.m.irq.evtPend = false
      ∧ t.m.irq.evtUntil = max s.m.now t0 + s.c.evtIrq.modUs * 1000

/-- R301, R277: a descriptor whose TIMEOUT has run out completes, or its layer with every member of its group issues nothing
more, and under the kill action none of its tile-commands runs on; R302: a tile-command at twice its declared worst case is
killed with RUNAWAY. R262: a FENCE completes when its count is reached; an ENQUEUE-TARGET publishes one descriptor. -/
def Obligations.TimeoutsAndSmallDescriptors : Prop :=
  (∀ s q d t0 x, live s = true → descGet s.q q d = some x → x.phase ≠ 4 → x.timeout ≠ 0 → timeoutAt x ≤ max s.m.now t0 → x.isRun = false →
      firstOut s.m q d x = true →
    Runs (.queueTimeout q d t0) s fun t => (∃ z, descGet t.m q d = some z ∧ z.phase = 4
        ∧ z.record = some (if x.timeoutAct then stTimeoutKilled else stTimeoutDrained, 0))
      ∧ ∀ o ∈ t.m.depot.ops, ¬(o.q = q ∧ o.desc = d))
  ∧ (∀ s q d t0 x, live s = true → descGet s.q q d = some x → x.phase ≠ 4 → x.phase ≠ 0 → x.timeout ≠ 0 → timeoutAt x ≤ max s.m.now t0 →
      x.isRun = true → firstOut s.m q d x = true →
    Runs (.queueTimeout q d t0) s fun t =>
      (∀ p ∈ groupOf s.m q d, ∀ y, descGet s.q p.1 p.2 = some y → ∃ z, descGet t.m p.1 p.2 = some z ∧ z.cancelled = true ∧ z.status ≠ none)
      ∧ (x.timeoutAct = true → ∀ y ∈ t.m.cores, ∀ u, y.tc = some u → (u.q, u.desc) ∉ groupOf s.m q d))
  ∧ (∀ s k t0 x u, live s = true → (settleTime k (tickTo t0 s.q)).cores[k]? = some x → x.tc = some u →
      2 * u.wcet + u.halted ≤ max s.m.now t0 - u.issued →
    Runs (.runawayLimit k t0) s fun t => (∃ y, t.m.cores[k]? = some y ∧ y.tc = none ∧ y.regs.dirty = true ∧ y.regs.kills = (x.regs.kills + 1) % 2 ^ 64)
      ∧ ∀ z, descGet s.q u.q u.desc = some z → ∃ w, descGet t.m u.q u.desc = some w ∧ w.cancelled = true ∧ w.status ≠ none)
  ∧ (∀ s q d x, live s = true → descGet s.q q d = some x → x.type = 3 → mayBegin s.q q d x = true → leAt x.bytes 8 4 < 2 ^ 31 →
    Runs (.fenceDescriptor q d) s fun t => ∃ z, descGet t.m q d = some z ∧ z.record = some (stOk, 0))
  ∧ (∀ s q d x y, live s = true → descGet s.q q d = some x → x.type = 3 → mayBegin s.q q d x = true → 2 ^ 31 ≤ leAt x.bytes 8 4 →
      qGet s.q (leAt x.bytes 8 4 % 2 ^ 20) = some y → y.ctx.dom = qDom s.q q →
    Runs (.fenceDescriptor q d) s fun t => (leAt x.bytes 0x10 8 ≤ y.jobs → ∃ z, descGet t.m q d = some z ∧ z.record = some (stOk, 0))
      ∧ (y.jobs < leAt x.bytes 0x10 8 → t.m = s.q))
  ∧ ∀ s q d x y m0 m1, live s = true → descGet s.q q d = some x → x.type = 4 → mayBegin s.q q d x = true →
      qDom s.m (leAt x.bytes 8 4) = qDom s.m q → m0 = loadQueue s.c (leAt x.bytes 8 4) s.q →
      forwardBad y.ctx.path ((x.bytes.drop 0x80).take 128) = none → targetOk m0 (qDom s.m q) (leAt x.bytes 8 4) = true →
      qGet m0 (leAt x.bytes 8 4) = some y → 1 ≤ ringFree y →
      publishOne s.c ⟨leAt x.bytes 8 4, 0, 1, 0, 0, some ((x.bytes.drop 0x80).take 128), false⟩ m0 = (m1, .ok ()) →
    Runs (.enqueueTarget q d) s fun t => (∃ z, descGet t.m q d = some z ∧ z.record = some (stOk, 0))
      ∧ ∃ z, qGet t.m (leAt x.bytes 8 4) = some z ∧ z.ctx.tail = (y.ctx.tail + 1) % (2 * 2 ^ y.ctx.ringLog2)

/-! ### The Sorting Office, arbitration points and memory ports (R183 to R187, R211 to R219, R434 to R437) -/

/-- R217, R218: an operation whose turn it is enters with its worst case T when it would end by the issue limit, and one that no
tick can hold is refused; its end carries out its writes and completes it; R219: one still running at 2T ends with RUNAWAY.
An entry takes place when its row is sent (log 12). -/
def Obligations.SortingOfficeOperations : Prop :=
  let enters (s : State) (q d : Nat) (x : Desc) : Prop :=
    live s = true ∧ descGet s.q q d = some x ∧ wantsOffice s.q q d x = true ∧ othersFirst s.q q d x = false ∧ s.m.depot.ops.length < 16
      ∧ s.m.power.fail = 0
  (∀ s q d t0 x m0 m1 n l, enters s q d x → (if x.isRun && x.phase = 2 then layerAlloc s.c q d (tickTo t0 s.q) else some (tickTo t0 s.q)) = some m0 →
      officeBound s.c q d x m0 = (m1, .ok (.inr (n, l))) → 2000 + cdiv n 4 + l ≤ (s.m.tick.cfg.period - s.m.tick.cfg.quiet) * 1000 →
      max s.m.now t0 + (2000 + cdiv n 4 + l) ≤ s.m.tick.limit →
    Runs (.sortingOfficeEntry q d t0) s fun t => (∃ us, (x.type ≠ 5 → us = officeUses x [])
        ∧ t.m.depot.ops = s.m.depot.ops ++ [⟨q, d, max s.m.now t0, 2000 + cdiv n 4 + l, stOk, 0, us⟩])
      ∧ ∃ z, descGet t.m q d = some z ∧ z.so = true)
  ∧ (∀ s q d t0 x m1 n l, enters s q d x → x.isRun = false → officeBound s.c q d x (tickTo t0 s.q) = (m1, .ok (.inr (n, l))) →
      (s.m.tick.cfg.period - s.m.tick.cfg.quiet) * 1000 < 2000 + cdiv n 4 + l →
    Runs (.sortingOfficeEntry q d t0) s fun t => t.m.depot.ops = s.m.depot.ops
      ∧ ∃ z, descGet t.m q d = some z ∧ z.record.map (·.1) = some stAdmissionRefused)
  ∧ (∀ s q d t0 o x m1 p m2, live s = true → s.m.depot.ops.find? (fun o => o.q == q && o.desc == d) = some o → descGet s.q q d = some x →
      o.status = stOk → max s.m.now t0 < o.start + 2 * o.t → x.isRun = false → (x.type = 5 → rsScope x ≠ 1) →
      officePlan s.c q d x (tickTo t0 s.q) = (m1, .ok p) → soWrite s.c q d p.writes m1 = (m2, .ok ()) →
    Runs (.sortingOfficeEnd q d t0) s fun t => t.m.mem = (soLoose s.c q d p.loose m2).mem ∧ (∀ o ∈ t.m.depot.ops, ¬(o.q = q ∧ o.desc = d))
      ∧ ∃ z, descGet t.m q d = some z ∧ z.phase = 4 ∧ z.record = some (p.st, p.detail))
  ∧ ∀ s q d t0 o x, live s = true → s.m.depot.ops.find? (fun o => o.q == q && o.desc == d) = some o → descGet s.q q d = some x →
      o.status = stOk → o.start + 2 * o.t ≤ max s.m.now t0 → x.isRun = false →
      awaitsMember s.m q d = false →
    Runs (.sortingOfficeRunaway q d t0) s fun t => t.m.mem = s.m.mem ∧ (∀ o ∈ t.m.depot.ops, ¬(o.q = q ∧ o.desc = d))
      ∧ ∃ z, descGet t.m q d = some z ∧ z.phase = 4 ∧ z.record = some (stRunaway, 0xFF)

/-- R185, R187, R183: a point grants a request that no other grantable one comes before; at a router output or a Depot bank it goes on to
the next point of its path or is done, and its credits return; at a memory port in service each of its lines goes out under a tag; a
response frees its tag and returns one credit, or after the read of a partly written line lets the write go (R182); a read in error
kills the queue it was for (R352); a fall of mp_ready answers every tag of the port (R434). R153: a line that arrives becomes the latest used of its core's cache.
The order of use of the instruction cache is the model's choice where the spec names no policy (log 14). -/
def Obligations.GrantsAndResponses : Prop :=
  (∀ s p t0 r, live s = true → (mget s.m.arb.ptr p).getD 0 < 36 → (∀ x ∈ s.m.arb.waiting, x.who < 36) →
      pick ((mget s.m.arb.ptr p).getD 0) (s.m.arb.waiting.filter fun r => r.point == p && grantable s.c (tickTo t0 s.q) r) = some r →
    Runs (.segmentGrant p t0) s fun t => r ∈ s.m.arb.waiting ∧ r.point = p
      ∧ (∀ x ∈ s.m.arb.waiting, x.point = p → grantable s.c (tickTo t0 s.q) x = true → reqBefore ((mget s.m.arb.ptr p).getD 0) x r = false)
      ∧ (∀ x rest, atPort p = false → r.path = x :: rest → s.m.arb.later = [] → t.m.cores = s.m.cores ∧ t.m.out = []
          ∧ (x ≠ 80 ∨ r.host = none → t.m.arb.waiting = s.m.arb.waiting.erase r ++ [{ r with point := x, path := rest }])
          ∧ ∀ h, x = 80 → r.host = some h → t.m.arb.waiting = s.m.arb.waiting.erase r ∧ t.m.hp.wait = s.m.hp.wait ++ [h])
      ∧ (atPort p = false → r.path = [] → s.m.arb.later = [] → t.m.arb.waiting = s.m.arb.waiting.erase r ∧ t.m.out = []
          ∧ (32 ≤ p → t.m.cores = s.m.cores)
          ∧ (p < 32 → r.write = true → (∀ h x, r.depot = some (false, h) → mget s.m.depot.regions h = some x →
              mget t.m.depot.regions h = some { x with data := bwrite x.data r.addr r.data })
            ∧ t.m.cores = lupd s.m.cores r.who fun x => { x with credits := lupd x.credits r.unit fun v => min (v + r.cover) (creditCap r.unit) })
          ∧ (p < 32 → r.write = false → r.who < 32 → s.m.arb.back = [] → (∀ n ∈ readsOut s.m r.who r.unit, r.num ≤ n) → t.m.arb.back = []
            ∧ t.m.cores = lupd s.m.cores r.who fun x => { x with credits := lupd x.credits r.unit fun v => min (v + r.cover) (creditCap r.unit) }))
      ∧ (atPort p = true → s.m.ports.failed.contains (p - 32) = false → r.write = false ∨ inImage s.m r.addr r.n = false →
          t.m.arb.waiting = s.m.arb.waiting.erase r ∧ t.m.cores = s.m.cores ∧ (freeTags s.q (p - 32) r.lines).length = r.lines
          ∧ ∀ i g, (freeTags s.q (p - 32) r.lines)[i]? = some g → mget t.m.arb.tags (1024 * (p - 32) + g) = some (linePart r i)
            ∧ ∃ l, .portReq (p - 32) ((linePart r i).addr / 64 * 64) 1 ((linePart r i).write && !(linePart r i).rmw) l ∈ t.m.out
              ∧ ((linePart r i).write = false ∨ (linePart r i).rmw = true → l = [])))
  ∧ (∀ s p g r, live s = true → p < 16 → g < 1024 → p ∉ s.m.ports.flush → mget s.m.arb.tags (1024 * p + g) = some r → ¬(r.write = true ∧ r.rmw = true) →
      s.m.arb.later = [] →
    Runs (.memoryPortResponse p g false true) s fun t => t.m.arb.tags = mdel s.m.arb.tags (1024 * p + g)
      ∧ (r.write = true → t.m.cores = lupd s.m.cores r.who fun x => { x with credits := lupd x.credits r.unit fun v => min (v + 1) (creditCap r.unit) })
      ∧ (r.write = false → r.n ≠ 0 → r.who < 32 → s.m.arb.back = [] → (∀ n ∈ readsOut s.m r.who r.unit, r.num ≤ n) →
        t.m.cores = lupd s.m.cores r.who fun x => { x with credits := lupd x.credits r.unit fun v => min (v + 1) (creditCap r.unit) }))
  ∧ (∀ s p g r, live s = true → p < 16 → g < 1024 → p ∉ s.m.ports.flush → mget s.m.arb.tags (1024 * p + g) = some r → r.write = true → r.rmw = true →
      inImage s.m r.addr r.data.length = false → lineBusy s.q r.addr r.data.length = false →
    Runs (.memoryPortResponse p g false true) s fun t => t.m.arb.tags = mset s.m.arb.tags (1024 * p + g) { r with rmw := false }
      ∧ bread t.m.mem.cells r.addr r.data.length = r.data ∧ (∀ j, j < r.addr ∨ r.addr + r.data.length ≤ j → bget t.m.mem.cells j = bget s.m.mem.cells j)
      ∧ .portReq p (r.addr / 64 * 64) 1 true (wireLine t.m (r.addr / 64 * 64)) ∈ t.m.out ∧ t.m.cores = s.m.cores)
  ∧ (∀ s p g r e o y, live s = true → p < 16 → g < 1024 → p ∉ s.m.ports.flush → mget s.m.arb.tags (1024 * p + g) = some r → r.write = false →
      r.who ≠ 34 → e = true ∨ o = false → qGet s.q r.q = some y →
    Runs (.memoryPortResponse p g e o) s fun t => mget t.m.arb.tags (1024 * p + g) = none ∧ (qGet t.m r.q).map (·.ctx.state) = some qsKilled)
  ∧ (∀ s p, live s = true → p < 16 → s.m.boot.state ≠ bsReset →
    Runs (.mpReadyFall p) s fun t => p ∈ t.m.ports.failed ∧ ∀ x ∈ t.m.arb.tags, x.1 / 1024 ≠ p)
  ∧ ∀ s k a x u z p d, live s = true → s.m.cores[k]? = some x → x.tc = some u → descGet s.q u.q u.desc = some z → mget s.m.parcels z.parcel = some p →
      p.va ≤ a / 128 * 128 → a / 128 * 128 < p.va + p.size → x.icache.contains (a / 128 * 128, qDom s.m u.q) = false →
      translate s.c s.q (some k) (qDom s.m u.q) (a / 128 * 128) .fetch = .dev d → readChk s.m.mem (qDom s.m u.q) d 128 = .ok →
      hostHolds s.q d 128 = [] →
    Runs (.icacheFill k a) s fun t => ∃ y, t.m.cores[k]? = some y ∧ y.icache = ((a / 128 * 128, qDom s.m u.q) :: x.icache).take 2048
      ∧ y.regs.icacheMisses = (x.regs.icacheMisses + 1) % 2 ^ 64

/-! ### The machine as a whole -/

/-- The step takes the command at the front of the queue and runs it on the state with the queue's rest; on an empty queue it
idles (the model's choice, log 1). -/
def Obligations.StepRunsTheFrontCommand : Prop :=
  (∀ (c : Instr) (s : State) (r : List Instr), step { s with pending := c :: r } = exec c { s with pending := r })
  ∧ ∀ s : State, s.pending = [] → step s = .next s

/-- Every command answers a next state and leaves the queue as it was; R408: a frozen block takes no command but a reset
and a pulse on pfw_n, which it counts. -/
def Obligations.EveryCommandAnswers : Prop :=
  (∀ (i : Instr) (s : State), ∃ t, exec i s = .next t ∧ t.pending = s.pending)
  ∧ (∀ (i : Instr) (s : State), live s = false → i ≠ .coldReset → (∀ r, i ≠ .tapScan r) → (∀ n, i ≠ .pfwNLowPulse n) →
      exec i s = .next { s with dev := s.dev.quiet })
  ∧ ∀ s : State, Runs .coldReset s fun t => live t = true

/-- R474: a command that fails a check is answered with the status of the first failing check in the order of the rule, an argument
area that fails its tag before them all (the model's choice, log 27), and does nothing else; its response is one entry at the event ring's tail, with the command's tag and code (R393). REGION_ASSIGN
beyond the protected range is answered PARAM_RANGE whatever its granules are; a LEDGER_RETIRE that changes nothing is answered OK. -/
def Obligations.FirstFailingCheckIsAnswered : Prop :=
  (∀ l, (true, stIntegrity) ∈ l → cmdStatus l = stIntegrity)
  ∧ (∀ l, (true, stIntegrity) ∉ l →
    ((true, stMalformed) ∈ l → cmdStatus l = stMalformed)
    ∧ ((true, stMalformed) ∉ l → (true, stParamRange) ∈ l → cmdStatus l = stParamRange)
    ∧ ((true, stMalformed) ∉ l → (true, stParamRange) ∉ l → (true, stPermission) ∈ l → cmdStatus l = stPermission)
    ∧ ((true, stMalformed) ∉ l → (true, stParamRange) ∉ l → (true, stPermission) ∉ l → (true, stBindResources) ∈ l →
      cmdStatus l = stBindResources)
    ∧ ((true, stMalformed) ∉ l → (true, stParamRange) ∉ l → (true, stPermission) ∉ l → (true, stBindResources) ∉ l →
      (true, stAdmissionRefused) ∈ l → cmdStatus l = stAdmissionRefused))
  ∧ (∀ c m k, (true, stMalformed) ∉ baseChecks c m k 0 → (29127 < k.argN 0x1C 4 ∨ c.protG < k.argN 0x18 4 + k.argN 0x1C 4) →
      cmdStatus (baseChecks c m k 0 ++ regionAssignChecks c m k) = stParamRange)
  ∧ (∀ s id k, accepted 0x502 id (fun _ => 0) ledgerRetireChecks s k = true → roleOf s.c ≠ 1 → k.relay = none →
      lineBusy s.q (evtRing + 64 * (s.m.rings.evtTail % 4096)) 64 = false →
    Runs (.ledgerRetire id) s fun t => Answered id s t
      ∧ bread t.m.mem.cells (evtRing + 64 * (s.m.rings.evtTail % 4096)) 64 = evtEntry s.m 1 0 1 k.tag stOk 0x502 [])
  ∧ ∀ (i : Instr) (op id : Nat) (area : Cmd → Nat) (chk : Cfg → Mach → Cmd → List (Bool × Nat)) (s : State) (k : Cmd) (st : Nat),
      rowChecks i = some (op, id, area, chk) → live s = true → mget s.m.rings.cmds id = some k → k.opcode = op → k.phase = 0 →
      cmdReady s.q k = true → cmdStatus (baseChecks s.c s.q k (area k) ++ chk s.c s.q k) = st → st ≠ stOk →
      (0x401 ≤ op ∧ op ≤ 0x408 → qDom s.m (k.argN 0x18 4) = k.dom → ctxReady s (k.argN 0x18 4) k.dom) →
    Runs i s fun t => Answered id s t ∧ t.c = s.c ∧ t.pending = s.pending ∧ t.m.doms = s.m.doms ∧ t.m.queues = s.m.queues
      ∧ t.m.ledger = s.m.ledger ∧ t.m.parcels = s.m.parcels ∧ t.m.depot = s.m.depot ∧ t.m.tick = s.m.tick ∧ t.m.store = s.m.store
      ∧ t.m.mem.granules = s.m.mem.granules ∧ t.m.keys = s.m.keys ∧ t.m.casc = s.m.casc
      ∧ (op < 0x401 ∨ 0x408 < op ∨ (k.argN 0x18 4 ∈ s.m.ctxCache ∧ k.dom ∈ s.m.domCache) → t.m.cores = s.m.cores
        ∧ (st ≠ stIntegrity → lineBusy s.q (evtRing + 64 * (s.m.rings.evtTail % 4096)) 64 = false → t.m.hp = s.m.hp))
      ∧ (k.relay = none → st ≠ stIntegrity → t.m.rings.evtTail = (s.m.rings.evtTail + 1) % 8192
        ∧ (lineBusy s.q (evtRing + 64 * (s.m.rings.evtTail % 4096)) 64 = false →
          bread t.m.mem.cells (evtRing + 64 * (s.m.rings.evtTail % 4096)) 64 = evtEntry s.m 1 0 (clerkOf op) k.tag st op []))

/-- After reset: the block waits in RESET, every domain FREE, no granule assigned, no queue, no parcel, every core clear, the
settings at the values of the register tables, in a partial tick with count 0, and no command waiting (R284, R344, R347, R360,
R369, R437, R451 to R462).
The straps and pins of the modelled instance are the model's choice (log 3), as is 0 where no reset value is stated (log 4). -/
def Obligations.ResetValues : Prop :=
  let s := State.reset
  s.pending = [] ∧ live s = true ∧ s.m.out = [] ∧ s.m.boot.state = bsReset ∧ (∀ d, (domE s.m d).state = 0) ∧ s.m.mem.granules = []
    ∧ s.m.queues = [] ∧ s.m.parcels = [] ∧ s.m.ledger = [] ∧ s.m.rings.cmdTail = 0 ∧ s.m.rings.cmdHead = 0 ∧ s.m.rings.evtTail = 0
    ∧ s.m.rings.evtHead = 0 ∧ s.m.keys.slots = [] ∧ s.m.arb.ptr = [] ∧ (∀ x ∈ s.m.cores, x = coreClear coreRegs0)
    ∧ s.m.tick.count = 0 ∧ s.m.tick.partialTick = true ∧ s.c.tick = ⟨1000, 20, 0, 0⟩ ∧ s.c.cap = 95
    ∧ s.c.lockTables = false ∧ s.c.lockProt = false ∧ s.c.lockRole = false ∧ s.c.mpShare = List.replicate 16 16
    ∧ s.c.hp = ⟨128, 16, 128, 16, 100, 0⟩ ∧ s.c.tb.partT = 32 ∧ s.c.tb.partH = 16
    ∧ (∀ l ∈ s.c.links, l.enable = false ∧ l.etype = 0x88B5 ∧ l.timeout = 1000 ∧ l.rtShare = 32 ∧ l.mac = 0)
    ∧ cfgOk s.c = true ∧ ∀ t, cfgOk (cfg0 t) = true

/-- R449, R458 to R462: from every state whose settings are in range, every step leaves them in range, whatever a command
writes and wherever it comes from. -/
def Obligations.SettingsStayInRange : Prop :=
  ∀ s t : State, cfgOk s.c = true → step s = .next t → cfgOk t.c = true

/-- R450, R454, R6: a locked setting keeps its value until a reset: no step but one that resets every setting clears a lock,
changes a table base behind TABLES, or the role behind ROLE; PROT_G behind PROTECTION changes only as the boot ROM sets it. -/
def Obligations.LockedSettingsStay : Prop :=
  ∀ (i : Instr) (s t : State), exec i s = .next t → t.c = cfg0 s.c.strap ∨
    ((s.c.lockTables = true → t.c.lockTables = true ∧ t.c.tb = s.c.tb)
      ∧ (s.c.lockRole = true → t.c.lockRole = true ∧ t.c.links.map (·.role) = s.c.links.map (·.role))
      ∧ (s.c.lockProt = true → t.c.lockProt = true ∧ (t.c.protG = s.c.protG ∨ ∃ n, i = .bootWaitLoadEntry n))
      ∧ t.c.strap = s.c.strap)
end

