-- ==== Sys2Proof/Laws/Map.lean ====
section
/-! SUPPORT. Laws of the sparse maps and byte buffers: a read after a write, every other key as before, and the
canonical form kept. -/

namespace Sys2Proof.Machine
open Sys2Proof

variable {α : Type}

@[simp] theorem mget_nil (k : Nat) : mget ([] : Map α) k = none := rfl

@[simp] theorem mget_mset (m : Map α) (k : Nat) (v : α) : mget (mset m k v) k = some v := by
  induction m with
  | nil => simp [mset, mget]
  | cons p r ih =>
    obtain ⟨a, w⟩ := p
    simp only [mset]
    split
    · simp [mget]
    · split
      · simp [mget]
      · rename_i h; simp [mget, h, ih]

theorem mget_mset_ne (m : Map α) {k j : Nat} (v : α) (h : j ≠ k) : mget (mset m k v) j = mget m j := by
  induction m with
  | nil => simp [mset, mget, Ne.symm h]
  | cons p r ih =>
    obtain ⟨a, w⟩ := p
    simp only [mset]
    split
    · simp [mget, Ne.symm h]
    · split
      · rename_i h1; subst h1; simp [mget, Ne.symm h]
      · simp [mget, ih]

@[simp] theorem mget_mdel (m : Map α) (k : Nat) : mget (mdel m k) k = none := by
  induction m with
  | nil => rfl
  | cons p r ih =>
    obtain ⟨a, w⟩ := p
    by_cases h : a = k <;> simp_all [mdel, mget]

theorem mget_mdel_ne (m : Map α) {k j : Nat} (h : j ≠ k) : mget (mdel m k) j = mget m j := by
  induction m with
  | nil => rfl
  | cons p r ih =>
    obtain ⟨a, w⟩ := p
    by_cases h1 : a = k
    · subst h1; simp_all [mdel, mget, Ne.symm h]
    · simp_all [mdel, mget]

theorem mget_mupd (m : Map α) (k : Nat) (f : α → α) : mget (mupd m k f) k = (mget m k).map f := by
  unfold mupd
  cases h : mget m k with
  | none => simp [h]
  | some v => simp

theorem mget_mupd_ne (m : Map α) {k j : Nat} (f : α → α) (h : j ≠ k) : mget (mupd m k f) j = mget m j := by
  unfold mupd
  split
  · exact mget_mset_ne m _ h
  · rfl

theorem mget_mmap (f : Nat → α → α) (m : Map α) (k : Nat) : mget (mmap f m) k = (mget m k).map (f k) := by
  induction m with
  | nil => rfl
  | cons p r ih =>
    obtain ⟨a, w⟩ := p
    by_cases h : a = k
    · subst h; simp [mmap, mget]
    · simpa [mmap, mget, h] using ih

/-- One value set at every key of a list. -/
theorem mget_foldl_mset (v : α) (l : List Nat) : ∀ (m : Map α) (g : Nat),
    mget (l.foldl (fun m g => mset m g v) m) g = if g ∈ l then some v else mget m g := by
  induction l with
  | nil => intro m g; simp
  | cons x r ih =>
    intro m g
    rw [List.foldl_cons, ih]
    by_cases h : g ∈ r
    · simp [h]
    · by_cases hx : g = x
      · subst hx; simp [h]
      · simp [h, hx, mget_mset_ne _ _ hx]

/-- Every key of a list removed. -/
theorem mget_foldl_mdel (l : List Nat) : ∀ (m : Map α) (g : Nat),
    mget (l.foldl (fun m g => mdel m g) m) g = if g ∈ l then none else mget m g := by
  induction l with
  | nil => intro m g; simp
  | cons x r ih =>
    intro m g
    rw [List.foldl_cons, ih]
    by_cases h : g ∈ r
    · simp [h]
    · by_cases hx : g = x
      · subst hx; simp [h]
      · simp [h, hx, mget_mdel_ne _ hx]

theorem mget_mfilter_none (f : Nat → α → Bool) (m : Map α) (k : Nat) (h : ∀ v, f k v = false) :
    mget (mfilter f m) k = none := by
  induction m with
  | nil => rfl
  | cons p r ih =>
    obtain ⟨a, w⟩ := p
    simp only [mfilter, List.filter_cons] at ih ⊢
    split
    · rename_i hf
      by_cases ha : a = k
      · subst ha; simp [h] at hf
      · simpa [mget, ha] using ih
    · exact ih

/-- What a filter keeps satisfies its test. -/
theorem mem_mfilter {f : Nat → α → Bool} {m : Map α} {p : Nat × α} (h : p ∈ mfilter f m) : p ∈ m ∧ f p.1 p.2 = true :=
  List.mem_filter.1 h

/-! ### Byte buffers -/

@[simp] theorem bget_bset (m : Map Byte) (a : Nat) (v : Byte) : bget (bset m a v) a = v := by
  unfold bset bget
  split
  · simp_all
  · simp

theorem bget_bset_ne (m : Map Byte) {a b : Nat} (v : Byte) (h : b ≠ a) : bget (bset m a v) b = bget m b := by
  unfold bset bget
  split
  · rw [mget_mdel_ne m h]
  · rw [mget_mset_ne m v h]

/-- A byte outside the written range reads as before. -/
theorem bget_bwrite_out (l : List Byte) : ∀ (m : Map Byte) (a b : Nat), b < a ∨ a + l.length ≤ b →
    bget (bwrite m a l) b = bget m b := by
  induction l with
  | nil => intro m a b _; rfl
  | cons x r ih =>
    intro m a b h
    simp only [List.length_cons] at h
    rw [bwrite, ih _ _ _ (by omega), bget_bset_ne m x (by omega)]

/-- A byte inside the written range reads as written. -/
theorem bget_bwrite_in (l : List Byte) : ∀ (m : Map Byte) (a i : Nat), i < l.length →
    bget (bwrite m a l) (a + i) = l.getD i 0 := by
  induction l with
  | nil => intro m a i h; simp at h
  | cons x r ih =>
    intro m a i h
    simp only [List.length_cons] at h
    rw [bwrite]
    cases i with
    | zero => rw [Nat.add_zero, bget_bwrite_out r _ _ _ (by omega)]; simp
    | succ j =>
      have := ih (bset m a x) (a + 1) j (by omega)
      rw [show a + (j + 1) = a + 1 + j by omega, this]; simp

theorem bread_length (n : Nat) : ∀ (m : Map Byte) (a : Nat), (bread m a n).length = n := by
  induction n with
  | zero => intros; rfl
  | succ n ih => intro m a; simp [bread, ih]

/-- Reading back what was written. -/
theorem bread_bwrite (l : List Byte) : ∀ (m : Map Byte) (a : Nat), bread (bwrite m a l) a l.length = l := by
  induction l with
  | nil => intros; rfl
  | cons x r ih =>
    intro m a
    rw [List.length_cons, bread, bwrite, ih, bget_bwrite_out r _ _ _ (by omega)]; simp

/-- A read of bytes a write leaves alone. -/
theorem bread_bwrite_out (l : List Byte) (m : Map Byte) (a : Nat) :
    ∀ (n b : Nat), b + n ≤ a ∨ a + l.length ≤ b → bread (bwrite m a l) b n = bread m b n := by
  intro n
  induction n with
  | zero => intros; rfl
  | succ n ih =>
    intro b h
    rw [bread, bread, ih (b + 1) (by omega), bget_bwrite_out l m a b (by omega)]

/-! ### The canonical form -/

theorem mwf_cons (a : Nat) (w : α) (m : Map α) :
    mwf ((a, w) :: m) = true ↔ (∀ p ∈ m, a < p.1) ∧ mwf m = true := by
  induction m generalizing a w with
  | nil => simp [mwf]
  | cons p r ih =>
    obtain ⟨b, v⟩ := p
    simp only [mwf, Bool.and_eq_true, decide_eq_true_eq, List.mem_cons, forall_eq_or_imp]
    constructor
    · rintro ⟨h, hr⟩
      exact ⟨⟨h, fun p hp => Nat.lt_trans h (((ih b v).1 hr).1 p hp)⟩, hr⟩
    · rintro ⟨⟨h, _⟩, hr⟩; exact ⟨h, hr⟩

theorem mem_mset {m : Map α} {k : Nat} {v : α} {p : Nat × α} (h : p ∈ mset m k v) : p = (k, v) ∨ p ∈ m := by
  induction m with
  | nil => simpa [mset] using h
  | cons q r ih =>
    obtain ⟨a, w⟩ := q
    simp only [mset] at h
    split at h
    · simpa using h
    · split at h
      · rcases List.mem_cons.1 h with h | h
        · exact .inl h
        · exact .inr (List.mem_cons_of_mem _ h)
      · rcases List.mem_cons.1 h with h | h
        · exact .inr (by simp [h])
        · rcases ih h with h | h
          · exact .inl h
          · exact .inr (List.mem_cons_of_mem _ h)

theorem mwf_mset (m : Map α) (k : Nat) (v : α) (h : mwf m = true) : mwf (mset m k v) = true := by
  induction m with
  | nil => rfl
  | cons q r ih =>
    obtain ⟨a, w⟩ := q
    obtain ⟨ha, hr⟩ := (mwf_cons a w r).1 h
    simp only [mset]
    split
    · rename_i hk
      refine (mwf_cons _ _ _).2 ⟨?_, h⟩
      intro p hp
      rcases List.mem_cons.1 hp with rfl | hp
      · exact hk
      · exact Nat.lt_trans hk (ha p hp)
    · split
      · rename_i hk; subst hk; exact (mwf_cons _ _ _).2 ⟨ha, hr⟩
      · refine (mwf_cons _ _ _).2 ⟨?_, ih hr⟩
        intro p hp
        rcases mem_mset hp with rfl | hp
        · show a < k; omega
        · exact ha p hp

theorem mwf_filter (m : Map α) (f : Nat × α → Bool) (h : mwf m = true) : mwf (m.filter f) = true := by
  induction m with
  | nil => rfl
  | cons q r ih =>
    obtain ⟨a, w⟩ := q
    obtain ⟨ha, hr⟩ := (mwf_cons a w r).1 h
    rw [List.filter_cons]
    split
    · exact (mwf_cons _ _ _).2 ⟨fun p hp => ha p (List.mem_filter.1 hp).1, ih hr⟩
    · exact ih hr

theorem mwf_mdel (m : Map α) (k : Nat) (h : mwf m = true) : mwf (mdel m k) = true := mwf_filter m _ h

/-- Every write of one byte keeps the canonical form of a buffer. -/
theorem bwf_bset (m : Map Byte) (a : Nat) (v : Byte) (h : bwf m = true) : bwf (bset m a v) = true := by
  simp only [bwf, Bool.and_eq_true, List.all_eq_true] at h ⊢
  unfold bset
  split
  · exact ⟨mwf_mdel m a h.1, fun p hp => h.2 p (List.mem_filter.1 hp).1⟩
  · refine ⟨mwf_mset m a v h.1, fun p hp => ?_⟩
    rcases mem_mset hp with rfl | hp
    · simpa using ‹_›
    · exact h.2 p hp

/-- Every write of bytes keeps the canonical form of a buffer. -/
theorem bwf_bwrite (l : List Byte) : ∀ (m : Map Byte) (a : Nat), bwf m = true → bwf (bwrite m a l) = true := by
  induction l with
  | nil => intro m a h; exact h
  | cons x r ih => intro m a h; exact ih _ _ (bwf_bset m a x h)

/-- Clearing a range keeps the canonical form of a buffer. -/
theorem bwf_bzero (m : Map Byte) (a n : Nat) (h : bwf m = true) : bwf (bzero m a n) = true := by
  simp only [bwf, Bool.and_eq_true, List.all_eq_true] at h ⊢
  exact ⟨mwf_filter m _ h.1, fun p hp => h.2 p (List.mem_filter.1 hp).1⟩

/-! ### Numbers -/

theorem toLe_length (w : Nat) : ∀ v, (toLe w v).length = w := by
  induction w with
  | zero => intro v; rfl
  | succ w ih => intro v; simp [toLe, ih]

/-- A number written and read back in `w` bytes is the number modulo 256^w. -/
theorem leNat_toLe (w : Nat) : ∀ v, leNat (toLe w v) = v % 256 ^ w := by
  induction w with
  | zero => intro v; simp [toLe, leNat, Nat.mod_one]
  | succ w ih =>
    intro v
    have h : (BitVec.ofNat 8 v).toNat = v % 256 := by simp
    rw [toLe, leNat, ih, h, Nat.pow_succ, Nat.mul_comm (256 ^ w) 256, Nat.mod_mul]

end Sys2Proof.Machine
end

