-- ==== Sys2Proof/Laws/State.lean ====
section
/-! SUPPORT. Field laws of the named updates of the state, and what every meaning's wrapper does. -/

namespace Sys2Proof.Machine
open Sys2Proof

@[simp] theorem quiet_cfg (d : Dev) : d.quiet.cfg = d.cfg := rfl
@[simp] theorem quiet_out (d : Dev) : d.quiet.m.out = [] := rfl
@[simp] theorem quiet_frozen (d : Dev) : d.quiet.frozen = d.frozen := rfl
@[simp] theorem onM_cfg (d : Dev) (f : Cfg → Mach → Mach) : (d.onM f).cfg = d.cfg := rfl
@[simp] theorem onM_m (d : Dev) (f : Cfg → Mach → Mach) : (d.onM f).m = f d.cfg d.m := rfl

@[simp] theorem tickTo_now (t : Nat) (m : Mach) : (tickTo t m).now = max m.now t := rfl
theorem tickTo_eq (t : Nat) (m : Mach) : tickTo t m = { m with now := max m.now t } := rfl
@[simp] theorem send_out (o : Out) (m : Mach) : (send o m).out = m.out ++ [o] := rfl
theorem send_eq (o : Out) (m : Mach) : send o m = { m with out := m.out ++ [o] } := rfl
@[simp] theorem drawn_draws (m : Mach) : (drawn m).draws = m.draws + 1 := rfl
theorem drawn_eq (m : Mach) : drawn m = { m with draws := m.draws + 1 } := rfl
theorem badWrite_eq (off : Nat) (m : Mach) : badWrite off m = { m with bad := true, badOff := off } := rfl

/-- A meaning of a block that is not frozen. -/
theorem run_live (s : State) (f : Dev → Dev) (h : live s = true) : s.run f = .next { s with dev := f s.dev.quiet } := by
  have h : s.dev.frozen = false := by simpa [live] using h
  simp [State.run, State.runAlways, h]

/-- A meaning that changes no setting, of a block that is not frozen. -/
theorem runM_live (s : State) (f : Cfg → Mach → Mach) (h : live s = true) :
    s.runM f = .next { s with dev := { cfg := s.c, m := f s.c s.q } } := by
  rw [State.runM, run_live s _ h]; rfl

/-- A frozen block keeps everything but what it drove in the step before (R408). -/
theorem run_frozen (s : State) (f : Dev → Dev) (h : live s = false) : s.run f = .next { s with dev := s.dev.quiet } := by
  have h : s.dev.frozen = true := by simpa [live] using h
  simp [State.run, State.runAlways, h]

/-- Every meaning that changes no setting keeps settings and waiting commands. -/
theorem runM_kept (s t : State) (f : Cfg → Mach → Mach) (h : s.runM f = .next t) :
    t.dev.cfg = s.dev.cfg ∧ t.pending = s.pending := by
  cases hl : live s with
  | true => rw [runM_live s f hl] at h; cases h; exact ⟨rfl, rfl⟩
  | false => rw [State.runM, run_frozen s _ hl] at h; cases h; exact ⟨rfl, rfl⟩

/-- How a command's effect is stated: a meaning of a live block has every property of the block it makes. -/
theorem Runs.ofM {i : Instr} {s : State} {f : Cfg → Mach → Mach} {P : State → Prop} (hi : exec i s = s.runM f)
    (hl : live s = true) (hp : P { s with dev := { cfg := s.c, m := f s.c s.q } }) : Runs i s P :=
  ⟨_, by rw [hi, runM_live s f hl], hp⟩

theorem Runs.ofRun {i : Instr} {s : State} {f : Dev → Dev} {P : State → Prop} (hi : exec i s = s.run f)
    (hl : live s = true) (hp : P { s with dev := f s.dev.quiet }) : Runs i s P :=
  ⟨_, by rw [hi, run_live s f hl], hp⟩

end Sys2Proof.Machine
end

