-- ==== Sys2Proof/Laws/Cores.lean ====
section
/-! SUPPORT. What an operation that acts on one core can do. -/

namespace Sys2Proof.Machine
open Sys2Proof

@[simp] theorem lupd_get {α : Type} (l : List α) (i : Nat) (f : α → α) : (lupd l i f)[i]? = l[i]?.map f := by
  unfold lupd
  split
  · rename_i v h
    obtain ⟨hi, rfl⟩ := List.getElem?_eq_some_iff.1 h
    simp [hi]
  · rename_i h; simp [h]
theorem lupd_get_ne {α : Type} (l : List α) {i j : Nat} (f : α → α) (h : j ≠ i) : (lupd l i f)[j]? = l[j]? := by
  unfold lupd
  split
  · simp [h.symm]
  · rfl
theorem lupd_length {α : Type} (l : List α) (i : Nat) (f : α → α) : (lupd l i f).length = l.length := by
  unfold lupd; split <;> simp

/-- A core whose words issue has its tile-command. -/
theorem issuing_some {m : Mach} {k : Nat} {x : Core} {u : TileCmd} (h : issuing m k = some (x, u)) :
    m.cores[k]? = some x ∧ x.tc = some u ∧ u.ended = false ∧ m.power.fail = 0 := by
  unfold issuing at h
  split at h
  · simp at h
  · rename_i y hy
    simp only [Option.bind_eq_some_iff] at h
    obtain ⟨v, hv, h⟩ := h
    split at h
    · simp at h
    · rename_i hc
      simp only [Option.some.injEq, Prod.mk.injEq] at h
      obtain ⟨rfl, rfl⟩ := h
      simp only [Bool.or_eq_true, decide_eq_true_eq, not_or, Bool.not_eq_true, ne_eq, Decidable.not_not] at hc
      exact ⟨hy, hv, hc.1, hc.2⟩

/-- An operation that may issue has its core, its tile-command and a free entry of its slot, and no word waits. -/
theorem canIssue_some {m : Mach} {k slot : Nat} {x : Core} {u : TileCmd} (h : canIssue m k slot = some (x, u)) :
    m.cores[k]? = some x ∧ x.tc = some u ∧ u.ended = false ∧ x.waiting = none ∧ m.power.fail = 0
      ∧ (x.slots.getD slot []).length < slotDepth slot := by
  unfold canIssue at h
  simp only [Option.bind_eq_some_iff] at h
  obtain ⟨p, hp, h⟩ := h
  split at h
  · simp at h
  · rename_i hc
    obtain rfl := Option.some.inj h
    obtain ⟨h1, h2, h3, h4⟩ := issuing_some hp
    simp only [slotFull, Bool.or_eq_true, decide_eq_true_eq, not_or, Nat.not_le, Bool.not_eq_true] at hc
    exact ⟨h1, h2, h3, by simpa using hc.1, h4, hc.2⟩

/-- Where the operation may issue, no mark of a full queue changes. -/
theorem unhold_free {m : Mach} {k slot : Nat} {x : Core} {u : TileCmd} (h : canIssue m k slot = some (x, u)) : unhold k slot m = m := by
  have hi : issuing m k = some (x, u) := by
    unfold canIssue at h
    simp only [Option.bind_eq_some_iff] at h
    obtain ⟨p, hp, h⟩ := h
    split at h
    · simp at h
    · rw [hp]; exact h
  obtain ⟨-, -, -, hw, -, hl⟩ := canIssue_some h
  unfold unhold
  rw [hi]
  have : slotFull x slot = false := by simpa [slotFull] using hl
  simp [hw, this]

theorem withOp_issues {k slot : Nat} {m : Mach} {x : Core} {u : TileCmd} (f : Core → TileCmd → Mach → Mach)
    (h : canIssue m k slot = some (x, u)) : withOp k slot f m = f x u m := by
  unfold withOp; rw [unhold_free h, h]

/-- A change of one core, as a run of its row. -/
theorem Runs.core {i : Instr} {s : State} {k : Nat} {x : Core} {g : Cfg → Mach → Mach} {f : Core → Core} {P : State → Prop}
    (hi : exec i s = s.runM g) (hl : live s = true) (hx : s.m.cores[k]? = some x) (hg : g s.c s.q = coreUpd k f s.q)
    (hp : ∀ t, onlyCore k s t → t.m.cores[k]? = some (f x) → P t) : Runs i s P := by
  refine Runs.ofM hi hl (hp _ ⟨?_, ?_, rfl, rfl⟩ ?_) <;> dsimp only [State.m, State.c] <;> rw [hg]
  · rfl
  · intro j hj; exact lupd_get_ne _ _ hj
  · have : (coreUpd k f s.q).cores[k]? = s.m.cores[k]?.map f := lupd_get _ _ _
    rw [this, hx]; rfl

end Sys2Proof.Machine
end

