-- ==== Sys2Proof/Laws/Ops.lean ====
section
/-! SUPPORT. What the shared operations can do: events and responses, command rows, device memory. -/

namespace Sys2Proof.Machine
open Sys2Proof

/-- The block without what events and responses touch: the rings, interrupts, frames to peers, bytes and tags of memory, what waits for the
host or stands in a memory port, outputs. -/
def Mach.still (m : Mach) : Mach :=
  { m with out := [], rings := (mach0 strap0 store0 0 true true).rings, irq := (mach0 strap0 store0 0 true true).irq
           links := [], mem := { m.mem with cells := [], bad := [] }, hp := { m.hp with bisnp := [], late := [] }
           arb := { m.arb with tags := [] } }

@[simp] theorem still_send (o : Out) (m : Mach) : (send o m).still = m.still := rfl

@[simp] theorem still_msix (v : Nat) (m : Mach) : (msix v m).still = m.still := by
  unfold msix; split <;> rfl

@[simp] theorem still_irqEvt (c : Cfg) (m : Mach) : (irqEvt c m).still = m.still := by
  unfold irqEvt
  split
  · rfl
  · split
    · rfl
    · exact still_msix _ _

@[simp] theorem still_framePut (port i : Nat) (f : Frame) (m : Mach) : (framePut port i f m).still = m.still := rfl
@[simp] theorem still_framePeer (port i ty : Nat) (l : List Byte) (m : Mach) : (framePeer port i ty l m).still = m.still := rfl

@[simp] theorem still_frameTo (e ty : Nat) (l : List Byte) (m : Mach) : (frameTo e ty l m).still = m.still := by
  unfold frameTo; split <;> rfl

/-- A fold of operations that keep a view keeps it. -/
theorem foldl_keeps {α β γ : Type} (g : α → γ) (f : α → β → α) (h : ∀ a b, g (f a b) = g a) (l : List β) :
    ∀ a, g (l.foldl f a) = g a := by
  induction l with
  | nil => intro a; rfl
  | cons x r ih => intro a; rw [List.foldl_cons, ih, h]

@[simp] theorem still_manageTo (e kind req : Nat) (l : List Byte) (m : Mach) : (manageTo e kind req l m).still = m.still :=
  foldl_keeps Mach.still _ (fun _ _ => still_frameTo _ _ _ _) _ _

@[simp] theorem still_backInval (a n : Nat) (d : Bool) (m : Mach) : (backInval a n d m).still = m.still :=
  foldl_keeps Mach.still _ (fun _ _ => by dsimp only; split <;> rfl) _ _

/-- An engine's write touches bytes, tags, what waits for the host and what stands in a memory port. -/
@[simp] theorem still_engPut (a : Nat) (l : List Byte) (m : Mach) : (engPut a l m).still = m.still := by
  unfold engPut
  dsimp only
  split
  · exact still_backInval a l.length false m
  · exact still_backInval a l.length false m

@[simp] theorem still_putEvent (c : Cfg) (e : List Byte) (m : Mach) : (putEvent c e m).still = m.still := by
  unfold putEvent; rw [still_irqEvt]; exact still_engPut _ _ _

@[simp] theorem still_post (c : Cfg) (code : Nat) (ws : List Nat) (m : Mach) : (post c code ws m).still = m.still := by
  unfold post
  split
  · rfl
  · dsimp only
    generalize hx : (if roleOf c = 1 then manageTo 0 2 0 (evtEntry m code 0 4 0 0 0 (words ws)) m else m) = x
    have hs : x.still = m.still := by rw [← hx]; split <;> simp
    split
    · rw [still_putEvent, hs]
    · exact hs

/-- Answering a command touches the rings, interrupts, frames, bytes of memory and outputs, nothing else. -/
@[simp] theorem still_respond (c : Cfg) (id st : Nat) (l : List Byte) (m : Mach) : (respond c id st l m).still = m.still := by
  unfold respond
  split
  · rfl
  · rename_i k _
    show (match k.relay with
      | some req => manageTo 0 1 req (evtEntry m 1 0 (clerkOf k.opcode) k.tag st k.opcode l ++ k.result) m
      | none => putEvent c (evtEntry m 1 0 (clerkOf k.opcode) k.tag st k.opcode l) m).still = m.still
    split <;> simp

theorem rings_framePut (port i : Nat) (f : Frame) (m : Mach) : (framePut port i f m).rings = m.rings := rfl
theorem rings_frameTo (e ty : Nat) (l : List Byte) (m : Mach) : (frameTo e ty l m).rings = m.rings := by
  unfold frameTo; split <;> rfl
theorem rings_manageTo (e kind req : Nat) (l : List Byte) (m : Mach) : (manageTo e kind req l m).rings = m.rings :=
  foldl_keeps Mach.rings _ (fun _ _ => rings_frameTo _ _ _ _) _ _
theorem rings_msix (v : Nat) (m : Mach) : (msix v m).rings = m.rings := by unfold msix; split <;> rfl
theorem rings_irqEvt (c : Cfg) (m : Mach) : (irqEvt c m).rings = m.rings := by
  unfold irqEvt; split
  · rfl
  · split
    · rfl
    · exact rings_msix _ _
theorem mem_backInval (a n : Nat) (d : Bool) (m : Mach) : (backInval a n d m).mem = m.mem :=
  foldl_keeps Mach.mem _ (by intro a b; dsimp only; split <;> rfl) _ _
theorem rings_backInval (a n : Nat) (d : Bool) (m : Mach) : (backInval a n d m).rings = m.rings :=
  foldl_keeps Mach.rings _ (by intro a b; dsimp only; split <;> rfl) _ _

/-- An access whose lines the host does not hold asks nothing of the host. -/
theorem backInval_free {a n : Nat} {m : Mach} (d : Bool) (h : hostHolds m a n = []) : backInval a n d m = m := by
  unfold backInval; rw [h]; rfl

/-- An engine's write of lines the host has no part in is stored at once. -/
theorem engPut_free {a : Nat} {l : List Byte} {m : Mach} (h : lineBusy m a l.length = false) : engPut a l m = memStore a l m := by
  have hh : hostHolds m a l.length = [] := by
    simp only [lineBusy, Bool.or_eq_false_iff, decide_eq_false_iff_not, Decidable.not_not] at h; exact h.1
  unfold engPut
  rw [backInval_free false hh]
  dsimp only
  rw [h]; simp

/-- An engine's write changes no byte but its own, now or when it is stored later. -/
theorem engPut_out (a : Nat) (l : List Byte) (m : Mach) (b : Nat) (h : b < a ∨ a + l.length ≤ b) :
    bget (engPut a l m).mem.cells b = bget m.mem.cells b := by
  unfold engPut
  dsimp only
  split
  · rw [mem_backInval]
  · show bget (memPut (backInval a l.length false m).mem a l).cells b = _
    rw [mem_backInval]; exact bget_bwrite_out _ _ _ _ h

theorem rings_engPut (a : Nat) (l : List Byte) (m : Mach) : (engPut a l m).rings = m.rings := by
  unfold engPut
  dsimp only
  split <;> exact rings_backInval a l.length false m

theorem rings_putEvent (c : Cfg) (e : List Byte) (m : Mach) : (putEvent c e m).rings =
    { m.rings with evtTail := (m.rings.evtTail + 1) % 8192, seq := m.rings.seq + 1 } := by
  unfold putEvent; rw [rings_irqEvt]; dsimp only; rw [rings_engPut]

theorem mem_manageTo (e kind req : Nat) (l : List Byte) (m : Mach) : (manageTo e kind req l m).mem = m.mem :=
  foldl_keeps Mach.mem _ (fun m i => by unfold frameTo; split <;> rfl) _ _
theorem mem_irqEvt (c : Cfg) (m : Mach) : (irqEvt c m).mem = m.mem := by
  unfold irqEvt; split
  · rfl
  · split
    · rfl
    · show (msix _ m).mem = m.mem; unfold msix; split <;> rfl
theorem mem_putEvent (c : Cfg) (e : List Byte) (m : Mach) : (putEvent c e m).mem =
    (engPut (evtRing + 64 * (m.rings.evtTail % 4096)) e m).mem := by
  unfold putEvent; rw [mem_irqEvt]

theorem cmds_post (c : Cfg) (code : Nat) (ws : List Nat) (m : Mach) : (post c code ws m).rings.cmds = m.rings.cmds := by
  unfold post
  split
  · rfl
  · dsimp only
    generalize hx : (if roleOf c = 1 then manageTo 0 2 0 (evtEntry m code 0 4 0 0 0 (words ws)) m else m) = x
    have hs : x.rings.cmds = m.rings.cmds := by rw [← hx]; split <;> simp [rings_manageTo]
    split
    · rw [rings_putEvent, hs]
    · exact hs

/-- An answered command no longer waits, and every other one waits as before. -/
theorem cmds_respond (c : Cfg) (id st : Nat) (l : List Byte) (m : Mach) (k : Cmd) (h : mget m.rings.cmds id = some k) :
    (respond c id st l m).rings.cmds = mdel m.rings.cmds id := by
  unfold respond
  rw [h]
  dsimp only
  split <;> simp [rings_manageTo, rings_putEvent]

theorem evtEntry_length (m : Mach) (a b d e f g : Nat) (l : List Byte) : (evtEntry m a b d e f g l).length = 64 := by
  simp [evtEntry, toLe_length]

/-- An answer changes no byte of memory outside the event entry at the tail. -/
theorem respond_out (c : Cfg) (id st : Nat) (l : List Byte) (m : Mach) (b : Nat)
    (hb : b < evtRing + 64 * (m.rings.evtTail % 4096) ∨ evtRing + 64 * (m.rings.evtTail % 4096) + 64 ≤ b) :
    bget (respond c id st l m).mem.cells b = bget m.mem.cells b := by
  unfold respond
  split
  · rfl
  · rename_i k _
    show bget (match k.relay with
      | some req => manageTo 0 1 req (evtEntry m 1 0 (clerkOf k.opcode) k.tag st k.opcode l ++ k.result) m
      | none => putEvent c (evtEntry m 1 0 (clerkOf k.opcode) k.tag st k.opcode l) m).mem.cells b = _
    split
    · rw [mem_manageTo]
    · rw [mem_putEvent, engPut_out _ _ _ _ (by rw [evtEntry_length]; exact hb)]

/-- The response of a command of this engine stands at the event tail, byte for byte, where the host has no part in that line, and the tail
has moved on (R393). -/
theorem respond_entry (c : Cfg) (id st : Nat) (l : List Byte) (m : Mach) (k : Cmd) (h : mget m.rings.cmds id = some k)
    (hr : k.relay = none) (hf : lineBusy m (evtRing + 64 * (m.rings.evtTail % 4096)) 64 = false) :
    (respond c id st l m).mem.cells = bwrite m.mem.cells (evtRing + 64 * (m.rings.evtTail % 4096))
        (evtEntry m 1 0 (clerkOf k.opcode) k.tag st k.opcode l)
      ∧ (respond c id st l m).rings.evtTail = (m.rings.evtTail + 1) % 8192 := by
  unfold respond
  rw [h]
  dsimp only
  rw [hr]
  exact ⟨by rw [mem_putEvent, engPut_free (by rw [evtEntry_length]; exact hf)]; rfl, by rw [rings_putEvent]⟩

/-! ### Command rows -/

/-- A row whose command is accepted has its own effect. -/
theorem cmdRow_accepted {op id : Nat} {area : Cmd → Nat} {chk : Cfg → Mach → Cmd → List (Bool × Nat)}
    {act : Cfg → Cmd → Mach → Mach} {s : State} {k : Cmd} (h : accepted op id area chk s k = true) :
    cmdRow op id area chk act s.c s.q = act s.c k s.q := by
  simp only [accepted, Bool.and_eq_true, beq_iff_eq] at h
  obtain ⟨⟨⟨⟨⟨_, hk⟩, ho⟩, hp⟩, hr⟩, hs⟩ := h
  have hk : mget s.q.rings.cmds id = some k := hk
  unfold cmdRow withCmd
  rw [hk]
  simp only [ho, hp, hr, hs, decide_true, Bool.and_true, ite_true]
  simp

theorem accepted_live {op id : Nat} {area : Cmd → Nat} {chk : Cfg → Mach → Cmd → List (Bool × Nat)} {s : State} {k : Cmd}
    (h : accepted op id area chk s k = true) : live s = true := by
  simp only [accepted, Bool.and_eq_true] at h; exact h.1.1.1.1.1

theorem accepted_cmd {op id : Nat} {area : Cmd → Nat} {chk : Cfg → Mach → Cmd → List (Bool × Nat)} {s : State} {k : Cmd}
    (h : accepted op id area chk s k = true) : mget s.q.rings.cmds id = some k := by
  simp only [accepted, Bool.and_eq_true, beq_iff_eq] at h; exact h.1.1.1.1.2

theorem withCmd2_continues {op id : Nat} {f : Cmd → Mach → Mach} {s : State} {k : Cmd} (h : continues op id s k = true) :
    withCmd2 op id f s.q = f k s.q := by
  simp only [continues, Bool.and_eq_true, beq_iff_eq] at h
  obtain ⟨⟨⟨⟨_, hk⟩, ho⟩, hp⟩, hr⟩ := h
  have hk : mget s.q.rings.cmds id = some k := hk
  have hr : ((s.q.clerks.getD (clerkOf k.opcode) {}).running) = true := hr
  unfold withCmd2
  rw [hk]
  dsimp only
  rw [if_pos (by rw [ho, hp, ← ho, hr]; simp)]

theorem continues_live {op id : Nat} {s : State} {k : Cmd} (h : continues op id s k = true) : live s = true := by
  simp only [continues, Bool.and_eq_true] at h; exact h.1.1.1.1

theorem continues_cmd {op id : Nat} {s : State} {k : Cmd} (h : continues op id s k = true) :
    mget s.q.rings.cmds id = some k := by
  simp only [continues, Bool.and_eq_true, beq_iff_eq] at h; exact h.1.1.1.2

theorem underWay_begun {id arg : Nat} {m : Mach} {k : Cmd} (h : mget m.rings.cmds id = some k) :
    (mget (underWay id arg m).rings.cmds id).map (fun k => (k.phase, k.arg)) = some (1, arg) := by
  simp [underWay, mget_mupd, h]

/-- A projection of the still part of a block survives an answer. -/
theorem respond_view {α : Type} (g : Mach → α) (hg : ∀ m, g m.still = g m) (c : Cfg) (id st : Nat) (l : List Byte) (m : Mach) :
    g (respond c id st l m) = g m := by
  rw [← hg, still_respond, hg]

theorem post_view {α : Type} (g : Mach → α) (hg : ∀ m, g m.still = g m) (c : Cfg) (code : Nat) (ws : List Nat) (m : Mach) :
    g (post c code ws m) = g m := by
  rw [← hg, still_post, hg]

theorem doms_respond (c : Cfg) (id st : Nat) (l : List Byte) (m : Mach) : (respond c id st l m).doms = m.doms :=
  respond_view Mach.doms (fun _ => rfl) ..
theorem keys_respond (c : Cfg) (id st : Nat) (l : List Byte) (m : Mach) : (respond c id st l m).keys = m.keys :=
  respond_view Mach.keys (fun _ => rfl) ..
theorem granules_respond (c : Cfg) (id st : Nat) (l : List Byte) (m : Mach) :
    (respond c id st l m).mem.granules = m.mem.granules := respond_view (·.mem.granules) (fun _ => rfl) ..
/-- A row of an accepted command: its effect has every property asked of it. -/
theorem Runs.row {i : Instr} {s : State} {op id : Nat} {area : Cmd → Nat} {chk : Cfg → Mach → Cmd → List (Bool × Nat)}
    {act : Cfg → Cmd → Mach → Mach} {k : Cmd} {P : State → Prop}
    (hi : exec i s = s.runM (cmdRow op id area chk act)) (h : accepted op id area chk s k = true)
    (hp : P { s with dev := { cfg := s.c, m := act s.c k s.q } }) : Runs i s P :=
  Runs.ofM hi (accepted_live h) (by rw [cmdRow_accepted h]; exact hp)

/-- The second row of a command under way. -/
theorem Runs.row2 {i : Instr} {s : State} {op id : Nat} {f : Cfg → Cmd → Mach → Mach} {k : Cmd} {P : State → Prop}
    (hi : exec i s = s.runM (fun c => withCmd2 op id (f c))) (h : continues op id s k = true)
    (hp : P { s with dev := { cfg := s.c, m := f s.c k s.q } }) : Runs i s P :=
  Runs.ofM hi (continues_live h) (by rw [withCmd2_continues h]; exact hp)

/-! ### Results in memory -/

theorem bget_bread (n : Nat) : ∀ (m m' : Map Byte) (a : Nat), (∀ b, a ≤ b → b < a + n → bget m b = bget m' b) → bread m a n = bread m' a n := by
  induction n with
  | zero => intro m m' a _; rfl
  | succ n ih =>
    intro m m' a h
    show bget m a :: bread m (a + 1) n = bget m' a :: bread m' (a + 1) n
    rw [h a (Nat.le_refl _) (by omega), ih m m' (a + 1) fun b h1 h2 => h b (by omega) (by omega)]

/-- A command of this engine that returns bytes, in lines the host has no part in: they stand in its argument area, outside the event ring, when
it is answered. -/
theorem putResult_respond (c : Cfg) (id st : Nat) (k : Cmd) (l d : List Byte) (m : Mach)
    (h : mget m.rings.cmds id = some k) (hr : k.relay = none) (hf : lineBusy m k.argAddr l.length = false)
    (hd : k.argAddr + l.length ≤ evtRing ∨ evtRing + 64 * 4096 ≤ k.argAddr) :
    (respond c id st d (putResult id k l m)).rings.cmds = mdel m.rings.cmds id
      ∧ (respond c id st d (putResult id k l m)).mem.granules = m.mem.granules
      ∧ bread (respond c id st d (putResult id k l m)).mem.cells k.argAddr l.length = l := by
  have e : putResult id k l m = memStore k.argAddr l m := by unfold putResult; rw [hr]; exact engPut_free hf
  have hc : (memStore k.argAddr l m).mem.cells = bwrite m.mem.cells k.argAddr l := rfl
  rw [e]
  have h' : mget (memStore k.argAddr l m).rings.cmds id = some k := h
  refine ⟨by rw [cmds_respond _ _ _ _ _ k h']; rfl, by rw [granules_respond]; rfl, ?_⟩
  rw [bget_bread l.length _ (memStore k.argAddr l m).mem.cells _ fun b h1 h2 => respond_out c id st d _ b (by
    have := Nat.mod_lt (memStore k.argAddr l m).rings.evtTail (show 0 < 4096 by decide)
    omega)]
  rw [hc]
  exact bread_bwrite _ _ _

end Sys2Proof.Machine
end

