-- ==== Sys2Proof/Laws/Kills.lean ====
section
/-! SUPPORT. What kills and holds can touch: nothing of boot, domains, keys, parcels, the store, the tick, clerks, power. -/

namespace Sys2Proof.Machine
open Sys2Proof

/-- The block without what a kill, a hold, an answer or an event touches. -/
def Mach.calm (m : Mach) : Mach :=
  let a := m.still
  { a with queues := [], cores := [], arb := (mach0 strap0 store0 0 true true).arb, telem := (mach0 strap0 store0 0 true true).telem
           depot := (mach0 strap0 store0 0 true true).depot, casc := {}, ledger := [], hp := { a.hp with wait := [] }
           xl := { a.xl with ats := [], prg := [], stalled := [] }, mbx := [], sched := { a.sched with groups := [] } }

theorem calm_of_still {a b : Mach} (h : a.still = b.still) : a.calm = b.calm := by
  unfold Mach.calm; rw [h]

@[simp] theorem calm_qUpd (q : Nat) (f : Queue → Queue) (m : Mach) : (qUpd q f m).calm = m.calm := rfl
@[simp] theorem calm_ctxUpd (q : Nat) (f : QCtx → QCtx) (m : Mach) : (ctxUpd q f m).calm = m.calm := rfl
@[simp] theorem calm_descUpd (q d : Nat) (f : Desc → Desc) (m : Mach) : (descUpd q d f m).calm = m.calm := rfl
@[simp] theorem calm_zeroBalance (q : Nat) (m : Mach) : (zeroBalance q m).calm = m.calm := rfl
@[simp] theorem calm_lessOwed (q n : Nat) (m : Mach) : (lessOwed q n m).calm = m.calm := rfl
@[simp] theorem calm_hold (q : Nat) (m : Mach) : (hold q m).calm = m.calm := rfl
@[simp] theorem calm_reach (q d st de : Nat) (m : Mach) : (reach q d st de m).calm = m.calm := rfl
@[simp] theorem calm_settle (m : Mach) : (settle m).calm = m.calm := rfl
@[simp] theorem calm_busyAdd (k : Nat) (d : Option Nat) (t : Nat) (m : Mach) : (busyAdd k d t m).calm = m.calm := rfl
@[simp] theorem calm_respond (c : Cfg) (id st : Nat) (l : List Byte) (m : Mach) : (respond c id st l m).calm = m.calm :=
  calm_of_still (still_respond c id st l m)
@[simp] theorem calm_post (c : Cfg) (code : Nat) (ws : List Nat) (m : Mach) : (post c code ws m).calm = m.calm :=
  calm_of_still (still_post c code ws m)
@[simp] theorem calm_framePeer (port i ty : Nat) (l : List Byte) (m : Mach) : (framePeer port i ty l m).calm = m.calm := rfl

/-- A fold of operations that keep the calm part keeps it. -/
theorem calm_foldl {β : Type} (f : Mach → β → Mach) (h : ∀ m b, (f m b).calm = m.calm) (l : List β) (m : Mach) : (l.foldl f m).calm = m.calm :=
  foldl_keeps Mach.calm f h l m

@[simp] theorem calm_cancelUnissued (q d : Nat) (m : Mach) : (cancelUnissued q d m).calm = m.calm := by
  unfold cancelUnissued; split <;> rfl

@[simp] theorem calm_killCore (k : Nat) (m : Mach) : (killCore k m).calm = m.calm := by
  unfold killCore
  split
  · rfl
  · dsimp only
    rw [calm_descUpd]
    rw [foldl_keeps Mach.calm _ (fun _ _ => calm_qUpd _ _ _)]
    rfl

@[simp] theorem calm_killTiles (f : TileCmd → Bool) (st de : Nat) (m : Mach) : (killTiles f st de m).calm = m.calm := by
  unfold killTiles
  rw [calm_settle]
  refine foldl_keeps Mach.calm _ (fun m k => ?_) _ _
  split
  · rw [calm_killCore, calm_foldl _ (fun _ _ => by simp)]
  · rfl

@[simp] theorem calm_stopMembers (g : List (Nat × Nat)) (st de : Nat) (kill : Bool) (m : Mach) : (stopMembers g st de kill m).calm = m.calm := by
  unfold stopMembers
  dsimp only
  rw [calm_settle]
  have h : (g.foldl (fun m p => cancelUnissued p.1 p.2 (reach p.1 p.2 st de m)) m).calm = m.calm :=
    foldl_keeps Mach.calm _ (fun _ _ => by simp) _ _
  split <;> simp [h]

@[simp] theorem calm_stopLayer (q d st de : Nat) (kill : Bool) (m : Mach) : (stopLayer q d st de kill m).calm = m.calm :=
  calm_stopMembers ..

@[simp] theorem calm_leaveGroup (q n : Nat) (g : Group) (m : Mach) : (leaveGroup q n g m).calm = m.calm := by
  unfold leaveGroup
  exact (calm_foldl _ (fun _ _ => by simp) _ _).trans rfl

@[simp] theorem calm_killGroups (q st de : Nat) (m : Mach) : (killGroups q st de m).calm = m.calm :=
  calm_foldl _ (fun _ _ => by split <;> simp) _ _

@[simp] theorem calm_voidEnqs (q : Nat) (m : Mach) : (voidEnqs q m).calm = m.calm := rfl

@[simp] theorem calm_creditBack (b : Bind) (n : Nat) (m : Mach) : (creditBack b n m).calm = m.calm := by
  unfold creditBack
  split
  · split <;> rfl
  · rfl

@[simp] theorem calm_dropParked (q : Nat) (m : Mach) : (dropParked q m).calm = m.calm := by
  unfold dropParked
  exact foldl_keeps Mach.calm _ (fun _ _ => calm_creditBack _ _ _) _ _

@[simp] theorem calm_mbxClear (q : Nat) (all : Bool) (m : Mach) : (mbxClear q all m).calm = m.calm := by
  unfold mbxClear
  split
  · rfl
  · split <;> rfl

@[simp] theorem calm_killDescs (q st de : Nat) (m : Mach) : (killDescs q st de m).calm = m.calm :=
  calm_foldl _ (fun _ _ => by simp) _ _
@[simp] theorem calm_killOps (q st de : Nat) (m : Mach) : (killOps q st de m).calm = m.calm := rfl

@[simp] theorem calm_killOne (q st de : Nat) (m : Mach) : (killOne q st de m).calm = m.calm := by
  unfold killOne
  simp only [calm_mbxClear, calm_dropParked, calm_voidEnqs, calm_qUpd, calm_killOps, calm_killDescs, calm_zeroBalance, calm_ctxUpd, calm_killGroups,
    calm_killTiles]

@[simp] theorem calm_killCtx (q st de : Nat) (m : Mach) : (killCtx q st de m).calm = m.calm :=
  foldl_keeps Mach.calm _ (fun _ _ => calm_killOne _ _ _ _) _ _

@[simp] theorem calm_killQueue (c : Cfg) (q st de va : Nat) (m : Mach) : (killQueue c q st de va m).calm = m.calm :=
  foldl_keeps Mach.calm _ (fun _ _ => by simp) _ _

@[simp] theorem calm_integrityKill (c : Cfg) (q pa : Nat) (m : Mach) : (integrityKill c q pa m).calm = m.calm := by
  simp [integrityKill]

@[simp] theorem calm_faultQueue (c : Cfg) (q st line va : Nat) (m : Mach) : (faultQueue c q st line va m).calm = m.calm := by
  unfold faultQueue; dsimp only; split <;> simp

/-- A projection of what kills leave alone. -/
theorem view_of_calm {α : Type} (g : Mach → α) (hg : ∀ m, g m.calm = g m) {a b : Mach} (h : a.calm = b.calm) : g a = g b := by
  rw [← hg a, h, hg]

/-! ### Command numbers survive kills -/

theorem cmds_frame_foldl {β : Type} (f : Mach → β → Mach) (h : ∀ m b, (f m b).rings = m.rings) (l : List β) (m : Mach) :
    (l.foldl f m).rings = m.rings := foldl_keeps Mach.rings f h l m

theorem rings_qUpd (q : Nat) (f : Queue → Queue) (m : Mach) : (qUpd q f m).rings = m.rings := rfl

theorem rings_cancelUnissued (q d : Nat) (m : Mach) : (cancelUnissued q d m).rings = m.rings := by
  unfold cancelUnissued; split <;> rfl

theorem rings_killCore (k : Nat) (m : Mach) : (killCore k m).rings = m.rings := by
  unfold killCore
  split
  · rfl
  · dsimp only
    show (List.foldl _ _ _ : Mach).rings = _
    exact (foldl_keeps Mach.rings _ (by intro a b; rfl) _ _).trans rfl

theorem rings_killTiles (f : TileCmd → Bool) (st de : Nat) (m : Mach) : (killTiles f st de m).rings = m.rings := by
  refine foldl_keeps Mach.rings _ (fun m k => ?_) _ _
  split
  · rw [rings_killCore]
    exact cmds_frame_foldl _ (fun m b => by rw [rings_cancelUnissued]; rfl) _ _
  · rfl

theorem rings_stopMembers (g : List (Nat × Nat)) (st de : Nat) (kill : Bool) (m : Mach) : (stopMembers g st de kill m).rings = m.rings := by
  have h : (g.foldl (fun m p => cancelUnissued p.1 p.2 (reach p.1 p.2 st de m)) m).rings = m.rings :=
    foldl_keeps Mach.rings _ (by intro a b; rw [rings_cancelUnissued]; rfl) _ _
  unfold stopMembers
  show (ite _ _ _ : Mach).rings = m.rings
  split
  · rw [rings_killTiles, h]
  · exact h

theorem rings_stopLayer (q d st de : Nat) (kill : Bool) (m : Mach) : (stopLayer q d st de kill m).rings = m.rings :=
  rings_stopMembers ..

theorem rings_mbxClear (q : Nat) (all : Bool) (m : Mach) : (mbxClear q all m).rings = m.rings := by
  unfold mbxClear
  split
  · rfl
  · split <;> rfl

theorem rings_creditBack (b : Bind) (n : Nat) (m : Mach) : (creditBack b n m).rings = m.rings := by
  unfold creditBack
  split
  · split <;> rfl
  · rfl

theorem rings_dropParked (q : Nat) (m : Mach) : (dropParked q m).rings = m.rings :=
  foldl_keeps Mach.rings _ (fun _ _ => rings_creditBack _ _ _) _ _

theorem rings_leaveGroup (q n : Nat) (g : Group) (m : Mach) : (leaveGroup q n g m).rings = m.rings := by
  unfold leaveGroup
  dsimp only
  rw [cmds_frame_foldl (h := by intro _ _; rfl)]

theorem rings_killGroups (q st de : Nat) (m : Mach) : (killGroups q st de m).rings = m.rings := by
  refine cmds_frame_foldl _ (fun m g => ?_) _ _
  split
  · exact rings_leaveGroup ..
  · exact rings_stopMembers ..

theorem rings_killDescs (q st de : Nat) (m : Mach) : (killDescs q st de m).rings = m.rings :=
  cmds_frame_foldl _ (fun m d => by
    show (cancelUnissued q d (reach q d st de m)).rings = m.rings
    rw [rings_cancelUnissued]; rfl) _ _

theorem rings_voidEnqs (q : Nat) (m : Mach) : (voidEnqs q m).rings = m.rings := rfl
theorem rings_killOps (q st de : Nat) (m : Mach) : (killOps q st de m).rings = m.rings := rfl
theorem rings_zeroBalance (q : Nat) (m : Mach) : (zeroBalance q m).rings = m.rings := rfl
theorem rings_ctxUpd (q : Nat) (f : QCtx → QCtx) (m : Mach) : (ctxUpd q f m).rings = m.rings := rfl

theorem rings_killOne (q st de : Nat) (m : Mach) : (killOne q st de m).rings = m.rings := by
  unfold killOne
  simp only [rings_mbxClear, rings_dropParked, rings_voidEnqs, rings_qUpd, rings_killOps, rings_killDescs, rings_zeroBalance, rings_ctxUpd,
    rings_killGroups, rings_killTiles]

end Sys2Proof.Machine
end

