-- ==== Sys2Proof/Laws/Domains.lean ====
section
/-! SUPPORT. What teardown, invalidation and the resets of a domain can touch. -/

namespace Sys2Proof.Machine
open Sys2Proof

theorem doms_settleAll (m : Mach) : (settleAll m).doms = m.doms := by
  unfold settleAll; rw [foldl_keeps Mach.doms (fun m k => settleTime k m) (by intro m k; rfl)]
theorem doms_pageRequest (c : Cfg) (r : PrgReq) (m : Mach) : (pageRequest c r m).doms = m.doms := by
  have hf (n : Option Nat) (m : Mach) : (r.waiters.foldl (fun m w => putHalt n w m) m).doms = m.doms :=
    foldl_keeps Mach.doms _ (fun m w => by unfold putHalt; split <;> rfl) _ _
  unfold pageRequest
  dsimp only
  split
  · exact doms_settleAll m
  · split
    · rw [hf]; exact doms_settleAll m
    · rw [post_view Mach.doms (fun _ => rfl), hf]; exact doms_settleAll m
theorem doms_dropRequests (c : Cfg) (d : Nat) (m : Mach) : (dropRequests c d m).doms = m.doms :=
  (foldl_keeps Mach.doms _ (fun m r => doms_pageRequest c r m) _ _).trans rfl
theorem doms_killDomain (d : Nat) (m : Mach) : (killDomain d m).doms = m.doms :=
  foldl_keeps Mach.doms _ (by intro a b; exact view_of_calm Mach.doms (fun _ => rfl) (calm_killOne _ _ _ _)) _ _
theorem rings_killDomain (d : Nat) (m : Mach) : (killDomain d m).rings = m.rings :=
  foldl_keeps Mach.rings _ (by intro a b; exact rings_killOne _ _ _ _) _ _


/-- Views of a block that an invalidation leaves alone. -/
theorem invalidate_view {α : Type} (g : Mach → α) (hg : ∀ m, g m.still = g m) (hx : ∀ m x k q, g { m with xl := x, cores := k, queues := q } = g m)
    (ht : ∀ m t, g { m with telem := t } = g m) (c : Cfg) (d a : Nat) (n : Option Nat) (m : Mach) : g (invalidate c d a n m) = g m := by
  unfold invalidate
  dsimp only
  split
  · split
    · rw [post_view g hg, ht]; exact hx m _ _ _
    · exact hx m _ _ _
  · exact hx m _ _ _

theorem doms_invalidate (c d a n m) : (invalidate c d a n m).doms = m.doms :=
  invalidate_view Mach.doms (fun _ => rfl) (fun _ _ _ _ => rfl) (fun _ _ => rfl) ..
theorem depot_invalidate (c d a n m) : (invalidate c d a n m).depot = m.depot :=
  invalidate_view Mach.depot (fun _ => rfl) (fun _ _ _ _ => rfl) (fun _ _ => rfl) ..
theorem place_invalidate (c d a n m) : (invalidate c d a n m).hp.place = m.hp.place :=
  invalidate_view (·.hp.place) (fun _ => rfl) (fun _ _ _ _ => rfl) (fun _ _ => rfl) ..
theorem cmds_invalidate (c d a n m) : (invalidate c d a n m).rings.cmds = m.rings.cmds := by
  unfold invalidate; dsimp only; split
  · split
    · rw [cmds_post]; rfl
    · rfl
  · rfl
theorem xl_invalidate (c d a n m) : (invalidate c d a n m).xl = { m.xl with l2 := m.xl.l2.filter fun e => !tlbIn d a n e, walk := m.xl.walk.filter fun e => !walkIn d a n e } := by
  unfold invalidate; dsimp only; split
  · split
    · rw [post_view Mach.xl (fun _ => rfl)]; rfl
    · rfl
  · rfl

theorem l2_dropXlate (c d m) : ∀ e ∈ (dropXlate c d m).xl.l2, e.dom ≠ d := by
  intro e he
  have : e ∈ (invalidate c d 0 none m).xl.l2 := he
  rw [xl_invalidate] at this
  have := (List.mem_filter.1 this).2
  intro h; simp [tlbIn, h] at this

theorem domE_domUpd (d f m) : domE (domUpd d f m) d = f (domE m d) := by
  simp [domUpd, domE]


theorem place_dropXlate (c d m) : (dropXlate c d m).hp.place = m.hp.place := place_invalidate ..
theorem depot_dropXlate (c d m) : (dropXlate c d m).depot = m.depot := depot_invalidate ..
theorem doms_dropXlate (c d m) : (dropXlate c d m).doms = m.doms := doms_invalidate ..
theorem cmds_dropXlate (c d m) : (dropXlate c d m).rings.cmds = m.rings.cmds := cmds_invalidate ..
theorem lines_dropHostLines (d m) : (dropHostLines d m).depot.lines = m.depot.lines.filter (fun l => decide (l.dom ≠ d)) := rfl
theorem place_dropKept (c d m) : (dropKept c d m).hp.place = mfilter (fun _ p => p.dom ≠ d) m.hp.place := rfl
theorem regions_dropKept (c d m) : (dropKept c d m).depot.regions = mfilter (fun _ p => p.dom ≠ d) m.depot.regions := rfl

end Sys2Proof.Machine
end

