-- ==== Sys2Proof/Laws/Lanes.lean ====
section
/-! SUPPORT. What a V-slot operation that may run can do. -/

namespace Sys2Proof.Machine
open Sys2Proof

/-- A V operation that may run: its core's change and its place in the slot. -/
theorem vOp_ready {s : State} {k : Nat} {x : Core} {u : TileCmd} {len : Aff} {n : Nat} {lenOk : Nat → Bool}
    {places : Nat → List (Bool × Nat × Nat × VLoc)} {uses : List Nat} {f : Nat → TileCmd → Core → Core} (h : vReady s k x u len n (places n)) (hl : lenOk n = true) :
    vOp k len lenOk places uses f s.q = pushOp k 5 [] uses ((places n).any fun p => p.1 && p.2.2.2 = .drain) (coreUpd k (f n u) s.q) := by
  obtain ⟨hi, hn, hb, hd⟩ := h
  rw [vOp, withOp_issues _ hi.2]; dsimp only; rw [hn, hl]
  have hf : (places n).find? (fun p => locBad x u p.1 p.2.1 p.2.2.1 p.2.2.2) = none := by
    rw [List.find?_eq_none]; intro p hp; simp [hb p hp]
  rw [if_neg (by simp), hf]; dsimp only
  rw [if_neg]
  intro hc
  simp only [Bool.and_eq_true, List.any_eq_true, decide_eq_true_eq] at hc
  obtain ⟨⟨p, hp, h1, h2⟩, hr⟩ := hc
  rw [hd ⟨p, hp, h1, h2⟩] at hr; simp at hr

/-- Its core's change, as `vEntered` says it. -/
theorem entered_of {s : State} {k : Nat} {x : Core} {uses : List Nat} {dr : Bool} {g : Core → Core} (hx : s.m.cores[k]? = some x) (hs : (g x).slots = x.slots)
    (hb : (g x).begun = x.begun) :
    let m := pushOp k 5 [] uses dr (coreUpd k g s.q)
    vEntered k dr uses s { s with dev := { cfg := s.c, m := m } } x { g x with slots := lupd x.slots 5 (· ++ [⟨s.m.arb.nextOp, [], uses, dr⟩]), begun := x.begun.filter (·.1 ≠ 5) } := by
  refine ⟨rfl, ?_, ?_, rfl, rfl, rfl, rfl⟩
  · intro j hj
    show (lupd (lupd s.m.cores k _) k _)[j]? = _
    rw [lupd_get_ne _ _ hj, lupd_get_ne _ _ hj]
  · show (lupd (lupd s.m.cores k _) k _)[k]? = _
    rw [lupd_get, lupd_get, hx]
    simp only [Option.map_some, hs, hb]; rfl

theorem vregs_zip (r : Nat) (g : Nat → Nat → Nat) (l : List Nat) : ∀ (n : Nat) (m : Map Nat),
    (∀ i v, l[i]? = some v → mget ((l.zipIdx n).foldl (fun b p => mset b (256 * r + p.2) (g p.2 p.1)) m) (256 * r + (n + i)) = some (g (n + i) v))
    ∧ ∀ j, j < 256 * r + n ∨ 256 * r + n + l.length ≤ j → mget ((l.zipIdx n).foldl (fun b p => mset b (256 * r + p.2) (g p.2 p.1)) m) j = mget m j := by
  induction l with
  | nil => intro n m; simp
  | cons a l ih =>
    intro n m
    simp only [List.zipIdx_cons, List.foldl_cons]
    obtain ⟨h1, h2⟩ := ih (n + 1) (mset m (256 * r + n) (g n a))
    refine ⟨?_, ?_⟩
    · intro i v hv
      cases i with
      | zero =>
        simp at hv; subst hv
        rw [h2 _ (by omega)]; exact mget_mset ..
      | succ i =>
        simp at hv
        have := h1 i v hv
        rw [show n + 1 + i = n + (i + 1) by omega] at this
        exact this
    · intro j hj
      simp at hj
      rw [h2 j (by omega), mget_mset_ne _ _ (by omega)]

/-- What writing a destination does. -/
theorem lands (u : TileCmd) (fmt : Nat) (z : Nat → Nat) (codes : List Nat) (x : Core) (d : VLoc) (sl : List (List OpRec)) (bg : List (Nat × Nat)) :
    Lands u fmt z codes x { vPut u d fmt z codes x with slots := sl, begun := bg } d := by
  cases d with
  | reg r =>
    obtain ⟨h1, h2⟩ := vregs_zip r (fun j v => if fmt = 0xC then v else enc32 (decodeElem fmt (z j) v)) codes 0 x.vregs
    exact ⟨rfl, fun i v hv => by have := h1 i v hv; rw [Nat.zero_add] at this; exact this, fun j hj => h2 j (by simpa using hj)⟩
  | drain => rfl
  | win back off =>
    have hc : ({ vPut u (.win back off) fmt z codes x with slots := sl, begun := bg } : Core) =
      if (x.front == 0) != back then { x with half0 := bwrite x.half0 (affN x u off) (packRow (rowSd fmt codes.length) codes), slots := sl, begun := bg }
      else { x with half1 := bwrite x.half1 (affN x u off) (packRow (rowSd fmt codes.length) codes), slots := sl, begun := bg } := by
      unfold vPut; dsimp only; split <;> rfl
    rw [hc]
    cases hb : (x.front == 0) != back
    · have h1 : ((x.front == 0) != !back) = true := by revert hb; cases (x.front == 0) <;> cases back <;> simp
      refine ⟨by simp, by simp [winHalf, halfAt, h1], ?_, ?_⟩
      · simp only [winHalf, halfAt]; simp [hb]; exact bread_bwrite ..
      · intro a ha; simp [winHalf, halfAt, hb]; exact bget_bwrite_out _ _ _ _ ha
    · have h1 : ((x.front == 0) != !back) = false := by revert hb; cases (x.front == 0) <;> cases back <;> simp
      refine ⟨by simp, by simp [winHalf, halfAt, h1], ?_, ?_⟩
      · simp only [winHalf, halfAt]; simp [hb]; exact bread_bwrite ..
      · intro a ha; simp [winHalf, halfAt, hb]; exact bget_bwrite_out _ _ _ _ ha

theorem vPut_slots (u : TileCmd) (fmt : Nat) (z : Nat → Nat) (codes : List Nat) (x : Core) (d : VLoc) : (vPut u d fmt z codes x).slots = x.slots := by
  cases d <;> simp [vPut]; split <;> rfl
theorem vPut_begun (u : TileCmd) (fmt : Nat) (z : Nat → Nat) (codes : List Nat) (x : Core) (d : VLoc) : (vPut u d fmt z codes x).begun = x.begun := by
  cases d <;> simp [vPut]; split <;> rfl
theorem vPut_clip (u : TileCmd) (fmt : Nat) (z : Nat → Nat) (codes : List Nat) (x : Core) (d : VLoc) : (vPut u d fmt z codes x).clip = x.clip := by
  cases d <;> simp [vPut]; split <;> rfl

theorem places_dr (d : VLoc) (l : List VLoc) (n : Nat) : ((f32Places d l n).any fun p => p.1 && p.2.2.2 = .drain) = (d == .drain) := by
  have : (l.any ((fun p : Bool × Nat × Nat × VLoc => p.1 && decide (p.2.2.2 = .drain)) ∘ fun s => (false, 0xC, n, s))) = false := by
    rw [List.any_eq_false]; intro v _; simp
  simp only [f32Places, List.any_cons, List.any_map, this, Bool.or_false, Bool.true_and]
  cases d <;> rfl

/-- An operation on FP32 vectors writes its codes. -/
theorem vec_wrote {i : Instr} {s : State} {k : Nat} {x : Core} {u : TileCmd} {d : VLoc} {l : List VLoc} {len : Aff} {n : Nat} {f : List (List Nat) → List Nat} {uses : List Nat}
    {codes : List Nat} (h : vReady s k x u len n (f32Places d l n)) (hi : exec i s = s.runM fun _ => vVec k d l len f uses)
    (hc : f (l.map (vGet x u 0xC noZp 0 n)) = codes) : Runs i s fun t => vWrote k d u codes s t x uses := by
  refine Runs.ofM hi h.1.1 ?_
  have hx := (canIssue_some h.1.2).1
  rw [vVec, vOp_ready h rfl, places_dr]
  refine ⟨_, entered_of hx ?_ ?_, ?_, ?_⟩
  · exact vPut_slots ..
  · exact vPut_begun ..
  · dsimp only; rw [hc]; exact lands ..
  · exact vPut_clip ..

end Sys2Proof.Machine
end

