-- ==== Sys2Proof/WellFormed.lean ====
section
/-! DEFINITION. Well-formed commands: every operand in the range its field or register has (R29, R126, R128, R129, R134, R136 to R145,
R174, R178, R187, R246, R372). The meanings are total: an ill-formed command is judged by its own rules. -/

namespace Sys2Proof

/-- A literal of at most 64 bits, one of the 64 slots, or a system value (R126 to R128). -/
def Opnd.wf : Opnd → Bool
  | .lit v => decide (v < 2 ^ 64)
  | .slot n => decide (n < 64)
  | .sys _ => true

/-- At most four loop factors (R129). -/
def Aff.wf (a : Aff) : Bool := a.c.wf && decide (a.a.length ≤ 4) && a.a.all Opnd.wf && a.tile.wf

/-- A window block whose fields have the widths of R178. -/
def WinBlk.wf (w : WinBlk) : Bool :=
  [w.fyM1, w.fxM1, w.t0y, w.t0x, w.pylo, w.pyhi, w.pxlo, w.pxhi].all (fun v => decide (v < 2 ^ 10))
    && [w.syM1, w.sxM1].all (fun v => decide (v < 64)) && [w.fload, w.dyM1, w.dxM1, w.idil].all (fun v => decide (v < 256))
    && decide (w.mode < 16) && [w.c0, w.cwM1, w.padConst].all (fun v => decide (v < 2 ^ 16))

/-- A stream template whose fields have the widths of R174. -/
def Tmpl.wf (p : Tmpl) : Bool :=
  decide (p.format < 15 ∧ p.kind < 16 ∧ p.space < 16 ∧ p.rate < 2 ^ 16 ∧ 1 ≤ p.counts.length ∧ p.counts.length ≤ 6 ∧ p.strides.length = p.counts.length)
    && p.counts.all (fun n => decide (n < 2 ^ 32)) && p.strides.all (fun z => decide (-(2 ^ 47) ≤ z ∧ z < 2 ^ 47))
    && p.win.all WinBlk.wf && p.outFirst.wf && p.base.wf

/-- A vector place: one of 32 registers, a window offset, DRAIN (R143). -/
def VLoc.wf : VLoc → Bool
  | .reg n => decide (n < 32)
  | .win _ off => off.wf
  | .drain => true

def Grain.wf : Grain → Bool
  | .none => true
  | .tensor v => v.wf
  | .channel _ off => off.wf
  | .row _ off => off.wf

def ZpGrain.wf : ZpGrain → Bool
  | .none => true
  | .tensor v => v.wf
  | .row _ off => off.wf
  | .channel _ off => off.wf
  | .group g _ off => decide (1 ≤ g) && off.wf

/-- Element sources: a codebook slot, group-size and scale-type codes of R44. -/
def ElemSrc.wf (e : ElemSrc) : Bool := e.zp.wf && e.tc.wf && decide (e.cb < 4 ∧ e.group < 4 ∧ e.stype < 3) && e.off.wf

def ZpSrc.wf : ZpSrc → Bool
  | .value v => v.wf
  | _ => true

/-- The operands of MMA (R137): formats of R29, a codebook slot, a slot for outliers. -/
def MmaOp.wf (o : MmaOp) : Bool :=
  o.m.wf && o.k.wf && o.n.wf && decide (o.stFmt < 15 ∧ o.mvFmt < 15 ∧ o.cbSlot < 4 ∧ o.outSlot < 64) && o.stZp.wf && o.mvZp.wf
    && o.tc.wf && o.outCount.wf && o.threshold.wf

def Act.wf : Act → Bool
  | .clamp lo hi => lo.wf && hi.wf
  | .leaky v => v.wf
  | .table n => decide (n < 2)
  | _ => true

/-- E4 writes formats 0x0 to 0xC (R30). -/
def OutMode.wf : OutMode → Bool
  | .fp32 => true
  | .convert f => decide (f < 13)
  | .requant f s z => decide (f < 13) && s.wf && z.wf
  | .generated f _ _ z => decide (f < 13) && z.wf

def EpiOp.wf (o : EpiOp) : Bool :=
  o.scale.wf && o.bias.wf && o.resFmt.all (fun f => decide (f < 15)) && o.resOff.wf && o.resFactor.wf && o.act.wf && o.out.wf

/-- A Kalham header whose fields have the widths of R372. -/
def KHead.wf (h : KHead) : Bool :=
  decide (h.version < 16 ∧ h.type < 16 ∧ h.dst < 16 ∧ h.src < 16 ∧ h.route < 256 ∧ h.queue < 2 ^ 32 ∧ h.postmark < 2 ^ 16 ∧ h.seq < 2 ^ 16
    ∧ h.len < 2 ^ 16 ∧ h.ack < 2 ^ 16)

/-- A command whose operands are in range. -/
def Instr.wf : Instr → Bool
  | .queuePaused q => decide (q < 2 ^ 20)
  | .linkEnable port => decide (port < 4)
  | .linkDisable port => decide (port < 4)
  | .pigeonholeWrite q _ _ => decide (q < 2 ^ 20)
  | .feedIndexWrite q _ _ => decide (q < 2 ^ 20)
  | .mailboxDataWrite m _ _ => decide (m < 4096)
  | .mailboxTrigger m _ _ => decide (m < 4096)
  | .hostLineFill dom _ _ => decide (dom < 4096)
  | .atsInvalidationRequest pasid _ _ => decide (pasid < 2 ^ 20)
  | .atsCompletion pasid _ _ => decide (pasid < 2 ^ 20)
  | .prgResponse prg _ => decide (prg < 512)
  | .hostLinkRestored cause _ => decide (1 ≤ cause ∧ cause ≤ 2)
  | .ledgerRelease entry => decide (entry < 4096)
  | .descriptorFetch q _ => decide (q < 2 ^ 20)
  | .idleResample q => decide (q < 2 ^ 20)
  | .mailboxFetch q _ => decide (q < 2 ^ 20)
  | .layerPresent q _ _ => decide (q < 2 ^ 20)
  | .layerAdmit q _ => decide (q < 2 ^ 20)
  | .gangIssue q _ _ => decide (q < 2 ^ 20)
  | .scrubStart core _ => decide (core < 32)
  | .scrubEnd core _ => decide (core < 32)
  | .coreIdleGate core _ => decide (core < 32)
  | .tileCommandDrain core _ => decide (core < 32)
  | .rerunStart q _ => decide (q < 2 ^ 20)
  | .layerComplete q _ _ => decide (q < 2 ^ 20)
  | .poolScatterDone q _ => decide (q < 2 ^ 20)
  | .completionRecordWrite q _ _ => decide (q < 2 ^ 20)
  | .queueTimeout q _ _ => decide (q < 2 ^ 20)
  | .runawayLimit core _ => decide (core < 32)
  | .fenceDescriptor q _ => decide (q < 2 ^ 20)
  | .enqueueTarget q _ => decide (q < 2 ^ 20)
  | .sortingOfficeEntry q _ _ => decide (q < 2 ^ 20)
  | .sortingOfficeEnd q _ _ => decide (q < 2 ^ 20)
  | .sortingOfficeRunaway q _ _ => decide (q < 2 ^ 20)
  | .pageWalk q _ _ _ => decide (q < 2 ^ 20)
  | .segmentGrant point _ => decide (point < 256)
  | .memoryPortResponse port tag _ _ => decide (port < 16) && decide (tag < 1024)
  | .icacheFill core _ => decide (core < 32)
  | .mpReadyFall port => decide (port < 16)
  | .mpFlushAck port => decide (port < 16)
  | .operationRetire core slot => decide (core < 32) && decide (slot < 7)
  | .postLineBlockAccept core line _ => decide (core < 32) && decide (line < 8)
  | .loop core level count _ => decide (core < 32) && decide (level < 4) && count.wf
  | .endl core level _ => decide (core < 32) && decide (level < 4)
  | .brl core level _ _ => decide (core < 32) && decide (level < 4)
  | .swap core => decide (core < 32)
  | .enqueue core slot _ off size => decide (core < 32) && decide (slot < 64) && off.wf && decide (size = 128 ∨ size = 256)
  | .endOp core => decide (core < 32)
  | .nop core => decide (core < 32)
  | .fetch core unit src dst stamp => decide (core < 32) && decide (unit < 4) && src.wf && dst.wf && stamp.all (· < 64)
  | .stat core src stamp => decide (core < 32) && src.wf && stamp.all (· < 64)
  | .move core src stamp => decide (core < 32) && src.wf && stamp.all (· < 64)
  | .drain core dst scales stamp => decide (core < 32) && dst.wf && scales.all Tmpl.wf && stamp.all (· < 64)
  | .put core src dst stamp => decide (core < 32) && src.wf && dst.wf && stamp.all (· < 64)
  | .side core stScale mvScale stZp mvZp selector outSt outMv stamp => decide (core < 32) && stScale.all Tmpl.wf && mvScale.all Tmpl.wf && stZp.all Tmpl.wf && mvZp.all Tmpl.wf && selector.all Tmpl.wf && outSt.all Tmpl.wf && outMv.all Tmpl.wf && stamp.all (· < 64)
  | .codebook core slot size src stamp => decide (core < 32) && decide (slot < 4) && decide (size = 16 ∨ size = 256) && src.wf && stamp.all (· < 64)
  | .table core slot src stamp => decide (core < 32) && decide (slot < 2) && src.wf && stamp.all (· < 64)
  | .wstore core src e stamp => decide (core < 32) && src.wf && e.wf && stamp.all (· < 64)
  | .mma core o => decide (core < 32) && o.wf
  | .epi core o => decide (core < 32) && o.wf
  | .vadd core dst a b len => decide (core < 32) && dst.wf && a.wf && b.wf && len.wf
  | .vsub core dst a b len => decide (core < 32) && dst.wf && a.wf && b.wf && len.wf
  | .vmul core dst a b len => decide (core < 32) && dst.wf && a.wf && b.wf && len.wf
  | .vfma core dst a b c len => decide (core < 32) && dst.wf && a.wf && b.wf && c.wf && len.wf
  | .vmin core dst a b len => decide (core < 32) && dst.wf && a.wf && b.wf && len.wf
  | .vmax core dst a b len => decide (core < 32) && dst.wf && a.wf && b.wf && len.wf
  | .vabs core dst a len => decide (core < 32) && dst.wf && a.wf && len.wf
  | .vneg core dst a len => decide (core < 32) && dst.wf && a.wf && len.wf
  | .vcmp core _ dst a b len => decide (core < 32) && dst.wf && a.wf && b.wf && len.wf
  | .vsel core dst c a b len => decide (core < 32) && dst.wf && c.wf && a.wf && b.wf && len.wf
  | .vcvt core dst dfmt a sfmt scale zp cb len => decide (core < 32) && dst.wf && decide (dfmt < 13) && a.wf && decide (sfmt < 15) && scale.wf && zp.wf && decide (cb < 4) && len.wf
  | .vrcp core dst a len => decide (core < 32) && dst.wf && a.wf && len.wf
  | .vrsq core dst a len => decide (core < 32) && dst.wf && a.wf && len.wf
  | .vdiv core dst a b len => decide (core < 32) && dst.wf && a.wf && b.wf && len.wf
  | .vsqrt core dst a len => decide (core < 32) && dst.wf && a.wf && len.wf
  | .vexp2 core dst a len => decide (core < 32) && dst.wf && a.wf && len.wf
  | .vlog2 core dst a len => decide (core < 32) && dst.wf && a.wf && len.wf
  | .vfun core _ dst a len => decide (core < 32) && dst.wf && a.wf && len.wf
  | .vtab core slot dst a len => decide (core < 32) && decide (slot < 2) && dst.wf && a.wf && len.wf
  | .vred core _ dst a len => decide (core < 32) && dst.wf && a.wf && len.wf
  | .vsoftmax core dst a len => decide (core < 32) && dst.wf && a.wf && len.wf
  | .vnorm core _ dst a gamma beta eps len => decide (core < 32) && dst.wf && a.wf && gamma.wf && beta.wf && eps.wf && len.wf
  | .vopt core _ w _ g gFmt gZp gCb m v _ _ mScale vScale firstSlot len => decide (core < 32) && w.wf && g.wf && decide (gFmt < 15) && gZp.wf && decide (gCb < 4) && m.wf && v.wf && mScale.wf && vScale.wf && decide (firstSlot < 64) && len.wf
  | .wdw core src e init => decide (core < 32) && src.wf && e.wf && init.all VLoc.wf
  | .wgrp core cg src e init => decide (core < 32) && decide (1 ≤ cg) && src.wf && e.wf && init.all VLoc.wf
  | .wpool core p src e => decide (core < 32 ∧ p ≠ .sum) && src.wf && e.wf
  | .wgpool core _ src e => decide (core < 32) && src.wf && e.wf
  | .wait core route seq => decide (core < 32) && decide (route < 256) && seq.wf
  | .fence core => decide (core < 32)
  | .post core route => decide (core < 32) && decide (route < 256)
  | .linkMacUp port _ => decide (port < 4)
  | .linkMacDown port _ => decide (port < 4)
  | .helloBroadcast port _ => decide (port < 4)
  | .helloFrame port hd _ _ => decide (port < 4) && hd.wf
  | .attestFrame port peer hd _ _ => decide (port < 4) && decide (peer < 16) && hd.wf
  | .attestRetry port peer _ => decide (port < 4) && decide (peer < 16)
  | .mkaPdu port peer _ _ => decide (port < 4) && decide (peer < 16)
  | .mkaLifeExpiry port peer _ => decide (port < 4) && decide (peer < 16)
  | .sakRekey port peer => decide (port < 4) && decide (peer < 16)
  | .gptpPdu port peer _ _ _ => decide (port < 4) && decide (peer < 16)
  | .frameSend port _ => decide (port < 4)
  | .dataFrame port peer h _ _ => decide (port < 4) && decide (peer < 16) && h.wf
  | .creditFrame port peer h _ _ => decide (port < 4) && decide (peer < 16) && h.wf
  | .nakFrame port peer h _ => decide (port < 4) && decide (peer < 16) && h.wf
  | .refuseFrame port peer h _ _ => decide (port < 4) && decide (peer < 16) && h.wf
  | .idleFrame port peer h _ => decide (port < 4) && decide (peer < 16) && h.wf
  | .tickFrame port peer h _ _ _ _ _ => decide (port < 4) && decide (peer < 16) && h.wf
  | .ledgerFrame port peer h _ _ entry _ _ _ => decide (port < 4) && decide (peer < 16) && h.wf && decide (entry < 4096)
  | .manageFrame port peer h _ _ _ _ _ _ => decide (port < 4) && decide (peer < 16) && h.wf
  | .imageFrame port peer h _ _ _ _ => decide (port < 4) && decide (peer < 16) && h.wf
  | .retransmitTimer port peer _ => decide (port < 4) && decide (peer < 16)
  | .linkTimeoutExpiry port peer _ => decide (port < 4) && decide (peer < 16)
  | .droopTrip core _ => decide (core < 32)
  | .droopRecovery core _ => decide (core < 32)
  | .clerkHeartbeatMiss c _ _ => decide (c < 4)
  | .clerkRestartDone c _ _ => decide (c < 4)
  | .noAtsAnswer pasid _ _ => decide (pasid < 2 ^ 20)
  | .cmdTailWrite _ | .commandRead | .evtHeadWrite _ | .attach _ | .detach _ | .streamHalt _ | .coreReset _ | .domainReset _
  | .clerkRestart _ _ | .domainCreate _ | .domainSet _ | .domainTeardown _ | .teardownDrained _ | .teardownComplete _ | .ownerEnrol _
  | .ownerRemove _ | .enrolQuery _ | .enrolCertify _ | .regionAssign _ | .regionAssignDone _ | .regionConvert _ | .regionReturn _
  | .regionQuery _ | .xlateInval _ | .xlateInvalDone _ | .xlateRoot _ | .placeRegister _ | .placeRemove _ | .bind _ | .bindComplete _
  | .unbind _ | .unbindDone _ | .queueCreate _ | .queueSet _ | .queueBind _ | .queueQuery _ | .queuePause _ | .queueResume _ | .queueRelease _
  | .queueReset _ | .queueResetDone _ | .queueDestroy _ | .queueDestroyDone _ | .ledgerAdmit _ | .ledgerQuery _ | .ledgerRetire _
  | .depotAlloc _ | .depotFree _ | .depotFreeDone _ | .tableOpen _ | .tableClose _ | .tableCloseDone _ | .cascadeRoster _ | .cascadeTrust _
  | .cascadeJob _ | .remoteBind _ | .remoteUnbind _ | .memberCommand _ | .slotWrite _ | .slotValidate _ | .slotRetire _ | .bootRecordWrite _
  | .epochCommit _ | .storeOperationDone _ | .bistCore _ | .bistCoreDrained _ _ | .bistTestDone _ _ _ _ | .bistQuery _ | .trimRead _
  | .trimWrite _ | .telemetryBind _ | .telemetryUnbind _ | .fwGo _ | .firmwareBlockArrival _ _ _ | .warmReset _ _ | .lockTables
  | .tablesCheckDone | .lockProtection | .lockRole | .tickCfgWrite _ _ _ | .dlHeadWrite _ | .prHeadWrite _ | .heartbeat _ | .mbistGo _
  | .mbistDone _ _ _ _ | .badWriteClear | .tickRefusedClear | .registerWrite _ _ _ _ | .cxlMemRead _ | .cxlMemWrite _ _ _ _ | .snpInv _
  | .snpData _ | .snpCur _ | .bisnpResponse _ | .peerRequest _ _ _ _ _ | .unsupportedRequest _ | .flr _ | .busMasterEnableClear _
  | .hostLinkDown _ | .lossTimerExpiry _ | .heartbeatLimitExpiry _ | .hostRequestSend _ _ | .flushReadComplete _
  | .hostPortWriteError _ | .internalTimerBoundary | .tickInEdge _ | .tickMissed | .sourceBoundary _ | .tickSourceLost _ | .quietMarginStart
  | .coalesceGroupClose _ _ | .tileCommandIssue _ | .irqModerationExpiry _ _ | .noMasterExpiry _ | .coldReset | .keyPortWord _
  | .keyPortTimeout _ | .bootWaitLoadEntry _ | .pfwNAssert _ | .powerFailStop _ | .powerFailFreeze _ | .powerEstimate _ _ _ | .dutyStep _
  | .tapScan _ | .pfwNLowPulse _ | .cxlIoReadCompletion _ _ => true

end Sys2Proof
end

