-- ==== Sys2Proof/Tests/Slice0.lean ====
section
/-! SUPPORT. Tests: for each obligation a state and operands that meet its hypotheses, clause by clause; a well-formed and
an ill-formed command for each check of WellFormed. -/

namespace Sys2Proof.Tests
open Sys2Proof Sys2Proof.Machine

set_option Elab.async false

/-- A change of everything but the settings, or of the settings. -/
def onM (s : State) (f : Mach → Mach) : State := { s with dev := { s.dev with m := f s.dev.m } }
def onC (s : State) (f : Cfg → Cfg) : State := { s with dev := { s.dev with cfg := f s.dev.cfg } }

/-- Bytes of `n`, with numbers put at offsets: (offset, size, value). -/
def image (n : Nat) (l : List (Nat × Nat × Nat)) : List Byte :=
  l.foldl (fun b p => b.take p.1 ++ toLe p.2.1 p.2.2 ++ b.drop (p.1 + p.2.1)) (List.replicate n 0)

/-- A command's entry: code, domain (0 for none), argument area, arguments. -/
def cmd (op dom area : Nat) (l : List (Nat × Nat × Nat)) : Cmd :=
  { bytes := image 64 ([(0, 2, op), (4, 4, 77), (8, 2, if dom = 0 then 0 else 0x8000 + dom), (0x10, 8, area)] ++ l)
    phase := 0, seq := 0, start := 0, arg := 0 }

/-- A queue of domain 1, EMPTY, with 16 entries. -/
def ctx1 : QCtx :=
  { ringBase := 0x1000, cplBase := 0x2000, ringLog2 := 4, cplLog2 := 4, rt := false, path := 0, coalesce := false, forwardable := false
    killAct := false, drop := false, feed := false, msixEn := true, dom := 1, vec := 5, timeout := 1000000, weight := 1, coalWin := 0
    aux := 0, parcel := 7, bound := true, mailbox := 0, state := qsEmpty, tail := 0, head := 0, cplTail := 0, cplHead := 0 }

/-- A running block: tables locked, domain 1 LIVE with granule 2, which its virtual page 0 maps; domain 0 has granule 1. -/
def s0 : State :=
  onC (onM State.reset fun m =>
    { m with
      boot := { m.boot with state := bsRunning }
      mem := { m.mem with granules := [(1, ⟨0, false⟩), (2, ⟨1, false⟩)] }
      doms := [(0, { state := 1 }), (1, { state := 1, coreLimit := 32, depotLimit := 100 })]
      xl := { m.xl with l2 := [⟨1, 2, 0, 0xF + 0x4000000⟩] }
      clerks := List.replicate 4 { running := true }
      queues := [(3, { ctx := ctx1 })] })
    fun c => { c with lockTables := true, lockProt := true, protG := 100 }

/-- A state with one command read under number 0. -/
def sC (s : State) (k : Cmd) : State := onM s fun m => { m with rings := { m.rings with cmds := [(0, k)] } }

/-- A command under way, with what its first row kept. -/
def going (k : Cmd) (arg : Nat) : Cmd := { k with phase := 1, arg := arg }

/-- Page tables of domain 1 in granule 1: virtual page 0 is granule 2. -/
def sPT : State := onM s0 fun m => { m with
  mem := { m.mem with cells := bwrite (bwrite (bwrite [] 0x2100000 (toLe 8 0x2110001)) 0x2110000 (toLe 8 0x2120001)) 0x2120000 (toLe 8 0x400000F) }
  doms := mset m.doms 1 { state := 1, root := 0x2100000, coreLimit := 32, depotLimit := 100 }
  xl := { m.xl with l2 := [] } }

/-- A stream of one FP32 element at virtual address 0, a halted stream, a placement region, a request of the host port. -/
def sd1 : Sd := ⟨0xC, 0, 0, 0, [1], [4], none, 0, 0, 0⟩
def halt1 : HaltRec := ⟨sd1, [0], 0, 3, 1, 0, false, none, 5⟩
def place1 : Place := ⟨1, 0, 0x2000000, 0, true, true, true, [(0, 0x4000000)]⟩
def req1 (kind who addr : Nat) : HpReq := { id := 9, kind := kind, addr := addr, data := [1, 2, 3, 4], len := 4, q := 3, core := none, deadline := 0, who := who, va := 0, desc := 0, dom := 1 }

/-- A host attached. -/
def sHost : State := onM s0 fun m => { m with hp := { m.hp with attached := true } }

/-- A tile-command of queue 3's descriptor 0 runs on core 0. -/
def tc1 : TileCmd :=
  { q := 3, desc := 0, tile := 0, tiles := 1, alt := false, wcet := 1000, issued := 0, halted := 0, mark := 0, ended := false, merged := 1
    rows := 1, params := [0x1000, 0, 0, 0], gang := 0, member := 0 }
def core1 : Core := { core0 with tc := some tc1, regs := { coreRegs0 with state := 1, dom := 1, dirty := true, clean := false } }
def sK (f : Core → Core) : State := onM s0 fun m => { m with cores := lupd m.cores 0 fun _ => f core1 }
def xK (f : Core → Core) : Core := f core1
/-- A queue of domain 1 that may be forwarded to. -/
def fwdQ : Queue := { ctx := { ctx1 with forwardable := true } }
/-- Its ring has one entry left. -/
def fullQ : Queue := { fwdQ with reserved := [(7, 15)] }
def withQ (s : State) (q : Nat) (y : Queue) : State := onM s fun m => { m with queues := mset m.queues q y }

/-- The value an access gave. -/
def okv {α : Type} (d : α) (r : Mach × Fe α) : α := match r.2 with
  | .ok v => v
  | _ => d

/-- The affine value of a literal; templates of FP32 elements in a space; SIDE supplies nothing. -/
def at0 (n : Nat) : Aff := ⟨.lit n, [], .lit 0⟩
def tm (space n : Nat) : Tmpl := { format := 0xC, space := space, counts := [n], strides := [4], base := at0 0 }
def tmF (fmt space n : Nat) : Tmpl := { format := fmt, space := space, counts := [n], strides := [1], base := at0 0 }
def rec5 (undrained : Bool) : OpRec := ⟨5, [1, 2], [], undrained⟩

/-- A core whose first S slot's queue is full; one with 16 reservations; one with an operation that uses user table 1. -/
def fFull (x : Core) : Core := { x with slots := lupd x.slots 0 fun _ => List.replicate 4 (rec5 false) }
def f16 (x : Core) : Core := { x with enqs := List.replicate 16 ⟨3, 0, 1, 0, 0, none, false⟩ }
def fUse (x : Core) : Core := { x with slots := lupd x.slots 5 fun _ => [⟨5, [], [2 ^ 20 + 1], false⟩] }

/-- Two cores of a gang; the second has sent a block that has data or none. -/
def gcore : Core := { core1 with tc := some { tc1 with gang := 1, member := 1 }, ringSizes := [(0, 256)] }
def sGang (d : List Byte) : State := onM s0 fun m => { m with
  cores := (lupd m.cores 0 fun _ => gcore) |> fun l => lupd l 1 fun _ =>
    { core1 with tc := some { tc1 with gang := 1 }, rings := [(8, [(0, d)])], wires := [(0, (1, 0))] } }

/-- An MMA of one product, its streams, a core that has them; a core whose result waits for its DRAIN. -/
def mma1 : MmaOp := { m := at0 1, k := at0 1, n := at0 1, stFmt := 0, mvFmt := 0 }
def sdM : Sd := sdOf core1 tc1 (tmF 0 1 1)
def fM (x : Core) : Core := { x with statSd := some sdM, moveSd := some sdM }
def resF (array : Bool) : Result := ⟨array, 0xC, [[1, 2]], []⟩
def fR (array : Bool) (x : Core) : Core :=
  { x with result := some (resF array), slots := lupd x.slots (if array then 4 else 5) fun _ => [rec5 true] }

/-- A window block of one tap over one input element; a core and a stream the Window Unit may work on. -/
def win1 : WinBlk := ⟨0, 0, 0, 0, 0x11, 0, 0, 0, 0, 0, 0, 0, 0, 0, 0, 0, 0, 0⟩
def tmW : Tmpl := { tm 1 1 with counts := [1, 1, 1, 1], strides := [4, 4, 4, 4], win := some win1 }
def elem0 : ElemSrc := {}
def geoW : Geo := sdGeo (sdOf core1 tc1 tmW) win1
/-- A core with a usable segment table. -/
def fT (x : Core) : Core := { x with tables := [(1, image 1036 [(1032, 4, 0x3F800000)])] }

/-- A state that waits for an image; one whose store runs a command's last operation. -/
def sWait : State := onM s0 fun m => { m with boot := { m.boot with state := bsWaitLoad } }
def sLoad : State := onM s0 fun m => { m with boot := { m.boot with state := bsLoading, loading := true } }
def sStore (k : Cmd) (arg : Nat) : State :=
  onM (sC s0 (going k arg)) fun m => { m with store := { m.store with present := true, busy := some 0 } }

/-- A store that is present, at a committed epoch, and a command for it. -/
def sStored (k : Cmd) : State :=
  onM (sC s0 k) fun m => { m with store := { m.store with present := true }, boot := { m.boot with epoch := 1 } }

/-- The start of a trim set of stepping 0x20 whose fields are all in range; the rest of it is 0. -/
def trim1 : List Byte := image 0xF0 ([(0, 4, 0x4D495254), (4, 2, 1), (6, 1, 0x20)]
  ++ (List.range 32).map (fun i => (0x30 + 2 * i, 2, 100)) ++ (List.range 16).map fun i => (0xB0 + 4 * i, 4, 600 * 65536 + 112 + i))

/-- The context image of a new queue stands in the argument area; a queue of a state. -/
def sImg : State := onM s0 fun m => { m with mem := { m.mem with cells := bwrite [] 0x3000000 (ctxBytes { ctx1 with parcel := 0 }) } }
def queue1 : Queue := { ctx := ctx1 }
def queueIn (st : Nat) : Queue := { ctx := { ctx1 with state := st } }
def parcel1 : Parcel := ⟨1, 0x10000, 0x2000, [(0x4010000, 0x2000)], [], [], [], false, []⟩
def sParcel : State := onM s0 fun m => { m with parcels := [(7, parcel1)] }
/-- Ledger terms: budget, WMAX, divisor 64, phase 63. -/
def termArgs : List (Nat × Nat × Nat) := [(0x18, 2, 4095), (0x20, 8, 2000), (0x28, 4, 1000), (0x2C, 1, 64), (0x2D, 1, 63), (0x2E, 2, 1)]
def entry1 : LedgerE := { terms := ⟨2000, 1000, 64, 63, 1, 979⟩, balance := 2000 }
def sLedger : State := onM s0 fun m => { m with ledger := [(4095, entry1)] }
def region1 : Region := ⟨1, 65536, 1, [0], false, []⟩
def table1 : List Byte := image 64 [(0, 8, 0x1000), (8, 4, 15), (0xC, 2, 32), (0xE, 1, 2), (0x10, 8, 32), (0x18, 2, 1)]

/-- A cascade engine of a role, its port 3 up, with one peer there. -/
def sCas (role : Nat) (x : Peer) : State :=
  onC (onM s0 fun m => { m with links := lupd m.links 3 fun l => { l with macUp := true, peers := [x] } })
    fun c => { c with lockRole := true, links := (lupd c.links 0 fun l => { l with role := role }).map fun l => { l with enable := true, mac := 5 } }
def peerIn (e state : Nat) : Peer := { mac := 9, engine := some e, state := state }
def linkOf (x : Peer) : Link := { macUp := true, peers := [x] }
def hello1 : Hello := ⟨1, 1, 15, 3, 1, 1, 1, 9, 0⟩
def head1 (type dst src len : Nat) : KHead := { type := type, dst := dst, src := src, len := len, seq := 0, ack := 0 }
def frame1 : Frame := { head := head1 1 15 0 4, data := [1, 2, 3, 4] }
def bind1 (recv : Bool) : Bind := ⟨3, recv, 3, 15, 8, 32, 0, []⟩

/-- Descriptors: bytes of 128, a RUN of parcel 7, a COPY within domain 1, a FENCE; a descriptor a queue has fetched, in queue 3. -/
def runBytes : List Byte := image 128 [(0, 1, 1), (4, 4, 0xAA), (8, 2, 7), (0x10, 8, 0x4000)]
def copyBytes : List Byte := image 128 [(0, 1, 2), (4, 4, 0xBB), (0x10, 8, 0x5000), (0x18, 8, 0x6001), (0x20, 8, 100)]
def descOf (b : List Byte) (phase : Nat) : Desc := { desc0 ctx1 b 0 0 with phase := phase }
def withD (s : State) (y : QCtx) (x : Desc) : State := withQ s 3 { ctx := y, nextId := 1, descs := [(0, x)] }

/-- A published descriptor of queue 3; what its reads give. -/
def yF : Queue := { ctx := { ctx1 with state := qsReady, tail := 1 } }
def sF (b : List Byte) : State := withQ (onM s0 fun m => { m with mem := { m.mem with cells := bwrite [] 0x4001000 b } }) 3 yF
def rF (b : List Byte) : Mach × Fe (List Byte) := feRead (sF b).c 3 1 0x1000 128 (loadCtx (sF b).c 3 1 (tickTo 0 (sF b).q))
def hF (b : List Byte) : Mach × Fe (Option Held) := holdCpl (sF b).c 3 yF (rF b).1
def dF (b : List Byte) : Mach × Fe Desc := copyStreams (sF b).c 3 1 { desc0 yF.ctx b 0 0 with cplHeld := okv none (hF b) } (hF b).1
def xF (b : List Byte) : Desc := okv (desc0 yF.ctx b 0 0) (dF b)
def gF (b : List Byte) : Mach × Fe (List Held) := holdAll (sF b).c 3 1 (heldRanges (sF b).c (dF b).1 yF.ctx (xF b)) (dF b).1
/-- A pending submission of a queue of path 2. -/
def yM : Queue := { ctx := { ctx1 with path := 2, rt := true, mailbox := 4095, aux := 0x3000, state := qsReady } }
def bM : Mbx := { seq := 5, pending := some (5, 1) }
def sM : State := withQ (onM s0 fun m => { m with mbx := [(4095, bM)] }) 3 yM
def rM : Mach × Fe (List Byte) := feRead sM.c 3 1 0x3000 128 (loadCtx sM.c 3 1 (tickTo 0 sM.q))

/-- The same with STANDING a RUN whose slot 5 receives the landing. -/
def standBytes : List Byte := image 128 [(0, 1, 1), (4, 4, 0xAA), (8, 2, 7), (0xE, 1, 0x85), (0x10, 8, 0x4000)]
def sM2 : State := onM sM fun m => { m with mem := { m.mem with cells := bwrite [] 0x4003000 standBytes } }
def rM2 : Mach × Fe (List Byte) := feRead sM2.c 3 1 0x3000 128 (loadCtx sM2.c 3 1 (tickTo 0 sM2.q))
def hM2 : Mach × Fe (Option Held) := holdCpl sM2.c 3 yM rM2.1
def x0M2 : Desc := { desc0 yM.ctx standBytes 0xFFFF 0 with seq := some 5, landing := landingVa 0x3000 1, cplHeld := okv none hM2 }
def dM2 : Mach × Fe Desc := copyStreams sM2.c 3 1 x0M2 hM2.1
def xM2 : Desc := okv x0M2 dM2
def gM2 : Mach × Fe (List Held) := holdAll sM2.c 3 1 (heldRanges sM2.c dM2.1 yM.ctx xM2) dM2.1

/-- The premises of LayersArePresented and of SortingOfficeOperations that their clauses share. -/
def turn (s : State) (q d t : Nat) (y : Queue) (x : Desc) (m : Mach) : Prop :=
  live s = true ∧ qGet s.q q = some y ∧ descGet s.q q d = some x ∧ x.phase = 0 ∧ x.isRun = true ∧ goesOn y = true ∧ depsMet s.q q d = true
    ∧ earlierAt y d 1 = true ∧ recWaits y d x = false ∧ m = (x.pool.map fun p => poolTag s.c p (tickTo t s.q)).getD (tickTo t s.q)
def enters (s : State) (q d : Nat) (x : Desc) : Prop :=
  live s = true ∧ descGet s.q q d = some x ∧ wantsOffice s.q q d x = true ∧ othersFirst s.q q d x = false ∧ s.m.depot.ops.length < 16
    ∧ s.m.power.fail = 0
/-- A layer record: tile-commands, worst case, gang, flags. Queue 3 runs a descriptor of a parcel with it. -/
def lrec (tiles wcet gang flags : Nat) : List Byte := image 64 [(4, 4, tiles), (8, 4, wcet), (0xC, 4, wcet), (0x10, 4, 1), (0x1C, 2, gang), (0x1E, 2, flags)]
def ctxR : QCtx := { ctx1 with state := qsRunning }
def yL (x : Desc) : Queue := { ctx := ctxR, nextId := 1, descs := [(0, x)] }
def sL (r : List Byte) (x : Desc) : State :=
  onM (withD s0 ctxR x) fun m => { m with parcels := [(7, { parcel1 with records := [r] })] }
def reads (s : State) (x : Desc) := presentReads s.c 3 0 x (tickTo 0 s.q)

/-- A layer that issues: its descriptor, its state with core 31 kept for it or no core kept. -/
def xI : Desc := { descOf runBytes 2 with tiles := 2, wcet := 2000, altTiles := 1, altWcet := 2000 }
def sI (gang : Nat) (kept : List Nat) : State :=
  onM (sL (lrec 2 2000 gang 0) xI) fun m => { m with sched := { m.sched with chosen := kept.map fun k => (k, 3, 0) } }
def mI (gang : Nat) (kept : List Nat) : Mach := tidy (sI gang kept).c (tickTo 0 (sI gang kept).q)
def candI (gang : Nat) (kept : List Nat) : Option Cand :=
  candOf (sI gang kept).c { mI gang kept with sched := { (mI gang kept).sched with chosen := [] } } 3 0
def keptI : Option (Nat × Cand) := readyKept (sI 0 [31]).c (mI 0 [31])
theorem keptI_some : keptI.isSome = true := by decide +kernel
def choiceI : Mach × Option (Cand × List Nat) := choose (sI 0 []).c (mI 0 [])
theorem choiceI_some : choiceI.2.isSome = true := by decide +kernel
theorem candI_some : (candI 2 [30, 31]).isSome = true := by decide +kernel
theorem choiceI_eq : choose (sI 0 []).c (mI 0 []) = (choiceI.1, some ((choiceI.2.get choiceI_some).1, [0])) := by
  have h : (choiceI.2.get choiceI_some).2 = [0] := by decide +kernel
  rw [← h]
  exact Prod.ext rfl (Option.some_get _).symm

/-- A RUN that updates a history record at 0x8000; a RUN with a pool. -/
def histBytes : List Byte := image 128 [(0, 1, 1), (8, 2, 7), (0xC, 1, 2), (0x40, 8, 0x8000), (0x48, 1, 1), (0x49, 1, 132)]
def poolBytes : List Byte := image 128 [(0, 1, 1), (8, 2, 7), (0xC, 1, 4), (0x40, 2, 4095), (0x48, 8, 0x4000)]
def xH : Desc := { descOf histBytes 3 with held := [⟨0x8000, 0x4008000, none, 0, false, true, true⟩] }
def xP : Desc := { descOf poolBytes 3 with gather := 5 }
/-- The pool's live map at virtual address 0x100. -/
def sP : State := onC (onM (withD s0 ctxR xP) fun m => { m with
  mem := { m.mem with cells := bwrite [] (0x3000000 + 64 * 4095) (image 64 [(8, 4, 64), (0xC, 4, 8), (0x18, 8, 0x100)]) } })
  fun c => { c with tb := { c.tb with pool := 0x3000000 } }
def rP : Mach × Fe (List Byte) := feRead sP.c 3 (qDom sP.m 3) (plLive (poolEntry sP.c sP.m 4095)) (liveLen (poolEntry sP.c sP.m 4095)) sP.q
def wP : Mach × Fe Unit := soWrite sP.c 3 0
  [(0, plLive (poolEntry sP.c sP.m 4095), liveSet false (((xP.params.drop 64).filter meLeave).map meSlot) (okv [] rP))] rP.1
/-- A tile-command that has ended, with the layer it serves. -/
def cE : Core := { core1 with tc := some { tc1 with ended := true }, clip := 7 }
def xE : Desc := { descOf runBytes 2 with running := 1 }
/-- A ready record's completion entry. -/
def heldC : Held := ⟨0x2000, 0x4002000, none, 0, false, true, true⟩
def xC : Desc := { descOf copyBytes 4 with record := some (stOk, 0), cplHeld := some heldC }
def yC : Queue := { ctx := { ctxR with cplTail := 1 }, nextId := 1, descs := [(0, xC)] }
/-- Small descriptors of queue 3: a FENCE on postmarks and on queue 8, an ENQUEUE-TARGET to queue 8. -/
def fenceOf (v jobs : Nat) : Desc := descOf (image 128 [(0, 1, 3), (8, 4, v), (0x10, 8, jobs)]) 0
def xT : Desc := descOf (image 128 [(0, 1, 4), (8, 4, 8)] ++ runBytes) 0
def sT : State := withQ (withD s0 ctxR xT) 8 fwdQ
/-- A COPY of queue 3, waiting or running in the Sorting Office. -/
def xS : Desc := descOf copyBytes 0
def opS : SoOp := ⟨3, 0, 0, 5000, stOk, 0, []⟩
def sS (f : Mach → Mach) : State := onM (withD s0 ctxR { xS with so := true }) fun m => f { m with depot := { m.depot with ops := [opS] } }
def bS : Mach × Fe ((Nat × Nat) ⊕ (Nat × Nat)) := officeBound (withD s0 ctxR xS).c 3 0 xS (tickTo 0 (withD s0 ctxR xS).q)
def pS : Mach × Fe Plan := officePlan (sS id).c 3 0 { xS with so := true } (tickTo 0 (sS id).q)
/-- Requests at an arbitration point and at a memory port. -/
def reqA (point who deadline : Nat) : Req :=
  { point := point, who := who, unit := 1, deadline := deadline, addr := 0x4000000, lines := 2, write := false, dom := 1, q := 3, op := 6 }

/-- What loads of the table and the copies read. -/
def ld (t : Tmpl) (n : Nat) : Mach × Fe (List Byte × LineTab) :=
  srcBytes (sK id).c (acsOf (sK id).q 0 3 tc1 (sdOf core1 tc1 t)) (pieces (sdOf core1 tc1 t) n) (sK id).q
def rdF : Mach × Fe (List Nat × LineTab) :=
  readCodes (sK id).c (acsOf (sK id).q 0 2 tc1 (sdOf core1 tc1 (tm 0 2))) (sdCount (sdOf core1 tc1 (tm 0 2))) (sK id).q
def dsF : Mach × Fe LineTab :=
  dstReady (sK id).c (acsOf (sK id).q 0 2 tc1 (sdOf core1 tc1 (tm 1 2))) (pieces (sdOf core1 tc1 (tm 1 2)) (sdCount (sdOf core1 tc1 (tm 0 2))))
    (pack (sdOf core1 tc1 (tm 1 2)) (pieces (sdOf core1 tc1 (tm 1 2)) (sdCount (sdOf core1 tc1 (tm 0 2)))) (okv ([], []) rdF).1) rdF.1
def tmCb : Tmpl := { tm 1 256 with format := 0xB, strides := [2] }
def rdM : Mach × Fe (List (List Byte × LineTab)) :=
  readAll (sK fM).c 0 tc1 (mmaPlan (sK fM).q (fM core1) tc1 mma1 sdM sdM noSide).wants (sK fM).q
def drR : Mach × Fe (List (Sd × List Nat × LineTab)) :=
  partsGo (sK (fR true)).c 0 tc1 (drainParts (sK (fR true)).q (fR true core1) tc1 (tm 1 2) (resF true)
    ++ drainScales (fR true core1) tc1 none (resF true)) (sK (fR true)).q
/-- A BIND under way, its destination sealed; what its check says of a parcel of zeros. -/
def kB : Cmd := cmd 0x300 1 0 [(0x18, 8, 0x1000), (0x20, 8, 0x10000), (0x28, 8, 0x2000)]
def sSeal : State := onM s0 fun m => { m with mem := { m.mem with granules := [(1, ⟨0, false⟩), (2, ⟨1, true⟩)] } }
def rB : Mach × Fe (Except Nat Bound) := bindCheck s0.c 1 0x1000 0x2000 (sC sSeal (going kB 1)).q
/-- Tables in granules of domain 0, the check of which has begun. -/
def sTab : State :=
  onC (onM s0 fun m => { m with lockBusy := true, mem := { m.mem with granules := [(1, ⟨0, false⟩), (4, ⟨0, true⟩), (5, ⟨0, true⟩), (6, ⟨0, true⟩)] } })
    fun c => { c with lockTables := false, tb := { c.tb with ctx := 0x8000000, cnt := 0xC000000, dom := 0xD000000, feed := 0x3000000, pool := 0x3010000, dl := 0x3080000, dlLog2 := 6, pr := 0x3090000, prLog2 := 10 } }
/-- Queue 3 is real-time and its entry holds a balance; settings of a tick of a source. -/
def x1 : Desc := { descOf runBytes 1 with tiles := 2, wcet := 1000 }
def yR : Queue := { ctx := { ctxR with rt := true }, nextId := 1, descs := [(0, x1)] }
def entryB (b : Nat) : LedgerE := { entry1 with queue := some 3, running := true, balance := b }
def sRt (b : Nat) : State :=
  onM (withQ s0 3 yR) fun m => { m with tick := { m.tick with partialTick := false }, ledger := [(4095, entryB b)] }
def sSrc (src : Nat) (part : Bool) : State :=
  onM s0 fun m => { m with tick := { m.tick with cfg := { m.tick.cfg with src := src }, partialTick := part } }
/-- Layers about to be presented: one that fits, one that no tick holds, one whose feed is empty; what the presentation reads. -/
def x0 : Desc := descOf runBytes 0
def x6 : Desc := { x0 with frames := [⟨0, 0, 0, 0, stEmptyOutput⟩] }
def sL0 : State := sL (lrec 2 2000 0 0) x0
def sLx : State := sL (lrec 2 2000000 0 0) x0
def sL6 : State := sL (lrec 2 2000 0 0) x6
def gotL (s : State) (x : Desc) : List (List Byte) × (List Byte × List Nat × List Byte) × List Byte := okv ([], ([], [], []), []) (reads s x)
/-- A tick too short for any operation of the Sorting Office. -/
def sSh : State := onM (withD s0 ctxR xS) fun m => { m with tick := { m.tick with cfg := { m.tick.cfg with period := 20 } } }
def bSh : Mach × Fe ((Nat × Nat) ⊕ (Nat × Nat)) := officeBound sSh.c 3 0 xS (tickTo 0 sSh.q)
def inrOf (r : Mach × Fe ((Nat × Nat) ⊕ (Nat × Nat))) : Nat × Nat := match r.2 with
  | .ok (.inr p) => p
  | _ => (0, 0)

/-- What FirmwareLoad and StoreCommands name: a state that loads, one whose driver gives blocks, an idle store. -/
def loads (s : State) : Prop := s.m.boot.state = bsWaitLoad ∨ s.m.boot.state = bsFailed ∨ s.m.boot.state = bsRecovery
def driver (s : State) : Prop := s.m.boot.state = bsLoading ∧ s.m.boot.loading = true ∧ (s.m.boot.source = 0 ∨ s.m.boot.source = 3)
    ∧ s.m.boot.imageReq = none
def header (s : State) (h : List Byte) : List Byte := if s.m.boot.nextBlock = 0 then h else s.m.boot.header
def named (s : State) (h : List Byte) : List Byte := if s.m.boot.nextBlock = 0 then (h.drop 0x20).take 48 else s.m.boot.hash
/-- A load that has taken one block, and awaits the block `b` as the second of `n`. -/
def sFw (b : List Byte) (n : Nat) : State :=
  onM sLoad fun m => { m with boot := { m.boot with nextBlock := 1, hash := sha384 b, header := image 16 [(6, 2, n)] } }
theorem sFw_driver (b : List Byte) (n : Nat) : driver (sFw b n) := ⟨rfl, rfl, .inl rfl, rfl⟩
theorem sFw_named (b : List Byte) (n : Nat) : named (sFw b n) [] = sha384 b := rfl
def idle (s : State) : Prop := s.m.store.busy = none ∧ s.m.power.fail = 0 ∧ s.m.store.present = true
def masters (s : State) (n : TickCfg) : Prop :=
  (s.c.links[0]?).any (·.role == 1) = true ∧ s.c.tick.src = 2 ∧ (n.period ≠ s.c.tick.period ∨ n.quiet ≠ s.c.tick.quiet)
/-! ### The premises of the obligations -/
theorem test_DomainCommandsWriteEntry :
    (∃ s id k, accepted 0x100 id (fun _ => 0) domCreateChecks s k = true)
    ∧ (∃ s id k, accepted 0x101 id (fun _ => 0) domainSetChecks s k = true)
    ∧ (∃ s id k, accepted 0x103 id (fun _ => 96) ownerEnrolChecks s k = true)
    ∧ ∃ s id k, accepted 0x104 id (fun _ => 0) ownerRemoveChecks s k = true :=
  ⟨⟨sC s0 (cmd 0x100 2 0 [(0x18, 8, 0x10000), (0x25, 1, 4), (0x28, 4, 8)]), 0, (cmd 0x100 2 0 [(0x18, 8, 0x10000), (0x25, 1, 4), (0x28, 4, 8)]), by decide +kernel⟩,
   ⟨sC s0 (cmd 0x101 1 0 [(0x25, 1, 4), (0x2C, 1, 2)]), 0, (cmd 0x101 1 0 [(0x25, 1, 4), (0x2C, 1, 2)]), by decide +kernel⟩,
   ⟨sC s0 (cmd 0x103 1 0x3000000 []), 0, (cmd 0x103 1 0x3000000 []), by decide +kernel⟩,
   ⟨sC (onM s0 fun m => { m with doms := mset m.doms 1 { state := 1, owners := [some 5, none, none, none] } }) (cmd 0x104 1 0 [(0x18, 1, 0)]), 0, (cmd 0x104 1 0 [(0x18, 1, 0)]), by decide +kernel⟩⟩

theorem test_RegionCommandsSetOwners :
    (∃ s id k, accepted 0x200 id (fun _ => 0) regionAssignChecks s k = true)
    ∧ (∃ s id k, continues 0x200 id s k = true)
    ∧ (∃ s id k, accepted 0x201 id (fun _ => 0) regionConvertChecks s k = true)
    ∧ (∃ s id k, accepted 0x202 id (fun _ => 0) regionReturnChecks s k = true)
    ∧ ∃ s id k, accepted 0x203 id (fun k => 4 * k.argN 0x1C 4) regionQueryChecks s k = true ∧ k.relay = none
      ∧ (k.argAddr + 4 * k.argN 0x1C 4 ≤ evtRing ∨ evtRing + 64 * 4096 ≤ k.argAddr) ∧ lineBusy s.q k.argAddr (4 * k.argN 0x1C 4) = false :=
  ⟨⟨sC s0 (cmd 0x200 1 0 [(0x18, 4, 3), (0x1C, 4, 2), (0x20, 1, 1)]), 0, (cmd 0x200 1 0 [(0x18, 4, 3), (0x1C, 4, 2), (0x20, 1, 1)]), by decide +kernel⟩,
   ⟨sC s0 (going (cmd 0x200 1 0 [(0x18, 4, 3), (0x1C, 4, 2), (0x20, 1, 1)]) 1), 0, (going (cmd 0x200 1 0 [(0x18, 4, 3), (0x1C, 4, 2), (0x20, 1, 1)]) 1), by decide +kernel⟩,
   ⟨sC s0 (cmd 0x201 1 0 [(0x18, 4, 2), (0x1C, 4, 1), (0x20, 1, 1)]), 0, (cmd 0x201 1 0 [(0x18, 4, 2), (0x1C, 4, 1), (0x20, 1, 1)]), by decide +kernel⟩,
   ⟨sC s0 (cmd 0x202 1 0 [(0x18, 4, 2), (0x1C, 4, 1)]), 0, (cmd 0x202 1 0 [(0x18, 4, 2), (0x1C, 4, 1)]), by decide +kernel⟩,
   ⟨sC s0 (cmd 0x203 0 0x3000000 [(0x18, 4, 0), (0x1C, 4, 16)]), 0, (cmd 0x203 0 0x3000000 [(0x18, 4, 0), (0x1C, 4, 16)]), by decide +kernel⟩⟩

theorem test_TeardownAndResetRows :
    (∃ s id k, accepted 0x102 id (fun _ => 0) domainTeardownChecks s k = true)
    ∧ (∃ s id k, continues 0x102 id s k = true ∧ (domE s.q k.dom).tearStep = 0 ∧ drained s.q k.dom = true ∧ unscrubbed s.q k.dom = true)
    ∧ (∃ s id k, continues 0x102 id s k = true ∧ (((domE s.q k.dom).tearStep = 0 ∧ drained s.q k.dom = true) ∨ (domE s.q k.dom).tearStep = 1)
      ∧ unscrubbed s.q k.dom = false)
    ∧ (∃ s id k, continues 0x102 id s k = true ∧ (domE s.q k.dom).tearStep ≠ 0 ∧ unscrubbed s.q k.dom = false)
    ∧ (∃ s id k, accepted 0x0005 id (fun _ => 0) domainResetChecks s k = true ∧ (domE s.q k.dom).state ≠ 2)
    ∧ ∃ s id k, accepted 0x0004 id (fun _ => 0) coreResetChecks s k = true ∧ s.m.st.core ≠ some (k.argN 0x18 1) :=
  ⟨⟨sC s0 (cmd 0x102 1 0 []), 0, (cmd 0x102 1 0 []), by decide +kernel⟩,
   ⟨sC (onM (onM (onM s0 fun m => { m with queues := [] }) fun m => { m with doms := mset m.doms 1 { state := 2 } }) fun m => { m with cores := lupd m.cores 31 fun x => { x with regs := { x.regs with dom := 1, clean := false, dirty := true } } }) (going (cmd 0x102 1 0 []) 1), 0, (going (cmd 0x102 1 0 []) 1), by decide +kernel⟩,
   ⟨sC (onM (onM s0 fun m => { m with queues := [] }) fun m => { m with doms := mset m.doms 1 { state := 2 } }) (going (cmd 0x102 1 0 []) 1), 0, (going (cmd 0x102 1 0 []) 1), by decide +kernel⟩,
   ⟨sC (onM (onM s0 fun m => { m with queues := [] }) fun m => { m with doms := mset m.doms 1 { state := 2, tearStep := 2 } }) (going (cmd 0x102 1 0 []) 1), 0, (going (cmd 0x102 1 0 []) 1), by decide +kernel⟩,
   ⟨sC s0 (cmd 0x005 1 0 []), 0, (cmd 0x005 1 0 []), by decide +kernel⟩,
   ⟨sC s0 (cmd 0x004 0 0 [(0x18, 1, 31)]), 0, (cmd 0x004 0 0 [(0x18, 1, 31)]), by decide +kernel⟩⟩

theorem test_TranslationRows :
    (∃ (s : _) (q : _) (va : _) (w : Bool) (f : Bool) (x : _) (l : _) (p : _), live s = true ∧ qGet s.q q = some x
      ∧ walkCached s.c s.q x.ctx.dom va = .leaf l p ∧ pteAllows (if f then Acc.fetch else if w then Acc.write else Acc.read) p = true)
    ∧ (∃ s id k, accepted 0x204 id (fun _ => 0) xlateInvalChecks s k = true)
    ∧ (∃ s id k, live s = true ∧ mget s.m.rings.cmds id = some k ∧ (k.opcode = 0x204 ∨ k.opcode = 0x205) ∧ k.phase = 1 ∧ clerkRuns s.q 1 = true
      ∧ (requestsOut s.q k.dom (if k.opcode = 0x205 ∨ k.argN 0x2C 1 = 1 then 0 else k.argN 0x18 8) (if k.opcode = 0x205 ∨ k.argN 0x2C 1 = 1 then none else some (k.argN 0x20 8)) = false))
    ∧ (∃ s id k, accepted 0x205 id (fun _ => 0) xlateRootChecks s k = true)
    ∧ (∃ s id k ps, accepted 0x206 id (fun _ => 0) placeChecks s k = true
      ∧ placePages s.c s.q k.dom (k.argN 0x18 8) (k.argN 0x20 8) (k.argN 0x2C 1 % 2 = 1) (2 ≤ k.argN 0x2C 1) = some ps)
    ∧ (∃ s id k, accepted 0x207 id (fun _ => 0) placeRemoveChecks s k = true)
    ∧ ∃ s id k l, accepted 0x0003 id (fun k => 256 * k.argN 0x1C 2) streamHaltChecks s k = true ∧ k.relay = none
      ∧ l = ((s.m.cores.zipIdx.flatMap fun x => (x.1.halts.filter fun h => h.q == k.argN 0x18 4).map fun h => haltBytes x.2 h).take (k.argN 0x1C 2)).flatten
      ∧ (k.argAddr + l.length ≤ evtRing ∨ evtRing + 64 * 4096 ≤ k.argAddr) ∧ lineBusy s.q k.argAddr l.length = false :=
  ⟨⟨sPT, 3, 0x1FFFFFF, true, false, { ctx := ctx1 }, 2, 0x400000F, by decide +kernel⟩,
   ⟨sC s0 (cmd 0x204 1 0 [(0x28, 4, 1), (0x2C, 1, 1)]), 0, (cmd 0x204 1 0 [(0x28, 4, 1), (0x2C, 1, 1)]), by decide +kernel⟩,
   ⟨sC s0 (going (cmd 0x204 1 0 [(0x28, 4, 1), (0x2C, 1, 1)]) 1), 0, (going (cmd 0x204 1 0 [(0x28, 4, 1), (0x2C, 1, 1)]) 1), by decide +kernel⟩,
   ⟨sC s0 (cmd 0x205 1 0 [(0x18, 8, 0x2200000), (0x28, 4, 1)]), 0, (cmd 0x205 1 0 [(0x18, 8, 0x2200000), (0x28, 4, 1)]), by decide +kernel⟩,
   ⟨sC sPT (cmd 0x206 1 0 [(0x20, 8, 0x2000000), (0x28, 4, 0x80000000), (0x2C, 1, 3)]), 0, (cmd 0x206 1 0 [(0x20, 8, 0x2000000), (0x28, 4, 0x80000000), (0x2C, 1, 3)]), [(0, 0x4000000)], by decide +kernel⟩,
   ⟨sC (onM s0 fun m => { m with hp := { m.hp with place := [(255, place1)] } }) (cmd 0x207 0 0 [(0x18, 2, 255)]), 0, (cmd 0x207 0 0 [(0x18, 2, 255)]), by decide +kernel⟩,
   ⟨sC (onM s0 fun m => { m with cores := lupd m.cores 0 fun x => { x with halts := [halt1] } }) (cmd 0x003 0 0x3000000 [(0x18, 4, 3), (0x1C, 2, 1)]), 0, (cmd 0x003 0 0x3000000 [(0x18, 4, 3), (0x1C, 2, 1)]), haltBytes 0 halt1, by decide +kernel⟩⟩

theorem test_HostMemoryAccesses :
    (∃ s a l, live s = true ∧ hostLine s.c a = true ∧ hostView s.q a = (l, false) ∧ s.m.hp.filter.length < 1048576)
    ∧ (∃ (s : _) (a : _) (off : _) (data : List Byte) (g : _), live s = true ∧ hostLine s.c a = true ∧ data ≠ [] ∧ off + data.length ≤ 64
      ∧ mget s.m.mem.granules (granOf a) = some g ∧ g.sealed = false ∧ mhas s.m.mem.bad (a / 64) = false)
    ∧ (∃ (s : _) (a : _) (off : _) (data : List Byte) (g : _), live s = true ∧ hostLine s.c a = true ∧ data ≠ [] ∧ off + data.length ≤ 64
      ∧ mget s.m.mem.granules (granOf a) = some g ∧ g.sealed = true)
    ∧ (∃ s, live s = true)
    ∧ ∃ s a b l, live s = true ∧ s.m.hp.late = [(b, l)] ∧ l ≠ [] ∧ inImage s.q b l.length = false ∧ ((∀ x ∈ hostHolds s.q b l.length, x = a / 64)) :=
  ⟨⟨s0, 0x4000040, (hostView s0.q 0x4000040).1, by decide +kernel⟩,
   ⟨s0, 0x4000000, 63, [1], ⟨1, false⟩, by decide +kernel⟩,
   ⟨(onM s0 fun m => { m with mem := { m.mem with granules := [(2, ⟨1, true⟩)] } }), 0x4000000, 63, [1], ⟨1, true⟩, by decide +kernel⟩,
   ⟨s0, by decide +kernel⟩,
   ⟨(onM s0 fun m => { m with hp := { m.hp with filter := [0x100001], late := [(0x4000040, [7])] } }), 0x4000040, 0x4000040, [7], by decide +kernel⟩⟩

theorem test_SnoopsFillsAndPeers :
    (∃ s, live s = true)
    ∧ (∃ s a x, live s = true ∧ x ∈ s.m.depot.lines ∧ x.addr = a / 64 * 64 ∧ x.shared = false)
    ∧ (∃ s, live s = true)
    ∧ (∃ s, live s = true)
    ∧ (∃ s d a r, live s = true ∧ s.m.hp.sent.find? (fun r => r.kind == 3 && r.addr == a / 64 * 64 && r.dom == d) = some r ∧ s.c.tb.partH ≠ 0
      ∧ s.m.hp.dropped.contains (d, a / 64 * 64) = false)
    ∧ (∃ s d a r, live s = true ∧ s.m.hp.sent.find? (fun r => r.kind == 3 && r.addr == a / 64 * 64 && r.dom == d) = some r ∧ s.c.tb.partH ≠ 0
      ∧ s.m.hp.dropped.contains (d, a / 64 * 64) = true)
    ∧ (∃ s id r, live s = true ∧ s.m.hp.sent.find? (fun r => r.id == id && r.kind == 1) = some r ∧ r.core = none)
    ∧ (∃ (s : _) (req : _) (a : _) (data : List Byte) (p : _), live s = true ∧ data ≠ []
      ∧ s.m.hp.place.find? (fun p => data.length ≠ 0 && placeTakes p.2 req true a data.length) = some p
      ∧ writeChk s.m.mem p.2.dom a data.length = .ok ∧ lineBusy s.q a data.length = false)
    ∧ (∃ s req a len p, live s = true ∧ len ≠ 0 ∧ s.m.hp.place.find? (fun p => len ≠ 0 && placeTakes p.2 req false a len) = some p
      ∧ badIn s.m.mem a len = none ∧ hostHolds s.q a len = [])
    ∧ ∃ s, live s = true :=
  ⟨⟨s0, by decide +kernel⟩,
   ⟨(onM s0 fun m => { m with depot := { m.depot with lines := [⟨1, 0x1000, false, []⟩] } }), 0x1005, ⟨1, 0x1000, false, []⟩, by decide +kernel⟩,
   ⟨s0, by decide +kernel⟩,
   ⟨s0, by decide +kernel⟩,
   ⟨(onM s0 fun m => { m with hp := { m.hp with sent := [req1 3 0 0x1000] } }), 1, 0x1005, req1 3 0 0x1000, by decide +kernel⟩,
   ⟨(onM s0 fun m => { m with hp := { m.hp with sent := [req1 3 0 0x1000], dropped := [(1, 0x1000)] } }), 1, 0x1005, req1 3 0 0x1000, by decide +kernel⟩,
   ⟨(onM s0 fun m => { m with hp := { m.hp with sent := [req1 1 0 0x1000] } }), 9, req1 1 0 0x1000, by decide +kernel⟩,
   ⟨(onM s0 fun m => { m with hp := { m.hp with place := [(0, place1)] } }), 8, 0x5FFFFFF, [1], (0, place1), by decide +kernel⟩,
   ⟨(onM s0 fun m => { m with hp := { m.hp with place := [(0, place1)] } }), 8, 0x4000000, 1, (0, place1), by decide +kernel⟩,
   ⟨s0, by decide +kernel⟩⟩

theorem test_TranslationServices :
    (∃ s, live s = true)
    ∧ (∃ s pasid va rd wr r, live s = true ∧ s.m.xl.ats.find? (fun r => r.pasid == pasid && r.page == hostPage va && r.sent.isSome) = some r
      ∧ (if r.wr then wr else rd) = true)
    ∧ (∃ s pasid va r n, live s = true ∧ s.m.xl.ats.find? (fun r => r.pasid == pasid && r.page == hostPage va && r.sent.isSome) = some r
      ∧ r.waiters ≠ [] ∧ prgFree s.q = some n)
    ∧ (∃ s pasid va r, live s = true ∧ s.m.xl.ats.find? (fun r => r.pasid == pasid && r.page == hostPage va && r.sent.isSome) = some r
      ∧ r.waiters = [])
    ∧ (∃ s n r, live s = true ∧ mget s.m.xl.prg n = some r ∧ r.sent = true ∧ s.m.xl.stalled = [])
    ∧ ∃ s pasid va now r, live s = true
      ∧ s.m.xl.ats.find? (fun r => r.pasid == pasid && r.page == hostPage va && r.sent.any fun b => b + s.c.hp.lossTimeout * 1000000 ≤ max s.m.now now) = some r
      ∧ r.waiters = [] :=
  ⟨⟨s0, by decide +kernel⟩,
   ⟨(onM s0 fun m => { m with xl := { m.xl with ats := [⟨5, 16, true, some 0, []⟩] } }), 5, 0x10FFF, false, true, ⟨5, 16, true, some 0, []⟩, by decide +kernel⟩,
   ⟨(onM s0 fun m => { m with xl := { m.xl with ats := [⟨5, 16, true, some 0, [⟨3, 0x10000, none⟩]⟩] } }), 5, 0x10000, ⟨5, 16, true, some 0, [⟨3, 0x10000, none⟩]⟩, 0, by decide +kernel⟩,
   ⟨(onM s0 fun m => { m with xl := { m.xl with ats := [⟨5, 16, true, some 0, []⟩] } }), 5, 0x10000, ⟨5, 16, true, some 0, []⟩, by decide +kernel⟩,
   ⟨(onM s0 fun m => { m with xl := { m.xl with prg := [(511, ⟨5, 16, true, [], true⟩)] } }), 511, ⟨5, 16, true, [], true⟩, by decide +kernel⟩,
   ⟨(onM s0 fun m => { m with xl := { m.xl with ats := [⟨5, 16, true, some 0, []⟩] } }), 5, 0x10000, 100000000, ⟨5, 16, true, some 0, []⟩, by decide +kernel⟩⟩

theorem test_HostLinkAndLoss :
    (∃ s, live s = true)
    ∧ (∃ s, live s = true ∧ s.m.hp.attached = true ∧ s.m.hp.lost = false ∧ s.m.hp.lossStart = none)
    ∧ (∃ s, live s = true ∧ s.m.hp.attached = true ∧ s.m.hp.lost = false ∧ s.m.hp.lossStart = none)
    ∧ (∃ s b, live s = true ∧ s.m.hp.lossStart = some b)
    ∧ (∃ s, live s = true)
    ∧ (∃ s t0 b, live s = true ∧ s.m.hp.lossStart = some b ∧ b + s.c.hp.lossTimeout * 1000000 ≤ max s.m.now t0)
    ∧ (∃ s t0, live s = true ∧ s.m.hp.attached = true ∧ s.m.hp.lost = false ∧ s.c.hp.hbLimit ≠ 0
      ∧ s.m.hp.hbStart + s.c.hp.hbLimit * 1000000 ≤ max s.m.now t0)
    ∧ (∃ s id k, accepted 0x0002 id (fun _ => 0) detachChecks s k = true ∧ s.m.hp.attached = true ∧ s.m.hp.lost = false)
    ∧ ∃ s id k, accepted 0x0001 id (fun _ => 24) attachChecks s k = true ∧ s.m.hp.attached = false ∧ s.m.hp.l0 = true ∧ s.m.hp.bme = true :=
  ⟨⟨s0, by decide +kernel⟩,
   ⟨sHost, by decide +kernel⟩,
   ⟨sHost, by decide +kernel⟩,
   ⟨(onM sHost fun m => { m with hp := { m.hp with lossStart := some 7 } }), 7, by decide +kernel⟩,
   ⟨s0, by decide +kernel⟩,
   ⟨(onM sHost fun m => { m with hp := { m.hp with lossStart := some 7 } }), 100000007, 7, by decide +kernel⟩,
   ⟨(onC sHost fun c => { c with hp := { c.hp with hbLimit := 1 } }), 1000000, by decide +kernel⟩,
   ⟨sC sHost (cmd 0x002 0 0 []), 0, (cmd 0x002 0 0 []), by decide +kernel⟩,
   ⟨sC s0 (cmd 0x001 0 0x3000000 [(0x18, 1, 2)]), 0, (cmd 0x001 0 0x3000000 [(0x18, 1, 2)]), by decide +kernel⟩⟩

theorem test_OutboundQueue :
    (∃ s id t0 r, live s = true ∧ (refill s.c (tickTo t0 s.q)).hp.wait.find? (·.id == id) = some r ∧ r.kind = 1
      ∧ hpReady (refill s.c (tickTo t0 s.q)) r = true ∧ ((∀ x ∈ s.m.hp.wait, x.id ≠ id → hpReady (refill s.c (tickTo t0 s.q)) x = false)))
    ∧ (∃ s id t0 r, live s = true ∧ (refill s.c (tickTo t0 s.q)).hp.wait.find? (·.id == id) = some r ∧ r.kind = 0
      ∧ hpReady (refill s.c (tickTo t0 s.q)) r = true ∧ ((∀ x ∈ s.m.hp.wait, x.id ≠ id → hpReady (refill s.c (tickTo t0 s.q)) x = false))
      ∧ s.m.hp.unflushed.length < 256)
    ∧ ∃ s id r, live s = true ∧ s.m.hp.sent.find? (fun r => r.id == id && r.kind == 2) = some r :=
  ⟨⟨(onM s0 fun m => { m with hp := { m.hp with wait := [req1 1 0 0x1000] } }), 9, 0, req1 1 0 0x1000, by decide +kernel⟩,
   ⟨(onM s0 fun m => { m with hp := { m.hp with wait := [req1 0 0 0x1000] } }), 9, 0, req1 0 0 0x1000, by decide +kernel⟩,
   ⟨(onM s0 fun m => { m with hp := { m.hp with sent := [req1 2 0 0] } }), 9, req1 2 0 0, by decide +kernel⟩⟩

theorem test_SequencerWords :
    (∃ s k x u l n, issues k 6 s x u ∧ l < 4 ∧ mhas x.loops l = false ∧ opnd u n = 0)
    ∧ (∃ s k x u l n, issues k 6 s x u ∧ l < 4 ∧ mhas x.loops l = false ∧ opnd u n ≠ 0)
    ∧ (∃ s k x u l i n, issues k 6 s x u ∧ mget x.loops l = some (i, n) ∧ i + 1 < n)
    ∧ (∃ s k x u l i n, issues k 6 s x u ∧ mget x.loops l = some (i, n) ∧ n ≤ i + 1)
    ∧ (∃ s k x u l i n, issues k 6 s x u ∧ mget x.loops l = some (i, n))
    ∧ (∃ (i : Instr) (s : _) (k : _) (l : _) (x : _) (u : _), wordSlot i = some (k, l) ∧ live s = true ∧ issuing s.q k = some (x, u)
      ∧ x.waiting = none ∧ slotFull x l = true)
    ∧ (∃ s k x u, issues k 6 s x u)
    ∧ (∃ s k x u, issues k 6 s x u)
    ∧ ∃ s k x u, issues k 6 s x u :=
  ⟨⟨(sK id), 0, core1, tc1, 3, .lit 0, by unfold issues; decide +kernel⟩,
   ⟨(sK id), 0, core1, tc1, 3, .lit 1, by unfold issues; decide +kernel⟩,
   ⟨(sK fun x => { x with loops := [(3, (0, 2))] }), 0, { core1 with loops := [(3, (0, 2))] }, tc1, 3, 0, 2, by unfold issues; decide +kernel⟩,
   ⟨(sK fun x => { x with loops := [(3, (1, 2))] }), 0, { core1 with loops := [(3, (1, 2))] }, tc1, 3, 1, 2, by unfold issues; decide +kernel⟩,
   ⟨(sK fun x => { x with loops := [(3, (1, 2))] }), 0, { core1 with loops := [(3, (1, 2))] }, tc1, 3, 1, 2, by unfold issues; decide +kernel⟩,
   ⟨.stat 0 (tm 0 1) none, (sK fFull), 0, 0, fFull core1, tc1, by decide +kernel⟩,
   ⟨(sK id), 0, core1, tc1, by unfold issues; decide +kernel⟩,
   ⟨(sK id), 0, core1, tc1, by unfold issues; decide +kernel⟩,
   ⟨(sK id), 0, core1, tc1, by unfold issues; decide +kernel⟩⟩

theorem test_EnqueueWaitFenceAndPost :
    (∃ s k x u a o n y z m1, live s = true ∧ issuing s.q k = some (x, u) ∧ (x.waiting = none ∨ x.waiting = some 0x300) ∧ x.enqs.length < 16
      ∧ affN x u o % 2 ^ 64 + 128 * (if n = 256 then 2 else 1) ≤ 0x300000 ∧ m1 = enqLoaded s u a
      ∧ targetOk m1 (qDom m1 u.q) (nth u.params a % 2 ^ 20) = true ∧ qGet m1 (nth u.params a % 2 ^ 20) = some y ∧ m1.cores[k]? = some z
      ∧ (if n = 256 then 2 else 1) ≤ ringFree y)
    ∧ (∃ s k x u a o n y z m1, live s = true ∧ issuing s.q k = some (x, u) ∧ (x.waiting = none ∨ x.waiting = some 0x300) ∧ x.enqs.length < 16
      ∧ affN x u o % 2 ^ 64 + 128 * (if n = 256 then 2 else 1) ≤ 0x300000 ∧ m1 = enqLoaded s u a
      ∧ targetOk m1 (qDom m1 u.q) (nth u.params a % 2 ^ 20) = true ∧ qGet m1 (nth u.params a % 2 ^ 20) = some y ∧ m1.cores[k]? = some z
      ∧ ringFree y < (if n = 256 then 2 else 1))
    ∧ (∃ s k x u a o n m1, live s = true ∧ issuing s.q k = some (x, u) ∧ (x.waiting = none ∨ x.waiting = some 0x300) ∧ x.enqs.length < 16
      ∧ affN x u o % 2 ^ 64 + 128 * (if n = 256 then 2 else 1) ≤ 0x300000 ∧ m1 = enqLoaded s u a
      ∧ targetOk m1 (qDom m1 u.q) (nth u.params a % 2 ^ 20) = false)
    ∧ (∃ s k x u, live s = true ∧ issuing s.q k = some (x, u) ∧ (x.waiting = none ∨ x.waiting = some 0x300) ∧ 16 ≤ x.enqs.length)
    ∧ (∃ s k x u r, live s = true ∧ issuing s.q k = some (x, u) ∧ (x.waiting = none ∨ x.waiting = some r))
    ∧ (∃ s k x u, live s = true ∧ issuing s.q k = some (x, u) ∧ (x.waiting = none ∨ x.waiting = some 0x100))
    ∧ (∃ s k x u r, issues k 6 s x u ∧ r < 0x40)
    ∧ ∃ s k x u r, issues k 6 s x u ∧ 0x40 ≤ r ∧ r < 0x48 :=
  ⟨⟨(withQ (sK id) 0x1000 fwdQ), 0, core1, tc1, 0, at0 (0x300000 - 256), 256, fwdQ, (enqLoaded (withQ (sK id) 0x1000 fwdQ) tc1 0).cores.getD 0 core1, (enqLoaded (withQ (sK id) 0x1000 fwdQ) tc1 0), by decide +kernel⟩,
   ⟨(withQ (sK id) 0x1000 fullQ), 0, core1, tc1, 0, at0 (0x300000 - 256), 256, fullQ, (enqLoaded (withQ (sK id) 0x1000 fullQ) tc1 0).cores.getD 0 core1, (enqLoaded (withQ (sK id) 0x1000 fullQ) tc1 0), by decide +kernel⟩,
   ⟨(withQ (sK id) 0x1000 { ctx := ctx1 }), 0, core1, tc1, 0, at0 0, 128, (enqLoaded (withQ (sK id) 0x1000 { ctx := ctx1 }) tc1 0), by decide +kernel⟩,
   ⟨(withQ (sK f16) 0x1000 fwdQ), 0, f16 core1, tc1, by decide +kernel⟩,
   ⟨(sK fun x => { x with waiting := some 5 }), 0, { core1 with waiting := some 5 }, tc1, 5, by decide +kernel⟩,
   ⟨(sK fun x => { x with waiting := some 0x100 }), 0, { core1 with waiting := some 0x100 }, tc1, by decide +kernel⟩,
   ⟨(sK id), 0, core1, tc1, 0x3F, by unfold issues; decide +kernel⟩,
   ⟨(sK id), 0, core1, tc1, 0x47, by unfold issues; decide +kernel⟩⟩

theorem test_StampsAndPostLines :
    (∃ (s : _) (k : Nat) (x : _) (l : _) (r : _), live s = true ∧ s.m.cores[k]? = some x ∧ x.tc.isSome = true ∧ headOp x l = some r
      ∧ (l = 4 ∨ l = 5 ∨ (l < 4 ∧ r.op ≠ 0 ∧ ∀ p ∈ x.slots.getD 4 [] ++ x.slots.getD 5 [], p.op ≠ r.op)) ∧ r.undrained = false
      ∧ opDone s.q x r.op = true ∧ partsReady x r.op = true)
    ∧ (∃ (s : _) (k : Nat) (x : Core) (a : _) (e : _) (b : _), live s = true ∧ s.m.cores[k]? = some x ∧ x.tc.isSome = true ∧ x.enqs = a ++ e :: b
      ∧ ((∀ i ∈ a, i.bytes.isSome = true)) ∧ e.bytes = none)
    ∧ ∃ s k l d x j p, live s = true ∧ s.m.cores[k]? = some x ∧ producerOf s.q k l d = some (j, p) ∧ (d = [] ∨ ringUsed x l + 256 ≤ ringSize x l) :=
  ⟨⟨(sK fun x => { x with slots := [[], [], [], [], [rec5 false], []] }), 0, { core1 with slots := [[], [], [], [], [rec5 false], []] }, 4, rec5 false, by decide +kernel⟩,
   ⟨(sK fun x => { x with enqs := [⟨3, 0, 1, 0, 0, some [], false⟩, ⟨3, 0, 1, 0, 0, none, false⟩] }), 0, { core1 with enqs := [⟨3, 0, 1, 0, 0, some [], false⟩, ⟨3, 0, 1, 0, 0, none, false⟩] }, [⟨3, 0, 1, 0, 0, some [], false⟩], ⟨3, 0, 1, 0, 0, none, false⟩, [], by decide +kernel⟩,
   ⟨(sGang [7]), 0, 0, [7], gcore, 1, 0, by decide +kernel⟩⟩

theorem test_LoadsAndCopies :
    (∃ (s : _) (k : _) (unit : _) (x : _) (u : _) (r : _) (src : _) (dst : _) (st : _) (a : _) (b : _) (m1 : _) (m2 : _) (codes : _) (tab : _) (dt : _) (i : Instr), issues k unit s x u
      ∧ ((i = .fetch k unit src dst st ∧ unit < 4 ∧ r = roleSrc) ∨ (i = .put k src dst st ∧ unit = 2 ∧ r = rolePut)) ∧ a = sdOf x u src
      ∧ b = sdOf x u dst ∧ copyChk s.q x unit u r src dst a b = none ∧ readCodes s.c (acsOf s.q k unit u a) (sdCount a) s.q = (m1, .ok (codes, tab))
      ∧ dstReady s.c (acsOf s.q k unit u b) (pieces b (sdCount a)) (pack b (pieces b (sdCount a)) codes) m1 = (m2, .ok dt))
    ∧ (∃ s k x u slot size p n a m1 l tab y, issues k 3 s x u ∧ slot < 4 ∧ (size = 16 ∨ size = 256) ∧ n = loadCount p 2 (2 * size) ∧ a = sdOf x u p
      ∧ sdCheck s.q u ((roleWords 0xB).on x 3 a) n (paramSlot p.base.c) a = none
      ∧ srcBytes s.c (acsOf s.q k 3 u a) (pieces a n) s.q = (m1, .ok (l, tab)) ∧ m1.cores[k]? = some y)
    ∧ (∃ s k x u slot p n a m1 l tab y, issues k 3 s x u ∧ slot < 2 ∧ tableUsed x slot = false ∧ n = loadCount p 4 1036 ∧ a = sdOf x u p
      ∧ sdCheck s.q u ((roleWords 0xC).on x 3 a) n (paramSlot p.base.c) a = none
      ∧ srcBytes s.c (acsOf s.q k 3 u a) (pieces a n) s.q = (m1, .ok (l, tab)) ∧ m1.cores[k]? = some y)
    ∧ (∃ s k x u slot p, issues k 3 s x u ∧ slot < 2 ∧ tableUsed x slot = true
      ∧ sdCheck s.q u ((roleWords 0xC).on x 3 (sdOf x u p)) (loadCount p 4 1036) (paramSlot p.base.c) (sdOf x u p) = none)
    ∧ ∃ (s : _) (k : _) (x : _) (u : _) (p : _) (e : ElemSrc) (n : _) (w : _) (gs : _) (a : _) (m1 : _) (l : _) (tab : _) (y : _), issues k 3 s x u
      ∧ n = p.counts.foldl (· * ·) 1 ∧ w = nth p.counts 0 ∧ w ≤ 256 ∧ n ≤ 225 * w ∧ gs = cdiv (n / max 1 w) (max 1 (groupSize e.group))
      ∧ elemBad x u e (w * gs) = none ∧ zpGrainBad x u (if p.kind = 4 then 0xC else p.format) w (n / max 1 w) (weightZp e.zp) = false
      ∧ a = sdOf x u p
      ∧ sdCheck s.q u ((⟨anyFmt, (fun q => q = 0 || q = 4), srcSpace, false, false, false⟩ : Role).on x 3 a) n (paramSlot p.base.c) a = none
      ∧ srcBytes s.c (acsOf s.q k 3 u a) (pieces a n) s.q = (m1, .ok (l, tab)) ∧ m1.cores[k]? = some y :=
  ⟨⟨(sK id), 0, 2, core1, tc1, roleSrc, tm 0 2, tm 1 2, some 3, sdOf core1 tc1 (tm 0 2), sdOf core1 tc1 (tm 1 2), rdF.1, dsF.1, (okv ([], []) rdF).1, (okv ([], []) rdF).2, okv [] dsF, .fetch 0 2 (tm 0 2) (tm 1 2) (some 3), by unfold issues; and_intros <;> first | decide +kernel | exact (Option.some_get _).symm | rfl | exact .inl ⟨rfl, by decide, rfl⟩ | simp⟩,
   ⟨(sK id), 0, core1, tc1, 3, 256, tmCb, 256, (sdOf core1 tc1 tmCb), (ld tmCb 256).1, (okv ([], []) (ld tmCb 256)).1, (okv ([], []) (ld tmCb 256)).2, core1, by unfold issues; decide +kernel⟩,
   ⟨(sK id), 0, core1, tc1, 1, (tm 1 259), 259, (sdOf core1 tc1 (tm 1 259)), (ld (tm 1 259) 259).1, (okv ([], []) (ld (tm 1 259) 259)).1, (okv ([], []) (ld (tm 1 259) 259)).2, core1, by unfold issues; decide +kernel⟩,
   ⟨(sK fUse), 0, fUse core1, tc1, 1, tm 1 259, by unfold issues; decide +kernel⟩,
   ⟨(sK id), 0, core1, tc1, tm 1 256, elem0, 256, 256, 1, sdOf core1 tc1 (tm 1 256), (ld (tm 1 256) 256).1, (okv ([], []) (ld (tm 1 256) 256)).1, (okv ([], []) (ld (tm 1 256) 256)).2, core1, by unfold issues; decide +kernel⟩⟩

theorem test_NumberFormatsKeepTheirValues :
    (∃ (s : Sd) (cs : List Nat), ((∀ c ∈ cs, c < 2 ^ sdBits s)) ∧ sdBits s ∈ [4, 6, 8, 16, 32])
    ∧ (∃ s, sdBits s ∈ [4, 6, 8, 16, 32])
    ∧ (∃ (ps : List Piece) (l : List Byte), (ps.Pairwise (fun p q => p.a + p.n ≤ q.a ∨ q.a + q.n ≤ p.a)) ∧ l.length = pieceBytes ps)
    ∧ (∃ v, v < 2 ^ 32 ∧ fvIsNan (dec32 v) = false)
    ∧ (∃ v, fvIsNan (dec32 v) = true)
    ∧ (∃ a b, fvIsNan (dec32 a) = false ∧ fvIsNan (dec32 b) = false)
    ∧ ∃ a b, (fvIsNan (dec32 a) = true ∨ fvIsNan (dec32 b) = true) :=
  ⟨⟨{ sd1 with fmt := 6, strides := [1] }, [63, 1, 7], by decide +kernel⟩,
   ⟨{ sd1 with fmt := 6 }, by decide +kernel⟩,
   ⟨[⟨2, 2, 0, 1, 0, 0, 0⟩, ⟨0, 2, 1, 1, 0, 0, 0⟩], [1, 2, 3, 4], by decide +kernel⟩,
   ⟨0xFFFFFFFF - 0x7FFFFF - 0x3FFFFF, by decide +kernel⟩,
   ⟨0x7FC00001, by decide +kernel⟩,
   ⟨0x3F800000, 0x80000000, by decide +kernel⟩,
   ⟨0x7FC00001, 0, by decide +kernel⟩⟩

theorem test_ArrayWords :
    (∃ s k x u p, issues k 0 s x u ∧ x.statSd = none ∧ sdCheck s.q u roleStat 0 (paramSlot p.base.c) (sdOf x u p) = none)
    ∧ (∃ s k x u p, issues k 1 s x u ∧ x.moveSd = none ∧ sdCheck s.q u roleMove 0 (paramSlot p.base.c) (sdOf x u p) = none)
    ∧ (∃ s k x u a b c d e f g, issues k 3 s x u ∧ x.side = none ∧ sideChk s.q x u a b c d e f g = none)
    ∧ ∃ s k x u o st mv m1 got y, issues k 4 s x u ∧ x.statSd = some st ∧ x.moveSd = some mv ∧ x.result = none
      ∧ mmaBad s.q x u o st mv (x.side.getD noSide) = none ∧ (st.win.any fun w => emptyOut (geoOf st.counts w)) = false
      ∧ readAll s.c k u (mmaPlan s.q x u o st mv (x.side.getD noSide)).wants s.q = (m1, .ok got) ∧ m1.cores[k]? = some y :=
  ⟨⟨(sK id), 0, core1, tc1, tmF 0 1 1, by unfold issues; decide +kernel⟩,
   ⟨(sK id), 0, core1, tc1, tmF 0 1 1, by unfold issues; decide +kernel⟩,
   ⟨(sK id), 0, core1, tc1, none, none, some { tmF 0 1 1 with kind := 2 }, none, none, none, none, by unfold issues; decide +kernel⟩,
   ⟨(sK fM), 0, fM core1, tc1, mma1, sdM, sdM, rdM.1, okv [] rdM, fM core1, by unfold issues; and_intros <;> decide +kernel⟩⟩

theorem test_DrainTakesTheResult :
    (∃ s k x u d sc res op m1 all y, issues k 2 s x u ∧ x.result = some res ∧ undrainedOp x (if res.array then 4 else 5) = some op
      ∧ drainChk s.q x u d sc res = none ∧ partsGo s.c k u (drainParts s.q x u d res ++ drainScales x u sc res) s.q = (m1, .ok all)
      ∧ m1.cores[k]? = some y)
    ∧ ∃ s k x u d res op, issues k 2 s x u ∧ x.result = some res ∧ res.array = false ∧ res.scales = [] ∧ u.merged ≤ 1 ∧ undrainedOp x 5 = some op
      ∧ drainChk s.q x u d none res = none ∧ (sdOf x u d).space = 1 :=
  ⟨⟨(sK (fR true)), 0, fR true core1, tc1, tm 1 2, none, resF true, rec5 true, drR.1, okv [] drR, fR true core1, by unfold issues; and_intros <;> first | decide +kernel | rfl⟩,
   ⟨(sK (fR false)), 0, fR false core1, tc1, tm 1 2, resF false, rec5 true, by unfold issues; decide +kernel⟩⟩

theorem test_PlainIntegerSumsAreExact :
    (∃ order prev st mv, st.length = mv.length ∧ order.Perm (List.range (cdiv st.length 128)) ∧ prev.getD 0 < 2 ^ 32
      ∧ (plainOut order prev st mv).2 = 0)
    ∧ ∃ (order : List Nat) (st : List Int) (mv : List Int), st.length = mv.length ∧ order.Perm (List.range (cdiv st.length 128)) ∧ st.length ≤ 32768
      ∧ ((∀ p ∈ st.zip mv, (p.1 * p.2).natAbs ≤ 65025)) :=
  ⟨⟨[0], some 5, [3], [-4], by decide +kernel⟩,
   ⟨[0], [255], [255], by decide +kernel⟩⟩

theorem test_ElementwiseVectorWords :
    (∃ s k x u d a b l n i f, vReady s k x u l n (f32Places d [a, b] n)
      ∧ (i, f) ∈ [(Instr.vadd k d a b l, addF), (.vsub k d a b l, subF), (.vmul k d a b l, mulF), (.vdiv k d a b l, divF), (.vmin k d a b l, minF), (.vmax k d a b l, maxF)])
    ∧ (∃ s k x u d a l n i f g, vReady s k x u l n (f32Places d [a] n)
      ∧ (i, f) ∈ [(Instr.vabs k d a l, absF), (.vneg k d a l, negF), (.vrcp k d a l, rcpF), (.vrsq k d a l, rsqF), (.vsqrt k d a l, sqrtF), (.vexp2 k d a l, exp2F), (.vlog2 k d a l, log2F), (.vfun k g d a l, tableFn g)])
    ∧ (∃ s k x u d a b c l n, vReady s k x u l n (f32Places d [a, b, c] n))
    ∧ ∃ s k x u, issues k 5 s x u :=
  ⟨⟨(sK id), 0, core1, tc1, .reg 15, .reg 0, .win true (at0 8), at0 2, 2, .vadd 0 (.reg 15) (.reg 0) (.win true (at0 8)) (at0 2), addF, by unfold vReady issues; and_intros <;> first | decide +kernel | exact (Option.some_get _).symm | rfl | exact .inl ⟨rfl, by decide, rfl⟩ | simp⟩,
   ⟨(sK id), 0, core1, tc1, .drain, .reg 0, at0 2, 2, .vabs 0 .drain (.reg 0) (at0 2), absF, .exp, by unfold vReady issues; and_intros <;> first | decide +kernel | exact (Option.some_get _).symm | rfl | exact .inl ⟨rfl, by decide, rfl⟩ | simp⟩,
   ⟨(sK id), 0, core1, tc1, .win false (at0 0), .reg 0, .reg 0, .reg 0, at0 256, 256, by unfold vReady issues; decide +kernel⟩,
   ⟨(sK id), 0, core1, tc1, by unfold issues; decide +kernel⟩⟩

theorem test_CompareSelectAndTable :
    (∃ s k x u d a b l n, vReady s k x u l n (f32Places d [a, b] n))
    ∧ (∃ s k x u d c a b l n, vReady s k x u l n (f32Places d [c, a, b] n))
    ∧ ∃ s k x u j d a l n, vReady s k x u l n (f32Places d [a] n) ∧ userTabOk ((mget x.tables j).getD []) = true :=
  ⟨⟨(sK id), 0, core1, tc1, .reg 0, .reg 0, .reg 0, at0 2, 2, by unfold vReady issues; decide +kernel⟩,
   ⟨(sK id), 0, core1, tc1, .reg 0, .reg 0, .reg 0, .reg 0, at0 2, 2, by unfold vReady issues; decide +kernel⟩,
   ⟨(sK fT), 0, fT core1, tc1, 1, .reg 0, .reg 0, at0 2, 2, by unfold vReady issues; decide +kernel⟩⟩

theorem test_ConversionsAndReductions :
    (∃ (s : _) (k : _) (x : _) (u : _) (d : VLoc) (df : _) (a : VLoc) (sf : _) (g : Grain) (z : ZpGrain) (l : _) (n : _), vReady s k x u l n [(true, df, n, d), (false, sf, n, a)]
      ∧ df ≤ 0xC ∧ sf ≤ 0xE ∧ grainBad x u 1 n 4 g = false ∧ zpGrainBad x u sf 1 n z = false ∧ zpGrainBad x u df 1 n z = false)
    ∧ (∃ s k x u df sf, issues k 5 s x u ∧ (0xC < df ∨ 0xE < sf))
    ∧ (∃ s k x u d a l n, vReady s k x u l n [(true, 0xC, 1, d), (false, 0xC, n, a)] ∧ 1 ≤ n ∧ n ≤ 65536)
    ∧ (∃ s k x u d a l n, vReady s k x u l n (f32Places d [a] n) ∧ 1 ≤ n ∧ n ≤ 65536)
    ∧ (∃ s k x u d a g b e l n, vReady s k x u l n (f32Places d [a, g, b] n) ∧ 1 ≤ n ∧ n ≤ 65536 ∧ epsOk (opnd u e) = true)
    ∧ ∃ s k x u l, issues k 5 s x u ∧ (affN x u l = 0 ∨ 65536 < affN x u l) :=
  ⟨⟨(sK id), 0, core1, tc1, .reg 0, 0xC, .reg 1, 0xB, .none, .none, at0 2, 2, by unfold vReady issues; decide +kernel⟩,
   ⟨(sK id), 0, core1, tc1, 13, 0, by unfold issues; decide +kernel⟩,
   ⟨(sK id), 0, core1, tc1, .reg 0, .reg 1, at0 256, 256, by unfold vReady issues; decide +kernel⟩,
   ⟨(sK id), 0, core1, tc1, .reg 0, .reg 1, at0 1, 1, by unfold vReady issues; decide +kernel⟩,
   ⟨(sK id), 0, core1, tc1, .reg 0, .reg 1, .reg 2, .reg 3, .lit 0, at0 2, 2, by unfold vReady issues; decide +kernel⟩,
   ⟨(sK id), 0, core1, tc1, at0 65537, by unfold issues; decide +kernel⟩⟩

theorem test_OptimiserAndWindowUnit :
    (∃ (s : _) (k : _) (x : _) (u : _) (aw : _) (w : _) (wb : _) (g : _) (gf : _) (gz : _) (gc : _) (m : _) (v : _) (mn : _) (vn : _) (ms : _) (vs : _) (l : _) (n : _) (o : OptOp), o = OptOp.mk aw w wb g gf gz gc m v mn vn ms vs
      ∧ vReady s k x u l n (voptPlaces o n))
    ∧ (∃ aw c w g m v, (optStep aw c w g m v).2.2.2 = true)
    ∧ (∃ (s : _) (k : _) (x : _) (u : _) (p : _) (e : _) (w : _) (i : Option VLoc) (g : _), wReady s k x u p e w ∧ g = sdGeo (sdOf x u p) w
      ∧ sumFits 1 g = true ∧ initBad x u g i = false ∧ emptyOut g = false ∧ epiBad x u (x.epi.getD {}) (outPositions g) g.cw = false)
    ∧ (∃ (s : _) (k : _) (x : _) (u : _) (p : _) (e : _) (w : _) (i : Option VLoc) (c : _) (g : _), wReady s k x u p e w ∧ g = sdGeo (sdOf x u p) w
      ∧ sumFits c g = true ∧ initBad x u g i = false ∧ emptyOut g = false ∧ epiBad x u (x.epi.getD {}) (outPositions g) g.cw = false)
    ∧ (∃ s k x u p e w g, wReady s k x u p e w ∧ g = sdGeo (sdOf x u p) w ∧ winUnitOk g 1 = true ∧ emptyOut g = false
      ∧ epiBad x u (x.epi.getD {}) (outPositions g) g.cw = false)
    ∧ ∃ s k x u p e w g, wReady s k x u p e w ∧ g = sdGeo (sdOf x u p) w ∧ g.r = 1 ∧ g.iy * g.ix ≤ 2 ^ 24
      ∧ epiBad x u (x.epi.getD {}) (g.b - g.m0) g.cw = false :=
  ⟨⟨(sK id), 0, core1, tc1, false, .reg 0, false, .reg 1, 0xC, .lit 0, 0, .reg 2, .reg 3, false, false, .reg 4, .reg 5, at0 2, 2, ⟨false, .reg 0, false, .reg 1, 0xC, .lit 0, 0, .reg 2, .reg 3, false, false, .reg 4, .reg 5⟩, by unfold vReady issues; and_intros <;> first | decide +kernel | rfl⟩,
   ⟨true, ⟨0, 0, 0, 0, 0, 0, 0, 0, 0, 0, 0⟩, 0, 0x7FC00000, 0, 0, by decide +kernel⟩,
   ⟨(sK id), 0, core1, tc1, tmW, elem0, win1, none, geoW, by unfold wReady issues; decide +kernel⟩,
   ⟨(sK id), 0, core1, tc1, tmW, elem0, win1, none, 1, geoW, by unfold wReady issues; decide +kernel⟩,
   ⟨(sK id), 0, core1, tc1, tmW, elem0, win1, geoW, by unfold wReady issues; decide +kernel⟩,
   ⟨(sK id), 0, core1, tc1, tmW, elem0, win1, geoW, by unfold wReady issues; decide +kernel⟩⟩

theorem test_RingPointersMoveForward :
    (∃ s v, live s = true ∧ subMod s.m.rings.cmdTail s.m.rings.cmdHead 8192 ≤ subMod (v % 8192) s.m.rings.cmdHead 8192
      ∧ subMod (v % 8192) s.m.rings.cmdHead 8192 ≤ 4096)
    ∧ (∃ s v, live s = true
      ∧ (subMod (v % 8192) s.m.rings.cmdHead 8192 < subMod s.m.rings.cmdTail s.m.rings.cmdHead 8192 ∨ 4096 < subMod (v % 8192) s.m.rings.cmdHead 8192))
    ∧ (∃ s v, live s = true ∧ headOk 12 s.m.rings.evtHead s.m.rings.evtTail (v % 8192) = true)
    ∧ (∃ s v, live s = true ∧ headOk 12 s.m.rings.evtHead s.m.rings.evtTail (v % 8192) = false)
    ∧ (∃ s, live s = true)
    ∧ ∃ s a k, live s = true ∧ s.m.boot.state = bsRunning ∧ clerkRuns s.q 1 = true ∧ s.m.rings.cmdTail ≠ s.m.rings.cmdHead ∧ owed s.q < 64
      ∧ owed s.q + 64 ≤ evtFree s.q ∧ a = cmdRing + 64 * (s.m.rings.cmdHead % 4096) ∧ badIn s.m.mem a 64 = none
      ∧ k = { bytes := bread s.m.mem.cells a 64, phase := 0, seq := s.m.rings.nextCmd, start := s.m.now, arg := 0 } ∧ headerBad k = false :=
  ⟨⟨s0, 4096, by decide +kernel⟩,
   ⟨s0, 4097, by decide +kernel⟩,
   ⟨(onM s0 fun m => { m with rings := { m.rings with evtTail := 1 } }), 1, by decide +kernel⟩,
   ⟨(onM s0 fun m => { m with rings := { m.rings with evtTail := 1 } }), 2, by decide +kernel⟩,
   ⟨s0, by decide +kernel⟩,
   ⟨(onM (onM s0 fun m => { m with rings := { m.rings with cmdTail := 1 } }) fun m => { m with mem := { m.mem with cells := bwrite [] cmdRing ((cmd 0x105 0 0x3000000 [])).bytes } }), cmdRing, (cmd 0x105 0 0x3000000 []), by decide +kernel⟩⟩

theorem test_LocksAndKeyPort :
    (∃ s, live s = true ∧ protOk s.c.protG = true)
    ∧ (∃ s, live s = true)
    ∧ (∃ s, live s = true ∧ s.c.lockTables = false ∧ s.m.lockBusy = false)
    ∧ (∃ s, live s = true ∧ s.m.lockBusy = true ∧ tablesErr s.c s.q = 0)
    ∧ (∃ s, live s = true ∧ s.m.lockBusy = true ∧ tablesErr s.c s.q ≠ 0)
    ∧ (∃ s, live s = true ∧ s.m.boot.kpReq = true ∧ s.m.boot.kpLock = false ∧ s.m.boot.keyFail = false)
    ∧ (∃ s, live s = true ∧ s.m.boot.kpLock = true)
    ∧ (∃ s t0, live s = true ∧ s.m.boot.keyWords < 12 ∧ 10000000 ≤ max s.m.now t0)
    ∧ (∃ s t0, live s = true ∧ s.m.boot.state = bsReset ∧ 12 ≤ s.m.boot.keyWords ∧ s.m.boot.keyFail = false ∧ s.m.ports.flush = []
      ∧ 16 ≤ s.c.strap.cores ∧ (s.m.ports.ready = 0xFFFF ∨ 1000000000 ≤ max s.m.now t0) ∧ ((bootSource s.m.store).1 = 0 ∨ s.m.ports.ready ≠ 0xFFFF))
    ∧ ∃ s, live s = true ∧ s.m.boot.state = bsReset ∧ s.m.boot.keyWords < 12 :=
  ⟨⟨s0, by decide +kernel⟩,
   ⟨s0, by decide +kernel⟩,
   ⟨(onC s0 fun c => { c with lockTables := false }), by decide +kernel⟩,
   ⟨sTab, by decide +kernel⟩,
   ⟨(onM s0 fun m => { m with lockBusy := true }), by decide +kernel⟩,
   ⟨State.reset, by decide +kernel⟩,
   ⟨(onM State.reset fun m => { m with boot := { m.boot with kpLock := true } }), by decide +kernel⟩,
   ⟨State.reset, 10000000, by decide +kernel⟩,
   ⟨(onM State.reset fun m => { m with boot := { m.boot with keyWords := 12 } }), 0, by decide +kernel⟩,
   ⟨State.reset, by decide +kernel⟩⟩

theorem test_RegisterWritesAreChecked :
    (∃ s v, live s = true ∧ 10 ≤ v % 2 ^ 64 % 128 ∧ v % 2 ^ 64 % 128 ≤ 95)
    ∧ (∃ s v, live s = true ∧ (v % 2 ^ 64 % 128 < 10 ∨ 95 < v % 2 ^ 64 % 128))
    ∧ (∃ s off w, live s = true ∧ (¬(w = 8 ∧ off % 8 = 0)) ∧ (¬(w = 4 ∧ off % 4 = 0)))
    ∧ (∃ s v n, live s = true ∧ n = tickOf v ∧ tickOk n = true ∧ ¬masters s n)
    ∧ (∃ s v, live s = true ∧ (tickOk (tickOf v) = false ∨ masters s (tickOf v)))
    ∧ (∃ s w, live s = true ∧ w ≠ 8)
    ∧ (∃ s, live s = true)
    ∧ (∃ s, live s = true ∧ s.m.hp.attached = true ∧ s.m.hp.lost = false)
    ∧ (∃ s, live s = true ∧ (s.m.hp.attached = false ∨ s.m.hp.lost = true))
    ∧ (∃ (s : _) (i : Nat), live s = true ∧ (s.c.links[i]?).any (!·.enable) = true)
    ∧ (∃ (s : _) (i : Nat), live s = true ∧ (s.c.links[i]?).any (!·.enable) = false)
    ∧ (∃ (s : _) (i : Nat), live s = true ∧ (s.c.links[i]?).any (·.enable) = false)
    ∧ ∃ (s : _) (i : Nat), live s = true ∧ (s.c.links[i]?).any (·.enable) = true :=
  ⟨⟨s0, 95, by decide +kernel⟩,
   ⟨s0, 96, by decide +kernel⟩,
   ⟨s0, 0x1008, 2, by decide +kernel⟩,
   ⟨s0, 250 + 5 * 2 ^ 22, tickOf (250 + 5 * 2 ^ 22), by unfold masters; decide +kernel⟩,
   ⟨s0, 0, by unfold masters; decide +kernel⟩,
   ⟨s0, 4, by decide +kernel⟩,
   ⟨s0, by decide +kernel⟩,
   ⟨sHost, by decide +kernel⟩,
   ⟨s0, by decide +kernel⟩,
   ⟨s0, 3, by decide +kernel⟩,
   ⟨(onC s0 fun c => { c with links := lupd c.links 3 fun l => { l with enable := true } }), 3, by decide +kernel⟩,
   ⟨s0, 3, by decide +kernel⟩,
   ⟨(onC s0 fun c => { c with links := lupd c.links 3 fun l => { l with enable := true } }), 3, by decide +kernel⟩⟩

theorem test_FirmwareLoad :
    (∃ s v, live s = true ∧ v % 2 = 1 ∧ s.m.st.mbistState ≠ 1 ∧ loads s ∧ protOk s.c.protG = true ∧ s.m.ports.ready = 0xFFFF ∧ s.m.ports.failed = [])
    ∧ (∃ s v, live s = true ∧ v % 2 = 1 ∧ s.m.st.mbistState ≠ 1 ∧ loads s ∧ protOk s.c.protG = false)
    ∧ (∃ s v, live s = true ∧ v % 2 = 1 ∧ s.m.st.mbistState ≠ 1 ∧ loads s ∧ protOk s.c.protG = true
      ∧ (s.m.ports.ready ≠ 0xFFFF ∨ s.m.ports.failed ≠ []))
    ∧ (∃ s v, live s = true ∧ v % 2 = 1 ∧ s.m.st.mbistState ≠ 1 ∧ ¬loads s)
    ∧ (∃ s h, live s = true ∧ driver s ∧ s.m.boot.nextBlock = 0 ∧ headerReason s.m.boot.minEpoch h ≠ 0)
    ∧ (∃ (s : _) (h : _) (b : List Byte), live s = true ∧ driver s ∧ (s.m.boot.nextBlock = 0 → headerReason s.m.boot.minEpoch h = 0)
      ∧ (b.length ≠ 65536 ∨ sha384 b ≠ named s h))
    ∧ (∃ s h b, live s = true ∧ driver s ∧ (s.m.boot.nextBlock = 0 → headerReason s.m.boot.minEpoch h = 0) ∧ b.length = 65536 ∧ sha384 b = named s h
      ∧ s.m.boot.nextBlock + 1 ≠ leAt (header s h) 6 2)
    ∧ ∃ s h b, live s = true ∧ driver s ∧ (s.m.boot.nextBlock = 0 → headerReason s.m.boot.minEpoch h = 0) ∧ b.length = 65536 ∧ sha384 b = named s h
      ∧ s.m.boot.nextBlock + 1 = leAt (header s h) 6 2 ∧ s.m.rings.early = [] :=
  ⟨⟨sWait, 1, by unfold loads; decide +kernel⟩,
   ⟨(onC sWait fun c => { c with protG := 1 }), 1, by unfold loads; decide +kernel⟩,
   ⟨(onM sWait fun m => { m with ports := { m.ports with ready := 0x7FFF } }), 3, by unfold loads; decide +kernel⟩,
   ⟨s0, 1, by unfold loads; decide +kernel⟩,
   ⟨sLoad, [], by unfold driver; decide +kernel⟩,
   ⟨(onM sLoad fun m => { m with boot := { m.boot with nextBlock := 1 } }), [], [1], by unfold driver; decide +kernel⟩,
   ⟨sFw (List.replicate 65536 (0 : Byte)) 3, [], (List.replicate 65536 (0 : Byte)), by refine ⟨rfl, sFw_driver _ _, by decide, List.length_replicate, (sFw_named _ _).symm, by decide⟩⟩,
   ⟨sFw (List.replicate 65536 (0 : Byte)) 2, [], (List.replicate 65536 (0 : Byte)), by refine ⟨rfl, sFw_driver _ _, by decide, List.length_replicate, (sFw_named _ _).symm, by decide, rfl⟩⟩⟩

theorem test_ResetsLeaveTheStore :
    (∃ s v, live s = true ∧ v % 2 ^ 32 = 0x4D524157)
    ∧ (∃ s w v, live s = true ∧ (w ≠ 8 ∨ v % 2 ^ 32 ≠ 0x4D524157))
    ∧ ∃ s, live s = true :=
  ⟨⟨s0, 0x4D524157, by decide +kernel⟩,
   ⟨s0, 4, 0x4D524157, by decide +kernel⟩,
   ⟨s0, by decide +kernel⟩⟩

theorem test_StoreCommands :
    (∃ s id k, accepted 0x800 id (fun k => k.argN 0x18 4) slotWriteChecks s k = true ∧ idle s)
    ∧ (∃ s id k, accepted 0x802 id (fun _ => 0) slotRetireChecks s k = true ∧ idle s)
    ∧ (∃ s id k, accepted 0x803 id (fun _ => 0) bootRecordWriteChecks s k = true ∧ idle s)
    ∧ (∃ s id k, accepted 0x804 id (fun _ => 0) epochCommitChecks s k = true ∧ idle s)
    ∧ (∃ s id k, accepted 0x106 id (fun k => k.argN 0x18 2) enrolCertifyChecks s k = true ∧ idle s)
    ∧ (∃ s id k, accepted 0x903 id (fun _ => 0x3FF8) trimWriteChecks s k = true ∧ idle s)
    ∧ (∃ s id k, live s = true ∧ s.m.store.busy = some id ∧ mget s.m.rings.cmds id = some k ∧ 1 < k.arg ∧ s.m.power.fail = 0)
    ∧ (∃ s id k, live s = true ∧ s.m.store.busy = some id ∧ mget s.m.rings.cmds id = some k ∧ k.arg ≤ 1 ∧ k.opcode = 0x804)
    ∧ (∃ s id k, live s = true ∧ s.m.store.busy = some id ∧ mget s.m.rings.cmds id = some k ∧ k.arg ≤ 1 ∧ k.opcode = 0x803)
    ∧ (∃ s id k, live s = true ∧ s.m.store.busy = some id ∧ mget s.m.rings.cmds id = some k ∧ k.arg ≤ 1 ∧ k.opcode = 0x802)
    ∧ (∃ s id k, live s = true ∧ s.m.store.busy = some id ∧ mget s.m.rings.cmds id = some k ∧ k.arg ≤ 1 ∧ k.opcode = 0x800
      ∧ unitsOf (k.argN 0x18 4) ≠ 0)
    ∧ (∃ s id k, live s = true ∧ s.m.store.busy = some id ∧ mget s.m.rings.cmds id = some k ∧ k.arg ≤ 1 ∧ k.opcode = 0x801)
    ∧ (∃ s id k, live s = true ∧ s.m.store.busy = some id ∧ mget s.m.rings.cmds id = some k ∧ k.arg ≤ 1 ∧ k.opcode = 0x106)
    ∧ (∃ s id k, live s = true ∧ s.m.store.busy = some id ∧ mget s.m.rings.cmds id = some k ∧ k.arg ≤ 1 ∧ k.opcode = 0x701)
    ∧ (∃ s id k, live s = true ∧ s.m.store.busy = some id ∧ mget s.m.rings.cmds id = some k ∧ k.arg ≤ 1 ∧ k.opcode = 0x903)
    ∧ ∃ s id k, live s = true ∧ s.m.store.busy = some id ∧ mget s.m.rings.cmds id = some k :=
  ⟨⟨sStored (cmd 0x800 0 0x3000000 [(0x18, 4, 4 * 2 ^ 20 - 4096)]), 0, (cmd 0x800 0 0x3000000 [(0x18, 4, 4 * 2 ^ 20 - 4096)]), by unfold idle; decide +kernel⟩,
   ⟨sStored (cmd 0x802 0 0 []), 0, (cmd 0x802 0 0 []), by unfold idle; decide +kernel⟩,
   ⟨sStored (cmd 0x803 0 0 [(0x1A, 2, 100)]), 0, (cmd 0x803 0 0 [(0x1A, 2, 100)]), by unfold idle; decide +kernel⟩,
   ⟨sStored (cmd 0x804 0 0 []), 0, (cmd 0x804 0 0 []), by unfold idle; decide +kernel⟩,
   ⟨sStored (cmd 0x106 0 0x3000000 [(0x18, 2, 2048)]), 0, (cmd 0x106 0 0x3000000 [(0x18, 2, 2048)]), by unfold idle; decide +kernel⟩,
   ⟨sStored ({ (cmd 0x903 0 0x3000000 []) with relay := some 0, areaBytes := trim1 }), 0, { (cmd 0x903 0 0x3000000 []) with relay := some 0, areaBytes := trim1 }, by unfold idle; decide +kernel⟩,
   ⟨sStore (cmd 0x803 0 0 [(0x1A, 2, 100)]) 2, 0, going (cmd 0x803 0 0 [(0x1A, 2, 100)]) 2, by decide +kernel⟩,
   ⟨sStore (cmd 0x804 0 0 []) 1, 0, going (cmd 0x804 0 0 []) 1, by decide +kernel⟩,
   ⟨sStore (cmd 0x803 0 0 [(0x1A, 2, 100)]) 1, 0, going (cmd 0x803 0 0 [(0x1A, 2, 100)]) 1, by decide +kernel⟩,
   ⟨sStore (cmd 0x802 0 0 []) 1, 0, going (cmd 0x802 0 0 []) 1, by decide +kernel⟩,
   ⟨sStore (cmd 0x800 0 0x3000000 [(0x18, 4, 4096)]) 1, 0, going (cmd 0x800 0 0x3000000 [(0x18, 4, 4096)]) 1, by decide +kernel⟩,
   ⟨sStore (cmd 0x801 0 0 []) 1, 0, going (cmd 0x801 0 0 []) 1, by decide +kernel⟩,
   ⟨sStore (cmd 0x106 0 0 []) 1, 0, going (cmd 0x106 0 0 []) 1, by decide +kernel⟩,
   ⟨sStore (cmd 0x701 0 0 []) 1, 0, going (cmd 0x701 0 0 []) 1, by decide +kernel⟩,
   ⟨sStore (cmd 0x903 0 0 []) 1, 0, going (cmd 0x903 0 0 []) 1, by decide +kernel⟩,
   ⟨sStore (cmd 0x803 0 0 [(0x1A, 2, 100)]) 1, 0, going (cmd 0x803 0 0 [(0x1A, 2, 100)]) 1, by decide +kernel⟩⟩

theorem test_QueriesClerksAndTelemetry :
    (∃ s id k, accepted 0x105 id (fun _ => 0x900) enrolQueryChecks s k = true ∧ k.relay = none
      ∧ (k.argAddr + 4 ≤ evtRing ∨ evtRing + 64 * 4096 ≤ k.argAddr) ∧ lineBusy s.q k.argAddr (256 + (enrolBlob s.q).length) = false)
    ∧ (∃ s id k, accepted 0x902 id (fun _ => 0x4000) trimReadChecks s k = true ∧ k.relay = none
      ∧ (k.argAddr + 0x4000 ≤ evtRing ∨ evtRing + 64 * 4096 ≤ k.argAddr) ∧ lineBusy s.q k.argAddr 0x4000 = false)
    ∧ (∃ s id k, accepted 0x901 id (fun _ => 0x420) bistQueryChecks s k = true ∧ k.relay = none
      ∧ (k.argAddr + 0x420 ≤ evtRing ∨ evtRing + 64 * 4096 ≤ k.argAddr) ∧ lineBusy s.q k.argAddr 0x420 = false)
    ∧ (∃ s id k, accepted 0x0006 id (fun _ => 0) clerkRestartChecks s k = true ∧ clerkRuns s.q (k.argN 0x18 1) = true)
    ∧ (∃ s i, live s = true ∧ clerkRuns s.q i = true)
    ∧ (∃ (s : _) (i : Nat) (x : Clerk) (t0 : _), live s = true ∧ s.m.clerks[i]? = some x ∧ x.running = false ∧ x.stopped = false ∧ x.cause ≠ 0
      ∧ (x.restarts.filter fun r => max s.m.now t0 ≤ r + 1000000000).length < 2)
    ∧ (∃ (s : _) (i : Nat) (x : Clerk) (ok : _) (t0 : _), live s = true ∧ s.m.clerks[i]? = some x ∧ x.running = false ∧ x.stopped = false
      ∧ x.cause ≠ 0 ∧ (ok = false ∨ 2 ≤ (x.restarts.filter fun r => max s.m.now t0 ≤ r + 1000000000).length))
    ∧ (∃ s id k a, accepted 0x0904 id (fun _ => 0) telemetryBindChecks s k = true ∧ telemPage s.c s.q k.dom (k.argN 0x18 8) = some a)
    ∧ ∃ s id k, accepted 0x0905 id (fun _ => 0) telemetryUnbindChecks s k = true :=
  ⟨⟨sC s0 (cmd 0x105 0 0x3000000 []), 0, (cmd 0x105 0 0x3000000 []), by decide +kernel⟩,
   ⟨sC s0 (cmd 0x902 0 0x3000000 []), 0, (cmd 0x902 0 0x3000000 []), by decide +kernel⟩,
   ⟨sC s0 (cmd 0x901 0 0x3000000 []), 0, (cmd 0x901 0 0x3000000 []), by decide +kernel⟩,
   ⟨sC s0 (cmd 0x006 0 0 [(0x18, 1, 3)]), 0, (cmd 0x006 0 0 [(0x18, 1, 3)]), by decide +kernel⟩,
   ⟨s0, 3, by decide +kernel⟩,
   ⟨(onM s0 fun m => { m with clerks := lupd m.clerks 0 fun x => { x with running := false, cause := 1, restarts := [0] } }), 0, { cause := 1, restarts := [0] }, 5, by decide +kernel⟩,
   ⟨(onM s0 fun m => { m with clerks := lupd m.clerks 0 fun x => { x with running := false, cause := 1, restarts := [0, 0] } }), 0, { cause := 1, restarts := [0, 0] }, true, 1000000000, by decide +kernel⟩,
   ⟨sC s0 (cmd 0x904 1 0 [(0x18, 8, 0x1000)]), 0, (cmd 0x904 1 0 [(0x18, 8, 0x1000)]), 0x4001000, by decide +kernel⟩,
   ⟨sC (onM s0 fun m => { m with telem := { m.telem with binds := [(1, (0x1000, 0x4001000))] } }) (cmd 0x905 1 0 []), 0, (cmd 0x905 1 0 []), by decide +kernel⟩⟩

theorem test_SelfTestRows :
    (∃ s id k, accepted 0x0900 id (fun _ => 0) bistCoreChecks s k = true ∧ s.m.st.core = none)
    ∧ (∃ s id k x, continues 0x0900 id s k = true ∧ s.m.cores[k.arg]? = some x ∧ x.tc = none ∧ x.regs.test = 1 ∧ readsBack s.q k.arg = true)
    ∧ (∃ s id k x, continues 0x0900 id s k = true ∧ s.m.cores[k.arg]? = some x ∧ x.regs.test = 2)
    ∧ (∃ s v, live s = true ∧ v % 2 = 1 ∧ (s.m.boot.state = bsWaitLoad ∨ s.m.boot.state = bsFailed) ∧ s.m.st.mbistState ≠ 1)
    ∧ ∃ s, live s = true ∧ s.m.st.mbistState = 1 :=
  ⟨⟨sC s0 (cmd 0x900 0 0 [(0x18, 1, 31), (0x19, 1, 3)]), 0, (cmd 0x900 0 0 [(0x18, 1, 31), (0x19, 1, 3)]), by decide +kernel⟩,
   ⟨sC (onM s0 fun m => { m with cores := lupd m.cores 31 fun x => { x with regs := { x.regs with test := 1 } } }) (going (cmd 0x900 0 0 [(0x18, 1, 31), (0x19, 1, 3)]) 31), 0, (going (cmd 0x900 0 0 [(0x18, 1, 31), (0x19, 1, 3)]) 31), { core0 with regs := { coreRegs0 with test := 1 } }, by decide +kernel⟩,
   ⟨sC (onM s0 fun m => { m with cores := lupd m.cores 31 fun x => { x with regs := { x.regs with test := 2 } } }) (going (cmd 0x900 0 0 [(0x18, 1, 31), (0x19, 1, 3)]) 31), 0, (going (cmd 0x900 0 0 [(0x18, 1, 31), (0x19, 1, 3)]) 31), { core0 with regs := { coreRegs0 with test := 2 } }, by decide +kernel⟩,
   ⟨(onM (onM s0 fun m => { m with st := { m.st with core := none } }) fun m => { m with boot := { m.boot with state := bsFailed } }), 3, by decide +kernel⟩,
   ⟨(onM s0 fun m => { m with st := { m.st with mbistState := 1 } }), by decide +kernel⟩⟩

theorem test_PowerFailureDroopAndCap :
    (∃ s, live s = true ∧ s.m.power.fail = 0)
    ∧ (∃ s t0, live s = true ∧ s.m.power.fail = 1 ∧ s.m.power.failAt + 50000 ≤ max s.m.now t0)
    ∧ (∃ s, live s = true ∧ s.m.power.fail = 2 ∧ s.m.store.busy = none)
    ∧ (∃ s k, live s = true ∧ k < s.m.cores.length ∧ s.m.st.core = none)
    ∧ (∃ s k, live s = true ∧ k < s.m.cores.length)
    ∧ (∃ s, live s = true)
    ∧ ∃ s, live s = true ∧ s.m.st.core = none :=
  ⟨⟨s0, by decide +kernel⟩,
   ⟨(onM s0 fun m => { m with power := { m.power with fail := 1 } }), 50000, by decide +kernel⟩,
   ⟨(onM s0 fun m => { m with power := { m.power with fail := 2 } }), by decide +kernel⟩,
   ⟨s0, 31, by decide +kernel⟩,
   ⟨s0, 31, by decide +kernel⟩,
   ⟨s0, by decide +kernel⟩,
   ⟨s0, by decide +kernel⟩⟩

theorem test_QueueContexts :
    (∃ s id k q x n, accepted 0x400 id (fun _ => 64) (fun _ => createChecks) s k = true ∧ q = k.argN 0x18 4
      ∧ x = parseCtx (areaBytes s.q k 64) k.dom ∧ n = startCount x.ringLog2 (k.argN 0x1C 4))
    ∧ (∃ s id k q y, queueRowOk 0x401 id (fun _ => 64) setChecks s k ∧ q = k.argN 0x18 4 ∧ qGet s.q q = some y)
    ∧ (∃ s id k q y, queueRowOk 0x402 id (fun _ => 0) bindChecks s k ∧ q = k.argN 0x18 4 ∧ qGet s.q q = some y)
    ∧ (∃ s id k y, queueRowOk 0x403 id (fun _ => 80) (fun _ => queueChecks) s k ∧ qGet s.q (k.argN 0x18 4) = some y ∧ k.relay = none
      ∧ (k.argAddr + 80 ≤ evtRing ∨ evtRing + 64 * 4096 ≤ k.argAddr) ∧ lineBusy s.q k.argAddr 80 = false)
    ∧ ∃ s id k q, accepted 0x403 id (fun _ => 80) (fun _ => queueChecks) s k = true ∧ q = k.argN 0x18 4 ∧ q ∉ s.m.ctxCache
      ∧ badIn s.m.mem (s.c.tb.ctx + 64 * q) 64 ≠ none :=
  ⟨⟨sC sImg (cmd 0x400 1 0x3000000 [(0x18, 4, 0xFFFFF), (0x1C, 4, 0x8000000F)]), 0, (cmd 0x400 1 0x3000000 [(0x18, 4, 0xFFFFF), (0x1C, 4, 0x8000000F)]), 0xFFFFF, parseCtx (areaBytes (sC sImg (cmd 0x400 1 0x3000000 [(0x18, 4, 0xFFFFF), (0x1C, 4, 0x8000000F)])).q (cmd 0x400 1 0x3000000 [(0x18, 4, 0xFFFFF), (0x1C, 4, 0x8000000F)]) 64) 1, 31, by decide +kernel⟩,
   ⟨sC sImg (cmd 0x401 1 0x3000000 [(0x18, 4, 3), (0x20, 4, 0x1FF)]), 0, (cmd 0x401 1 0x3000000 [(0x18, 4, 3), (0x20, 4, 0x1FF)]), 3, queue1, by unfold queueRowOk ctxReady; decide +kernel⟩,
   ⟨sC sParcel (cmd 0x402 1 0 [(0x18, 4, 3), (0x1C, 2, 7)]), 0, (cmd 0x402 1 0 [(0x18, 4, 3), (0x1C, 2, 7)]), 3, queue1, by unfold queueRowOk ctxReady; decide +kernel⟩,
   ⟨sC s0 (cmd 0x403 1 0x3000000 [(0x18, 4, 3)]), 0, (cmd 0x403 1 0x3000000 [(0x18, 4, 3)]), queue1, by unfold queueRowOk ctxReady; decide +kernel⟩,
   ⟨sC (onM s0 fun m => { m with mem := { m.mem with bad := [(3, .corrupt)] } }) (cmd 0x403 1 0x3000000 [(0x18, 4, 3)]), 0, (cmd 0x403 1 0x3000000 [(0x18, 4, 3)]), 3, by decide +kernel⟩⟩

theorem test_ContextImageReadsBack :
    ∃ (x : QCtx), x.ringBase < 2 ^ 64 ∧ x.cplBase < 2 ^ 64 ∧ x.ringLog2 < 32 ∧ x.cplLog2 < 32 ∧ x.path < 4 ∧ x.vec < 2048 ∧ x.timeout < 2 ^ 32
      ∧ x.weight < 2 ^ 16 ∧ x.coalWin < 2 ^ 16 ∧ x.aux < 2 ^ 64 ∧ x.mailbox < 4096 ∧ x.state < 256 ∧ x.dom < 2 ^ 16 ∧ x.parcel < 2 ^ 31 :=
  ⟨{ ctx1 with ringBase := 2 ^ 64 - 1, vec := 2047, mailbox := 4095, ringLog2 := 31, path := 3, state := 255, parcel := 2 ^ 31 - 1 }, by decide +kernel⟩

theorem test_QueueStates :
    (∃ s id k y, queueRowOk 0x404 id (fun _ => 0) (fun _ => queueChecks) s k ∧ qGet s.q (k.argN 0x18 4) = some y ∧ y.ctx.state ≠ qsHeld
      ∧ y.ctx.state ≠ qsPaused ∧ y.ctx.state ≠ qsKilled)
    ∧ (∃ s q y, live s = true ∧ qGet s.q q = some y ∧ y.pausing = true ∧ issuedEnded s.q q = true)
    ∧ (∃ s id k y, queueRowOk 0x405 id (fun _ => 0) queueResumeChecks s k ∧ qGet s.q (k.argN 0x18 4) = some y)
    ∧ (∃ s id k y, queueRowOk 0x406 id (fun _ => 0) queueReleaseChecks s k ∧ qGet s.q (k.argN 0x18 4) = some y)
    ∧ (∃ s id k y, queueRowOk 0x407 id (fun _ => 0) queueResetChecks s k ∧ qGet s.q (k.argN 0x18 4) = some y)
    ∧ (∃ s id k y n, continues 0x407 id s k = true ∧ qGet s.q (k.argN 0x18 4) = some y ∧ y.descs = [] ∧ n = startCount y.ctx.ringLog2 (k.argN 0x1C 4))
    ∧ (∃ s id k, queueRowOk 0x408 id (fun _ => 0) (fun _ => queueChecks) s k ∧ canDestroy s.q (k.argN 0x18 4) = true)
    ∧ ∃ s id k, continues 0x408 id s k = true ∧ canDestroy s.q (k.argN 0x18 4) = true :=
  ⟨⟨sC s0 (cmd 0x404 1 0 [(0x18, 4, 3)]), 0, (cmd 0x404 1 0 [(0x18, 4, 3)]), queue1, by unfold queueRowOk ctxReady; decide +kernel⟩,
   ⟨(withQ s0 3 ({ ctx := ctx1, pausing := true })), 3, { ctx := ctx1, pausing := true }, by decide +kernel⟩,
   ⟨sC (withQ sParcel 3 (queueIn qsPaused)) (cmd 0x405 1 0 [(0x18, 4, 3)]), 0, (cmd 0x405 1 0 [(0x18, 4, 3)]), queueIn qsPaused, by unfold queueRowOk ctxReady; decide +kernel⟩,
   ⟨sC (withQ s0 3 (queueIn qsHeld)) (cmd 0x406 1 0 [(0x18, 4, 3)]), 0, (cmd 0x406 1 0 [(0x18, 4, 3)]), queueIn qsHeld, by unfold queueRowOk ctxReady; decide +kernel⟩,
   ⟨sC (withQ s0 3 (queueIn qsKilled)) (cmd 0x407 1 0 [(0x18, 4, 3)]), 0, (cmd 0x407 1 0 [(0x18, 4, 3)]), queueIn qsKilled, by unfold queueRowOk ctxReady; decide +kernel⟩,
   ⟨sC (withQ s0 3 (queueIn qsKilled)) (going (cmd 0x407 1 0 [(0x18, 4, 3)]) 3), 0, (going (cmd 0x407 1 0 [(0x18, 4, 3)]) 3), queueIn qsKilled, 0, by decide +kernel⟩,
   ⟨sC s0 (cmd 0x408 1 0 [(0x18, 4, 3)]), 0, (cmd 0x408 1 0 [(0x18, 4, 3)]), by unfold queueRowOk ctxReady; decide +kernel⟩,
   ⟨sC s0 (going (cmd 0x408 1 0 [(0x18, 4, 3)]) 3), 0, (going (cmd 0x408 1 0 [(0x18, 4, 3)]) 3), by decide +kernel⟩⟩

theorem test_ParcelsAreBound :
    (∃ s id k, accepted 0x0300 id (fun _ => 0) bindRowChecks s k = true)
    ∧ (∃ s id k m1 st, continues 0x0300 id s k = true ∧ bindCheck s.c k.dom (k.argN 0x18 8) (k.argN 0x28 8) s.q = (m1, .ok (.error st)))
    ∧ (∃ s id k p, accepted 0x0301 id (fun _ => 0) unbindChecks s k = true ∧ k.arg ≠ 1 ∧ mget s.m.parcels (k.argN 0x18 2) = some p)
    ∧ ∃ s id k, continues 0x0301 id s k = true ∧ parcelRuns s.q (k.argN 0x18 2) = false :=
  ⟨⟨sC sSeal kB, 0, kB, by decide +kernel⟩,
   ⟨sC sSeal (going kB 1), 0, (going kB 1), rB.1, stMalformed, by and_intros <;> first | decide +kernel | rfl⟩,
   ⟨sC sParcel (cmd 0x301 1 0 [(0x18, 2, 7)]), 0, (cmd 0x301 1 0 [(0x18, 2, 7)]), parcel1, by decide +kernel⟩,
   ⟨sC sParcel (going (cmd 0x301 1 0 [(0x18, 2, 7)]) 7), 0, (going (cmd 0x301 1 0 [(0x18, 2, 7)]) 7), by decide +kernel⟩⟩

theorem test_LedgerDemandBoundsEveryTick :
    ∃ (ts : List Terms), ((∀ t ∈ ts, 1 ≤ t.divisor ∧ t.divisor ≤ 64 ∧ t.phase < t.divisor)) :=
  ⟨[⟨2000, 1000, 64, 63, 1, 0⟩, ⟨2000, 1000, 1, 0, 1, 0⟩], by decide +kernel⟩

theorem test_LedgerCommands :
    (∃ s id k, accepted 0x500 id (fun _ => 0) admitChecks s k = true ∧ roleOf s.c ≠ 1 ∧ mhas s.m.ledger (k.argN 0x18 2) = false)
    ∧ (∃ s id k x, accepted 0x500 id (fun _ => 0) admitChecks s k = true ∧ roleOf s.c ≠ 1 ∧ mget s.m.ledger (k.argN 0x18 2) = some x)
    ∧ (∃ s id k, accepted 0x500 id (fun _ => 0) admitChecks s k = true ∧ roleOf s.c = 1)
    ∧ (∃ s id k, accepted 0x501 id (fun _ => 64) ledgerQueryChecks s k = true ∧ k.relay = none
      ∧ (k.argAddr + 64 ≤ evtRing ∨ evtRing + 64 * 4096 ≤ k.argAddr) ∧ lineBusy s.q k.argAddr 64 = false)
    ∧ (∃ s id k, accepted 0x502 id (fun _ => 0) ledgerRetireChecks s k = true ∧ roleOf s.c ≠ 1)
    ∧ ∃ s e x, live s = true ∧ mget s.m.ledger e = some x ∧ x.terms.release ≠ 0 ∧ x.terms.release < s.m.tick.cfg.period - s.m.tick.cfg.quiet :=
  ⟨⟨sC (onC s0 fun c => { c with tick := { c.tick with share := 64 } }) (cmd 0x500 0 0 termArgs), 0, (cmd 0x500 0 0 termArgs), by decide +kernel⟩,
   ⟨sC sLedger (cmd 0x500 0 0 termArgs), 0, (cmd 0x500 0 0 termArgs), entry1, by decide +kernel⟩,
   ⟨sC (onM (onC s0 fun c => { c with links := lupd c.links 0 fun l => { l with role := 1 } }) fun m => { m with links := lupd m.links 0 fun l => { l with peers := [{ mac := 5, engine := some 0, state := 7 }] } }) (cmd 0x500 0 0 termArgs), 0, (cmd 0x500 0 0 termArgs), by decide +kernel⟩,
   ⟨sC sLedger (cmd 0x501 0 0x3000000 [(0x18, 2, 4095)]), 0, (cmd 0x501 0 0x3000000 [(0x18, 2, 4095)]), by decide +kernel⟩,
   ⟨sC sLedger (cmd 0x502 0 0 [(0x18, 2, 4095)]), 0, (cmd 0x502 0 0 [(0x18, 2, 4095)]), by decide +kernel⟩,
   ⟨sLedger, 4095, entry1, by decide +kernel⟩⟩

theorem test_DepotRegionsAndTables :
    (∃ s id k n, accepted 0x600 id (fun _ => 0) allocChecks s k = true ∧ n = cdiv (k.argN 0x18 8) 65536)
    ∧ (∃ s id k r, accepted 0x601 id (fun _ => 0) depotFreeChecks s k = true ∧ mget s.m.depot.regions (k.argN 0x18 2) = some r)
    ∧ (∃ s id k, continues 0x601 id s k = true ∧ regionIdle s.q (k.argN 0x18 2) = true)
    ∧ (∃ s id k, accepted 0x602 id (fun _ => 64) tableOpenChecks s k = true)
    ∧ (∃ s id k x, accepted 0x603 id (fun _ => 0) tableCloseChecks s k = true ∧ mget s.m.depot.tables (k.argN 0x18 1) = some x)
    ∧ ∃ s id k, continues 0x603 id s k = true ∧ tableBusy s.q (k.argN 0x18 1) = false :=
  ⟨⟨sC s0 (cmd 0x600 1 0 [(0x18, 8, 65537), (0x22, 2, 1023)]), 0, (cmd 0x600 1 0 [(0x18, 8, 65537), (0x22, 2, 1023)]), 2, by decide +kernel⟩,
   ⟨sC (onM s0 fun m => { m with depot := { m.depot with regions := [(1023, region1)] } }) (cmd 0x601 1 0 [(0x18, 2, 1023)]), 0, (cmd 0x601 1 0 [(0x18, 2, 1023)]), region1, by decide +kernel⟩,
   ⟨sC (onM s0 fun m => { m with depot := { m.depot with regions := [(1023, region1)] } }) (going (cmd 0x601 1 0 [(0x18, 2, 1023)]) 0), 0, (going (cmd 0x601 1 0 [(0x18, 2, 1023)]) 0), by decide +kernel⟩,
   ⟨sC (onM s0 fun m => { m with mem := { m.mem with cells := bwrite [] 0x3000000 table1 } }) (cmd 0x602 0 0x3000000 [(0x18, 1, 63)]), 0, (cmd 0x602 0 0x3000000 [(0x18, 1, 63)]), by decide +kernel⟩,
   ⟨sC (onM s0 fun m => { m with depot := { m.depot with tables := [(63, ⟨table1, 1, false, false⟩)] } }) (cmd 0x603 0 0 [(0x18, 1, 63)]), 0, (cmd 0x603 0 0 [(0x18, 1, 63)]), ⟨table1, 1, false, false⟩, by decide +kernel⟩,
   ⟨sC (onM s0 fun m => { m with depot := { m.depot with tables := [(63, ⟨table1, 1, false, false⟩)] } }) (going (cmd 0x603 0 0 [(0x18, 1, 63)]) 0), 0, (going (cmd 0x603 0 0 [(0x18, 1, 63)]) 0), by decide +kernel⟩⟩

theorem test_TickBoundaries :
    (∃ s b, live s = true ∧ s.m.tick.nextB = some b ∧ (s.m.tick.cfg.src = 0 ∨ s.m.tick.sourceLost = true))
    ∧ (∃ s t0, live s = true ∧ s.m.tick.cfg.src = 1 ∧ t0 + 80 ≤ edgeEnd s.q
      ∧ (if s.m.tick.partialTick then s.m.tick.base + s.m.tick.cfg.quiet * 1000 else s.m.tick.limit) ≤ t0 + 80)
    ∧ (∃ s t0, live s = true ∧ s.m.tick.cfg.src = 1 ∧ t0 + 80 ≤ edgeEnd s.q
      ∧ t0 + 80 < (if s.m.tick.partialTick then s.m.tick.base + s.m.tick.cfg.quiet * 1000 else s.m.tick.limit))
    ∧ (∃ s, live s = true ∧ s.m.tick.cfg.src = 1)
    ∧ (∃ s t0, live s = true ∧ 2 ≤ s.m.tick.cfg.src ∧ onSeries t0 s.q = true ∧ s.m.tick.sourceLost = false ∧ s.m.tick.limit ≤ t0)
    ∧ (∃ s, live s = true ∧ s.m.tick.cfg.src = 3 ∧ s.m.tick.sourceLost = false ∧ s.m.tick.partialTick = false)
    ∧ ∃ s, live s = true ∧ s.m.tick.inMargin = false :=
  ⟨⟨s0, 1000000, by decide +kernel⟩,
   ⟨sSrc 1 true, 19920, by decide +kernel⟩,
   ⟨sSrc 1 true, 19919, by decide +kernel⟩,
   ⟨sSrc 1 true, by decide +kernel⟩,
   ⟨sSrc 2 false, 1000000, by decide +kernel⟩,
   ⟨sSrc 3 false, by decide +kernel⟩,
   ⟨s0, by decide +kernel⟩⟩

theorem test_CascadeCommands :
    (∃ s id k n, accepted 0x700 id (fun k => 64 * k.argN 0x1C 1) cascadeRosterChecks s k = true ∧ n = k.argN 0x1C 1)
    ∧ (∃ s id k, accepted 0x701 id (fun _ => 64) cascadeTrustChecks s k = true ∧ s.m.store.busy = none ∧ s.m.power.fail = 0 ∧ s.m.store.present = true)
    ∧ (∃ s id k, accepted 0x702 id (fun k => 4 * k.argN 0x1A 1 + 16 * k.argN 0x1B 1) jobChecks s k = true)
    ∧ (∃ s id k, accepted 0x703 id (fun _ => 0) remoteBindChecks s k = true)
    ∧ (∃ s id k, accepted 0x704 id (fun _ => 0) remoteUnbindChecks s k = true)
    ∧ ∃ s id k, accepted 0x705 id (fun k => if k.argN 0x19 1 = 1 then 16 * k.argN 0x1A 1 else 8192) memberCommandChecks s k = true
      ∧ (peerOf s.q (k.argN 0x18 1)).isSome = true :=
  ⟨⟨sC (sCas 2 (peerIn 15 7)) (cmd 0x700 0 0x3000000 [(0x18, 4, 1), (0x1C, 1, 15)]), 0, (cmd 0x700 0 0x3000000 [(0x18, 4, 1), (0x1C, 1, 15)]), 15, by decide +kernel⟩,
   ⟨sC (onM s0 fun m => { m with store := { m.store with present := true } }) (cmd 0x701 0 0x3000000 [(0x18, 4, 1)]), 0, (cmd 0x701 0 0x3000000 [(0x18, 4, 1)]), by decide +kernel⟩,
   ⟨sC (onM (sCas 2 (peerIn 15 7)) fun m => { m with ledger := [(4095, entry1)], mem := { m.mem with cells := bwrite [] 0x3000000 (toLe 4 (4095 * 65536)) } }) (cmd 0x702 0 0x3000000 [(0x18, 1, 2), (0x19, 1, 64), (0x1A, 1, 1)]), 0, (cmd 0x702 0 0x3000000 [(0x18, 1, 2), (0x19, 1, 64), (0x1A, 1, 1)]), by decide +kernel⟩,
   ⟨sC s0 (cmd 0x703 0 0 [(0x18, 4, 3), (0x1C, 1, 1), (0x1D, 1, 3), (0x1E, 1, 15), (0x20, 4, 8), (0x24, 2, 16384)]), 0, (cmd 0x703 0 0 [(0x18, 4, 3), (0x1C, 1, 1), (0x1D, 1, 3), (0x1E, 1, 15), (0x20, 4, 8), (0x24, 2, 16384)]), by decide +kernel⟩,
   ⟨sC (onM s0 fun m => { m with casc := { m.casc with binds := [(16383, bind1 true)] } }) (cmd 0x704 0 0 [(0x18, 2, 16383)]), 0, (cmd 0x704 0 0 [(0x18, 2, 16383)]), by decide +kernel⟩,
   ⟨sC (sCas 2 (peerIn 15 7)) (cmd 0x705 0 0x3000000 [(0x18, 1, 15), (0x19, 1, 1), (0x1A, 1, 64)]), 0, (cmd 0x705 0 0x3000000 [(0x18, 1, 15), (0x19, 1, 1), (0x1A, 1, 64)]), by decide +kernel⟩⟩

theorem test_LinkHandshake :
    (∃ (s : _) (p : Nat) (l : _), live s = true ∧ s.m.links[p]? = some l ∧ portOn s.c p = true)
    ∧ (∃ (s : _) (p : Nat) (l : _), live s = true ∧ s.m.links[p]? = some l)
    ∧ (∃ (s : _) (p : Nat) (t0 : _) (l : Link), live s = true ∧ s.m.links[p]? = some l ∧ portOn s.c p = true ∧ l.macUp = true ∧ inHello l = true
      ∧ shakes s.q = true ∧ l.helloAt.all (fun a => a + 10000000 ≤ max s.m.now t0) = true)
    ∧ (∃ (s : _) (p : Nat) (hd : KHead) (h : Hello) (l : Link), live s = true ∧ s.m.links[p]? = some l ∧ portOn s.c p = true ∧ l.macUp = true
      ∧ shakes s.q = true ∧ headBad hd 5 128 = false ∧ (hd.dst = 0xF ∨ hd.dst = selfEngine s.c s.q) ∧ h.engine < 16 ∧ h.port < 4 ∧ h.caps < 2
      ∧ (l.peers.length < 15 ∨ (∃ x ∈ l.peers, x.mac = h.mac)))
    ∧ (∃ (s : _) (p : Nat) (i : Nat) (hd : KHead) (a : Attest) (x : Peer) (h : _), live s = true ∧ peerGet s.q p i = some x ∧ portOn s.c p = true
      ∧ shakes s.q = true ∧ x.state = 3 ∧ x.hello = some h ∧ headBad hd 6 232 = false ∧ hd.dst = selfEngine s.c s.q ∧ a.step = 0 ∧ a.assign < 16
      ∧ a.signature = 0)
    ∧ (∃ (s : _) (p : Nat) (i : Nat) (t0 : _) (x : Peer), live s = true ∧ peerGet s.q p i = some x ∧ portOn s.c p = true ∧ s.m.casc.noMaster = false
      ∧ shakes s.q = true ∧ x.state = 3 ∧ x.since + 1000000000 ≤ max s.m.now t0)
    ∧ (∃ (s : _) (p : Nat) (i : Nat) (x : Peer), live s = true ∧ peerGet s.q p i = some x ∧ portOn s.c p = true ∧ shakes s.q = true ∧ x.state = 4)
    ∧ (∃ (s : _) (p : Nat) (i : Nat) (t0 : _) (x : Peer), live s = true ∧ peerGet s.q p i = some x ∧ 4 ≤ x.state
      ∧ x.mkaAt + 6000000000 ≤ max s.m.now t0)
    ∧ (∃ (s : _) (p : Nat) (i : Nat) (x : Peer), live s = true ∧ peerGet s.q p i = some x ∧ 5 ≤ x.state)
    ∧ (∃ (s : _) (p : Nat) (i : Nat) (x : Peer), live s = true ∧ peerGet s.q p i = some x ∧ x.timePath = true ∧ shakes s.q = true)
    ∧ ∃ s t0, live s = true ∧ s.m.casc.noMaster = true ∧ s.m.casc.noMasterAt + 1000000000 ≤ max s.m.now t0 :=
  ⟨⟨(sCas 2 (peerIn 15 7)), 3, linkOf (peerIn 15 7), by decide +kernel⟩,
   ⟨s0, 3, {}, by decide +kernel⟩,
   ⟨(sCas 2 (peerIn 15 2)), 3, 0, linkOf (peerIn 15 2), by decide +kernel⟩,
   ⟨(sCas 2 (peerIn 15 7)), 3, head1 5 15 3 128, hello1, linkOf (peerIn 15 7), by decide +kernel⟩,
   ⟨(sCas 2 { peerIn 15 3 with hello := some hello1 }), 3, 0, head1 6 0 15 232, ⟨0, 15, 7, 8, 0⟩, { peerIn 15 3 with hello := some hello1 }, hello1, by decide +kernel⟩,
   ⟨(sCas 2 (peerIn 15 3)), 3, 0, 1000000000, (peerIn 15 3), by decide +kernel⟩,
   ⟨(sCas 2 (peerIn 15 4)), 3, 0, (peerIn 15 4), by decide +kernel⟩,
   ⟨(sCas 2 (peerIn 15 4)), 3, 0, 6000000000, (peerIn 15 4), by decide +kernel⟩,
   ⟨(sCas 2 (peerIn 15 5)), 3, 0, (peerIn 15 5), by decide +kernel⟩,
   ⟨(sCas 2 { peerIn 15 6 with timePath := true }), 3, 0, { peerIn 15 6 with timePath := true }, by decide +kernel⟩,
   ⟨(onM s0 fun m => { m with casc := { m.casc with noMaster := true } }), 1000000000, by decide +kernel⟩⟩

theorem test_LinkFramesInSequence :
    (∃ (s : _) (p : Nat) (i : Nat) (h : KHead) (d : List Byte) (l : Link) (x : Peer) (y : Queue), arrives p i 1 h (h.len == d.length && h.len ≤ 8192 && 0x80 ≤ h.route && h.route ≤ 0xBF) s l x
      ∧ h.seq = x.expSeq ∧ ((∃ b ∈ s.m.casc.binds, b.2.recv = true ∧ b.2.q = h.queue ∧ b.2.port = p ∧ some b.2.engine = x.engine))
      ∧ qGet s.q h.queue = some y ∧ y.ctx.state ≠ qsKilled ∧ (domE s.q y.ctx.dom).state ≠ 2)
    ∧ (∃ (s : _) (p : Nat) (i : Nat) (h : KHead) (es : List (Nat × Nat)) (l : Link) (x : Peer), arrives p i 2 h (h.len == 8 * es.length && h.len ≤ 8192 && es.all fun e => e.1 < 2 ^ 20 && e.2 < 2 ^ 16) s l x
      ∧ h.seq = x.expSeq)
    ∧ (∃ (s : _) (p : Nat) (i : Nat) (h : KHead) (l : Link) (x : Peer), arrives p i 0 h (h.len == 0) s l x)
    ∧ (∃ (s : _) (p : Nat) (i : Nat) (h : KHead) (l : Link) (x : Peer), arrives p i 3 h (h.len == 0) s l x)
    ∧ (∃ (s : _) (p : Nat) (i : Nat) (t0 : _) (x : Peer) (f : _), live s = true ∧ portOn s.c p = true ∧ peerGet s.q p i = some x ∧ 5 ≤ x.state
      ∧ x.unacked.head? = some f ∧ f.lastAt + 20000 ≤ max s.m.now t0)
    ∧ ∃ (s : _) (p : Nat) (i : Nat) (t0 : _) (l : Link) (x : Peer) (v : LinkCfg), live s = true ∧ s.m.links[p]? = some l ∧ peerGet s.q p i = some x
      ∧ s.c.links[p]? = some v ∧ 5 ≤ x.state ∧ x.lastRx + v.timeout * 1000 ≤ max s.m.now t0 :=
  ⟨⟨(onM (sCas 2 (peerIn 15 7)) fun m => { m with casc := { m.casc with binds := [(0, bind1 true)] } }), 3, 0, { head1 1 0 15 2 with queue := 3, route := 0xBF }, [1, 2], linkOf (peerIn 15 7), (peerIn 15 7), queue1, by unfold arrives; decide +kernel⟩,
   ⟨(sCas 2 (peerIn 15 7)), 3, 0, head1 2 0 15 8, [(3, 7)], linkOf (peerIn 15 7), (peerIn 15 7), by unfold arrives; decide +kernel⟩,
   ⟨(sCas 2 (peerIn 15 7)), 3, 0, head1 0 0 15 0, linkOf (peerIn 15 7), (peerIn 15 7), by unfold arrives; decide +kernel⟩,
   ⟨(sCas 2 (peerIn 15 7)), 3, 0, head1 3 0 15 0, linkOf (peerIn 15 7), (peerIn 15 7), by unfold arrives; decide +kernel⟩,
   ⟨(sCas 2 { peerIn 15 7 with unacked := [frame1] }), 3, 0, 20000, { peerIn 15 7 with unacked := [frame1] }, frame1, by decide +kernel⟩,
   ⟨(sCas 2 (peerIn 15 7)), 3, 0, 1000000, linkOf (peerIn 15 7), (peerIn 15 7), ⟨true, 0, 5, 0, 0, 0x88B5, 1000, 32⟩, by decide +kernel⟩⟩

theorem test_FramesLeaveInOrder :
    (∃ (s : _) (p : Nat) (t0 : Nat) (l : Link) (x : Nat × Nat × Nat × Nat) (r : List (Nat × Nat × Nat × Nat)) (b : Nat × Nat × Nat × Nat) (y : Peer) (f : Frame), live s = true
      ∧ s.m.links[p]? = some l ∧ portOn s.c p = true ∧ l.macUp = true ∧ s.m.casc.noMaster = false ∧ sendCands s.c (tickTo t0 s.q) l = x :: r
      ∧ b = sendFirst x r ∧ peerGet s.q p b.2.2.1 = some y ∧ y.queue[b.2.2.2]? = some f)
    ∧ (∃ (s : _) (p : Nat) (t0 : Nat) (l : Link), live s = true ∧ s.m.links[p]? = some l ∧ portOn s.c p = true ∧ l.macUp = true
      ∧ s.m.casc.noMaster = false ∧ sendCands s.c (tickTo t0 s.q) l = [])
    ∧ ∃ (s : _) (p : Nat) (i : Nat) (h : KHead) (es : List (Nat × Nat)) (l : Link) (x : Peer) (e : Nat × Nat) (q : Nat) (d : Nat) (y : Desc), arrives p i 4 h (h.len == 8 * es.length && h.len ≤ 8192 && es.all fun e => e.1 < 2 ^ 20 && e.2 < 2 ^ 8) s l x
      ∧ h.seq = x.expSeq ∧ e ∈ es ∧ descGet s.q q d = some y ∧ ((∃ f ∈ x.unacked ++ x.queue, f.head.type = 1 ∧ f.head.queue = e.1 ∧ f.q = q
      ∧ f.desc = d) ∨ ((∀ f ∈ x.unacked ++ x.queue, ¬(f.head.type = 1 ∧ f.head.queue = e.1)) ∧ y.phase = 2 ∧ y.running ≠ 0
      ∧ ∃ b ∈ s.m.casc.binds, b.2.recv = false ∧ b.2.port = p ∧ some b.2.engine = x.engine ∧ b.2.remote = e.1 ∧ b.2.q = q)) :=
  ⟨⟨(sCas 2 { peerIn 15 7 with queue := [{ frame1 with head := head1 2 15 0 4 }] }), 3, 0, linkOf { peerIn 15 7 with queue := [{ frame1 with head := head1 2 15 0 4 }] }, (0, 0, 0, 0), [], (0, 0, 0, 0), { peerIn 15 7 with queue := [{ frame1 with head := head1 2 15 0 4 }] }, { frame1 with head := head1 2 15 0 4 }, by decide +kernel⟩,
   ⟨(sCas 2 (peerIn 15 7)), 3, 0, linkOf (peerIn 15 7), by decide +kernel⟩,
   ⟨(onM (withD (sCas 2 (peerIn 15 7)) ctx1 { descOf runBytes 2 with running := 1 }) fun m => { m with casc := { m.casc with binds := [(0, bind1 false)] } }), 3, 0, head1 4 0 15 8, [(8, 1)], linkOf (peerIn 15 7), (peerIn 15 7), (8, 1), 3, 0, { descOf runBytes 2 with running := 1 }, by unfold arrives; decide +kernel⟩⟩

theorem test_CascadeFrames :
    (∃ (s : _) (p : Nat) (i : Nat) (h : KHead) (pp : Nat) (q : Nat) (l : Link) (x : Peer), arrives p i 7 h (h.len == 32) s l x ∧ h.seq = x.expSeq
      ∧ roleOf s.c = 1 ∧ x.engine = some 0 ∧ s.c.tick.src = 2 ∧ tickOk { s.c.tick with period := pp, quiet := q } = true)
    ∧ (∃ (s : _) (p : Nat) (i : Nat) (h : KHead) (e : Nat) (b : List Byte) (l : Link) (x : Peer) (g : Nat), arrives p i 8 h (h.len == 32 && b.length == 24) s l x
      ∧ h.seq = x.expSeq ∧ roleOf s.c = 2 ∧ x.engine = some g ∧ e < 4096 ∧ termsBad b = false ∧ termsRange (termsOf b) = false
      ∧ memberOk s.c s.q g (mset s.m.casc.memberLedger (4096 * g + e) (entryWith (termsOf b))) = true)
    ∧ (∃ (s : _) (p : Nat) (i : Nat) (h : KHead) (b : List Byte) (l : Link) (x : Peer) (g : Nat), arrives p i 8 h (h.len == 32 && b.length == 24) s l x
      ∧ h.seq = x.expSeq ∧ roleOf s.c = 2 ∧ x.engine = some g)
    ∧ (∃ (s : _) (p : Nat) (i : Nat) (h : KHead) (rq : Nat) (b : List Byte) (t0 : Nat) (l : Link) (x : Peer), arrives p i 9 h (h.len == 16 + b.length && h.len ≤ 8192) s l x
      ∧ h.seq = x.expSeq ∧ roleOf s.c = 1 ∧ x.engine = some 0
      ∧ headerBad { bytes := b.take 64, phase := 0, seq := s.m.rings.nextCmd, start := max s.m.now t0, arg := 0, relay := some rq, areaBytes := b.drop 64 } = false)
    ∧ ∃ (s : _) (p : Nat) (i : Nat) (h : KHead) (o : Nat) (n : Nat) (d : List Byte) (l : Link) (x : Peer), arrives p i 0xA h (h.len == 16 + d.length && h.len ≤ 8192) s l x
      ∧ h.seq = x.expSeq ∧ roleOf s.c ≠ 2 ∧ x.engine = some 0 ∧ takesImage s.q = true ∧ o = s.m.casc.image.length ∧ o + d.length < n :=
  ⟨⟨(onC (sCas 1 (peerIn 0 7)) fun c => { c with tick := { c.tick with src := 2 } }), 3, 0, head1 7 15 0 32, 250, 125, linkOf (peerIn 0 7), (peerIn 0 7), by unfold arrives; decide +kernel⟩,
   ⟨(onM (sCas 2 (peerIn 15 7)) fun m => { m with casc := { m.casc with shares := [(16 + 15, 64)] } }), 3, 0, head1 8 0 15 32, 4095, image 24 [(0, 8, 2000), (8, 4, 1000), (0xC, 1, 64), (0xD, 1, 63), (0xE, 2, 1)], linkOf (peerIn 15 7), (peerIn 15 7), 15, by unfold arrives; decide +kernel⟩,
   ⟨(sCas 2 (peerIn 15 7)), 3, 0, head1 8 0 15 32, image 24 [(0, 8, 2000), (8, 4, 1000), (0xC, 1, 64), (0xD, 1, 63), (0xE, 2, 1)], linkOf (peerIn 15 7), (peerIn 15 7), 15, by unfold arrives; decide +kernel⟩,
   ⟨(sCas 1 (peerIn 0 7)), 3, 0, head1 9 15 0 80, 6, ((cmd 0x105 0 0x3000000 [])).bytes, 9, linkOf (peerIn 0 7), (peerIn 0 7), by unfold arrives; decide +kernel⟩,
   ⟨(onM (sCas 1 (peerIn 0 7)) fun m => { m with boot := { m.boot with state := bsLoading, source := 2 } }), 3, 0, head1 10 15 0 17, 0, 2, [5], linkOf (peerIn 0 7), (peerIn 0 7), by unfold arrives; decide +kernel⟩⟩

theorem test_DoorsJudgeTheirWrites :
    (∃ s q x, live s = true ∧ qGet s.q q = some x ∧ ctxReady s q x.ctx.dom ∧ x.ctx.feed = false ∧ doorOpen s.c s.q x = true
      ∧ badIn s.m.mem (s.c.tb.cnt + 16 * q) 16 = none)
    ∧ (∃ s q v x, live s = true ∧ qGet s.q q = some x ∧ ctxReady s q x.ctx.dom ∧ x.ctx.feed = true ∧ doorOpen s.c s.q x = true ∧ v < 2 ^ 32
      ∧ subMod v x.feedIdx (2 ^ 32) < 2 ^ 31)
    ∧ (∃ s q w v x, live s = true ∧ qGet s.q q = some x ∧ ctxReady s q x.ctx.dom ∧ x.ctx.feed = true ∧ doorOpen s.c s.q x = true
      ∧ (w ≠ 8 ∨ (v < 2 ^ 64 ∧ (2 ^ 32 ≤ v ∨ 2 ^ 31 ≤ subMod v x.feedIdx (2 ^ 32)))))
    ∧ (∃ m q x v, qGet m q = some x ∧ x.ctx.ringLog2 ≤ 16 ∧ x.ctx.state < 8 ∧ v = readPigeonhole q m)
    ∧ (∃ m i b v, mget m.mbx i = some b ∧ b.seq < 2 ^ 16 ∧ v = readTrigger i m)
    ∧ (∃ (s : _) (i : _) (o : _) (d : List Byte), live s = true ∧ s.c.lockTables = true ∧ i < 4096 ∧ d ≠ [] ∧ o / 64 = (o + d.length - 1) / 64
      ∧ o + d.length ≤ 0xF8)
    ∧ ∃ s i v q x a b land, live s = true ∧ mbxQueue s.q i = some q ∧ qGet s.q q = some x ∧ ctxReady s q x.ctx.dom ∧ doorOpen s.c s.q x = true
      ∧ x.ctx.feed = false ∧ v < 2 ^ 24 ∧ bits v 16 8 ≤ 248 ∧ x.ctx.state ≠ qsKilled ∧ badIn s.m.mem (s.c.tb.cnt + 16 * q) 16 = none
      ∧ b = (mget s.m.mbx i).getD {} ∧ land = (match b.flight with | some l => 1 - l | none => (b.pending.map (·.2)).getD 0)
      ∧ translateNow s.c s.q x.ctx.dom (landingVa x.ctx.aux land) .write = .dev a ∧ writeChk s.m.mem x.ctx.dom a 256 = .ok
      ∧ inImage s.q a 256 = false ∧ lineBusy s.q a 256 = false :=
  ⟨⟨s0, 3, queue1, by unfold ctxReady; decide +kernel⟩,
   ⟨(withQ s0 3 ({ ctx := { ctx1 with feed := true } })), 3, 2 ^ 31 - 1, { ctx := { ctx1 with feed := true } }, by unfold ctxReady; decide +kernel⟩,
   ⟨(withQ s0 3 ({ ctx := { ctx1 with feed := true } })), 3, 4, 0, { ctx := { ctx1 with feed := true } }, by unfold ctxReady; decide +kernel⟩,
   ⟨s0.m, 3, queue1, readPigeonhole 3 s0.m, by decide +kernel⟩,
   ⟨sM.m, 4095, bM, readTrigger 4095 sM.m, by decide +kernel⟩,
   ⟨s0, 4095, 0xF7, [1], by decide +kernel⟩,
   ⟨sM, 4095, 248 * 65536, 3, yM, 0x4003200, bM, 1, by unfold ctxReady; decide +kernel⟩⟩

theorem test_FetchTakesPublishedDescriptors :
    (∃ s q t0 y m l n m1 h o, published s q t0 y m l n ∧ holdCpl s.c q y m = (m1, .ok h) ∧ descBad y.ctx.path false l = some o)
    ∧ (∃ s q t0 y m l n m1 h x m2 m3 hs, published s q t0 y m l n ∧ holdCpl s.c q y m = (m1, .ok h) ∧ descBad y.ctx.path false l = none
      ∧ strideBad m1 y.ctx.dom (desc0 y.ctx l (y.ctx.head % 2 ^ y.ctx.ringLog2) (max s.m.now t0)) = none
      ∧ copyStreams s.c q y.ctx.dom { desc0 y.ctx l (y.ctx.head % 2 ^ y.ctx.ringLog2) (max s.m.now t0) with cplHeld := h } m1 = (m2, .ok x)
      ∧ copyFetchBad m2 q y.nextId x = none ∧ holdAll s.c q y.ctx.dom (heldRanges s.c m2 y.ctx x) m2 = (m3, .ok hs))
    ∧ (∃ s q t0 y b sq land m l m1 h o, submitted s q t0 y b sq land m l ∧ holdCpl s.c q y m = (m1, .ok h) ∧ descBad 2 true l = some o)
    ∧ (∃ s q t0 y b sq land m l m1 h x0 x m2 m3 hs, submitted s q t0 y b sq land m l ∧ holdCpl s.c q y m = (m1, .ok h) ∧ descBad 2 true l = none
      ∧ x0 = { desc0 y.ctx l 0xFFFF (max s.m.now t0) with seq := some sq, landing := landingVa y.ctx.aux land, cplHeld := h }
      ∧ strideBad m1 y.ctx.dom x0 = none ∧ copyStreams s.c q y.ctx.dom x0 m1 = (m2, .ok x) ∧ copyFetchBad m2 q y.nextId x = none
      ∧ holdAll s.c q y.ctx.dom (heldRanges s.c m2 y.ctx x) m2 = (m3, .ok hs))
    ∧ ∃ s q y, live s = true ∧ qGet s.q q = some y ∧ y.drained = true ∧ y.descs = [] ∧ y.ctx.state = qsRunning :=
  ⟨⟨(sF (List.replicate 128 (0 : Byte))), 3, 0, yF, (rF (List.replicate 128 (0 : Byte))).1, (List.replicate 128 (0 : Byte)), 1, (hF (List.replicate 128 (0 : Byte))).1, okv none (hF (List.replicate 128 (0 : Byte))), 0, by unfold published; dsimp only; and_intros <;> first | decide +kernel | exact .inl (by and_intros <;> decide +kernel)⟩,
   ⟨(sF copyBytes), 3, 0, yF, (rF copyBytes).1, copyBytes, 1, (hF copyBytes).1, okv none (hF copyBytes), xF copyBytes, (dF copyBytes).1, (gF copyBytes).1, okv [] (gF copyBytes), by unfold published; dsimp only; and_intros <;> first | decide +kernel | exact .inl (by and_intros <;> decide +kernel)⟩,
   ⟨sM, 3, 0, yM, bM, 5, 1, rM.1, (List.replicate 128 (0 : Byte)), (holdCpl sM.c 3 yM rM.1).1, okv none (holdCpl sM.c 3 yM rM.1), 0, by unfold submitted; decide +kernel⟩,
   ⟨sM2, 3, 0, yM, bM, 5, 1, rM2.1, standBytes, hM2.1, okv none hM2, x0M2, xM2, dM2.1, gM2.1, okv [] gM2, by unfold submitted; decide +kernel⟩,
   ⟨(withQ s0 3 ({ queueIn qsRunning with drained := true })), 3, { queueIn qsRunning with drained := true }, by decide +kernel⟩⟩

theorem test_LayersArePresented :
    (∃ s q d t0 y x m st e, turn s q d t0 y x m ∧ presentEarly s.c m q y x = some (st, e))
    ∧ (∃ s q d t0 y x m m1 recs b map lv l st e, turn s q d t0 y x m ∧ presentEarly s.c m q y x = none
      ∧ presentReads s.c q d x m = (m1, .ok (recs, (b, map, lv), l))
      ∧ presentLate x (layerWins s.m x) ((layerRec s.m x).getD []) recs b map lv = some (st, e))
    ∧ (∃ s q d t0 y x m m1 recs b map lv l r, turn s q d t0 y x m ∧ presentEarly s.c m q y x = none ∧ r = (layerRec s.m x).getD []
      ∧ presentReads s.c q d x m = (m1, .ok (recs, (b, map, lv), l)) ∧ presentLate x (layerWins s.m x) r recs b map lv = none
      ∧ neverFits m1 q y r = true)
    ∧ ∃ s q d t0 y x m m1 m2 recs b map lv l r, turn s q d t0 y x m ∧ presentEarly s.c m q y x = none ∧ r = (layerRec s.m x).getD []
      ∧ presentReads s.c q d x m = (m1, .ok (recs, (b, map, lv), l)) ∧ presentLate x (layerWins s.m x) r recs b map lv = none
      ∧ neverFits m1 q y r = false ∧ landInline s.c q d y x m1 = (m2, .ok ()) :=
  ⟨⟨(withD s0 ctxR x0), 3, 0, 0, yL x0, x0, tickTo 0 (withD s0 ctxR x0).q, stPermission, 0, by unfold turn; decide +kernel⟩,
   ⟨sL6, 3, 0, 0, yL x6, x6, tickTo 0 sL6.q, (reads sL6 x6).1, (gotL sL6 x6).1, (gotL sL6 x6).2.1.1, (gotL sL6 x6).2.1.2.1, (gotL sL6 x6).2.1.2.2, (gotL sL6 x6).2.2, stEmptyOutput, 1, by unfold turn; and_intros <;> first | decide +kernel | rfl⟩,
   ⟨sLx, 3, 0, 0, yL x0, x0, tickTo 0 sLx.q, (reads sLx x0).1, (gotL sLx x0).1, (gotL sLx x0).2.1.1, (gotL sLx x0).2.1.2.1, (gotL sLx x0).2.1.2.2, (gotL sLx x0).2.2, lrec 2 2000000 0 0, by unfold turn; and_intros <;> first | decide +kernel | rfl⟩,
   ⟨sL0, 3, 0, 0, yL x0, x0, tickTo 0 sL0.q, (reads sL0 x0).1, (landInline sL0.c 3 0 (yL x0) x0 (reads sL0 x0).1).1, (gotL sL0 x0).1, (gotL sL0 x0).2.1.1, (gotL sL0 x0).2.1.2.1, (gotL sL0 x0).2.1.2.2, (gotL sL0 x0).2.2, lrec 2 2000 0 0, by unfold turn; and_intros <;> first | decide +kernel | rfl⟩⟩

theorem test_LayersAreAdmitted :
    (∃ s q d y x, live s = true ∧ qGet s.q q = some y ∧ descGet s.q q d = some x ∧ x.phase = 1 ∧ x.isRun = true ∧ x.cancelled = false
      ∧ goesOn y = true ∧ earlierAt y d 2 = true ∧ y.ctx.rt = false ∧ poolBind x.bytes = none)
    ∧ (∃ s q d y x k e, live s = true ∧ qGet s.q q = some y ∧ descGet s.q q d = some x ∧ x.phase = 1 ∧ x.isRun = true ∧ x.cancelled = false
      ∧ goesOn y = true ∧ earlierAt y d 2 = true ∧ y.ctx.rt = true ∧ poolBind x.bytes = none ∧ s.m.tick.partialTick = false
      ∧ s.m.now < s.m.tick.limit ∧ entryOf s.m q = some (k, e) ∧ e.running = true ∧ mget s.m.ledger k = some e
      ∧ x.tiles * x.wcet + x.altTiles * x.altWcet ≤ e.balance)
    ∧ (∃ s q d y x k e, live s = true ∧ qGet s.q q = some y ∧ descGet s.q q d = some x ∧ y.ctx.rt = true ∧ entryOf s.m q = some (k, e)
      ∧ (e.balance < x.tiles * x.wcet + x.altTiles * x.altWcet ∨ s.m.tick.partialTick = true ∨ s.m.tick.limit ≤ s.m.now))
    ∧ (∃ s n t0 g p x, live s = true ∧ mget s.m.sched.groups n = some g ∧ g.members.head? = some p ∧ descGet s.q p.1 p.2 = some x
      ∧ (128 ≤ g.rows ∨ g.ends ≤ max s.m.now t0))
    ∧ ∃ s q d x, live s = true ∧ descGet s.q q d = some x ∧ x.phase = 2 ∧ x.alt = true ∧ x.cancelled = false ∧ x.next = x.altTiles + 1
      ∧ ((∀ k ∈ s.m.cores, ∀ u, k.tc = some u → u.alt = true ∨ (u.q, u.desc) ∉ groupOf s.m q d)) :=
  ⟨⟨(withD s0 ctxR x1), 3, 0, yL x1, x1, by decide +kernel⟩,
   ⟨sRt 2000, 3, 0, yR, x1, 4095, entryB 2000, by decide +kernel⟩,
   ⟨sRt 1999, 3, 0, yR, x1, 4095, entryB 1999, by decide +kernel⟩,
   ⟨(onM (withD s0 ctxR x1) fun m => { m with sched := { m.sched with groups := [(1, ⟨[(3, 0)], 128, 5, false, false⟩)] } }), 1, 0, ⟨[(3, 0)], 128, 5, false, false⟩, (3, 0), x1, by decide +kernel⟩,
   ⟨(withD s0 ctxR { descOf runBytes 2 with alt := true, next := 3, altTiles := 2 }), 3, 0, { descOf runBytes 2 with alt := true, next := 3, altTiles := 2 }, by decide +kernel⟩⟩

theorem test_NothingIssuesPastTheLimit :
    ∃ (i : Instr), ((∃ t0, i = .tileCommandIssue t0) ∨ (∃ q d t0, i = .gangIssue q d t0)) :=
  ⟨.tileCommandIssue 5, .inl ⟨5, rfl⟩⟩

theorem test_TileCommandsIssue :
    (∃ s t0 k a m1, live s = true ∧ s.m.power.fail = 0 ∧ readyKept s.c (tidy s.c (tickTo t0 s.q)) = some (k, a)
      ∧ m1 = withAlloc s.c a (tidy s.c (tickTo t0 s.q)))
    ∧ (∃ (s : _) (t0 : _) (m : _) (m1 : _) (a : _) (k : Nat) (ks : _) (x : Core), live s = true ∧ s.m.power.fail = 0 ∧ m = tidy s.c (tickTo t0 s.q)
      ∧ readyKept s.c m = none ∧ choose s.c m = (m1, some (a, k :: ks)) ∧ lrGang a.lrec < 2 ∧ s.m.cores[k]? = some x)
    ∧ (∃ s q d t0 m a ks, live s = true ∧ s.m.power.fail = 0 ∧ m = tidy s.c (tickTo t0 s.q)
      ∧ candOf s.c { m with sched := { m.sched with chosen := [] } } q d = some a ∧ 2 ≤ lrGang a.lrec ∧ ks = gangCores s.c m a ∧ ks.Nodup
      ∧ ks.length = a.size ∧ ks.all (keptReady m a) = true ∧ max s.m.now t0 + a.w ≤ s.m.tick.limit
      ∧ (a.rt = true ∨ leavesTime { m with sched := { m.sched with chosen := m.sched.chosen.filter fun p => !ks.contains p.1 } } a ks = true))
    ∧ (∃ (s : _) (k : Nat) (x : Core), live s = true ∧ s.m.cores[k]? = some x ∧ x.tc = none ∧ x.regs.dirty = true ∧ x.regs.test < 2 ∧ x.regs.state ≠ 2
      ∧ readsBack s.m k = true)
    ∧ (∃ (s : _) (k : Nat) (x : Core), live s = true ∧ s.m.cores[k]? = some x ∧ x.regs.state = 2)
    ∧ ∃ (s : _) (k : Nat) (t0 : _) (x : Core), live s = true ∧ s.m.cores[k]? = some x ∧ s.c.gateIdle = true ∧ noGateNow s.c k x.regs = false
      ∧ coreFree x = true ∧ x.regs.gated = false ∧ x.regs.since + 100000 ≤ max s.m.now t0 ∧ ((∀ p ∈ s.m.sched.chosen, p.1 ≠ k)) :=
  ⟨⟨sI 0 [31], 0, (keptI.get keptI_some).1, (keptI.get keptI_some).2, withAlloc (sI 0 [31]).c (keptI.get keptI_some).2 (mI 0 [31]), by and_intros <;> first | decide +kernel | rfl⟩,
   ⟨sI 0 [], 0, mI 0 [], choiceI.1, (choiceI.2.get choiceI_some).1, 0, [], core0, by and_intros <;> first | exact choiceI_eq | decide +kernel | rfl⟩,
   ⟨sI 2 [30, 31], 3, 0, 0, mI 2 [30, 31], (candI 2 [30, 31]).get candI_some, [30, 31], by and_intros <;> first | decide +kernel | rfl⟩,
   ⟨(onM s0 fun m => { m with cores := lupd m.cores 31 fun x => { x with regs := { x.regs with dirty := true } } }), 31, { core0 with regs := { coreRegs0 with dirty := true } }, by decide +kernel⟩,
   ⟨(onM s0 fun m => { m with cores := lupd m.cores 31 fun x => { x with regs := { x.regs with state := 2 } } }), 31, { core0 with regs := { coreRegs0 with state := 2 } }, by decide +kernel⟩,
   ⟨(onM (onC s0 fun c => { c with gateIdle := true }) fun m => { m with cores := lupd m.cores 31 fun x => { x with regs := { x.regs with issued := 0 } } }), 31, 100000, { core0 with regs := { coreRegs0 with issued := 0 } }, by decide +kernel⟩⟩

theorem test_LayersDrainAndComplete :
    (∃ (s : _) (k : Nat) (x : Core) (u : _) (z : _), live s = true ∧ s.m.cores[k]? = some x ∧ x.tc = some u ∧ hasDrained s.m k x u = true
      ∧ descGet s.q u.q u.desc = some z ∧ groupOf s.m u.q u.desc = [(u.q, u.desc)] ∧ u.alt = false ∧ z.alt = false)
    ∧ (∃ s q d x, live s = true ∧ descGet s.q q d = some x ∧ x.phase = 3 ∧ x.running = 0 ∧ leadFirst s.m q d x = false ∧ x.isRun = false)
    ∧ (∃ s q d x, live s = true ∧ descGet s.q q d = some x ∧ x.phase = 3 ∧ x.running = 0 ∧ leadFirst s.m q d x = false ∧ x.isRun = true ∧ x.enqs = []
      ∧ (x.gather = 0 ∨ x.gather = 6) ∧ ((∀ h ∈ histBinds x.bytes, bits h.2.2 2 1 ≠ 1)))
    ∧ (∃ s q d t0 x va sl f a m1 b, live s = true ∧ descGet s.q q d = some x ∧ x.phase = 3 ∧ x.running = 0 ∧ leadFirst s.m q d x = false
      ∧ x.isRun = true ∧ x.enqs = [] ∧ (x.gather = 0 ∨ x.gather = 6) ∧ histBinds x.bytes = [(va, sl, f)] ∧ bits f 2 1 = 1
      ∧ ((finalStatus x).1 = stOk ∨ (finalStatus x).1 = stOkRerun) ∧ recRead s.c q x va (tickTo t0 s.q) = (m1, .ok b) ∧ recSpots x va = [(a, 128)]
      ∧ x.histDone = false ∧ inImage s.q a 128 = false ∧ lineBusy s.q a 128 = false ∧ flushFailed s.m x = false
      ∧ (x.flagGlobal = false ∨ (unsent s.m q d = false ∧ linesOut s.m x = false ∧ flushWaits s.m x = false)))
    ∧ ∃ s q d x p n va m1 l m2, live s = true ∧ descGet s.q q d = some x ∧ poolBind x.bytes = some (p, n, va) ∧ x.gather = 5
      ∧ feRead s.c q (qDom s.m q) (plLive (poolEntry s.c s.m p)) (liveLen (poolEntry s.c s.m p)) s.q = (m1, .ok l)
      ∧ soWrite s.c q d [(0, plLive (poolEntry s.c s.m p), liveSet false (((x.params.drop 64).filter meLeave).map meSlot) l)] m1 = (m2, .ok ()) :=
  ⟨⟨(withD (onM s0 fun m => { m with cores := lupd m.cores 0 fun _ => cE }) ctxR xE), 0, cE, { tc1 with ended := true }, xE, by decide +kernel⟩,
   ⟨(withD s0 ctxR (descOf copyBytes 3)), 3, 0, descOf copyBytes 3, by decide +kernel⟩,
   ⟨(withD s0 ctxR (descOf runBytes 3)), 3, 0, descOf runBytes 3, by decide +kernel⟩,
   ⟨(withD s0 ctxR xH), 3, 0, 0, xH, 0x8000, 1, 132, 0x4008000, (recRead (withD s0 ctxR xH).c 3 xH 0x8000 (tickTo 0 (withD s0 ctxR xH).q)).1, okv [] (recRead (withD s0 ctxR xH).c 3 xH 0x8000 (tickTo 0 (withD s0 ctxR xH).q)), by decide +kernel⟩,
   ⟨sP, 3, 0, xP, 4095, 1, 0x4000, rP.1, okv [] rP, wP.1, by decide +kernel⟩⟩

theorem test_CompletionRecordsAreWritten :
    (∃ s q d t0 y x h m0, live s = true ∧ m0 = ownFlushed q d (msixDue (tickTo t0 s.q)) ∧ qGet m0 q = some y ∧ mget y.descs d = some x ∧ x.phase = 4
      ∧ x.running = 0 ∧ unsent m0 q d = false ∧ linesOut m0 x = false ∧ memberFirst m0 q d x = true ∧ collectorTurn m0 q d = true
      ∧ s.m.power.fail < 2 ∧ flushFns x = [] ∧ x.cplHeld = some h ∧ h.host = none ∧ h.void = false ∧ lineBusy m0 h.phys 32 = false
      ∧ inImage m0 h.phys 32 = false ∧ writeChk m0.mem y.ctx.dom h.phys 32 = .ok ∧ badIn m0.mem (s.c.tb.cnt + 16 * q) 16 = none)
    ∧ (∃ s id r y, live s = true ∧ s.m.hp.sent.find? (fun r => r.id == id && r.kind == 0) = some r ∧ r.who = 1 ∧ s.m.dlOff = false
      ∧ qGet s.q r.q = some y ∧ y.ctx.state ≠ qsKilled ∧ lineBusy s.q (s.c.tb.dl + 64 * (s.m.dlTail % 2 ^ s.c.tb.dlLog2)) 64 = false
      ∧ ringFails s.m (s.c.tb.dl + 64 * (s.m.dlTail % 2 ^ s.c.tb.dlLog2)) = none
      ∧ subMod s.m.dlTail s.m.dlHead (2 * 2 ^ s.c.tb.dlLog2) < 2 ^ s.c.tb.dlLog2)
    ∧ (∃ s t0, live s = true ∧ s.m.irq.dlPend = true ∧ s.m.irq.dlUntil ≤ max s.m.now t0 ∧ s.c.dlIrq.en = true ∧ vecOpen s.m s.c.dlIrq.vector = true
      ∧ givingUp s.m s.c.tb.dl (64 * 2 ^ s.c.tb.dlLog2) = false ∧ ((∀ e ∈ s.m.irq.due, max s.m.now t0 < e.2.1 + 64)))
    ∧ (∃ s t0 v a l, live s = true ∧ s.m.irq.due = [(v, a, l)] ∧ a + 64 ≤ max s.m.now t0 ∧ ((∀ b ∈ l, b ∉ s.m.hp.bisnp)) ∧ s.m.irq.dlPend = false
      ∧ vecOpen s.m v = true)
    ∧ ∃ s t0, live s = true ∧ s.m.irq.evtPend = true ∧ s.m.irq.evtUntil ≤ max s.m.now t0 ∧ s.c.evtIrq.en = true
      ∧ vecOpen s.m s.c.evtIrq.vector = true ∧ givingUp s.m evtRing 0x40000 = false ∧ ((∀ e ∈ s.m.irq.due, max s.m.now t0 < e.2.1 + 64)) :=
  ⟨⟨(onM (withQ s0 3 yC) fun m => { m with sched := { m.sched with collector := [⟨3, 0, 0, none⟩] } }), 3, 0, 0, yC, xC, heldC, ownFlushed 3 0 (msixDue (tickTo 0 (onM (withQ s0 3 yC) fun m => { m with sched := { m.sched with collector := [⟨3, 0, 0, none⟩] } }).q)), by decide +kernel⟩,
   ⟨(onC (onM s0 fun m => { m with hp := { m.hp with sent := [{ req1 0 1 0x2000 with q := 3 }] } }) fun c => { c with tb := { c.tb with dl := 0x3080000, dlLog2 := 6 } }), 9, { req1 0 1 0x2000 with q := 3 }, queue1, by decide +kernel⟩,
   ⟨(onC (onM sHost fun m => { m with irq := { m.irq with dlPend := true, dlUntil := 5 } }) fun c => { c with dlIrq := ⟨5, true, 2047⟩ }), 5, by decide +kernel⟩,
   ⟨(onM sHost fun m => { m with irq := { m.irq with due := [(7, 5, [1])] } }), 69, 7, 5, [1], by decide +kernel⟩,
   ⟨(onC (onM sHost fun m => { m with irq := { m.irq with evtPend := true, evtUntil := 5 } }) fun c => { c with evtIrq := ⟨5, true, 2047⟩ }), 5, by decide +kernel⟩⟩

theorem test_TimeoutsAndSmallDescriptors :
    (∃ s q d t0 x, live s = true ∧ descGet s.q q d = some x ∧ x.phase ≠ 4 ∧ x.timeout ≠ 0 ∧ timeoutAt x ≤ max s.m.now t0 ∧ x.isRun = false
      ∧ firstOut s.m q d x = true)
    ∧ (∃ s q d t0 x, live s = true ∧ descGet s.q q d = some x ∧ x.phase ≠ 4 ∧ x.phase ≠ 0 ∧ x.timeout ≠ 0 ∧ timeoutAt x ≤ max s.m.now t0
      ∧ x.isRun = true ∧ firstOut s.m q d x = true)
    ∧ (∃ (s : _) (k : Nat) (t0 : _) (x : Core) (u : _), live s = true ∧ (settleTime k (tickTo t0 s.q)).cores[k]? = some x ∧ x.tc = some u
      ∧ 2 * u.wcet + u.halted ≤ max s.m.now t0 - u.issued)
    ∧ (∃ s q d x, live s = true ∧ descGet s.q q d = some x ∧ x.type = 3 ∧ mayBegin s.q q d x = true ∧ leAt x.bytes 8 4 < 2 ^ 31)
    ∧ (∃ s q d x y, live s = true ∧ descGet s.q q d = some x ∧ x.type = 3 ∧ mayBegin s.q q d x = true ∧ 2 ^ 31 ≤ leAt x.bytes 8 4
      ∧ qGet s.q (leAt x.bytes 8 4 % 2 ^ 20) = some y ∧ y.ctx.dom = qDom s.q q)
    ∧ ∃ s q d x y m0 m1, live s = true ∧ descGet s.q q d = some x ∧ x.type = 4 ∧ mayBegin s.q q d x = true ∧ qDom s.m (leAt x.bytes 8 4) = qDom s.m q
      ∧ m0 = loadQueue s.c (leAt x.bytes 8 4) s.q ∧ forwardBad y.ctx.path ((x.bytes.drop 0x80).take 128) = none
      ∧ targetOk m0 (qDom s.m q) (leAt x.bytes 8 4) = true ∧ qGet m0 (leAt x.bytes 8 4) = some y ∧ 1 ≤ ringFree y
      ∧ publishOne s.c ⟨leAt x.bytes 8 4, 0, 1, 0, 0, some ((x.bytes.drop 0x80).take 128), false⟩ m0 = (m1, .ok ()) :=
  ⟨⟨(withD s0 ctxR xS), 3, 0, 1000000000, xS, by decide +kernel⟩,
   ⟨(withD s0 ctxR { descOf runBytes 1 with group := 0 }), 3, 0, 1000000000, { descOf runBytes 1 with group := 0 }, by decide +kernel⟩,
   ⟨(withD (sK id) ctxR xE), 0, 2000, ((settleTime 0 (tickTo 2000 (withD (sK id) ctxR xE).q)).cores.getD 0 core1), (((settleTime 0 (tickTo 2000 (withD (sK id) ctxR xE).q)).cores.getD 0 core1).tc.getD tc1), by decide +kernel⟩,
   ⟨(withD s0 ctxR (fenceOf (2 ^ 31 - 1) 0)), 3, 0, fenceOf (2 ^ 31 - 1) 0, by decide +kernel⟩,
   ⟨(withQ (withD s0 ctxR (fenceOf (2 ^ 31 + 8) 0)) 8 fwdQ), 3, 0, fenceOf (2 ^ 31 + 8) 0, fwdQ, by decide +kernel⟩,
   ⟨sT, 3, 0, xT, fwdQ, loadQueue sT.c 8 sT.q, (publishOne sT.c ⟨8, 0, 1, 0, 0, some ((xT.bytes.drop 0x80).take 128), false⟩ (loadQueue sT.c 8 sT.q)).1, by decide +kernel⟩⟩

theorem test_SortingOfficeOperations :
    (∃ s q d t0 x m0 m1 n l, enters s q d x
      ∧ (if x.isRun && x.phase = 2 then layerAlloc s.c q d (tickTo t0 s.q) else some (tickTo t0 s.q)) = some m0
      ∧ officeBound s.c q d x m0 = (m1, .ok (.inr (n, l))) ∧ 2000 + cdiv n 4 + l ≤ (s.m.tick.cfg.period - s.m.tick.cfg.quiet) * 1000
      ∧ max s.m.now t0 + (2000 + cdiv n 4 + l) ≤ s.m.tick.limit)
    ∧ (∃ s q d t0 x m1 n l, enters s q d x ∧ x.isRun = false ∧ officeBound s.c q d x (tickTo t0 s.q) = (m1, .ok (.inr (n, l)))
      ∧ (s.m.tick.cfg.period - s.m.tick.cfg.quiet) * 1000 < 2000 + cdiv n 4 + l)
    ∧ (∃ s q d t0 o x m1 p m2, live s = true ∧ s.m.depot.ops.find? (fun o => o.q == q && o.desc == d) = some o ∧ descGet s.q q d = some x
      ∧ o.status = stOk ∧ max s.m.now t0 < o.start + 2 * o.t ∧ x.isRun = false ∧ (x.type = 5 → rsScope x ≠ 1)
      ∧ officePlan s.c q d x (tickTo t0 s.q) = (m1, .ok p) ∧ soWrite s.c q d p.writes m1 = (m2, .ok ()))
    ∧ ∃ s q d t0 o x, live s = true ∧ s.m.depot.ops.find? (fun o => o.q == q && o.desc == d) = some o ∧ descGet s.q q d = some x ∧ o.status = stOk
      ∧ o.start + 2 * o.t ≤ max s.m.now t0 ∧ x.isRun = false ∧ awaitsMember s.m q d = false :=
  ⟨⟨(withD s0 ctxR xS), 3, 0, 0, xS, tickTo 0 (withD s0 ctxR xS).q, bS.1, (inrOf bS).1, (inrOf bS).2, by unfold enters; decide +kernel⟩,
   ⟨sSh, 3, 0, 0, xS, bSh.1, (inrOf bSh).1, (inrOf bSh).2, by unfold enters; decide +kernel⟩,
   ⟨sS id, 3, 0, 0, opS, { xS with so := true }, pS.1, okv ⟨0, 0, [], 0, []⟩ pS, (soWrite (sS id).c 3 0 (okv ⟨0, 0, [], 0, []⟩ pS).writes pS.1).1, by and_intros <;> first | decide +kernel | rfl⟩,
   ⟨sS id, 3, 0, 10000, opS, { xS with so := true }, by decide +kernel⟩⟩

theorem test_GrantsAndResponses :
    (∃ s p t0 r, live s = true ∧ (mget s.m.arb.ptr p).getD 0 < 36 ∧ ((∀ x ∈ s.m.arb.waiting, x.who < 36))
      ∧ pick ((mget s.m.arb.ptr p).getD 0) (s.m.arb.waiting.filter fun r => r.point == p && grantable s.c (tickTo t0 s.q) r) = some r)
    ∧ (∃ s p g r, live s = true ∧ p < 16 ∧ g < 1024 ∧ p ∉ s.m.ports.flush ∧ mget s.m.arb.tags (1024 * p + g) = some r ∧ (¬(r.write = true
      ∧ r.rmw = true)) ∧ s.m.arb.later = [])
    ∧ (∃ s p g r, live s = true ∧ p < 16 ∧ g < 1024 ∧ p ∉ s.m.ports.flush ∧ mget s.m.arb.tags (1024 * p + g) = some r ∧ r.write = true ∧ r.rmw = true
      ∧ inImage s.m r.addr r.data.length = false ∧ lineBusy s.q r.addr r.data.length = false)
    ∧ (∃ s p g r e o y, live s = true ∧ p < 16 ∧ g < 1024 ∧ p ∉ s.m.ports.flush ∧ mget s.m.arb.tags (1024 * p + g) = some r ∧ r.write = false
      ∧ r.who ≠ 34 ∧ (e = true ∨ o = false) ∧ qGet s.q r.q = some y)
    ∧ (∃ s p, live s = true ∧ p < 16 ∧ s.m.boot.state ≠ bsReset)
    ∧ ∃ (s : _) (k : Nat) (a : _) (x : Core) (u : _) (z : _) (p : _) (d : _), live s = true ∧ s.m.cores[k]? = some x ∧ x.tc = some u
      ∧ descGet s.q u.q u.desc = some z ∧ mget s.m.parcels z.parcel = some p ∧ p.va ≤ a / 128 * 128 ∧ a / 128 * 128 < p.va + p.size
      ∧ x.icache.contains (a / 128 * 128, qDom s.m u.q) = false ∧ translate s.c s.q (some k) (qDom s.m u.q) (a / 128 * 128) .fetch = .dev d
      ∧ readChk s.m.mem (qDom s.m u.q) d 128 = .ok ∧ hostHolds s.q d 128 = [] :=
  ⟨⟨(onM s0 fun m => { m with arb := { m.arb with waiting := [reqA 32 0 9, reqA 32 1 8] } }), 32, 0, reqA 32 1 8, by decide +kernel⟩,
   ⟨(onM s0 fun m => { m with arb := { m.arb with tags := [(1024 * 15 + 1023, reqA 47 0 9)] } }), 15, 1023, reqA 47 0 9, by decide +kernel⟩,
   ⟨(onM s0 fun m => { m with arb := { m.arb with tags := [(1024 * 15 + 1023, { reqA 47 0 9 with write := true, rmw := true })] } }), 15, 1023, { reqA 47 0 9 with write := true, rmw := true }, by decide +kernel⟩,
   ⟨(onM s0 fun m => { m with arb := { m.arb with tags := [(1024 * 15 + 1023, reqA 47 0 9)] } }), 15, 1023, reqA 47 0 9, true, true, queue1, by decide +kernel⟩,
   ⟨s0, 15, by decide +kernel⟩,
   ⟨(withD (onM (sK id) fun m => { m with parcels := [(7, parcel1)], xl := { m.xl with l2 := [⟨1, 2, 0, 0x400001F⟩] } }) ctxR xE), 0, 0x11FFF, core1, tc1, xE, parcel1, 0x4011F80, by decide +kernel⟩⟩

theorem test_StepRunsTheFrontCommand :
    ∃ (s : State), s.pending = [] :=
  ⟨State.reset, rfl⟩

theorem test_EveryCommandAnswers :
    ∃ (i : Instr) (s : State), live s = false ∧ i ≠ .coldReset ∧ ((∀ r, i ≠ .tapScan r)) ∧ ((∀ n, i ≠ .pfwNLowPulse n)) :=
  ⟨.lockRole, (onM s0 fun m => { m with power := { m.power with fail := 3 } }), by refine ⟨rfl, by decide, fun r h => ?_, fun n h => ?_⟩ <;> cases h⟩

theorem test_FirstFailingCheckIsAnswered :
    (∃ (l : List (Bool × Nat)), (true, stIntegrity) ∈ l)
    ∧ (∃ (l : List (Bool × Nat)), (true, stIntegrity) ∉ l ∧ (true, stMalformed) ∈ l)
    ∧ (∃ (l : List (Bool × Nat)), (true, stIntegrity) ∉ l ∧ (true, stMalformed) ∉ l ∧ (true, stParamRange) ∈ l)
    ∧ (∃ (l : List (Bool × Nat)), (true, stIntegrity) ∉ l ∧ (true, stMalformed) ∉ l ∧ (true, stParamRange) ∉ l ∧ (true, stPermission) ∈ l)
    ∧ (∃ (l : List (Bool × Nat)), (true, stIntegrity) ∉ l ∧ (true, stMalformed) ∉ l ∧ (true, stParamRange) ∉ l ∧ (true, stPermission) ∉ l
      ∧ (true, stBindResources) ∈ l)
    ∧ (∃ (l : List (Bool × Nat)), (true, stIntegrity) ∉ l ∧ (true, stMalformed) ∉ l ∧ (true, stParamRange) ∉ l ∧ (true, stPermission) ∉ l
      ∧ (true, stBindResources) ∉ l ∧ (true, stAdmissionRefused) ∈ l)
    ∧ (∃ c m k, (true, stMalformed) ∉ baseChecks c m k 0 ∧ ((29127 < k.argN 0x1C 4 ∨ c.protG < k.argN 0x18 4 + k.argN 0x1C 4)))
    ∧ (∃ s id k, accepted 0x502 id (fun _ => 0) ledgerRetireChecks s k = true ∧ roleOf s.c ≠ 1 ∧ k.relay = none
      ∧ lineBusy s.q (evtRing + 64 * (s.m.rings.evtTail % 4096)) 64 = false)
    ∧ ∃ (i : Instr) (op : _) (id : _) (area : _) (chk : _) (s : _) (k : _) (st : _), rowChecks i = some (op, id, area, chk) ∧ live s = true
      ∧ mget s.m.rings.cmds id = some k ∧ k.opcode = op ∧ k.phase = 0 ∧ cmdReady s.q k = true
      ∧ cmdStatus (baseChecks s.c s.q k (area k) ++ chk s.c s.q k) = st ∧ st ≠ stOk ∧ ((0x401 ≤ op
      ∧ op ≤ 0x408 → qDom s.m (k.argN 0x18 4) = k.dom → ctxReady s (k.argN 0x18 4) k.dom)) :=
  ⟨⟨[(true, stMalformed), (true, stIntegrity)], by decide +kernel⟩,
   ⟨[(true, stMalformed), (true, stParamRange), (true, stPermission), (true, stBindResources), (true, stAdmissionRefused)], by decide +kernel⟩,
   ⟨[(true, stParamRange), (true, stPermission), (true, stBindResources), (true, stAdmissionRefused)], by decide +kernel⟩,
   ⟨[(true, stPermission), (true, stBindResources), (true, stAdmissionRefused)], by decide +kernel⟩,
   ⟨[(true, stBindResources), (true, stAdmissionRefused)], by decide +kernel⟩,
   ⟨[(true, stAdmissionRefused)], by decide +kernel⟩,
   ⟨s0.c, s0.q, (cmd 0x200 1 0 [(0x18, 4, 90), (0x1C, 4, 11), (0x20, 1, 1)]), by decide +kernel⟩,
   ⟨sC sLedger (cmd 0x502 0 0 [(0x18, 2, 4095)]), 0, (cmd 0x502 0 0 [(0x18, 2, 4095)]), by decide +kernel⟩,
   ⟨.regionAssign 0, 0x200, 0, (fun _ => 0), regionAssignChecks, (sC s0 (cmd 0x200 1 0 [(0x18, 4, 90), (0x1C, 4, 11), (0x20, 1, 1)])), (cmd 0x200 1 0 [(0x18, 4, 90), (0x1C, 4, 11), (0x20, 1, 1)]), stParamRange, by unfold ctxReady; and_intros <;> first | decide +kernel | rfl⟩⟩

theorem test_SettingsStayInRange :
    ∃ s t, cfgOk s.c = true ∧ step s = .next t :=
  ⟨s0, s0, by and_intros <;> first | decide +kernel | rfl⟩

theorem test_LockedSettingsStay :
    ∃ (i : Instr) (s : State) (t : State), exec i s = .next t :=
  ⟨.lockRole, State.reset, (onC State.reset fun c => { c with lockRole := true }), by and_intros <;> first | decide +kernel | rfl⟩
/-! ### Premises within a clause, and premises that rest on a value the spec leaves open -/

/-- SLOT_VALIDATE rests on the image's signature, which is opaque: its other premises are met. -/
theorem test_StoreCommands_validate : ∀ f : Store → Store, let k := cmd 0x801 0 0 []
    let s := onM (sStored k) fun m => { m with store := f m.store }
    imageReason s.q.boot.minEpoch (slotOf s.q.store (otherSlot s.q)).image = 0 → cmdStatus (slotValidateChecks s.c s.q k) = stOk := by
  intro f k s h
  simp only [slotValidateChecks, h]
  decide

/-- BIND's success rests on a hash and a signature, which are opaque: its other premise is met. -/
theorem test_ParcelsAreBound_success : ∃ s k, continues 0x300 0 s k = true ∧ ∀ m1 b,
    bindCheck s.c k.dom (k.argN 0x18 8) (k.argN 0x28 8) s.q = (m1, .ok (.ok b)) →
      ∃ (m1 : Mach) (b : Bound), bindCheck s.c k.dom (k.argN 0x18 8) (k.argN 0x28 8) s.q = (m1, .ok (.ok b)) :=
  ⟨sC sSeal (going kB 1), going kB 1, by decide +kernel, fun m1 b h => ⟨m1, b, h⟩⟩

/-- A ring of 16 entries: the full ring is the last tail that is taken; a reserved bit or an index beyond the ring is no form. -/
theorem test_DoorsJudgeTheirWrites_forms : pgForm 8 (2 ^ 31) ctx1 = true ∧ pgTailOk (2 ^ 31) ctx1 = true ∧ pgTailOk (2 ^ 31 + 1) ctx1 = false
    ∧ pgForm 8 16 ctx1 = false ∧ pgForm 8 (2 ^ 16) ctx1 = false ∧ pgForm 4 0 ctx1 = false ∧ pgHeadOk 0 ctx1 = true ∧ pgHeadOk (2 ^ 32) ctx1 = false := by
  decide +kernel

/-- A core that must be scrubbed for a domain and one that need not. -/
theorem test_TileCommandsIssue_scrub : needScrub core1 1 = true ∧ needScrub core0 1 = false := by decide +kernel

/-- The kinds of arbitration point of GrantsAndResponses: a Depot bank, a memory port, a router output. -/
theorem test_GrantsAndResponses_points : atPort 31 = false ∧ atPort 32 = true ∧ atPort 47 = true ∧ atPort 48 = false := by decide +kernel
/-! ### Well-formedness -/

/-- Operands in range and out of range. -/
def aff : Aff := at0 0
def affX : Aff := ⟨.lit 0, [], .slot 64⟩
def tmp : Tmpl := tm 1 1
def tmpX : Tmpl := { tm 1 1 with format := 15 }
def mop : MmaOp := mma1
def mopX : MmaOp := { mma1 with cbSlot := 4 }
def epiX : EpiOp := { resFmt := some 15 }
def elemX : ElemSrc := { elem0 with cb := 4 }
def hd : KHead := head1 1 0 15 0
def hdX : KHead := { head1 1 0 15 0 with route := 256 }

def wellFormed0 : List Instr :=
  [.queuePaused 0, .linkEnable 0, .linkDisable 0, .pigeonholeWrite 0 0 0, .feedIndexWrite 0 0 0, .mailboxDataWrite 0 0 [], .mailboxTrigger 0 0 0,
   .hostLineFill 0 0 [], .atsInvalidationRequest 0 0 0, .atsCompletion 0 0 .denied, .prgResponse 0 false, .hostLinkRestored 1 0, .ledgerRelease 0,
   .descriptorFetch 0 0, .idleResample 0, .mailboxFetch 0 0, .layerPresent 0 0 0, .layerAdmit 0 0, .gangIssue 0 0 0, .scrubStart 0 0,
   .scrubEnd 0 0, .coreIdleGate 0 0, .tileCommandDrain 0 0, .rerunStart 0 0, .layerComplete 0 0 0, .poolScatterDone 0 0,
   .completionRecordWrite 0 0 0, .queueTimeout 0 0 0, .runawayLimit 0 0, .fenceDescriptor 0 0]
def wellFormed1 : List Instr :=
  [.enqueueTarget 0 0, .sortingOfficeEntry 0 0 0, .sortingOfficeEnd 0 0 0, .sortingOfficeRunaway 0 0 0, .pageWalk 0 0 false false,
   .segmentGrant 0 0, .memoryPortResponse 0 0 false false, .icacheFill 0 0, .mpReadyFall 0, .mpFlushAck 0, .operationRetire 0 0,
   .postLineBlockAccept 0 0 [], .loop 0 0 (.lit 0) 0, .endl 0 0 0, .brl 0 0 .first 0, .swap 0, .enqueue 0 0 false aff 256, .endOp 0, .nop 0,
   .fetch 0 0 tmp tmp none, .stat 0 tmp none, .move 0 tmp none, .drain 0 tmp none none, .put 0 tmp tmp none,
   .side 0 none none none none none none none none, .codebook 0 0 256 tmp none, .table 0 0 tmp none, .wstore 0 tmp elem0 none, .mma 0 mop,
   .epi 0 { }]
def wellFormed2 : List Instr :=
  [.vadd 0 (.reg 0) (.reg 0) (.reg 0) aff, .vsub 0 (.reg 0) (.reg 0) (.reg 0) aff, .vmul 0 (.reg 0) (.reg 0) (.reg 0) aff,
   .vfma 0 (.reg 0) (.reg 0) (.reg 0) (.reg 0) aff, .vmin 0 (.reg 0) (.reg 0) (.reg 0) aff, .vmax 0 (.reg 0) (.reg 0) (.reg 0) aff,
   .vabs 0 (.reg 0) (.reg 0) aff, .vneg 0 (.reg 0) (.reg 0) aff, .vcmp 0 .eq (.reg 0) (.reg 0) (.reg 0) aff,
   .vsel 0 (.reg 0) (.reg 0) (.reg 0) (.reg 0) aff, .vcvt 0 (.reg 0) 0 (.reg 0) 0 .none .none 0 aff, .vrcp 0 (.reg 0) (.reg 0) aff,
   .vrsq 0 (.reg 0) (.reg 0) aff, .vdiv 0 (.reg 0) (.reg 0) (.reg 0) aff, .vsqrt 0 (.reg 0) (.reg 0) aff, .vexp2 0 (.reg 0) (.reg 0) aff,
   .vlog2 0 (.reg 0) (.reg 0) aff, .vfun 0 .exp (.reg 0) (.reg 0) aff, .vtab 0 0 (.reg 0) (.reg 0) aff, .vred 0 .sum (.reg 0) (.reg 0) aff,
   .vsoftmax 0 (.reg 0) (.reg 0) aff, .vnorm 0 false (.reg 0) (.reg 0) (.reg 0) (.reg 0) (.lit 0) aff,
   .vopt 0 false (.reg 0) false (.reg 0) 0 (.lit 0) 0 (.reg 0) (.reg 0) false false (.reg 0) (.reg 0) 0 aff, .wdw 0 tmp elem0 none,
   .wgrp 0 1 tmp elem0 none, .wpool 0 .max tmp elem0, .wgpool 0 .max tmp elem0, .wait 0 0 aff, .fence 0, .post 0 0]
def wellFormed3 : List Instr :=
  [.linkMacUp 0 0, .linkMacDown 0 0, .helloBroadcast 0 0, .helloFrame 0 hd hello1 0, .attestFrame 0 0 hd ⟨0, 0, 0, 0, 0⟩ 0, .attestRetry 0 0 0,
   .mkaPdu 0 0 false 0, .mkaLifeExpiry 0 0 0, .sakRekey 0 0, .gptpPdu 0 0 0 0 0, .frameSend 0 0, .dataFrame 0 0 hd [] 0, .creditFrame 0 0 hd [] 0,
   .nakFrame 0 0 hd 0, .refuseFrame 0 0 hd [] 0, .idleFrame 0 0 hd 0, .tickFrame 0 0 hd 0 0 0 0 0, .ledgerFrame 0 0 hd 0 0 0 0 [] 0,
   .manageFrame 0 0 hd 0 0 0 0 [] 0, .imageFrame 0 0 hd 0 0 [] 0, .retransmitTimer 0 0 0, .linkTimeoutExpiry 0 0 0, .droopTrip 0 0,
   .droopRecovery 0 0, .clerkHeartbeatMiss 0 false 0, .clerkRestartDone 0 false 0, .noAtsAnswer 0 0 0]
/-- One well-formed command of each constructor whose operands are checked. -/
def wellFormed : List Instr := [wellFormed0, wellFormed1, wellFormed2, wellFormed3].flatten

def illFormed0 : List Instr :=
  [.queuePaused (2 ^ 20), .linkEnable 4, .linkDisable 4, .pigeonholeWrite (2 ^ 20) 0 0, .feedIndexWrite (2 ^ 20) 0 0, .mailboxDataWrite 4096 0 [],
   .mailboxTrigger 4096 0 0, .hostLineFill 4096 0 [], .atsInvalidationRequest (2 ^ 20) 0 0, .atsCompletion (2 ^ 20) 0 .denied,
   .prgResponse 512 false, .hostLinkRestored 0 0, .ledgerRelease 4096, .descriptorFetch (2 ^ 20) 0, .idleResample (2 ^ 20),
   .mailboxFetch (2 ^ 20) 0, .layerPresent (2 ^ 20) 0 0, .layerAdmit (2 ^ 20) 0, .gangIssue (2 ^ 20) 0 0, .scrubStart 32 0, .scrubEnd 32 0,
   .coreIdleGate 32 0, .tileCommandDrain 32 0, .rerunStart (2 ^ 20) 0, .layerComplete (2 ^ 20) 0 0, .poolScatterDone (2 ^ 20) 0,
   .completionRecordWrite (2 ^ 20) 0 0, .queueTimeout (2 ^ 20) 0 0, .runawayLimit 32 0, .fenceDescriptor (2 ^ 20) 0]
def illFormed1 : List Instr :=
  [.enqueueTarget (2 ^ 20) 0, .sortingOfficeEntry (2 ^ 20) 0 0, .sortingOfficeEnd (2 ^ 20) 0 0, .sortingOfficeRunaway (2 ^ 20) 0 0,
   .pageWalk (2 ^ 20) 0 false false, .segmentGrant 256 0, .memoryPortResponse 16 0 false false, .memoryPortResponse 0 1024 false false,
   .icacheFill 32 0, .mpReadyFall 16, .mpFlushAck 16, .operationRetire 32 0, .operationRetire 0 7, .postLineBlockAccept 32 0 [],
   .postLineBlockAccept 0 8 [], .loop 32 0 (.lit 0) 0, .loop 0 4 (.lit 0) 0, .loop 0 0 (.slot 64) 0, .endl 32 0 0, .endl 0 4 0,
   .brl 32 0 .first 0, .brl 0 4 .first 0, .swap 32, .enqueue 32 0 false aff 256, .enqueue 0 64 false aff 256, .enqueue 0 0 false affX 256,
   .enqueue 0 0 false aff 100, .endOp 32, .nop 32, .fetch 32 0 tmp tmp none]
def illFormed2 : List Instr :=
  [.fetch 0 4 tmp tmp none, .fetch 0 0 tmpX tmp none, .fetch 0 0 tmp tmpX none, .fetch 0 0 tmp tmp (some 64), .stat 32 tmp none,
   .stat 0 tmpX none, .stat 0 tmp (some 64), .move 32 tmp none, .move 0 tmpX none, .move 0 tmp (some 64), .drain 32 tmp none none,
   .drain 0 tmpX none none, .drain 0 tmp (some tmpX) none, .drain 0 tmp none (some 64), .put 32 tmp tmp none, .put 0 tmpX tmp none,
   .put 0 tmp tmpX none, .put 0 tmp tmp (some 64), .side 32 none none none none none none none none,
   .side 0 (some tmpX) none none none none none none none, .side 0 none (some tmpX) none none none none none none,
   .side 0 none none (some tmpX) none none none none none, .side 0 none none none (some tmpX) none none none none,
   .side 0 none none none none (some tmpX) none none none, .side 0 none none none none none (some tmpX) none none,
   .side 0 none none none none none none (some tmpX) none, .side 0 none none none none none none none (some 64), .codebook 32 0 256 tmp none,
   .codebook 0 4 256 tmp none, .codebook 0 0 100 tmp none]
def illFormed3 : List Instr :=
  [.codebook 0 0 256 tmpX none, .codebook 0 0 256 tmp (some 64), .table 32 0 tmp none, .table 0 2 tmp none, .table 0 0 tmpX none,
   .table 0 0 tmp (some 64), .wstore 32 tmp elem0 none, .wstore 0 tmpX elem0 none, .wstore 0 tmp elemX none, .wstore 0 tmp elem0 (some 64),
   .mma 32 mop, .mma 0 mopX, .epi 32 { }, .epi 0 epiX, .vadd 32 (.reg 0) (.reg 0) (.reg 0) aff, .vadd 0 (.reg 32) (.reg 0) (.reg 0) aff,
   .vadd 0 (.reg 0) (.reg 32) (.reg 0) aff, .vadd 0 (.reg 0) (.reg 0) (.reg 32) aff, .vadd 0 (.reg 0) (.reg 0) (.reg 0) affX,
   .vsub 32 (.reg 0) (.reg 0) (.reg 0) aff, .vsub 0 (.reg 32) (.reg 0) (.reg 0) aff, .vsub 0 (.reg 0) (.reg 32) (.reg 0) aff,
   .vsub 0 (.reg 0) (.reg 0) (.reg 32) aff, .vsub 0 (.reg 0) (.reg 0) (.reg 0) affX, .vmul 32 (.reg 0) (.reg 0) (.reg 0) aff,
   .vmul 0 (.reg 32) (.reg 0) (.reg 0) aff, .vmul 0 (.reg 0) (.reg 32) (.reg 0) aff, .vmul 0 (.reg 0) (.reg 0) (.reg 32) aff,
   .vmul 0 (.reg 0) (.reg 0) (.reg 0) affX, .vfma 32 (.reg 0) (.reg 0) (.reg 0) (.reg 0) aff]
def illFormed4 : List Instr :=
  [.vfma 0 (.reg 32) (.reg 0) (.reg 0) (.reg 0) aff, .vfma 0 (.reg 0) (.reg 32) (.reg 0) (.reg 0) aff,
   .vfma 0 (.reg 0) (.reg 0) (.reg 32) (.reg 0) aff, .vfma 0 (.reg 0) (.reg 0) (.reg 0) (.reg 32) aff,
   .vfma 0 (.reg 0) (.reg 0) (.reg 0) (.reg 0) affX, .vmin 32 (.reg 0) (.reg 0) (.reg 0) aff, .vmin 0 (.reg 32) (.reg 0) (.reg 0) aff,
   .vmin 0 (.reg 0) (.reg 32) (.reg 0) aff, .vmin 0 (.reg 0) (.reg 0) (.reg 32) aff, .vmin 0 (.reg 0) (.reg 0) (.reg 0) affX,
   .vmax 32 (.reg 0) (.reg 0) (.reg 0) aff, .vmax 0 (.reg 32) (.reg 0) (.reg 0) aff, .vmax 0 (.reg 0) (.reg 32) (.reg 0) aff,
   .vmax 0 (.reg 0) (.reg 0) (.reg 32) aff, .vmax 0 (.reg 0) (.reg 0) (.reg 0) affX, .vabs 32 (.reg 0) (.reg 0) aff,
   .vabs 0 (.reg 32) (.reg 0) aff, .vabs 0 (.reg 0) (.reg 32) aff, .vabs 0 (.reg 0) (.reg 0) affX, .vneg 32 (.reg 0) (.reg 0) aff,
   .vneg 0 (.reg 32) (.reg 0) aff, .vneg 0 (.reg 0) (.reg 32) aff, .vneg 0 (.reg 0) (.reg 0) affX, .vcmp 32 .eq (.reg 0) (.reg 0) (.reg 0) aff,
   .vcmp 0 .eq (.reg 32) (.reg 0) (.reg 0) aff, .vcmp 0 .eq (.reg 0) (.reg 32) (.reg 0) aff, .vcmp 0 .eq (.reg 0) (.reg 0) (.reg 32) aff,
   .vcmp 0 .eq (.reg 0) (.reg 0) (.reg 0) affX, .vsel 32 (.reg 0) (.reg 0) (.reg 0) (.reg 0) aff,
   .vsel 0 (.reg 32) (.reg 0) (.reg 0) (.reg 0) aff]
def illFormed5 : List Instr :=
  [.vsel 0 (.reg 0) (.reg 32) (.reg 0) (.reg 0) aff, .vsel 0 (.reg 0) (.reg 0) (.reg 32) (.reg 0) aff,
   .vsel 0 (.reg 0) (.reg 0) (.reg 0) (.reg 32) aff, .vsel 0 (.reg 0) (.reg 0) (.reg 0) (.reg 0) affX,
   .vcvt 32 (.reg 0) 0 (.reg 0) 0 .none .none 0 aff, .vcvt 0 (.reg 32) 0 (.reg 0) 0 .none .none 0 aff,
   .vcvt 0 (.reg 0) 13 (.reg 0) 0 .none .none 0 aff, .vcvt 0 (.reg 0) 0 (.reg 32) 0 .none .none 0 aff,
   .vcvt 0 (.reg 0) 0 (.reg 0) 15 .none .none 0 aff, .vcvt 0 (.reg 0) 0 (.reg 0) 0 (.tensor (.slot 64)) .none 0 aff,
   .vcvt 0 (.reg 0) 0 (.reg 0) 0 .none (.tensor (.slot 64)) 0 aff, .vcvt 0 (.reg 0) 0 (.reg 0) 0 .none .none 4 aff,
   .vcvt 0 (.reg 0) 0 (.reg 0) 0 .none .none 0 affX, .vrcp 32 (.reg 0) (.reg 0) aff, .vrcp 0 (.reg 32) (.reg 0) aff,
   .vrcp 0 (.reg 0) (.reg 32) aff, .vrcp 0 (.reg 0) (.reg 0) affX, .vrsq 32 (.reg 0) (.reg 0) aff, .vrsq 0 (.reg 32) (.reg 0) aff,
   .vrsq 0 (.reg 0) (.reg 32) aff, .vrsq 0 (.reg 0) (.reg 0) affX, .vdiv 32 (.reg 0) (.reg 0) (.reg 0) aff,
   .vdiv 0 (.reg 32) (.reg 0) (.reg 0) aff, .vdiv 0 (.reg 0) (.reg 32) (.reg 0) aff, .vdiv 0 (.reg 0) (.reg 0) (.reg 32) aff,
   .vdiv 0 (.reg 0) (.reg 0) (.reg 0) affX, .vsqrt 32 (.reg 0) (.reg 0) aff, .vsqrt 0 (.reg 32) (.reg 0) aff, .vsqrt 0 (.reg 0) (.reg 32) aff,
   .vsqrt 0 (.reg 0) (.reg 0) affX]
def illFormed6 : List Instr :=
  [.vexp2 32 (.reg 0) (.reg 0) aff, .vexp2 0 (.reg 32) (.reg 0) aff, .vexp2 0 (.reg 0) (.reg 32) aff, .vexp2 0 (.reg 0) (.reg 0) affX,
   .vlog2 32 (.reg 0) (.reg 0) aff, .vlog2 0 (.reg 32) (.reg 0) aff, .vlog2 0 (.reg 0) (.reg 32) aff, .vlog2 0 (.reg 0) (.reg 0) affX,
   .vfun 32 .exp (.reg 0) (.reg 0) aff, .vfun 0 .exp (.reg 32) (.reg 0) aff, .vfun 0 .exp (.reg 0) (.reg 32) aff,
   .vfun 0 .exp (.reg 0) (.reg 0) affX, .vtab 32 0 (.reg 0) (.reg 0) aff, .vtab 0 2 (.reg 0) (.reg 0) aff, .vtab 0 0 (.reg 32) (.reg 0) aff,
   .vtab 0 0 (.reg 0) (.reg 32) aff, .vtab 0 0 (.reg 0) (.reg 0) affX, .vred 32 .sum (.reg 0) (.reg 0) aff, .vred 0 .sum (.reg 32) (.reg 0) aff,
   .vred 0 .sum (.reg 0) (.reg 32) aff, .vred 0 .sum (.reg 0) (.reg 0) affX, .vsoftmax 32 (.reg 0) (.reg 0) aff,
   .vsoftmax 0 (.reg 32) (.reg 0) aff, .vsoftmax 0 (.reg 0) (.reg 32) aff, .vsoftmax 0 (.reg 0) (.reg 0) affX,
   .vnorm 32 false (.reg 0) (.reg 0) (.reg 0) (.reg 0) (.lit 0) aff, .vnorm 0 false (.reg 32) (.reg 0) (.reg 0) (.reg 0) (.lit 0) aff,
   .vnorm 0 false (.reg 0) (.reg 32) (.reg 0) (.reg 0) (.lit 0) aff, .vnorm 0 false (.reg 0) (.reg 0) (.reg 32) (.reg 0) (.lit 0) aff,
   .vnorm 0 false (.reg 0) (.reg 0) (.reg 0) (.reg 32) (.lit 0) aff]
def illFormed7 : List Instr :=
  [.vnorm 0 false (.reg 0) (.reg 0) (.reg 0) (.reg 0) (.slot 64) aff, .vnorm 0 false (.reg 0) (.reg 0) (.reg 0) (.reg 0) (.lit 0) affX,
   .vopt 32 false (.reg 0) false (.reg 0) 0 (.lit 0) 0 (.reg 0) (.reg 0) false false (.reg 0) (.reg 0) 0 aff,
   .vopt 0 false (.reg 32) false (.reg 0) 0 (.lit 0) 0 (.reg 0) (.reg 0) false false (.reg 0) (.reg 0) 0 aff,
   .vopt 0 false (.reg 0) false (.reg 32) 0 (.lit 0) 0 (.reg 0) (.reg 0) false false (.reg 0) (.reg 0) 0 aff,
   .vopt 0 false (.reg 0) false (.reg 0) 15 (.lit 0) 0 (.reg 0) (.reg 0) false false (.reg 0) (.reg 0) 0 aff,
   .vopt 0 false (.reg 0) false (.reg 0) 0 (.slot 64) 0 (.reg 0) (.reg 0) false false (.reg 0) (.reg 0) 0 aff,
   .vopt 0 false (.reg 0) false (.reg 0) 0 (.lit 0) 4 (.reg 0) (.reg 0) false false (.reg 0) (.reg 0) 0 aff,
   .vopt 0 false (.reg 0) false (.reg 0) 0 (.lit 0) 0 (.reg 32) (.reg 0) false false (.reg 0) (.reg 0) 0 aff,
   .vopt 0 false (.reg 0) false (.reg 0) 0 (.lit 0) 0 (.reg 0) (.reg 32) false false (.reg 0) (.reg 0) 0 aff,
   .vopt 0 false (.reg 0) false (.reg 0) 0 (.lit 0) 0 (.reg 0) (.reg 0) false false (.reg 32) (.reg 0) 0 aff,
   .vopt 0 false (.reg 0) false (.reg 0) 0 (.lit 0) 0 (.reg 0) (.reg 0) false false (.reg 0) (.reg 32) 0 aff,
   .vopt 0 false (.reg 0) false (.reg 0) 0 (.lit 0) 0 (.reg 0) (.reg 0) false false (.reg 0) (.reg 0) 64 aff,
   .vopt 0 false (.reg 0) false (.reg 0) 0 (.lit 0) 0 (.reg 0) (.reg 0) false false (.reg 0) (.reg 0) 0 affX, .wdw 32 tmp elem0 none,
   .wdw 0 tmpX elem0 none, .wdw 0 tmp elemX none, .wdw 0 tmp elem0 (some (.reg 32)), .wgrp 32 1 tmp elem0 none, .wgrp 0 0 tmp elem0 none,
   .wgrp 0 1 tmpX elem0 none, .wgrp 0 1 tmp elemX none, .wgrp 0 1 tmp elem0 (some (.reg 32)), .wpool 32 .max tmp elem0, .wpool 0 .sum tmp elem0,
   .wpool 0 .max tmpX elem0, .wpool 0 .max tmp elemX, .wgpool 32 .max tmp elem0, .wgpool 0 .max tmpX elem0, .wgpool 0 .max tmp elemX]
def illFormed8 : List Instr :=
  [.wait 32 0 aff, .wait 0 256 aff, .wait 0 0 affX, .fence 32, .post 32 0, .post 0 256, .linkMacUp 4 0, .linkMacDown 4 0, .helloBroadcast 4 0,
   .helloFrame 4 hd hello1 0, .helloFrame 0 hdX hello1 0, .attestFrame 4 0 hd ⟨0, 0, 0, 0, 0⟩ 0, .attestFrame 0 16 hd ⟨0, 0, 0, 0, 0⟩ 0,
   .attestFrame 0 0 hdX ⟨0, 0, 0, 0, 0⟩ 0, .attestRetry 4 0 0, .attestRetry 0 16 0, .mkaPdu 4 0 false 0, .mkaPdu 0 16 false 0,
   .mkaLifeExpiry 4 0 0, .mkaLifeExpiry 0 16 0, .sakRekey 4 0, .sakRekey 0 16, .gptpPdu 4 0 0 0 0, .gptpPdu 0 16 0 0 0, .frameSend 4 0,
   .dataFrame 4 0 hd [] 0, .dataFrame 0 16 hd [] 0, .dataFrame 0 0 hdX [] 0, .creditFrame 4 0 hd [] 0, .creditFrame 0 16 hd [] 0]
def illFormed9 : List Instr :=
  [.creditFrame 0 0 hdX [] 0, .nakFrame 4 0 hd 0, .nakFrame 0 16 hd 0, .nakFrame 0 0 hdX 0, .refuseFrame 4 0 hd [] 0, .refuseFrame 0 16 hd [] 0,
   .refuseFrame 0 0 hdX [] 0, .idleFrame 4 0 hd 0, .idleFrame 0 16 hd 0, .idleFrame 0 0 hdX 0, .tickFrame 4 0 hd 0 0 0 0 0,
   .tickFrame 0 16 hd 0 0 0 0 0, .tickFrame 0 0 hdX 0 0 0 0 0, .ledgerFrame 4 0 hd 0 0 0 0 [] 0, .ledgerFrame 0 16 hd 0 0 0 0 [] 0,
   .ledgerFrame 0 0 hdX 0 0 0 0 [] 0, .ledgerFrame 0 0 hd 0 0 4096 0 [] 0, .manageFrame 4 0 hd 0 0 0 0 [] 0, .manageFrame 0 16 hd 0 0 0 0 [] 0,
   .manageFrame 0 0 hdX 0 0 0 0 [] 0, .imageFrame 4 0 hd 0 0 [] 0, .imageFrame 0 16 hd 0 0 [] 0, .imageFrame 0 0 hdX 0 0 [] 0,
   .retransmitTimer 4 0 0, .retransmitTimer 0 16 0, .linkTimeoutExpiry 4 0 0, .linkTimeoutExpiry 0 16 0, .droopTrip 32 0, .droopRecovery 32 0,
   .clerkHeartbeatMiss 4 false 0]
def illFormed10 : List Instr :=
  [.clerkRestartDone 4 false 0, .noAtsAnswer (2 ^ 20) 0 0]
/-- For each check of each constructor a command that fails it and no other. -/
def illFormed : List Instr := [illFormed0, illFormed1, illFormed2, illFormed3, illFormed4, illFormed5, illFormed6, illFormed7, illFormed8, illFormed9, illFormed10].flatten

theorem test_wf_accepts : wellFormed.all Instr.wf = true := by decide +kernel

theorem test_wf_refuses : illFormed.all (fun i => !i.wf) = true := by decide +kernel
/-- One ill-formed value for each check of the operand types. -/
theorem test_wf_operands :
    ([.lit (2 ^ 64), .slot 64] : List Opnd).all (fun o => !o.wf) = true
    ∧ ([⟨.slot 64, [], .lit 0⟩, ⟨.lit 0, List.replicate 5 (.lit 0), .lit 0⟩, ⟨.lit 0, [.slot 64], .lit 0⟩, affX] : List Aff).all (fun a => !a.wf) = true
    ∧ ([{ win1 with fyM1 := 1024 }, { win1 with fxM1 := 1024 }, { win1 with t0y := 1024 }, { win1 with t0x := 1024 }, { win1 with pylo := 1024 },
        { win1 with pyhi := 1024 }, { win1 with pxlo := 1024 }, { win1 with pxhi := 1024 }, { win1 with syM1 := 64 }, { win1 with sxM1 := 64 },
        { win1 with fload := 256 }, { win1 with dyM1 := 256 }, { win1 with dxM1 := 256 }, { win1 with idil := 256 }, { win1 with mode := 16 },
        { win1 with c0 := 65536 }, { win1 with cwM1 := 65536 }, { win1 with padConst := 65536 }] : List WinBlk).all (fun w => !w.wf) = true
    ∧ ([tmpX, { tmp with kind := 16 }, { tmp with space := 16 }, { tmp with rate := 65536 }, { tmp with counts := [], strides := [] },
        { tmp with counts := List.replicate 7 1, strides := List.replicate 7 4 }, { tmp with strides := [] }, { tmp with counts := [2 ^ 32] },
        { tmp with strides := [2 ^ 47] }, { tmp with strides := [-(2 ^ 47) - 1] }, { tmp with win := some { win1 with mode := 16 } },
        { tmp with outFirst := affX }, { tmp with base := affX }] : List Tmpl).all (fun p => !p.wf) = true
    ∧ ([.reg 32, .win false affX] : List VLoc).all (fun l => !l.wf) = true
    ∧ ([.tensor (.slot 64), .channel false affX, .row false affX] : List Grain).all (fun g => !g.wf) = true
    ∧ ([.tensor (.slot 64), .row false affX, .channel false affX, .group 0 false aff, .group 1 false affX] : List ZpGrain).all (fun g => !g.wf) = true
    ∧ ([elemX, { zp := .tensor (.slot 64) }, { group := 4 }, { stype := 3 }, { off := affX }] : List ElemSrc).all (fun e => !e.wf) = true
    ∧ (ZpSrc.value (.slot 64)).wf = false := by decide +kernel

theorem test_wf_words :
    ([mopX, { mop with m := affX }, { mop with k := affX }, { mop with n := affX }, { mop with stFmt := 15 }, { mop with mvFmt := 15 },
      { mop with outSlot := 64 }, { mop with stZp := .value (.slot 64) }, { mop with mvZp := .value (.slot 64) }, { mop with tc := .slot 64 },
      { mop with outCount := .slot 64 }, { mop with threshold := .slot 64 }] : List MmaOp).all (fun o => !o.wf) = true
    ∧ ([.clamp (.slot 64) (.lit 0), .clamp (.lit 0) (.slot 64), .leaky (.slot 64), .table 2] : List Act).all (fun a => !a.wf) = true
    ∧ ([.convert 13, .requant 13 .none .none, .requant 0 (.tensor (.slot 64)) .none, .requant 0 .none (.tensor (.slot 64)),
        .generated 13 0 0 .none, .generated 0 0 0 (.tensor (.slot 64))] : List OutMode).all (fun o => !o.wf) = true
    ∧ ([epiX, { scale := .tensor (.slot 64) }, { bias := .tensor (.slot 64) }, { resOff := affX }, { resFactor := .slot 64 },
        { act := .table 2 }, { out := .convert 13 }] : List EpiOp).all (fun o => !o.wf) = true
    ∧ ([hdX, { hd with version := 16 }, { hd with type := 16 }, { hd with dst := 16 }, { hd with src := 16 }, { hd with queue := 2 ^ 32 },
        { hd with postmark := 65536 }, { hd with seq := 65536 }, { hd with len := 65536 }, { hd with ack := 65536 }] : List KHead).all (fun h => !h.wf) = true := by
  decide +kernel

/-! ### Values the spec states -/

/-- The largest E2M1, E3M2, E2M3 and E4M3 values, INT4 0x8, UINT8 0 with zero point 255 (R34, R35, R37). -/
theorem test_format_ranges : enc32 (decodeElem 5 0 0x7) = 0x40C00000 ∧ enc32 (decodeElem 6 0 0x1F) = 0x41E00000
    ∧ enc32 (decodeElem 7 0 0x1F) = 0x40F00000 ∧ enc32 (decodeElem 8 0 0x7E) = 0x43E00000
    ∧ enc32 (decodeElem 0 0 0x8) = 0xC1000000 ∧ enc32 (decodeElem 3 255 0) = 0xC37F0000 := by decide +kernel
/-- The worked conversions of 02_number_formats.md, FP8: 0.3, 0.265625, 100, 70,000 and infinity. -/
theorem test_worked_fp8 : cvtOne 8 0 none 0x3E99999A = (0x2A, false) ∧ cvtOne 8 0 none 0x3E880000 = (0x29, false)
    ∧ cvtOne 9 0 none 0x42C80000 = (0x56, false) ∧ cvtOne 9 0 none 0x4788B800 = (0x7B, true)
    ∧ cvtOne 9 0 none 0x7F800000 = (0x7C, false) ∧ cvtOne 8 0 none 0x7F800000 = (0x7E, true) := by decide +kernel
/-- The same, FP6 and FP4: 3.3 to both, 2.5, 5.0, -0.2, a NaN; and four E2M3 codes packed. -/
theorem test_worked_narrow : cvtOne 7 0 none 0x40533333 = (0x15, false) ∧ cvtOne 6 0 none 0x40533333 = (0x13, false)
    ∧ cvtOne 5 0 none 0x40200000 = (5, false) ∧ cvtOne 5 0 none 0x40A00000 = (7, false)
    ∧ cvtOne 5 0 none 0xBE4CCCCD = (8, false) ∧ cvtOne 5 0 none 0x7FC00000 = (0, true)
    ∧ packRow { sd1 with fmt := 7 } [0x15, 8, 0, 0x3F] = [0x15, 0x02, 0xFC] := by decide +kernel
/-- The same, BF16: a tie goes away from zero. -/
theorem test_worked_bf16 : cvtOne 0xB 0 none 0x3F808000 = (0x3F81, false) ∧ cvtOne 0xB 0 none 0x3F807FFF = (0x3F80, false)
    ∧ cvtOne 0xB 0 none 0x7F7FFFFF = (0x7F7F, true) := by decide +kernel
/-- Ties of an addition go away from zero (R50). -/
theorem test_ties_away : addF 0x3F800000 0x33800000 = 0x3F800001 ∧ addF 0xBF800000 0xB3800000 = 0xBF800001 := by decide +kernel
/-- The worked tag of 15_isolation_and_keys.md: 455 GiB and 96 MiB of data granules, the line at 0x31E312C40. -/
theorem test_worked_tag : tagAddr { State.reset.dev.cfg with protG := 14563 } 0x31E312C40 = 0x7229C62588 := by decide +kernel
/-- SHA-384 of the empty message, and AES-256 on the block of FIPS 197, the functions R346 and R350 name. -/
theorem test_sha384 : beNat (sha384 []) = 0x38b060a751ac96384cd9327eb1b1e36a21fdb71114be07434c0cc7bf63f6e1da274edebfe76f65fbd51ad2f14898b95b := by
  decide +kernel

theorem test_aes256 : beNat (aesEnc (List.range 32 |>.map (BitVec.ofNat 8)) (List.range 16 |>.map fun i => BitVec.ofNat 8 (17 * i)))
    = 0x8ea2b7ca516745bfeafc49904b496089 := by decide +kernel
/-- The queue's first command runs and leaves the queue; NOP of no running core changes nothing else. -/
theorem test_step : step { State.reset with pending := [.lockRole, .nop 0] } = .next
    { (onC State.reset fun c => { c with lockRole := true }) with pending := [.nop 0] } := by rfl
end Sys2Proof.Tests
end

section
/-! SUPPORT. What loading a context, using a translation and the requests both make can touch (R12, R183 to R187, R246, R311, R312, R345). -/

namespace Sys2Proof.Machine
open Sys2Proof

/-! ### Requests from outside the cores -/

/-- The block without what requests from outside the cores touch: arbitration, the cores' credits, what waits for the host port. -/
def Mach.served (m : Mach) : Mach :=
  { m with arb := (mach0 strap0 store0 0 true true).arb, cores := [], hp := { m.hp with wait := [], seq := 0 } }

@[simp] theorem served_stand (r : Req) (m : Mach) : (stand r m).served = m.served := by
  unfold stand; split <;> rfl

@[simp] theorem served_issueReq (r : Req) (m : Mach) : (issueReq r m).served = m.served := by
  unfold issueReq; dsimp only; rw [served_stand]; rfl

theorem served_pumpOne (s : List Req × List (Nat × Nat) × Mach) (r : Req) : (pumpOne s r).2.2.served = s.2.2.served := by
  unfold pumpOne
  split
  · rfl
  · exact served_issueReq r s.2.2

@[simp] theorem served_pump (m : Mach) : (pump m).served = m.served :=
  foldl_keeps (fun s => s.2.2.served) pumpOne served_pumpOne m.arb.later ([], [], m)

@[simp] theorem served_addLater (rs : List Req) (m : Mach) : (addLater rs m).served = m.served := by
  unfold addLater
  split
  · rfl
  · rw [served_pump]; rfl

@[simp] theorem served_outsideReqs (c : Cfg) (who dom q : Nat) (wr : Bool) (a n : Nat) (m : Mach) :
    (outsideReqs c who dom q wr a n m).served = m.served := by
  unfold outsideReqs
  split
  · rfl
  · exact served_addLater _ m

/-! ### Loading a context that is ready -/

/-- The block without what the loading of a context touches where nothing leaves a cache. -/
def Mach.loaded (m : Mach) : Mach := { m.served with ctxCache := [], domCache := [] }

/-- Nothing leaves a cache that holds the entry or has room for it. -/
theorem drop_touched {x n : Nat} {l : List Nat} (h : x ∈ l ∨ l.length < n) (hn : l.length ≤ n) : (x :: l.erase x).drop n = [] := by
  refine List.drop_eq_nil_of_le ?_
  rw [List.length_cons]
  rcases h with h | h
  · have := List.length_erase_of_mem h
    have := List.length_pos_of_mem h
    omega
  · have := List.length_erase_le (a := x) (l := l)
    omega

theorem ctxTouch_fits (c : Cfg) {q : Nat} {m : Mach} (h : q ∈ m.ctxCache ∨ m.ctxCache.length < 8192) (hn : m.ctxCache.length ≤ 8192) :
    ctxTouch c q m = { m with ctxCache := (q :: m.ctxCache.erase q).take 8192 } := by
  unfold ctxTouch; dsimp only; rw [drop_touched h hn]; rfl

theorem domTouch_fits (c : Cfg) {d : Nat} {m : Mach} (h : d ∈ m.domCache ∨ m.domCache.length < 256) (hn : m.domCache.length ≤ 256) :
    domTouch c d m = { m with domCache := (d :: m.domCache.erase d).take 256 } := by
  unfold domTouch; dsimp only; rw [drop_touched h hn]; rfl

/-- A table entry passes its check when it is not read at all or its tag is good. -/
theorem loads_good {l : List Nat} {x a n k : Nat} {m : Mem} (h : x ∈ l ∨ badIn m a n = none ∧ l.length < k) :
    (!l.contains x && (badIn m a n).isSome) = false := by
  rcases h with h | ⟨h, -⟩
  · rw [List.contains_iff_mem.2 h]; rfl
  · rw [h, Option.isSome_none, Bool.and_false]

theorem loadCtx_fits {c : Cfg} {q d : Nat} {m : Mach}
    (hq : q ∈ m.ctxCache ∨ badIn m.mem (c.tb.ctx + 64 * q) 64 = none ∧ m.ctxCache.length < 8192) (hqn : m.ctxCache.length ≤ 8192)
    (hd : d ∈ m.domCache ∨ badIn m.mem (c.tb.dom + 256 * d) 256 = none ∧ m.domCache.length < 256) (hdn : m.domCache.length ≤ 256) :
    (loadCtx c q d m).loaded = m.loaded := by
  have asked (b : Bool) (a n : Nat) (m : Mach) : (if b then m else outsideReqs c 32 0 q false a n m).served = m.served := by
    cases b
    · exact served_outsideReqs ..
    · rfl
  unfold loadCtx
  dsimp only
  rw [if_neg (by rw [loads_good hq]; decide), if_neg (by rw [loads_good hd]; decide)]
  generalize h1 : (if m.ctxCache.contains q then m else outsideReqs c 32 0 q false (c.tb.ctx + 64 * q) 64 m) = m1
  generalize h2 : (if m1.domCache.contains d then m1 else outsideReqs c 32 0 q false (c.tb.dom + 256 * d) 256 m1) = m2
  have hs : m2.served = m.served := by rw [← h2, asked, ← h1, asked]
  have hc : m2.ctxCache = m.ctxCache := (congrArg Mach.ctxCache hs :)
  have he : m2.domCache = m.domCache := (congrArg Mach.domCache hs :)
  rw [domTouch_fits c (by rw [he]; exact hd.imp_right And.right) (by rw [he]; exact hdn),
    ctxTouch_fits c (by rw [hc]; exact hq.imp_right And.right) (by rw [hc]; exact hqn)]
  exact congrArg (fun m : Mach => { m with ctxCache := [], domCache := [] }) hs

/-- What a queue's load leaves alone, where its context and domain load. -/
theorem loadQueue_view {α : Type} (g : Mach → α) (hg : ∀ m, g m.loaded = g m) {s : State} {q : Nat} {x : Queue}
    (hx : qGet s.q q = some x) (h : ctxReady s q x.ctx.dom) : g (loadQueue s.c q s.q) = g s.q := by
  obtain ⟨hq, hqn, hd, hdn⟩ := h
  have hl : loadQueue s.c q s.q = loadCtx s.c q x.ctx.dom s.q := by unfold loadQueue; rw [hx]; rfl
  rw [hl, ← hg, loadCtx_fits (m := s.q) hq hqn hd hdn, hg]

/-! ### A translation that is used -/

/-- The block without what using a translation touches. -/
def Mach.walked (m : Mach) : Mach := { m.served with xl := (mach0 strap0 store0 0 true true).xl }

@[simp] theorem walked_fillShared (c : Cfg) (d va : Nat) (m : Mach) : (fillShared c d va m).1.walked = m.walked := by
  unfold fillShared
  split
  · rfl
  · split <;> rfl

@[simp] theorem walked_xlateFill (c : Cfg) (d va : Nat) (m : Mach) : (xlateFill c none d va m).walked = m.walked := by
  have asked (a : Nat) (m : Mach) : (outsideReqs c 32 0 noQueue false a 8 m).walked = m.walked :=
    congrArg (fun m : Mach => { m with xl := (mach0 strap0 store0 0 true true).xl }) (served_outsideReqs c 32 0 noQueue false a 8 m)
  unfold xlateFill
  rw [foldl_keeps Mach.walked _ fun m a => asked a m]
  exact walked_fillShared c d va m

/-- What using a translation leaves alone. -/
theorem xlateFill_view {α : Type} (g : Mach → α) (hg : ∀ m, g m.walked = g m) (c : Cfg) (d va : Nat) (m : Mach) :
    g (xlateFill c none d va m) = g m := by
  rw [← hg, walked_xlateFill, hg]

end Sys2Proof.Machine
end

section
/-! SUPPORT. Doors: what a write of a queue's counter entry, a wake, and each half of a pigeonhole write do (R224, R250 to R253, R274). -/

namespace Sys2Proof.Machine
open Sys2Proof

/-! ### One queue changes -/

@[simp] theorem qGet_qUpd (q : Nat) (f : Queue → Queue) (m : Mach) : qGet (qUpd q f m) q = (qGet m q).map f := mget_mupd ..

theorem qGet_qUpd_ne {q r : Nat} (h : r ≠ q) (f : Queue → Queue) (m : Mach) : qGet (qUpd q f m) r = qGet m r := mget_mupd_ne _ _ h

@[simp] theorem qGet_ctxUpd (q : Nat) (f : QCtx → QCtx) (m : Mach) :
    qGet (ctxUpd q f m) q = (qGet m q).map fun x => { x with ctx := f x.ctx } := qGet_qUpd ..

theorem qGet_ctxUpd_ne {q r : Nat} (h : r ≠ q) (f : QCtx → QCtx) (m : Mach) : qGet (ctxUpd q f m) r = qGet m r := qGet_qUpd_ne h ..

/-- A counter entry that passes its check is updated, and nothing else. -/
theorem counterUpd_good {c : Cfg} {q : Nat} {m : Mach} (h : badIn m.mem (c.tb.cnt + 16 * q) 16 = none) (f : Queue → Queue) :
    counterUpd c q f m = qUpd q f m := by
  unfold counterUpd; dsimp only; rw [h]; rfl

theorem qGet_rejectOne {c : Cfg} {q : Nat} {m : Mach} {x : Queue} (h : badIn m.mem (c.tb.cnt + 16 * q) 16 = none) (hx : qGet m q = some x) :
    qGet (rejectOne c q m) q = some { x with rejects := satInc 16 x.rejects } := by
  rw [rejectOne, counterUpd_good h, qGet_qUpd, hx]; rfl

theorem qGet_rejectOne_ne {c : Cfg} {q r : Nat} {m : Mach} (h : badIn m.mem (c.tb.cnt + 16 * q) 16 = none) (hr : r ≠ q) :
    qGet (rejectOne c q m) r = qGet m r := by
  rw [rejectOne, counterUpd_good h, qGet_qUpd_ne hr]

theorem qGet_wake_ne {q r : Nat} (h : r ≠ q) (m : Mach) : qGet (wake q m) r = qGet m r := by
  unfold wake
  split
  · split
    · exact qGet_ctxUpd_ne h _ m
    · rfl
  · rfl

/-- A wake changes at most the queue's state. -/
theorem qGet_wake {q : Nat} {m : Mach} {x : Queue} (h : qGet m q = some x) :
    ∃ st, qGet (wake q m) q = some { x with ctx := { x.ctx with state := st } } := by
  unfold wake
  rw [h]
  dsimp only
  split
  · exact ⟨qsReady, by rw [qGet_ctxUpd, h]; rfl⟩
  · exact ⟨x.ctx.state, h⟩

theorem replaced_wake {q : Nat} {m : Mach} {x : Queue} (h : qGet m q = some x) :
    ∃ y, qGet (wake q m) q = some y ∧ y.replaced = x.replaced :=
  (qGet_wake h).elim fun _ hy => ⟨_, hy, rfl⟩

theorem wake_mbx (q : Nat) (m : Mach) : (wake q m).mbx = m.mbx := by
  unfold wake
  split
  · split <;> rfl
  · rfl

theorem wake_mem (q : Nat) (m : Mach) : (wake q m).mem = m.mem := by
  unfold wake
  split
  · split <;> rfl
  · rfl

/-! ### Pigeonholes (R251, R252) -/

/-- A queue takes no tail: it is forwardable or KILLED (R252). -/
def pgOff (q : QCtx) : Bool := q.forwardable || q.state == qsKilled

/-- A context `y` after a well-formed write judged by `q`: each half that is accepted is taken (R252). -/
def pgTaken (v : Nat) (q y : QCtx) : QCtx :=
  { y with tail := if pgTailOk v q && !pgOff q then pgTail v q else y.tail
           cplHead := if pgHeadOk v q then pgHead v q else y.cplHead }

/-- No half of a well-formed write fails its test; the tail of a queue that takes none is not tested. -/
def pgWhole (v : Nat) (q : QCtx) : Bool := (pgTailOk v q || pgOff q) && pgHeadOk v q

/-- The model's test for a write that is ignored whole, as its form. -/
theorem pgForm_eq (w v : Nat) (q : QCtx) :
    (decide (w ≠ 8) || decide (bits v 16 15 ≠ 0) || decide (bits v 48 15 ≠ 0) || decide (2 ^ q.ringLog2 ≤ bits v 0 16)
      || decide (2 ^ q.cplLog2 ≤ bits v 32 16)) = !pgForm w v q := by
  have beq_nat (a b : Nat) : (a == b) = decide (a = b) := rfl
  simp only [pgForm, Bool.not_and, ← decide_not, Nat.not_lt, beq_nat, ne_eq]

section
variable {c : Cfg} {q w v : Nat} {m : Mach} {x : Queue} (hx : qGet (loadQueue c q m) q = some x) (hf : x.ctx.feed = false)
  (ho : doorOpen c (loadQueue c q m) x = true)
include hx hf ho

/-- A write whose form is wrong is ignored whole. -/
theorem pigeonhole_malformed (hv : pgForm w (v % 2 ^ 64) x.ctx = false) :
    pigeonhole q w v c m = rejectOne c q (loadQueue c q m) := by
  unfold pigeonhole
  dsimp only
  rw [hx]
  dsimp only
  rw [if_neg (by rw [hf]; decide), if_neg (by rw [ho]; decide), if_pos (by rw [pgForm_eq, hv]; rfl)]

/-- The halves of a well-formed write are judged apart. -/
theorem pigeonhole_wellFormed (hv : pgForm w (v % 2 ^ 64) x.ctx = true) :
    pigeonhole q w v c m =
      wake q (if pgWhole (v % 2 ^ 64) x.ctx then ctxUpd q (pgTaken (v % 2 ^ 64) x.ctx) (loadQueue c q m)
        else rejectOne c q (ctxUpd q (pgTaken (v % 2 ^ 64) x.ctx) (loadQueue c q m))) := by
  unfold pigeonhole
  dsimp only
  rw [hx]
  dsimp only
  rw [if_neg (by rw [hf]; decide), if_neg (by rw [ho]; decide), if_neg (by rw [pgForm_eq, hv]; decide)]
  unfold pgTaken pgWhole pgHeadOk
  simp only [decide_eq_true_eq]
  rfl

variable (hc : badIn (loadQueue c q m).mem (c.tb.cnt + 16 * q) 16 = none)
include hc

/-- A write whose form is wrong leaves the queue as it is, counted. -/
theorem qGet_pigeonhole_malformed (hv : pgForm w (v % 2 ^ 64) x.ctx = false) :
    qGet (pigeonhole q w v c m) q = some { x with rejects := satInc 16 x.rejects } := by
  rw [pigeonhole_malformed hx hf ho hv, qGet_rejectOne hc hx]

/-- A well-formed write leaves its accepted halves, a count of those ignored, and at most a new state. -/
theorem qGet_pigeonhole_wellFormed (hv : pgForm w (v % 2 ^ 64) x.ctx = true) :
    ∃ st, qGet (pigeonhole q w v c m) q = some
      { x with ctx := { pgTaken (v % 2 ^ 64) x.ctx x.ctx with state := st }
               rejects := if pgWhole (v % 2 ^ 64) x.ctx then x.rejects else satInc 16 x.rejects } := by
  have htaken : qGet (ctxUpd q (pgTaken (v % 2 ^ 64) x.ctx) (loadQueue c q m)) q = some { x with ctx := pgTaken (v % 2 ^ 64) x.ctx x.ctx } := by
    rw [qGet_ctxUpd, hx]; rfl
  rw [pigeonhole_wellFormed hx hf ho hv]
  cases pgWhole (v % 2 ^ 64) x.ctx with
  | true => exact qGet_wake htaken
  | false => exact qGet_wake (qGet_rejectOne (m := ctxUpd q (pgTaken (v % 2 ^ 64) x.ctx) (loadQueue c q m)) hc htaken)

/-- No other queue changes. -/
theorem qGet_pigeonhole_ne {r : Nat} (h : r ≠ q) : qGet (pigeonhole q w v c m) r = qGet (loadQueue c q m) r := by
  cases hv : pgForm w (v % 2 ^ 64) x.ctx with
  | false => rw [pigeonhole_malformed hx hf ho hv, qGet_rejectOne_ne hc h]
  | true =>
    have htaken : qGet (ctxUpd q (pgTaken (v % 2 ^ 64) x.ctx) (loadQueue c q m)) r = qGet (loadQueue c q m) r := qGet_ctxUpd_ne h ..
    rw [pigeonhole_wellFormed hx hf ho hv, qGet_wake_ne h]
    split
    · exact htaken
    · exact (qGet_rejectOne_ne (m := ctxUpd q (pgTaken (v % 2 ^ 64) x.ctx) (loadQueue c q m)) hc h).trans htaken

end

/-- What is read of a pigeonhole (R253). -/
theorem readPigeonhole_bits {m : Mach} {q : Nat} {x : Queue} (hx : qGet m q = some x) (hl : x.ctx.ringLog2 ≤ 16) (hs : x.ctx.state < 8) :
    bits (readPigeonhole q m) 0 16 = x.ctx.head % 2 ^ x.ctx.ringLog2 ∧ bits (readPigeonhole q m) 16 15 = 0
      ∧ bits (readPigeonhole q m) 31 1 = x.ctx.head / 2 ^ x.ctx.ringLog2 % 2 ∧ bits (readPigeonhole q m) 32 3 = x.ctx.state
      ∧ readPigeonhole q m < 2 ^ 35 := by
  have hv : readPigeonhole q m = ringForm (2 ^ x.ctx.ringLog2) x.ctx.head + x.ctx.state * 2 ^ 32 := by unfold readPigeonhole; rw [hx]
  have hn : 2 ^ x.ctx.ringLog2 ≤ 2 ^ 16 := Nat.pow_le_pow_right (by decide) hl
  have hi := Nat.mod_lt x.ctx.head (Nat.two_pow_pos x.ctx.ringLog2)
  rw [hv, ringForm]
  generalize x.ctx.head % 2 ^ x.ctx.ringLog2 = i at *
  generalize x.ctx.head / 2 ^ x.ctx.ringLog2 = t
  simp only [bits, Nat.shiftRight_eq_div_pow]
  omega

/-! ### Feed queues (R224) -/

section
variable {c : Cfg} {q w v : Nat} {m : Mach} {x : Queue} (hx : qGet m q = some x) (hf : x.ctx.feed = true) (ho : doorOpen c m x = true)
include hx hf ho

/-- An index that is not behind is taken. -/
theorem feedIndex_taken (hv : v < 2 ^ 32) (hb : subMod v x.feedIdx (2 ^ 32) < 2 ^ 31) :
    feedIndex q 8 v c m = qUpd q (fun x => { x with feedIdx := v }) m := by
  have hm : v % 2 ^ 64 = v := Nat.mod_eq_of_lt (by omega)
  unfold feedIndex
  rw [hx]
  dsimp only
  rw [if_neg (by rw [hf, ho]; decide), hm, if_neg]
  simp only [ne_eq, not_true_eq_false, decide_false, Bool.false_or, Bool.or_eq_true, decide_eq_true_eq, not_or]
  omega

/-- Any other write is counted. -/
theorem feedIndex_ignored (hv : w ≠ 8 ∨ (v < 2 ^ 64 ∧ (2 ^ 32 ≤ v ∨ 2 ^ 31 ≤ subMod v x.feedIdx (2 ^ 32)))) :
    feedIndex q w v c m = qUpd q (fun x => { x with feedRejects := satInc 32 x.feedRejects }) m := by
  unfold feedIndex
  rw [hx]
  dsimp only
  rw [if_neg (by rw [hf, ho]; decide), if_pos]
  simp only [Bool.or_eq_true, decide_eq_true_eq]
  rcases hv with hw | ⟨hv, h⟩
  · exact .inl (.inl hw)
  · rw [Nat.mod_eq_of_lt hv]; exact h.elim (fun h => .inl (.inr h)) .inr

end

end Sys2Proof.Machine
end

section
/-! SUPPORT. Mailboxes: their data bytes, and what a trigger copies (R264 to R267, R325). -/

namespace Sys2Proof.Machine
open Sys2Proof

/-- What is read of a trigger word (R265). -/
theorem readTrigger_bits {m : Mach} {i : Nat} {b : Mbx} (hb : mget m.mbx i = some b) (hs : b.seq < 2 ^ 16) :
    bits (readTrigger i m) 0 16 = b.seq ∧ bits (readTrigger i m) 16 8 = 0 ∧ bits (readTrigger i m) 24 1 = b.pending.toList.length
      ∧ bits (readTrigger i m) 25 1 = b.flight.toList.length ∧ readTrigger i m < 2 ^ 26 := by
  have hv : readTrigger i m = b.seq + (if b.pending.isSome then 2 ^ 24 else 0) + if b.flight.isSome then 2 ^ 25 else 0 := by
    unfold readTrigger; rw [hb]
  rw [hv]
  simp only [bits, Nat.shiftRight_eq_div_pow]
  cases b.pending <;> cases b.flight <;>
    simp only [Option.isSome_none, Option.isSome_some, Bool.false_eq_true, ite_true, ite_false, Option.toList_none, Option.toList_some,
      List.length_nil, List.length_singleton] <;> omega

/-- Data within one block below the trigger word is kept. -/
theorem mailboxData_kept {c : Cfg} {m : Mach} {i o : Nat} {d : List Byte} (hl : c.lockTables = true) (hi : i < 4096) (hd : d ≠ [])
    (ho : o / 64 = (o + d.length - 1) / 64) (he : o + d.length ≤ 0xF8) :
    mailboxData i o d c m =
      { m with mbx := mset m.mbx i { (mget m.mbx i).getD {} with data := bwrite ((mget m.mbx i).getD {}).data o d } } := by
  have hn : 0 < d.length := List.length_pos_iff.2 hd
  unfold mailboxData
  rw [if_neg]
  simp only [hl, hd, Bool.not_true, Bool.false_or, decide_false, Bool.or_false, Bool.or_eq_true, decide_eq_true_eq, not_or, ne_eq]
  omega

/-- A line that a write finds good stays good. -/
theorem badIn_memPut {m : Mem} {a n : Nat} (b : Nat) (l : List Byte) (h : badIn m a n = none) : badIn (memPut m b l) a n = none := by
  simp only [badIn, Option.map_eq_none_iff, List.find?_eq_none] at h ⊢
  intro p hp
  have hkept : p ∈ mfilter (fun k _ => !(b ≤ 64 * k && 64 * k + 64 ≤ b + l.length)) m.bad := hp
  exact h p (mem_mfilter hkept).1

/-! ### Triggers (R265 to R267) -/

/-- The landing a submission goes to: the one nothing in flight uses (R265, R266; log 32). -/
def mbxLand (b : Mbx) : Nat := match b.flight with | some l => 1 - l | none => (b.pending.map (·.2)).getD 0

/-- The bytes of a landing: the data, zero-filled (R265). -/
def mbxBytes (b : Mbx) (len : Nat) : List Byte := bread b.data 0 len ++ List.replicate (256 - len) (0 : Byte)

/-- A submission that replaces one still pending is counted (R267). -/
def countReplaced (c : Cfg) (q : Nat) (b : Mbx) (m : Mach) : Mach :=
  if b.pending.isSome then counterUpd c q (fun y => { y with replaced := satInc 16 y.replaced }) m else m

/-- A mailbox is set. -/
def mbxPut (i : Nat) (b : Mbx) (m : Mach) : Mach := { m with mbx := mset m.mbx i b }

/-- A trigger word that the queue's door takes, and a landing that lies in memory its domain may write. -/
def submits (c : Cfg) (v : Nat) (x : Queue) (b : Mbx) (a : Nat) (m : Mach) : Prop :=
  doorOpen c m x = true ∧ x.ctx.feed = false ∧ v < 2 ^ 24 ∧ bits v 16 8 ≤ 248 ∧ x.ctx.state ≠ qsKilled
    ∧ translateNow c m x.ctx.dom (landingVa x.ctx.aux (mbxLand b)) .write = .dev a ∧ writeChk m.mem x.ctx.dom a 256 = .ok ∧ inImage m a 256 = false

theorem mbxBytes_length (b : Mbx) {len : Nat} (h : len ≤ 248) : (mbxBytes b len).length = 256 := by
  rw [mbxBytes, List.length_append, bread_length, List.length_replicate]; omega

theorem mem_countReplaced {c : Cfg} {q : Nat} {m : Mach} (b : Mbx) (h : badIn m.mem (c.tb.cnt + 16 * q) 16 = none) :
    (countReplaced c q b m).mem = m.mem := by
  unfold countReplaced
  split
  · rw [counterUpd_good h]; rfl
  · rfl

theorem qGet_countReplaced {c : Cfg} {q : Nat} {m : Mach} {x : Queue} (b : Mbx) (h : badIn m.mem (c.tb.cnt + 16 * q) 16 = none)
    (hx : qGet m q = some x) :
    qGet (countReplaced c q b m) q = some { x with replaced := if b.pending.isSome then satInc 16 x.replaced else x.replaced } := by
  unfold countReplaced
  cases b.pending.isSome with
  | true => rw [if_pos rfl, counterUpd_good h, qGet_qUpd, hx]; rfl
  | false => exact hx

theorem mem_xlateFill (c : Cfg) (d va : Nat) (m : Mach) : (xlateFill c none d va m).mem = m.mem := xlateFill_view Mach.mem (fun _ => rfl) ..
theorem inImage_xlateFill (c : Cfg) (d va a n : Nat) (m : Mach) : inImage (xlateFill c none d va m) a n = inImage m a n :=
  xlateFill_view (inImage · a n) (fun _ => rfl) ..

/-- A submission that is taken: its bytes are written, a pending one counts as replaced, and it waits. -/
theorem mailboxTrigger_submits {c : Cfg} {q i v a : Nat} {m : Mach} {x : Queue} {b : Mbx} (hq : mbxQueue m i = some q)
    (hx : qGet (loadQueue c q m) q = some x) (hb : (mget (loadQueue c q m).mbx i).getD {} = b) (h : submits c v x b a (loadQueue c q m)) :
    mailboxTrigger i 8 v c m =
      let m1 := xlateFill c none x.ctx.dom (landingVa x.ctx.aux (mbxLand b)) (loadQueue c q m)
      wake q (mbxPut i { b with seq := v % 2 ^ 16, pending := some (v % 2 ^ 16, mbxLand b) }
        (countReplaced c q b (engPut a (mbxBytes b (bits v 16 8)) m1))) := by
  obtain ⟨ho, hf, hv, hn, hk, ht, hw, hi⟩ := h
  have htaken : (!doorOpen c (loadQueue c q m) x || x.ctx.feed || decide (8 ≠ 8) || decide (2 ^ 24 ≤ v) || decide (248 < bits v 16 8)
      || decide (x.ctx.state = qsKilled)) = false := by
    rw [ho, hf, decide_eq_false (show ¬8 ≠ 8 by decide), decide_eq_false (Nat.not_le.2 hv), decide_eq_false (Nat.not_lt.2 hn), decide_eq_false hk]; rfl
  unfold mailboxTrigger
  rw [hq]
  dsimp only
  rw [hx]
  dsimp only
  rw [Nat.mod_eq_of_lt (show v < 2 ^ 64 by omega), hb, if_neg (by rw [htaken]; decide)]
  -- the model writes the landing out where `submits` names it
  erw [ht]
  dsimp only
  rw [mem_xlateFill, hw]
  dsimp only
  rw [inImage_xlateFill, hi]
  rfl

/-- What a submission that is taken leaves, where its lines are free and its queue's counter entry is good. -/
theorem mailboxTrigger_leaves {c : Cfg} {q i v a : Nat} {m : Mach} {x : Queue} {b : Mbx} (hq : mbxQueue m i = some q)
    (hx : qGet (loadQueue c q m) q = some x) (hb : (mget (loadQueue c q m).mbx i).getD {} = b) (h : submits c v x b a (loadQueue c q m))
    (hc : badIn (loadQueue c q m).mem (c.tb.cnt + 16 * q) 16 = none) (hl : lineBusy (loadQueue c q m) a 256 = false) :
    mget (mailboxTrigger i 8 v c m).mbx i = some { b with seq := v % 2 ^ 16, pending := some (v % 2 ^ 16, mbxLand b) }
      ∧ (mailboxTrigger i 8 v c m).mem = memPut (loadQueue c q m).mem a (mbxBytes b (bits v 16 8))
      ∧ ∃ y, qGet (mailboxTrigger i 8 v c m) q = some y ∧ y.replaced = if b.pending.isSome then satInc 16 x.replaced else x.replaced := by
  rw [mailboxTrigger_submits hq hx hb h]
  obtain ⟨-, -, -, hn, -, -, -, -⟩ := h
  have hlen := mbxBytes_length b hn
  generalize hm1 : xlateFill c none x.ctx.dom (landingVa x.ctx.aux (mbxLand b)) (loadQueue c q m) = m1
  have hfree : lineBusy m1 a (mbxBytes b (bits v 16 8)).length = false := by
    rw [← hm1, hlen]; exact (xlateFill_view (lineBusy · a 256) (fun _ => rfl) ..).trans hl
  have hmem : m1.mem = (loadQueue c q m).mem := by rw [← hm1]; exact mem_xlateFill ..
  have hx1 : qGet m1 q = some x := by rw [← hm1]; exact (xlateFill_view (qGet · q) (fun _ => rfl) ..).trans hx
  dsimp only
  rw [engPut_free hfree]
  have hgood : badIn (memStore a (mbxBytes b (bits v 16 8)) m1).mem (c.tb.cnt + 16 * q) 16 = none :=
    badIn_memPut a _ (hmem ▸ hc)
  refine ⟨by rw [wake_mbx]; exact mget_mset .., ?_, ?_⟩
  · rw [wake_mem]
    show (countReplaced c q b _).mem = _
    rw [mem_countReplaced b hgood, ← hmem]; rfl
  · exact replaced_wake (m := mbxPut i _ _) (qGet_countReplaced b hgood hx1)

end Sys2Proof.Machine
end

section
/-! SUPPORT. The rules of the four commands of doors and mailboxes, and O44 (R224, R251 to R253, R264 to R267). -/

namespace Sys2Proof.Machine
open Sys2Proof

theorem exec_pigeonholeWrite (q w v : Nat) (s : State) : exec (.pigeonholeWrite q w v) s = s.runM (pigeonhole q w v) := rfl
theorem exec_feedIndexWrite (q w v : Nat) (s : State) :
    exec (.feedIndexWrite q w v) s = s.runM fun c m => feedIndex q w v c (loadQueue c q m) := rfl
theorem exec_mailboxDataWrite (i o : Nat) (d : List Byte) (s : State) : exec (.mailboxDataWrite i o d) s = s.runM (mailboxData i o d) := rfl
theorem exec_mailboxTrigger (i w v : Nat) (s : State) : exec (.mailboxTrigger i w v) s = s.runM (mailboxTrigger i w v) := rfl

section
variable {s : State} {q : Nat} {x : Queue} (hx : qGet s.q q = some x) (h : ctxReady s q x.ctx.dom)
include hx h

/-- The load of a queue changes no queue. -/
theorem qGet_loadQueue (r : Nat) : qGet (loadQueue s.c q s.q) r = qGet s.q r := loadQueue_view (qGet · r) (fun _ => rfl) hx h
theorem mem_loadQueue : (loadQueue s.c q s.q).mem = s.q.mem := loadQueue_view Mach.mem (fun _ => rfl) hx h
theorem mbx_loadQueue : (loadQueue s.c q s.q).mbx = s.q.mbx := loadQueue_view Mach.mbx (fun _ => rfl) hx h
theorem doorOpen_loadQueue (y : Queue) : doorOpen s.c (loadQueue s.c q s.q) y = doorOpen s.c s.q y :=
  loadQueue_view (doorOpen s.c · y) (fun _ => rfl) hx h
theorem lineBusy_loadQueue (a n : Nat) : lineBusy (loadQueue s.c q s.q) a n = lineBusy s.q a n :=
  loadQueue_view (lineBusy · a n) (fun _ => rfl) hx h
theorem submits_loadQueue (v : Nat) (b : Mbx) (a : Nat) : submits s.c v x b a (loadQueue s.c q s.q) = submits s.c v x b a s.q :=
  loadQueue_view (submits s.c v x b a) (fun _ => rfl) hx h

end

/-- Settles O44: each door is judged on the loaded context, which differs from the one before in requests and caches alone. -/
theorem doorsJudgeTheirWrites : Obligations.DoorsJudgeTheirWrites := by
  unfold Obligations.DoorsJudgeTheirWrites
  refine ⟨?pigeonhole, ?feedTaken, ?feedIgnored, ?readPigeonhole, ?readTrigger, ?mailboxData, ?trigger⟩
  case pigeonhole =>
    intro s q w v x hl hx hr hf ho hc
    have hx1 := (qGet_loadQueue hx hr q).trans hx
    have ho1 := (doorOpen_loadQueue hx hr x).trans ho
    have hc1 : badIn (loadQueue s.c q s.q).mem (s.c.tb.cnt + 16 * q) 16 = none := by rw [mem_loadQueue hx hr]; exact hc
    refine Runs.ofM (exec_pigeonholeWrite q w v s) hl
      ⟨fun r h => (qGet_pigeonhole_ne hx1 hf ho1 hc1 h).trans (qGet_loadQueue hx hr r), ?_⟩
    cases hv : pgForm w (v % 2 ^ 64) x.ctx with
    | false => exact ⟨_, qGet_pigeonhole_malformed hx1 hf ho1 hc1 hv, fun _ => rfl, fun h => nomatch h⟩
    | true =>
      obtain ⟨st, hy⟩ := qGet_pigeonhole_wellFormed hx1 hf ho1 hc1 hv
      refine ⟨_, hy, fun h => (nomatch h), fun _ => ⟨?_, rfl, ?_⟩⟩
      · simp only [pgTaken, pgOff, Bool.not_or, Bool.and_assoc, bne]
      · rw [Bool.or_assoc]; rfl
  case feedTaken =>
    intro s q v x hl hx hr hf ho hv hb
    have hx1 := (qGet_loadQueue hx hr q).trans hx
    refine Runs.ofM (exec_feedIndexWrite q 8 v s) hl ?_
    dsimp only [State.m]
    rw [feedIndex_taken hx1 hf ((doorOpen_loadQueue hx hr x).trans ho) hv hb]
    exact ⟨fun r h => (qGet_qUpd_ne h ..).trans (qGet_loadQueue hx hr r), by rw [qGet_qUpd, hx1]; rfl⟩
  case feedIgnored =>
    intro s q w v x hl hx hr hf ho hv
    have hx1 := (qGet_loadQueue hx hr q).trans hx
    refine Runs.ofM (exec_feedIndexWrite q w v s) hl ?_
    dsimp only [State.m]
    rw [feedIndex_ignored hx1 hf ((doorOpen_loadQueue hx hr x).trans ho) hv, qGet_qUpd, hx1]
    rfl
  case readPigeonhole =>
    rintro m q x _ hx hl hs rfl
    exact readPigeonhole_bits hx hl hs
  case readTrigger =>
    rintro m i b _ hb hs rfl
    exact readTrigger_bits hb hs
  case mailboxData =>
    intro s i o d hl ht hi hd ho he
    refine Runs.ofM (exec_mailboxDataWrite i o d s) hl ?_
    dsimp only [State.m]
    rw [mailboxData_kept ht hi hd ho he]
    exact ⟨rfl, rfl, ⟨_, mget_mset .., bread_bwrite .., fun a h => bget_bwrite_out _ _ _ _ h⟩, fun j h => mget_mset_ne _ _ h⟩
  case trigger =>
    rintro s i v q x a b land hl hq hx hr ho hf hv hn hk hc rfl rfl ht hw hi hb
    have hs : submits s.c v x _ a s.q := ⟨ho, hf, hv, hn, hk, ht, hw, hi⟩
    have hc1 : badIn (loadQueue s.c q s.q).mem (s.c.tb.cnt + 16 * q) 16 = none := by rw [mem_loadQueue hx hr]; exact hc
    obtain ⟨hmbx, hmem, hy⟩ := mailboxTrigger_leaves hq ((qGet_loadQueue hx hr q).trans hx) (by rw [mbx_loadQueue hx hr]; rfl)
      ((submits_loadQueue hx hr v _ a).mpr hs) hc1 ((lineBusy_loadQueue hx hr a 256).trans hb)
    have hlen := mbxBytes_length ((mget s.m.mbx i).getD {}) hn
    have hread := bread_bwrite (mbxBytes ((mget s.m.mbx i).getD {}) (bits v 16 8)) s.q.mem.cells a
    rw [hlen] at hread
    rw [mem_loadQueue hx hr] at hmem
    refine Runs.ofM (exec_mailboxTrigger i 8 v s) hl ⟨hmbx, ?_, ?_, hy⟩ <;> dsimp only [State.m] <;> rw [hmem]
    · exact hread
    · exact fun j h => bget_bwrite_out _ _ _ _ (by rw [hlen]; exact h)

end Sys2Proof.Machine
end

section
/-! SUPPORT. What a command that fails a check leaves: the order of the checks, the row that answers it, and O57 (R393, R474). -/

namespace Sys2Proof.Machine
open Sys2Proof

/-! ### The order of the checks (R474) -/

/-- The order in which failing checks are answered. -/
def statusOrder : List Nat := [stIntegrity, stMalformed, stParamRange, stPermission, stBindResources, stAdmissionRefused]

theorem cmdStatus_eq (l : List (Bool × Nat)) :
    cmdStatus l = (statusOrder.find? fun s => l.any fun p => p.1 && p.2 == s).getD stOk := rfl

/-- Some check of a list fails with a status. -/
theorem any_failing_iff {l : List (Bool × Nat)} {st : Nat} : (l.any fun p => p.1 && p.2 == st) = true ↔ (true, st) ∈ l := by
  simp only [List.any_eq_true, Bool.and_eq_true, beq_iff_eq]
  constructor
  · rintro ⟨⟨_, _⟩, hp, rfl, rfl⟩; exact hp
  · exact fun h => ⟨_, h, rfl, rfl⟩

/-- The status is that of a failing check before which, in the order, none fails. -/
theorem cmdStatus_of_first {l : List (Bool × Nat)} {before after : List Nat} {st : Nat} (ho : statusOrder = before ++ st :: after)
    (hb : ∀ x ∈ before, (true, x) ∉ l) (hs : (true, st) ∈ l) : cmdStatus l = st := by
  have hnone : (before.find? fun s => l.any fun p => p.1 && p.2 == s) = none :=
    List.find?_eq_none.2 fun x hx h => hb x hx (any_failing_iff.1 h)
  rw [cmdStatus_eq, ho, List.find?_append, hnone, List.find?_cons, any_failing_iff.2 hs]
  rfl

theorem cmdStatus_integrity {l : List (Bool × Nat)} (h : (true, stIntegrity) ∈ l) : cmdStatus l = stIntegrity :=
  cmdStatus_of_first (before := []) rfl (by simp) h

/-- No argument area, none that fails a tag. -/
theorem areaFails_zero (m : Mach) (k : Cmd) : areaFails m k 0 = none := by
  unfold areaFails; rw [if_pos (by simp)]

/-- The checks every command makes report a failed tag where the argument area has one. -/
theorem mem_baseChecks_integrity {c : Cfg} {m : Mach} {k : Cmd} {n : Nat} :
    (true, stIntegrity) ∈ baseChecks c m k n ↔ (areaFails m k n).isSome = true := by
  simp only [baseChecks, List.mem_cons, List.not_mem_nil, Prod.mk.injEq, or_false, stIntegrity, stMalformed, stParamRange, stPermission,
    Nat.reduceEqDiff, and_false, and_true, false_or]
  exact eq_comm

/-- A run beyond the protected range is answered before its granules are looked at. -/
theorem cmdStatus_regionAssign {c : Cfg} {m : Mach} {k : Cmd} (hm : (true, stMalformed) ∉ baseChecks c m k 0)
    (hr : 29127 < k.argN 0x1C 4 ∨ c.protG < k.argN 0x18 4 + k.argN 0x1C 4) :
    cmdStatus (baseChecks c m k 0 ++ regionAssignChecks c m k) = stParamRange := by
  have hbad : runBad c k = true := by
    simp only [runBad, Bool.or_eq_true, decide_eq_true_eq]
    exact hr.elim (fun h => .inl (.inr h)) .inr
  have hown : (true, stIntegrity) ∉ regionAssignChecks c m k ∧ (true, stMalformed) ∉ regionAssignChecks c m k := by
    simp [regionAssignChecks, stIntegrity, stMalformed, stParamRange, stPermission]
  have htag : (true, stIntegrity) ∉ baseChecks c m k 0 := by
    rw [mem_baseChecks_integrity, areaFails_zero]; decide
  refine cmdStatus_of_first (before := [stIntegrity, stMalformed]) rfl ?_ (List.mem_append_right _ ?_)
  · simpa only [List.forall_mem_cons, List.mem_append, not_or, List.not_mem_nil, false_imp_iff, forall_const, and_true]
      using ⟨⟨htag, hown.1⟩, hm, hown.2⟩
  · rw [regionAssignChecks, hbad]; exact List.mem_cons_self

/-! ### The answer (R393) -/

/-- A frame to another engine leaves the host port as it is. -/
theorem hp_manageTo (e kind req : Nat) (l : List Byte) (m : Mach) : (manageTo e kind req l m).hp = m.hp :=
  foldl_keeps Mach.hp _ (fun m i => by unfold frameTo; split <;> rfl) _ _

theorem hp_irqEvt (c : Cfg) (m : Mach) : (irqEvt c m).hp = m.hp := by
  unfold irqEvt
  split
  · rfl
  · split
    · rfl
    · show (msix _ m).hp = m.hp; unfold msix; split <;> rfl

/-- An answer into a line the host has no part in asks nothing of the host. -/
theorem hp_respond (c : Cfg) (id st : Nat) (l : List Byte) {m : Mach}
    (hf : lineBusy m (evtRing + 64 * (m.rings.evtTail % 4096)) 64 = false) : (respond c id st l m).hp = m.hp := by
  unfold respond
  split
  · rfl
  · dsimp only
    split
    · exact hp_manageTo ..
    · unfold putEvent
      rw [hp_irqEvt]
      dsimp only
      rw [engPut_free (by rw [evtEntry_length]; exact hf)]
      rfl

/-- The answer of a command of this engine takes one entry of the event ring. -/
theorem evtTail_respond (c : Cfg) (id st : Nat) (l : List Byte) {m : Mach} {k : Cmd} (h : mget m.rings.cmds id = some k) (hr : k.relay = none) :
    (respond c id st l m).rings.evtTail = (m.rings.evtTail + 1) % 8192 := by
  unfold respond
  rw [h]
  dsimp only
  rw [hr]
  dsimp only
  rw [rings_putEvent]

/-- The answer of a command of this engine reads back at the event tail. -/
theorem bread_respond (c : Cfg) (id st : Nat) (l : List Byte) {m : Mach} {k : Cmd} (h : mget m.rings.cmds id = some k) (hr : k.relay = none)
    (hf : lineBusy m (evtRing + 64 * (m.rings.evtTail % 4096)) 64 = false) :
    bread (respond c id st l m).mem.cells (evtRing + 64 * (m.rings.evtTail % 4096)) 64
      = evtEntry m 1 0 (clerkOf k.opcode) k.tag st k.opcode l := by
  have hread := bread_bwrite (evtEntry m 1 0 (clerkOf k.opcode) k.tag st k.opcode l) m.mem.cells (evtRing + 64 * (m.rings.evtTail % 4096))
  rw [evtEntry_length] at hread
  rw [(respond_entry c id st l m k h hr hf).1, hread]

/-! ### Rows that are refused -/

/-- A command read from the ring under number `id` is `k`, of code `op`; it may start, and the first check of its row that fails
has status `st` (R393 to R395, R474). -/
structure Refused (op id : Nat) (area : Cmd → Nat) (chk : Cfg → Mach → Cmd → List (Bool × Nat)) (c : Cfg) (m : Mach) (k : Cmd) (st : Nat) : Prop where
  read : mget m.rings.cmds id = some k
  code : k.opcode = op
  fresh : k.phase = 0
  ready : cmdReady m k = true
  status : cmdStatus (baseChecks c m k (area k) ++ chk c m k) = st
  fails : st ≠ stOk

section
variable {op id : Nat} {area : Cmd → Nat} {chk : Cfg → Mach → Cmd → List (Bool × Nat)} {c : Cfg} {m : Mach} {k : Cmd} {st : Nat}

theorem withCmd_ready (f : Cmd → Mach → Mach) (h : Refused op id area chk c m k st) : withCmd op id f m = f k m := by
  unfold withCmd
  rw [h.read]
  dsimp only
  rw [h.code, h.fresh, h.ready, if_pos (by simp)]

/-- A row that is refused answers, and does nothing else. -/
theorem cmdRow_refused (act : Cfg → Cmd → Mach → Mach) (h : Refused op id area chk c m k st) :
    cmdRow op id area chk act c m = respond c id st [] (areaReport c k (area k) m) := by
  rw [cmdRow, withCmd_ready _ h]
  dsimp only
  rw [h.status, if_pos h.fails]

/-- Only a row refused for a failed tag reports a line. -/
theorem areaReport_refused (h : Refused op id area chk c m k st) (hst : st ≠ stIntegrity) : areaReport c k (area k) m = m := by
  have hnone : areaFails m k (area k) = none := by
    refine Option.not_isSome_iff_eq_none.1 fun hs => hst ?_
    rw [← h.status]
    exact cmdStatus_integrity (List.mem_append_left _ (mem_baseChecks_integrity.2 hs))
  unfold areaReport
  rw [hnone]

end

@[simp] theorem still_areaReport (c : Cfg) (k : Cmd) (n : Nat) (m : Mach) : (areaReport c k n m).still = m.still := by
  unfold areaReport; split <;> simp

theorem cmds_areaReport (c : Cfg) (k : Cmd) (n : Nat) (m : Mach) : (areaReport c k n m).rings.cmds = m.rings.cmds := by
  unfold areaReport
  split
  · exact cmds_post ..
  · rfl

/-! ### Queue commands: the context is loaded first (R246) -/

/-- The load a queue command makes before its checks. -/
def queueLoad (c : Cfg) (k : Cmd) (m : Mach) : Mach := if qDom m (k.argN 0x18 4) = k.dom then loadQueue c (k.argN 0x18 4) m else m

theorem queueRow_eq (op id : Nat) (area : Cmd → Nat) (chk : Cfg → Mach → Cmd → List (Bool × Nat)) (act : Cfg → Cmd → Mach → Mach) (c : Cfg) (m : Mach) :
    queueRow op id area chk act c m = cmdRow op id area chk act c (withCmd op id (queueLoad c) m) := rfl

/-- A context and a domain's entry that stand in their caches are not read. -/
theorem loadCtx_cached {c : Cfg} {q d : Nat} {m : Mach} (hq : q ∈ m.ctxCache) (hqn : m.ctxCache.length ≤ 8192) (hd : d ∈ m.domCache)
    (hdn : m.domCache.length ≤ 256) :
    loadCtx c q d m = { m with ctxCache := (q :: m.ctxCache.erase q).take 8192, domCache := (d :: m.domCache.erase d).take 256 } := by
  unfold loadCtx
  dsimp only
  rw [List.contains_iff_mem.2 hq, if_neg (by simp), List.contains_iff_mem.2 hd, if_neg (by simp), if_pos rfl,
    List.contains_iff_mem.2 hd, if_pos rfl, domTouch_fits c (.inl hd) hdn]
  exact ctxTouch_fits c (m := { m with domCache := _ }) (.inl hq) hqn

section
variable {s : State} {k : Cmd} (h : qDom s.m (k.argN 0x18 4) = k.dom → ctxReady s (k.argN 0x18 4) k.dom)
include h

/-- The load changes nothing, or it is that of a context that loads. -/
theorem queueLoad_cases : queueLoad s.c k s.q = s.q
    ∨ (ctxReady s (k.argN 0x18 4) k.dom ∧ queueLoad s.c k s.q = loadCtx s.c (k.argN 0x18 4) k.dom s.q) := by
  unfold queueLoad
  split
  case isFalse => exact .inl rfl
  case isTrue hd =>
    unfold loadQueue
    cases hx : qGet s.q (k.argN 0x18 4) with
    | none => exact .inl rfl
    | some x =>
      have hdom : x.ctx.dom = k.dom := by rw [← hd, qDom, hx]; rfl
      exact .inr ⟨h hd, by rw [Option.map_some, Option.getD_some, hdom]⟩

theorem loaded_queueLoad : (queueLoad s.c k s.q).loaded = s.q.loaded := by
  rcases queueLoad_cases h with hl | ⟨⟨hq, hqn, hd, hdn⟩, hl⟩ <;> rw [hl]
  exact loadCtx_fits (m := s.q) hq hqn hd hdn

/-- A load of what is cached asks nothing of the memory or the host. -/
theorem queueLoad_cached (hq : k.argN 0x18 4 ∈ s.m.ctxCache) (hd : k.dom ∈ s.m.domCache) :
    (queueLoad s.c k s.q).cores = s.m.cores ∧ (queueLoad s.c k s.q).hp = s.m.hp := by
  rcases queueLoad_cases h with hl | ⟨⟨-, hqn, -, hdn⟩, hl⟩ <;> rw [hl]
  · exact ⟨rfl, rfl⟩
  · rw [loadCtx_cached (m := s.q) hq hqn hd hdn]; exact ⟨rfl, rfl⟩

end

/-- The checks of a row read nothing that the load of a context touches. -/
def LoadBlind (chk : Cfg → Mach → Cmd → List (Bool × Nat)) : Prop := ∀ c m k, chk c m.loaded k = chk c m k

/-- A row is refused alike before and after a load. -/
theorem Refused.of_loaded {op id : Nat} {area : Cmd → Nat} {chk : Cfg → Mach → Cmd → List (Bool × Nat)} {c : Cfg} {m n : Mach} {k : Cmd} {st : Nat}
    (h : Refused op id area chk c m k st) (hb : LoadBlind chk) (hn : n.loaded = m.loaded) : Refused op id area chk c n k st where
  read := by rw [show n.rings = m.rings from (congrArg Mach.rings hn :)]; exact h.read
  code := h.code
  fresh := h.fresh
  ready := (congrArg (cmdReady · k) hn :).trans h.ready
  status := by
    have hbase : baseChecks c n k (area k) = baseChecks c m k (area k) := (congrArg (baseChecks c · k (area k)) hn :)
    rw [hbase, ← hb c n k, hn, hb c m k]; exact h.status
  fails := h.fails

/-! ### Every row makes its checks first -/

/-- A row whose checks come first is a command row, or a queue command's row. -/
theorem exec_of_rowChecks {i : Instr} {op id : Nat} {area : Cmd → Nat} {chk : Cfg → Mach → Cmd → List (Bool × Nat)}
    (h : rowChecks i = some (op, id, area, chk)) :
    (∃ act, ∀ s, exec i s = s.runM (cmdRow op id area chk act))
      ∨ ((0x401 ≤ op ∧ op ≤ 0x408) ∧ LoadBlind chk ∧ ∃ act, ∀ s, exec i s = s.runM (queueRow op id area chk act)) := by
  cases i
  case queueSet | queueBind | queueQuery | queuePause | queueResume | queueRelease | queueReset | queueDestroy =>
    cases h; exact .inr ⟨by decide, fun _ _ _ => rfl, _, fun _ => rfl⟩
  all_goals cases h
  all_goals exact .inl ⟨_, fun _ => rfl⟩

/-- A command that fails a check is answered, in a block that differs from the one before in what a queue's load touches alone. -/
theorem exec_refused {i : Instr} {op id : Nat} {area : Cmd → Nat} {chk : Cfg → Mach → Cmd → List (Bool × Nat)} {s : State} {k : Cmd} {st : Nat}
    (hi : rowChecks i = some (op, id, area, chk)) (hl : live s = true) (h : Refused op id area chk s.c s.q k st)
    (hc : 0x401 ≤ op ∧ op ≤ 0x408 → qDom s.m (k.argN 0x18 4) = k.dom → ctxReady s (k.argN 0x18 4) k.dom) :
    ∃ m, exec i s = .next { s with dev := { cfg := s.c, m := respond s.c id st [] (areaReport s.c k (area k) m) } }
      ∧ Refused op id area chk s.c m k st ∧ m.loaded = s.q.loaded
      ∧ (op < 0x401 ∨ 0x408 < op ∨ (k.argN 0x18 4 ∈ s.m.ctxCache ∧ k.dom ∈ s.m.domCache) → m.cores = s.m.cores ∧ m.hp = s.m.hp) := by
  rcases exec_of_rowChecks hi with ⟨act, hx⟩ | ⟨hop, hb, act, hx⟩
  · exact ⟨s.q, by rw [hx, runM_live _ _ hl, cmdRow_refused act h], h, rfl, fun _ => ⟨rfl, rfl⟩⟩
  · have hload := loaded_queueLoad (hc hop)
    have h' := h.of_loaded hb hload
    refine ⟨queueLoad s.c k s.q, by rw [hx, runM_live _ _ hl, queueRow_eq, withCmd_ready _ h, cmdRow_refused act h'], h', hload, ?_⟩
    rintro (hlt | hgt | ⟨hq, hd⟩)
    · omega
    · omega
    · exact queueLoad_cached (hc hop) hq hd

/-- What neither an answer nor a load touches stands. -/
theorem refused_view {α : Type} (g : Mach → α) (hs : ∀ m, g m.still = g m) (hg : ∀ m, g m.loaded = g m) (c : Cfg) (id st n : Nat) (k : Cmd)
    {m q : Mach} (hm : m.loaded = q.loaded) : g (respond c id st [] (areaReport c k n m)) = g q := by
  rw [respond_view g hs, ← hs, still_areaReport, hs, ← hg, hm, hg]

/-- LEDGER_RETIRE on an engine that is no member answers at once (R286). -/
theorem ledgerRetire_answers {id : Nat} {s : State} {k : Cmd} (h : accepted 0x502 id (fun _ => 0) ledgerRetireChecks s k = true) (hr : roleOf s.c ≠ 1) :
    ∃ l, ledgerRetire id s.c s.q = respond s.c id stOk [] { s.q with ledger := l } := by
  rw [ledgerRetire, cmdRow_accepted h]
  dsimp only
  rw [if_neg (by simp [hr])]
  exact ⟨_, rfl⟩

/-- Settles O57: a row makes its checks before its effect, on the block or on what a load of the queue's context leaves of it, and the first
that fails is answered. -/
theorem firstFailingCheckIsAnswered : Obligations.FirstFailingCheckIsAnswered := by
  unfold Obligations.FirstFailingCheckIsAnswered
  refine ⟨fun l h => cmdStatus_integrity h, ?order, fun c m k hm hr => cmdStatus_regionAssign hm hr, ?retire, ?refused⟩
  case order =>
    intro l hi
    refine ⟨fun h => ?malformed, fun hm h => ?range, fun hm hr h => ?permission, fun hm hr hp h => ?resources, fun hm hr hp hb h => ?admission⟩
    case malformed => exact cmdStatus_of_first (before := [stIntegrity]) rfl (by simp [hi]) h
    case range => exact cmdStatus_of_first (before := [stIntegrity, stMalformed]) rfl (by simp [hi, hm]) h
    case permission => exact cmdStatus_of_first (before := [stIntegrity, stMalformed, stParamRange]) rfl (by simp [hi, hm, hr]) h
    case resources => exact cmdStatus_of_first (before := [stIntegrity, stMalformed, stParamRange, stPermission]) rfl (by simp [hi, hm, hr, hp]) h
    case admission => exact cmdStatus_of_first (before := [stIntegrity, stMalformed, stParamRange, stPermission, stBindResources]) rfl (by simp [hi, hm, hr, hp, hb]) h
  case retire =>
    intro s id k h hr hk hf
    have hcmd := accepted_cmd h
    have hop : k.opcode = 0x502 := by simp only [accepted, Bool.and_eq_true, beq_iff_eq] at h; exact h.1.1.1.2
    refine Runs.ofM (f := ledgerRetire id) rfl (accepted_live h) ?_
    dsimp only [State.m, Answered]
    obtain ⟨l, hl⟩ := ledgerRetire_answers h hr
    have hread := bread_respond s.c id stOk [] (m := { s.q with ledger := l }) hcmd hk hf
    rw [hop] at hread
    rw [hl]
    exact ⟨cmds_respond _ _ _ _ _ k hcmd, hread⟩
  case refused =>
    intro i op id area chk s k st hi hl hk hop hp hr hst hne hc
    obtain ⟨m, hx, href, hm, hport⟩ := exec_refused hi hl ⟨hk, hop, hp, hr, hst, hne⟩ hc
    have hrings : m.rings = s.m.rings := (congrArg Mach.rings hm :)
    have hbusy (a n : Nat) : lineBusy m a n = lineBusy s.q a n := (congrArg (lineBusy · a n) hm :)
    have hentry : evtEntry m 1 0 (clerkOf op) k.tag st op [] = evtEntry s.m 1 0 (clerkOf op) k.tag st op [] :=
      (congrArg (evtEntry · 1 0 (clerkOf op) k.tag st op []) hm :)
    have hview {α : Type} (g : Mach → α) (hs : ∀ m, g m.still = g m) (hg : ∀ m, g m.loaded = g m) :
        g (respond s.c id st [] (areaReport s.c k (area k) m)) = g s.q := refused_view g hs hg s.c id st (area k) k hm
    refine ⟨_, hx, ?answered, rfl, rfl, hview Mach.doms (fun _ => rfl) fun _ => rfl, hview Mach.queues (fun _ => rfl) fun _ => rfl,
      hview Mach.ledger (fun _ => rfl) fun _ => rfl, hview Mach.parcels (fun _ => rfl) fun _ => rfl, hview Mach.depot (fun _ => rfl) fun _ => rfl,
      hview Mach.tick (fun _ => rfl) fun _ => rfl, hview Mach.store (fun _ => rfl) fun _ => rfl, hview (·.mem.granules) (fun _ => rfl) fun _ => rfl,
      hview Mach.keys (fun _ => rfl) fun _ => rfl, hview Mach.casc (fun _ => rfl) fun _ => rfl, fun hq => ⟨?cores, fun hi hf => ?port⟩,
      fun hrel hi => ⟨?tail, fun hf => ?entry⟩⟩
    case answered =>
      have hread : mget (areaReport s.c k (area k) m).rings.cmds id = some k := by rw [cmds_areaReport]; exact href.read
      show (respond ..).rings.cmds = _
      rw [cmds_respond _ _ _ _ _ k hread, cmds_areaReport, hrings]
    case cores =>
      show (respond ..).cores = _
      rw [respond_view Mach.cores (fun _ => rfl), ← (hport hq).1]
      exact (congrArg Mach.cores (still_areaReport ..) :)
    case port =>
      show (respond ..).hp = _
      rw [areaReport_refused href hi, hp_respond _ _ _ _ (by rw [hbusy, hrings]; exact hf), (hport hq).2]
    case tail =>
      show (respond ..).rings.evtTail = _
      rw [areaReport_refused href hi, evtTail_respond _ _ _ _ href.read hrel, hrings]
    case entry =>
      show bread (respond ..).mem.cells _ 64 = _
      have hread := bread_respond s.c id st [] href.read hrel (by rw [hbusy, hrings]; exact hf)
      rw [hrings, href.code] at hread
      rw [areaReport_refused href hi, hread, hentry]

end Sys2Proof.Machine
end

section
/-! SUPPORT. What a command can do to the settings: the legal changes, one by one (R279, R348, R369, R449, R450, R454, R458 to R462). -/

namespace Sys2Proof.Machine
open Sys2Proof

/-- What `cfgOk` asks of the table bases and ring sizes (R454). -/
structure TbOk (b : TableCfg) : Prop where
  part : b.partT ≤ 64 ∧ b.partH ≤ 64 ∧ b.partT + b.partH ≤ 96
  dlLog2 : b.dlLog2 = 0 ∨ 6 ≤ b.dlLog2 ∧ b.dlLog2 ≤ 16
  prLog2 : b.prLog2 = 0 ∨ 10 ≤ b.prLog2 ∧ b.prLog2 ≤ 20
  ctx : b.ctx < 2 ^ 40
  cnt : b.cnt < 2 ^ 40
  dom : b.dom < 2 ^ 40
  feed : b.feed < 2 ^ 40
  pool : b.pool < 2 ^ 40
  dl : b.dl < 2 ^ 40
  pr : b.pr < 2 ^ 40

/-- What `cfgOk` asks of the host-port settings (R336, R461). -/
structure HostOk (h : HpCfg) : Prop where
  out : hpOk h.outRate h.outDepth = true
  inp : hpOk h.inRate h.inDepth = true
  loss : 1 ≤ h.lossTimeout ∧ h.lossTimeout ≤ 10000
  hbLimit : h.hbLimit ≤ 60000

/-- What `cfgOk` asks of the shares of the memory ports (R460). -/
structure SharesOk (l : List Nat) : Prop where
  length : l.length = 16
  range : ∀ n ∈ l, 1 ≤ n ∧ n ≤ 16

/-- What `cfgOk` asks of one link block (R369, R462). -/
structure LinkOk (l : LinkCfg) : Prop where
  etype : etypeOk l.etype = true
  vid : l.vid < 4095
  mac : l.mac < 2 ^ 48 ∧ bits l.mac 40 1 = 0
  pcp : l.pcp < 8
  timeout : 100 ≤ l.timeout ∧ l.timeout ≤ 100000
  rtShare : l.rtShare ≤ 64

/-- The ranges of the settings, field by field. -/
structure InRange (c : Cfg) : Prop where
  tick : tickOk c.tick = true
  cap : 10 ≤ c.cap ∧ c.cap ≤ 95
  mpShare : SharesOk c.mpShare
  hp : HostOk c.hp
  tb : TbOk c.tb
  fwAddr : c.fwAddr % 4096 = 0 ∧ c.fwAddr < 2 ^ 52
  fwLen : c.fwLen < 2 ^ 32
  irq : c.evtIrq.vector < 2048 ∧ c.dlIrq.vector < 2048
  ports : c.links.length = 4
  links : ∀ l ∈ c.links, LinkOk l
  prot : c.lockProt = false ∨ protOk c.protG = true
  off : c.lockRole = true ∨ ∀ l ∈ c.links, l.enable = false

theorem cfgOk_iff (c : Cfg) : cfgOk c = true ↔ InRange c := by
  simp only [cfgOk, Bool.and_eq_true, decide_eq_true_eq, beq_iff_eq, Bool.or_eq_true, List.all_eq_true, Bool.not_eq_eq_eq_not, Bool.not_true]
  constructor
  · rintro ⟨⟨⟨⟨⟨⟨⟨⟨⟨⟨⟨⟨⟨⟨⟨⟨ht, hc⟩, hs⟩, hsa⟩, ho⟩, hi⟩, hl1, hl2, hh⟩, hp⟩, hd⟩, hr⟩, h1, h2, h3, h4, h5, h6, h7⟩, hf1, hf2, hf3⟩, hv⟩, hn⟩, hk⟩, hg⟩, he⟩
    exact ⟨ht, hc, ⟨hs, hsa⟩, ⟨ho, hi, ⟨hl1, hl2⟩, hh⟩, ⟨hp, hd, hr, h1, h2, h3, h4, h5, h6, h7⟩, ⟨hf1, hf2⟩, hf3, hv, hn,
      fun l hl => by obtain ⟨he, hv, hm, hu, hp, h1, h2, hr⟩ := hk l hl; exact ⟨he, hv, ⟨hm, hu⟩, hp, ⟨h1, h2⟩, hr⟩, hg, he⟩
  · rintro ⟨ht, hc, ⟨hs, hsa⟩, ⟨ho, hi, ⟨hl1, hl2⟩, hh⟩, ⟨hp, hd, hr, h1, h2, h3, h4, h5, h6, h7⟩, ⟨hf1, hf2⟩, hf3, hv, hn, hk, hg, he⟩
    exact ⟨⟨⟨⟨⟨⟨⟨⟨⟨⟨⟨⟨⟨⟨⟨⟨ht, hc⟩, hs⟩, hsa⟩, ho⟩, hi⟩, hl1, hl2, hh⟩, hp⟩, hd⟩, hr⟩, h1, h2, h3, h4, h5, h6, h7⟩, hf1, hf2, hf3⟩, hv⟩, hn⟩,
      fun l hl => by obtain ⟨he, hv, ⟨hm, hu⟩, hp, ⟨h1, h2⟩, hr⟩ := hk l hl; exact ⟨he, hv, hm, hu, hp, h1, h2, hr⟩⟩, hg⟩, he⟩

/-- One legal change of the settings; `boot` tells whether the boot ROM makes it. -/
inductive SetStep (boot : Prop) : Cfg → Cfg → Prop
  | imageAt (c a) (ha : a % 4096 = 0 ∧ a < 2 ^ 52) : SetStep boot c { c with fwAddr := a }
  | imageLen (c n) (hn : n < 2 ^ 32) : SetStep boot c { c with fwLen := n }
  | power (c g p) (hp : 10 ≤ p ∧ p ≤ 95) : SetStep boot c { c with gateIdle := g, cap := p }
  | gating (c l) : SetStep boot c { c with noGate := l }
  | tables (c b) (hl : c.lockTables = false) (hb : TbOk c.tb → TbOk b) : SetStep boot c { c with tb := b }
  | tick (c n) (hn : tickOk n = true) : SetStep boot c { c with tick := n }
  | ptm (c e) : SetStep boot c { c with ptmEpoch := e }
  | vectors (c v w) (h : c.evtIrq.vector < 2048 → c.dlIrq.vector < 2048 → v.vector < 2048 ∧ w.vector < 2048) :
      SetStep boot c { c with evtIrq := v, dlIrq := w }
  | granules (c g) (hl : c.lockProt = false) : SetStep boot c { c with protG := g }
  | shares (c l) (h : SharesOk c.mpShare → SharesOk l) : SetStep boot c { c with mpShare := l }
  | host (c h) (ho : HostOk c.hp → HostOk h) : SetStep boot c { c with hp := h }
  | link (c i f) (hf : ∀ l, (LinkOk l → LinkOk (f l)) ∧ (f l).role = l.role ∧ ((f l).enable = true → l.enable = true ∨ c.lockRole = true)) :
      SetStep boot c { c with links := lupd c.links i f }
  | role (c r) (hl : c.lockRole = false) : SetStep boot c { c with links := lupd c.links 0 fun l => { l with role := r } }
  | lockTables (c) : SetStep boot c { c with lockTables := true }
  | lockProt (c) (hp : protOk c.protG = true) : SetStep boot c { c with lockProt := true }
  | lockRole (c) : SetStep boot c { c with lockRole := true }
  | bootProt (c g) (hb : boot) (hp : protOk g = true) : SetStep boot c { c with protG := g, lockProt := true }

/-- Any number of legal changes. -/
inductive SetSteps (boot : Prop) (c : Cfg) : Cfg → Prop
  | refl : SetSteps boot c c
  | tail {d e : Cfg} (h : SetSteps boot c d) (k : SetStep boot d e) : SetSteps boot c e

theorem SetSteps.trans {boot : Prop} {c d e : Cfg} (h : SetSteps boot c d) (k : SetSteps boot d e) : SetSteps boot c e := by
  induction k with
  | refl => exact h
  | tail _ he ih => exact ih.tail he

theorem mem_lupd {α : Type} {l : List α} {i : Nat} {f : α → α} {y : α} (h : y ∈ lupd l i f) : y ∈ l ∨ ∃ x ∈ l, y = f x := by
  unfold lupd at h
  split at h
  · rename_i x hx
    rcases List.mem_or_eq_of_mem_set h with h | h
    · exact .inl h
    · exact .inr ⟨x, List.mem_of_getElem? hx, h⟩
  · exact .inl h

/-- A change of one element that keeps a view of it keeps the list's view. -/
theorem map_lupd {α β : Type} (g : α → β) (l : List α) (i : Nat) (f : α → α) (h : ∀ x, g (f x) = g x) : (lupd l i f).map g = l.map g := by
  refine List.ext_getElem? fun j => ?_
  rw [List.getElem?_map, List.getElem?_map]
  by_cases hj : j = i
  · subst hj; rw [lupd_get, Option.map_map]; exact Option.map_congr fun x _ => h x
  · rw [lupd_get_ne _ _ hj]

/-- Every legal change keeps the settings in their ranges. -/
theorem SetStep.inRange {boot : Prop} {c d : Cfg} (h : SetStep boot c d) (hc : InRange c) : InRange d := by
  cases h with
  | imageAt a ha => exact { hc with fwAddr := ha }
  | imageLen n hn => exact { hc with fwLen := hn }
  | power g p hp => exact { hc with cap := hp }
  | gating l => exact { hc with }
  | tables b hl hb => exact { hc with tb := hb hc.tb }
  | tick n hn => exact { hc with tick := hn }
  | ptm e => exact { hc with }
  | vectors v w h => exact { hc with irq := h hc.irq.1 hc.irq.2 }
  | granules g hl => exact { hc with prot := .inl hl }
  | shares l h => exact { hc with mpShare := h hc.mpShare }
  | host h ho => exact { hc with hp := ho hc.hp }
  | link i f hf =>
    refine { hc with ports := (lupd_length ..).trans hc.ports, links := fun y hy => ?_, off := Decidable.or_iff_not_imp_left.2 fun hr y hy => ?_ }
    · rcases mem_lupd hy with hy | ⟨x, hx, rfl⟩
      · exact hc.links y hy
      · exact (hf x).1 (hc.links x hx)
    · rcases mem_lupd hy with hy | ⟨x, hx, rfl⟩
      · exact hc.off.resolve_left hr y hy
      · refine Bool.eq_false_iff.2 fun he => ?_
        rcases (hf x).2.2 he with he | he
        · exact absurd ((hc.off.resolve_left hr x hx).symm.trans he) (by decide)
        · exact hr he
  | role r hl =>
    refine { hc with ports := (lupd_length ..).trans hc.ports, links := fun y hy => ?_, off := Decidable.or_iff_not_imp_left.2 fun hr y hy => ?_ }
    · rcases mem_lupd hy with hy | ⟨x, hx, rfl⟩
      · exact hc.links y hy
      · exact { hc.links x hx with }
    · rcases mem_lupd hy with hy | ⟨x, hx, rfl⟩
      · exact hc.off.resolve_left hr y hy
      · exact hc.off.resolve_left hr x hx
  | lockTables => exact { hc with }
  | lockProt hp => exact { hc with prot := .inr hp }
  | lockRole => exact { hc with off := .inl rfl }
  | bootProt g hb hp => exact { hc with prot := .inr hp }

theorem SetSteps.inRange {boot : Prop} {c d : Cfg} (h : SetSteps boot c d) (hc : InRange c) : InRange d := by
  induction h with
  | refl => exact hc
  | tail _ hd ih => exact hd.inRange ih

/-- What stays behind the locks (R450); `boot` frees PROT_G. -/
structure Locked (boot : Prop) (c d : Cfg) : Prop where
  tables : c.lockTables = true → d.lockTables = true ∧ d.tb = c.tb
  role : c.lockRole = true → d.lockRole = true ∧ d.links.map (·.role) = c.links.map (·.role)
  prot : c.lockProt = true → d.lockProt = true ∧ (d.protG = c.protG ∨ boot)
  strap : d.strap = c.strap

theorem Locked.refl {boot : Prop} (c : Cfg) : Locked boot c c := ⟨fun h => ⟨h, rfl⟩, fun h => ⟨h, rfl⟩, fun h => ⟨h, .inl rfl⟩, rfl⟩

theorem Locked.trans {boot : Prop} {c d e : Cfg} (h : Locked boot c d) (k : Locked boot d e) : Locked boot c e where
  tables hc := ⟨(k.tables (h.tables hc).1).1, (k.tables (h.tables hc).1).2.trans (h.tables hc).2⟩
  role hc := ⟨(k.role (h.role hc).1).1, (k.role (h.role hc).1).2.trans (h.role hc).2⟩
  prot hc := by
    obtain ⟨hd, hg⟩ := h.prot hc
    obtain ⟨he, hk⟩ := k.prot hd
    refine ⟨he, ?_⟩
    rcases hk with hk | hb
    · exact hg.imp_left hk.trans
    · exact .inr hb
  strap := k.strap.trans h.strap

/-- Every legal change keeps what is locked. -/
theorem SetStep.locked {boot : Prop} {c d : Cfg} (h : SetStep boot c d) : Locked boot c d := by
  cases h with
  | imageAt | imageLen | power | gating | tick | ptm | vectors | shares | host => exact { Locked.refl c with }
  | tables b hl => exact { Locked.refl c with tables := fun h => absurd (hl.symm.trans h) (by decide) }
  | granules g hl => exact { (Locked.refl c : Locked boot c c) with prot := fun h => absurd (hl.symm.trans h) (by decide) }
  | link i f hf => exact { Locked.refl c with role := fun h => ⟨h, map_lupd _ _ _ _ fun l => (hf l).2.1⟩ }
  | role r hl => exact { Locked.refl c with role := fun h => absurd (hl.symm.trans h) (by decide) }
  | lockTables => exact { Locked.refl c with tables := fun _ => ⟨rfl, rfl⟩ }
  | lockProt => exact { (Locked.refl c : Locked boot c c) with prot := fun _ => ⟨rfl, .inl rfl⟩ }
  | lockRole => exact { Locked.refl c with role := fun _ => ⟨rfl, rfl⟩ }
  | bootProt g hb => exact ⟨fun h => ⟨h, rfl⟩, fun h => ⟨h, rfl⟩, fun _ => ⟨rfl, .inr hb⟩, rfl⟩

theorem SetSteps.locked {boot : Prop} {c d : Cfg} (h : SetSteps boot c d) : Locked boot c d := by
  induction h with
  | refl => exact .refl c
  | tail _ hd ih => exact ih.trans hd.locked

end Sys2Proof.Machine
end

section
/-! SUPPORT. The settings after each command: which legal changes its writes make, and O56, O58, O59, O60 and O55. -/

namespace Sys2Proof.Machine
open Sys2Proof

section
variable {boot : Prop}

theorem SetSteps.one {c d : Cfg} (h : SetStep boot c d) : SetSteps boot c d := .tail .refl h

theorem SetSteps.of_eq {c d : Cfg} (h : d = c) : SetSteps boot c d := h ▸ .refl

theorem bits_lt (v lo n : Nat) : bits v lo n < 2 ^ n := Nat.mod_lt _ (Nat.two_pow_pos n)

/-! ### Locks, loads and ticks -/

theorem sets_fwGo (v : Nat) (d : Dev) : SetSteps boot d.cfg (fwGo v d).cfg := by
  unfold fwGo
  split
  · exact .refl
  · split
    · exact .refl
    · split
      · exact .refl
      · rename_i hp
        have hlock : SetSteps boot d.cfg { d.cfg with lockProt := true } := .one (.lockProt d.cfg (by simpa using hp))
        dsimp only
        split <;> exact hlock

theorem sets_lockProtection (d : Dev) : SetSteps boot d.cfg (lockProtection d).cfg := by
  unfold lockProtection
  split
  · exact .refl
  · split
    · exact .one (.lockProt _ ‹_›)
    · exact .refl

theorem sets_lockTables (d : Dev) : SetSteps boot d.cfg (lockTables d).cfg := by
  unfold lockTables
  split
  · exact .refl
  · split <;> exact .refl

theorem sets_tablesCheckDone (d : Dev) : SetSteps boot d.cfg (tablesCheckDone d).cfg := by
  unfold tablesCheckDone
  split
  · exact .refl
  · dsimp only
    split
    · exact .refl
    · exact .one (.lockTables _)

theorem cfg_roleLocked (d : Dev) : (roleLocked d).cfg = { d.cfg with lockRole := true } := by
  unfold roleLocked; dsimp only; split <;> rfl

theorem sets_roleLocked (d : Dev) : SetSteps boot d.cfg (roleLocked d).cfg := by
  rw [cfg_roleLocked]; exact .one (.lockRole _)

theorem sets_tickCfgWrite (w v t : Nat) (d : Dev) : SetSteps boot d.cfg (tickCfgWrite w v t d).cfg := by
  unfold tickCfgWrite
  dsimp only
  split
  · exact .refl
  · split
    · exact .refl
    · rename_i h
      simp only [Bool.or_eq_true, Bool.not_eq_true', not_or, Bool.not_eq_false] at h
      exact .one (.tick _ _ h.1)

theorem sets_tickFrame (port i : Nat) (h : KHead) (count p q t0 t : Nat) (d : Dev) : SetSteps boot d.cfg (tickFrame port i h count p q t0 t d).cfg := by
  unfold tickFrame
  dsimp only
  split
  · exact .refl
  · split
    · exact .refl
    · rename_i h
      split
      · simp only [Bool.or_eq_true, Bool.not_eq_true', not_or, Bool.not_eq_false] at h
        exact .one (.tick _ _ h.2)
      · exact .refl

/-! ### Link registers -/

/-- A change of a link block that touches neither ROLE nor ENABLE. -/
theorem sets_linkUpd (i : Nat) {f : LinkCfg → LinkCfg} (c : Cfg) (hf : ∀ l, LinkOk l → LinkOk (f l)) (hr : ∀ l, (f l).role = l.role)
    (he : ∀ l, (f l).enable = l.enable) : SetSteps boot c (linkUpd i f c) :=
  .one (.link c i f fun l => ⟨hf l, hr l, fun h => .inl ((he l).symm.trans h)⟩)

theorem sets_linkEnable (i : Nat) (d : Dev) : SetSteps boot d.cfg (linkEnable i d).cfg := by
  unfold linkEnable
  split
  · dsimp only
    rw [cfg_roleLocked]
    exact (SetSteps.one (.lockRole _)).tail (.link _ i _ fun l => ⟨fun hl => { hl with }, rfl, fun _ => .inr rfl⟩)
  · exact .refl

theorem sets_linkDisable (i : Nat) (d : Dev) : SetSteps boot d.cfg (linkDisable i d).cfg := by
  unfold linkDisable
  split
  · exact .one (.link _ i _ fun l => ⟨fun hl => { hl with }, rfl, fun h => by simp at h⟩)
  · exact .refl

theorem sets_setWrite (off : Nat) {ok : Bool} {f : Cfg → Cfg} {d : Dev} (h : ok = true → SetSteps boot d.cfg (f d.cfg)) :
    SetSteps boot d.cfg (setWrite off ok f d).cfg := by
  unfold setWrite
  split
  · exact h ‹_›
  · exact .refl

theorem sets_tableWrite (off : Nat) {ok : Bool} {f : TableCfg → TableCfg} {d : Dev} (h : ok = true → TbOk d.cfg.tb → TbOk (f d.cfg.tb)) :
    SetSteps boot d.cfg (tableWrite off ok f d).cfg := by
  unfold tableWrite
  split
  · exact .refl
  · rename_i hl
    simp only [Bool.or_eq_true, Bool.not_eq_true', not_or, Bool.not_eq_false, Bool.not_eq_true] at hl
    exact .one (.tables _ _ hl.1.1 (h hl.2))

theorem sets_role (r full : Nat) (i : Nat) (d : Dev) (old : Nat) :
    SetSteps boot d.cfg (if i ≠ 0 || r = old then d else if d.cfg.lockRole then { d with m := badWrite full d.m }
      else { d with cfg := linkUpd 0 (fun l => { l with role := r }) d.cfg }).cfg := by
  split
  · exact .refl
  · split
    · exact .refl
    · exact .one (.role _ r (Bool.eq_false_iff.2 ‹_›))

theorem sets_linkWrite (i off full v : Nat) (d : Dev) : SetSteps boot d.cfg (linkWrite i off full v d).cfg := by
  unfold linkWrite
  dsimp only
  split
  · split
    · exact (sets_role ..).trans (sets_linkEnable ..)
    · exact (sets_role ..).trans (sets_linkDisable ..)
  · refine sets_setWrite _ fun h => sets_linkUpd i _ (fun l hl => { hl with mac := ⟨Nat.mod_lt _ (by decide), ?_⟩ }) (fun _ => rfl) fun _ => rfl
    simp only [Bool.and_eq_true, decide_eq_true_eq] at h
    simp only [bits, Nat.shiftRight_eq_div_pow] at h ⊢
    omega
  · refine sets_setWrite _ fun h => sets_linkUpd i _ (fun l hl => ?_) (fun _ => rfl) fun _ => rfl
    simp only [Bool.and_eq_true, decide_eq_true_eq] at h
    have hv : bits v 16 12 < 4095 := by have := bits_lt v 16 12; omega
    exact { hl with etype := h.2, vid := hv, pcp := bits_lt v 28 3 }
  · refine sets_setWrite _ fun h => sets_linkUpd i _ (fun l hl => { hl with timeout := ?_ }) (fun _ => rfl) fun _ => rfl
    simpa only [Bool.and_eq_true, decide_eq_true_eq] using h
  · split
    · exact sets_linkUpd i _ (fun l hl => { hl with rtShare := ‹_› }) (fun _ => rfl) fun _ => rfl
    · exact .refl
  · exact .refl

/-! ### BAR0 -/

theorem sharesOk_shareBytes {v : Nat} (h : sharesOk v = true) : (shareBytes v).length = 8 ∧ ∀ n ∈ shareBytes v, 1 ≤ n ∧ n ≤ 16 := by
  simp only [sharesOk, List.all_eq_true, Bool.and_eq_true, decide_eq_true_eq] at h
  refine ⟨by simp [shareBytes], fun n hn => ?_⟩
  obtain ⟨i, hi, rfl⟩ := List.mem_map.1 hn
  have hb := h i hi
  have hm : bits v (8 * i) 5 = bits v (8 * i) 8 % 32 := (Nat.mod_mod_of_dvd _ (by decide : 2 ^ 5 ∣ 2 ^ 8)).symm
  omega

theorem SharesOk.put {l r : List Nat} (hl : l.length = 8 ∧ ∀ n ∈ l, 1 ≤ n ∧ n ≤ 16) (hr : r.length = 8 ∧ ∀ n ∈ r, 1 ≤ n ∧ n ≤ 16) : SharesOk (l ++ r) where
  length := by rw [List.length_append, hl.1, hr.1]
  range n hn := (List.mem_append.1 hn).elim (hl.2 n) (hr.2 n)

theorem SharesOk.drop {l : List Nat} (h : SharesOk l) : (l.drop 8).length = 8 ∧ ∀ n ∈ l.drop 8, 1 ≤ n ∧ n ≤ 16 :=
  ⟨by rw [List.length_drop, h.length], fun n hn => h.range n (List.mem_of_mem_drop hn)⟩

theorem SharesOk.take {l : List Nat} (h : SharesOk l) : (l.take 8).length = 8 ∧ ∀ n ∈ l.take 8, 1 ≤ n ∧ n ≤ 16 :=
  ⟨by rw [List.length_take, h.length]; rfl, fun n hn => h.range n (List.mem_of_mem_take hn)⟩

theorem sets_noGateWrite (k : Nat) (v : Bool) (d : Dev) : SetSteps boot d.cfg (noGateWrite k v d).cfg := .one (.gating _ _)

/-- One bit of LOCK: a 1 does what the lock does, a 0 is recorded or ignored. -/
theorem sets_lockBit {p q : Prop} [Decidable p] [Decidable q] {f : Dev → Dev} (hf : ∀ d, SetSteps boot d.cfg (f d).cfg) (off : Nat) (d : Dev) :
    SetSteps boot d.cfg (if p then f d else if q then { d with m := badWrite off d.m } else d).cfg := by
  split
  · exact hf d
  · split <;> exact .refl

/-- A write that is a function's, or nothing. -/
theorem sets_ite {p : Prop} [Decidable p] {c : Cfg} {d e : Dev} (hd : p → SetSteps boot c d.cfg) (he : ¬p → SetSteps boot c e.cfg) :
    SetSteps boot c (if p then d else e).cfg := by
  split
  · exact hd ‹_›
  · exact he ‹_›

/-- A write of a register, WARM_RESET apart. -/
theorem sets_write8 (off v : Nat) (lo hi : Bool) (t : Nat) (d : Dev) (hoff : off ≠ 0x1000) : SetSteps boot d.cfg (write8 off v lo hi t d).cfg := by
  have hsame {p : Prop} [Decidable p] (m n : Mach) : SetSteps boot d.cfg (if p then { d with m := m } else { d with m := n } : Dev).cfg :=
    sets_ite (fun _ => .refl) fun _ => .refl
  unfold write8
  split
  -- FW_ADDR and FW_LEN
  · have := bits_lt v 12 40
    exact .one (.imageAt _ _ ⟨Nat.mul_mod_left .., by omega⟩)
  · exact .one (.imageLen _ _ (Nat.mod_lt _ (by decide)))
  · exact sets_ite (fun _ => sets_fwGo v d) fun _ => .refl
  · exact hsame _ _
  · exact hsame _ _
  -- LOCK
  · exact sets_ite (fun _ => .refl) fun _ =>
      ((sets_lockBit sets_lockProtection _ _).trans (sets_lockBit sets_roleLocked _ _)).trans (sets_lockBit sets_lockTables _ _)
  · exact hsame _ _
  · exact absurd rfl hoff
  -- POWER_CTRL
  · refine sets_setWrite _ fun h => .one (.power _ _ _ ?_)
    simpa only [Bool.and_eq_true, decide_eq_true_eq] using h
  -- the table bases
  · exact sets_tableWrite _ fun _ h => { h with ctx := Nat.mod_lt _ (by decide) }
  · exact sets_tableWrite _ fun _ h => { h with cnt := Nat.mod_lt _ (by decide) }
  · exact sets_tableWrite _ fun _ h => { h with dom := Nat.mod_lt _ (by decide) }
  · exact sets_tableWrite _ fun _ h => { h with feed := Nat.mod_lt _ (by decide) }
  · exact sets_tableWrite _ fun _ h => { h with pool := Nat.mod_lt _ (by decide) }
  · exact sets_tableWrite _ fun _ h => { h with dl := Nat.mod_lt _ (by decide) }
  · exact sets_tableWrite _ fun hr h => { h with dlLog2 := .inr (by simpa using hr) }
  · exact .refl
  · exact sets_tableWrite _ fun _ h => { h with pr := Nat.mod_lt _ (by decide) }
  · exact sets_tableWrite _ fun hr h => { h with prLog2 := .inr (by simpa using hr) }
  · exact .refl
  · refine sets_tableWrite _ fun hr h => { h with part := ?_ }
    simp only [Bool.and_eq_true, decide_eq_true_eq] at hr
    exact ⟨hr.1.1, hr.1.2, hr.2⟩
  -- TICK_CFG, PTM_EPOCH, TICK_STATUS
  · exact sets_tickCfgWrite ..
  · exact .one (.ptm _ _)
  · exact hsame _ _
  -- EVT_IRQ and DL_IRQ
  · exact .one (.vectors _ _ _ fun _ h => ⟨bits_lt v 0 11, h⟩)
  · exact .one (.vectors _ _ _ fun h _ => ⟨h, bits_lt v 0 11⟩)
  -- PROT_G and MP_SHARE
  · exact sets_ite (fun _ => .refl) fun h => .one (.granules _ _ (Bool.eq_false_iff.2 h))
  · exact sets_setWrite _ fun h => .one (.shares _ _ fun hl => .put (sharesOk_shareBytes h) hl.drop)
  · exact sets_setWrite _ fun h => .one (.shares _ _ fun hl => .put hl.take (sharesOk_shareBytes h))
  -- the host port
  · exact sets_ite (fun h => .one (.host _ _ fun ho => { ho with out := h })) fun _ => .refl
  · exact sets_ite (fun h => .one (.host _ _ fun ho => { ho with inp := h })) fun _ => .refl
  · refine sets_setWrite _ fun h => .one (.host _ _ fun ho => { ho with loss := ?_ })
    simpa only [Bool.and_eq_true, decide_eq_true_eq] using h
  · exact sets_ite (fun h => .one (.host _ _ fun ho => { ho with hbLimit := h })) fun _ => .refl
  · exact .refl
  · exact hsame _ _
  -- links, cores, the MSI-X table
  · refine sets_ite (fun _ => sets_linkWrite ..) fun _ => sets_ite (fun _ => ?_) fun _ => sets_ite (fun _ => .refl) fun _ => .refl
    exact sets_ite (fun _ => .refl) fun _ => sets_noGateWrite ..

/-- A BAR0 write, of WARM_RESET apart. -/
theorem sets_writeBar0 (off w v t : Nat) (d : Dev) (hoff : off - off % 8 ≠ 0x1000) : SetSteps boot d.cfg (writeBar0 off w v t d).cfg := by
  unfold writeBar0
  dsimp only
  split
  · rename_i h
    simp only [Bool.and_eq_true, decide_eq_true_eq] at h
    exact sets_write8 _ _ _ _ _ { d with m := tickTo t d.m } (by omega)
  · split
    · rename_i h
      simp only [Bool.and_eq_true, decide_eq_true_eq] at h
      exact sets_write8 _ _ _ _ _ { d with m := tickTo t d.m } (by omega)
    · split
      · rename_i h
        simp only [Bool.and_eq_true, decide_eq_true_eq] at h
        exact sets_write8 _ _ _ _ _ { d with m := tickTo t d.m } (by omega)
      · exact .refl

/-- A register list of a MANAGE frame names no register that resets (R466). -/
theorem sets_regList (n : Nat) : ∀ l vs d, SetSteps boot d.cfg (regList n l vs d).1.cfg := by
  induction n with
  | zero => exact fun _ _ _ => .refl
  | succ n ih =>
    intro l vs d
    rw [regList]
    dsimp only
    split
    · exact .refl
    · split
      · exact .refl
      · split
        · exact .refl
        · rename_i hbar
          split
          · refine (sets_writeBar0 _ _ _ _ _ fun h => hbar ?_).trans (ih _ _ _)
            rw [h]; simp [listBarred]
          · exact ih _ _ _

theorem sets_registerList (req : Nat) (b : List Byte) (d : Dev) : SetSteps boot d.cfg (registerList req b d).cfg :=
  sets_ite (fun _ => sets_regList 64 b [] d) fun _ => sets_regList 64 b [] d

theorem sets_manageFrame (port i : Nat) (h : KHead) (kind req bytes offset : Nat) (body : List Byte) (t : Nat) (d : Dev) :
    SetSteps boot d.cfg (manageFrame port i h kind req bytes offset body t d).cfg := by
  unfold manageFrame
  dsimp only
  split
  · exact .refl
  · split
    · exact .refl
    · split
      · rename_i m b _ _
        exact sets_ite (fun _ => sets_registerList req b { d with m := m }) fun _ => .refl
      · exact .refl

end

/-! ### The boot ROM -/

theorem sets_bootWaitLoad {boot : Prop} (hb : boot) (t : Nat) (d : Dev) : SetSteps boot d.cfg (bootWaitLoad t d).cfg := by
  unfold bootWaitLoad
  dsimp only
  split
  · exact .refl
  · split
    · exact .refl
    · split
      · exact .refl
      · rename_i hg
        simp only [Bool.or_eq_true, Bool.not_eq_true', not_or, Bool.not_eq_false] at hg
        have hprot := SetStep.bootProt d.cfg _ hb hg.1
        split
        · split
          · exact .one hprot
          · exact .one hprot
        · exact ((SetSteps.one hprot).tail (.lockRole _)).tail (.link _ _ _ fun l => ⟨fun hl => { hl with }, rfl, fun _ => .inr rfl⟩)

/-! ### WARM_RESET -/

theorem cfg_warmReset (w v : Nat) (d : Dev) : (warmReset w v d).cfg = cfg0 d.cfg.strap ∨ (warmReset w v d).cfg = d.cfg := by
  unfold warmReset
  split
  · exact .inl rfl
  · exact .inr rfl

/-- A write of WARM_RESET resets every setting or none. -/
theorem cfg_write8_warm (v : Nat) (lo hi : Bool) (t : Nat) (d : Dev) :
    (write8 0x1000 v lo hi t d).cfg = cfg0 d.cfg.strap ∨ (write8 0x1000 v lo hi t d).cfg = d.cfg := by
  show (if lo && hi then warmReset 8 v d else { d with m := badWrite 0x1000 d.m } : Dev).cfg = _ ∨ (if lo && hi then _ else _ : Dev).cfg = _
  split
  · exact cfg_warmReset 8 v d
  · exact .inr rfl

theorem cfg_writeBar0_warm (off w v t : Nat) (d : Dev) (hoff : off - off % 8 = 0x1000) :
    (writeBar0 off w v t d).cfg = cfg0 d.cfg.strap ∨ (writeBar0 off w v t d).cfg = d.cfg := by
  unfold writeBar0
  dsimp only
  split
  · rename_i h
    simp only [Bool.and_eq_true, decide_eq_true_eq] at h
    obtain rfl : off = 0x1000 := by omega
    exact cfg_write8_warm _ _ _ _ { d with m := tickTo t d.m }
  · split
    · rename_i h
      simp only [Bool.and_eq_true, decide_eq_true_eq] at h
      obtain rfl : off = 0x1000 := by omega
      exact cfg_write8_warm _ _ _ _ { d with m := tickTo t d.m }
    · split
      · rename_i h
        simp only [Bool.and_eq_true, decide_eq_true_eq] at h
        rw [show off - 4 = 0x1000 by omega]
        exact cfg_write8_warm _ _ _ _ { d with m := tickTo t d.m }
      · exact .inr rfl

theorem resets_or_sets (boot : Prop) (off w v t : Nat) (d : Dev) :
    (writeBar0 off w v t d).cfg = cfg0 d.cfg.strap ∨ SetSteps boot d.cfg (writeBar0 off w v t d).cfg := by
  by_cases h : off - off % 8 = 0x1000
  · exact (cfg_writeBar0_warm off w v t d h).imp_right .of_eq
  · exact .inr (sets_writeBar0 off w v t d h)

/-! ### Every command -/

/-- The command is the boot ROM's way to WAIT_LOAD. -/
def isBoot (i : Instr) : Prop := ∃ n, i = .bootWaitLoadEntry n

/-- How a command runs: it changes no setting; or it makes legal changes or resets them all; or it acts on a frozen block too. -/
inductive Form (i : Instr) : Prop
  | still (f : Cfg → Mach → Mach) (h : ∀ s, exec i s = s.runM f)
  | sets (f : Dev → Dev) (h : ∀ s, exec i s = s.run f) (hf : ∀ d, (f d).cfg = cfg0 d.cfg.strap ∨ SetSteps (isBoot i) d.cfg (f d).cfg)
  | always (f : Dev → Dev) (h : ∀ s, exec i s = s.runAlways f) (hi : i = .coldReset ∨ (∃ r, i = .tapScan r) ∨ ∃ n, i = .pfwNLowPulse n)
      (hf : ∀ d, (f d).cfg = cfg0 d.cfg.strap ∨ (f d).cfg = d.cfg)

theorem form (i : Instr) : Form i := by
  cases i
  case fwGo v => exact .sets (fwGo v) (fun _ => rfl) fun d => .inr (sets_fwGo v d)
  case warmReset w v => exact .sets (warmReset w v) (fun _ => rfl) fun d => (cfg_warmReset w v d).imp_right SetSteps.of_eq
  case lockTables => exact .sets lockTables (fun _ => rfl) fun d => .inr (sets_lockTables d)
  case tablesCheckDone => exact .sets tablesCheckDone (fun _ => rfl) fun d => .inr (sets_tablesCheckDone d)
  case lockProtection => exact .sets lockProtection (fun _ => rfl) fun d => .inr (sets_lockProtection d)
  case lockRole => exact .sets lockRole (fun _ => rfl) fun d => .inr (sets_roleLocked d)
  case tickCfgWrite w v t => exact .sets (tickCfgWrite w v t) (fun _ => rfl) fun d => .inr (sets_tickCfgWrite w v t d)
  case linkEnable p => exact .sets (linkEnable p) (fun _ => rfl) fun d => .inr (sets_linkEnable p d)
  case linkDisable p => exact .sets (linkDisable p) (fun _ => rfl) fun d => .inr (sets_linkDisable p d)
  case registerWrite off w v t => exact .sets (writeBar0 off w v t) (fun _ => rfl) fun d => resets_or_sets _ off w v t d
  case tickFrame p i h n a b c t => exact .sets (tickFrame p i h n a b c t) (fun _ => rfl) fun d => .inr (sets_tickFrame ..)
  case manageFrame p i h k r b o l t => exact .sets (manageFrame p i h k r b o l t) (fun _ => rfl) fun d => .inr (sets_manageFrame ..)
  case bootWaitLoadEntry t => exact .sets (bootWaitLoad t) (fun _ => rfl) fun d => .inr (sets_bootWaitLoad ⟨t, rfl⟩ t d)
  case coldReset => exact .always coldReset (fun _ => rfl) (.inl rfl) fun _ => .inl rfl
  case tapScan r => exact .always (tapScan r) (fun _ => rfl) (.inr (.inl ⟨r, rfl⟩)) fun d => by cases r <;> simp [tapScan, coldReset]
  case pfwNLowPulse n => exact .always (lowPulse n) (fun _ => rfl) (.inr (.inr ⟨n, rfl⟩)) fun d => .inr (by unfold lowPulse; split <;> rfl)
  all_goals exact .still _ fun _ => rfl


theorem runAlways_next {s t : State} {f : Dev → Dev} (h : s.runAlways f = .next t) : t = { s with dev := f s.dev.quiet } := by
  cases h; rfl

/-- After a command the settings are reset, or have been changed as is legal. -/
theorem exec_sets {i : Instr} {s t : State} (h : exec i s = .next t) : t.c = cfg0 s.c.strap ∨ SetSteps (isBoot i) s.c t.c := by
  cases form i with
  | still f hi => rw [hi] at h; rw [show t.c = s.c from (runM_kept s t f h).1]; exact .inr .refl
  | sets f hi hf =>
    rw [hi, State.run] at h
    obtain rfl := runAlways_next h
    dsimp only [State.c]
    split
    · exact .inr .refl
    · exact hf s.dev.quiet
  | always f hi _ hf =>
    rw [hi] at h
    obtain rfl := runAlways_next h
    exact (hf s.dev.quiet).imp_right .of_eq

/-- Settles O60: what a lock holds is kept by every legal change. -/
theorem lockedSettingsStay : Obligations.LockedSettingsStay := by
  unfold Obligations.LockedSettingsStay
  intro i s t h
  refine (exec_sets h).imp_right fun hs => ?_
  obtain ⟨htables, hrole, hprot, hstrap⟩ := hs.locked
  exact ⟨htables, hrole, hprot, hstrap⟩

/-- The settings after a reset are in range. -/
theorem cfgOk_cfg0 (t : Straps) : cfgOk (cfg0 t) = true := by
  simp [cfgOk, cfg0, link0, tickOk, hpOk, etypeOk, bits]

/-- Settles O59: a reset leaves the settings in range, and every legal change keeps them there. -/
theorem settingsStayInRange : Obligations.SettingsStayInRange := by
  unfold Obligations.SettingsStayInRange
  intro s t hs h
  unfold step at h
  split at h
  · cases h; exact hs
  · rcases exec_sets h with hr | hset
    · rw [hr]; exact cfgOk_cfg0 _
    · exact (cfgOk_iff _).2 (hset.inRange ((cfgOk_iff _).1 hs))

/-- Settles O55. -/
theorem stepRunsTheFrontCommand : Obligations.StepRunsTheFrontCommand := by
  unfold Obligations.StepRunsTheFrontCommand
  exact ⟨fun _ _ _ => rfl, fun s h => by unfold step; rw [h]⟩

/-- Settles O56: each form of a command answers a next state, and only the last acts on a frozen block. -/
theorem everyCommandAnswers : Obligations.EveryCommandAnswers := by
  unfold Obligations.EveryCommandAnswers
  refine ⟨fun i s => ?_, fun i s hl hcold htap hpulse => ?_, fun s => ⟨_, rfl, rfl⟩⟩
  · cases form i with
    | still f h => exact ⟨_, h s, rfl⟩
    | sets f h => exact ⟨_, h s, rfl⟩
    | always f h => exact ⟨_, h s, rfl⟩
  · cases form i with
    | still f h => rw [h]; exact run_frozen s _ hl
    | sets f h => rw [h]; exact run_frozen s _ hl
    | always f h hi =>
      rcases hi with hi | ⟨r, hi⟩ | ⟨n, hi⟩
      · exact absurd hi hcold
      · exact absurd hi (htap r)
      · exact absurd hi (hpulse n)

/-- Settles O58. -/
theorem resetValues : Obligations.ResetValues := by
  unfold Obligations.ResetValues
  refine ⟨rfl, rfl, rfl, rfl, fun _ => rfl, rfl, rfl, rfl, rfl, rfl, rfl, rfl, rfl, rfl, rfl, fun x hx => List.eq_of_mem_replicate hx,
    rfl, rfl, rfl, rfl, rfl, rfl, rfl, rfl, rfl, rfl, rfl, ?_, cfgOk_cfg0 _, cfgOk_cfg0⟩
  simp [State.c, State.reset, cfg0, link0]

end Sys2Proof.Machine
end

section
/-! SUPPORT. Sums of lists, and elements of lists. -/

namespace Sys2Proof.Machine

section
variable {M : Type} [Add M] [Zero M] [Std.Associative (α := M) (· + ·)] [Std.LawfulIdentity (· + ·) (0 : M)]

theorem sum_map_range_succ (f : Nat → M) (n : Nat) : ((List.range (n + 1)).map f).sum = ((List.range n).map f).sum + f n := by
  rw [List.range_succ, List.map_append, List.sum_append, List.map_singleton, List.sum_singleton]

omit [Std.LawfulIdentity (· + ·) (0 : M)] in
theorem sum_perm [Std.Commutative (α := M) (· + ·)] {l r : List M} (h : l.Perm r) : l.sum = r.sum := by
  refine h.foldr_eq' (fun x _ y _ z => ?_) 0
  show y + (x + z) = x + (y + z)
  rw [← Std.Associative.assoc (op := (· + · : M → M → M)), ← Std.Associative.assoc (op := (· + · : M → M → M)), Std.Commutative.comm (op := (· + · : M → M → M)) y x]

end

theorem sum_map_le {α : Type} {f g : α → Nat} {l : List α} (h : ∀ x ∈ l, f x ≤ g x) : (l.map f).sum ≤ (l.map g).sum := by
  induction l with
  | nil => exact Nat.le_refl 0
  | cons x r ih => exact Nat.add_le_add (h x List.mem_cons_self) (ih fun y hy => h y (List.mem_cons_of_mem x hy))

theorem sum_map_plus {α : Type} (f g : α → Nat) (l : List α) : (l.map fun x => f x + g x).sum = (l.map f).sum + (l.map g).sum := by
  induction l with
  | nil => rfl
  | cons x r ih => simp only [List.map_cons, List.sum_cons]; omega

theorem sum_map_mul {α : Type} (k : Nat) (f : α → Nat) (l : List α) : (l.map fun x => k * f x).sum = k * (l.map f).sum := by
  induction l with
  | nil => rfl
  | cons x r ih => rw [List.map_cons, List.map_cons, List.sum_cons, List.sum_cons, ih, Nat.mul_add]

theorem getD_of_lt {α : Type} {l : List α} {i : Nat} (d : α) (h : i < l.length) : l.getD i d = l[i] := by
  rw [List.getD_eq_getElem?_getD, List.getElem?_eq_getElem h, Option.getD_some]

theorem sum_le_length_mul {l : List Nat} {n : Nat} (h : ∀ x ∈ l, x ≤ n) : l.sum ≤ l.length * n := by
  induction l with
  | nil => exact Nat.zero_le _
  | cons x r ih =>
    have hx := h x List.mem_cons_self
    have hr := ih fun y hy => h y (List.mem_cons_of_mem x hy)
    rw [List.sum_cons, List.length_cons, Nat.succ_mul]
    omega

theorem sum_map_range_zero {f : Nat → Nat} {n : Nat} (h : ∀ i < n, f i = 0) : ((List.range n).map f).sum = 0 := by
  induction n with
  | zero => rfl
  | succ n ih => rw [sum_map_range_succ, ih fun i hi => h i (Nat.lt_succ_of_lt hi), h n (Nat.lt_succ_self n)]

theorem pos_of_sum_map_range_pos {f : Nat → Nat} {n : Nat} (h : 0 < ((List.range n).map f).sum) : ∃ i < n, 0 < f i := by
  refine Classical.byContradiction fun hno => ?_
  rw [sum_map_range_zero fun i hi => Nat.eq_zero_of_not_pos fun hp => hno ⟨i, hi, hp⟩] at h
  exact absurd h (Nat.lt_irrefl 0)

/-- One term of a sum is one less. -/
theorem sum_map_range_one_less {f g : Nat → Nat} {n i : Nat} (hi : i < n) (h : ∀ j, j ≠ i → g j = f j) (hg : g i + 1 = f i) :
    ((List.range n).map g).sum + 1 = ((List.range n).map f).sum := by
  induction n with
  | zero => exact absurd hi (Nat.not_lt_zero i)
  | succ n ih =>
    rw [sum_map_range_succ, sum_map_range_succ]
    by_cases hn : i = n
    · rw [← hn, List.map_congr_left fun j hj => h j (by have := List.mem_range.1 hj; omega)]
      omega
    · have := ih (by omega)
      rw [h n (Ne.symm hn)]
      omega

/-- A sum with one term that is not 0. -/
theorem sum_map_range_single {f : Nat → Nat} {n i : Nat} (hi : i < n) (h : ∀ j, j ≠ i → f j = 0) : ((List.range n).map f).sum = f i := by
  induction n with
  | zero => exact absurd hi (Nat.not_lt_zero i)
  | succ n ih =>
    rw [sum_map_range_succ]
    by_cases hn : i = n
    · rw [sum_map_range_zero fun j hj => h j (by omega), Nat.zero_add, hn]
    · rw [ih (by omega), h n (Ne.symm hn), Nat.add_zero]

end Sys2Proof.Machine
end

section
/-! SUPPORT. Plain integer sums: the drain accumulators as a sum of products (R69), and O17. -/

namespace Sys2Proof.Machine
open Sys2Proof

/-! ### Blocks of a reduction -/

theorem getD_chunksAux {α : Type} {n : Nat} (hn : 0 < n) (f : Nat) : ∀ (l : List α) (k : Nat), l.length ≤ f →
    (chunksAux n f l).getD k [] = (l.drop (n * k)).take n := by
  induction f with
  | zero => intro l k hl; rw [List.length_eq_zero_iff.1 (Nat.le_zero.1 hl)]; simp [chunksAux]
  | succ f ih =>
    intro l k hl
    cases l with
    | nil => simp [chunksAux]
    | cons x r =>
      rw [chunksAux]
      cases k with
      | zero => rfl
      | succ k =>
        rw [List.getD_cons_succ, ih _ _ (by rw [List.length_drop]; omega), List.drop_drop, Nat.mul_succ, Nat.add_comm]

/-- Block `k` of a reduction: 128 elements from element 128 · k. -/
theorem getD_chunks {α : Type} {n : Nat} (hn : 0 < n) (l : List α) (k : Nat) : (chunks n l).getD k [] = (l.drop (n * k)).take n :=
  getD_chunksAux hn _ l k (Nat.le_refl _)

theorem dot_eq (a : List Int) : ∀ b, dot a b = ((a.zip b).map fun p => p.1 * p.2).sum := by
  induction a with
  | nil => intro b; rw [dot]; rfl; simp
  | cons x r ih =>
    intro b
    cases b with
    | nil => rfl
    | cons y t => rw [dot, ih]; rfl

/-- The blocks of a list add up to the list. -/
theorem sum_blocks {α M : Type} [Add M] [Zero M] [Std.Associative (α := M) (· + ·)] [Std.LawfulIdentity (· + ·) (0 : M)] (f : α → M) (n : Nat) (l : List α) (k : Nat) :
    ((List.range k).map fun i => (((l.drop (n * i)).take n).map f).sum).sum = ((l.take (n * k)).map f).sum := by
  induction k with
  | zero => simp
  | succ k ih => rw [sum_map_range_succ, ih, Nat.mul_succ, List.take_add, List.map_append, List.sum_append]

theorem take_cdiv {α : Type} (l : List α) : l.take (128 * cdiv l.length 128) = l :=
  List.take_of_length_le (by unfold cdiv; omega)

/-- The partial sum of one block (R59). -/
def partialSum (st mv : List Int) (k : Nat) : Int := dot ((chunks 128 st).getD k []) ((chunks 128 mv).getD k [])

theorem partialSum_eq (st mv : List Int) (k : Nat) :
    partialSum st mv k = ((((st.zip mv).drop (128 * k)).take 128).map fun p => p.1 * p.2).sum := by
  rw [partialSum, getD_chunks (by decide), getD_chunks (by decide), dot_eq]
  unfold List.zip
  rw [List.drop_zipWith, List.take_zipWith]

section
variable {order : List Nat} {st mv : List Int} (hl : st.length = mv.length) (ho : order.Perm (List.range (cdiv st.length 128)))
include hl ho

theorem sum_order {M : Type} [Add M] [Zero M] [Std.Associative (α := M) (· + ·)] [Std.Commutative (α := M) (· + ·)] [Std.LawfulIdentity (· + ·) (0 : M)]
    (f : Int × Int → M) :
    (order.map fun k => ((((st.zip mv).drop (128 * k)).take 128).map f).sum).sum = ((st.zip mv).map f).sum := by
  have hz : (st.zip mv).length = st.length := by rw [List.length_zip, ← hl, Nat.min_self]
  rw [sum_perm (ho.map _), sum_blocks, ← hz, take_cdiv]

/-- Whatever the order of the blocks, their partial sums add up to the sum of products. -/
theorem sum_partialSum : (order.map (partialSum st mv)).sum = ((st.zip mv).map fun p => p.1 * p.2).sum := by
  rw [← sum_order hl ho]
  exact congrArg List.sum (List.map_congr_left fun k _ => partialSum_eq st mv k)

/-- The magnitudes of the partial sums are bounded by those of the products. -/
theorem sum_natAbs_partialSum : (order.map fun k => (partialSum st mv k).natAbs).sum ≤ ((st.zip mv).map fun p => (p.1 * p.2).natAbs).sum := by
  have habs (l : List Int) : l.sum.natAbs ≤ (l.map Int.natAbs).sum := by
    induction l with
    | nil => exact Nat.le_refl 0
    | cons a r ih => rw [List.sum_cons, List.map_cons, List.sum_cons]; exact Nat.le_trans (Int.natAbs_add_le _ _) (Nat.add_le_add_left ih _)
  rw [← sum_order hl ho]
  refine sum_map_le fun k _ => ?_
  rw [partialSum_eq]
  exact Nat.le_trans (habs _) (by rw [List.map_map]; exact Nat.le_refl _)

end

/-! ### The accumulator -/

/-- An INT32 add: exact, or counted. -/
theorem i32_sat32 (v : Int) (h : (sat32 v).2 = 0) : i32 (sat32 v).1 = v := by
  unfold sat32 at h ⊢
  split at h
  · cases h
  · rename_i hlo
    rw [if_neg hlo]
    split at h
    · cases h
    · rename_i hhi
      rw [if_neg hhi]
      unfold i32
      dsimp only
      split <;> omega

theorem sat32_fits {v : Int} (h : v.natAbs < 2 ^ 31) : (sat32 v).2 = 0 := by
  unfold sat32
  rw [if_neg (by omega), if_neg (by omega)]

/-- One accumulation of a block's partial sum, with the count of saturations. -/
def accStep (p : Nat → Int) (a : Nat × Nat) (k : Nat) : Nat × Nat := ((sat32 (i32 a.1 + p k)).1, a.2 + (sat32 (i32 a.1 + p k)).2)

theorem plainOut_eq (order : List Nat) (prev : Option Nat) (st mv : List Int) :
    plainOut order prev st mv = order.foldl (accStep (partialSum st mv)) (prev.getD 0, 0) := rfl

theorem count_le_accumulate (p : Nat → Int) (l : List Nat) : ∀ a, a.2 ≤ (l.foldl (accStep p) a).2 := by
  induction l with
  | nil => exact fun _ => Nat.le_refl _
  | cons k r ih => exact fun a => Nat.le_trans (Nat.le_add_right _ _) (ih (accStep p a k))

/-- Accumulation is exact where no saturation is counted. -/
theorem accumulate_exact (p : Nat → Int) (l : List Nat) : ∀ a, (l.foldl (accStep p) a).2 = a.2 → i32 (l.foldl (accStep p) a).1 = i32 a.1 + (l.map p).sum := by
  induction l with
  | nil => intro a _; simp
  | cons k r ih =>
    intro a h
    rw [List.foldl_cons] at h ⊢
    have hle : (accStep p a k).2 ≤ a.2 := h ▸ count_le_accumulate p r (accStep p a k)
    have hstep : (sat32 (i32 a.1 + p k)).2 = 0 := by unfold accStep at hle; omega
    have hsame : (accStep p a k).2 = a.2 := by unfold accStep; omega
    have hval : i32 (accStep p a k).1 = i32 a.1 + p k := i32_sat32 _ hstep
    rw [ih _ (h.trans hsame.symm), hval, List.map_cons, List.sum_cons, Int.add_assoc]

/-- No saturation is counted while the magnitudes still to come fit. -/
theorem accumulate_fits (p : Nat → Int) (l : List Nat) : ∀ a, (i32 a.1).natAbs + (l.map fun k => (p k).natAbs).sum < 2 ^ 31 →
    (l.foldl (accStep p) a).2 = a.2 := by
  induction l with
  | nil => exact fun _ _ => rfl
  | cons k r ih =>
    intro a h
    rw [List.map_cons, List.sum_cons] at h
    have habs := Int.natAbs_add_le (i32 a.1) (p k)
    have hstep : (sat32 (i32 a.1 + p k)).2 = 0 := sat32_fits (by omega)
    have hval : i32 (accStep p a k).1 = i32 a.1 + p k := i32_sat32 _ hstep
    rw [List.foldl_cons, ih _ (by rw [hval]; omega)]
    unfold accStep; omega

/-- Settles O17: the accumulator is exact while nothing saturates, and 32,768 products of at most 65,025 stay below 2^31. -/
theorem plainIntegerSumsAreExact : Obligations.PlainIntegerSumsAreExact := by
  unfold Obligations.PlainIntegerSumsAreExact
  refine ⟨fun order prev st mv hl ho _ hc => ?_, fun order st mv hl ho hn hb => ?_⟩
  · rw [plainOut_eq] at hc ⊢
    rw [accumulate_exact _ _ _ hc, sum_partialSum hl ho]
  · have hmag : ((st.zip mv).map fun p => (p.1 * p.2).natAbs).sum ≤ (st.zip mv).length * 65025 := by
      rw [← List.length_map (f := fun p : Int × Int => (p.1 * p.2).natAbs)]
      exact sum_le_length_mul (List.forall_mem_map.2 hb)
    have hlen : (st.zip mv).length ≤ 32768 := by rw [List.length_zip]; omega
    have hparts := sum_natAbs_partialSum hl ho
    rw [plainOut_eq]
    exact accumulate_fits _ _ _ (by show (i32 0).natAbs + _ < _; rw [show i32 0 = 0 from rfl]; omega)

end Sys2Proof.Machine
end

section
/-! SUPPORT. The demand of a ledger (R287), and O35. -/

namespace Sys2Proof.Machine
open Sys2Proof

theorem le_foldl_max {l : List Nat} {n : Nat} (h : n ∈ l) : ∀ a, n ≤ l.foldl max a := by
  have hstart (l : List Nat) : ∀ a, a ≤ l.foldl max a := by
    induction l with
    | nil => exact fun _ => Nat.le_refl _
    | cons x r ih => exact fun a => Nat.le_trans (Nat.le_max_left a x) (ih _)
  induction l with
  | nil => cases h
  | cons x r ih =>
    intro a
    rcases List.mem_cons.1 h with rfl | h
    · exact Nat.le_trans (Nat.le_max_right a n) (hstart r _)
    · exact ih h _

/-- The budgets of the entries of a divisor and phase. -/
def slotDemand (ts : List Terms) (d r : Nat) : Nat := ((ts.filter fun t => t.divisor == d && t.phase == r).map (·.budget)).sum

theorem demandOf_eq (ts : List Terms) : demandOf ts = ((List.range 65).map fun d => ((List.range d).map (slotDemand ts d)).foldl max 0).sum := by
  have hslot (d r : Nat) : ((ts.filter fun t => t.divisor == d && t.phase == r).map (·.budget)).foldl (· + ·) 0 = slotDemand ts d r := List.sum_eq_foldl.symm
  simp only [demandOf, hslot]
  exact List.sum_eq_foldl.symm

theorem slotDemand_cons (t : Terms) (ts : List Terms) (d r : Nat) :
    slotDemand (t :: ts) d r = (if d = t.divisor ∧ r = t.phase then t.budget else 0) + slotDemand ts d r := by
  unfold slotDemand
  rw [List.filter_cons]
  by_cases h : d = t.divisor ∧ r = t.phase
  · simp [h]
  · rw [if_neg (by simp only [Bool.and_eq_true, beq_iff_eq]; exact fun hd => h ⟨hd.1.symm, hd.2.symm⟩), if_neg h, Nat.zero_add]

/-- The entries that run in tick `k` are, for each divisor, those of one phase. -/
theorem sum_running (k : Nat) (ts : List Terms) (h : ∀ t ∈ ts, 1 ≤ t.divisor ∧ t.divisor ≤ 64 ∧ t.phase < t.divisor) :
    ((ts.filter fun t => k % t.divisor = t.phase).map (·.budget)).sum = ((List.range 65).map fun d => slotDemand ts d (k % d)).sum := by
  induction ts with
  | nil => exact (sum_map_range_zero fun _ _ => rfl).symm
  | cons t ts ih =>
    obtain ⟨ht, hts⟩ := List.forall_mem_cons.1 h
    have hone : ((List.range 65).map fun d => if d = t.divisor ∧ k % d = t.phase then t.budget else 0).sum = if k % t.divisor = t.phase then t.budget else 0 := by
      rw [sum_map_range_single (i := t.divisor) (by omega) fun d hd => if_neg fun h => hd h.1]
      simp only [true_and]
    simp only [slotDemand_cons]
    rw [sum_map_plus, hone, ← ih hts, List.filter_cons]
    split <;> simp_all

/-- Settles O35: in each tick a divisor's entries that run are those of one phase, which its worst phase bounds. -/
theorem ledgerDemandBoundsEveryTick : Obligations.LedgerDemandBoundsEveryTick := by
  unfold Obligations.LedgerDemandBoundsEveryTick
  intro ts k h
  rw [sum_running k ts h, demandOf_eq]
  refine sum_map_le fun d _ => ?_
  cases d with
  | zero =>
    have hnone : (ts.filter fun t => t.divisor == 0 && t.phase == k % 0) = [] := by
      refine List.filter_eq_nil_iff.2 fun t ht => ?_
      have := h t ht
      simp only [Bool.and_eq_true, beq_iff_eq]
      omega
    rw [slotDemand, hnone]
    exact Nat.le_refl 0
  | succ d => exact le_foldl_max (List.mem_map.2 ⟨_, List.mem_range.2 (Nat.mod_lt k (Nat.succ_pos d)), rfl⟩) 0

end Sys2Proof.Machine
end

section
/-! SUPPORT. The scheduler: what a choice can touch, and which tile-commands a step issues (R21, R290 to R295). -/

namespace Sys2Proof.Machine
open Sys2Proof

/-! ### Blocks between which a choice passes -/

/-- A queue but for its counter (R293). -/
def Queue.level (y : Queue) : Queue := { y with deficit := 0 }

/-- The blocks are one but for kept cores, the round and the queues' counters. -/
structure Alike (m n : Mach) : Prop where
  rest : n = { m with sched := { m.sched with chosen := n.sched.chosen, round := n.sched.round, serving := n.sched.serving }, queues := n.queues }
  queue : ∀ q, (qGet n q).map Queue.level = (qGet m q).map Queue.level

namespace Alike
variable {m n p : Mach}

theorem refl (m : Mach) : Alike m m := ⟨rfl, fun _ => rfl⟩

theorem trans (h : Alike m n) (k : Alike n p) : Alike m p where
  rest := k.rest.trans (congrArg (fun m : Mach => { m with
    sched := { m.sched with chosen := p.sched.chosen, round := p.sched.round, serving := p.sched.serving }, queues := p.queues }) h.rest)
  queue q := (k.queue q).trans (h.queue q)

/-- What the scheduler's choice leaves alone. -/
theorem view (h : Alike m n) {α : Type} (g : Mach → α)
    (hg : ∀ (m : Mach) l r s qs, g { m with sched := { m.sched with chosen := l, round := r, serving := s }, queues := qs } = g m) : g n = g m :=
  (congrArg g h.rest).trans (hg m _ _ _ _)

theorem cores (h : Alike m n) : n.cores = m.cores := h.view Mach.cores fun _ _ _ _ _ => rfl
theorem now (h : Alike m n) : n.now = m.now := h.view Mach.now fun _ _ _ _ _ => rfl
theorem tick (h : Alike m n) : n.tick = m.tick := h.view Mach.tick fun _ _ _ _ _ => rfl

/-- A change of a queue's counter. -/
theorem counter (m : Mach) (q : Nat) {f : Queue → Queue} (hf : ∀ y, (f y).level = y.level) : Alike m (qUpd q f m) where
  rest := rfl
  queue r := by
    by_cases h : r = q
    · subst h; rw [qGet_qUpd, Option.map_map]; exact Option.map_congr fun y _ => hf y
    · rw [qGet_qUpd_ne h]

/-- A change of the cores kept. -/
theorem kept (m : Mach) (l : List (Nat × Nat × Nat)) : Alike m { m with sched := { m.sched with chosen := l } } := ⟨rfl, fun _ => rfl⟩

theorem foldl {β : Type} (f : Mach → β → Mach) (hf : ∀ m b, Alike m (f m b)) (l : List β) : ∀ m, Alike m (l.foldl f m) := by
  induction l with
  | nil => exact refl
  | cons b r ih => exact fun m => (hf m b).trans (ih _)

end Alike

theorem alike_giveBack (m : Mach) (p : Nat × Nat × Nat) : Alike m (giveBack m p) := by
  unfold giveBack
  dsimp only
  split
  · exact .kept m _
  · exact (Alike.kept m _).trans (.counter _ _ fun y => by split <;> rfl)

theorem alike_tidy (c : Cfg) (m : Mach) : Alike m (tidy c m) := Alike.foldl giveBack alike_giveBack _ m

theorem alike_setDeficit (q n : Nat) (m : Mach) : Alike m (setDeficit q n m) := .counter m q fun _ => rfl

theorem alike_visit (ts : List Turn) : ∀ m, Alike m (visit ts m).1 := by
  induction ts with
  | nil => exact .refl
  | cons t r ih =>
    intro m
    rw [visit]
    dsimp only
    split
    · exact (Alike.mk rfl fun _ => rfl : Alike m { m with sched := { m.sched with round := t.q + 1, serving := some t.q } }).trans (alike_setDeficit ..)
    · exact (alike_setDeficit ..).trans (ih _)

theorem alike_roundRobin (ts : List Turn) (m : Mach) : Alike m (roundRobin ts m).1 := by
  unfold roundRobin
  split
  · exact alike_setDeficit ..
  · dsimp only
    exact ((Alike.mk rfl fun _ => rfl : Alike m { m with sched := { m.sched with serving := none } }).trans
      (Alike.foldl _ (fun m t => alike_setDeficit _ _ m) _ _)).trans (alike_visit _ _)

theorem alike_resetDeficits (c : Cfg) (m : Mach) : Alike m (resetDeficits c m) where
  rest := rfl
  queue q := by
    have hq := mget_mmap (fun q y => if y.ctx.rt || y.descs.any fun d => (candOf c m q d.1).isSome then y else { y with deficit := 0 }) m.queues q
    rw [show qGet (resetDeficits c m) q = _ from hq, Option.map_map]
    exact Option.map_congr fun y _ => by rw [Function.comp]; split <;> rfl

theorem alike_choose (c : Cfg) (m : Mach) : Alike m (choose c m).1 := by
  unfold choose
  split
  · exact .refl m
  · dsimp only
    split
    · exact alike_resetDeficits c m
    · exact (alike_resetDeficits c m).trans (alike_roundRobin ..)

/-- A visit serves one of the queues it goes over. -/
theorem mem_visit {t : Turn} (ts : List Turn) : ∀ m, (visit ts m).2 = some t → t ∈ ts := by
  induction ts with
  | nil => intro m h; cases h
  | cons u r ih =>
    intro m h
    rw [visit] at h
    dsimp only at h
    split at h
    · cases h; exact List.mem_cons_self
    · exact List.mem_cons_of_mem _ (ih _ h)

theorem mem_roundRobin {ts : List Turn} {m : Mach} {t : Turn} (h : (roundRobin ts m).2 = some t) : t ∈ ts := by
  unfold roundRobin at h
  split at h
  · rename_i hu; cases h; exact List.mem_of_find?_eq_some hu
  · have := mem_visit _ _ h
    rw [List.mem_append, List.mem_filter, List.mem_filter] at this
    exact this.elim And.left And.left

/-- A candidate that is chosen, in a block alike: it may issue, on cores it would take. -/
structure Chosen (c : Cfg) (m : Mach) (a : Cand) (ks : List Nat) : Prop where
  cand : candOf c m a.q a.d = some a
  cores : coresFor c m a = some ks

/-- What a candidate names: its queue, its layer, its record. -/
theorem candOf_some {c : Cfg} {m : Mach} {q d : Nat} {a : Cand} (h : candOf c m q d = some a) :
    ∃ y x r, qGet m q = some y ∧ descGet m q d = some x ∧ layerRec m x = some r
      ∧ a = ⟨q, d, x, r, y.ctx.dom, y.ctx.rt, wcetOf x, if 2 ≤ lrGang r then min (lrGang r) (totalOf x - x.next) else 1⟩ := by
  unfold candOf at h
  split at h
  · rename_i y x hy hx
    cases hr : layerRec m x with
    | none => rw [hr] at h; cases h
    | some r =>
      rw [hr] at h
      dsimp only at h
      rw [Option.ite_none_right_eq_some] at h
      exact ⟨y, x, r, hy, hx, hr, (Option.some.inj h.2).symm.trans (by simp only)⟩
  · cases h

theorem candOf_self {c : Cfg} {m : Mach} {q d : Nat} {a : Cand} (h : candOf c m q d = some a) : a.q = q ∧ a.d = d := by
  obtain ⟨y, x, r, -, -, -, rfl⟩ := candOf_some h
  exact ⟨rfl, rfl⟩

theorem chosen_turnsOf {c : Cfg} {m : Mach} {q : Nat} {y : Queue} {going : Bool} {t : Turn} (h : turnsOf c m q y going = some t) : Chosen c m t.a t.ks := by
  unfold turnsOf at h
  split at h
  · cases h
  · obtain ⟨a, ha, h⟩ := List.exists_of_findSome?_eq_some h
    obtain ⟨d, -, hc⟩ := List.mem_filterMap.1 ha
    split at h
    · unfold openTurn at h
      rw [Option.ite_none_left_eq_some] at h
      obtain ⟨ks, hks, rfl⟩ := Option.map_eq_some_iff.1 h.2
      obtain ⟨hq, hd⟩ := candOf_self hc
      exact ⟨by rw [hq, hd]; exact hc, hks⟩
    · cases h

theorem chosen_rtCands {c : Cfg} {m : Mach} {a : Cand} (h : a ∈ rtCands c m) : candOf c m a.q a.d = some a := by
  have hall : a ∈ m.queues.flatMap fun p => if p.2.ctx.rt then p.2.descs.filterMap fun d => candOf c m p.1 d.1 else [] := by
    unfold rtCands at h
    dsimp only at h
    rw [List.mem_append, List.mem_mergeSort, List.mem_mergeSort, List.mem_filter, List.mem_filter] at h
    exact h.elim And.left And.left
  obtain ⟨p, -, hp⟩ := List.mem_flatMap.1 hall
  split at hp
  · obtain ⟨d, -, hc⟩ := List.mem_filterMap.1 hp
    obtain ⟨hq, hd⟩ := candOf_self hc
    rw [hq, hd]; exact hc
  · cases hp

/-- The scheduler chooses a candidate that may issue on the cores given, in a block alike. -/
theorem chosen_choose {c : Cfg} {m : Mach} {a : Cand} {ks : List Nat} (h : (choose c m).2 = some (a, ks)) :
    ∃ n, Alike m n ∧ n.sched.chosen = m.sched.chosen ∧ Chosen c n a ks := by
  unfold choose at h
  split at h
  · rename_i r hr
    cases h
    obtain ⟨b, hb, hk⟩ := List.exists_of_findSome?_eq_some hr
    obtain ⟨l, hl, hbl⟩ := Option.map_eq_some_iff.1 hk
    cases hbl
    exact ⟨m, .refl m, rfl, chosen_rtCands hb, hl⟩
  · refine ⟨resetDeficits c m, alike_resetDeficits c m, rfl, ?_⟩
    dsimp only at h
    split at h
    · rename_i t ht
      cases h
      obtain ⟨p, -, hp⟩ := List.exists_of_findSome?_eq_some ht
      exact chosen_turnsOf hp
    · obtain ⟨t, ht, hat⟩ := Option.map_eq_some_iff.1 h
      cases hat
      obtain ⟨p, -, hp⟩ := List.mem_filterMap.1 (mem_roundRobin ht)
      exact chosen_turnsOf hp

/-! ### Candidates of blocks alike -/

/-- No core is kept: what a kept core's own layer is judged by. -/
def unkept (m : Mach) : Mach := { m with sched := { m.sched with chosen := [] } }

theorem alike_unkept (m : Mach) : Alike m (unkept m) := ⟨rfl, fun _ => rfl⟩

theorem Queue.level_eq {y z : Queue} (h : y.level = z.level) : y = { z with deficit := y.deficit } := by
  cases y; cases z; simpa only [Queue.level, Queue.mk.injEq, true_and] using h

section
variable {m n : Mach} (h : Alike m n)
include h

theorem Alike.qGet_some {q : Nat} {y : Queue} (hy : qGet m q = some y) : ∃ k, qGet n q = some { y with deficit := k } := by
  have hq := h.queue q
  rw [hy, Option.map_some, Option.map_eq_some_iff] at hq
  obtain ⟨z, hz, hzy⟩ := hq
  exact ⟨z.deficit, by rw [hz, ← Queue.level_eq hzy]⟩

theorem Alike.qGet_none {q : Nat} (hy : qGet m q = none) : qGet n q = none := by
  have hq := h.queue q
  rw [hy] at hq
  exact Option.map_eq_none_iff.1 hq

theorem Alike.descGet (q d : Nat) : descGet n q d = descGet m q d := by
  unfold Machine.descGet
  cases hy : qGet m q with
  | none => rw [h.qGet_none hy]
  | some y => obtain ⟨k, hk⟩ := h.qGet_some hy; rw [hk]; rfl

theorem Alike.qDom (q : Nat) : qDom n q = qDom m q := by
  unfold Machine.qDom
  cases hy : qGet m q with
  | none => rw [h.qGet_none hy]
  | some y => obtain ⟨k, hk⟩ := h.qGet_some hy; rw [hk]; rfl

theorem Alike.layerRec (x : Desc) : layerRec n x = layerRec m x := h.view (Machine.layerRec · x) fun _ _ _ _ _ => rfl

theorem Alike.groups : n.sched.groups = m.sched.groups := h.view (·.sched.groups) fun _ _ _ _ _ => rfl

theorem Alike.groupOf (q d : Nat) : groupOf n q d = groupOf m q d := by
  unfold Machine.groupOf; rw [h.descGet, h.groups]

theorem Alike.hasStarted (q d : Nat) (x : Desc) : hasStarted n q d x = hasStarted m q d x := by
  unfold Machine.hasStarted; simp only [h.groupOf, h.descGet]

theorem Alike.layerAlloc (c : Cfg) (q d : Nat) : (layerAlloc c q d n).isSome = (layerAlloc c q d m).isSome := by
  have hrt : (qGet n q).any (·.ctx.rt) = (qGet m q).any (·.ctx.rt) := by
    cases hy : qGet m q with
    | none => rw [h.qGet_none hy]
    | some y => obtain ⟨k, hk⟩ := h.qGet_some hy; rw [hk]; rfl
  have hfree : freeUnits c n = freeUnits c m := h.view (freeUnits c) fun _ _ _ _ _ => rfl
  have hres : reservedUnits n none = reservedUnits m none := h.view (reservedUnits · none) fun _ _ _ _ _ => rfl
  have hused (a b : Nat) : depotUsed n a b = depotUsed m a b := h.view (depotUsed · a b) fun _ _ _ _ _ => rfl
  have hdom (d : Nat) : domE n d = domE m d := h.view (domE · d) fun _ _ _ _ _ => rfl
  have hdepot : n.depot = m.depot := h.view Mach.depot fun _ _ _ _ _ => rfl
  have hrec : ((Machine.descGet n q d).bind fun x => Machine.layerRec n x) = (Machine.descGet m q d).bind fun x => Machine.layerRec m x := by
    rw [h.descGet]; exact Option.bind_congr fun x _ => h.layerRec x
  unfold Machine.layerAlloc
  rw [hrec]
  split
  · rfl
  · dsimp only
    rw [hrt, hfree, hres, hused, hdom, hdepot, h.qDom]
    simp only [apply_ite Option.isSome, Option.isSome_some, Option.isSome_none]

/-- A candidate without kept cores is one of every block alike. -/
theorem Alike.candOf_unkept (c : Cfg) (q d : Nat) : candOf c (unkept n) q d = candOf c (unkept m) q d := by
  have hu : Alike (unkept m) (unkept n) := ((Alike.mk rfl fun _ => rfl : Alike (unkept m) m).trans h).trans (.kept n [])
  have hkept (m : Mach) : keptFor (unkept m) q d = [] := rfl
  have hparcel : (unkept n).parcels = (unkept m).parcels := hu.view Mach.parcels fun _ _ _ _ _ => rfl
  unfold candOf
  rw [hu.descGet]
  cases hy : qGet (unkept m) q with
  | none => rw [hu.qGet_none hy]
  | some y =>
    obtain ⟨k, hk⟩ := hu.qGet_some hy
    rw [hk]
    cases hx : Machine.descGet (unkept m) q d with
    | none => rfl
    | some x =>
      dsimp only
      have hready : groupReady (unkept n) q d x = groupReady (unkept m) q d x := by unfold groupReady; rw [hu.groups]
      simp only [hu.layerRec, hkept, hu.tick, hparcel, hu.layerAlloc, hu.hasStarted, hready]
      rfl

end

/-- A gang's candidate does not depend on the cores kept. -/
theorem candOf_gang {c : Cfg} {m : Mach} {q d : Nat} {a : Cand} (h : candOf c m q d = some a) (hg : 2 ≤ lrGang a.lrec) :
    candOf c (unkept m) q d = some a := by
  obtain ⟨y, x, r, hy, hx, hr, rfl⟩ := candOf_some h
  have hg : 2 ≤ lrGang r := hg
  have hy' : qGet (unkept m) q = some y := hy
  have hx' : descGet (unkept m) q d = some x := hx
  have hr' : layerRec (unkept m) x = some r := hr
  unfold candOf at h ⊢
  rw [hy, hx] at h
  rw [hy', hx']
  dsimp only at h ⊢
  rw [hr] at h
  rw [hr']
  dsimp only at h ⊢
  rw [if_pos hg] at h ⊢
  rw [(alike_unkept m).layerAlloc]
  exact h

/-! ### Kept cores -/

theorem mem_giveBack {m : Mach} {p r : Nat × Nat × Nat} (h : r ∈ (giveBack m p).sched.chosen) : r ∈ m.sched.chosen ∧ r ≠ p := by
  have hc : (giveBack m p).sched.chosen = m.sched.chosen.filter (· ≠ p) := by unfold giveBack; dsimp only; split <;> rfl
  rw [hc, List.mem_filter, decide_eq_true_eq] at h
  exact h

theorem mem_giveBacks (l : List (Nat × Nat × Nat)) : ∀ {m : Mach} {r : Nat × Nat × Nat}, r ∈ (l.foldl giveBack m).sched.chosen → r ∈ m.sched.chosen ∧ r ∉ l := by
  induction l with
  | nil => exact fun h => ⟨h, List.not_mem_nil⟩
  | cons p l ih =>
    intro m r h
    obtain ⟨hm, hl⟩ := ih h
    obtain ⟨hm, hp⟩ := mem_giveBack hm
    exact ⟨hm, by simp [hp, hl]⟩

/-- A core that stays kept can still be used by its layer. -/
theorem stillKept_of_tidy {c : Cfg} {m : Mach} {p : Nat × Nat × Nat} (h : p ∈ (tidy c m).sched.chosen) : stillKept c m p = true := by
  obtain ⟨hm, hn⟩ := mem_giveBacks _ h
  refine Classical.byContradiction fun hs => ?_
  exact hn (List.mem_filter.2 ⟨hm, by simp [hs]⟩)

theorem readyKept_some {c : Cfg} {m : Mach} {k : Nat} {a : Cand} (h : readyKept c m = some (k, a)) :
    (k, a.q, a.d) ∈ m.sched.chosen ∧ candOf c (unkept m) a.q a.d = some a ∧ lrGang a.lrec < 2 ∧ keptReady m a k = true := by
  obtain ⟨p, hp, h⟩ := List.exists_of_findSome?_eq_some h
  obtain ⟨b, hb, h⟩ := Option.bind_eq_some_iff.1 h
  rw [Option.ite_none_right_eq_some] at h
  obtain ⟨hc, h⟩ := h
  cases h
  obtain ⟨hq, hd⟩ := candOf_self hb
  simp only [Bool.and_eq_true, decide_eq_true_eq] at hc
  rw [hq, hd]
  exact ⟨hp, hb, hc⟩

theorem keptReady_some {m : Mach} {a : Cand} {k : Nat} (h : keptReady m a k = true) :
    ∃ x, m.cores[k]? = some x ∧ x.tc = none ∧ x.regs.state ≠ 2 ∧ needScrub x a.dom = false := by
  unfold keptReady at h
  cases hx : m.cores[k]? with
  | none => rw [hx] at h; cases h
  | some x =>
    simp only [hx, Option.any_some, coreFree, Bool.and_eq_true, Option.isNone_iff_eq_none, decide_eq_true_eq, Bool.not_eq_true', beq_iff_eq] at h
    obtain ⟨⟨⟨htc, -⟩, hst⟩, hs⟩ := h
    exact ⟨x, rfl, htc, hst, hs⟩

/-- R21 for a kept core that is ready. -/
theorem fits_readyKept {c : Cfg} {m : Mach} {k : Nat} {a : Cand} (h : readyKept c (tidy c m) = some (k, a)) : m.now + a.w ≤ m.tick.limit := by
  obtain ⟨hp, hc, hg, hk⟩ := readyKept_some h
  obtain ⟨x, hx, htc, hst, -⟩ := keptReady_some hk
  rw [(alike_tidy c m).cores] at hx
  have hs := stillKept_of_tidy hp
  unfold stillKept at hs
  dsimp only at hs
  have hfree : candOf c { m with sched := { m.sched with chosen := [] } } a.q a.d = some a := ((alike_tidy c m).candOf_unkept c a.q a.d).symm.trans hc
  rw [hfree, Option.any_some, List.getD_eq_getElem?_getD, hx, Option.getD_some] at hs
  simp only [Bool.and_eq_true, decide_eq_true_eq] at hs
  have := hs.2.1
  omega

/-- A tile-command begins no earlier than now. -/
theorem now_le_beginAt (m : Mach) (dom k : Nat) : m.now ≤ beginAt m dom k := by
  unfold beginAt
  split
  · exact Nat.le_refl _
  · split
    · exact Nat.le_max_left ..
    · exact Nat.le_add_right ..

/-- R21 for a choice outside a gang. -/
theorem fits_coresFor {c : Cfg} {m : Mach} {a : Cand} {ks : List Nat} (h : coresFor c m a = some ks) (hg : lrGang a.lrec < 2) :
    m.now + a.w ≤ m.tick.limit := by
  unfold coresFor at h
  rw [if_neg (by omega)] at h
  split at h
  · rename_i k hk
    have hf := List.find?_some hk
    rw [fitsOn, decide_eq_true_eq] at hf
    have := now_le_beginAt m a.dom k
    omega
  · cases h

end Sys2Proof.Machine
end

section
/-! SUPPORT. Tile-commands issue: O48 and O49 (R20, R21, R290 to R295, R360, R412). -/

namespace Sys2Proof.Machine
open Sys2Proof

/-! ### What issuing touches -/

@[simp] theorem cores_descUpd (q d : Nat) (f : Desc → Desc) (m : Mach) : (descUpd q d f m).cores = m.cores := rfl

/-- The allocation of a layer touches the Depot alone. -/
theorem layerAlloc_depot {c : Cfg} {q d : Nat} {m n : Mach} (h : layerAlloc c q d m = some n) : n = { m with depot := n.depot } := by
  unfold layerAlloc at h
  split at h
  · cases h; rfl
  · dsimp only at h
    split at h
    · cases h; rfl
    · rw [Option.ite_none_left_eq_some, Option.ite_none_left_eq_some] at h
      cases h.2.2; rfl

theorem withAlloc_depot (c : Cfg) (a : Cand) (m : Mach) : withAlloc c a m = { m with depot := (withAlloc c a m).depot } := by
  unfold withAlloc
  cases h : layerAlloc c a.q a.d m with
  | none => rfl
  | some n => exact layerAlloc_depot h

theorem cores_issueOn (a : Cand) (k i g j : Nat) (m : Mach) : (issueOn a k i g j m).cores = lupd m.cores k (coreWith a (tileFor m a i g j)) := rfl

/-- A core that is kept and must be scrubbed is marked. -/
def marked (dom : Nat) (x : Core) : Core := if needScrub x dom then { x with regs := { x.regs with dirty := true } } else x

/-- One core is kept for a layer. -/
def keepOne (a : Cand) (m : Mach) (k : Nat) : Mach :=
  { m with sched := { m.sched with chosen := m.sched.chosen ++ [(k, a.q, a.d)] }, cores := lupd m.cores k (marked a.dom) }

theorem keep_eq (a : Cand) (ks : List Nat) (m : Mach) : keep a ks m = ks.foldl (keepOne a) m := rfl

/-- The reservations of a gang's row: when the scheduler would choose the gang, its cores are kept. -/
def gangKept (c : Cfg) (q d : Nat) (m : Mach) : Mach :=
  match choose c m with
  | (n, some (a, ks)) => if a.q = q && a.d = d && 2 ≤ lrGang a.lrec then keep a ks n else m
  | _ => m

/-- A gang's issue, all of its cores being reserved and ready. -/
def gangGo (c : Cfg) (q d : Nat) (m : Mach) : Mach :=
  match candOf c { m with sched := { m.sched with chosen := [] } } q d with
  | none => m
  | some a =>
    let ks := gangCores c m a
    if lrGang a.lrec < 2 || ks.length ≠ a.size || !ks.all (keptReady m a) || m.tick.limit < m.now + a.w
        || !(a.rt || leavesTime { m with sched := { m.sched with chosen := m.sched.chosen.filter fun p => !ks.contains p.1 } } a ks) then m
    else ks.zipIdx.foldl (fun n p => issueOn a p.1 (a.x.next + p.2) (m.sched.gang + 1) p.2 n) (withAlloc c a { m with sched := { m.sched with gang := m.sched.gang + 1 } })

theorem gangIssue_eq (q d t : Nat) (c : Cfg) (m : Mach) (h : (tickTo t m).power.fail = 0) :
    gangIssue q d t c m = gangGo c q d (gangKept c q d (tidy c (tickTo t m))) := if_neg (Classical.not_not.2 h)

theorem tc_marked (dom : Nat) (x : Core) : (marked dom x).tc = x.tc := by unfold marked; split <;> rfl

/-! ### R21 -/

/-- Between two blocks no time passes, and every tile-command that appears issues now and would end by the issue limit. -/
structure InTime (m n : Mach) : Prop where
  tick : n.tick = m.tick
  now : n.now = m.now
  tiles : ∀ (k : Nat) (y : Core) (u : TileCmd), n.cores[k]? = some y → y.tc = some u → ((m.cores[k]?).bind fun x => x.tc) = some u ∨ u.issued = m.now ∧ m.now + u.wcet ≤ m.tick.limit

namespace InTime
variable {m n p : Mach}

theorem of_cores (ht : n.tick = m.tick) (hn : n.now = m.now) (hc : n.cores = m.cores) : InTime m n :=
  ⟨ht, hn, fun k y u hy hu => .inl (by rw [← hc, hy]; exact hu)⟩

theorem refl (m : Mach) : InTime m m := of_cores rfl rfl rfl

theorem of_alike (h : Alike m n) : InTime m n := of_cores h.tick h.now h.cores

theorem trans (h : InTime m n) (k : InTime n p) : InTime m p where
  tick := k.tick.trans h.tick
  now := k.now.trans h.now
  tiles j y u hy hu := by
    rcases k.tiles j y u hy hu with hn | ⟨hi, hw⟩
    · obtain ⟨x, hx, hxu⟩ := Option.bind_eq_some_iff.1 hn
      exact h.tiles j x u hx hxu
    · rw [h.now] at hi hw; rw [h.tick] at hw; exact .inr ⟨hi, hw⟩

/-- A change of one core that keeps its tile-command, or gives it one that issues in time. -/
theorem core {k : Nat} {f : Core → Core} (ht : n.tick = m.tick) (hn : n.now = m.now) (hc : n.cores = lupd m.cores k f)
    (hf : ∀ x u, (f x).tc = some u → x.tc = some u ∨ u.issued = m.now ∧ m.now + u.wcet ≤ m.tick.limit) : InTime m n where
  tick := ht
  now := hn
  tiles j y u hy hu := by
    rw [hc] at hy
    by_cases hj : j = k
    · subst hj
      rw [lupd_get] at hy
      obtain ⟨x, hx, rfl⟩ := Option.map_eq_some_iff.1 hy
      rw [hx]
      exact hf x u hu
    · rw [lupd_get_ne _ _ hj] at hy
      exact .inl (by rw [hy]; exact hu)

theorem keepOne (a : Cand) (m : Mach) (k : Nat) : InTime m (keepOne a m k) :=
  core rfl rfl rfl fun x _ h => .inl ((tc_marked a.dom x).symm.trans h)

theorem keep (a : Cand) (ks : List Nat) (m : Mach) : InTime m (keep a ks m) := by
  rw [keep_eq]
  induction ks generalizing m with
  | nil => exact refl m
  | cons k r ih => exact (keepOne a m k).trans (ih _)

theorem withAlloc (c : Cfg) (a : Cand) (m : Mach) : InTime m (withAlloc c a m) := by
  rw [withAlloc_depot]; exact of_cores rfl rfl rfl

theorem issueOn {a : Cand} (k i g j : Nat) {m : Mach} (h : m.now + a.w ≤ m.tick.limit) : InTime m (issueOn a k i g j m) :=
  core rfl rfl (cores_issueOn ..) fun _ u hu => .inr (by cases hu; exact ⟨rfl, h⟩)

theorem issueAll {a : Cand} {g : Nat} (f : Nat → Nat) (l : List (Nat × Nat)) : ∀ {m : Mach}, m.now + a.w ≤ m.tick.limit →
    InTime m (l.foldl (fun m p => Machine.issueOn a p.1 (f p.2) g p.2 m) m) := by
  induction l with
  | nil => exact fun _ => refl _
  | cons p r ih => exact fun h => (issueOn p.1 (f p.2) g p.2 h).trans (ih h)

theorem act {c : Cfg} {a : Cand} {ks : List Nat} {m : Mach} (h : lrGang a.lrec < 2 → m.now + a.w ≤ m.tick.limit) : InTime m (act c a ks m) := by
  unfold Machine.act
  split
  · exact keep a ks m
  · cases ks with
    | nil => exact refl m
    | cons k r =>
      dsimp only
      split
      · exact keep a [k] m
      · exact (withAlloc c a m).trans (issueOn _ _ _ _ (by rw [withAlloc_depot]; exact h (by omega)))

theorem tileIssue (t : Nat) (c : Cfg) (m : Mach) : InTime (tickTo t m) (tileIssue t c m) := by
  have htidy := alike_tidy c (tickTo t m)
  have hchoose := alike_choose c (tidy c (tickTo t m))
  unfold Machine.tileIssue
  dsimp only
  split
  · exact refl _
  · refine (of_alike htidy).trans ?_
    split
    · rename_i k a hk
      have hfit : (tidy c (tickTo t m)).now + a.w ≤ (tidy c (tickTo t m)).tick.limit := by
        rw [htidy.now, htidy.tick]; exact fits_readyKept hk
      exact (withAlloc c a _).trans (issueOn _ _ _ _ (by rw [withAlloc_depot]; exact hfit))
    · split
      · rename_i n a ks hch
        rw [hch] at hchoose
        obtain ⟨p, hp, -, -, hcores⟩ := chosen_choose (congrArg Prod.snd hch)
        refine (of_alike hchoose).trans (act fun hg => ?_)
        have hfit := fits_coresFor hcores hg
        rw [hp.now, hp.tick] at hfit
        rw [hchoose.now, hchoose.tick]
        exact hfit
      · rename_i n hch
        rw [hch] at hchoose
        exact of_alike hchoose

theorem gangKept (c : Cfg) (q d : Nat) (m : Mach) : InTime m (gangKept c q d m) := by
  have hchoose := alike_choose c m
  unfold Machine.gangKept
  split
  · rename_i n a ks hch
    rw [hch] at hchoose
    split
    · exact (of_alike hchoose).trans (keep a ks n)
    · exact refl _
  · exact refl _

theorem gangGo (c : Cfg) (q d : Nat) (m : Mach) : InTime m (gangGo c q d m) := by
  unfold Machine.gangGo
  split
  · exact refl _
  · rename_i a ha
    dsimp only
    split
    · exact refl _
    · rename_i hc
      simp only [Bool.or_eq_true, decide_eq_true_eq, not_or] at hc
      have hfit : m.now + a.w ≤ m.tick.limit := Nat.le_of_not_lt hc.1.2
      have hgang : InTime m { m with sched := { m.sched with gang := m.sched.gang + 1 } } := of_cores rfl rfl rfl
      refine hgang.trans ((withAlloc c a _).trans (issueAll (a.x.next + ·) _ ?_))
      rw [withAlloc_depot]
      exact hfit

theorem gangIssue (q d t : Nat) (c : Cfg) (m : Mach) : InTime (tickTo t m) (gangIssue q d t c m) := by
  by_cases hp : (tickTo t m).power.fail = 0
  · rw [gangIssue_eq q d t c m hp]
    exact (of_alike (alike_tidy c (tickTo t m))).trans ((gangKept c q d _).trans (gangGo c q d _))
  · rw [show Machine.gangIssue q d t c m = tickTo t m from if_pos hp]
    exact refl _

/-- What R21 says of a row. -/
theorem row {t : Nat} {m n : Mach} (h : InTime (tickTo t m) n) : n.tick = m.tick ∧ ∀ (k : Nat) (y : Core) (u : TileCmd), n.cores[k]? = some y → y.tc = some u →
    ((m.cores[k]?).bind fun x => x.tc) ≠ some u → u.issued = n.now ∧ m.now ≤ n.now ∧ u.issued + u.wcet ≤ m.tick.limit := by
  refine ⟨h.tick, fun k y u hy hu hne => ?_⟩
  obtain ⟨hi, hw⟩ := (h.tiles k y u hy hu).resolve_left hne
  have hnow : n.now = max m.now t := h.now
  have hi : u.issued = max m.now t := hi
  have hw : max m.now t + u.wcet ≤ m.tick.limit := hw
  exact ⟨hi.trans hnow.symm, by omega, by omega⟩

end InTime

/-- Settles O48: every way a tile-command issues goes through R21's test. -/
theorem nothingIssuesPastTheLimit : Obligations.NothingIssuesPastTheLimit := by
  unfold Obligations.NothingIssuesPastTheLimit
  have hrow {i : Instr} {t : Nat} {f : Cfg → Mach → Mach} (hi : ∀ s, exec i s = s.runM f) (hf : ∀ c m, InTime (tickTo t m) (f c m)) (s : State) :
      Runs i s fun t => t.m.tick = s.m.tick ∧ ∀ (k : Nat) (y : Core) (u : TileCmd), t.m.cores[k]? = some y → y.tc = some u →
        ((s.m.cores[k]?).bind fun x => x.tc) ≠ some u → u.issued = t.m.now ∧ s.m.now ≤ t.m.now ∧ u.issued + u.wcet ≤ s.m.tick.limit := by
    cases hl : live s with
    | true => exact Runs.ofM (hi s) hl (hf s.c s.q).row
    | false =>
      refine ⟨{ s with dev := s.dev.quiet }, by rw [hi, State.runM, run_frozen s _ hl], rfl, fun k y u hy hu hne => absurd ?_ hne⟩
      have hy : s.m.cores[k]? = some y := hy
      rw [hy]; exact hu
  rintro s i (⟨t0, rfl⟩ | ⟨q, d, t0, rfl⟩)
  · exact hrow (fun _ => rfl) (InTime.tileIssue t0) s
  · exact hrow (fun _ => rfl) (InTime.gangIssue q d t0) s

end Sys2Proof.Machine
end

section
/-! SUPPORT. Tile-commands issue, cores are kept, scrubbed and gated: O49 (R20, R294, R295, R360, R412). -/

namespace Sys2Proof.Machine
open Sys2Proof

/-! ### One descriptor changes -/

theorem descGet_qUpd {q d : Nat} {f : Queue → Queue} {m : Mach} {g : Option Desc → Option Desc} (hf : ∀ y, mget (f y).descs d = g (mget y.descs d)) (hg : g none = none) :
    descGet (qUpd q f m) q d = g (descGet m q d) := by
  unfold descGet
  rw [qGet_qUpd]
  cases qGet m q with
  | none => exact hg.symm
  | some y => exact hf y

theorem descGet_descUpd (q d : Nat) (f : Desc → Desc) (m : Mach) : descGet (descUpd q d f m) q d = (descGet m q d).map f :=
  descGet_qUpd (fun y => mget_mupd y.descs d f) rfl

theorem descGet_candOf {c : Cfg} {m : Mach} {q d : Nat} {a : Cand} (h : candOf c (unkept m) q d = some a) : descGet m a.q a.d = some a.x := by
  obtain ⟨y, x, r, -, hx, -, rfl⟩ := candOf_some h
  exact hx

theorem descGet_issueOn (a : Cand) (k i g j : Nat) (m : Mach) :
    descGet (issueOn a k i g j m) a.q a.d = (descGet m a.q a.d).map fun z => { z with next := i + 1, running := z.running + 1, owed := z.owed - a.w } :=
  descGet_descUpd ..

/-! ### The row of a tile-command -/

theorem tileIssue_kept {c : Cfg} {t k : Nat} {m : Mach} {a : Cand} (hp : m.power.fail = 0) (hk : readyKept c (tidy c (tickTo t m)) = some (k, a)) :
    tileIssue t c m = issueOn a k a.x.next 0 0 (withAlloc c a (tidy c (tickTo t m))) := by
  unfold tileIssue
  dsimp only
  rw [if_neg (show ¬(tickTo t m).power.fail ≠ 0 from Classical.not_not.2 hp), hk]

theorem tileIssue_chosen {c : Cfg} {t : Nat} {m n : Mach} {a : Cand} {ks : List Nat} (hp : m.power.fail = 0) (hk : readyKept c (tidy c (tickTo t m)) = none)
    (hc : choose c (tidy c (tickTo t m)) = (n, some (a, ks))) : tileIssue t c m = act c a ks n := by
  unfold tileIssue
  dsimp only
  rw [if_neg (show ¬(tickTo t m).power.fail ≠ 0 from Classical.not_not.2 hp), hk, hc]

/-- A choice outside a gang: the core is kept until it is scrubbed, or takes the tile-command at once. -/
theorem act_scrub {c : Cfg} {a : Cand} {k : Nat} {ks : List Nat} {m : Mach} {x : Core} (hg : lrGang a.lrec < 2) (hx : m.cores[k]? = some x)
    (hs : needScrub x a.dom = true) : act c a (k :: ks) m = keepOne a m k := by
  unfold act
  rw [if_neg (by omega)]
  dsimp only
  rw [hx, Option.any_some, if_pos hs]; rfl

theorem act_issue {c : Cfg} {a : Cand} {k : Nat} {ks : List Nat} {m : Mach} {x : Core} (hg : lrGang a.lrec < 2) (hx : m.cores[k]? = some x)
    (hs : needScrub x a.dom = false) : act c a (k :: ks) m = issueOn a k a.x.next 0 0 (withAlloc c a m) := by
  unfold act
  rw [if_neg (by omega)]
  dsimp only
  rw [hx, Option.any_some, hs]; rfl

theorem cores_withAlloc (c : Cfg) (a : Cand) (m : Mach) : (withAlloc c a m).cores = m.cores := by rw [withAlloc_depot]

theorem cores_tidy (c : Cfg) (t : Nat) (m : Mach) : (tidy c (tickTo t m)).cores = m.cores := (alike_tidy c (tickTo t m)).cores

/-! ### The row of a gang -/

theorem mem_gangCores {c : Cfg} {m : Mach} {a : Cand} {k : Nat} (h : k ∈ gangCores c m a) : k ∈ keptFor m a.q a.d := by
  unfold gangCores at h
  dsimp only at h
  split at h
  · obtain ⟨p, -, hp⟩ := List.mem_filterMap.1 h
    exact List.mem_of_find?_eq_some hp
  · exact h

/-- A gang that has all its cores takes no more. -/
theorem coresFor_full {c : Cfg} {m : Mach} {a : Cand} (hg : 2 ≤ lrGang a.lrec) (h : a.size ≤ (keptFor m a.q a.d).length) : coresFor c m a = none := by
  unfold coresFor
  rw [if_pos hg]
  dsimp only
  rw [Nat.sub_eq_zero_of_le h, List.take_zero, if_pos rfl]
  exact ite_self _

/-- With all its cores reserved, the gang's row reserves none. -/
theorem gangKept_full {c : Cfg} {q d : Nat} {m : Mach} {a : Cand} (ha : candOf c (unkept m) q d = some a) (hf : a.size ≤ (keptFor m q d).length) :
    gangKept c q d m = m := by
  unfold gangKept
  split
  · rename_i n b ks hch
    split
    · rename_i hb
      simp only [Bool.and_eq_true, decide_eq_true_eq] at hb
      obtain ⟨⟨hq, hd⟩, hg⟩ := hb
      obtain ⟨p, hp, hkept, hcand, hcores⟩ := chosen_choose (congrArg Prod.snd hch)
      have hb : candOf c (unkept p) q d = some b := by rw [← hq, ← hd]; exact candOf_gang hcand hg
      rw [hp.candOf_unkept, ha] at hb
      cases hb
      have hsame : keptFor p a.q a.d = keptFor m q d := by unfold keptFor; rw [hkept, hq, hd]
      rw [coresFor_full hg (by rw [hsame]; exact hf)] at hcores
      cases hcores
    · rfl
  · rfl

section
variable (a : Cand) (g next : Nat)

/-- A gang's tile-commands issue on cores `ks`, by member. -/
def issueGang (ks : List Nat) (j : Nat) (m : Mach) : Mach := (ks.zipIdx j).foldl (fun n p => issueOn a p.1 (next + p.2) g p.2 n) m

theorem issueGang_cons (k : Nat) (ks : List Nat) (j : Nat) (m : Mach) :
    issueGang a g next (k :: ks) j m = issueGang a g next ks (j + 1) (issueOn a k (next + j) g j m) := rfl

theorem issueGang_other {k : Nat} (ks : List Nat) : ∀ (j : Nat) (m : Mach), k ∉ ks → (issueGang a g next ks j m).cores[k]? = m.cores[k]? := by
  induction ks with
  | nil => exact fun _ _ _ => rfl
  | cons i r ih =>
    intro j m h
    rw [List.mem_cons, not_or] at h
    rw [issueGang_cons, ih _ _ h.2, cores_issueOn, lupd_get_ne _ _ h.1]

/-- Member `i` of the gang stands on the `i`th core. -/
theorem issueGang_member {k : Nat} {x : Core} (ks : List Nat) : ∀ (j i : Nat) (m : Mach), ks.Nodup → ks[i]? = some k → m.cores[k]? = some x →
    ∃ u : TileCmd, (issueGang a g next ks j m).cores[k]? = some (coreWith a u x) ∧ u.q = a.q ∧ u.desc = a.d ∧ u.tile = next + (j + i) ∧ u.gang = g
      ∧ u.member = j + i ∧ u.issued = m.now := by
  induction ks with
  | nil => intro j i m _ h; cases h
  | cons l r ih =>
    intro j i m hn hi hx
    obtain ⟨hl, hn⟩ := List.nodup_cons.1 hn
    rw [issueGang_cons]
    cases i with
    | zero =>
      cases hi
      refine ⟨tileFor m a (next + j) g j, ?_, rfl, rfl, rfl, rfl, rfl, rfl⟩
      rw [issueGang_other a g next r _ _ hl, cores_issueOn, lupd_get, hx]; rfl
    | succ i =>
      have hne : k ≠ l := fun h => hl (h ▸ List.mem_of_getElem? hi)
      have := ih (j + 1) i (issueOn a l (next + j) g j m) hn hi (by rw [cores_issueOn, lupd_get_ne _ _ hne]; exact hx)
      rw [Nat.add_right_comm, Nat.add_assoc] at this
      exact this

end

/-- A gang whose cores are reserved and ready issues in one decision. -/
theorem gangIssue_go {c : Cfg} {q d t : Nat} {m : Mach} {a : Cand} {n : Mach} (hn : tidy c (tickTo t m) = n) (hp : m.power.fail = 0)
    (ha : candOf c (unkept n) q d = some a) (hg : 2 ≤ lrGang a.lrec) (hd : (gangCores c n a).Nodup) (hl : (gangCores c n a).length = a.size)
    (hr : (gangCores c n a).all (keptReady n a) = true) (hw : n.now + a.w ≤ n.tick.limit)
    (hb : a.rt = true ∨ leavesTime { n with sched := { n.sched with chosen := n.sched.chosen.filter fun p => !(gangCores c n a).contains p.1 } } a (gangCores c n a) = true) :
    gangIssue q d t c m = issueGang a (n.sched.gang + 1) a.x.next (gangCores c n a) 0 (withAlloc c a { n with sched := { n.sched with gang := n.sched.gang + 1 } }) := by
  obtain ⟨hq, hdd⟩ := candOf_self ha
  have hf : a.size ≤ (keptFor n q d).length := by
    rw [← hl, ← hq, ← hdd]
    exact List.Nodup.length_le_of_subset hd fun k hk => mem_gangCores hk
  rw [gangIssue_eq q d t c m hp, hn, gangKept_full ha hf]
  have ha' : candOf c { n with sched := { n.sched with chosen := [] } } q d = some a := ha
  unfold gangGo
  rw [ha']
  dsimp only
  rw [if_neg]
  · rfl
  · have hbe : (a.rt || leavesTime { n with sched := { n.sched with chosen := n.sched.chosen.filter fun p => !(gangCores c n a).contains p.1 } } a (gangCores c n a)) = true :=
      Bool.or_eq_true_iff.2 hb
    rw [hbe, hr, hl]
    simp [Nat.not_lt.2 hg, hw]

/-! ### Scrubber and idle gating -/

theorem set_get {l : List Core} {k : Nat} {x : Core} (h : l[k]? = some x) (y : Core) : (lset l k y)[k]? = some y := by
  obtain ⟨hk, -⟩ := List.getElem?_eq_some_iff.1 h
  exact List.getElem?_set_self hk

theorem set_get_ne {l : List Core} {k j : Nat} (h : j ≠ k) (y : Core) : (lset l k y)[j]? = l[j]? := List.getElem?_set_ne h.symm

theorem scrubStart_eq {k t : Nat} {m : Mach} {x : Core} (hx : m.cores[k]? = some x) (htc : x.tc = none) (hd : x.regs.dirty = true) (ht : x.regs.test < 2)
    (hs : x.regs.state ≠ 2) (hr : readsBack m k = true) :
    scrubStart k t m = { tickTo t m with cores := lset m.cores k { x with regs := { x.regs with state := 2, since := max m.now t } } } := by
  have hx' : (tickTo t m).cores[k]? = some x := hx
  have hr' : readsBack (tickTo t m) k = true := hr
  unfold scrubStart
  dsimp only
  rw [hx']
  dsimp only
  rw [htc, hd, hr', if_pos (by simp [ht, hs])]; rfl

/-- The registers of a core after its scrub. -/
def scrubbed (now : Nat) (r : CoreRegs) : CoreRegs :=
  { r with state := idleState r, dirty := false, clean := true, gated := false, scrubs := (r.scrubs + 1) % 2 ^ 64
           busy := (r.busy + (now - r.since)) % 2 ^ 64, since := now }

theorem cores_scrubEnd {k t : Nat} {m : Mach} {x : Core} (hx : m.cores[k]? = some x) (hs : x.regs.state = 2) :
    (scrubEnd k t m).cores = lset m.cores k { coreClear (scrubbed (max m.now t) x.regs) with front := x.front } := by
  have hx' : (tickTo t m).cores[k]? = some x := hx
  unfold scrubEnd
  dsimp only
  rw [hx']
  dsimp only
  rw [if_neg (Classical.not_not.2 hs)]; rfl

theorem cores_idleGate {k t : Nat} {c : Cfg} {m : Mach} {x : Core} (hx : m.cores[k]? = some x) (hi : c.gateIdle = true) (hn : noGateNow c k x.regs = false)
    (hf : coreFree x = true) (hg : x.regs.gated = false) (ht : x.regs.since + 100000 ≤ max m.now t) (hk : ∀ p ∈ m.sched.chosen, p.1 ≠ k) :
    (idleGate k t c m).cores = lset m.cores k { coreClear { x.regs with gated := true, state := 3 } with front := x.front } := by
  have hx' : (tickTo t m).cores[k]? = some x := hx
  have ht' : x.regs.since + 100000 ≤ (tickTo t m).now := ht
  have hk' : (tickTo t m).sched.chosen.any (fun p => p.1 == k) = false := by
    rw [List.any_eq_false]; intro p hp; simpa using hk p hp
  unfold idleGate
  dsimp only
  rw [hx']
  dsimp only
  rw [hi, hn, hf, hg, hk', decide_eq_true ht']; rfl

/-- Settles O49: a kept core, a chosen core, a gang, and the scrubber and gating of a core. -/
theorem tileCommandsIssue : Obligations.TileCommandsIssue := by
  unfold Obligations.TileCommandsIssue
  refine ⟨fun s t0 k a m1 hl hp hk hm => ?_, fun s t0 m m1 a k ks x hl hp hm hk hc hg hx => ?_, fun s q d t0 m a ks hl hp hm ha hg hks hd hsz hr hw hb => ?_,
    fun s k t0 x hl hx htc hd ht hs hr => ?_, fun s k t0 x hl hx hs => ?_, fun s k t0 x hl hx hi hn hf hg ht hk => ?_⟩
  · refine Runs.ofM (f := tileIssue t0) rfl hl ?_
    dsimp only [State.m]
    rw [tileIssue_kept (m := s.q) hp hk, ← hm]
    obtain ⟨-, hcand, -, hready⟩ := readyKept_some hk
    obtain ⟨x, hx, -⟩ := keptReady_some hready
    rw [cores_tidy] at hx
    have hcores : m1.cores = s.q.cores := by rw [hm, cores_withAlloc, cores_tidy]
    have hdesc : descGet m1 a.q a.d = some a.x := by rw [hm, withAlloc_depot]; exact descGet_candOf (m := tidy s.c (tickTo t0 s.q)) hcand
    rw [cores_issueOn, descGet_issueOn, hdesc, hcores]
    exact ⟨⟨x, _, hx, by rw [lupd_get, hx]; rfl, rfl⟩, fun j hj => lupd_get_ne _ _ hj, rfl⟩
  · refine Runs.ofM (f := tileIssue t0) rfl hl ?_
    subst hm
    dsimp only [State.m]
    rw [tileIssue_chosen (m := s.q) hp hk hc]
    have hcores : m1.cores = s.q.cores := by
      have := (alike_choose s.c (tidy s.c (tickTo t0 s.q))).cores
      rw [hc, cores_tidy] at this
      exact this
    have hx' : m1.cores[k]? = some x := by rw [hcores]; exact hx
    cases hs : needScrub x a.dom with
    | true =>
      rw [act_scrub hg hx' hs]
      refine ⟨marked a.dom x, by rw [show (keepOne a m1 k).cores = lupd m1.cores k (marked a.dom) from rfl, lupd_get, hx']; rfl,
        fun j hj => (lupd_get_ne _ _ hj).trans (by rw [hcores]; rfl), fun _ => ⟨List.mem_append_right _ List.mem_cons_self, if_pos hs⟩, fun h => Bool.noConfusion h⟩
    | false =>
      rw [act_issue hg hx' hs, cores_issueOn, cores_withAlloc]
      exact ⟨_, by rw [lupd_get, hx']; rfl, fun j hj => (lupd_get_ne _ _ hj).trans (by rw [hcores]; rfl), fun h => absurd h Bool.false_ne_true,
        fun _ => ⟨_, rfl, rfl, rfl, rfl, rfl, rfl⟩⟩
  · refine Runs.ofM (f := gangIssue q d t0) rfl hl ?_
    subst hks
    have halike := alike_tidy s.c (tickTo t0 s.q)
    rw [← hm] at halike
    obtain ⟨hq, hdd⟩ := candOf_self ha
    have hw' : m.now + a.w ≤ m.tick.limit := by rw [halike.now, halike.tick]; exact hw
    have hgang : m.sched.gang = s.m.sched.gang := halike.view (·.sched.gang) fun _ _ _ _ _ => rfl
    dsimp only [State.m]
    rw [gangIssue_go (m := s.q) hm.symm hp ha hg hd hsz hr hw' hb]
    refine ⟨fun j hj => ?_, fun i k hi => ?_⟩
    · rw [issueGang_other _ _ _ _ _ _ hj, cores_withAlloc]; exact congrArg (·[j]?) halike.cores
    · obtain ⟨x, hx, -⟩ := keptReady_some (List.all_eq_true.1 hr k (List.mem_of_getElem? hi))
      obtain ⟨u, hu, huq, hud, hut, hug, hum, hui⟩ := issueGang_member a (m.sched.gang + 1) a.x.next (gangCores s.c m a) 0 i
        (withAlloc s.c a { m with sched := { m.sched with gang := m.sched.gang + 1 } }) hd hi (by rw [cores_withAlloc]; exact hx)
      rw [Nat.zero_add] at hut hum
      have hnow : (withAlloc s.c a { m with sched := { m.sched with gang := m.sched.gang + 1 } }).now = max s.m.now t0 := by
        rw [withAlloc_depot]; exact halike.now
      exact ⟨_, u, hu, rfl, huq.trans hq, hud.trans hdd, hut, by rw [hug, hgang], hum, hui.trans hnow⟩
  · refine Runs.ofM (f := fun _ => scrubStart k t0) rfl hl ?_
    dsimp only [State.m]
    rw [scrubStart_eq (m := s.q) hx htc hd ht hs hr]
    exact ⟨rfl, fun j hj => set_get_ne hj _, set_get hx _⟩
  · refine Runs.ofM (f := fun _ => scrubEnd k t0) rfl hl ?_
    dsimp only [State.m]
    rw [cores_scrubEnd (m := s.q) hx hs]
    exact ⟨fun j hj => set_get_ne hj _, _, set_get hx _, rfl, rfl, rfl, rfl, rfl⟩
  · refine Runs.ofM (f := idleGate k t0) rfl hl ?_
    dsimp only [State.m]
    rw [cores_idleGate (m := s.q) hx hi hn hf hg ht hk]
    exact ⟨set_get hx _, fun j hj => set_get_ne hj _⟩

end Sys2Proof.Machine
end

section
/-! SUPPORT. Domains, their owners and granules, teardown and the resets of a domain and of a core: O1 to O3 (R344 to R348, R364 to R366, R407). -/

namespace Sys2Proof.Machine
open Sys2Proof

/-! ### Answers -/

/-- A command whose row has left the commands alone no longer waits once it is answered. -/
theorem answered {c : Cfg} {id st : Nat} {l : List Byte} {m n : Mach} {k : Cmd} (hk : mget m.rings.cmds id = some k) (hn : n.rings = m.rings) :
    (respond c id st l n).rings.cmds = mdel m.rings.cmds id := by
  rw [cmds_respond c id st l n k (by rw [hn]; exact hk), hn]

/-! ### The cache of domain entries (R343) -/

theorem still_domTouch (c : Cfg) (d : Nat) (m : Mach) : (domTouch c d m).still = { m.still with domCache := (domTouch c d m).domCache } := by
  have hput (l : List Nat) : ∀ n : Mach, (l.foldl (fun m r => engPut (c.tb.dom + 256 * r) (domBytes (domE m r)) m) n).still = n.still :=
    foldl_keeps Mach.still _ (fun _ _ => still_engPut _ _ _) l
  have hs := hput ((d :: m.domCache.erase d).drop 256) { m with domCache := (d :: m.domCache.erase d).take 256 }
  have hc : (domTouch c d m).domCache = (d :: m.domCache.erase d).take 256 := congrArg Mach.domCache hs
  rw [hc]
  exact hs

theorem domTouch_view {α : Type} (g : Mach → α) (hg : ∀ m, g m.still = g m) (hc : ∀ m l, g { m with domCache := l } = g m) (c : Cfg) (d : Nat) (m : Mach) :
    g (domTouch c d m) = g m := by
  rw [← hg, still_domTouch, hc, hg]

theorem doms_domTouch (c : Cfg) (d : Nat) (m : Mach) : (domTouch c d m).doms = m.doms := domTouch_view Mach.doms (fun _ => rfl) (fun _ _ => rfl) c d m
theorem keys_domTouch (c : Cfg) (d : Nat) (m : Mach) : (domTouch c d m).keys = m.keys := domTouch_view Mach.keys (fun _ => rfl) (fun _ _ => rfl) c d m
theorem domE_domTouch (c : Cfg) (d e : Nat) (m : Mach) : domE (domTouch c d m) e = domE m e := by unfold domE; rw [doms_domTouch]
theorem rings_domTouch (c : Cfg) (d : Nat) (m : Mach) : (domTouch c d m).rings = m.rings :=
  foldl_keeps Mach.rings _ (fun _ _ => rings_engPut _ _ _) _ _

theorem doms_domUpd (d : Nat) (f : DomE → DomE) (m : Mach) : (domUpd d f m).doms = mset m.doms d (f (domE m d)) := rfl

/-- What a command that rewrites one domain's entry does. -/
theorem domRow {i : Instr} {s : State} {op id : Nat} {area : Cmd → Nat} {chk : Cfg → Mach → Cmd → List (Bool × Nat)} {k : Cmd} {f : Mach → Cmd → DomE → DomE} {l : Mach → Cmd → List Byte}
    (hi : exec i s = s.runM (cmdRow op id area chk fun c k m => respond c id stOk (l m k) (domUpd k.dom (f m k) (domTouch c k.dom m)))) (h : accepted op id area chk s k = true) :
    Runs i s fun t => Answered id s t ∧ mget t.m.doms k.dom = some (f s.q k (domE s.m k.dom)) ∧ ∀ d, d ≠ k.dom → mget t.m.doms d = mget s.m.doms d := by
  refine Runs.row hi h ?_
  dsimp only [Answered, State.m]
  rw [doms_respond, doms_domUpd, doms_domTouch, domE_domTouch]
  exact ⟨answered (accepted_cmd h) (rings_domTouch ..), mget_mset .., fun d hd => mget_mset_ne _ _ hd⟩

/-- Settles O1: each command rewrites the entry of its own domain. -/
theorem domainCommandsWriteEntry : Obligations.DomainCommandsWriteEntry := by
  unfold Obligations.DomainCommandsWriteEntry
  refine ⟨fun s id k h => Runs.row rfl h ?_, fun s id k h => ?_, fun s id k h => ?_, fun s id k h => ?_⟩
  · dsimp only [Answered, State.m]
    rw [doms_respond, doms_domTouch, keys_respond, keys_domTouch]
    exact ⟨answered (accepted_cmd h) (rings_domTouch ..), mget_mset .., mget_mset .., fun d hd => ⟨mget_mset_ne _ _ hd, mget_mset_ne _ _ hd⟩⟩
  · have := domRow (i := .domainSet id) (l := fun _ _ => []) (f := fun _ k e =>
      { e with strict := if bits (k.argN 0x2C 1) 0 1 == 1 then k.argN 0x24 1 = 1 else e.strict
               coreLimit := if bits (k.argN 0x2C 1) 1 1 == 1 then k.argN 0x25 1 else e.coreLimit
               depotLimit := if bits (k.argN 0x2C 1) 2 1 == 1 then k.argN 0x28 4 else e.depotLimit }) rfl h
    simpa only [beq_iff_eq] using this
  · exact domRow (i := .ownerEnrol id) (l := fun m k => toLe 1 (ownerFree (domE m k.dom).owners)) (f := fun m k e =>
      { e with owners := e.owners.set (ownerFree (domE m k.dom).owners) (some (leNat (sha384 (areaBytes m k 96)))) }) rfl h
  · exact domRow (i := .ownerRemove id) (l := fun _ _ => []) (f := fun _ k e => { e with owners := e.owners.set (k.argN 0x18 1) none }) rfl h

/-! ### Granules -/

section
variable (l : List Nat) (v : Gran) (m : Map Gran)

theorem granules_set : (∀ g, g ∈ l → mget (l.foldl (fun gs g => mset gs g v) m) g = some v)
    ∧ ∀ g, g ∉ l → mget (l.foldl (fun gs g => mset gs g v) m) g = mget m g :=
  ⟨fun g h => by rw [mget_foldl_mset, if_pos h], fun g h => by rw [mget_foldl_mset, if_neg h]⟩

theorem granules_del : (∀ g, g ∈ l → mget (l.foldl (fun gs g => mdel gs g) m) g = none)
    ∧ ∀ g, g ∉ l → mget (l.foldl (fun gs g => mdel gs g) m) g = mget m g :=
  ⟨fun g h => by rw [mget_foldl_mdel, if_pos h], fun g h => by rw [mget_foldl_mdel, if_neg h]⟩

end

/-- A filter adds no key. -/
theorem mget_mfilter_absent {α : Type} (f : Nat → α → Bool) {m : Map α} {k : Nat} (h : mget m k = none) : mget (mfilter f m) k = none := by
  induction m with
  | nil => rfl
  | cons p r ih =>
    obtain ⟨a, w⟩ := p
    rw [mget] at h
    split at h
    · cases h
    · rename_i ha
      rw [mfilter, List.filter_cons]
      split
      · rw [mget, if_neg ha]; exact ih h
      · exact ih h

theorem bad_engPut {m : Mach} {i : Nat} (a : Nat) (l : List Byte) (h : mget m.mem.bad i = none) : mget (engPut a l m).mem.bad i = none := by
  unfold engPut
  dsimp only
  split
  · rw [mem_backInval]; exact h
  · show mget (memPut (backInval a l.length false m).mem a l).bad i = none
    rw [mem_backInval]
    exact mget_mfilter_absent (fun k _ => !(a ≤ 64 * k && 64 * k + 64 ≤ a + l.length)) h

/-- A line whose tag is good stays so when a command is answered. -/
theorem bad_respond {m : Mach} {i : Nat} (c : Cfg) (id st : Nat) (l : List Byte) (h : mget m.mem.bad i = none) : mget (respond c id st l m).mem.bad i = none := by
  unfold respond
  split
  · exact h
  · rename_i k _
    show mget (match k.relay with
      | some req => manageTo 0 1 req (evtEntry m 1 0 (clerkOf k.opcode) k.tag st k.opcode l ++ k.result) m
      | none => putEvent c (evtEntry m 1 0 (clerkOf k.opcode) k.tag st k.opcode l) m).mem.bad i = none
    split
    · rw [mem_manageTo]; exact h
    · rw [mem_putEvent]; exact bad_engPut _ _ h

/-- Settles O2: each command sets the owners of its run of granules. -/
theorem regionCommandsSetOwners : Obligations.RegionCommandsSetOwners := by
  unfold Obligations.RegionCommandsSetOwners
  refine ⟨fun s id k h => Runs.row (act := fun _ k m => underWay id k.dom m) rfl h ⟨underWay_begun (accepted_cmd h), rfl⟩, fun s id k h => ?_, fun s id k h => ?_, fun s id k h => ?_, fun s id k h hr ha hb => ?_⟩
  · refine Runs.row2 rfl h ?_
    dsimp only [Answered, State.m]
    rw [granules_respond]
    obtain ⟨hin, hout⟩ := granules_set (runOf k) ⟨k.dom, k.argN 0x20 1 == 1⟩ s.q.mem.granules
    refine ⟨answered (continues_cmd h) rfl, hin, hout, fun a h1 h2 => bad_respond _ _ _ _ ?_⟩
    have hin : (!(decide (k.argN 0x18 4 * 2 ^ 25 ≤ 64 * a) && decide (64 * a < k.argN 0x18 4 * 2 ^ 25 + k.argN 0x1C 4 * 2 ^ 25))) = false := by
      rw [decide_eq_true h1, decide_eq_true h2]; rfl
    exact mget_mfilter_none (fun b _ => !(decide (k.argN 0x18 4 * 2 ^ 25 ≤ 64 * b) && decide (64 * b < k.argN 0x18 4 * 2 ^ 25 + k.argN 0x1C 4 * 2 ^ 25))) _ _ fun _ => hin
  · refine Runs.row rfl h ?_
    dsimp only [Answered, State.m]
    rw [granules_respond]
    exact ⟨answered (accepted_cmd h) rfl, granules_set ..⟩
  · refine Runs.row rfl h ?_
    dsimp only [Answered, State.m]
    rw [granules_respond]
    exact ⟨answered (accepted_cmd h) rfl, granules_del ..⟩
  · have hlen : ((runOf k).flatMap fun g => toLe 4 (match mget s.m.mem.granules g with
        | none => 0
        | some x => x.dom + 4096 * (if x.sealed then 2 else 1))).length = 4 * k.argN 0x1C 4 := by
      rw [List.length_flatMap]
      simp only [toLe_length, runOf, List.map_map, List.map_const', Function.comp_def, List.sum_replicate_nat, List.length_range, Nat.mul_comm]
    refine Runs.row rfl h ?_
    obtain ⟨hcmd, hgran, hbytes⟩ := putResult_respond s.c id stOk k ((runOf k).flatMap fun g => toLe 4 (match mget s.m.mem.granules g with
        | none => 0
        | some x => x.dom + 4096 * (if x.sealed then 2 else 1))) [] s.q (accepted_cmd h) hr (by rw [hlen]; exact hb) (by rw [hlen]; exact ha)
    rw [hlen] at hbytes
    exact ⟨hcmd, hgran, hbytes⟩

end Sys2Proof.Machine
end

section
/-! SUPPORT. Teardown of a domain, and the resets of a domain and of a core: O3 (R364 to R366, R407). -/

namespace Sys2Proof.Machine
open Sys2Proof

/-! ### Commands that wait -/

/-- An answer takes no other command away. -/
theorem mget_cmds_respond {c : Cfg} {i j st : Nat} (l : List Byte) (m : Mach) (h : j ≠ i) : mget (respond c i st l m).rings.cmds j = mget m.rings.cmds j := by
  cases hi : mget m.rings.cmds i with
  | none => unfold respond; rw [hi]
  | some k => rw [cmds_respond c i st l m k hi, mget_mdel_ne _ h]

theorem cmds_settleAll (m : Mach) : (settleAll m).rings = m.rings := by
  unfold settleAll; rw [foldl_keeps Mach.rings (fun m k => settleTime k m) (by intro m k; rfl)]

theorem cmds_pageRequest (c : Cfg) (r : PrgReq) (m : Mach) : (pageRequest c r m).rings.cmds = m.rings.cmds := by
  have hf (n : Option Nat) (m : Mach) : (r.waiters.foldl (fun m w => putHalt n w m) m).rings = m.rings :=
    foldl_keeps Mach.rings _ (fun m w => by unfold putHalt; split <;> rfl) _ _
  unfold pageRequest
  dsimp only
  split
  · rw [cmds_settleAll]
  · split
    · rw [hf]; exact congrArg Rings.cmds (cmds_settleAll m)
    · rw [cmds_post, hf]; exact congrArg Rings.cmds (cmds_settleAll m)

theorem cmds_dropRequests (c : Cfg) (d : Nat) (m : Mach) : (dropRequests c d m).rings.cmds = m.rings.cmds :=
  (foldl_keeps (·.rings.cmds) _ (fun m r => cmds_pageRequest c r m) _ _).trans rfl

/-- What zeroing leaves alone. -/
theorem spanZero_view {α : Type} (g : Mach → α) (hb : ∀ a n m, g (backInval a n false m) = g m) (hg : ∀ m x, g { m with mem := x } = g m)
    (ss : List (Nat × Nat)) (m : Mach) : g (spanZero ss m) = g m := by
  unfold spanZero
  refine foldl_keeps g _ (fun m s => ?_) ss m
  exact (hg _ _).trans (hb s.1 s.2 m)

theorem rings_spanZero (ss : List (Nat × Nat)) (m : Mach) : (spanZero ss m).rings = m.rings :=
  spanZero_view Mach.rings (fun a n m => rings_backInval a n false m) (fun _ _ => rfl) ss m

theorem doms_spanZero (ss : List (Nat × Nat)) (m : Mach) : (spanZero ss m).doms = m.doms :=
  spanZero_view Mach.doms (fun a n m => show (backInval a n false m).still.doms = m.doms by rw [still_backInval]; rfl) (fun _ _ => rfl) ss m

theorem doms_refuseBinds (c : Cfg) (d : Nat) (m : Mach) : (refuseBinds c d m).doms = m.doms :=
  foldl_keeps Mach.doms _ (fun _ _ => (doms_respond ..).trans (doms_spanZero ..)) _ m

/-- A bind that is refused is another command than one of another code. -/
theorem mget_cmds_refuseBinds {c : Cfg} {d id : Nat} {m : Mach} {k : Cmd} (hk : mget m.rings.cmds id = some k) (ho : k.opcode ≠ 0x300) :
    mget (refuseBinds c d m).rings.cmds id = some k := by
  unfold refuseBinds
  have hne : ∀ p ∈ m.rings.cmds.filter fun p => p.2.opcode == 0x300 && p.2.phase == 1 && p.2.dom == d && mget m.rings.cmds p.1 == some p.2, id ≠ p.1 := by
    rintro p hp rfl
    simp only [List.mem_filter, Bool.and_eq_true, beq_iff_eq] at hp
    obtain ⟨-, ⟨⟨hop, -⟩, -⟩, hm⟩ := hp
    rw [hk, Option.some.injEq] at hm
    exact ho (hm ▸ hop)
  generalize m.rings.cmds.filter _ = l at hne
  induction l generalizing m with
  | nil => exact hk
  | cons p r ih =>
    rw [List.foldl_cons]
    refine ih ?_ fun x hx => hne x (List.mem_cons_of_mem _ hx)
    rw [mget_cmds_respond _ _ (hne p List.mem_cons_self), rings_spanZero]
    exact hk

/-! ### Queues that go -/

theorem creditBack_view {α : Type} (g : Mach → α) (hg : ∀ m l, g { m with links := l } = g m) (b : Bind) (n : Nat) (m : Mach) : g (creditBack b n m) = g m := by
  unfold creditBack
  split
  · split
    · rfl
    · exact hg m _
  · rfl

/-- What a queue's going leaves alone but for the queue itself. -/
theorem cleared_view {α : Type} (g : Mach → α) (hl : ∀ m l, g { m with ledger := l } = g m) (hk : ∀ m k, g { m with links := k } = g m)
    (hc : ∀ m x, g { m with casc := x } = g m) (hb : ∀ m b, g { m with mbx := b } = g m) (q : Nat) (m : Mach) :
    g (mbxClear q true (dropParked q (unbindEntries q m))) = g m := by
  have hdrop (m : Mach) : g (dropParked q m) = g m := (hc _ _).trans (foldl_keeps g (fun m (b : Nat × Bind) => creditBack b.2 b.2.used m) (fun m b => creditBack_view g hk b.2 b.2.used m) _ m)
  have hmbx (m : Mach) : g (mbxClear q true m) = g m := by
    unfold mbxClear
    split
    · rfl
    · split
      · exact hb _ _
      · rfl
  rw [hmbx, hdrop, unbindEntries, hl]

theorem queues_removeQueue (q : Nat) (m : Mach) : (removeQueue q m).queues = mdel m.queues q :=
  congrArg (mdel · q) (cleared_view Mach.queues (fun _ _ => rfl) (fun _ _ => rfl) (fun _ _ => rfl) (fun _ _ => rfl) q m)

/-- The removal of a queue leaves the commands, cores and domains as they are. -/
theorem removeQueue_view {α : Type} (g : Mach → α) (hl : ∀ m l, g { m with ledger := l } = g m) (hk : ∀ m k, g { m with links := k } = g m)
    (hc : ∀ m x, g { m with casc := x } = g m) (hb : ∀ m b, g { m with mbx := b } = g m)
    (hq : ∀ m a b c d, g { m with queues := a, depot := b, ctxCache := c, sched := d } = g m) (q : Nat) (m : Mach) : g (removeQueue q m) = g m :=
  (hq _ _ _ _ _).trans (cleared_view g hl hk hc hb q m)

theorem queues_dropQueues (d : Nat) (m : Mach) : (dropQueues d m).queues = (queuesOf m d).foldl mdel m.queues := by
  have h (l : List Nat) : ∀ m : Mach, (l.foldl (fun m q => removeQueue q m) m).queues = l.foldl mdel m.queues := by
    induction l with
    | nil => exact fun _ => rfl
    | cons q r ih => intro m; rw [List.foldl_cons, List.foldl_cons, ih, queues_removeQueue]
  exact h _ m

theorem mem_foldl_mdel {α : Type} (l : List Nat) : ∀ {m : Map α} {p : Nat × α}, p ∈ l.foldl mdel m → p ∈ m ∧ p.1 ∉ l := by
  induction l with
  | nil => exact fun h => ⟨h, List.not_mem_nil⟩
  | cons k r ih =>
    intro m p h
    obtain ⟨hp, hr⟩ := ih h
    obtain ⟨hm, hk⟩ := List.mem_filter.1 hp
    exact ⟨hm, by simpa [hr] using hk⟩

/-- The queues of a domain are gone. -/
theorem dropQueues_gone (d : Nat) (m : Mach) : ∀ p ∈ (dropQueues d m).queues, p.2.ctx.dom ≠ d := by
  intro p hp hd
  rw [queues_dropQueues] at hp
  obtain ⟨hm, hn⟩ := mem_foldl_mdel _ hp
  exact hn (List.mem_map.2 ⟨p, List.mem_filter.2 ⟨hm, decide_eq_true hd⟩, rfl⟩)

/-- A soiled core has run the same domain, and is no cleaner. -/
theorem unscrubbed_dropQueues (d : Nat) (m : Mach) : unscrubbed (dropQueues d m) d = unscrubbed m d := by
  have h : ((queuesOf m d).foldl (fun m q => removeQueue q m) m).cores = m.cores :=
    foldl_keeps Mach.cores _ (fun m q => removeQueue_view Mach.cores (fun _ _ => rfl) (fun _ _ => rfl) (fun _ _ => rfl) (fun _ _ => rfl) (fun _ _ _ _ _ => rfl) q m) _ m
  unfold unscrubbed
  rw [dropQueues, soilCores]
  dsimp only
  rw [h, List.any_map]
  refine congrArg m.cores.any (funext fun x => ?_)
  rw [Function.comp]
  split <;> rfl

/-! ### Steps 3 to 5 -/

/-- What steps 3 to 5 of a teardown leave of a domain. -/
structure Dropped (d : Nat) (m : Mach) : Prop where
  step : (domE m d).tearStep = 2
  place : ∀ p ∈ m.hp.place, p.2.dom ≠ d
  regions : ∀ r ∈ m.depot.regions, r.2.dom ≠ d
  lines : ∀ l ∈ m.depot.lines, l.dom ≠ d
  xlate : ∀ e ∈ m.xl.l2, e.dom ≠ d

theorem dropped_teardownDrop (c : Cfg) (d : Nat) (m : Mach) : Dropped d (teardownDrop c d m) where
  step := by rw [teardownDrop, domE_domUpd]
  place p hp := by
    have hp : p ∈ (dropXlate c d (dropHostLines d (dropKept c d (dropOwned d m)))).hp.place := hp
    rw [place_dropXlate] at hp
    exact of_decide_eq_true (mem_mfilter (f := fun _ (x : Place) => decide (x.dom ≠ d)) hp).2
  regions r hr := by
    have hr : r ∈ (dropXlate c d (dropHostLines d (dropKept c d (dropOwned d m)))).depot.regions := hr
    rw [depot_dropXlate] at hr
    exact of_decide_eq_true (mem_mfilter (f := fun _ (x : Region) => decide (x.dom ≠ d)) hr).2
  lines l hl := by
    have hl : l ∈ (dropXlate c d (dropHostLines d (dropKept c d (dropOwned d m)))).depot.lines := hl
    rw [depot_dropXlate, lines_dropHostLines] at hl
    exact of_decide_eq_true (List.mem_filter.1 hl).2
  xlate := l2_dropXlate c d _

theorem rings_tcFlush (f : TLine → Bool) (m : Mach) : (tcFlush f m).rings = m.rings := by
  refine foldl_keeps Mach.rings _ (fun m l => ?_) _ m
  split
  · rfl
  · exact foldl_keeps Mach.rings _ (fun _ _ => rings_engPut _ _ _) _ m

theorem rings_dropOwned (d : Nat) (m : Mach) : (dropOwned d m).rings = m.rings := by
  have hp (m : Mach) (h : Nat) : (dropParcel h m).rings = m.rings := by unfold dropParcel; split <;> rfl
  have ht (m : Mach) (n : Nat) : (tableFlush n m).rings = m.rings := rings_tcFlush _ m
  exact (foldl_keeps Mach.rings _ ht _ _).trans (foldl_keeps Mach.rings _ hp _ m)

theorem rings_domUpd (d : Nat) (f : DomE → DomE) (m : Mach) : (domUpd d f m).rings = m.rings := rfl
theorem rings_dropHostLines (d : Nat) (m : Mach) : (dropHostLines d m).rings = m.rings := rfl
theorem rings_dropKept (c : Cfg) (d : Nat) (m : Mach) : (dropKept c d m).rings = m.rings := rfl

theorem cmds_teardownDrop (c : Cfg) (d : Nat) (m : Mach) : (teardownDrop c d m).rings.cmds = m.rings.cmds := by
  rw [teardownDrop, rings_domUpd, cmds_dropXlate, rings_dropHostLines, rings_dropKept, rings_dropOwned]

/-! ### The rows -/

/-- What DOMAIN_TEARDOWN does before the drain it begins. -/
def teardownStart (c : Cfg) (d : Nat) (m : Mach) : Mach :=
  let n := refuseBinds c d (dropRequests c d (killDomain d (domUpd d (fun e => { e with state := 2, tearStep := 0 }) (domTouch c d m))))
  { n with ledger := mmap (fun _ l => if l.terms.dom = d then { l with retiring := true } else l) n.ledger }

theorem doms_teardownStart (c : Cfg) (d : Nat) (m : Mach) : (teardownStart c d m).doms = mset m.doms d { domE m d with state := 2, tearStep := 0 } := by
  rw [teardownStart]
  dsimp only
  rw [doms_refuseBinds, doms_dropRequests, doms_killDomain, doms_domUpd, domE_domTouch, doms_domTouch]

theorem mget_cmds_teardownStart {c : Cfg} {d id : Nat} {m : Mach} {k : Cmd} (hk : mget m.rings.cmds id = some k) (ho : k.opcode ≠ 0x300) :
    mget (teardownStart c d m).rings.cmds id = some k := by
  rw [teardownStart]
  dsimp only
  refine mget_cmds_refuseBinds ?_ ho
  rw [cmds_dropRequests, rings_killDomain, ← hk]
  exact congrArg (fun r : Rings => mget r.cmds id) (rings_domTouch c d m)

theorem doms_underWay (id arg : Nat) (m : Mach) : (underWay id arg m).doms = m.doms := rfl

/-- The steps of a teardown whose queues have gone and whose cores are scrubbed. -/
def teardownStep (c : Cfg) (d : Nat) (m : Mach) : Mach :=
  match (domE m d).tearStep with
  | 0 =>
    if !drained m d then m
    else
      let m := domUpd d (fun e => { e with tearStep := 1 }) (dropQueues d m)
      if unscrubbed m d then m else teardownDrop c d m
  | 1 => if unscrubbed m d then m else teardownDrop c d m
  | _ => m

section
variable {c : Cfg} {d : Nat} {m : Mach}

theorem unscrubbed_domUpd (f : DomE → DomE) : unscrubbed (domUpd d f m) d = unscrubbed m d := rfl

theorem teardownStep_queues (h0 : (domE m d).tearStep = 0) (hd : drained m d = true) (hu : unscrubbed m d = true) :
    teardownStep c d m = domUpd d (fun e => { e with tearStep := 1 }) (dropQueues d m) := by
  unfold teardownStep
  rw [h0]
  dsimp only
  rw [hd, unscrubbed_domUpd, unscrubbed_dropQueues, hu]; rfl

theorem teardownStep_dropped (h0 : ((domE m d).tearStep = 0 ∧ drained m d = true) ∨ (domE m d).tearStep = 1) (hu : unscrubbed m d = false) :
    Dropped d (teardownStep c d m) := by
  unfold teardownStep
  rcases h0 with ⟨h0, hd⟩ | h1
  · rw [h0]
    dsimp only
    rw [hd, unscrubbed_domUpd, unscrubbed_dropQueues, hu]
    exact dropped_teardownDrop ..
  · rw [h1]
    dsimp only
    rw [hu]
    exact dropped_teardownDrop ..

/-- What TEARDOWN_COMPLETE does before it answers. -/
def teardownEnd (c : Cfg) (d : Nat) (m : Mach) : Mach :=
  let m := if (domE m d).tearStep = 1 then teardownDrop c d m else m
  let m := { m with keys := { m.keys with slots := mdel m.keys.slots d }
                    mem := { m.mem with granules := mfilter (fun _ g => g.dom ≠ d) m.mem.granules } }
  domUpd d (fun e => { e with state := 0, tearStep := 0 }) (domTouch c d m)

theorem cmds_teardownEnd : (teardownEnd c d m).rings.cmds = m.rings.cmds := by
  refine (congrArg Rings.cmds (rings_domTouch ..)).trans ?_
  dsimp only
  split
  · exact cmds_teardownDrop c d m
  · rfl

theorem state_teardownEnd : (domE (teardownEnd c d m) d).state = 0 := by rw [teardownEnd, domE_domUpd]

theorem keys_teardownEnd : mget (teardownEnd c d m).keys.slots d = none := by
  have h : (teardownEnd c d m).keys = _ := keys_domTouch ..
  rw [h]; exact mget_mdel ..

theorem granules_teardownEnd : ∀ g ∈ (teardownEnd c d m).mem.granules, g.2.dom ≠ d := by
  intro g hg
  have h : (teardownEnd c d m).mem.granules = _ := domTouch_view (·.mem.granules) (fun _ => rfl) (fun _ _ => rfl) c d _
  rw [h] at hg
  exact of_decide_eq_true (mem_mfilter (f := fun _ (x : Gran) => decide (x.dom ≠ d)) hg).2

/-- What DOMAIN_RESET does before it answers. -/
def domainCleared (c : Cfg) (d : Nat) (m : Mach) : Mach := dropHostLines d (dropXlate c d (soilCores d (dropRequests c d (killDomain d m))))

theorem doms_domainCleared : (domainCleared c d m).doms = m.doms := by
  refine (doms_dropXlate c d _).trans ?_
  show (dropRequests c d (killDomain d m)).doms = m.doms
  rw [doms_dropRequests, doms_killDomain]

theorem cmds_domainCleared : (domainCleared c d m).rings.cmds = m.rings.cmds := by
  refine (cmds_dropXlate c d _).trans ?_
  show (dropRequests c d (killDomain d m)).rings.cmds = m.rings.cmds
  rw [cmds_dropRequests, rings_killDomain]

theorem lines_domainCleared : ∀ l ∈ (domainCleared c d m).depot.lines, l.dom ≠ d := by
  intro l hl
  rw [domainCleared, lines_dropHostLines] at hl
  exact of_decide_eq_true (List.mem_filter.1 hl).2

theorem l2_domainCleared : ∀ e ∈ (domainCleared c d m).xl.l2, e.dom ≠ d := l2_dropXlate c d _

end

theorem xl_respond (c : Cfg) (id st : Nat) (l : List Byte) (m : Mach) : (respond c id st l m).xl = m.xl := respond_view Mach.xl (fun _ => rfl) ..
theorem depot_respond (c : Cfg) (id st : Nat) (l : List Byte) (m : Mach) : (respond c id st l m).depot = m.depot := respond_view Mach.depot (fun _ => rfl) ..

theorem rings_stopCore (n : Nat) (m : Mach) : (stopCore n m).rings = m.rings := by
  unfold stopCore
  split
  · rw [rings_killTiles, rings_stopLayer]
  · rfl

theorem st_stopCore (n : Nat) (m : Mach) : (stopCore n m).st = m.st := by
  unfold stopCore
  split
  · exact view_of_calm Mach.st (fun _ => rfl) (by rw [calm_killTiles, calm_stopLayer])
  · rfl

theorem cores_respond (c : Cfg) (id st : Nat) (l : List Byte) (m : Mach) : (respond c id st l m).cores = m.cores := respond_view Mach.cores (fun _ => rfl) ..

theorem abandonTest_other {c : Cfg} {k : Nat} {m : Mach} (h : m.st.core ≠ some k) : abandonTest c k m = m := if_pos h

/-- What the answer of a command whose code is known needs of the command. -/
theorem accepted_opcode {op id : Nat} {area : Cmd → Nat} {chk : Cfg → Mach → Cmd → List (Bool × Nat)} {s : State} {k : Cmd} (h : accepted op id area chk s k = true) :
    k.opcode = op := by
  simp only [accepted, Bool.and_eq_true, beq_iff_eq] at h
  obtain ⟨⟨⟨⟨-, ho⟩, -⟩, -⟩, -⟩ := h
  exact ho

/-- Settles O3: teardown step by step, and the resets of a domain and of a core. -/
theorem teardownAndResetRows : Obligations.TeardownAndResetRows := by
  unfold Obligations.TeardownAndResetRows
  refine ⟨fun s id k h => ?_, fun s id k h h0 hd hu => ?_, fun s id k h h0 hu => ?_, fun s id k h h0 hu => ?_, fun s id k h h2 => ?_, fun s id k h hc => ?_⟩
  · have hcmd : mget (teardownStart s.c k.dom s.q).rings.cmds id = some k := mget_cmds_teardownStart (accepted_cmd h) (by rw [accepted_opcode h]; decide)
    have hdom : mget (underWay id k.dom (teardownStart s.c k.dom s.q)).doms k.dom = some { domE s.q k.dom with state := 2, tearStep := 0 } := by
      rw [doms_underWay, doms_teardownStart, mget_mset]
    exact Runs.row (act := fun c k m => underWay id k.dom (teardownStart c k.dom m)) rfl h ⟨underWay_begun hcmd, hdom⟩
  · refine Runs.row2 (f := fun c k m => teardownStep c k.dom m) rfl h ?_
    dsimp only [State.m]
    rw [teardownStep_queues h0 hd hu]
    exact ⟨by rw [domE_domUpd], dropQueues_gone k.dom s.q⟩
  · have hdrop := teardownStep_dropped (c := s.c) h0 hu
    exact Runs.row2 (f := fun c k m => teardownStep c k.dom m) rfl h ⟨hdrop.step, hdrop.place, hdrop.regions, hdrop.lines, hdrop.xlate⟩
  · refine Runs.row2 (f := fun c k m => if (domE m k.dom).tearStep = 0 || unscrubbed m k.dom then m else respond c id stOk [] (teardownEnd c k.dom m)) rfl h ?_
    dsimp only [State.m, Answered]
    rw [if_neg (by rw [hu]; simpa using h0)]
    unfold domE
    rw [doms_respond, keys_respond, granules_respond]
    exact ⟨by rw [cmds_respond _ _ _ _ _ k (by rw [cmds_teardownEnd]; exact continues_cmd h), cmds_teardownEnd]; rfl, state_teardownEnd, keys_teardownEnd, granules_teardownEnd⟩
  · refine Runs.row (act := fun c k m => respond c id stOk [] (if (domE (domainCleared c k.dom m) k.dom).state = 2
      then domUpd k.dom (fun e => { e with tearStep := 0 }) (domainCleared c k.dom m) else domainCleared c k.dom m)) rfl h ?_
    have hdom : domE (domainCleared s.c k.dom s.q) k.dom = domE s.q k.dom := by unfold domE; rw [doms_domainCleared]
    dsimp only [State.m, Answered]
    rw [if_neg (by rw [hdom]; exact h2), doms_respond, depot_respond, xl_respond, doms_domainCleared]
    exact ⟨by rw [cmds_respond _ _ _ _ _ k (by rw [cmds_domainCleared]; exact accepted_cmd h), cmds_domainCleared]; rfl, rfl, lines_domainCleared, l2_domainCleared⟩
  · refine Runs.row rfl h ?_
    dsimp only [State.m, Answered]
    rw [cores_respond, abandonTest_other (by rw [st_stopCore]; exact hc)]
    refine ⟨answered (accepted_cmd h) (rings_stopCore ..), fun x hx => ?_⟩
    dsimp only at hx
    rw [lupd_get] at hx
    obtain ⟨y, -, rfl⟩ := Option.map_eq_some_iff.1 hx
    rfl

end Sys2Proof.Machine
end

section
/-! SUPPORT. Address translation services: O7 (R313 to R315). -/

namespace Sys2Proof.Machine
open Sys2Proof

/-! ### Segments that issue -/

theorem xl_pump (m : Mach) : (pump m).xl = m.xl := (congrArg Mach.xl (served_pump m) :)

theorem wait_stand {x : HpReq} {m : Mach} (r : Req) (h : x ∈ m.hp.wait) : x ∈ (stand r m).hp.wait := by
  unfold stand
  split
  · exact List.mem_append_left _ h
  · exact h

theorem wait_pumpOne {x : HpReq} {s : List Req × List (Nat × Nat) × Mach} (r : Req) (h : x ∈ s.2.2.hp.wait) : x ∈ (pumpOne s r).2.2.hp.wait := by
  unfold pumpOne
  split
  · exact h
  · exact wait_stand _ h

/-- A request that stands at the host port still does when segments issue. -/
theorem wait_pump {x : HpReq} {m : Mach} (h : x ∈ m.hp.wait) : x ∈ (pump m).hp.wait := by
  have hf (l : List Req) : ∀ s : List Req × List (Nat × Nat) × Mach, x ∈ s.2.2.hp.wait → x ∈ (l.foldl pumpOne s).2.2.hp.wait := by
    induction l with
    | nil => exact fun _ h => h
    | cons r l ih => exact fun s h => ih _ (wait_pumpOne r h)
  exact hf _ _ h

/-! ### Page requests -/

theorem xl_settleAll (m : Mach) : (settleAll m).xl = m.xl := foldl_keeps Mach.xl (fun m k => settleTime k m) (fun _ _ => rfl) _ m

theorem putHalts_view {α : Type} (g : Mach → α) (hg : ∀ m k, g { m with cores := k } = g m) (n : Option Nat) (l : List Waiter) (m : Mach) :
    g (l.foldl (fun m w => putHalt n w m) m) = g m :=
  foldl_keeps g _ (fun m w => by
    unfold putHalt
    split
    · rfl
    · exact hg m _) l m

/-- A page request nothing waits for is not sent. -/
theorem xl_pageRequest_none {c : Cfg} {r : PrgReq} (m : Mach) (h : r.waiters = []) : (pageRequest c r m).xl = m.xl := by
  unfold pageRequest
  dsimp only
  rw [if_pos h, xl_settleAll]

/-- A page request takes a free number and joins the outbound queue. -/
structure Asked (n : Nat) (r : PrgReq) (m t : Mach) : Prop where
  xl : t.xl = { m.xl with prg := mset m.xl.prg n r }
  wait : ∃ x ∈ t.hp.wait, x.kind = 6 ∧ x.addr = n

theorem asked_pageRequest {c : Cfg} {r : PrgReq} {m : Mach} {n : Nat} (h : r.waiters ≠ []) (hn : prgFree m = some n) : Asked n r m (pageRequest c r m) := by
  have hfree : prgFree (settleAll m) = some n := by unfold prgFree at hn ⊢; rw [xl_settleAll]; exact hn
  unfold pageRequest
  dsimp only
  rw [if_neg h, hfree]
  refine ⟨?_, hpName (settleAll m) { hpReq 6 n with deadline := (settleAll m).now }, ?_, rfl, rfl⟩
  · dsimp only
    rw [post_view Mach.xl (fun _ => rfl), putHalts_view Mach.xl fun _ _ => rfl]
    show { (settleAll m).xl with prg := mset (settleAll m).xl.prg n r } = _
    rw [xl_settleAll]
  · dsimp only
    rw [post_view (·.hp.wait) (fun _ => rfl), putHalts_view (·.hp.wait) fun _ _ => rfl]
    exact List.mem_append_right _ List.mem_cons_self

theorem xl_endHalts (l : List Waiter) (m : Mach) : (l.foldl (fun m w => endHalt w m) m).xl = m.xl :=
  foldl_keeps Mach.xl _ (fun m w => by unfold endHalt; split <;> rfl) l m

theorem nextPageRequests_none {c : Cfg} {m : Mach} (h : m.xl.stalled = []) : nextPageRequests c m = m := by
  unfold nextPageRequests
  rw [h, List.foldl_nil, ← h]

/-! ### The rows -/

section
variable {pasid va : Nat} {c : Cfg} {m : Mach} {r : AtsReq}

/-- The block with an answered request ended. -/
def atsEnded (r : AtsReq) (m : Mach) : Mach := pump { m with xl := { m.xl with ats := m.xl.ats.erase r } }

theorem xl_atsEnded : (atsEnded r m).xl = { m.xl with ats := m.xl.ats.erase r } := xl_pump _

variable (hr : m.xl.ats.find? (fun r => r.pasid == pasid && r.page == hostPage va && r.sent.isSome) = some r)
include hr

theorem atsDone_denied : atsDone pasid va .denied c m = pageRequest c ⟨pasid, hostPage va, r.wr, r.waiters, false⟩ (atsEnded r m) := by
  unfold atsDone
  dsimp only
  rw [hr]; rfl

theorem xl_atsDone_granted {phys : Nat} {rd wr peer : Bool} (h : (if r.wr then wr else rd) = true) : (atsDone pasid va (.granted phys rd wr peer) c m).xl =
    { m.xl with ats := m.xl.ats.erase r
                host := hostPut ⟨pasid, hostPage va, phys / 4096 * 4096 % 2 ^ 52 + if peer then 2 ^ 52 else 0, rd, wr⟩ m.xl.host } := by
  unfold atsDone
  dsimp only
  rw [hr]
  dsimp only
  rw [if_neg (by rw [h]; decide), xl_endHalts]
  dsimp only
  rw [xl_settleAll, xl_pump]

end

/-- A success of a page request asks again where something waits, and the number is free. -/
theorem prgDone_success {c : Cfg} {n : Nat} {m : Mach} {r : PrgReq} (hr : mget m.xl.prg n = some r) (hs : r.sent = true) (h : m.xl.stalled = []) :
    prgDone n true c m = pump (if r.waiters = [] then { m with xl := { m.xl with prg := mdel m.xl.prg n } }
      else askAts r.pasid r.page r.wr r.waiters { m with xl := { m.xl with prg := mdel m.xl.prg n } }) := by
  unfold prgDone
  rw [hr]
  dsimp only
  rw [if_neg (by rw [hs]; decide), if_neg (by decide)]
  split
  · exact congrArg pump (nextPageRequests_none h)
  · exact congrArg pump (nextPageRequests_none h)

theorem host_atsInval (pasid va size : Nat) (m : Mach) : (atsInval pasid va size m).xl.host =
    m.xl.host.filter fun e => !(e.pasid == pasid && (va < 4096 * e.page + 4096 && 4096 * e.page < va + size)) :=
  foldl_keeps (·.xl.host) (fun m (_ : List Nat) => send .atsInvDone m) (fun _ _ => rfl) _ _

/-- Settles O7: the invalidation, the answers, the page response and the silence of the host. -/
theorem translationServices : Obligations.TranslationServices := by
  unfold Obligations.TranslationServices
  refine ⟨fun s pasid va size hl => ?_, fun s pasid va phys rd wr peer r hl hr ha => ?_, fun s pasid va r n hl hr => ⟨fun hw hn => ?_, fun hw => ?_⟩,
    fun s n r hl hr hs hst => ?_, fun s pasid va now r hl hr hw => ?_⟩
  · refine Runs.ofM (f := fun _ => atsInval pasid va size) rfl hl fun e he => ?_
    rintro ⟨hp, h1, h2⟩
    have he : e ∈ (atsInval pasid va size s.q).xl.host := he
    rw [host_atsInval] at he
    have := (List.mem_filter.1 he).2
    simp [hp, h1, h2] at this
  · refine Runs.ofM (f := atsDone pasid va (.granted phys rd wr peer)) rfl hl ?_
    dsimp only [State.m]
    rw [xl_atsDone_granted (m := s.q) hr ha]
    exact ⟨rfl, rfl⟩
  · refine Runs.ofM (f := atsDone pasid va .denied) rfl hl ?_
    dsimp only [State.m]
    rw [atsDone_denied (m := s.q) hr]
    have hfree : prgFree (atsEnded r s.q) = some n := by unfold prgFree at hn ⊢; rw [xl_atsEnded]; exact hn
    obtain ⟨hx, hwait⟩ := asked_pageRequest (c := s.c) (r := ⟨pasid, hostPage va, r.wr, r.waiters, false⟩) hw hfree
    rw [hx, xl_atsEnded]
    exact ⟨rfl, mget_mset .., hwait⟩
  · refine Runs.ofM (f := atsDone pasid va .denied) rfl hl ?_
    dsimp only [State.m]
    rw [atsDone_denied (m := s.q) hr, xl_pageRequest_none _ hw, xl_atsEnded]
    exact ⟨rfl, rfl⟩
  · refine Runs.ofM (f := prgDone n true) rfl hl ?_
    dsimp only [State.m]
    rw [prgDone_success (m := s.q) hr hs hst, xl_pump]
    split
    · rename_i hw
      exact ⟨mget_mdel .., fun h => absurd hw h, fun _ => rfl⟩
    · rename_i hw
      exact ⟨mget_mdel .., fun _ => ⟨rfl, _, wait_pump (List.mem_append_right _ List.mem_cons_self), rfl, rfl, rfl⟩, fun h => absurd h hw⟩
  · refine Runs.ofM (f := atsSilent pasid va now) rfl hl ?_
    have hfind : (tickTo now s.q).xl.ats.find? (fun r => r.pasid == pasid && r.page == hostPage va
        && r.sent.any fun b => b + s.c.hp.lossTimeout * 1000000 ≤ (tickTo now s.q).now) = some r := hr
    dsimp only [State.m]
    unfold atsSilent
    dsimp only
    rw [hfind]
    dsimp only
    rw [hw]; rfl

end Sys2Proof.Machine
end

section
/-! SUPPORT. The V slot: O18 to O21 (R87, R96 to R102, R116 to R120, R143). -/

namespace Sys2Proof.Machine
open Sys2Proof

/-! ### Vectors of a checked place -/

theorem vGet_length {x : Core} {u : TileCmd} {n : Nat} {l : VLoc} (h : locBad x u false 0xC n l = false) : (vGet x u 0xC noZp 0 n l).length = n := by
  cases l with
  | reg r => simp [vGet]
  | win back off => simp [vGet, winCodes, unpackRow]
  | drain => simp [locBad] at h

/-- A source of an operation that may run holds its elements. -/
theorem source_length {s : State} {k n : Nat} {x : Core} {u : TileCmd} {len : Aff} {d a : VLoc} {l : List VLoc} (h : vReady s k x u len n (f32Places d l n)) (ha : a ∈ l) :
    (vGet x u 0xC noZp 0 n a).length = n := by
  obtain ⟨-, -, hb, -⟩ := h
  exact vGet_length (hb (false, 0xC, n, a) (List.mem_cons_of_mem _ (List.mem_map.2 ⟨a, ha, rfl⟩)))

theorem nth_map_range (f : Nat → Nat) {n i : Nat} (h : i < n) : nth ((List.range n).map f) i = f i := by
  simp [nth, h]

theorem map2_range {f : Nat → Nat → Nat} {a b : List Nat} {n : Nat} (ha : a.length = n) (hb : b.length = n) :
    map2 f [a, b] = (List.range n).map fun i => f (nth a i) (nth b i) := by
  refine List.ext_getElem (by simp [map2, ha, hb]) fun i h1 h2 => ?_
  simp [map2, nth, ha, hb] at h1 ⊢
  simp [h1, ha, hb]

theorem map3_range {f : Nat → Nat → Nat → Nat} {a b c : List Nat} {n : Nat} (ha : a.length = n) (hb : b.length = n) (hc : c.length = n) :
    map3 f [a, b, c] = (List.range n).map fun i => f (nth a i) (nth b i) (nth c i) := by
  refine List.ext_getElem (by simp [map3, ha, hb, hc]) fun i h1 h2 => ?_
  simp [map3, nth, ha, hb, hc] at h1 ⊢
  simp [h1, ha, hb, hc]

/-! ### O18 -/

/-- Settles O18: every elementwise word writes its function of its sources. -/
theorem elementwiseVectorWords : Obligations.ElementwiseVectorWords := by
  unfold Obligations.ElementwiseVectorWords
  refine ⟨fun s k x u d a b l n i f h hi => ?_, fun s k x u d a l n i f g h hi => ?_, fun s k x u d a b c l n h => ?_, fun s k x u o h => ?_⟩
  · simp only [List.mem_cons, Prod.mk.injEq, List.not_mem_nil, or_false] at hi
    rcases hi with ⟨rfl, rfl⟩ | ⟨rfl, rfl⟩ | ⟨rfl, rfl⟩ | ⟨rfl, rfl⟩ | ⟨rfl, rfl⟩ | ⟨rfl, rfl⟩ <;> exact vec_wrote h rfl rfl
  · simp only [List.mem_cons, Prod.mk.injEq, List.not_mem_nil, or_false] at hi
    rcases hi with ⟨rfl, rfl⟩ | ⟨rfl, rfl⟩ | ⟨rfl, rfl⟩ | ⟨rfl, rfl⟩ | ⟨rfl, rfl⟩ | ⟨rfl, rfl⟩ | ⟨rfl, rfl⟩ | ⟨rfl, rfl⟩ <;> exact vec_wrote h rfl rfl
  · exact vec_wrote h rfl (map3_range (source_length h (by simp)) (source_length h (by simp)) (source_length h (by simp)))
  · obtain ⟨hl, hi⟩ := h
    refine Runs.ofM (f := fun _ => epiV k o) rfl hl ?_
    rw [epiV, withOp_issues _ hi]
    exact ⟨_, entered_of (g := fun x => { x with epi := some o }) (canIssue_some hi).1 rfl rfl, rfl⟩

/-! ### O19 -/

/-- The two truth values have codes of their own. -/
theorem truthCode_true_ne : truthCode true ≠ truthCode false := by
  unfold truthCode
  dsimp only
  rw [if_pos rfl, if_neg Bool.false_ne_true]
  split
  · omega
  · rename_i h; exact h

theorem isTrue_truthCode (b : Bool) : isTrue (truthCode b) = b := by
  unfold isTrue
  cases b with
  | true => exact if_pos rfl
  | false => rw [if_neg truthCode_true_ne.symm, if_pos rfl]

/-- An operation that may run and writes FP32 codes. -/
theorem vOp_wrote {i : Instr} {s : State} {k n : Nat} {x : Core} {u : TileCmd} {len : Aff} {lenOk : Nat → Bool} {places : Nat → List (Bool × Nat × Nat × VLoc)}
    {uses codes : List Nat} {f : Nat → TileCmd → Core → Core} {g : Mach → Mach} {d : VLoc} (hi : exec i s = s.runM fun _ => g)
    (hg : g s.q = vOp k len lenOk places uses f s.q) (h : vReady s k x u len n (places n)) (hl : lenOk n = true) (hf : f n u x = vPut u d 0xC noZp codes x)
    (hd : ((places n).any fun p => p.1 && p.2.2.2 = .drain) = (d == .drain)) : Runs i s fun t => vWrote k d u codes s t x uses := by
  refine Runs.ofM hi h.1.1 ?_
  rw [hg, vOp_ready h hl, hd]
  refine ⟨_, entered_of (canIssue_some h.1.2).1 (by rw [hf, vPut_slots]) (by rw [hf, vPut_begun]), ?_, ?_⟩
  · rw [hf]; exact lands ..
  · rw [hf]; exact vPut_clip ..

/-- Settles O19: comparison, selection and table look-up. -/
theorem compareSelectAndTable : Obligations.CompareSelectAndTable := by
  unfold Obligations.CompareSelectAndTable
  refine ⟨isTrue_truthCode, fun s k x u q d a b l n h => ?_, fun s k x u d c a b l n h => ?_, fun s k x u j d a l n h ht => ?_⟩
  · have hcodes := map2_range (f := fun v w => truthCode (cmpF q v w)) (source_length h (a := a) (by simp)) (source_length h (a := b) (by simp))
    obtain ⟨t, ht, hw⟩ := vec_wrote (i := .vcmp k q d a b l) h rfl hcodes
    exact ⟨t, ht, _, hw, by simp, fun i hi => by rw [nth_map_range _ hi, isTrue_truthCode]⟩
  · have hcodes := map3_range (f := fun q v w => if isTrue q then v else w) (source_length h (a := c) (by simp)) (source_length h (a := a) (by simp))
      (source_length h (a := b) (by simp))
    obtain ⟨t, ht, hw⟩ := vec_wrote (i := .vsel k d c a b l) h rfl hcodes
    exact ⟨t, ht, _, hw, by simp, fun i hi => nth_map_range _ hi⟩
  · refine vOp_wrote (g := vtabV k j d a l) (lenOk := fun _ => true)
      (f := fun n t x' => vPut t d 0xC noZp (map1 (userTable ((mget x.tables j).getD [])) ([a].map (vGet x' t 0xC noZp 0 n))) x') rfl ?_ h rfl rfl (places_dr d [a] n)
    rw [vtabV, withOp_issues _ h.1.2]
    dsimp only
    rw [ht]; rfl

/-! ### O20 -/

theorem redLen_of {n : Nat} (h1 : 1 ≤ n) (h2 : n ≤ 65536) : redLen n = true := by simp [redLen, h1, h2]

theorem redLen_out {n : Nat} (h : n = 0 ∨ 65536 < n) : redLen n = false := by
  simp [redLen]; omega

/-- A vector of a length the operation does not take ends its tile-command. -/
theorem vOp_short {s : State} {k : Nat} {x : Core} {u : TileCmd} {len : Aff} {lenOk : Nat → Bool} {places : Nat → List (Bool × Nat × Nat × VLoc)}
    {uses : List Nat} {f : Nat → TileCmd → Core → Core} (h : issues k 5 s x u) (hl : lenOk (affN x u len) = false) :
    vOp k len lenOk places uses f s.q = endTile k stParamRange (paramSlot len.c) s.q := by
  rw [vOp, withOp_issues _ h.2]
  dsimp only
  rw [hl]; rfl

/-- Where codes land does not depend on the clip events counted. -/
theorem Lands.clip {u : TileCmd} {fmt : Nat} {z : Nat → Nat} {codes : List Nat} {x y : Core} {d : VLoc} (h : Lands u fmt z codes x y d) (n : Nat) :
    Lands u fmt z codes x { y with clip := n } d := by
  cases d with
  | reg r =>
    obtain ⟨hy, hin, hout⟩ := h
    exact ⟨congrArg (fun y : Core => { y with clip := n }) hy, hin, hout⟩
  | win back off =>
    obtain ⟨hy, hhalf, hbytes⟩ := h
    exact ⟨congrArg (fun y : Core => { y with clip := n }) hy, hhalf, hbytes⟩
  | drain => exact congrArg (fun y : Core => { y with clip := n }) h

section
variable {s : State} {k n df sf cb : Nat} {x : Core} {u : TileCmd} {d a : VLoc} {g : Grain} {z : ZpGrain} {l : Aff}

theorem vcvtV_refused (h : issues k 5 s x u) (hf : 0xC < df ∨ 0xE < sf) : vcvtV k d df a sf g z cb l s.q = endTile k stMalformed 8 s.q := by
  rw [vcvtV, withOp_issues _ h.2]
  exact if_pos (by simpa using hf)

/-- The elements VCVT converts, each with whether it clips. -/
def cvtAll (x : Core) (u : TileCmd) (a : VLoc) (df sf cb n : Nat) (g : Grain) (z : ZpGrain) : List (Nat × Bool) :=
  (vGet x u sf (fun i => zpGrainVal x u sf n 0 i z) (cb % 4) n a).zipIdx.map fun p => cvtOne df (zpGrainVal x u df n 0 p.2 z) (scaleAt x u g p.2) p.1

/-- What VCVT leaves in its core. -/
def cvtCore (u : TileCmd) (d a : VLoc) (df sf cb n : Nat) (g : Grain) (z : ZpGrain) (x : Core) : Core :=
  addClips ((cvtAll x u a df sf cb n g z).filter (·.2)).length (vPut u d df (fun i => zpGrainVal x u df n 0 i z) ((cvtAll x u a df sf cb n g z).map (·.1)) x)

theorem slots_cvtCore : (cvtCore u d a df sf cb n g z x).slots = x.slots := by rw [cvtCore, addClips, vPut_slots]
theorem begun_cvtCore : (cvtCore u d a df sf cb n g z x).begun = x.begun := by rw [cvtCore, addClips, vPut_begun]
theorem clip_cvtCore : (cvtCore u d a df sf cb n g z x).clip = min (x.clip + ((cvtAll x u a df sf cb n g z).filter (·.2)).length) (2 ^ 32 - 1) := by
  unfold cvtCore addClips
  rw [vPut_clip]

/-- The converted codes stand at their destination. -/
theorem lands_cvtCore (sl : List (List OpRec)) (bg : List (Nat × Nat)) :
    Lands u df (fun i => zpGrainVal x u df n 0 i z) ((cvtAll x u a df sf cb n g z).map (·.1)) x { cvtCore u d a df sf cb n g z x with slots := sl, begun := bg } d :=
  (lands u df (fun i => zpGrainVal x u df n 0 i z) ((cvtAll x u a df sf cb n g z).map (·.1)) x d sl bg).clip _

theorem vcvtV_ready (h : vReady s k x u l n [(true, df, n, d), (false, sf, n, a)]) (hd : df ≤ 0xC) (hs : sf ≤ 0xE)
    (hg : grainBad x u 1 n 4 g = false) (hzs : zpGrainBad x u sf 1 n z = false) (hzd : zpGrainBad x u df 1 n z = false) :
    vcvtV k d df a sf g z cb l s.q = pushOp k 5 [] [] (d == .drain) (coreUpd k (cvtCore u d a df sf cb n g z) s.q) := by
  have hready := h
  obtain ⟨⟨-, hi⟩, hn, -⟩ := h
  rw [vcvtV, withOp_issues _ hi]
  dsimp only
  rw [hn, if_neg (by simp [hd, hs]), hg, hzs, hzd, if_neg (by decide), vOp_ready (places := fun n => [(true, df, n, d), (false, sf, n, a)]) hready rfl]
  have hdr : ([(true, df, n, d), (false, sf, n, a)].any fun p : Bool × Nat × Nat × VLoc => p.1 && p.2.2.2 = .drain) = (d == .drain) := by
    cases d <;> simp
  rw [hdr]; rfl

end

/-- Settles O20: conversions, reductions, softmax and normalisation. -/
theorem conversionsAndReductions : Obligations.ConversionsAndReductions := by
  unfold Obligations.ConversionsAndReductions
  refine ⟨fun s k x u d df a sf g z cb l n h hd hs hg hzs hzd => ?_, fun s k x u d df a sf g z cb l h hf => ?_, fun s k x u r d a l n h h1 h2 => ?_,
    fun s k x u d a l n h h1 h2 => ?_, fun s k x u r d a g b e l n h h1 h2 he => ?_, fun s k x u d a l r h hn => ⟨?_, ?_⟩⟩
  · refine Runs.ofM (f := fun _ => vcvtV k d df a sf g z cb l) rfl h.1.1 ?_
    rw [vcvtV_ready h hd hs hg hzs hzd]
    exact ⟨_, entered_of (canIssue_some h.1.2).1 slots_cvtCore begun_cvtCore, lands_cvtCore _ _, clip_cvtCore⟩
  · refine Runs.ofM (f := fun _ => vcvtV k d df a sf g z cb l) rfl h.1 ?_
    exact vcvtV_refused h hf
  · exact vOp_wrote (g := vredV k r d a l) rfl rfl h (redLen_of h1 h2) rfl (by cases d <;> simp)
  · exact vOp_wrote (g := vsoftmaxV k d a l) rfl rfl h (redLen_of h1 h2) rfl (places_dr d [a] n)
  · refine vOp_wrote (g := vnormV k r d a g b e l) (lenOk := redLen)
      (f := fun n t x => vPut t d 0xC noZp (normF r (vGet x t 0xC noZp 0 n a) (vGet x t 0xC noZp 0 n g) (vGet x t 0xC noZp 0 n b) (opnd t e)) x) rfl ?_ h (redLen_of h1 h2) rfl (places_dr d [a, g, b] n)
    rw [vnormV, withOp_issues _ h.1.2, he]; rfl
  · have he : vredV k r d a l s.q = endTile k stParamRange (paramSlot l.c) s.q := vOp_short h (redLen_out hn)
    exact Runs.ofM (f := fun _ => vredV k r d a l) rfl h.1 he
  · have he : vsoftmaxV k d a l s.q = endTile k stParamRange (paramSlot l.c) s.q := vOp_short h (redLen_out hn)
    exact Runs.ofM (f := fun _ => vsoftmaxV k d a l) rfl h.1 he

end Sys2Proof.Machine
end

section
/-! SUPPORT. The optimiser step and the Window Unit: O21 (R100 to R102, R116 to R120). -/

namespace Sys2Proof.Machine
open Sys2Proof

/-! ### What the optimiser step touches -/

/-- Nothing of a core but its data and its count of clip events has changed. -/
def DataOnly (x y : Core) : Prop := y = { x with half0 := y.half0, half1 := y.half1, vregs := y.vregs, clip := y.clip }

namespace DataOnly
variable {x y z : Core}

theorem refl (x : Core) : DataOnly x x := rfl

theorem trans (h : DataOnly x y) (k : DataOnly y z) : DataOnly x z :=
  Eq.trans k (congrArg (fun y : Core => { y with half0 := z.half0, half1 := z.half1, vregs := z.vregs, clip := z.clip }) h)

theorem slots (h : DataOnly x y) : y.slots = x.slots := (congrArg Core.slots h :)
theorem begun (h : DataOnly x y) : y.begun = x.begun := (congrArg Core.begun h :)

theorem entered (h : DataOnly x y) (sl : List (List OpRec)) (bg : List (Nat × Nat)) :
    ({ y with slots := sl, begun := bg } : Core) = { x with half0 := y.half0, half1 := y.half1, vregs := y.vregs, clip := y.clip, slots := sl, begun := bg } :=
  congrArg (fun y : Core => { y with slots := sl, begun := bg }) h

theorem addClips (n : Nat) (x : Core) : DataOnly x (addClips n x) := rfl

theorem vPut (u : TileCmd) {d : VLoc} (fmt : Nat) (z : Nat → Nat) (codes : List Nat) (x : Core) (h : d ≠ .drain) : DataOnly x (vPut u d fmt z codes x) := by
  cases d with
  | reg r => rfl
  | win back off =>
    unfold Machine.vPut
    dsimp only
    split <;> rfl
  | drain => exact absurd rfl h

theorem vPutKept (u : TileCmd) {d : VLoc} (fmt : Nat) (vs : List (Nat × Bool)) (x : Core) (h : d ≠ .drain) : DataOnly x (vPutKept u d fmt vs x) := by
  cases d with
  | reg r => rfl
  | win back off => exact vPut u fmt (fun _ => 0) _ x h
  | drain => exact absurd rfl h

theorem momentPut (u : TileCmd) (narrow : Bool) {d : VLoc} (sc : VLoc) (vs : List (Nat × Bool)) (x : Core) (h : d ≠ .drain) :
    DataOnly x (momentPut u narrow d sc vs x) := by
  have hput (fmt : Nat) (ws : List (Nat × Bool)) (n : Nat) : DataOnly x (Machine.addClips n (Machine.vPutKept u d fmt ws x)) :=
    (vPutKept u fmt ws x h).trans (addClips n _)
  unfold Machine.momentPut
  split
  · exact vPutKept u 0xC vs x h
  · dsimp only
    cases sc with
    | reg r => exact hput _ _ _
    | drain => exact hput _ _ _
    | win back off =>
      dsimp only
      split
      · exact (hput _ _ _).trans rfl
      · exact (hput _ _ _).trans rfl

theorem voptCore (o : OptOp) (r : List (Nat × Nat × Nat × Bool)) (u : TileCmd) (x : Core) (hw : o.w ≠ .drain) (hm : o.m ≠ .drain)
    (hv : o.adamw = true → o.v ≠ .drain) : DataOnly x (voptCore o r u x) := by
  have hput (a : List (Nat × Bool)) (n : Nat) (b : List (Nat × Bool)) : DataOnly x (Machine.momentPut u o.mNarrow o.m o.mScale b
      (Machine.addClips n (Machine.vPutKept u o.w o.wFmt a x))) :=
    ((vPutKept u o.wFmt a x hw).trans (addClips n _)).trans (momentPut u o.mNarrow o.mScale b _ hm)
  unfold Machine.voptCore
  dsimp only
  split
  · rename_i ha
    exact (hput _ _ _).trans (momentPut u o.vNarrow o.vScale _ _ (hv ha))
  · exact hput _ _ _

end DataOnly

/-- A source that can hold elements is no DRAIN. -/
theorem ne_drain {x : Core} {u : TileCmd} {fmt n : Nat} {l : VLoc} (h : locBad x u false fmt n l = false) : l ≠ .drain := by
  rintro rfl; simp [locBad] at h

/-- The places of an optimiser step are sources: it writes no result. -/
theorem voptPlaces_source (o : OptOp) (n : Nat) : ∀ p ∈ voptPlaces o n, p.1 = false := by
  have hone (b : Bool) (l sc : VLoc) : ∀ p ∈ ((false, if b then 8 else 0xC, n, l) :: if b then [(false, 2, cdiv n 32, sc)] else [] : List (Bool × Nat × Nat × VLoc)), p.1 = false := by
    cases b <;> simp
  intro p hp
  unfold voptPlaces at hp
  simp only [List.mem_append] at hp
  rcases hp with (hp | hp) | hp
  · simp at hp; rcases hp with rfl | rfl <;> rfl
  · exact hone _ _ _ p hp
  · split at hp
    · exact hone _ _ _ p hp
    · simp at hp

theorem voptCore_of {s : State} {k n : Nat} {x : Core} {u : TileCmd} {l : Aff} {o : OptOp} (h : vReady s k x u l n (voptPlaces o n))
    (r : List (Nat × Nat × Nat × Bool)) : DataOnly x (voptCore o r u x) := by
  obtain ⟨-, -, hb, -⟩ := h
  refine DataOnly.voptCore o r u x (ne_drain (hb (false, o.wFmt, n, o.w) ?_)) (ne_drain (hb (false, if o.mNarrow then 8 else 0xC, n, o.m) ?_))
    fun ha => ne_drain (hb (false, if o.vNarrow then 8 else 0xC, n, o.v) ?_)
  · simp [voptPlaces]
  · simp [voptPlaces]
  · simp [voptPlaces, ha]

/-- An element whose gradient is not finite keeps what it has (R102). -/
theorem optStep_kept {aw : Bool} {c : OptScalars} {w g m v : Nat} (h : (optStep aw c w g m v).2.2.2 = true) : optStep aw c w g m v = (w, m, v, true) := by
  unfold optStep at h ⊢
  dsimp only at h ⊢
  split
  · rfl
  · rename_i hf
    rw [if_neg hf] at h
    cases aw <;> cases h

/-! ### The Window Unit -/

theorem slots_epilogue (u : TileCmd) (tc : Option Nat) (a : Bool) (rows : List (List Nat)) (x : Core) : (epilogue u tc a rows x).slots = x.slots := by
  unfold epilogue addClips; dsimp only; split <;> rfl
theorem begun_epilogue (u : TileCmd) (tc : Option Nat) (a : Bool) (rows : List (List Nat)) (x : Core) : (epilogue u tc a rows x).begun = x.begun := by
  unfold epilogue addClips; dsimp only; split <;> rfl

section
variable {i : Instr} {s : State} {k : Nat} {x : Core} {u : TileCmd} {p : Tmpl} {e : ElemSrc} {w : WinBlk} {fits empty : Geo → Bool} {more : Core → TileCmd → Geo → Bool}
  {f : Core → TileCmd → UnitIn → List (List Nat)} {g : Geo} {rows : List (List Nat)}

/-- A Window Unit word whose checks pass sends its rows through the epilogue. -/
theorem unitOp_wrote (hi : exec i s = s.runM fun _ => unitOp k p e fits empty more f) (h : wReady s k x u p e w) (hg : g = sdGeo (sdOf x u p) w)
    (hfits : fits g = true) (hmore : more x u g = false) (hempty : empty g = false) (hrows : f x u ⟨sdOf x u p, g, e⟩ = rows)
    (hepi : epiBad x u (x.epi.getD {}) rows.length g.cw = false) : Runs i s fun t => wWrote k u rows s t x := by
  subst hg
  obtain ⟨⟨hl, hi'⟩, hsd, he0, hwin, hres, hout, helem, hzp⟩ := h
  refine Runs.ofM hi hl ?_
  have hop : unitOp k p e fits empty more f s.q = pushOp k 5 [] (epiUses x) true (coreUpd k (epilogue u none false rows) s.q) := by
    rw [unitOp, withOp_issues _ hi']
    dsimp only
    rw [hsd, he0, hout, hwin, show firstFail [none, none, if false = true then some (stMalformed, 0) else none] = none from rfl]
    dsimp only
    rw [hfits, hmore, helem, hzp, if_neg (by decide), hempty, if_neg (by decide), hres, if_neg (by decide), hrows, hepi, if_neg (by decide)]
  rw [hop]
  exact ⟨_, entered_of (canIssue_some hi').1 (slots_epilogue ..) (begun_epilogue ..), rfl⟩

end

/-- Settles O21: the optimiser step and the four words of the Window Unit. -/
theorem optimiserAndWindowUnit : Obligations.OptimiserAndWindowUnit := by
  unfold Obligations.OptimiserAndWindowUnit
  refine ⟨⟨fun s k x u aw w wb g gf gz gc m v mn vn ms vs fs l n o ho h => ?_, fun aw c w g m v h => optStep_kept h⟩,
    fun s k x u p e w i g h hg hs hb he hepi => ?_, fun s k x u p e w i c g h hg hs hb he hepi => ?_, fun s k x u p e w q g h hg hs he hepi => ?_,
    fun s k x u p e w q g h hg hr hn hepi => ?_, fun u rows x => ⟨_, rfl, rfl, by simp⟩⟩
  · have hop : voptV k o fs l s.q = pushOp k 5 [] [] false (coreUpd k (fun x' => voptCore o (voptSteps o fs n u x') u x') s.q) := by
      have hdr : ((voptPlaces o n).any fun p => p.1 && p.2.2.2 = .drain) = false := by
        rw [List.any_eq_false]; intro p hp; simp [voptPlaces_source o n p hp]
      rw [voptV, vOp_ready h rfl, hdr]
    have hdata := voptCore_of h (voptSteps o fs n u x)
    subst ho
    refine Runs.ofM (f := fun _ => voptV k _ fs l) rfl h.1.1 ?_
    rw [hop]
    exact ⟨_, entered_of (canIssue_some h.1.2).1 hdata.slots hdata.begun, hdata.entered _ _, rfl⟩
  · exact unitOp_wrote rfl h hg hs hb he rfl (by rw [show (unitSums x u (sdOf x u p) g e 1 i).length = outPositions g by simp [unitSums]]; exact hepi)
  · exact unitOp_wrote rfl h hg hs hb he rfl (by rw [show (unitSums x u (sdOf x u p) g e c i).length = outPositions g by simp [unitSums]]; exact hepi)
  · exact unitOp_wrote rfl h hg hs rfl he rfl (by rw [show (unitPool x u q (sdOf x u p) g e).length = outPositions g by simp [unitPool]]; exact hepi)
  · refine unitOp_wrote rfl h hg ?_ rfl rfl rfl (by rw [show (globalPool x u q (sdOf x u p) g e).length = g.b - g.m0 by simp [globalPool]]; exact hepi)
    rw [hr, decide_eq_true hn]; rfl

end Sys2Proof.Machine
end

section
/-! SUPPORT. The sequencer of a kernel core and its C and P slots: O10 and O11 (R122 to R126, R131, R134, R135, R144 to R148, R156, R157, R475). -/

namespace Sys2Proof.Machine
open Sys2Proof

/-! ### Words that are held back (R123) -/

/-- An operation whose slot's queue is full is held back, whatever it would do. -/
theorem withOp_full {k l : Nat} {m : Mach} {x : Core} {u : TileCmd} (f : Core → TileCmd → Mach → Mach) (hi : issuing m k = some (x, u)) (hw : x.waiting = none)
    (hf : slotFull x l = true) : withOp k l f m = setWait k (some (0x200 + l)) m := by
  obtain ⟨hx, htc, he, hp⟩ := issuing_some hi
  have hun : unhold k l m = setWait k (some (0x200 + l)) m := by
    unfold unhold
    rw [hi]
    dsimp only
    rw [hw, hf]; rfl
  have hcan : canIssue (setWait k (some (0x200 + l)) m) k l = none := by
    have hx' : (setWait k (some (0x200 + l)) m).cores[k]? = some { x with waiting := some (0x200 + l) } := by
      show (lupd m.cores k _)[k]? = _
      rw [lupd_get, hx]; rfl
    unfold canIssue issuing
    rw [hx']
    dsimp only
    rw [htc, Option.bind_some, Option.bind_eq_none_iff]
    intro p hp
    split at hp
    · cases hp
    · cases hp; rfl
  unfold withOp
  rw [hun, hcan]

/-- A word runs an operation when it may issue. -/
def IsOp (k l : Nat) (g : Mach → Mach) : Prop := ∃ f, g = withOp k l f

theorem isOp_latchOp (k l : Nat) (r : Role) (src : Tmpl) (st : Option Nat) (taken : Core → Bool) (f : Sd → Core → Core) : IsOp k l (latchOp k l r src st taken f) := ⟨_, rfl⟩
theorem isOp_copyOp (c : Cfg) (k l : Nat) (r : Role) (src dst : Tmpl) (st : Option Nat) : IsOp k l (copyOp c k l r src dst st) := ⟨_, rfl⟩
theorem isOp_loadOp (c : Cfg) (k n : Nat) (r : Role) (src : Tmpl) (st : Option Nat) (go : Core → Bool) (more : Core → TileCmd → Option (Nat × Nat))
    (f : TileCmd → Sd → List Byte → Core → Core) : IsOp k 3 (loadOp c k n r src st go more f) := ⟨_, rfl⟩
theorem isOp_vOp (k : Nat) (len : Aff) (lenOk : Nat → Bool) (places : Nat → List (Bool × Nat × Nat × VLoc)) (uses : List Nat) (f : Nat → TileCmd → Core → Core) :
    IsOp k 5 (vOp k len lenOk places uses f) := ⟨_, rfl⟩
theorem isOp_unitOp (k : Nat) (src : Tmpl) (e : ElemSrc) (fits empty : Geo → Bool) (more : Core → TileCmd → Geo → Bool) (f : Core → TileCmd → UnitIn → List (List Nat)) :
    IsOp k 5 (unitOp k src e fits empty more f) := ⟨_, rfl⟩

/-- Every word with an operation of the V slot runs it when it may issue, and is held back otherwise. -/
theorem exec_of_vSlot {i : Instr} {k : Nat} (h : wordSlot i = some (k, 5)) : ∃ g : Cfg → Mach → Mach, (∀ s, exec i s = s.runM g) ∧ ∀ c, IsOp k 5 (g c) := by
  cases i
  case fetch =>
    rw [wordSlot, Option.ite_none_right_eq_some] at h
    obtain ⟨hu, h⟩ := h
    cases h
    contradiction
  case codebook | table =>
    rw [wordSlot, Option.ite_none_right_eq_some] at h
    cases h.2
  case wdw | wgrp | wpool | wgpool => cases h; exact ⟨_, fun _ => rfl, fun _ => isOp_unitOp ..⟩
  case epi | vcvt | vtab | vnorm => cases h; exact ⟨_, fun _ => rfl, fun _ => ⟨_, rfl⟩⟩
  all_goals cases h
  all_goals exact ⟨_, fun _ => rfl, fun _ => isOp_vOp ..⟩

/-- Every word with an operation of an S slot or of the M slot does too. -/
theorem exec_of_sSlot {i : Instr} {k l : Nat} (h : wordSlot i = some (k, l)) (hl : l ≠ 5) : ∃ g : Cfg → Mach → Mach, (∀ s, exec i s = s.runM g) ∧ ∀ c, IsOp k l (g c) := by
  cases i
  case fetch core unit src dst st =>
    rw [wordSlot, Option.ite_none_right_eq_some] at h
    obtain ⟨hu, h⟩ := h
    cases h
    have he : fetchS k l src dst st = fun c => copyOp c k l roleSrc src dst st := funext fun c => funext fun m => if_neg (Nat.not_le.2 hu)
    exact ⟨_, fun s => congrArg s.runM he, fun _ => isOp_copyOp ..⟩
  case codebook core slot size src st =>
    rw [wordSlot, Option.ite_none_right_eq_some] at h
    obtain ⟨hu, h⟩ := h
    cases h
    simp only [Bool.and_eq_true, decide_eq_true_eq, Bool.or_eq_true, beq_iff_eq] at hu
    have he : codebookS k slot size src st = fun c => loadOp c k (loadCount src 2 (2 * size)) (roleWords 0xB) src st (fun _ => true) (fun _ _ => none)
        (fun _ _ l x => { x with codebooks := (List.range size).foldl (fun b i => mset b (256 * slot + i) (leAt l (2 * i) 2)) x.codebooks }) := by
      refine funext fun c => funext fun m => if_neg ?_
      simp only [Bool.or_eq_true, Bool.and_eq_true, decide_eq_true_eq]
      omega
    exact ⟨_, fun s => congrArg s.runM he, fun _ => isOp_loadOp ..⟩
  case table core slot src st =>
    rw [wordSlot, Option.ite_none_right_eq_some] at h
    obtain ⟨hu, h⟩ := h
    cases h
    have he : tableS k slot src st = fun c => loadOp c k (loadCount src 4 1036) (roleWords 0xC) src st (fun x => !tableUsed x slot) (fun _ _ => none)
        (fun _ _ l x => { x with tables := mset x.tables slot l }) := funext fun c => funext fun m => if_neg (Nat.not_le.2 hu)
    exact ⟨_, fun s => congrArg s.runM he, fun _ => isOp_loadOp ..⟩
  case stat | move => cases h; exact ⟨_, fun _ => rfl, fun _ => isOp_latchOp ..⟩
  case put => cases h; exact ⟨_, fun _ => rfl, fun _ => isOp_copyOp ..⟩
  case wstore => cases h; exact ⟨_, fun _ => rfl, fun c => by unfold wstoreS; exact isOp_loadOp ..⟩
  case drain | side | mma => cases h; exact ⟨_, fun _ => rfl, fun _ => ⟨_, rfl⟩⟩
  all_goals cases h
  all_goals exact absurd rfl hl

theorem exec_of_wordSlot {i : Instr} {k l : Nat} (h : wordSlot i = some (k, l)) : ∃ g : Cfg → Mach → Mach, (∀ s, exec i s = s.runM g) ∧ ∀ c, IsOp k l (g c) := by
  by_cases hl : l = 5
  · subst hl; exact exec_of_vSlot h
  · exact exec_of_sSlot h hl

/-! ### The C slot -/

/-- A word of the C or P slot that changes its core alone. -/
theorem Runs.word {i : Instr} {s : State} {k : Nat} {x : Core} {u : TileCmd} {f : Core → TileCmd → Mach → Mach} {g : Core → Core} {P : State → Prop}
    (h : issues k 6 s x u) (hi : exec i s = s.runM fun _ => withOp k 6 f) (hf : f x u s.q = coreUpd k g s.q)
    (hp : ∀ t, onlyCore k s t → t.m.cores[k]? = some (g x) → P t) : Runs i s P :=
  Runs.core hi h.1 (canIssue_some h.2).1 ((withOp_issues f h.2).trans hf) hp

theorem not_4_le {l : Nat} (h : l < 4) {x : Core} (hm : mhas x.loops l = false) : (4 ≤ l || mhas x.loops l) = false := by
  rw [hm, Bool.or_false, decide_eq_false (Nat.not_le.2 h)]

theorem condMet_iff (b : Cond) (i n : Nat) : condMet b i n = true ↔
    ((b = .first ∧ i = 0) ∨ (b = .last ∧ i + 1 = n) ∨ (b = .notFirst ∧ i ≠ 0) ∨ (b = .notLast ∧ i + 1 ≠ n)) := by
  cases b <;> simp [condMet]

/-- A core whose tile-command has ended issues no word. -/
theorem canIssue_ended {m : Mach} {k : Nat} {x : Core} {u : TileCmd} (hx : m.cores[k]? = some x) (hu : x.tc = some u) (he : u.ended = true) (l : Nat) :
    canIssue m k l = none := by
  unfold canIssue issuing
  rw [hx]
  dsimp only
  rw [hu, Option.bind_some, he]; rfl

/-- The halves change places. -/
theorem winHalf_swap (x : Core) (p : Option Nat) (b : Bool) : winHalf { x with front := 1 - x.front, pc := p } b = winHalf x (!b) := by
  unfold winHalf halfAt
  dsimp only
  have h : ((1 - x.front == 0) != b) = ((x.front == 0) != !b) := by
    cases hf : x.front with
    | zero => cases b <;> rfl
    | succ n => cases b <;> simp
  rw [h]

/-- Settles O10: loops, branches, SWAP, END and NOP, and a word whose slot's queue is full. -/
theorem sequencerWords : Obligations.SequencerWords := by
  unfold Obligations.SequencerWords
  refine ⟨⟨fun s k x u l n e h hl hm h0 => ?_, fun s k x u l n e h hl hm h0 => ?_, fun s k x u l i n e h hm hn => ?_, fun s k x u l i n e h hm hn => ?_,
      fun s k x u l i n b e h hm => ?_⟩,
    fun i s k l x u hw hl hi hwait hf => ?_, fun s k x u h => ?_, fun s k x u h => ?_, fun s k x u h => ?_⟩
  · refine Runs.word (g := fun x => { x with pc := some (e + 1) }) h rfl ?_ fun t ho hy => ⟨ho, hy⟩
    rw [not_4_le hl hm, if_neg (by decide), if_pos h0]
  · refine Runs.word (g := fun x => { x with loops := mset x.loops l (0, opnd u n), pc := none }) h rfl ?_
      fun t ho hy => ⟨ho, _, hy, rfl, mget_mset .., fun j hj => mget_mset_ne _ _ hj⟩
    rw [not_4_le hl hm, if_neg (by decide), if_neg h0]
  · refine Runs.word (g := fun x => { x with loops := mset x.loops l (i + 1, n), pc := some e }) h rfl ?_
      fun t ho hy => ⟨ho, _, hy, rfl, mget_mset .., fun j hj => mget_mset_ne _ _ hj⟩
    rw [hm]
    exact congrFun (if_pos hn) _
  · refine Runs.word (g := fun x => { x with loops := mdel x.loops l, pc := none }) h rfl ?_
      fun t ho hy => ⟨ho, _, hy, rfl, mget_mdel .., fun j hj => mget_mdel_ne _ hj⟩
    rw [hm]
    exact congrFun (if_neg (Nat.not_lt.2 hn)) _
  · refine Runs.word (g := fun x => { x with pc := if condMet b i n then some e else none }) h rfl (by rw [hm]) fun t ho hy => ⟨ho, hy.trans ?_⟩
    simp only [condMet_iff]
  · obtain ⟨g, hexec, hop⟩ := exec_of_wordSlot hw
    obtain ⟨f, hg⟩ := hop s.c
    exact Runs.core (f := fun x => { x with waiting := some (0x200 + l) }) (hexec s) hl (issuing_some hi).1 (by rw [hg, withOp_full f hi hwait hf]; rfl) fun t ho hy => ⟨ho, hy⟩
  · exact Runs.word (g := fun x => { x with front := 1 - x.front, pc := none }) h rfl rfl
      fun t ho hy => ⟨ho, _, hy, rfl, winHalf_swap x none false, winHalf_swap x none true⟩
  · refine Runs.word (g := fun x => { x with tc := x.tc.map fun t => { t with ended := true }, pc := none }) h rfl rfl fun t ho hy => ?_
    obtain ⟨-, htc, -⟩ := canIssue_some h.2
    rw [htc] at hy
    exact ⟨ho, hy, canIssue_ended hy rfl rfl⟩
  · exact Runs.word (g := fun x => { x with pc := none }) h rfl rfl fun t ho hy => ⟨ho, hy⟩

/-! ### ENQUEUE -/

/-- Nothing but the word itself holds words back. -/
theorem waits_no_other {w : Nat} {x : Core} (hw : x.waiting = none ∨ x.waiting = some w) : x.waiting.any (· ≠ w) = false := by
  rcases hw with h | h <;> rw [h] <;> simp

section
variable {s : State} {k a n : Nat} {x : Core} {u : TileCmd} {b : Bool} {o : Aff} (hi : issuing s.q k = some (x, u)) (hw : x.waiting = none ∨ x.waiting = some 0x300)
include hi hw

theorem enqueueC_many (hn : 16 ≤ x.enqs.length) : enqueueC k a b o n s.c s.q = endTile k stParamRange 0xFFFF s.q := by
  unfold enqueueC
  rw [hi]
  dsimp only
  rw [waits_no_other hw, if_neg (by decide), if_pos hn]

variable (hn : x.enqs.length < 16) (ho : affN x u o % 2 ^ 64 + 128 * (if n = 256 then 2 else 1) ≤ 0x300000)
include hn ho

/-- An ENQUEUE within the reservations and the window of its tile-command goes by its target. -/
theorem enqueueC_eq : enqueueC k a b o n s.c s.q =
    if !targetOk (enqLoaded s u a) (qDom (enqLoaded s u a) u.q) (nth u.params a % 2 ^ 20) then endTile k stPermission 0 (enqLoaded s u a)
    else if ((qGet (enqLoaded s u a) (nth u.params a % 2 ^ 20)).map ringFree).getD 0 < (if n = 256 then 2 else 1) then setWait k (some 0x300) (enqLoaded s u a)
    else reserveC k (nth u.params a % 2 ^ 20) (if n = 256 then 2 else 1) (if b then 1 - x.front else x.front) (affN x u o % 2 ^ 64) (enqLoaded s u a) := by
  unfold enqueueC
  rw [hi]
  dsimp only
  rw [waits_no_other hw, if_neg (by decide), if_neg (Nat.not_le.2 hn), if_neg (Nat.not_lt.2 ho)]
  rfl

end

/-! ### WAIT and FENCE -/

theorem holdWord_holds {k w : Nat} {f : Mach → Core → TileCmd → Bool} {m : Mach} {x : Core} {u : TileCmd} (hi : issuing m k = some (x, u))
    (hw : x.waiting = none ∨ x.waiting = some w) : holdWord k w f m = coreUpd k (fun x' => { x' with waiting := if f m x u then none else some w }) m := by
  unfold holdWord
  rw [hi]
  dsimp only
  rw [waits_no_other hw]; rfl

/-- Settles O11: ENQUEUE, WAIT, FENCE and POST. -/
theorem enqueueWaitFenceAndPost : Obligations.EnqueueWaitFenceAndPost := by
  unfold Obligations.EnqueueWaitFenceAndPost
  refine ⟨⟨fun s k x u a b o n y z m1 hl hi hw hn ho hm ht hy hz => ⟨fun hfree => ?_, fun hfree => ?_⟩, fun s k x u a b o n m1 hl hi hw hn ho hm ht => ?_,
      fun s k x u a b o n hl hi hw hn => ?_⟩, fun s k x u r q hl hi hw => ?_, fun s k x u hl hi hw => ?_, fun s k x u r h hr => ?_, fun s k x u r h hr1 hr2 => ?_⟩
  · refine Runs.ofM (f := enqueueC k a b o n) rfl hl ?_
    dsimp only [State.m]
    rw [enqueueC_eq hi hw hn ho, ← hm, ht, if_neg (by decide), hy, Option.map_some, Option.getD_some, if_neg (Nat.not_lt.2 hfree)]
    refine ⟨?_, ?_, fun r hr => qGet_qUpd_ne hr _ _, fun j hj => lupd_get_ne _ _ hj, rfl⟩
    · show (lupd m1.cores k _)[k]? = _
      rw [lupd_get, hz]; rfl
    · show qGet (qUpd _ _ _) _ = _
      rw [qGet_qUpd]
      show (qGet m1 _).map _ = _
      rw [hy]; rfl
  · refine Runs.ofM (f := enqueueC k a b o n) rfl hl ?_
    dsimp only [State.m]
    rw [enqueueC_eq hi hw hn ho, ← hm, ht, if_neg (by decide), hy, Option.map_some, Option.getD_some, if_pos hfree]
  · refine Runs.ofM (f := enqueueC k a b o n) rfl hl ?_
    dsimp only [State.m]
    rw [enqueueC_eq hi hw hn ho, ← hm, ht]; rfl
  · exact Runs.ofM (f := enqueueC k a b o n) rfl hl (enqueueC_many hi hw hn)
  · refine Runs.core (g := fun _ => waitP k r q) rfl hl (issuing_some hi).1 (holdWord_holds hi hw) fun t ht hy => ⟨ht, hy.trans ?_⟩
    have hmod : affN x u q % 2 ^ 16 % 2 ^ 16 = affN x u q % 2 ^ 16 := Nat.mod_mod ..
    simp only [seqMet, subMod, decide_eq_true_eq, hmod]
  · refine Runs.core (g := fun _ => fenceP k) rfl hl (issuing_some hi).1 (holdWord_holds hi hw) fun t ht hy => ⟨ht, hy.trans ?_⟩
    simp only [Bool.and_eq_true, List.all_eq_true, decide_eq_true_eq]
  · refine Runs.word (g := fun x => { x with routes := mset x.routes r (((mget x.routes r).getD 0 + 1) % 2 ^ 16) }) h rfl (congrFun (if_pos hr) _)
      fun t ho hy => ⟨ho, _, hy, rfl, mget_mset .., fun j hj => mget_mset_ne _ _ hj⟩
  · refine Runs.word (g := fun x => { x with rings := mset x.rings (r - 0x38) ((mget x.rings (r - 0x38)).getD [] ++ [(0, [])]) }) h rfl ?_
      fun t ho hy => ⟨ho, _, hy, rfl, mget_mset .., fun j hj => mget_mset_ne _ _ hj⟩
    rw [if_neg (Nat.not_lt.2 hr1), if_pos hr2]

end Sys2Proof.Machine
end

section
/-! SUPPORT. Retirement of operations and post lines: O12 (R124, R145, R149 to R151, R157, R190). -/

namespace Sys2Proof.Machine
open Sys2Proof

/-! ### What a core's credits do not touch -/

section
variable {α : Type} (g : Core → α) (hg : ∀ x l, g { x with credits := l } = g x) (i : Nat)
include hg

theorem view_creditUpd (k u : Nat) (f : Nat → Nat) (m : Mach) : ((creditUpd k u f m).cores[i]?).map g = (m.cores[i]?).map g := by
  show ((lupd m.cores k _)[i]?).map g = _
  by_cases h : i = k
  · subst h
    rw [lupd_get, Option.map_map]
    exact Option.map_congr fun x _ => hg x _
  · rw [lupd_get_ne _ _ h]

theorem view_tookBytes (k n b : Nat) (m : Mach) : ((tookBytes k n b m).cores[i]?).map g = (m.cores[i]?).map g := by
  unfold tookBytes
  split
  · exact view_creditUpd g hg i _ _ _ m
  · rfl

theorem view_pump (m : Mach) : ((pump m).cores[i]?).map g = (m.cores[i]?).map g := by
  have hstand (r : Req) (m : Mach) : (stand r m).cores = m.cores := by unfold stand; split <;> rfl
  refine foldl_keeps (fun s : List Req × List (Nat × Nat) × Mach => (s.2.2.cores[i]?).map g) pumpOne (fun s r => ?_) m.arb.later ([], [], m)
  unfold pumpOne
  split
  · rfl
  · unfold issueReq
    dsimp only
    rw [hstand, view_creditUpd g hg i]

end

theorem pump_none {m : Mach} (h : m.arb.later = []) : pump m = m := by
  unfold pump
  rw [h]
  dsimp only [List.foldl_nil]
  rw [← h]

theorem view_coreUpd {α : Type} {g : Core → α} {f : Core → Core} (hf : ∀ x, g (f x) = g x) (i k : Nat) (m : Mach) :
    ((coreUpd k f m).cores[i]?).map g = (m.cores[i]?).map g := by
  show ((lupd m.cores k f)[i]?).map g = _
  by_cases h : i = k
  · subst h
    rw [lupd_get, Option.map_map]
    exact Option.map_congr fun x _ => hf x
  · rw [lupd_get_ne _ _ h]

theorem core_coreUpd (k : Nat) (f : Core → Core) (m : Mach) : (coreUpd k f m).cores[k]? = (m.cores[k]?).map f := lupd_get ..

theorem view_postRoute {α : Type} {g : Core → α} (hg : ∀ x l, g { x with routes := l } = g x) (i k r : Nat) (m : Mach) :
    ((postRoute k r m).cores[i]?).map g = (m.cores[i]?).map g := view_coreUpd (fun x => hg x _) i k m

/-! ### Retirement -/

/-- The core of stamps that have posted. -/
def stamped (l : List Nat) (x : Core) : Core := l.foldl (fun x r => { x with routes := mset x.routes r (((mget x.routes r).getD 0 + 1) % 2 ^ 16) }) x

theorem stamped_eq (l : List Nat) : ∀ x : Core, stamped l x = { x with routes := (stamped l x).routes } := by
  induction l with
  | nil => exact fun _ => rfl
  | cons r l ih => exact fun x => ih { x with routes := mset x.routes r (((mget x.routes r).getD 0 + 1) % 2 ^ 16) }

/-- One count for each stamp. -/
theorem routes_stamped (j : Nat) (l : List Nat) : ∀ x : Core, (mget (stamped l x).routes j).getD 0 % 65536 = ((mget x.routes j).getD 0 + l.count j) % 65536 := by
  induction l with
  | nil => exact fun _ => rfl
  | cons r l ih =>
    intro x
    refine (ih { x with routes := mset x.routes r (((mget x.routes r).getD 0 + 1) % 2 ^ 16) }).trans ?_
    dsimp only
    by_cases h : j = r
    · subst h
      rw [mget_mset, Option.getD_some, List.count_cons_self]
      omega
    · rw [mget_mset_ne _ _ h, List.count_cons_of_ne (Ne.symm h)]

theorem lupd_lupd {α : Type} (l : List α) (i : Nat) (f g : α → α) : lupd (lupd l i f) i g = lupd l i (fun x => g (f x)) := by
  refine List.ext_getElem? fun j => ?_
  by_cases h : j = i
  · subst h; simp only [lupd_get, Option.map_map]; rfl
  · rw [lupd_get_ne _ _ h, lupd_get_ne _ _ h, lupd_get_ne _ _ h]

theorem coreUpd_coreUpd (k : Nat) (f g : Core → Core) (m : Mach) : coreUpd k g (coreUpd k f m) = coreUpd k (fun x => g (f x)) m := by
  unfold coreUpd; rw [lupd_lupd]

theorem postRoutes_eq (k : Nat) (l : List Nat) : ∀ (f : Core → Core) (m : Mach),
    l.foldl (fun m r => postRoute k r m) (coreUpd k f m) = coreUpd k (fun x => stamped l (f x)) m := by
  induction l with
  | nil => exact fun _ _ => rfl
  | cons r l ih =>
    intro f m
    rw [List.foldl_cons, postRoute, coreUpd_coreUpd, ih]; rfl

/-- An operation that retires leaves its core's queues and posts its stamps. -/
theorem operationRetire_op {k l : Nat} {m : Mach} {x : Core} {r : OpRec} (hx : m.cores[k]? = some x) (ht : x.tc.isSome = true) (hr : headOp x l = some r)
    (hl : l = 4 ∨ l = 5 ∨ (l < 4 ∧ r.op ≠ 0 ∧ ∀ p ∈ x.slots.getD 4 [] ++ x.slots.getD 5 [], p.op ≠ r.op)) (hu : r.undrained = false)
    (hd : opDone m x r.op = true) (hp : partsReady x r.op = true) :
    operationRetire k l m = coreUpd k (fun x => stamped r.stamps { x with slots := x.slots.map fun q => q.filter (·.op ≠ r.op) }) m := by
  have h6 : l ≠ 6 := by omega
  have hpart : (decide (l < 4) && (decide (r.op = 0) || (x.slots.getD 4 [] ++ x.slots.getD 5 []).any (·.op = r.op))) = false := by
    rcases hl with rfl | rfl | ⟨-, h0, hm⟩
    · rfl
    · rfl
    · rw [decide_eq_false h0, Bool.false_or, Bool.and_eq_false_iff]
      exact .inr (List.any_eq_false.2 fun p hp => by simpa using hm p hp)
  unfold operationRetire
  rw [hx]
  dsimp only
  rw [Option.isNone_eq_false_iff.2 ht, if_neg (by decide), if_neg h6, hr]
  dsimp only
  rw [hpart, hu, hd, hp, if_neg (by decide), retireOp, postRoutes_eq]

/-- The next ENQUEUE reads its descriptor. -/
theorem readEnq_next (x : Core) {e : EnqRec} {b : List EnqRec} (he : e.bytes = none) (a : List EnqRec) : (∀ i ∈ a, i.bytes.isSome = true) →
    readEnq x (a ++ e :: b) = a ++ { e with bytes := some (bread (halfOf x e.half) e.off (128 * e.n)) } :: b := by
  induction a with
  | nil => intro _; rw [List.nil_append, readEnq, he]; rfl
  | cons i a ih =>
    intro h
    rw [List.cons_append, readEnq, if_pos (h i List.mem_cons_self), ih fun j hj => h j (List.mem_cons_of_mem _ hj)]; rfl

/-! ### Post lines -/

theorem producerOf_some {m : Mach} {k l j p : Nat} {d : List Byte} (h : producerOf m k l d = some (j, p)) : l < 8 ∧ ∃ y, m.cores[j]? = some y := by
  unfold producerOf at h
  split at h
  · cases h
  · rw [Option.ite_none_left_eq_some] at h
    obtain ⟨hc, h⟩ := h
    simp only [Bool.or_eq_true, not_or, decide_eq_true_eq, Nat.not_le] at hc
    refine ⟨hc.2, ?_⟩
    have hj := List.find?_some h
    dsimp only at hj
    split at hj
    · cases hj
    · rename_i hb
      obtain ⟨y, hy, -⟩ := Option.bind_eq_some_iff.1 hb
      exact ⟨y, hy⟩

/-- A block leaves its producer's line, whose credits return. -/
def lineLeft (j p n : Nat) (m : Mach) : Mach :=
  let op := (((m.cores[j]?).bind fun y => (mget y.rings (8 + p)).bind (·.head?)).map (·.1)).getD 0
  coreUpd j (fun y => { y with rings := mupd y.rings (8 + p) (·.drop 1) }) (if op = 0 then m else tookBytes j op n m)

/-- A block enters the consumer's ring. -/
def lineEntered (k l : Nat) (d : List Byte) (m : Mach) : Mach :=
  if d = [] then m else coreUpd k (fun y => { y with rings := mset y.rings l ((mget y.rings l).getD [] ++ [(0, d)]) }) m

theorem postLineAccept_eq {k l j p : Nat} {d : List Byte} {m : Mach} {x : Core} (hx : m.cores[k]? = some x) (hp : producerOf m k l d = some (j, p))
    (hd : d = [] ∨ ringUsed x l + 256 ≤ ringSize x l) :
    postLineAccept k l d m = pump (postRoute k (0x40 + l) (lineEntered k l d (lineLeft j p d.length m))) := by
  unfold postLineAccept
  rw [hx, hp]
  dsimp only
  rw [if_neg (by rcases hd with rfl | h <;> simp [*])]; rfl

section
variable {α : Type} {g : Core → α} (hg : ∀ x l, g { x with credits := l } = g x) (i j p n : Nat) (m : Mach)
include hg

theorem view_lineTaken (op : Nat) : ((if op = 0 then m else tookBytes j op n m).cores[i]?).map g = (m.cores[i]?).map g := by
  split
  · rfl
  · exact view_tookBytes g hg i j op n m

theorem view_lineLeft (hr : ∀ y : Core, g { y with rings := mupd y.rings (8 + p) (·.drop 1) } = g y) : ((lineLeft j p n m).cores[i]?).map g = (m.cores[i]?).map g :=
  (view_coreUpd hr i j _).trans (view_lineTaken hg i j n m _)

end

/-- A route and an inbound line of a core. -/
def lineView (l : Nat) (y : Core) : Option Nat × Option (List (Nat × List Byte)) := (mget y.routes (0x40 + l), mget y.rings l)

theorem lineView_lineEntered {k l : Nat} (d : List Byte) {m : Mach} {v : Option Nat × Option (List (Nat × List Byte))} (h : (m.cores[k]?).map (lineView l) = some v) :
    ((lineEntered k l d m).cores[k]?).map (lineView l) = some (v.1, if d = [] then v.2 else some (v.2.getD [] ++ [(0, d)])) := by
  unfold lineEntered
  obtain ⟨y, hy, rfl⟩ := Option.map_eq_some_iff.1 h
  split
  · exact h
  · rw [core_coreUpd, hy, Option.map_some, Option.map_some]
    exact congrArg (fun o => some ((lineView l y).1, o)) (mget_mset ..)

theorem lineView_postRoute {k l : Nat} {m : Mach} {v : Option Nat × Option (List (Nat × List Byte))} (h : (m.cores[k]?).map (lineView l) = some v) :
    ((postRoute k (0x40 + l) m).cores[k]?).map (lineView l) = some (some ((v.1.getD 0 + 1) % 65536), v.2) := by
  obtain ⟨y, hy, rfl⟩ := Option.map_eq_some_iff.1 h
  rw [postRoute, core_coreUpd, hy, Option.map_some, Option.map_some]
  exact congrArg (fun o => some (o, (lineView l y).2)) (mget_mset ..)

/-- Nothing but cores changes. -/
def CoresOnly (m n : Mach) : Prop := n = { m with cores := n.cores }

theorem CoresOnly.trans {m n p : Mach} (h : CoresOnly m n) (k : CoresOnly n p) : CoresOnly m p :=
  Eq.trans k (congrArg (fun n : Mach => { n with cores := p.cores }) h)

theorem coresOnly_coreUpd (k : Nat) (f : Core → Core) (m : Mach) : CoresOnly m (coreUpd k f m) := rfl

theorem coresOnly_lineLeft (j p n : Nat) (m : Mach) : CoresOnly m (lineLeft j p n m) := by
  have h (op : Nat) : CoresOnly m (if op = 0 then m else tookBytes j op n m) := by
    split
    · rfl
    · unfold tookBytes
      split <;> rfl
  exact (h _).trans (coresOnly_coreUpd ..)

theorem coresOnly_lineEntered (k l : Nat) (d : List Byte) (m : Mach) : CoresOnly m (lineEntered k l d m) := by
  unfold lineEntered
  split
  · rfl
  · exact coresOnly_coreUpd ..

theorem other_coreUpd {i k : Nat} (h : i ≠ k) (f : Core → Core) (m : Mach) : (coreUpd k f m).cores[i]? = m.cores[i]? := lupd_get_ne _ _ h

theorem other_lineLeft {i j : Nat} (p n : Nat) (m : Mach) (h : i ≠ j) : (lineLeft j p n m).cores[i]? = m.cores[i]? := by
  unfold lineLeft
  dsimp only
  rw [other_coreUpd h]
  split
  · rfl
  · unfold tookBytes
    split
    · exact lupd_get_ne _ _ h
    · rfl

theorem other_lineEntered {i k : Nat} (l : Nat) (d : List Byte) (m : Mach) (h : i ≠ k) : (lineEntered k l d m).cores[i]? = m.cores[i]? := by
  unfold lineEntered
  split
  · rfl
  · exact other_coreUpd h _ _

/-- The producer's line after its block has left. -/
theorem rings_lineLeft {j p n : Nat} {m : Mach} {y : Core} (hy : m.cores[j]? = some y) :
    ((lineLeft j p n m).cores[j]?).map (fun y => mget y.rings (8 + p)) = some ((mget y.rings (8 + p)).map (·.drop 1)) := by
  have h := view_lineTaken (g := fun y => mget y.rings (8 + p)) (fun _ _ => rfl) j j n m
    ((((m.cores[j]?).bind fun y => (mget y.rings (8 + p)).bind (·.head?)).map (·.1)).getD 0)
  rw [hy, Option.map_some] at h
  obtain ⟨z, hz, hzy⟩ := Option.map_eq_some_iff.1 h
  unfold lineLeft
  dsimp only
  rw [core_coreUpd, hy, hz, Option.map_some, Option.map_some, mget_mupd, hzy]

/-- Settles O12: an operation that retires, and a block that is accepted from a post line. -/
theorem stampsAndPostLines : Obligations.StampsAndPostLines := by
  unfold Obligations.StampsAndPostLines
  refine ⟨⟨fun s k x l r hl hx ht hr hs hu hd hp => ?_, fun s k x a e b hl hx ht he ha hn => ?_⟩, fun s k l d x j p hl hx hp hd => ?_⟩
  · refine Runs.core (g := fun _ => operationRetire k l) rfl hl hx (operationRetire_op (m := s.q) hx ht hr hs hu hd hp) fun t ho hy => ⟨ho, _, hy, stamped_eq .., fun j => ?_⟩
    exact routes_stamped j r.stamps _
  · refine Runs.core (g := fun _ => operationRetire k 6) (f := fun x => { x with enqs := readEnq x x.enqs }) rfl hl hx ?_ fun t ho hy => ⟨ho, hy.trans ?_⟩
    · unfold operationRetire
      rw [show s.q.cores[k]? = some x from hx]
      dsimp only
      rw [Option.isNone_eq_false_iff.2 ht]; rfl
    · rw [he, readEnq_next x hn a ha]
  · obtain ⟨hl8, y, hy⟩ := producerOf_some hp
    have hne : l ≠ 8 + p := by omega
    refine Runs.ofM (f := fun _ => postLineAccept k l d) rfl hl ?_
    dsimp only [State.m]
    rw [postLineAccept_eq (m := s.q) hx hp hd]
    refine ⟨?consumer, ?producer, fun h => ?rest⟩
    case consumer =>
      have h0 : ((lineLeft j p d.length s.q).cores[k]?).map (lineView l) = some (lineView l x) := by
        rw [view_lineLeft (g := lineView l) (fun _ _ => rfl) _ _ _ _ _ fun z => congrArg (Prod.mk (mget z.routes (0x40 + l))) (mget_mupd_ne _ _ hne), show s.q.cores[k]? = some x from hx, Option.map_some]
      have h1 := lineView_postRoute (lineView_lineEntered d h0)
      rw [← view_pump (lineView l) (fun _ _ => rfl)] at h1
      obtain ⟨z, hz, hzv⟩ := Option.map_eq_some_iff.1 h1
      obtain ⟨hroute, hring⟩ := Prod.mk.inj hzv
      exact ⟨z, hz, hroute, fun hne => hring.trans (if_neg hne), fun he => hring.trans (if_pos he)⟩
    case producer =>
      have h1 : ((pump (postRoute k (0x40 + l) (lineEntered k l d (lineLeft j p d.length s.q)))).cores[j]?).map (fun y => mget y.rings (8 + p))
          = some ((mget y.rings (8 + p)).map (·.drop 1)) := by
        rw [view_pump (fun y : Core => mget y.rings (8 + p)) (fun _ _ => rfl), view_postRoute fun _ _ => rfl, ← rings_lineLeft (n := d.length) (m := s.q) hy]
        unfold lineEntered
        split
        · rfl
        · exact view_coreUpd (g := fun y => mget y.rings (8 + p)) (fun z => mget_mset_ne _ _ hne.symm) _ _ _
      obtain ⟨z, hz, hzv⟩ := Option.map_eq_some_iff.1 h1
      exact ⟨y, z, hy, hz, hzv⟩
    case rest =>
      have ho : CoresOnly s.q (postRoute k (0x40 + l) (lineEntered k l d (lineLeft j p d.length s.q))) :=
        ((coresOnly_lineLeft ..).trans (coresOnly_lineEntered ..)).trans (coresOnly_coreUpd ..)
      have hlater : (postRoute k (0x40 + l) (lineEntered k l d (lineLeft j p d.length s.q))).arb.later = [] := (congrArg (·.arb.later) ho).trans h
      rw [pump_none hlater]
      refine ⟨fun i hk hj => ?_, ho⟩
      rw [postRoute, other_coreUpd hk, other_lineEntered l d _ hk, other_lineLeft p _ _ hj]; rfl

end Sys2Proof.Machine
end

section
/-! SUPPORT. Ring pointers, locks, the key port, firmware loads and resets: O22, O23, O25, O26 (R393, R398 to R400, R407, R436, R443, R450 to R457). -/

namespace Sys2Proof.Machine
open Sys2Proof

/-! ### Ring pointers -/

/-- An EVENTS_LOST that is posted moves neither the head nor a command. -/
theorem rings_postLost (c : Cfg) (m : Mach) : (postLost c m).rings.evtHead = m.rings.evtHead ∧ (postLost c m).rings.cmds = m.rings.cmds := by
  unfold postLost
  split
  · dsimp only
    rw [rings_putEvent]
    exact ⟨rfl, rfl⟩
  · exact ⟨rfl, rfl⟩

theorem cmdTailWrite_eq (v : Nat) (m : Mach) : cmdTailWrite v m =
    if subMod m.rings.cmdTail m.rings.cmdHead 8192 ≤ subMod (v % 8192) m.rings.cmdHead 8192 ∧ subMod (v % 8192) m.rings.cmdHead 8192 ≤ 4096
    then { m with rings := { m.rings with cmdTail := v % 8192 } } else badWrite 0x28 m := by
  simp only [cmdTailWrite, Bool.and_eq_true, decide_eq_true_eq]

/-- Settles O22: each pointer's write, by its own test; the entry read is the next one. -/
theorem ringPointersMoveForward : Obligations.RingPointersMoveForward := by
  unfold Obligations.RingPointersMoveForward
  refine ⟨fun s v hl h1 h2 => Runs.ofM rfl hl ?_, fun s v hl h => Runs.ofM rfl hl ?_, fun s v hl h => Runs.ofM rfl hl ?_,
    fun s v hl h => Runs.ofM rfl hl ?_, fun s v hl => ⟨Runs.ofM rfl hl rfl, Runs.ofM rfl hl rfl⟩, fun s a k hl hb hc ht ho hf ha hg hk hh => Runs.ofM rfl hl ?_⟩
  · exact (cmdTailWrite_eq v s.q).trans (if_pos ⟨h1, h2⟩)
  · exact (cmdTailWrite_eq v s.q).trans (if_neg fun ⟨h1, h2⟩ => h.elim (Nat.not_lt.2 h1) (Nat.not_lt.2 h2))
  · have he : evtHeadWrite s.c v s.q = postLost s.c { s.q with rings := { s.q.rings with evtHead := v % 8192 } } := if_pos h
    dsimp only [State.m]
    rw [he]
    exact rings_postLost ..
  · exact if_neg (by rw [show headOk 12 s.q.rings.evtHead s.q.rings.evtTail (v % 8192) = false from h]; decide)
  · have hidle : ¬(s.q.boot.state ≠ bsRunning || !clerkRuns s.q 1 || s.q.rings.cmdTail = s.q.rings.cmdHead || 64 ≤ owed s.q || evtFree s.q < owed s.q + 64) = true := by
      simp only [Bool.or_eq_true, decide_eq_true_eq, Bool.not_eq_true', hc, not_or, Decidable.not_not, Nat.not_le, Nat.not_lt]
      exact ⟨⟨⟨⟨hb, by decide⟩, ht⟩, ho⟩, hf⟩
    subst ha hk
    show commandRead s.c s.q = _
    unfold commandRead
    rw [if_neg hidle]
    dsimp only
    rw [if_neg (by rw [show badIn s.q.mem (cmdRing + 64 * (s.q.rings.cmdHead % 4096)) 64 = none from hg]; decide)]
    exact if_neg (ne_true_of_eq_false hh)

/-! ### Locks -/

theorem lockProtection_ok {d : Dev} (h : protOk d.cfg.protG = true) : lockProtection d = { d with cfg := { d.cfg with lockProt := true } } := by
  obtain ⟨c, m⟩ := d
  unfold lockProtection
  split
  · rename_i hc
    obtain ⟨⟩ := c
    dsimp only at hc
    rw [hc]
  · rfl

theorem doms_roleLocked (d : Dev) : (roleLocked d).cfg = { d.cfg with lockRole := true } ∧ (roleLocked d).m.doms = d.m.doms := by
  unfold roleLocked
  dsimp only
  split
  · exact ⟨rfl, post_view Mach.doms (fun _ => rfl) ..⟩
  · exact ⟨rfl, rfl⟩

theorem lockTables_open {d : Dev} (h : d.cfg.lockTables = false) (hb : d.m.lockBusy = false) : lockTables d = { d with m := { d.m with lockBusy := true } } := by
  unfold lockTables
  rw [if_neg (by rw [h]; decide), if_neg (by rw [hb]; decide)]

/-- The checks of a lock under way end with their error, or with none. -/
theorem tablesCheckDone_busy {d : Dev} (hb : d.m.lockBusy = true) :
    (tablesErr d.cfg d.m ≠ 0 → tablesCheckDone d = { d with m := { d.m with lockBusy := false, lockErr := tablesErr d.cfg d.m } })
    ∧ (tablesErr d.cfg d.m = 0 → (tablesCheckDone d).cfg = { d.cfg with lockTables := true } ∧ (tablesCheckDone d).m.lockBusy = false
      ∧ (tablesCheckDone d).m.lockErr = 0 ∧ (tablesCheckDone d).m.mem.granules = d.m.mem.granules
      ∧ (tablesCheckDone d).m.doms = [(0, { domE d.m 0 with state := 1, root := d.m.boot.xroot })]) := by
  unfold tablesCheckDone
  rw [if_neg (by rw [hb]; decide)]
  dsimp only
  refine ⟨fun h => if_pos h, fun h => ?_⟩
  rw [if_neg (by rw [h]; decide)]
  exact ⟨rfl, rfl, rfl, rfl, rfl⟩

/-! ### The key port and WAIT_LOAD -/

theorem keyWord_eq (w : Nat) (m : Mach) : keyWord w m = if !m.boot.kpReq || m.boot.kpLock || m.boot.keyFail then m else
    { m with keys := { m.keys with identity := m.keys.identity ++ [w % 2 ^ 32] }
             boot := { m.boot with keyWords := m.boot.keyWords + 1, kpReq := decide (m.boot.keyWords + 1 < 12), kpLock := decide (12 ≤ m.boot.keyWords + 1) } } := rfl

/-- The stored epoch is taken, and an absent store reported (R402, R443). -/
def seeStore (c : Cfg) (m : Mach) : Mach :=
  let m := { m with boot := { m.boot with minEpoch := storedEpoch m.store } }
  if m.store.present then m else post c evStoreAbsent [] m

/-- The trust record of the store. -/
def readTrust (m : Mach) : Mach :=
  match if m.store.present then abRead m.store.trustRec else none with
  | some l => { m with casc := { m.casc with group := leAt l 0 4, trust := some (leNat ((l.drop 4).take 48), leAt l 52 4) } }
  | none => m

/-- The trim set of the store, or the built-in one, which holds the cap (R406). -/
def readTrim (c : Cfg) (m : Mach) : Mach :=
  match if m.store.present then abRead m.store.trimRec else none with
  | some l => { m with st := { m.st with trim := l, trimSeq := abSeq m.store.trimRec } }
  | none => post c evTrimInvalid [] { m with st := { m.st with trim := builtinTrim c.strap.stepping }, power := { m.power with trimHold := true } }

theorem readStore_eq (c : Cfg) (m : Mach) : readStore c m = readTrim c (readTrust (seeStore c m)) := by
  unfold readStore readTrim readTrust seeStore
  rfl

section
variable {α : Type} (g : Mach → α) (hg : ∀ m, g m.still = g m) (hc : ∀ m x, g { m with casc := x } = g m)

include hg in
theorem seeStore_view (c : Cfg) (m : Mach) : g (seeStore c m) = g { m with boot := { m.boot with minEpoch := storedEpoch m.store } } := by
  unfold seeStore
  dsimp only
  split
  · rfl
  · exact post_view g hg ..

include hc in
theorem readTrust_view (m : Mach) : g (readTrust m) = g m := by
  unfold readTrust
  split
  · exact hc ..
  · rfl

include hg in
theorem readTrim_view (hs : ∀ m a b y, g { m with st := { m.st with trim := a, trimSeq := b }, power := y } = g m) (c : Cfg) (m : Mach) : g (readTrim c m) = g m := by
  unfold readTrim
  split
  · exact hs m _ _ m.power
  · exact (post_view g hg ..).trans (hs m _ m.st.trimSeq _)

include hg hc in
/-- What events, the trim set, the trust record and the hold of the cap leave alone, but for the epoch, the store's read leaves alone. -/
theorem readStore_view (hs : ∀ m a b y, g { m with st := { m.st with trim := a, trimSeq := b }, power := y } = g m) (c : Cfg) (m : Mach) :
    g (readStore c m) = g { m with boot := { m.boot with minEpoch := storedEpoch m.store } } := by
  rw [readStore_eq, readTrim_view g hg hs, readTrust_view g hc, seeStore_view g hg]

end

theorem boot_readStore (c : Cfg) (m : Mach) : (readStore c m).boot = { m.boot with minEpoch := storedEpoch m.store } :=
  readStore_view Mach.boot (fun _ => rfl) (fun _ _ => rfl) (fun _ _ _ _ => rfl) ..
theorem store_readStore (c : Cfg) (m : Mach) : (readStore c m).store = m.store :=
  readStore_view Mach.store (fun _ => rfl) (fun _ _ => rfl) (fun _ _ _ _ => rfl) ..
theorem ports_readStore (c : Cfg) (m : Mach) : (readStore c m).ports = m.ports :=
  readStore_view Mach.ports (fun _ => rfl) (fun _ _ => rfl) (fun _ _ _ _ => rfl) ..

/-- Without a trim record the cap is held. -/
theorem trimHold_readStore {c : Cfg} {m : Mach} (h : m.store.present = false ∨ abRead m.store.trimRec = none) : (readStore c m).power.trimHold = true := by
  have hs : (readTrust (seeStore c m)).store = m.store :=
    (readTrust_view Mach.store (fun _ _ => rfl) _).trans (seeStore_view Mach.store (fun _ => rfl) ..)
  have hn : (if (readTrust (seeStore c m)).store.present then abRead (readTrust (seeStore c m)).store.trimRec else none) = none := by
    rw [hs]
    obtain h | h := h
    · rw [h]; rfl
    · rw [h, ite_self]
  rw [readStore_eq]
  unfold readTrim
  rw [hn]
  dsimp only
  exact congrArg Power.trimHold (post_view Mach.power (fun _ => rfl) ..)

/-- The boot ROM of a block that may leave RESET, where its boot record names no source or the ports are not ready. -/
theorem bootWaitLoad_waits {d : Dev} {t : Nat} (h1 : d.m.boot.state = bsReset) (h2 : 12 ≤ d.m.boot.keyWords) (h3 : d.m.boot.keyFail = false) (h4 : d.m.ports.flush = [])
    (h5 : 16 ≤ d.cfg.strap.cores) (h6 : d.m.ports.ready = 0xFFFF ∨ 1000000000 ≤ max d.m.now t) (h7 : (bootSource d.m.store).1 = 0 ∨ d.m.ports.ready ≠ 0xFFFF) :
    bootWaitLoad t d = { d with m := bootState bsWaitLoad (readStore d.cfg (tickTo t d.m)) } := by
  have h6 : (d.m.ports.ready == 0xFFFF || decide (1000000000 ≤ (tickTo t d.m).now)) = true := by
    rw [Bool.or_eq_true, beq_iff_eq, decide_eq_true_eq]
    exact h6
  unfold bootWaitLoad
  dsimp only
  rw [if_neg (by
    simp only [Bool.or_eq_true, decide_eq_true_eq, Bool.not_eq_true', not_or, Decidable.not_not, Nat.not_lt, Bool.not_eq_true]
    exact ⟨⟨⟨⟨⟨h1, h2⟩, h3⟩, h4⟩, h5⟩, by rw [show (tickTo t d.m).ports = d.m.ports from rfl, h6]; decide⟩)]
  rw [if_pos]
  rw [store_readStore, ports_readStore]
  exact Bool.or_eq_true_iff.2 (h7.imp decide_eq_true decide_eq_true)

theorem bootWaitLoad_keyless {d : Dev} {t : Nat} (h : d.m.boot.keyWords < 12) : bootWaitLoad t d = { d with m := tickTo t d.m } :=
  if_pos (by rw [decide_eq_true (show (tickTo t d.m).boot.keyWords < 12 from h)]; simp)

/-- Settles O23: the locks, then the key port's words and their two ends. -/
theorem locksAndKeyPort : Obligations.LocksAndKeyPort := by
  unfold Obligations.LocksAndKeyPort
  refine ⟨⟨fun s hl h => Runs.ofRun rfl hl ?_, fun s hl => Runs.ofRun rfl hl (doms_roleLocked s.dev.quiet), fun s hl h hb => Runs.ofRun rfl hl ?_,
    fun s hl hb he => Runs.ofRun rfl hl ?_, fun s hl hb he => Runs.ofRun rfl hl ?_⟩,
    fun s w hl hr hk hf => Runs.ofM rfl hl ?_, fun s w hl hk => Runs.ofM rfl hl ?_, fun s t0 hl hw ht => Runs.ofM rfl hl ?_,
    fun s t0 hl h1 h2 h3 h4 h5 h6 h7 => Runs.ofRun rfl hl ?_, fun s t0 hl _ hw => Runs.ofRun rfl hl ?_⟩
  · dsimp only [State.m, State.c]
    rw [lockProtection_ok (d := s.dev.quiet) h]
    exact ⟨rfl, rfl⟩
  · dsimp only [State.m, State.c]
    rw [lockTables_open (d := s.dev.quiet) h hb]
    exact ⟨rfl, rfl⟩
  · obtain ⟨hcfg, hbusy, herr, hgran, hdoms⟩ := (tablesCheckDone_busy (d := s.dev.quiet) hb).2 he
    refine ⟨hcfg, hbusy, herr, fun d hd => ?_, ?_, hgran⟩
    · exact (congrArg (mget · d) hdoms).trans (if_neg (Ne.symm hd))
    · show (domE (tablesCheckDone s.dev.quiet).m 0).state = 1
      unfold domE
      rw [hdoms]
      rfl
  · dsimp only [State.m, State.c]
    rw [(tablesCheckDone_busy (d := s.dev.quiet) hb).1 he]
    exact ⟨rfl, rfl⟩
  · dsimp only [State.m]
    rw [keyWord_eq, if_neg (by rw [show s.q.boot.kpReq = true from hr, show s.q.boot.kpLock = false from hk, show s.q.boot.keyFail = false from hf]; decide)]
    exact ⟨rfl, rfl, rfl, rfl⟩
  · exact if_pos (by rw [show s.q.boot.kpLock = true from hk]; simp)
  · have hdue : ((tickTo t0 s.q).boot.keyWords < 12 && 10000000 ≤ (tickTo t0 s.q).now) = true :=
      Bool.and_eq_true_iff.2 ⟨decide_eq_true hw, decide_eq_true ht⟩
    have he : keyTimeout t0 s.q = _ := if_pos hdue
    dsimp only [State.m]
    rw [he]
    exact ⟨rfl, rfl, rfl⟩
  · dsimp only [State.m, State.c]
    rw [bootWaitLoad_waits (d := s.dev.quiet) h1 h2 h3 h4 h5 h6 h7]
    exact ⟨rfl, congrArg Boot.minEpoch (boot_readStore ..), rfl, fun h => trimHold_readStore (c := s.c) (m := tickTo t0 s.q) h⟩
  · dsimp only [State.m]
    rw [bootWaitLoad_keyless (d := s.dev.quiet) hw]

/-! ### Firmware loads -/

section
variable {d : Dev} {v : Nat} (hv : v % 2 = 1) (hm : d.m.st.mbistState ≠ 1)
include hv hm

theorem fwGo_other (h : ¬(d.m.boot.state = bsWaitLoad ∨ d.m.boot.state = bsFailed ∨ d.m.boot.state = bsRecovery)) :
    fwGo v d = { d with m := badWrite 0x20 d.m } := by
  unfold fwGo
  rw [if_neg (by simp [hv, hm]), if_pos (by simpa [and_assoc] using h)]

variable (h : d.m.boot.state = bsWaitLoad ∨ d.m.boot.state = bsFailed ∨ d.m.boot.state = bsRecovery)
include h

/-- A load that may be asked for begins or fails by the protected range and the memory ports. -/
theorem fwGo_loads : fwGo v d = if !protOk d.cfg.protG then { d with m := loadFails 7 d.m }
    else if d.m.ports.ready ≠ 0xFFFF || d.m.ports.failed ≠ [] then { cfg := { d.cfg with lockProt := true }, m := loadFails 6 d.m }
    else { cfg := { d.cfg with lockProt := true }
           m := imageRead d.cfg.fwAddr d.cfg.fwLen (loadBegins (if d.m.boot.state = bsRecovery then 3 else 0) d.m) } := by
  unfold fwGo
  rw [if_neg (by simp [hv, hm]), if_neg (by rw [show (d.m.boot.state == bsWaitLoad || d.m.boot.state == bsFailed || d.m.boot.state == bsRecovery) = true by simpa [or_assoc] using h]; decide)]

end

/-- The read of the image goes out where the link can send, and waits elsewhere; nothing else changes. -/
theorem imageRead_eq (a n : Nat) (m : Mach) : imageRead a n m =
    { m with out := if hpOpen m then m.out ++ [.hostRead a n false] else m.out
             boot := { m.boot with imageReq := if hpOpen m then none else some (a, n) } } := by
  unfold imageRead
  split <;> rfl

theorem loadBegins_imageReq (src a n : Nat) (m : Mach) : (hpOpen m = true → (imageRead a n (loadBegins src m)).out = m.out ++ [.hostRead a n false] ∧ (imageRead a n (loadBegins src m)).boot.imageReq = none)
    ∧ (hpOpen m = false → (imageRead a n (loadBegins src m)).out = m.out ∧ (imageRead a n (loadBegins src m)).boot.imageReq = some (a, n)) := by
  rw [imageRead_eq, show hpOpen (loadBegins src m) = hpOpen m from rfl]
  exact ⟨fun h => by rw [h]; exact ⟨rfl, rfl⟩, fun h => by rw [h]; exact ⟨rfl, rfl⟩⟩

/-- The granules the boot ROM assigns when a load begins (R400). -/
theorem granules_loadBegins (src a n : Nat) (m : Mach) : mget (imageRead a n (loadBegins src m)).mem.granules 0 = some ⟨0, true⟩
    ∧ mget (imageRead a n (loadBegins src m)).mem.granules 1 = some ⟨0, false⟩ := by
  rw [imageRead_eq]
  exact ⟨(mget_mset_ne _ _ (by decide)).trans (mget_mset ..), mget_mset ..⟩

/-- The header a block is checked under: the one that arrives with the first, the kept one after. -/
def headerOf (m : Mach) (h : List Byte) : List Byte := if m.boot.nextBlock = 0 then h else m.boot.header

/-- The hash a block must have: the one the header names, or its predecessor. -/
def hashOf (m : Mach) (h : List Byte) : List Byte := if m.boot.nextBlock = 0 then (h.drop 0x20).take 48 else m.boot.hash

section
variable {c : Cfg} {m : Mach} {h b : List Byte} (hs : m.boot.state = bsLoading) (hl : m.boot.loading = true) (hsrc : m.boot.source = 0 ∨ m.boot.source = 3) (hi : m.boot.imageReq = none)
include hs hl hsrc hi

theorem firmwareBlock_loading (err : Bool) : firmwareBlock h b err c m = if err then loadFails 5 m else
    let r := if m.boot.nextBlock = 0 then headerReason m.boot.minEpoch (headerOf m h) else 0
    if r ≠ 0 then loadFails r m
    else if b.length ≠ 65536 || sha384 b ≠ hashOf m (headerOf m h) then loadFails 3 m
    else if m.boot.nextBlock + 1 = leAt (headerOf m h) 6 2 then startRunning c (headerOf m h) (m.boot.blocks ++ b) m
    else { m with boot := { m.boot with header := headerOf m h, nextBlock := m.boot.nextBlock + 1, hash := blockHash b, blocks := m.boot.blocks ++ b } } := by
  have hd : (m.boot.state == bsLoading && m.boot.loading && (m.boot.source == 0 || m.boot.source == 3) && m.boot.imageReq.isNone) = true := by
    rw [hs, hl, hi, show (m.boot.source == 0 || m.boot.source == 3) = true by simpa using hsrc]
    rfl
  unfold firmwareBlock
  rw [if_neg (by rw [hd]; decide)]
  rfl

theorem firmwareBlock_badHeader (hn : m.boot.nextBlock = 0) (hh : headerReason m.boot.minEpoch h ≠ 0) :
    firmwareBlock h b false c m = loadFails (headerReason m.boot.minEpoch h) m := by
  rw [firmwareBlock_loading hs hl hsrc hi, if_neg (by decide), headerOf, if_pos hn, if_pos hn]
  exact if_pos hh

/-- Under a header that passes a block fails the load by its hash, starts the block as the last, or is kept. -/
theorem firmwareBlock_passes (hh : m.boot.nextBlock = 0 → headerReason m.boot.minEpoch h = 0) : firmwareBlock h b false c m =
    if b.length ≠ 65536 || sha384 b ≠ hashOf m h then loadFails 3 m
    else if m.boot.nextBlock + 1 = leAt (headerOf m h) 6 2 then startRunning c (headerOf m h) (m.boot.blocks ++ b) m
    else { m with boot := { m.boot with header := headerOf m h, nextBlock := m.boot.nextBlock + 1, hash := blockHash b, blocks := m.boot.blocks ++ b } } := by
  have hr : (if m.boot.nextBlock = 0 then headerReason m.boot.minEpoch (headerOf m h) else 0) = 0 := by
    split
    · rename_i hn
      rw [headerOf, if_pos hn, hh hn]
    · rfl
  have hw : hashOf m (headerOf m h) = hashOf m h := by
    unfold hashOf headerOf
    split <;> rfl
  rw [firmwareBlock_loading hs hl hsrc hi, if_neg (by decide), hr, hw]
  exact if_neg (by decide)

end

/-- A verified image starts the block, where no event waited for the ring (R399, R400). -/
theorem startRunning_starts {m : Mach} (he : m.rings.early = []) (c : Cfg) (h p : List Byte) :
    (startRunning c h p m).boot.state = bsRunning ∧ (startRunning c h p m).boot.epoch = leAt h 8 4 ∧ (startRunning c h p m).clerks = clerksUp (h ++ p)
      ∧ (domE (startRunning c h p m) 0).state = 1 := by
  have hflush (n : Mach) (hn : n.rings.early = []) : flushEarly c n = { n with rings := { n.rings with early := [] } } := by
    unfold flushEarly
    rw [hn]
    rfl
  unfold startRunning
  dsimp only
  rw [hflush]
  · refine ⟨rfl, rfl, rfl, ?_⟩
    unfold domE
    exact congrArg (fun o : Option DomE => (o.getD {}).state) (mget_mset ..)
  · exact he

theorem clerkRuns_clerksUp {m : Mach} {img : List Byte} (h : m.clerks = clerksUp img) (i : Nat) (hi : i < 4) : clerkRuns m i = true := by
  unfold clerkRuns
  rw [h, clerksUp, List.getD_eq_getElem?_getD, List.getElem?_map, List.getElem?_range hi]
  rfl

theorem blockGood {b h : List Byte} (hb : b.length = 65536) (hh : sha384 b = h) : ¬(decide (b.length ≠ 65536) || decide (sha384 b ≠ h)) = true := by
  simp [hb, hh]

/-- Settles O25: FW_GO by state, protected range and ports; a block by its header, its hash and its place. -/
theorem firmwareLoad : Obligations.FirmwareLoad := by
  unfold Obligations.FirmwareLoad
  dsimp only
  refine ⟨fun s v hl hv hm hs hp hr hf => Runs.ofRun rfl hl ?_, fun s v hl hv hm hs hp => Runs.ofRun rfl hl ?_, fun s v hl hv hm hs hp hr => Runs.ofRun rfl hl ?_,
    fun s v hl hv hm hs => Runs.ofRun rfl hl ?_, fun s h b hl ⟨h1, h2, h3, h4⟩ => ⟨Runs.ofM rfl hl ?_, fun hn hh => Runs.ofM rfl hl ?_, fun hh hb => Runs.ofM rfl hl ?_⟩,
    fun s h b hl ⟨h1, h2, h3, h4⟩ hh hb hc hn => Runs.ofM rfl hl ?_, fun s h b hl ⟨h1, h2, h3, h4⟩ hh hb hc hn he => Runs.ofM rfl hl ?_⟩
  · dsimp only [State.m, State.c]
    rw [fwGo_loads (d := s.dev.quiet) hv hm hs, if_neg (by rw [show protOk s.dev.quiet.cfg.protG = true from hp]; decide),
      if_neg (by rw [show s.dev.quiet.m.ports.ready = 0xFFFF from hr, show s.dev.quiet.m.ports.failed = [] from hf]; decide)]
    obtain ⟨hopen, hshut⟩ := loadBegins_imageReq (if s.dev.quiet.m.boot.state = bsRecovery then 3 else 0) s.dev.quiet.cfg.fwAddr s.dev.quiet.cfg.fwLen s.q
    refine ⟨?_, rfl, hopen, hshut, granules_loadBegins ..⟩
    rw [imageRead_eq]
    rfl
  · dsimp only [State.m, State.c]
    rw [fwGo_loads (d := s.dev.quiet) hv hm hs, if_pos (by rw [show protOk s.dev.quiet.cfg.protG = false from hp]; decide)]
    exact ⟨rfl, rfl, rfl⟩
  · dsimp only [State.m, State.c]
    rw [fwGo_loads (d := s.dev.quiet) hv hm hs, if_neg (by rw [show protOk s.dev.quiet.cfg.protG = true from hp]; decide),
      if_pos (show (decide (s.q.ports.ready ≠ 0xFFFF) || decide (s.q.ports.failed ≠ [])) = true from Bool.or_eq_true_iff.2 (hr.imp decide_eq_true decide_eq_true))]
    exact ⟨rfl, rfl⟩
  · dsimp only [State.m, State.c]
    rw [fwGo_other (d := s.dev.quiet) hv hm hs]
    exact ⟨rfl, rfl⟩
  · dsimp only [State.m]
    rw [firmwareBlock_loading (m := s.q) h1 h2 h3 h4, if_pos rfl]
    exact ⟨rfl, rfl⟩
  · dsimp only [State.m]
    rw [firmwareBlock_badHeader (m := s.q) h1 h2 h3 h4 hn hh]
    exact ⟨rfl, rfl⟩
  · dsimp only [State.m]
    have hb : b.length ≠ 65536 ∨ sha384 b ≠ hashOf s.q h := hb
    rw [firmwareBlock_passes (m := s.q) h1 h2 h3 h4 hh, if_pos (Bool.or_eq_true_iff.2 (hb.imp decide_eq_true decide_eq_true))]
    exact ⟨rfl, rfl⟩
  · exact (firmwareBlock_passes (m := s.q) h1 h2 h3 h4 hh).trans ((if_neg (blockGood hb hc)).trans (if_neg hn))
  · dsimp only [State.m]
    rw [firmwareBlock_passes (m := s.q) h1 h2 h3 h4 hh, if_neg (blockGood hb (show sha384 b = hashOf s.q h from hc)),
      if_pos (show s.q.boot.nextBlock + 1 = leAt (headerOf s.q h) 6 2 from hn)]
    obtain ⟨hstate, hepoch, hclerks, hdom⟩ := startRunning_starts (m := s.q) he s.c (headerOf s.q h) (s.q.boot.blocks ++ b)
    exact ⟨hstate, hepoch, clerkRuns_clerksUp hclerks, hdom⟩

/-! ### Resets -/

theorem lowPulse_eq (ns : Nat) (d : Dev) : lowPulse ns d =
    { d with m := if 100 < ns ∧ ns < 200 then { d.m with power := { d.m.power with pfLatch := min (d.m.power.pfLatch + 1) 65535 } } else d.m } := by
  unfold lowPulse
  by_cases h : 100 < ns ∧ ns < 200
  · rw [if_pos h, if_pos (by simpa using h)]
    rfl
  · rw [if_neg h, if_neg (by simpa using h)]

/-- Settles O26: what each reset keeps, what it leaves at its reset value. -/
theorem resetsLeaveTheStore : Obligations.ResetsLeaveTheStore := by
  unfold Obligations.ResetsLeaveTheStore
  refine ⟨fun s => ⟨_, rfl, rfl, rfl, rfl⟩, fun s v hl hv => Runs.ofRun rfl hl ?_, fun s w v hl hv => Runs.ofRun rfl hl ?_, fun s p hl => Runs.ofM rfl hl ?_,
    fun s => ⟨⟨_, rfl, rfl, rfl, rfl⟩, _, rfl, rfl, rfl⟩, fun s ns => ⟨_, rfl, ?_⟩⟩
  · have hw : warmReset 8 v s.dev.quiet = warmClear s.dev.quiet := if_pos (by rw [hv]; rfl)
    dsimp only [State.m, State.c]
    rw [hw]
    exact ⟨rfl, rfl, rfl, rfl, rfl, rfl, rfl, rfl, rfl, rfl, rfl⟩
  · have hw : warmReset w v s.dev.quiet = { s.dev.quiet with m := badWrite 0x1000 s.q } := if_neg (by
      rw [Bool.and_eq_true, decide_eq_true_eq, decide_eq_true_eq]
      exact fun h => hv.elim (fun hn => hn h.1) fun hn => hn h.2)
    dsimp only [State.m, State.c]
    rw [hw]
    exact ⟨rfl, rfl⟩
  · exact ⟨rfl, rfl, rfl⟩
  · dsimp only [State.m, State.c]
    rw [lowPulse_eq]
    exact ⟨rfl, rfl⟩

end Sys2Proof.Machine
end

section
/-! SUPPORT. The persistent store: O27 (R357, R399, R401 to R403, R423). -/

namespace Sys2Proof.Machine
open Sys2Proof

/-! ### A record's two copies (R402) -/

/-- The erased copy is the one that was not read. -/
theorem abRead_abErase (r : AB) : abRead (abErase r) = abRead r := by
  obtain ⟨_ | x, _ | y⟩ := r
  case some.some =>
    unfold abErase
    dsimp only
    split
    · rename_i h; exact congrArg some (if_pos h).symm
    · rename_i h; exact congrArg some (if_neg h).symm
  all_goals rfl

theorem abRead_abWrite (r : AB) (v : List Byte) : abRead (abWrite r v) = some v ∧ abSeq (abWrite r v) = abSeq r + 1 := by
  obtain ⟨_ | x, _ | y⟩ := r
  case none.none => exact ⟨rfl, rfl⟩
  case none.some =>
    refine ⟨congrArg some (if_neg (by dsimp only; omega)), ?_⟩
    exact Nat.max_eq_left (Nat.le_succ _)
  case some.none =>
    refine ⟨congrArg some (if_pos (Nat.lt_succ_self _)), ?_⟩
    exact Nat.max_eq_right (Nat.le_succ _)
  case some.some =>
    unfold abWrite
    dsimp only
    split
    · rename_i h
      refine ⟨congrArg some (if_neg (by dsimp only; omega)), ?_⟩
      show max (y.1 + 1) y.1 = max x.1 y.1 + 1
      omega
    · rename_i h
      refine ⟨congrArg some (if_pos (Nat.lt_succ_self _)), ?_⟩
      show max x.1 (x.1 + 1) = max x.1 y.1 + 1
      omega

/-! ### A store command starts -/

theorem storeStart_cmd {id : Nat} {m : Mach} {k : Cmd} (h : mget m.rings.cmds id = some k) (n : Nat) (b : List Byte) :
    (mget (storeStart id n b m).rings.cmds id).map (fun k => (k.phase, k.arg, k.areaBytes)) = some (1, n, b) := by
  show (mget (mupd (mupd m.rings.cmds id _) id _) id).map _ = _
  rw [mget_mupd, mget_mupd, h]
  rfl

/-- The slots stand, and every record reads as before. -/
structure ReadsAlike (s t : Store) : Prop where
  slotA : t.slotA = s.slotA
  slotB : t.slotB = s.slotB
  boot : abRead t.bootRec = abRead s.bootRec
  epoch : abRead t.epochRec = abRead s.epochRec
  enrol : abRead t.enrolRec = abRead s.enrolRec
  trim : abRead t.trimRec = abRead s.trimRec

/-- The store is busy with command `id`, of `n` operations and the bytes `b`. -/
def StoreUnder (id n : Nat) (b : List Byte) (s t : State) : Prop :=
  begun id n t ∧ (mget t.m.rings.cmds id).map (·.areaBytes) = some b ∧ t.m.store.busy = some id ∧ t.m.store.slotA = s.m.store.slotA
    ∧ t.m.store.slotB = s.m.store.slotB ∧ abRead t.m.store.bootRec = abRead s.m.store.bootRec ∧ abRead t.m.store.epochRec = abRead s.m.store.epochRec
    ∧ abRead t.m.store.enrolRec = abRead s.m.store.enrolRec ∧ abRead t.m.store.trimRec = abRead s.m.store.trimRec ∧ t.m.mem = s.m.mem

/-- A store command that may start has its own effect. -/
theorem storeRow_starts {s : State} {op id : Nat} {area : Cmd → Nat} {chk : Cfg → Mach → Cmd → List (Bool × Nat)} {act : Cfg → Cmd → Mach → Mach} {k : Cmd}
    (h : accepted op id area chk s k = true) (hs : s.m.store.busy = none ∧ s.m.power.fail = 0 ∧ s.m.store.present = true) :
    Sys2Proof.Machine.storeRow op id area chk act s.c s.q = act s.c k s.q := by
  obtain ⟨hbusy, hfail, hpres⟩ := hs
  unfold Sys2Proof.Machine.storeRow
  rw [if_neg (by rw [show s.q.store.busy = none from hbusy, show s.q.power.fail = 0 from hfail]; decide), cmdRow_accepted h]
  exact if_pos hpres

/-- A store command that may start is under way with its operations. -/
theorem Runs.storeRow {i : Instr} {s : State} {op id n : Nat} {b : List Byte} {area : Cmd → Nat} {chk : Cfg → Mach → Cmd → List (Bool × Nat)} {act : Cfg → Cmd → Mach → Mach}
    {k : Cmd} {x : Store} (hi : exec i s = s.runM (Sys2Proof.Machine.storeRow op id area chk act)) (h : accepted op id area chk s k = true)
    (hs : s.m.store.busy = none ∧ s.m.power.fail = 0 ∧ s.m.store.present = true) (ha : act s.c k s.q = { storeStart id n b s.q with store := x })
    (hb : x.busy = some id) (hx : ReadsAlike s.m.store x) : Runs i s (StoreUnder id n b s) := by
  have hrow : Sys2Proof.Machine.storeRow op id area chk act s.c s.q = act s.c k s.q := storeRow_starts h hs
  refine Runs.ofM hi (accepted_live h) ?_
  have hcmd := storeStart_cmd (accepted_cmd h) n b
  dsimp only [StoreUnder, begun, State.m]
  rw [hrow, ha]
  have hmap {α : Type} (f : Nat × Nat × List Byte → α) : (mget (storeStart id n b s.q).rings.cmds id).map (fun k => f (k.phase, k.arg, k.areaBytes)) = some (f (1, n, b)) := by
    rw [← Option.map_some (f := f), ← hcmd, Option.map_map]
    rfl
  exact ⟨hmap fun p => (p.1, p.2.1), hmap fun p => p.2.2, hb, hx.slotA, hx.slotB, hx.boot, hx.epoch, hx.enrol, hx.trim, rfl⟩

/-! ### An operation ends -/

/-- The block once the last operation of a command has ended, before its effect. -/
def opEnded (op w : Nat) (m : Mach) : Mach := { m with out := m.out ++ [.storeWrite op], store := { m.store with busy := none, writes := w } }

section
variable {c : Cfg} {m : Mach} {id : Nat} {k : Cmd} (hb : m.store.busy = some id) (hk : mget m.rings.cmds id = some k)
include hb hk

/-- The last operation of a command that erases no slot has ended. -/
theorem storeDone_last (hn : ¬(k.opcode = 0x800 && !isProgram k && k.arg % 2 = 1) = true) (h : k.arg ≤ 1) :
    ∃ w, storeDone true c m = storeEffect c id k (opEnded k.opcode w m) := by
  refine ⟨if isProgram k then m.store.writes + 1 else m.store.writes, ?_⟩
  unfold storeDone
  rw [hb]
  dsimp only
  rw [hk]
  dsimp only
  rw [if_neg (by decide), if_neg hn, if_pos h]
  split <;> rfl

/-- An operation that is not the last leaves one fewer, and of the records none changed. -/
theorem storeDone_goesOn (h : 1 < k.arg) (hf : m.power.fail = 0) : ∃ x : Store, (x.busy = some id ∧ x.bootRec = m.store.bootRec ∧ x.epochRec = m.store.epochRec)
    ∧ storeDone true c m = { m with out := m.out ++ [.storeWrite k.opcode], store := x
                                    rings := { m.rings with cmds := mupd m.rings.cmds id fun k => { k with arg := k.arg - 1 } } } := by
  have hslot (i : Nat) (f : Slot → Slot) (x : Store) : (slotUpd i f x).busy = x.busy ∧ (slotUpd i f x).bootRec = x.bootRec ∧ (slotUpd i f x).epochRec = x.epochRec := by
    unfold slotUpd
    split <;> exact ⟨rfl, rfl, rfl⟩
  let w : Store := if isProgram k then { m.store with writes := m.store.writes + 1 } else m.store
  have hw : w.busy = some id ∧ w.bootRec = m.store.bootRec ∧ w.epochRec = m.store.epochRec := by
    dsimp only [w]
    split <;> exact ⟨hb, rfl, rfl⟩
  refine ⟨if k.opcode = 0x800 && !isProgram k && k.arg % 2 = 1 then slotUpd (otherSlot m) (fun x => { x with marker := none }) w else w, ?_, ?_⟩
  · split
    · obtain ⟨h1, h2, h3⟩ := hslot (otherSlot m) (fun x => { x with marker := none }) w
      exact ⟨h1.trans hw.1, h2.trans hw.2.1, h3.trans hw.2.2⟩
    · exact hw
  · unfold storeDone
    rw [hb]
    dsimp only
    rw [hk]
    dsimp only
    rw [if_neg (by decide), if_neg (by omega), if_neg (by exact Classical.not_not.2 hf)]
    rfl

end

/-- An operation that fails is counted, and its command answered. -/
theorem storeDone_failed {c : Cfg} {m : Mach} {id : Nat} {k : Cmd} (hb : m.store.busy = some id) (hk : mget m.rings.cmds id = some k) :
    storeDone false c m = respond c id stInternal [] { m with store := { m.store with busy := none, errors := satInc 32 m.store.errors } } := by
  unfold storeDone
  rw [hb]
  dsimp only
  rw [hk]
  rfl

section
variable (c : Cfg) (id : Nat) {k : Cmd} (m : Mach)

theorem storeEffect_write (h : k.opcode = 0x800) : storeEffect c id k m =
    respond c id stOk (toLe 1 (otherSlot m)) { m with store := slotUpd (otherSlot m) (fun x => { x with image := k.areaBytes }) m.store } := by
  unfold storeEffect
  rw [h]
  rfl
theorem storeEffect_validate (h : k.opcode = 0x801) : storeEffect c id k m =
    respond c id stOk (toLe 1 (otherSlot m)) { m with store := slotUpd (otherSlot m) (fun x => { x with marker := some ((((slotOf m.store (1 - otherSlot m)).marker.map (·.1)).getD 0) + 1, sha384 (x.image.take 512)) }) m.store } := by
  unfold storeEffect
  rw [h]
  rfl
theorem storeEffect_retire (h : k.opcode = 0x802) : storeEffect c id k m =
    respond c id stOk (toLe 1 (otherSlot m)) { m with store := slotUpd (otherSlot m) (fun x => { x with marker := none }) m.store } := by
  unfold storeEffect
  rw [h]
  rfl
theorem storeEffect_boot (h : k.opcode = 0x803) : storeEffect c id k m =
    respond c id stOk [] { m with store := { m.store with bootRec := abWrite m.store.bootRec k.areaBytes } } := by
  unfold storeEffect
  rw [h]
  rfl
theorem storeEffect_epoch (h : k.opcode = 0x804) : storeEffect c id k m =
    respond c id stOk k.areaBytes { m with store := { m.store with epochRec := abWrite m.store.epochRec k.areaBytes }, boot := { m.boot with minEpoch := leNat k.areaBytes } } := by
  unfold storeEffect
  rw [h]
  rfl
theorem storeEffect_enrol (h : k.opcode = 0x106) : storeEffect c id k m =
    respond c id stOk [] { m with store := { m.store with enrolRec := abWrite m.store.enrolRec k.areaBytes } } := by
  unfold storeEffect
  rw [h]
  rfl
theorem storeEffect_trust (h : k.opcode = 0x701) : storeEffect c id k m = respond c id stOk [] { m with
    store := { m.store with trustRec := abWrite m.store.trustRec k.areaBytes }
    casc := { m.casc with group := leAt k.areaBytes 0 4, trust := some (leNat ((k.areaBytes.drop 4).take 48), leAt k.areaBytes 52 4) } } := by
  unfold storeEffect
  rw [h]
  rfl
theorem storeEffect_trim (h : k.opcode = 0x903) : storeEffect c id k m = respond c id stOk (toLe 4 (abSeq (abWrite m.store.trimRec k.areaBytes))) { m with
    store := { m.store with trimRec := abWrite m.store.trimRec k.areaBytes }, st := { m.st with trimWait := some k.areaBytes }
    power := { m.power with trimHold := false } } := by
  unfold storeEffect
  rw [h]
  rfl

end

theorem store_respond (c : Cfg) (id st : Nat) (l : List Byte) (m : Mach) : (respond c id st l m).store = m.store := respond_view Mach.store (fun _ => rfl) ..
theorem boot_respond (c : Cfg) (id st : Nat) (l : List Byte) (m : Mach) : (respond c id st l m).boot = m.boot := respond_view Mach.boot (fun _ => rfl) ..
theorem st_respond (c : Cfg) (id st : Nat) (l : List Byte) (m : Mach) : (respond c id st l m).st = m.st := respond_view Mach.st (fun _ => rfl) ..
theorem power_respond (c : Cfg) (id st : Nat) (l : List Byte) (m : Mach) : (respond c id st l m).power = m.power := respond_view Mach.power (fun _ => rfl) ..
theorem casc_respond (c : Cfg) (id st : Nat) (l : List Byte) (m : Mach) : (respond c id st l m).casc = m.casc := respond_view Mach.casc (fun _ => rfl) ..

/-- A slot that is changed, and the one that is not. -/
theorem slotOf_slotUpd {i : Nat} (hi : i ≤ 1) (f : Slot → Slot) (s : Store) :
    slotOf (slotUpd i f s) i = f (slotOf s i) ∧ slotOf (slotUpd i f s) (1 - i) = slotOf s (1 - i) := by
  obtain rfl | rfl : i = 0 ∨ i = 1 := by omega
  all_goals exact ⟨rfl, rfl⟩

theorem otherSlot_le (m : Mach) : otherSlot m ≤ 1 := by
  unfold otherSlot
  split <;> decide

/-- The end of a store command, stated on what its effect makes of the block. -/
theorem Runs.storeEnds {s : State} {id : Nat} {k : Cmd} {P : State → Prop} (hl : live s = true) (hb : s.m.store.busy = some id) (hk : mget s.m.rings.cmds id = some k) (ha : k.arg ≤ 1)
    (hn : ¬(k.opcode = 0x800 && !isProgram k && k.arg % 2 = 1) = true)
    (hp : ∀ w, P { s with dev := { cfg := s.c, m := storeEffect s.c id k (opEnded k.opcode w s.q) } }) : Runs (.storeOperationDone true) s P := by
  obtain ⟨w, hw⟩ := storeDone_last (c := s.c) (m := s.q) hb hk hn ha
  refine Runs.ofM rfl hl ?_
  rw [hw]
  exact hp w

/-- A command of another code than SLOT_WRITE erases no slot; SLOT_WRITE's last operation is a program of an image that holds bytes. -/
theorem not_erasing {k : Cmd} (h : k.opcode ≠ 0x800 ∨ (k.arg ≤ 1 ∧ unitsOf (k.argN 0x18 4) ≠ 0)) : ¬(k.opcode = 0x800 && !isProgram k && k.arg % 2 = 1) = true := by
  intro hc
  simp only [Bool.and_eq_true, decide_eq_true_eq, Bool.not_eq_true'] at hc
  obtain ⟨⟨ho, hp⟩, ha⟩ := hc
  obtain h | ⟨h1, h2⟩ := h
  · exact h ho
  · have h1 : k.arg = 1 := by omega
    have h2 : (1 == 1 + 2 * unitsOf (k.argN 0x18 4)) = false := by rw [beq_eq_false_iff_ne]; omega
    unfold isProgram at hp
    rw [ho, h1, h2] at hp
    exact absurd hp (by decide)

/-- Settles O27: each command begins with its operations; the last of them writes what was asked for. -/
theorem storeCommands : Obligations.StoreCommands := by
  unfold Obligations.StoreCommands
  dsimp only
  refine ⟨⟨fun s id k h hi => Runs.storeRow rfl h hi rfl rfl ⟨rfl, rfl, rfl, rfl, rfl, rfl⟩, fun s id k h hi => Runs.storeRow rfl h hi rfl rfl ⟨rfl, rfl, rfl, rfl, rfl, rfl⟩,
      fun s id k h hi => Runs.storeRow rfl h hi rfl rfl ⟨rfl, rfl, rfl, rfl, rfl, rfl⟩, fun s id k h hi => Runs.storeRow rfl h hi rfl rfl ⟨rfl, rfl, abRead_abErase _, rfl, rfl, rfl⟩,
      fun s id k h hi => Runs.storeRow rfl h hi rfl rfl ⟨rfl, rfl, rfl, abRead_abErase _, rfl, rfl⟩, fun s id k h hi => Runs.storeRow rfl h hi rfl rfl ⟨rfl, rfl, rfl, rfl, abRead_abErase _, rfl⟩,
      fun s id k h hi => Runs.storeRow rfl h hi rfl rfl ⟨rfl, rfl, rfl, rfl, rfl, abRead_abErase _⟩, abRead_abErase, abRead_abWrite⟩, ?_⟩
  refine ⟨fun s id k hl hb hk ha hf => Runs.ofM rfl hl ?_, fun s id k hl hb hk ha ho => ?epoch, fun s id k hl hb hk ha ho => ?boot, fun s id k hl hb hk ha ho => ?retire,
    fun s id k hl hb hk ha ho hu => ?write, fun s id k hl hb hk ha ho => ?validate, fun s id k hl hb hk ha ho => ?enrol, fun s id k hl hb hk ha ho => ?trust,
    fun s id k hl hb hk ha ho => ?trim, fun s id k hl hb hk => Runs.ofM rfl hl ?_⟩
  · obtain ⟨x, ⟨hbusy, hboot, hepoch⟩, he⟩ := storeDone_goesOn (c := s.c) (m := s.q) hb hk ha hf
    dsimp only [State.m]
    rw [he]
    exact ⟨(mget_mupd ..).trans (congrArg (Option.map _) hk), hbusy, hboot, hepoch, rfl⟩
  case epoch =>
    refine Runs.storeEnds hl hb hk ha (not_erasing (.inl (by rw [ho]; decide))) fun w => ?_
    dsimp only [Answered, State.m]
    rw [storeEffect_epoch _ _ _ ho, store_respond, boot_respond]
    exact ⟨answered hk rfl, rfl, rfl, rfl⟩
  case boot =>
    refine Runs.storeEnds hl hb hk ha (not_erasing (.inl (by rw [ho]; decide))) fun w => ?_
    dsimp only [Answered, State.m]
    rw [storeEffect_boot _ _ _ ho, store_respond, boot_respond]
    exact ⟨answered hk rfl, rfl, rfl, rfl⟩
  case retire =>
    refine Runs.storeEnds hl hb hk ha (not_erasing (.inl (by rw [ho]; decide))) fun w => ?_
    dsimp only [Answered, State.m]
    rw [storeEffect_retire _ _ _ ho, store_respond]
    obtain ⟨hone, hother⟩ := slotOf_slotUpd (otherSlot_le s.q) (fun x => { x with marker := none }) (opEnded k.opcode w s.q).store
    exact ⟨answered hk rfl, congrArg Slot.marker hone, hother⟩
  case write =>
    refine Runs.storeEnds hl hb hk ha (not_erasing (.inr ⟨ha, hu⟩)) fun w => ?_
    dsimp only [Answered, State.m]
    rw [storeEffect_write _ _ _ ho, store_respond]
    exact ⟨answered hk rfl, slotOf_slotUpd (otherSlot_le s.q) (fun x => { x with image := k.areaBytes }) (opEnded k.opcode w s.q).store⟩
  case validate =>
    refine Runs.storeEnds hl hb hk ha (not_erasing (.inl (by rw [ho]; decide))) fun w => ?_
    dsimp only [Answered, State.m]
    rw [storeEffect_validate _ _ _ ho, store_respond]
    exact ⟨answered hk rfl, slotOf_slotUpd (otherSlot_le s.q) _ (opEnded k.opcode w s.q).store⟩
  case enrol =>
    refine Runs.storeEnds hl hb hk ha (not_erasing (.inl (by rw [ho]; decide))) fun w => ?_
    dsimp only [Answered, State.m]
    rw [storeEffect_enrol _ _ _ ho, store_respond]
    exact ⟨answered hk rfl, rfl⟩
  case trust =>
    refine Runs.storeEnds hl hb hk ha (not_erasing (.inl (by rw [ho]; decide))) fun w => ?_
    dsimp only [Answered, State.m]
    rw [storeEffect_trust _ _ _ ho, store_respond, casc_respond]
    exact ⟨answered hk rfl, rfl, rfl⟩
  case trim =>
    refine Runs.storeEnds hl hb hk ha (not_erasing (.inl (by rw [ho]; decide))) fun w => ?_
    dsimp only [Answered, State.m]
    rw [storeEffect_trim _ _ _ ho, store_respond, st_respond, power_respond]
    exact ⟨answered hk rfl, rfl, rfl, rfl, rfl⟩
  · dsimp only [Answered, State.m]
    rw [storeDone_failed (m := s.q) hb hk, store_respond, boot_respond]
    exact ⟨answered hk rfl, rfl, rfl, rfl, rfl, rfl⟩

end Sys2Proof.Machine
end

section
/-! SUPPORT. Queries, Clerk restarts and telemetry bindings: O28 (R357, R394, R405, R406, R418, R423, R425). -/

namespace Sys2Proof.Machine
open Sys2Proof

/-! ### Queries -/

theorem bread_take (n j : Nat) : ∀ (m : Map Byte) (a : Nat), (bread m a (n + j)).take n = bread m a n := by
  induction n with
  | zero => intros; exact List.take_zero
  | succ n ih =>
    intro m a
    rw [Nat.add_right_comm, bread, bread, List.take_succ_cons, ih]

theorem bread_bwrite_take {n : Nat} {l : List Byte} (h : n ≤ l.length) (m : Map Byte) (a : Nat) : bread (bwrite m a l) a n = l.take n := by
  obtain ⟨j, hj⟩ := Nat.exists_eq_add_of_le h
  rw [← bread_take n j, ← hj, bread_bwrite]

/-- Lines that are free stay free for a shorter access. -/
theorem lineBusy_shorter {m : Mach} {a n p : Nat} (h : lineBusy m a n = false) (hp : p ≤ n) : lineBusy m a p = false := by
  have hle : (a + p - 1) / 64 ≤ (a + n - 1) / 64 := Nat.div_le_div_right (by omega)
  simp only [lineBusy, Bool.or_eq_false_iff, decide_eq_false_iff_not, Decidable.not_not] at h ⊢
  obtain ⟨hheld, hlate⟩ := h
  constructor
  · simp only [hostHolds, List.filter_eq_nil_iff, Bool.and_eq_true, decide_eq_true_eq] at hheld ⊢
    exact fun l hl ⟨h1, h2⟩ => hheld l hl ⟨h1, Nat.le_trans h2 hle⟩
  · simp only [List.any_eq_false, Bool.and_eq_true, decide_eq_true_eq] at hlate ⊢
    exact fun w hw ⟨h1, h2⟩ => hlate w hw ⟨Nat.le_trans h1 hle, h2⟩

section
variable {c : Cfg} {id st : Nat} {k : Cmd} {l d : List Byte} {m : Mach} (hr : k.relay = none)
include hr

theorem putResult_own : putResult id k l m = engPut k.argAddr l m := by unfold putResult; rw [hr]

/-- The first bytes of a result stand in the argument area of its command, once it is answered. -/
theorem result_bytes {n : Nat} (hn : n ≤ l.length) (hf : lineBusy m k.argAddr l.length = false) (hd : k.argAddr + n ≤ evtRing ∨ evtRing + 64 * 4096 ≤ k.argAddr) :
    bread (respond c id st d (putResult id k l m)).mem.cells k.argAddr n = l.take n := by
  rw [putResult_own hr, engPut_free hf, ← bread_bwrite_take hn m.mem.cells k.argAddr]
  refine bget_bread n _ _ _ fun b h1 h2 => respond_out c id st d (memStore k.argAddr l m) b ?_
  have := Nat.mod_lt (memStore k.argAddr l m).rings.evtTail (show 0 < 4096 by decide)
  omega

/-- A query is answered and changes nothing that an answer and its bytes leave alone. -/
theorem result_answered (hk : mget m.rings.cmds id = some k) : (respond c id st d (putResult id k l m)).rings.cmds = mdel m.rings.cmds id :=
  answered hk (by rw [putResult_own hr, rings_engPut])

theorem result_view {α : Type} (g : Mach → α) (hg : ∀ m, g m.still = g m) : g (respond c id st d (putResult id k l m)) = g m := by
  rw [respond_view g hg, putResult_own hr, ← hg, still_engPut, hg]

end

/-- The bytes TRIM_READ returns (R402, R420). -/
def trimBytes (m : Mach) : List Byte :=
  let b := (m.st.trim ++ List.replicate 0x3FF8 (0 : Byte)).take 0x3FF8 ++ toLe 4 m.st.trimSeq
  b ++ toLe 4 (crc32 b)

theorem trimBytes_length (m : Mach) : (trimBytes m).length = 0x4000 := by
  unfold trimBytes
  generalize hb : (m.st.trim ++ List.replicate 0x3FF8 (0 : Byte)).take 0x3FF8 = b
  have : b.length = 0x3FF8 := by rw [← hb, List.length_take, List.length_append, List.length_replicate]; omega
  simp only [List.length_append, toLe_length, this]

/-- The bytes ENROL_QUERY returns (R357). -/
def enrolBytes (m : Mach) : List Byte :=
  toLe 4 m.boot.epoch ++ toLe 4 0 ++ enrolPub m m.boot.epoch ++ attestSign m m.boot.epoch (sha384 (toLe 4 m.boot.epoch ++ enrolPub m m.boot.epoch))
    ++ toLe 2 (enrolBlob m).length ++ List.replicate 54 (0 : Byte) ++ enrolBlob m

theorem toBe_length (w v : Nat) : (toBe w v).length = w := by rw [toBe, List.length_reverse, toLe_length]

theorem ecPub_length (d : Nat) : (ecPub d).length ≤ 96 := by
  unfold ecPub
  split
  · exact Nat.le_of_eq (by rw [List.length_append, toBe_length, toBe_length])
  · exact Nat.zero_le _

theorem ecSign_length (d : Nat) (hash : List Byte) (k : Nat) : (ecSign d hash k).length = 96 := by
  unfold ecSign
  dsimp only
  rw [List.length_append, toBe_length, toBe_length]

theorem enrolBytes_length (m : Mach) : (enrolBytes m).length ≤ 256 + (enrolBlob m).length ∧ 4 ≤ (enrolBytes m).length := by
  have hp := ecPub_length (enrolPriv m m.boot.epoch)
  have hs := ecSign_length (attestPriv m m.boot.epoch) (sha384 (toLe 4 m.boot.epoch ++ enrolPub m m.boot.epoch)) (Config.draw m.draws)
  unfold enrolBytes attestSign enrolPub
  simp only [List.length_append, toLe_length, List.length_replicate]
  unfold enrolPub at hs
  omega

theorem enrolBytes_take (m : Mach) : (enrolBytes m).take 4 = toLe 4 m.boot.epoch := by
  unfold enrolBytes
  simp only [List.append_assoc]
  rw [List.take_append_of_le_length (Nat.le_of_eq (toLe_length 4 _).symm), List.take_of_length_le (Nat.le_of_eq (toLe_length 4 _))]

/-! ### Clerks -/

theorem rings_coresChanged (c : Cfg) (m : Mach) : (coresChanged c m).rings = m.rings := by
  unfold coresChanged
  split
  · exact rings_frameTo ..
  · rfl

theorem still_coresChanged (c : Cfg) (m : Mach) : (coresChanged c m).still = m.still := by
  unfold coresChanged
  split
  · exact still_frameTo ..
  · rfl

/-- What an interrupted command had set touches neither the Clerks nor the commands. -/
theorem undo_kept (c : Cfg) (k : Cmd) (m : Mach) : (undo c k m).clerks = m.clerks ∧ (undo c k m).rings = m.rings := by
  have hc (c : Cfg) (m : Mach) : (coresChanged c m).clerks = m.clerks := by
    have := congrArg Mach.clerks (still_coresChanged c m)
    exact this
  unfold undo
  split
  case h_6 =>
    split
    · exact ⟨rfl, rfl⟩
    · exact ⟨hc .., rings_coresChanged ..⟩
  all_goals exact ⟨rfl, rfl⟩

/-- A Clerk that halts: it alone has stopped, and its commands are those of before, waiting to start. -/
theorem clerkHalt_halts (c : Cfg) (i cause : Nat) (m : Mach) :
    (clerkHalt c i cause m).clerks = lupd m.clerks i (fun k => { k with running := false, cause := cause, sram := [] })
      ∧ (∀ id, mget m.rings.cmds id = none → mget (clerkHalt c i cause m).rings.cmds id = none)
      ∧ ∀ id k, mget (clerkHalt c i cause m).rings.cmds id = some k → clerkOf k.opcode = i → k.phase = 0 := by
  unfold clerkHalt
  dsimp only
  generalize hn : List.foldl _ _ _ = n
  have hclerks : n.clerks = lupd m.clerks i (fun k => { k with running := false, cause := cause, sram := [] }) := by
    rw [← hn]
    exact foldl_keeps Mach.clerks _ (fun m (p : Nat × Cmd) => (undo_kept c p.2 m).1) _ _
  have hrings : n.rings = m.rings := by
    rw [← hn]
    exact foldl_keeps Mach.rings _ (fun m (p : Nat × Cmd) => (undo_kept c p.2 m).2) _ _
  refine ⟨hclerks, fun id h => ?_, fun id k h hk => ?_⟩
  · rw [mget_mmap, hrings, h]
    rfl
  · rw [mget_mmap, Option.map_eq_some_iff] at h
    obtain ⟨x, -, rfl⟩ := h
    split at hk <;> rename_i hx
    · rw [if_pos hx]
    · exact absurd hk hx

theorem clerks_respond (c : Cfg) (id st : Nat) (l : List Byte) (m : Mach) : (respond c id st l m).clerks = m.clerks := respond_view Mach.clerks (fun _ => rfl) ..
theorem clerks_post (c : Cfg) (code : Nat) (ws : List Nat) (m : Mach) : (post c code ws m).clerks = m.clerks := post_view Mach.clerks (fun _ => rfl) ..

theorem clerkRuns_some {m : Mach} {i : Nat} (h : clerkRuns m i = true) : ∃ x, m.clerks[i]? = some x ∧ x.running = true := by
  unfold clerkRuns at h
  rw [List.getD_eq_getElem?_getD] at h
  cases hx : m.clerks[i]? with
  | none => rw [hx] at h; exact absurd h (by decide)
  | some x => rw [hx] at h; exact ⟨x, rfl, h⟩

section
variable {c : Cfg} {m : Mach} {i t : Nat} {x : Clerk} (hx : m.clerks[i]? = some x) (hr : x.running = false) (hs : x.stopped = false) (hc : x.cause ≠ 0) {ok : Bool}
include hx hr hs hc

/-- A halted Clerk that has halted too often, or whose reload fails, is stopped. -/
theorem restartDone_stops (hn : ok = false ∨ 2 ≤ (x.restarts.filter fun r => max m.now t ≤ r + 1000000000).length) :
    ((restartDone i ok t c m).clerks[i]?).map (fun x => (x.running, x.stopped)) = some (false, true) := by
  unfold restartDone
  dsimp only
  rw [show (tickTo t m).clerks[i]? = some x from hx]
  dsimp only
  rw [if_neg (by rw [hr, hs]; simpa using hc), if_pos (by
    rw [Bool.or_eq_true, Bool.not_eq_true', decide_eq_true_eq, List.length_cons]
    exact hn.imp_right Nat.succ_le_succ), clerks_post]
  show ((lupd m.clerks i _)[i]?).map _ = _
  rw [lupd_get, hx, ← hr]
  rfl

/-- Any other halted Clerk starts again. -/
theorem restartDone_starts (ho : ok = true) (hn : (x.restarts.filter fun r => max m.now t ≤ r + 1000000000).length < 2) :
    ((restartDone i ok t c m).clerks[i]?).map (fun x => (x.running, x.cause, x.stopped)) = some (true, 0, false) := by
  unfold restartDone
  dsimp only
  rw [show (tickTo t m).clerks[i]? = some x from hx]
  dsimp only
  rw [if_neg (by rw [hr, hs]; simpa using hc), if_neg (by
    rw [ho, Bool.not_true, Bool.false_or, decide_eq_true_eq, List.length_cons]
    exact Nat.not_le.2 (Nat.succ_lt_succ hn)), clerks_post]
  show ((lupd m.clerks i _)[i]?).map _ = _
  rw [lupd_get, hx, ← hs]
  rfl

end

/-- A command that is accepted is accepted at any later time, where its checks do not speak of the time. -/
theorem cmdRow_later {op id t : Nat} {area : Cmd → Nat} {chk : Cfg → Mach → Cmd → List (Bool × Nat)} {act : Cfg → Cmd → Mach → Mach} {s : State} {k : Cmd}
    (h : accepted op id area chk s k = true) (hc : ∀ c m k, chk c (tickTo t m) k = chk c m k) : cmdRow op id area chk act s.c (tickTo t s.q) = act s.c k (tickTo t s.q) := by
  have hbase : baseChecks s.c (tickTo t s.q) k (area k) = baseChecks s.c s.q k (area k) := rfl
  refine cmdRow_accepted (s := { s with dev := { s.dev with m := tickTo t s.m } }) ?_
  unfold accepted at h ⊢
  rw [show State.q { s with dev := { s.dev with m := tickTo t s.m } } = tickTo t s.q from rfl, hbase, hc]
  exact h

theorem telem_respond (c : Cfg) (id st : Nat) (l : List Byte) (m : Mach) : (respond c id st l m).telem = m.telem := respond_view Mach.telem (fun _ => rfl) ..

/-- Settles O28: the three queries, the Clerks' halts and restarts, the telemetry bindings. -/
theorem queriesClerksAndTelemetry : Obligations.QueriesClerksAndTelemetry := by
  unfold Obligations.QueriesClerksAndTelemetry
  refine ⟨⟨fun s id k h hr ha hb => Runs.row rfl h ?_, fun s id k h hr ha hb => Runs.row rfl h ?_, fun s id k h hr ha hb => Runs.row rfl h ?_⟩,
    fun s id k t0 h hc => Runs.ofM rfl (accepted_live h) ?_, fun s i f t0 hl hc => Runs.ofM rfl hl ?_, fun s i x t0 hl hx hr hs hc hn => Runs.ofM rfl hl ?_,
    fun s i x ok t0 hl hx hr hs hc hn => Runs.ofM rfl hl ?_, fun s id k a h ha => Runs.row rfl h ?_, fun s id k h => Runs.row rfl h ?_⟩
  · obtain ⟨hle, h4⟩ := enrolBytes_length s.q
    have hf : lineBusy (drawn s.q) k.argAddr (enrolBytes s.q).length = false := lineBusy_shorter hb hle
    refine ⟨result_answered (l := enrolBytes s.q) (m := drawn s.q) hr (accepted_cmd h), ?_, result_view (l := enrolBytes s.q) (m := drawn s.q) hr Mach.boot fun _ => rfl⟩
    exact (result_bytes (l := enrolBytes s.q) hr h4 hf ha).trans (enrolBytes_take s.q)
  · have hn := trimBytes_length s.q
    refine ⟨result_answered (l := trimBytes s.q) (m := s.q) hr (accepted_cmd h), result_view (l := trimBytes s.q) (m := s.q) hr Mach.st fun _ => rfl, ?_⟩
    exact (result_bytes (l := trimBytes s.q) hr (Nat.le_of_eq hn.symm) (by rw [hn]; exact hb) ha).trans (List.take_of_length_le (Nat.le_of_eq hn))
  · have hn := bread_length 0x420 s.q.st.record 0
    refine ⟨result_answered (m := s.q) hr (accepted_cmd h), result_view (m := s.q) hr Mach.st fun _ => rfl, ?_⟩
    exact (result_bytes (m := s.q) hr (Nat.le_of_eq hn.symm) (by rw [hn]; exact hb) ha).trans (List.take_of_length_le (Nat.le_of_eq hn))
  · have hrow : clerkRestart id t0 s.c s.q = _ := cmdRow_later (t := t0) h fun _ _ _ => rfl
    have hk : mget (tickTo t0 s.q).rings.cmds id = some k := accepted_cmd h
    have hruns : clerkRuns (respond s.c id stOk [] (tickTo t0 s.q)) (k.argN 0x18 1) = true := by
      unfold clerkRuns
      rw [clerks_respond]
      exact hc
    obtain ⟨x, hx, -⟩ := clerkRuns_some hc
    obtain ⟨hclerks, hgone, -⟩ := clerkHalt_halts s.c (k.argN 0x18 1) 3 (respond s.c id stOk [] (tickTo t0 s.q))
    dsimp only [State.m]
    rw [hrow]
    dsimp only
    rw [if_pos hruns, hclerks, lupd_get, clerks_respond]
    refine ⟨hgone id (by rw [cmds_respond _ _ _ _ _ k hk, mget_mdel]), ?_⟩
    exact congrArg (fun o : Option Clerk => (o.map _).map _) hx
  · obtain ⟨x, hx, -⟩ := clerkRuns_some hc
    obtain ⟨hclerks, -, hwaits⟩ := clerkHalt_halts s.c i (if f then 2 else 1) (tickTo t0 s.q)
    have hhalt : heartbeatMiss i f t0 s.c s.q = clerkHalt s.c i (if f then 2 else 1) (tickTo t0 s.q) := if_pos hc
    dsimp only [State.m]
    rw [hhalt, hclerks, lupd_get]
    exact ⟨congrArg (fun o : Option Clerk => (o.map _).map _) hx, fun j hj => lupd_get_ne _ _ hj, hwaits⟩
  · exact restartDone_starts (m := s.q) hx hr hs hc rfl hn
  · exact restartDone_stops (m := s.q) hx hr hs hc hn
  · have hpage : telemPage s.c s.q k.dom (k.argN 0x18 8) = some a := ha
    dsimp only [Answered, State.m]
    rw [hpage]
    dsimp only
    rw [telem_respond]
    exact ⟨answered (accepted_cmd h) rfl, mget_mset .., fun d hd => mget_mset_ne _ _ hd⟩
  · dsimp only [Answered, State.m]
    rw [telem_respond]
    exact ⟨answered (accepted_cmd h) rfl, mget_mdel .., fun d hd => mget_mdel_ne _ hd⟩

end Sys2Proof.Machine
end

section
/-! SUPPORT. Self-test of a core and of the block, power failure, droop and the power cap: O29, O30 (R360, R408 to R421, R453). -/

namespace Sys2Proof.Machine
open Sys2Proof

/-! ### The result record -/

/-- The block without the bytes of the self-test's record. -/
def Mach.unrecorded (m : Mach) : Mach := { m with st := { m.st with record := [] } }

theorem unrecorded_recPut (off w v : Nat) (m : Mach) : (recPut off w v m).unrecorded = m.unrecorded := rfl

theorem unrecorded_recHead (c : Cfg) (m : Mach) : (recHead c m).unrecorded = m.unrecorded := by
  unfold recHead
  dsimp only
  rw [foldl_keeps Mach.unrecorded _ (fun m (p : Nat) => by split <;> rfl), unrecorded_recPut, unrecorded_recPut, unrecorded_recPut]

theorem unrecorded_ite {p : Prop} [Decidable p] {m n : Mach} (h : n.unrecorded = m.unrecorded) : (if p then n else m).unrecorded = m.unrecorded := by
  split
  · exact h
  · rfl

/-- A view that the record does not enter. -/
theorem view_of_unrecorded {α : Type} (g : Mach → α) (hg : ∀ m, g m.unrecorded = g m) {m n : Mach} (h : m.unrecorded = n.unrecorded) : g m = g n := by
  rw [← hg, h, hg]

theorem coresChanged_view {α : Type} (g : Mach → α) (hg : ∀ m, g m.still = g m) (c : Cfg) (m : Mach) : g (coresChanged c m) = g m := by
  rw [← hg, still_coresChanged, hg]

/-! ### Self-test -/

/-- The second row of a command under way, at a later time. -/
theorem withCmd2_later {op id t : Nat} {f : Cmd → Mach → Mach} {s : State} {k : Cmd} (h : continues op id s k = true) :
    withCmd2 op id f (tickTo t s.q) = f k (tickTo t s.q) := by
  have hl : continues op id { s with dev := { s.dev with m := tickTo t s.m } } k = true := h
  exact withCmd2_continues hl

/-- Whether a test's signatures match: those that its mode asks for (R418). -/
def testPasses (c : Cfg) (k : Cmd) (logic mem : Nat) : Bool :=
  (k.argN 0x19 1 % 2 = 0 || logic == expLogic c.strap.stepping) && (k.argN 0x19 1 / 2 = 0 || mem == expMem)

/-- The record of a test that ends. -/
def testRecorded (c : Cfg) (k : Cmd) (logic mem fail : Nat) (m : Mach) : Mach :=
  let p := physOf c k.arg
  let m := if k.argN 0x19 1 % 2 = 1 then recPut (0x20 + 32 * p) 8 logic m else m
  let m := if k.argN 0x19 1 / 2 = 1 then recPut (0x30 + 32 * p) 4 fail (recPut (0x28 + 32 * p) 8 mem m) else m
  recPut (0x34 + 32 * p) 1 (if testPasses c k logic mem then 0 else 2) m

theorem unrecorded_testRecorded (c : Cfg) (k : Cmd) (logic mem fail : Nat) (m : Mach) : (testRecorded c k logic mem fail m).unrecorded = m.unrecorded := by
  unfold testRecorded
  dsimp only
  rw [unrecorded_recPut]
  refine (unrecorded_ite ?_).trans (unrecorded_ite (unrecorded_recPut ..))
  rw [unrecorded_recPut, unrecorded_recPut]

/-- The core and the settings of the self-test once a test has ended (R416). -/
def testEnded (c : Cfg) (k : Cmd) (pass : Bool) (m : Mach) : Mach :=
  let m := coresChanged c (cleanCore k.arg { m with
    st := { m.st with core := none, tries := 0, failedBefore := false }
    cores := lupd m.cores k.arg fun x => { x with regs := { x.regs with test := if pass then 0 else 3, since := m.now } } })
  if pass then m else post c evSelftestFail [k.arg, physOf c k.arg] m

theorem testEnded_view {α : Type} (g : Mach → α) (hg : ∀ m, g m.still = g m) (c : Cfg) (k : Cmd) (pass : Bool) (m : Mach) :
    g (testEnded c k pass m) = g (cleanCore k.arg { m with
      st := { m.st with core := none, tries := 0, failedBefore := false }
      cores := lupd m.cores k.arg fun x => { x with regs := { x.regs with test := if pass then 0 else 3, since := m.now } } }) := by
  unfold testEnded
  dsimp only
  split
  · exact coresChanged_view g hg ..
  · exact (post_view g hg ..).trans (coresChanged_view g hg ..)

theorem cmds_testEnded (c : Cfg) (k : Cmd) (pass : Bool) (m : Mach) : (testEnded c k pass m).rings.cmds = m.rings.cmds := by
  unfold testEnded
  dsimp only
  split
  · rw [rings_coresChanged]
    rfl
  · rw [cmds_post, rings_coresChanged]
    rfl

/-- What a test's answer returns (R418). -/
def testAnswer (c : Cfg) (k : Cmd) (logic mem : Nat) : List Byte :=
  toLe 1 (physOf c k.arg) ++ toLe 1 (b2n (testPasses c k logic mem)) ++ toLe 6 0 ++ toLe 8 (if k.argN 0x19 1 % 2 = 1 then logic else 0)
    ++ toLe 8 (if k.argN 0x19 1 / 2 = 1 then mem else 0)

theorem bistDone_tested {s : State} {id logic mem fail : Nat} {k : Cmd} {x : Core} (h : continues 0x0900 id s k = true) (hx : s.m.cores[k.arg]? = some x) (ht : x.regs.test = 2) :
    bistDone id logic mem fail s.c s.q = respond s.c id (if testPasses s.c k logic mem then stOk else stInternal) (testAnswer s.c k logic mem)
      (testEnded s.c k (testPasses s.c k logic mem) (testRecorded s.c k logic mem fail s.q)) := by
  have hx : s.q.cores[k.arg]? = some x := hx
  unfold bistDone
  rw [withCmd2_continues h, hx]
  dsimp only
  rw [if_neg (by rw [ht]; decide)]
  rfl

/-- The cores of a core that is cleared (R360). -/
theorem cores_cleanCore (k : Nat) (m : Mach) :
    (cleanCore k m).cores = lupd m.cores k fun x => coreClear { x.regs with dirty := false, clean := true, gated := false, state := idleState x.regs } := rfl

/-- A core that waits for its test begins it once nothing of it is outstanding (R416). -/
theorem bistDrained_tests {s : State} {id t : Nat} {k : Cmd} {x : Core} (h : continues 0x0900 id s k = true) (hx : s.m.cores[k.arg]? = some x) (hn : x.tc = none) (ht : x.regs.test = 1)
    (hr : readsBack s.q k.arg = true) : bistDrained id t s.c s.q = { cleanCore k.arg (tickTo t s.q) with
      cores := lupd (cleanCore k.arg (tickTo t s.q)).cores k.arg fun x => { x with regs := { x.regs with test := 2, state := 4, scrubs := (x.regs.scrubs + 1) % 2 ^ 64 } } } := by
  have hx : (tickTo t s.q).cores[k.arg]? = some x := hx
  have hr : readsBack (tickTo t s.q) k.arg = true := hr
  unfold bistDrained
  rw [withCmd2_later h, hx]
  dsimp only
  rw [if_neg (by rw [hn, ht, hr]; decide)]

/-- BIST_CORE of a block with no core under test. -/
theorem bistCore_begins {s : State} {id : Nat} {k : Cmd} (h : accepted 0x0900 id (fun _ => 0) bistCoreChecks s k = true) (hn : s.m.st.core = none) : ∃ m : Mach,
    m.unrecorded = (underWay id (k.argN 0x18 1) { s.q with
      st := { s.q.st with core := some (k.argN 0x18 1), tries := 0, failedBefore := (s.q.cores.getD (k.argN 0x18 1) core0).regs.test == 3 }
      cores := lupd s.q.cores (k.argN 0x18 1) fun x => { x with regs := { x.regs with test := 1, state := 4 } } }).unrecorded
    ∧ bistCore id s.c s.q = coresChanged s.c m := by
  refine ⟨_, ?_, (if_neg (by rw [show s.q.st.core = none from hn]; decide)).trans (cmdRow_accepted h)⟩
  rw [unrecorded_recPut, unrecorded_recHead]

/-- The memory test of the block has ended: its verdict stands, and every SRAM is empty (R417). -/
theorem mbistDone_ends {c : Cfg} {m : Mach} (h : m.st.mbistState = 1) (shared summary : Nat) (sigs fails : List Nat) : ∃ n : Mach,
    mbistDone shared summary sigs fails c m = bootState bsWaitLoad (readStore c (sramLost { n with st := { n.st with
      mbistState := 2, mbistPass := (List.range (coreCount m)).all (fun k => nth sigs k == expMem) && shared == expShared c.strap.stepping
        && summary == expSummary c.strap.stepping c.strap.cores } })) := ⟨_, if_neg (Classical.not_not.2 h)⟩

theorem clears_view {α : Type} (g : Mach → α) (hg : ∀ m, g m.still = g m) (hc : ∀ m x, g { m with casc := x } = g m) (hb : ∀ m x, g { m with boot := x } = g m)
    (hs : ∀ m a b y, g { m with st := { m.st with trim := a, trimSeq := b }, power := y } = g m) (c : Cfg) (m : Mach) : g (bootState bsWaitLoad (readStore c m)) = g m := by
  unfold bootState
  rw [hb, readStore_view g hg hc hs, hb]

theorem mbistGo_begins {v : Nat} {m : Mach} (hv : v % 2 = 1) (hb : m.boot.state = bsWaitLoad ∨ m.boot.state = bsFailed) (hm : m.st.mbistState ≠ 1) :
    mbistGo v m = { m with st := { m.st with mbistState := 1 } } := if_pos (by simpa [hv, hm] using hb)

theorem bootState_state (b : Nat) (m : Mach) : (bootState b m).boot.state = b := rfl

/-- Settles O29: a core's test from its command to its verdict, and the block's memory test. -/
theorem selfTestRows : Obligations.SelfTestRows := by
  unfold Obligations.SelfTestRows
  refine ⟨fun s id k h hn => Runs.ofM rfl (accepted_live h) ?_, fun s id k x t0 h hx hn ht hr => Runs.ofM rfl (continues_live h) ?_,
    fun s id k x a b f h hx ht => Runs.ofM rfl (continues_live h) ?_, fun s v hl hv hb hm => Runs.ofM rfl hl ?_, fun s sh su sg fl hl hm => Runs.ofM rfl hl ?_⟩
  · obtain ⟨m, hm, he⟩ := bistCore_begins h hn
    dsimp only [begun, State.m]
    rw [he, rings_coresChanged, coresChanged_view (fun m => m.st.core) (fun _ => rfl), coresChanged_view Mach.cores (fun _ => rfl), view_of_unrecorded Mach.rings (fun _ => rfl) hm,
      view_of_unrecorded (fun m => m.st.core) (fun _ => rfl) hm, view_of_unrecorded Mach.cores (fun _ => rfl) hm]
    refine ⟨underWay_begun (accepted_cmd h), rfl, fun x hx => ?_⟩
    obtain ⟨y, -, rfl⟩ := Option.map_eq_some_iff.1 ((lupd_get s.q.cores (k.argN 0x18 1) _).symm.trans hx)
    rfl
  · dsimp only [State.m]
    rw [bistDrained_tests h hx hn ht hr, cores_cleanCore]
    dsimp only
    rw [lupd_get, lupd_get, show (tickTo t0 s.q).cores[k.arg]? = some x from hx]
    exact ⟨_, rfl, rfl, rfl, rfl, rfl, rfl, rfl, rfl, fun j hj => (lupd_get_ne _ _ hj).trans (lupd_get_ne _ _ hj)⟩
  · have hrec := unrecorded_testRecorded s.c k a b f s.q
    have hcores : (testRecorded s.c k a b f s.q).cores = s.q.cores := view_of_unrecorded Mach.cores (fun _ => rfl) hrec
    have hrings : (testRecorded s.c k a b f s.q).rings = s.q.rings := view_of_unrecorded Mach.rings (fun _ => rfl) hrec
    have hcmds := (cmds_testEnded s.c k (testPasses s.c k a b) (testRecorded s.c k a b f s.q)).trans (congrArg Rings.cmds hrings)
    have hverdict : ((k.argN 0x19 1 % 2 = 0 ∨ a = expLogic s.c.strap.stepping) ∧ (k.argN 0x19 1 / 2 = 0 ∨ b = expMem)) ↔ testPasses s.c k a b = true := by
      simp [testPasses]
    dsimp only [Answered, State.m]
    rw [bistDone_tested h hx ht, cmds_respond _ _ _ _ _ k (by rw [hcmds]; exact continues_cmd h), hcmds, st_respond, cores_respond,
      testEnded_view (fun m => m.st.core) (fun _ => rfl), testEnded_view Mach.cores (fun _ => rfl), cores_cleanCore]
    dsimp only
    rw [lupd_get, lupd_get, hcores, show s.q.cores[k.arg]? = some x from hx]
    refine ⟨rfl, rfl, _, rfl, ?_⟩
    simp only [hverdict]
    rfl
  · exact mbistGo_begins (m := s.q) hv hb hm
  · obtain ⟨n, hn⟩ := mbistDone_ends (c := s.c) (m := s.q) hm sh su sg fl
    dsimp only [State.m]
    rw [hn, bootState_state, clears_view (fun m => m.st.mbistState) (fun _ => rfl) (fun _ _ => rfl) (fun _ _ => rfl) (fun _ _ _ _ => rfl),
      clears_view (fun m => m.st.mbistPass) (fun _ => rfl) (fun _ _ => rfl) (fun _ _ => rfl) (fun _ _ _ _ => rfl),
      clears_view Mach.xl (fun _ => rfl) (fun _ _ => rfl) (fun _ _ => rfl) (fun _ _ _ _ => rfl), clears_view Mach.depot (fun _ => rfl) (fun _ _ => rfl) (fun _ _ => rfl) (fun _ _ _ _ => rfl),
      clears_view Mach.keys (fun _ => rfl) (fun _ _ => rfl) (fun _ _ => rfl) (fun _ _ _ _ => rfl),
      clears_view (fun m => m.mem.granules) (fun _ => rfl) (fun _ _ => rfl) (fun _ _ => rfl) (fun _ _ _ _ => rfl)]
    exact ⟨rfl, rfl, rfl, rfl, rfl, rfl, rfl⟩

/-! ### Power -/

theorem power_post (c : Cfg) (code : Nat) (ws : List Nat) (m : Mach) : (post c code ws m).power = m.power := post_view Mach.power (fun _ => rfl) ..
theorem cores_post (c : Cfg) (code : Nat) (ws : List Nat) (m : Mach) : (post c code ws m).cores = m.cores := post_view Mach.cores (fun _ => rfl) ..

theorem pfwAssert_first {c : Cfg} {m : Mach} {t : Nat} (h : m.power.fail = 0) : pfwAssert t c m =
    post c evPowerFail [] { tickTo t m with power := { m.power with fail := 1, failAt := max m.now t }, st := { m.st with core := none } } := if_neg (Classical.not_not.2 h)

/-- Nothing issues while power fails (R408). -/
theorem canIssue_failing {m : Mach} (h : m.power.fail ≠ 0) (k l : Nat) : canIssue m k l = none := by
  have hi : issuing m k = none := by
    unfold issuing
    split
    · rfl
    · rename_i x _
      cases x.tc with
      | none => rfl
      | some t => exact if_pos (by simp [h])
  unfold canIssue
  rw [hi]
  rfl

/-- A core as the stop of a failing block leaves it: one that ran is cleared, and must be scrubbed. -/
def stopped (now : Nat) (x : Core) : Core :=
  match x.tc with
  | none => x
  | some _ => coreClear { x.regs with dirty := true, state := idleState x.regs, since := now }

theorem tc_stopped (now : Nat) (x : Core) : (stopped now x).tc = none := by
  unfold stopped
  split
  · assumption
  · rfl

theorem failStop_due {m : Mach} {t : Nat} (h : m.power.fail = 1) (ht : m.power.failAt + 50000 ≤ max m.now t) : failStop t m = { tickTo t m with
    power := { m.power with fail := 2 }, cores := m.cores.map (stopped (max m.now t)), arb := { m.arb with later := [], waiting := [], tags := [] }
    depot := { m.depot with ops := [] } } := by
  have hnot : ¬(decide ((tickTo t m).power.fail ≠ 1) || decide ((tickTo t m).now < (tickTo t m).power.failAt + 50000)) = true := by
    simp only [Bool.or_eq_true, decide_eq_true_eq, not_or, Decidable.not_not, Nat.not_lt]
    exact ⟨h, ht⟩
  exact if_neg hnot

theorem failFreeze_due {m : Mach} {t : Nat} (h : m.power.fail = 2) (hs : m.store.busy = none) :
    failFreeze t m = { tickTo t m with power := { m.power with fail := 3 } } :=
  if_pos (by rw [show (tickTo t m).power.fail = 2 from h, show (tickTo t m).store.busy = none from hs]; decide)

/-! ### Droop and the cap -/

theorem retryTest_none {c : Cfg} {k : Nat} {m : Mach} (h : m.st.core = none) : retryTest c k m = m := if_pos (by rw [h]; rfl)

theorem settleTime_eq (k : Nat) (m : Mach) : ∃ f, settleTime k m = { m with cores := lupd m.cores k f } := ⟨_, rfl⟩

/-- The droop detector marks its core and counts. -/
theorem droopTrip_marks {c : Cfg} {m : Mach} {k t : Nat} (hk : k < m.cores.length) (hs : m.st.core = none) : ∃ f, droopTrip k t c m = { tickTo t m with
    cores := lupd (lupd m.cores k f) k fun x => { x with regs := { x.regs with droop := true } }
    telem := { m.telem with droops := mset m.telem.droops k ((mget m.telem.droops k).getD 0 + 1) } } := by
  obtain ⟨f, hf⟩ := settleTime_eq k (tickTo t m)
  refine ⟨f, ?_⟩
  unfold droopTrip
  dsimp only
  rw [if_neg (show ¬(tickTo t m).cores.length ≤ k from Nat.not_le.2 hk), hf]
  exact retryTest_none hs

theorem lupd_twice {α : Type} {l : List α} {k : Nat} (h : k < l.length) (f g : α → α) : (∃ x, (lupd (lupd l k f) k g)[k]? = some (g x)) ∧ ∀ j, j ≠ k → (lupd (lupd l k f) k g)[j]? = l[j]? := by
  refine ⟨⟨f l[k], ?_⟩, fun j hj => (lupd_get_ne _ _ hj).trans (lupd_get_ne _ _ hj)⟩
  rw [lupd_get, lupd_get, List.getElem?_eq_getElem h]
  rfl

/-- The power registers as a step of the cap leaves them (R411). -/
def dutyPower (c : Cfg) (m : Mach) : Power :=
  let duty := if capNow c m < m.power.watts then m.power.duty - (if 1 < m.power.duty then 1 else 0)
    else if 100 * m.power.watts < 95 * capNow c m && m.power.duty < 16 then m.power.duty + 1 else m.power.duty
  let past := capNow c m < m.power.watts && m.power.duty ≤ 1
  { m.power with duty := duty, lowDuty := min m.power.lowDuty duty, limiting := m.power.limiting || duty < 16, exceeded := m.power.exceeded || past }

/-- An event that may be posted leaves the power registers and the self-test alone. -/
theorem maybePost_kept (p : Bool) (c : Cfg) (code : Nat) (l : List Nat) (m : Mach) :
    (if p then post c code l m else m).power = m.power ∧ (if p then post c code l m else m).st = m.st := by
  cases p
  · exact ⟨rfl, rfl⟩
  · exact ⟨power_post .., post_view Mach.st (fun _ => rfl) ..⟩

theorem power_dutyStep {c : Cfg} {m : Mach} {t : Nat} (hs : m.st.core = none) : (dutyStep t c m).power = dutyPower c m := by
  have hp : (settleAll (tickTo t m)).power = m.power := foldl_keeps Mach.power (fun m k => settleTime k m) (fun _ _ => rfl) _ _
  have hst : (settleAll (tickTo t m)).st = m.st := foldl_keeps Mach.st (fun m k => settleTime k m) (fun _ _ => rfl) _ _
  unfold dutyStep
  dsimp only
  generalize settleAll (tickTo t m) = n at hp hst
  rw [show capNow c n = capNow c m by unfold capNow; rw [hp], hp]
  obtain ⟨hp2, hst2⟩ := maybePost_kept (decide (capNow c m < m.power.watts) && decide (m.power.duty ≤ 1) && !m.power.exceeded) c evPowerCapExceeded [m.power.watts] n
  rw [hst2, hst, hs]
  dsimp only
  rw [hp2, hp]
  rfl

/-- Settles O30: the power failure's three rows, droop, the estimate, the cap's duty. -/
theorem powerFailureDroopAndCap : Obligations.PowerFailureDroopAndCap := by
  unfold Obligations.PowerFailureDroopAndCap
  refine ⟨fun s t0 hl h => Runs.ofM rfl hl ?_, fun s t0 hl h ht => Runs.ofM rfl hl ?_, fun s t0 hl h hs => Runs.ofM rfl hl ?_, fun s k t0 hl hk hs => Runs.ofM rfl hl ?_,
    fun s k t0 hl hk => Runs.ofM rfl hl ?_, fun s cs ts t0 hl => Runs.ofM rfl hl ?_, fun s t0 hl hs => Runs.ofM rfl hl ?_⟩
  · dsimp only [State.m]
    rw [pfwAssert_first (m := s.q) h, power_post, cores_post]
    exact ⟨rfl, rfl, canIssue_failing (by rw [power_post]; exact Nat.one_ne_zero), rfl⟩
  · dsimp only [State.m]
    rw [failStop_due (m := s.q) h ht]
    refine ⟨rfl, fun x hx => ?_, rfl, rfl, rfl, rfl, rfl⟩
    obtain ⟨y, -, rfl⟩ := List.mem_map.1 hx
    exact tc_stopped ..
  · dsimp only [live, State.m]
    rw [failFreeze_due (m := s.q) h hs]
    exact ⟨rfl, rfl⟩
  · obtain ⟨f, hf⟩ := droopTrip_marks (c := s.c) (m := s.q) (t := t0) hk hs
    obtain ⟨⟨x, hx⟩, hother⟩ := lupd_twice hk f fun x => { x with regs := { x.regs with droop := true } }
    dsimp only [State.m]
    rw [hf]
    exact ⟨⟨_, hx, rfl⟩, congrArg (Option.getD · 0) (mget_mset ..), hother⟩
  · obtain ⟨f, hf⟩ := settleTime_eq k (tickTo t0 s.q)
    obtain ⟨⟨x, hx⟩, hother⟩ := lupd_twice hk f fun x => { x with regs := { x.regs with droop := false } }
    have he : droopRecovery k t0 s.q = _ := congrArg (fun m : Mach => { m with cores := lupd m.cores k fun x => { x with regs := { x.regs with droop := false } } }) hf
    dsimp only [State.m]
    rw [he]
    exact ⟨⟨_, hx, rfl⟩, rfl, hother⟩
  · exact ⟨rfl, List.length_take_le .., rfl, rfl, rfl⟩
  · dsimp only [State.m]
    rw [power_dutyStep (m := s.q) hs]
    refine ⟨?_, rfl⟩
    unfold dutyPower
    simp only [Bool.and_eq_true, decide_eq_true_eq]
    exact ite_congr rfl (fun _ => apply_ite (s.m.power.duty - ·) ..) fun _ => rfl

end Sys2Proof.Machine
end

section
/-! SUPPORT. Queue commands: O31 to O33 (R246 to R250, R273, R274, R286). -/

namespace Sys2Proof.Machine
open Sys2Proof

/-! ### Rows behind a load -/

/-- The tile-commands of the cores. -/
def tcsOf (m : Mach) : List (Option TileCmd) := m.cores.map Core.tc

theorem tcsOf_pump (m : Mach) : tcsOf (pump m) = tcsOf m :=
  List.ext_getElem? fun i => by rw [tcsOf, tcsOf, List.getElem?_map, List.getElem?_map, view_pump Core.tc (fun _ _ => rfl)]

theorem tcsOf_addLater (rs : List Req) (m : Mach) : tcsOf (addLater rs m) = tcsOf m := by
  unfold addLater
  split
  · rfl
  · exact tcsOf_pump _

theorem tcsOf_outsideReqs (c : Cfg) (who dom q : Nat) (wr : Bool) (a n : Nat) (m : Mach) : tcsOf (outsideReqs c who dom q wr a n m) = tcsOf m := by
  unfold outsideReqs
  split
  · rfl
  · exact tcsOf_addLater ..

theorem cores_engPut (a : Nat) (l : List Byte) (m : Mach) : (engPut a l m).cores = m.cores := (congrArg Mach.cores (still_engPut a l m) :)

theorem cores_contextBack (c : Cfg) (m : Mach) (r : Nat) : (((qGet m r).map fun y => engPut (c.tb.ctx + 64 * r) (ctxBytes y.ctx) m).getD m).cores = m.cores := by
  cases qGet m r with
  | none => rfl
  | some y =>
    rw [Option.map_some, Option.getD_some]
    exact cores_engPut ..

theorem cores_ctxTouch (c : Cfg) (q : Nat) (m : Mach) : (ctxTouch c q m).cores = m.cores := by
  have hput (l : List Nat) (n : Mach) : (l.foldl (fun m r => ((qGet m r).map fun y => engPut (c.tb.ctx + 64 * r) (ctxBytes y.ctx) m).getD m) n).cores = n.cores :=
    foldl_keeps Mach.cores _ (cores_contextBack c) l n
  exact hput ((q :: m.ctxCache.erase q).drop 8192) { m with ctxCache := (q :: m.ctxCache.erase q).take 8192 }

theorem tcsOf_ctxTouch (c : Cfg) (q : Nat) (m : Mach) : tcsOf (ctxTouch c q m) = tcsOf m := congrArg (List.map Core.tc) (cores_ctxTouch c q m)

/-- The load of a context whose lines pass changes no tile-command. -/
theorem tcsOf_loadCtx {c : Cfg} {q d : Nat} {m : Mach} (hq : (!m.ctxCache.contains q && (badIn m.mem (c.tb.ctx + 64 * q) 64).isSome) = false)
    (hd : (!m.domCache.contains d && (badIn m.mem (c.tb.dom + 256 * d) 256).isSome) = false) : tcsOf (loadCtx c q d m) = tcsOf m := by
  have asked (b : Bool) (a n : Nat) (m : Mach) : tcsOf (if b then m else outsideReqs c 32 0 q false a n m) = tcsOf m := by
    cases b
    · exact tcsOf_outsideReqs ..
    · rfl
  unfold loadCtx
  dsimp only
  rw [if_neg (by rw [hq]; decide), if_neg (by rw [hd]; decide), tcsOf_ctxTouch, domTouch_view tcsOf (fun _ => rfl) (fun _ _ => rfl), asked, asked]

theorem tcsOf_queueLoad {s : State} {k : Cmd} (h : ctxReady s (k.argN 0x18 4) k.dom) : tcsOf (queueLoad s.c k s.q) = tcsOf s.q := by
  obtain hl | ⟨⟨hq, -, hd, -⟩, hl⟩ := queueLoad_cases (s := s) (k := k) fun _ => h <;> rw [hl]
  exact tcsOf_loadCtx (loads_good hq) (loads_good hd)

/-- A command read from the ring under number `id` is `k`, of code `op`; it may start, and no check of its row fails (R393 to R395, R474). -/
structure Passes (op id : Nat) (area : Cmd → Nat) (chk : Cfg → Mach → Cmd → List (Bool × Nat)) (c : Cfg) (m : Mach) (k : Cmd) : Prop where
  read : mget m.rings.cmds id = some k
  code : k.opcode = op
  fresh : k.phase = 0
  ready : cmdReady m k = true
  status : cmdStatus (baseChecks c m k (area k) ++ chk c m k) = stOk

section
variable {op id : Nat} {area : Cmd → Nat} {chk : Cfg → Mach → Cmd → List (Bool × Nat)} {s : State} {c : Cfg} {m n : Mach} {k : Cmd}

theorem passes_of_accepted (h : accepted op id area chk s k = true) : Passes op id area chk s.c s.q k := by
  simp only [accepted, Bool.and_eq_true, beq_iff_eq] at h
  obtain ⟨⟨⟨⟨⟨-, hk⟩, ho⟩, hp⟩, hr⟩, hs⟩ := h
  exact ⟨hk, ho, hp, hr, hs⟩

/-- A command that may start runs. -/
theorem withCmd_starts (hk : mget m.rings.cmds id = some k) (ho : k.opcode = op) (hp : k.phase = 0) (hr : cmdReady m k = true) (f : Cmd → Mach → Mach) :
    withCmd op id f m = f k m := by
  unfold withCmd
  rw [hk]
  dsimp only
  rw [ho, hp, hr, if_pos (by simp)]

theorem Passes.row (h : Passes op id area chk c m k) (act : Cfg → Cmd → Mach → Mach) : cmdRow op id area chk act c m = act c k m := by
  unfold cmdRow
  rw [withCmd_starts h.read h.code h.fresh h.ready]
  dsimp only
  rw [h.status]
  rfl

theorem Passes.of_loaded (h : Passes op id area chk c m k) (hb : LoadBlind chk) (hn : n.loaded = m.loaded) : Passes op id area chk c n k where
  read := by rw [show n.rings = m.rings from (congrArg Mach.rings hn :)]; exact h.read
  code := h.code
  fresh := h.fresh
  ready := (congrArg (cmdReady · k) hn :).trans h.ready
  status := by
    have hbase : baseChecks c n k (area k) = baseChecks c m k (area k) := (congrArg (baseChecks c · k (area k)) hn :)
    rw [hbase, ← hb c n k, hn, hb c m k]; exact h.status

/-- A queue command that is accepted acts on a block that its load has left as it was. -/
theorem queueRow_loads {act : Cfg → Cmd → Mach → Mach} (h : queueRowOk op id area chk s k) (hb : LoadBlind chk) :
    ∃ n : Mach, n.loaded = s.q.loaded ∧ tcsOf n = tcsOf s.q ∧ queueRow op id area chk act s.c s.q = act s.c k n := by
  obtain ⟨ha, hready⟩ := h
  have hp := passes_of_accepted ha
  have hn := loaded_queueLoad (s := s) (k := k) fun _ => hready
  refine ⟨_, hn, tcsOf_queueLoad hready, ?_⟩
  rw [queueRow_eq, withCmd_starts hp.read hp.code hp.fresh hp.ready]
  exact (hp.of_loaded hb hn).row act

theorem Runs.queueRow {i : Instr} {act : Cfg → Cmd → Mach → Mach} {P : State → Prop} (hi : exec i s = s.runM (Sys2Proof.Machine.queueRow op id area chk act))
    (h : queueRowOk op id area chk s k) (hb : LoadBlind chk)
    (hp : ∀ n : Mach, n.loaded = s.q.loaded → tcsOf n = tcsOf s.q → P { s with dev := { cfg := s.c, m := act s.c k n } }) : Runs i s P := by
  obtain ⟨n, hn, ht, he⟩ := queueRow_loads (act := act) h hb
  refine Runs.ofM hi (accepted_live h.1) ?_
  rw [he]
  exact hp n hn ht

end

theorem queues_respond (c : Cfg) (id st : Nat) (l : List Byte) (m : Mach) : (respond c id st l m).queues = m.queues := respond_view Mach.queues (fun _ => rfl) ..
theorem qGet_respond (c : Cfg) (id st : Nat) (l : List Byte) (m : Mach) (q : Nat) : qGet (respond c id st l m) q = qGet m q := congrArg (mget · q) (queues_respond ..)

section
variable {s : State} {n : Mach} (hn : n.loaded = s.q.loaded)
include hn
theorem rings_of_loaded : n.rings = s.q.rings := (congrArg Mach.rings hn :)
theorem queues_of_loaded : n.queues = s.q.queues := (congrArg Mach.queues hn :)
theorem qGet_of_loaded (q : Nat) : qGet n q = qGet s.q q := (congrArg (qGet · q) hn :)
theorem area_of_loaded (k : Cmd) (a : Nat) : areaBytes n k a = areaBytes s.q k a := (congrArg (areaBytes · k a) hn :)
theorem answered_of_loaded {c : Cfg} {id st : Nat} {l : List Byte} {m : Mach} {k : Cmd} (hk : mget s.q.rings.cmds id = some k) (hm : m.rings = n.rings) :
    (respond c id st l m).rings.cmds = mdel s.m.rings.cmds id := answered hk (hm.trans (rings_of_loaded hn))
end

/-! ### Checks -/

/-- No check of an accepted command fails with a status of the order of R474. -/
theorem cmdStatus_ok {l : List (Bool × Nat)} (h : cmdStatus l = stOk) {st : Nat} (hs : st ∈ statusOrder) : (true, st) ∉ l := by
  intro hl
  rw [cmdStatus_eq] at h
  cases hf : statusOrder.find? fun s => l.any fun p => p.1 && p.2 == s with
  | none => exact List.find?_eq_none.1 hf st hs (any_failing_iff.2 hl)
  | some x =>
    rw [hf, Option.getD_some] at h
    exact absurd (h ▸ List.mem_of_find?_eq_some hf) (by decide)

/-- A row's own check of an accepted command does not fail. -/
theorem Passes.check {op id : Nat} {area : Cmd → Nat} {chk : Cfg → Mach → Cmd → List (Bool × Nat)} {c : Cfg} {m : Mach} {k : Cmd} (h : Passes op id area chk c m k)
    {b : Bool} {st : Nat} (hb : (b, st) ∈ chk c m k) (hs : st ∈ statusOrder) : b = false := by
  cases b
  · rfl
  · exact absurd (List.mem_append_right _ hb) (cmdStatus_ok h.status hs)

/-! ### Create, set, bind, query -/

theorem mbxClear_view {α : Type} (g : Mach → α) (hg : ∀ m b, g { m with mbx := b } = g m) (q : Nat) (all : Bool) (m : Mach) : g (mbxClear q all m) = g m := by
  unfold mbxClear
  split
  · rfl
  · split
    · exact hg ..
    · rfl

theorem bindEntry_view {α : Type} (g : Mach → α) (hg : ∀ m b, g { m with ledger := b } = g m) (e q : Nat) (m : Mach) : g (bindEntry e q m) = g m := hg ..
theorem unbindEntries_view {α : Type} (g : Mach → α) (hg : ∀ m b, g { m with ledger := b } = g m) (q : Nat) (m : Mach) : g (unbindEntries q m) = g m := hg ..

theorem queue_bindEntry {e q : Nat} {m : Mach} (h : (mget m.ledger e).isSome = true) : (mget (bindEntry e q m).ledger e).bind (·.queue) = some q := by
  obtain ⟨x, hx⟩ := Option.isSome_iff_exists.1 h
  unfold bindEntry
  dsimp only
  rw [mget_mupd, hx]
  rfl

/-- A real-time queue that may be created names an entry of the ledger (R286). -/
theorem entry_of_create {id : Nat} {s : State} {k : Cmd} (h : accepted 0x400 id (fun _ => 64) (fun _ => createChecks) s k = true)
    (hr : (parseCtx (areaBytes s.q k 64) k.dom).rt = true) : (mget s.q.ledger (parseCtx (areaBytes s.q k 64) k.dom).weight).isSome = true := by
  have hc := (passes_of_accepted h).check (b := 2 ^ 20 ≤ k.argN 0x18 4 || ctxRange s.q (k.argN 0x18 4) (parseCtx (areaBytes s.q k 64) k.dom) true
    || startBad (parseCtx (areaBytes s.q k 64) k.dom).ringLog2 (k.argN 0x1C 4)) (st := stParamRange) (by simp [createChecks]) (by decide)
  simp only [Bool.or_eq_false_iff, ctxRange, hr, Bool.true_and, Bool.not_eq_false'] at hc
  obtain ⟨⟨-, hc⟩, -⟩ := hc
  have hfree : entryFree s.q (k.argN 0x18 4) (parseCtx (areaBytes s.q k 64) k.dom).weight (parseCtx (areaBytes s.q k 64) k.dom).dom = true := by
    obtain ⟨⟨⟨⟨-, hc⟩, -⟩, -⟩, -⟩ := hc
    exact hc
  unfold entryFree at hfree
  split at hfree
  · rename_i x hx; rw [hx]; rfl
  · cases hfree

theorem ctxBytes_length (x : QCtx) : (ctxBytes x).length = 64 := by
  unfold ctxBytes
  simp only [List.length_append, toLe_length]

theorem counterBytes_length (y : Queue) : (counterBytes y).length = 16 := by
  unfold counterBytes
  simp only [List.length_append, toLe_length]

/-- QUEUE_SET's change of the entry its queue is bound to leaves the rest alone. -/
theorem rebind_view {α : Type} (g : Mach → α) (hg : ∀ m b, g { m with ledger := b } = g m) (a b : Prop) [Decidable a] [Decidable b] (e q : Nat) (m : Mach) :
    g (if a then (if b then bindEntry e q (unbindEntries q m) else unbindEntries q m) else m) = g m := by
  split
  · split
    · exact (bindEntry_view g hg ..).trans (unbindEntries_view g hg ..)
    · exact unbindEntries_view g hg ..
  · rfl

theorem ledgerBound_view {α : Type} (g : Mach → α) (hg : ∀ m b, g { m with ledger := b } = g m) (a : Prop) [Decidable a] (e q : Nat) (m : Mach) :
    g (if a then bindEntry e q m else m) = g m := by
  split
  · exact bindEntry_view g hg ..
  · rfl

/-! ### Contexts in a kill -/

/-- The context of a queue that exists. -/
def ctxOf (q : Nat) (m : Mach) : Option QCtx := (qGet m q).map (·.ctx)

theorem ctxOf_qUpd {r : Nat} {f : Queue → Queue} (hf : ∀ y, (f y).ctx = y.ctx) (q : Nat) (m : Mach) : ctxOf q (qUpd r f m) = ctxOf q m := by
  unfold ctxOf
  by_cases h : q = r
  · subst h
    rw [qGet_qUpd, Option.map_map]
    exact Option.map_congr fun y _ => hf y
  · rw [qGet_qUpd_ne h]

theorem ctxOf_descUpd (r d : Nat) (f : Desc → Desc) (q : Nat) (m : Mach) : ctxOf q (descUpd r d f m) = ctxOf q m := ctxOf_qUpd (by intro _; rfl) q m

theorem ctxOf_cancelUnissued (r d q : Nat) (m : Mach) : ctxOf q (cancelUnissued r d m) = ctxOf q m := by
  unfold cancelUnissued
  split
  · rfl
  · exact ctxOf_descUpd ..

theorem ctxOf_mmap {f : Nat → Queue → Queue} (hf : ∀ k y, (f k y).ctx = y.ctx) (q : Nat) (m n : Mach) (h : n.queues = mmap f m.queues) : ctxOf q n = ctxOf q m := by
  unfold ctxOf qGet
  rw [h, mget_mmap, Option.map_map]
  exact Option.map_congr fun y _ => hf q y

theorem ctxOf_settle (q : Nat) (m : Mach) : ctxOf q (settle m) = ctxOf q m :=
  ctxOf_mmap (f := fun q y => { y with descs := mmap (fun d x =>
      if (x.phase == 1 || x.phase == 2) && x.cancelled
          && (groupOf m q d).all (fun p => (descGet m p.1 p.2).all (·.running == 0)) then { x with phase := 3 } else x) y.descs }) (fun _ _ => rfl) q m _ rfl

theorem ctxOf_killCore (k q : Nat) (m : Mach) : ctxOf q (killCore k m) = ctxOf q m := by
  unfold killCore
  split
  · rfl
  · dsimp only
    rw [ctxOf_descUpd, foldl_keeps (ctxOf q) _ (by intro m e; exact ctxOf_qUpd (by intro _; rfl) q m)]
    rfl

theorem ctxOf_reached (l : List (Nat × Nat)) (st de q : Nat) (m : Mach) : ctxOf q (l.foldl (fun m p => cancelUnissued p.1 p.2 (reach p.1 p.2 st de m)) m) = ctxOf q m :=
  foldl_keeps (ctxOf q) _ (fun _ (_ : Nat × Nat) => (ctxOf_cancelUnissued ..).trans (ctxOf_descUpd ..)) l m

theorem ctxOf_killTiles (f : TileCmd → Bool) (st de q : Nat) (m : Mach) : ctxOf q (killTiles f st de m) = ctxOf q m := by
  unfold killTiles
  rw [ctxOf_settle]
  refine foldl_keeps (ctxOf q) _ (fun m k => ?_) _ _
  split
  · rw [ctxOf_killCore, ctxOf_reached]
  · rfl

theorem ctxOf_stopMembers (g : List (Nat × Nat)) (st de : Nat) (kill : Bool) (q : Nat) (m : Mach) : ctxOf q (stopMembers g st de kill m) = ctxOf q m := by
  unfold stopMembers
  dsimp only
  rw [ctxOf_settle]
  split
  · rw [ctxOf_killTiles, ctxOf_reached]
  · exact ctxOf_reached ..

theorem ctxOf_killGroups (r st de q : Nat) (m : Mach) : ctxOf q (killGroups r st de m) = ctxOf q m := by
  refine foldl_keeps (ctxOf q) _ (fun m g => ?_) _ _
  split
  · unfold leaveGroup
    exact (foldl_keeps (ctxOf q) _ (fun _ (_ : Nat × Nat) => ctxOf_descUpd ..) _ _).trans rfl
  · exact ctxOf_stopMembers ..

theorem ctxOf_killDescs (r st de q : Nat) (m : Mach) : ctxOf q (killDescs r st de m) = ctxOf q m :=
  foldl_keeps (ctxOf q) _ (fun _ (_ : Nat) => (ctxOf_descUpd ..).trans ((ctxOf_cancelUnissued ..).trans (ctxOf_descUpd ..))) _ _

theorem ctxOf_voidEnqs (r q : Nat) (m : Mach) : ctxOf q (voidEnqs r m) = ctxOf q m :=
  ctxOf_mmap (f := fun _ y => { y with descs := mmap (fun _ x => { x with enqs := x.enqs.map fun e => if e.q = r then { e with void := true } else e }) y.descs })
    (fun _ _ => rfl) q m _ rfl

theorem queues_creditBack (b : Bind) (n : Nat) (m : Mach) : (creditBack b n m).queues = m.queues := by
  unfold creditBack
  split
  · split <;> rfl
  · rfl

theorem queues_dropParked (q : Nat) (m : Mach) : (dropParked q m).queues = m.queues :=
  foldl_keeps Mach.queues _ (fun _ _ => queues_creditBack ..) _ _

theorem ctxOf_killOps (r st de q : Nat) (m : Mach) : ctxOf q (killOps r st de m) = ctxOf q m := rfl
theorem ctxOf_zeroBalance (r q : Nat) (m : Mach) : ctxOf q (zeroBalance r m) = ctxOf q m := rfl

/-- A kill of one queue: its context is KILLED, every other's as before. -/
theorem ctxOf_killOne (r st de q : Nat) (m : Mach) :
    ctxOf q (killOne r st de m) = (ctxOf q m).map fun x => if q = r then { x with state := qsKilled } else x := by
  have hctx (m : Mach) : ctxOf q (ctxUpd r (fun x => { x with state := qsKilled }) m) = (ctxOf q m).map fun x => if q = r then { x with state := qsKilled } else x := by
    unfold ctxOf
    by_cases h : q = r
    · subst h
      rw [qGet_ctxUpd, Option.map_map, Option.map_map]
      exact Option.map_congr fun y _ => (if_pos rfl).symm
    · rw [qGet_ctxUpd_ne h, Option.map_map]
      exact Option.map_congr fun y _ => (if_neg h).symm
  have hq {a b : Mach} (h : a.queues = b.queues) : ctxOf q a = ctxOf q b := congrArg (fun m : Map Queue => (mget m q).map Queue.ctx) h
  unfold killOne
  dsimp only
  rw [hq (mbxClear_view Mach.queues (fun _ _ => rfl) ..), hq (queues_dropParked ..), ctxOf_voidEnqs, ctxOf_qUpd (by intro _; rfl), ctxOf_killOps, ctxOf_killDescs,
    ctxOf_zeroBalance, hctx, ctxOf_killGroups, ctxOf_killTiles]

/-- What a map holds under a key stands in it. -/
theorem mem_of_mget {α : Type} {m : Map α} {k : Nat} {v : α} (h : mget m k = some v) : (k, v) ∈ m := by
  induction m with
  | nil => cases h
  | cons p r ih =>
    obtain ⟨a, w⟩ := p
    rw [mget] at h
    split at h
    · rename_i ha
      rw [← ha, Option.some.inj h]
      exact List.mem_cons_self ..
    · exact List.mem_cons_of_mem _ (ih h)

/-- A context kill reaches the queue it is for (R274, R321). -/
theorem mem_killSet {m : Mach} {q : Nat} {x : Queue} (h : qGet m q = some x) : q ∈ killSet m q := by
  unfold killSet
  rw [h]
  dsimp only
  split
  · exact List.mem_map.2 ⟨(q, x), List.mem_filter.2 ⟨mem_of_mget h, by simp⟩, rfl⟩
  · exact List.mem_singleton.2 rfl

/-- A queue that a kill reaches is KILLED. -/
theorem ctxOf_killAll (l : List Nat) {st de q : Nat} : ∀ {m : Mach}, q ∈ l → (ctxOf q m).isSome = true →
    (ctxOf q (l.foldl (fun m r => killOne r st de m) m)).map (·.state) = some qsKilled := by
  have stays (l : List Nat) : ∀ m : Mach, (ctxOf q m).map (·.state) = some qsKilled → (ctxOf q (l.foldl (fun m r => killOne r st de m) m)).map (·.state) = some qsKilled := by
    induction l with
    | nil => exact fun _ h => h
    | cons r l ih =>
      intro m h
      refine ih _ ?_
      rw [ctxOf_killOne, Option.map_map]
      obtain ⟨x, hx, hs⟩ := Option.map_eq_some_iff.1 h
      rw [hx]
      show some (if q = r then { x with state := qsKilled } else x).state = _
      split
      · rfl
      · exact congrArg some hs
  induction l with
  | nil => exact fun h => absurd h List.not_mem_nil
  | cons r l ih =>
    intro m hl hs
    obtain ⟨x, hx⟩ := Option.isSome_iff_exists.1 hs
    by_cases hr : q = r
    · refine stays l _ ?_
      rw [ctxOf_killOne, hx, hr]
      exact congrArg some (congrArg QCtx.state (if_pos rfl))
    · refine ih ((List.mem_cons.1 hl).resolve_left hr) ?_
      rw [ctxOf_killOne, hx]
      rfl

theorem cmdReady_congr {m n : Mach} (hc : n.rings.cmds = m.rings.cmds) (hk : n.clerks = m.clerks) (k : Cmd) : cmdReady n k = cmdReady m k := by
  unfold cmdReady cmdFree
  rw [hc, hk]

theorem cmds_integrityKill (c : Cfg) (q pa : Nat) (m : Mach) : (integrityKill c q pa m).rings.cmds = m.rings.cmds := by
  unfold integrityKill killCtx
  rw [cmds_post, foldl_keeps Mach.rings _ (fun _ (_ : Nat) => rings_killOne ..)]

theorem ctxOf_post (c : Cfg) (code : Nat) (ws : List Nat) (q : Nat) (m : Mach) : ctxOf q (post c code ws m) = ctxOf q m := post_view (ctxOf q) (fun _ => rfl) ..
theorem ctxOf_respond (c : Cfg) (id st : Nat) (l : List Byte) (q : Nat) (m : Mach) : ctxOf q (respond c id st l m) = ctxOf q m := respond_view (ctxOf q) (fun _ => rfl) ..

/-- What QUEUE_QUERY returns of a queue (R250). -/
def queryBytes (y : Queue) : List Byte := ctxBytes y.ctx ++ counterBytes y

theorem queryBytes_length (y : Queue) : (queryBytes y).length = 80 := by
  unfold queryBytes
  rw [List.length_append, ctxBytes_length, counterBytes_length]

/-- The effect of QUEUE_QUERY's row, once its checks pass. -/
def queryAct (id : Nat) (c : Cfg) (k : Cmd) (m : Mach) : Mach :=
  match qGet m (k.argN 0x18 4) with
  | none => m
  | some x => respond c id stOk (toLe 1 x.ctx.state ++ List.replicate 7 (0 : Byte) ++ toLe 8 x.jobs ++ ((ctxBytes x.ctx).drop 0x34).take 4 ++ ((ctxBytes x.ctx).drop 0x30).take 4)
      (putResult id k (queryBytes x) m)

theorem queueQuery_eq (id : Nat) : queueQuery id = queueRow 0x403 id (fun _ => 80) (fun _ => queueChecks) (queryAct id) := rfl

theorem mdel_mset {α : Type} (m : Map α) (k : Nat) (v : α) : mdel (mset m k v) k = mdel m k := by
  induction m with
  | nil => simp [mset, mdel]
  | cons p r ih =>
    obtain ⟨a, w⟩ := p
    rw [mset]
    split
    · simp [mdel]
    · split
      · rename_i h; simp [mdel, h]
      · rename_i h
        simp only [mdel, List.filter_cons] at ih ⊢
        rw [ih]

theorem mdel_mupd {α : Type} (m : Map α) (k : Nat) (f : α → α) : mdel (mupd m k f) k = mdel m k := by
  unfold mupd
  split
  · exact mdel_mset ..
  · rfl

/-- A query of a queue that exists is answered, and no queue's context changes, whether its checks still pass or not. -/
theorem queryRow_answers {id q : Nat} {c : Cfg} {m : Mach} {k : Cmd} (hk : mget m.rings.cmds id = some k) (ho : k.opcode = 0x403) (hp : k.phase = 0) (hr : cmdReady m k = true)
    (hx : (qGet m (k.argN 0x18 4)).isSome = true) :
    (cmdRow 0x403 id (fun _ => 80) (fun _ => queueChecks) (queryAct id) c m).rings.cmds = mdel m.rings.cmds id
      ∧ ctxOf q (cmdRow 0x403 id (fun _ => 80) (fun _ => queueChecks) (queryAct id) c m) = ctxOf q m := by
  have hput (l : List Byte) : ctxOf q (putResult id k l m) = ctxOf q m ∧ (mget (putResult id k l m).rings.cmds id).isSome = true ∧
      mdel (putResult id k l m).rings.cmds id = mdel m.rings.cmds id := by
    unfold putResult
    split
    · refine ⟨rfl, ?_, mdel_mupd ..⟩
      dsimp only
      rw [mget_mupd, hk]
      rfl
    · rw [rings_engPut, hk]
      exact ⟨(congrArg (ctxOf q) (still_engPut k.argAddr l m) :), rfl, rfl⟩
  unfold cmdRow
  rw [withCmd_starts hk ho hp hr]
  dsimp only
  split
  · rw [cmds_respond c id _ _ _ k (by rw [cmds_areaReport]; exact hk), cmds_areaReport, ctxOf_respond]
    exact ⟨rfl, (congrArg (ctxOf q) (still_areaReport ..) :)⟩
  · obtain ⟨x, hx⟩ := Option.isSome_iff_exists.1 hx
    unfold queryAct
    rw [hx]
    dsimp only
    obtain ⟨hctx, hsome, hdel⟩ := hput (queryBytes x)
    obtain ⟨k', hk'⟩ := Option.isSome_iff_exists.1 hsome
    rw [cmds_respond c id _ _ _ k' hk', ctxOf_respond, hctx]
    exact ⟨hdel, rfl⟩

/-- A context line that fails its tag kills its queue before the query's row runs (R246, R352). -/
theorem queueQuery_kills {id : Nat} {s : State} {k : Cmd} (h : accepted 0x403 id (fun _ => 80) (fun _ => queueChecks) s k = true) (hc : k.argN 0x18 4 ∉ s.m.ctxCache)
    (hb : badIn s.m.mem (s.c.tb.ctx + 64 * k.argN 0x18 4) 64 ≠ none) :
    (queueQuery id s.c s.q).rings.cmds = mdel s.m.rings.cmds id ∧ (ctxOf (k.argN 0x18 4) (queueQuery id s.c s.q)).map (·.state) = some qsKilled := by
  have hp := passes_of_accepted h
  have hdom := hp.check (b := (qGet s.q (k.argN 0x18 4)).all fun x => x.ctx.dom ≠ k.dom) (st := stPermission) (by simp [queueChecks]) (by decide)
  cases hq : qGet s.q (k.argN 0x18 4) with
  | none => rw [hq] at hdom; cases hdom
  | some x =>
    rw [hq] at hdom
    have hx : x.ctx.dom = k.dom := by simpa using hdom
    have hload : queueLoad s.c k s.q = integrityKill s.c (k.argN 0x18 4) (s.c.tb.ctx + 64 * k.argN 0x18 4) s.q := by
      unfold queueLoad loadQueue qDom
      rw [hq]
      dsimp only [Option.map_some, Option.getD_some]
      rw [if_pos hx]
      exact if_pos (Bool.and_eq_true_iff.2 ⟨show (!s.m.ctxCache.contains (k.argN 0x18 4)) = true by simpa using hc, Option.isSome_iff_ne_none.2 hb⟩)
    have hcmds := cmds_integrityKill s.c (k.argN 0x18 4) (s.c.tb.ctx + 64 * k.argN 0x18 4) s.q
    have hkill : (ctxOf (k.argN 0x18 4) (integrityKill s.c (k.argN 0x18 4) (s.c.tb.ctx + 64 * k.argN 0x18 4) s.q)).map (·.state) = some qsKilled := by
      unfold integrityKill killCtx
      rw [ctxOf_post]
      exact ctxOf_killAll _ (mem_killSet hq) (by unfold ctxOf; rw [hq]; rfl)
    have hsome : (qGet (integrityKill s.c (k.argN 0x18 4) (s.c.tb.ctx + 64 * k.argN 0x18 4) s.q) (k.argN 0x18 4)).isSome = true := by
      obtain ⟨y, hy, -⟩ := Option.map_eq_some_iff.1 hkill
      obtain ⟨z, hz, -⟩ := Option.map_eq_some_iff.1 hy
      rw [hz]
      rfl
    rw [queueQuery_eq, queueRow_eq, withCmd_starts hp.read hp.code hp.fresh hp.ready, hload]
    obtain ⟨ha, hctx⟩ := queryRow_answers (q := k.argN 0x18 4) (c := s.c) (m := integrityKill s.c (k.argN 0x18 4) (s.c.tb.ctx + 64 * k.argN 0x18 4) s.q)
      (by rw [hcmds]; exact hp.read) hp.code hp.fresh
      (by rw [cmdReady_congr hcmds (view_of_calm Mach.clerks (fun _ => rfl) (calm_integrityKill ..))]; exact hp.ready) hsome
    rw [ha, hctx, hcmds]
    exact ⟨rfl, hkill⟩

/-- A block with a new queue, whose lines in the tables are written afresh (R247, R250). -/
def withQueue (c : Cfg) (q : Nat) (x : QCtx) (m : Mach) : Mach :=
  { m with queues := mset m.queues q { ctx := x }, mem := { m.mem with bad := mdel (mdel m.mem.bad ((c.tb.cnt + 16 * q) / 64)) ((c.tb.ctx + 64 * q) / 64) } }

/-- A block with a new queue, bound to its entry where it is real-time, its mailbox empty. -/
def created (c : Cfg) (q : Nat) (x : QCtx) (m : Mach) : Mach :=
  mbxClear q true (if x.rt then bindEntry x.weight q (withQueue c q x m) else withQueue c q x m)

theorem created_view {α : Type} (g : Mach → α) (hl : ∀ m b, g { m with ledger := b } = g m) (hb : ∀ m b, g { m with mbx := b } = g m) (c : Cfg) (q : Nat) (x : QCtx) (m : Mach) :
    g (created c q x m) = g (withQueue c q x m) :=
  (mbxClear_view g hb ..).trans (ledgerBound_view g hl ..)

theorem ledger_created {c : Cfg} {q : Nat} {x : QCtx} {m : Mach} (hr : x.rt = true) (he : (mget m.ledger x.weight).isSome = true) :
    (mget (created c q x m).ledger x.weight).bind (·.queue) = some q := by
  unfold created
  rw [mbxClear_view Mach.ledger (fun _ _ => rfl), if_pos hr]
  exact queue_bindEntry he

theorem ledger_respond (c : Cfg) (id st : Nat) (l : List Byte) (m : Mach) : (respond c id st l m).ledger = m.ledger := respond_view Mach.ledger (fun _ => rfl) ..

/-- Settles O31: the four commands, each on a context that has loaded; and the query of one whose line fails its tag. -/
theorem queueContexts : Obligations.QueueContexts := by
  unfold Obligations.QueueContexts
  refine ⟨fun s id k q x n h hq hx hn => Runs.row (act := fun c k m => respond c id stOk [] (created c (k.argN 0x18 4)
      { parseCtx (areaBytes m k 64) k.dom with tail := startCount (parseCtx (areaBytes m k 64) k.dom).ringLog2 (k.argN 0x1C 4)
                                               head := startCount (parseCtx (areaBytes m k 64) k.dom).ringLog2 (k.argN 0x1C 4) } m)) rfl h ?_,
    fun s id k q y h hq hy => Runs.queueRow rfl h (fun _ _ _ => rfl) fun n hn _ => ?_,
    fun s id k q y h hq hy => Runs.queueRow rfl h (fun _ _ _ => rfl) fun n hn _ => ?_, fun s id k y h hy hr ha hb => Runs.queueRow (act := queryAct id) rfl h (fun _ _ _ => rfl) fun n hn _ => ?_,
    fun s id k q h hq hc hb => Runs.ofM rfl (accepted_live h) ?_⟩
  · subst hq hx hn
    dsimp only [Answered, State.m, qGet]
    rw [queues_respond, created_view Mach.queues (fun _ _ => rfl) (fun _ _ => rfl)]
    refine ⟨answered (accepted_cmd h) (created_view Mach.rings (fun _ _ => rfl) (fun _ _ => rfl) ..), mget_mset .., fun r hr => mget_mset_ne _ _ hr, fun hr => ?_⟩
    rw [ledger_respond]
    exact ledger_created (m := s.q) hr (entry_of_create h hr)
  · subst hq
    dsimp only [Answered, State.m]
    rw [qGet_respond]
    refine ⟨answered_of_loaded hn (accepted_cmd h.1) (rebind_view Mach.rings (fun _ _ => rfl) ..), ?_, fun r hr => ?_⟩
    · rw [rebind_view (qGet · (k.argN 0x18 4)) (fun _ _ => rfl), qGet_ctxUpd, qGet_of_loaded hn, hy, area_of_loaded hn]
      rfl
    · rw [qGet_respond, rebind_view (qGet · r) (fun _ _ => rfl)]
      exact (qGet_ctxUpd_ne hr ..).trans (qGet_of_loaded hn r)
  · subst hq
    dsimp only [Answered, State.m]
    rw [qGet_respond]
    refine ⟨answered_of_loaded hn (accepted_cmd h.1) rfl, ?_, fun r hr => ?_⟩
    · exact (qGet_qUpd ..).trans (congrArg _ ((qGet_of_loaded hn _).trans hy))
    · rw [qGet_respond]
      exact (qGet_qUpd_ne hr ..).trans (qGet_of_loaded hn r)
  · have hrings : mget n.rings.cmds id = some k := by rw [rings_of_loaded hn]; exact accepted_cmd h.1
    have hbusy : lineBusy n k.argAddr (queryBytes y).length = false := by rw [queryBytes_length, show lineBusy n k.argAddr 80 = lineBusy s.q k.argAddr 80 from (congrArg (lineBusy · k.argAddr 80) hn :)]; exact hb
    have hlen := Nat.le_of_eq (queryBytes_length y).symm
    dsimp only [Answered, State.m, queryAct]
    rw [qGet_of_loaded hn, hy]
    dsimp only
    rw [result_answered hr hrings, result_view hr Mach.queues (fun _ => rfl), queues_of_loaded hn, rings_of_loaded hn, result_bytes hr hlen hbusy ha,
      List.take_of_length_le (Nat.le_of_eq (queryBytes_length y))]
    exact ⟨rfl, rfl, rfl⟩
  · subst hq
    obtain ⟨hcmds, hkill⟩ := queueQuery_kills h hc hb
    exact ⟨hcmds, by rw [← hkill, ctxOf, Option.map_map]; rfl⟩

end Sys2Proof.Machine
end

section
/-! SUPPORT. The image of a queue's context: O32 (R246). -/

namespace Sys2Proof.Machine
open Sys2Proof

/-! ### Numbers in a list of fields -/

theorem leAt_here (w v : Nat) (r : List Byte) : leAt (toLe w v ++ r) 0 w = v % 256 ^ w := by
  rw [leAt, List.drop_zero, List.take_append_of_le_length (Nat.le_of_eq (toLe_length w v).symm), List.take_of_length_le (Nat.le_of_eq (toLe_length w v)), leNat_toLe]

theorem leAt_skip {k off : Nat} (h : k ≤ off) (v w : Nat) (r : List Byte) : leAt (toLe k v ++ r) off w = leAt r (off - k) w := by
  rw [leAt, leAt, List.drop_append, List.drop_of_length_le (by rw [toLe_length]; exact h), toLe_length, List.nil_append]

/-- The word of a context's settings (R246). -/
def cfgWord (x : QCtx) : Nat :=
  x.ringLog2 + x.cplLog2 * 32 + x.rt.toNat * 2 ^ 10 + x.path * 2048 + x.coalesce.toNat * 2 ^ 13 + x.forwardable.toNat * 2 ^ 14 + x.killAct.toNat * 2 ^ 15
    + x.drop.toNat * 2 ^ 16 + x.feed.toNat * 2 ^ 17 + x.msixEn.toNat * 2 ^ 18

theorem cfgWord_bits {x : QCtx} (hr : x.ringLog2 < 32) (hc : x.cplLog2 < 32) (hp : x.path < 4) :
    bits (cfgWord x) 0 5 = x.ringLog2 ∧ bits (cfgWord x) 5 5 = x.cplLog2 ∧ bits (cfgWord x) 10 1 = x.rt.toNat ∧ bits (cfgWord x) 11 2 = x.path
      ∧ bits (cfgWord x) 13 1 = x.coalesce.toNat ∧ bits (cfgWord x) 14 1 = x.forwardable.toNat ∧ bits (cfgWord x) 15 1 = x.killAct.toNat
      ∧ bits (cfgWord x) 16 1 = x.drop.toNat ∧ bits (cfgWord x) 17 1 = x.feed.toNat ∧ bits (cfgWord x) 18 1 = x.msixEn.toNat ∧ cfgWord x < 2 ^ 19 := by
  have h1 := Bool.toNat_le x.rt
  have h2 := Bool.toNat_le x.coalesce
  have h3 := Bool.toNat_le x.forwardable
  have h4 := Bool.toNat_le x.killAct
  have h5 := Bool.toNat_le x.drop
  have h6 := Bool.toNat_le x.feed
  have h7 := Bool.toNat_le x.msixEn
  simp only [bits, Nat.shiftRight_eq_div_pow, cfgWord]
  omega

/-- The fields a context's image is read by (R246). -/
theorem leAt_ctxBytes (x : QCtx) :
    leAt (ctxBytes x) 0 8 = x.ringBase % 256 ^ 8 ∧ leAt (ctxBytes x) 8 8 = x.cplBase % 256 ^ 8 ∧ leAt (ctxBytes x) 0x10 4 = cfgWord x % 256 ^ 4
      ∧ leAt (ctxBytes x) 0x16 2 = x.vec % 256 ^ 2 ∧ leAt (ctxBytes x) 0x18 4 = x.timeout % 256 ^ 4 ∧ leAt (ctxBytes x) 0x1C 2 = x.weight % 256 ^ 2
      ∧ leAt (ctxBytes x) 0x1E 2 = x.coalWin % 256 ^ 2 ∧ leAt (ctxBytes x) 0x20 8 = x.aux % 256 ^ 8 ∧ leAt (ctxBytes x) 0x2C 2 = x.mailbox % 256 ^ 2
      ∧ leAt (ctxBytes x) 0x2F 1 = 0 := by
  have hb (b : Bool) (i : Nat) : (if b then 2 ^ i else 0) = b.toNat * 2 ^ i := by cases b <;> simp
  unfold ctxBytes
  simp only [hb, List.append_assoc]
  refine ⟨?_, ?_, ?_, ?_, ?_, ?_, ?_, ?_, ?_, ?_⟩
  all_goals simp only [leAt_skip, leAt_here, Nat.reduceLeDiff, Nat.reduceSub, Nat.zero_mod]
  rfl

theorem toNat_beq_one (b : Bool) : (b.toNat == 1) = b := by cases b <;> rfl

/-- Settles O32: each field of the image is the context's own, in its width. -/
theorem contextImageReadsBack : Obligations.ContextImageReadsBack := by
  unfold Obligations.ContextImageReadsBack
  intro x h1 h2 h3 h4 h5 h6 h7 h8 h9 h10 h11 _ _ _
  obtain ⟨l1, l2, l3, l4, l5, l6, l7, l8, l9, l10⟩ := leAt_ctxBytes x
  obtain ⟨b1, b2, b3, b4, b5, b6, b7, b8, b9, b10, hw⟩ := cfgWord_bits h3 h4 h5
  rw [Nat.mod_eq_of_lt (by omega)] at l1 l2 l3 l4 l5 l6 l7 l8 l9
  refine ⟨?_, ?_, ctxBytes_length x⟩
  · unfold parseCtx
    dsimp only
    rw [l1, l2, l3, l4, l5, l6, l7, l8, l9, b1, b2, b3, b4, b5, b6, b7, b8, b9, b10, Nat.mod_eq_of_lt h6, Nat.mod_eq_of_lt h11]
    simp only [toNat_beq_one]
  · unfold imageBad
    rw [l3, l4, l9, l10, Nat.div_eq_of_lt hw, Nat.div_eq_of_lt (show x.vec < 2 ^ 11 from h6), Nat.div_eq_of_lt (show x.mailbox < 2 ^ 12 from h11)]
    rfl

end Sys2Proof.Machine
end

section
/-! SUPPORT. Pause, resume, release, reset and destroy of a queue: O33 (R273, R274). -/

namespace Sys2Proof.Machine
open Sys2Proof

/-! ### Answers to those that wait -/

theorem queues_answerWaiting (c : Cfg) (op q : Nat) (m : Mach) : (answerWaiting c op q m).queues = m.queues :=
  foldl_keeps Mach.queues _ (fun _ _ => queues_respond ..) _ _

/-- Commands that are answered one after another are gone, and every other is as before. -/
theorem mget_cmds_answered (c : Cfg) (st : Nat) (l : List Nat) : ∀ {m : Mach} {i : Nat} {k : Cmd}, mget (l.foldl (fun m i => respond c i st [] m) m).rings.cmds i = some k →
    i ∉ l ∧ mget m.rings.cmds i = some k := by
  induction l with
  | nil => exact fun h => ⟨List.not_mem_nil, h⟩
  | cons j l ih =>
    intro m i k h
    obtain ⟨hl, hk⟩ := ih h
    have hj : i ≠ j := by
      rintro rfl
      dsimp only at hk
      cases hm : mget m.rings.cmds i with
      | none => rw [show respond c i st [] m = m by unfold respond; rw [hm], hm] at hk; cases hk
      | some x => rw [cmds_respond c i st [] m x hm, mget_mdel] at hk; cases hk
    rw [mget_cmds_respond _ _ hj] at hk
    exact ⟨fun h => (List.mem_cons.1 h).elim hj hl, hk⟩

theorem answerWaiting_answers {c : Cfg} {op q i : Nat} {m : Mach} {k : Cmd} (h : mget (answerWaiting c op q m).rings.cmds i = some k) :
    ¬(k.opcode = op ∧ k.phase = 1 ∧ k.arg = q) := by
  obtain ⟨hl, hk⟩ := mget_cmds_answered c stOk _ h
  rintro ⟨h1, h2, h3⟩
  exact hl (List.mem_map.2 ⟨(i, k), List.mem_filter.2 ⟨mem_of_mget hk, by simp [h1, h2, h3]⟩, rfl⟩)

/-! ### The rows -/

section
variable {s : State} {n : Mach} (hn : n.loaded = s.q.loaded)
include hn

theorem liveState_of_loaded (y : Queue) : liveState n y = liveState s.q y := (congrArg (liveState · y) hn :)

/-- What runs decides alike before and after a load. -/
theorem canDestroy_of_loaded (ht : tcsOf n = tcsOf s.q) (q : Nat) : canDestroy n q = canDestroy s.q q := by
  have hany (m : Mach) : (m.cores.any fun c => c.tc.any fun t => t.q == q) = (tcsOf m).any fun t => t.any fun t => t.q == q := by
    rw [tcsOf, List.any_map]
    rfl
  unfold canDestroy issuedEnded
  rw [hany, hany, ht, qGet_of_loaded hn, show n.depot = s.q.depot from (congrArg Mach.depot hn :)]

theorem begun_of_loaded {id a : Nat} {m : Mach} {k : Cmd} (hk : mget s.q.rings.cmds id = some k) (hm : m.rings = n.rings) :
    (mget (underWay id a m).rings.cmds id).map (fun k => (k.phase, k.arg)) = some (1, a) :=
  underWay_begun (m := m) (k := k) (by rw [hm, rings_of_loaded hn]; exact hk)

end

theorem queuePaused_ended {c : Cfg} {q : Nat} {m : Mach} {y : Queue} (hy : qGet m q = some y) (hp : y.pausing = true) (he : issuedEnded m q = true) :
    queuePaused q c m = answerWaiting c 0x404 q (zeroBalance q (qUpd q (fun y => { y with pausing := false, drained := false, ctx := { y.ctx with
        state := if y.ctx.state = qsHeld || y.ctx.state = qsKilled then y.ctx.state else qsPaused } }) m)) := by
  unfold queuePaused
  rw [hy]
  dsimp only
  exact if_neg (by rw [hp, he]; decide)

theorem rings_removeQueue (q : Nat) (m : Mach) : (removeQueue q m).rings = m.rings :=
  removeQueue_view Mach.rings (fun _ _ => rfl) (fun _ _ => rfl) (fun _ _ => rfl) (fun _ _ => rfl) (fun _ _ _ _ _ => rfl) q m

/-- A queue that starts anew; a counter entry whose tag failed is written afresh (R250, R274). -/
def restarted (start : Nat) (fresh : Bool) (y : Queue) : Queue :=
  { y with ctx := { y.ctx with state := qsEmpty, head := start, tail := start, cplTail := 0, cplHead := 0 }
           closing := 0, drained := false, pausing := false, cntBad := false, jobs := if fresh then 0 else y.jobs
           rejects := if fresh then 0 else y.rejects, replaced := if fresh then 0 else y.replaced }

/-- The lines of the tables that hold a queue's counters and context are written afresh. -/
def freshLines (c : Cfg) (q : Nat) (m : Mach) : Mach :=
  { m with mem := { m.mem with bad := mdel (mdel m.mem.bad ((c.tb.cnt + 16 * q) / 64)) ((c.tb.ctx + 64 * q) / 64) } }

/-- A reset queue whose descriptors have their records starts anew. -/
theorem queueResetDone_restarts {s : State} {id : Nat} {k : Cmd} {y : Queue} (h : continues 0x407 id s k = true) (hy : qGet s.q (k.argN 0x18 4) = some y) (hd : y.descs = []) :
    queueResetDone id s.c s.q = respond s.c id stOk [] (mbxClear (k.argN 0x18 4) true (qUpd (k.argN 0x18 4)
      (restarted (startCount y.ctx.ringLog2 (k.argN 0x1C 4)) (mhas s.q.mem.bad ((s.c.tb.cnt + 16 * k.argN 0x18 4) / 64) || y.cntBad)) (freshLines s.c (k.argN 0x18 4) s.q))) := by
  unfold queueResetDone
  rw [withCmd2_continues h]
  dsimp only
  rw [hy]
  dsimp only
  exact if_neg (Classical.not_not.2 hd)

/-- Settles O33: each row on a queue whose context has loaded. -/
theorem queueStates : Obligations.QueueStates := by
  unfold Obligations.QueueStates
  refine ⟨fun s id k y h hy h1 h2 h3 => Runs.queueRow rfl h (fun _ _ _ => rfl) fun n hn _ => ?_, fun s q y hl hy hp he => Runs.ofM rfl hl ?_,
    fun s id k y h hy => Runs.queueRow rfl h (fun _ _ _ => rfl) fun n hn _ => ?_, fun s id k y h hy => Runs.queueRow rfl h (fun _ _ _ => rfl) fun n hn _ => ?_,
    fun s id k y h hy => Runs.queueRow rfl h (fun _ _ _ => rfl) fun n hn _ => ?_, fun s id k y start h hy hd hs => Runs.ofM rfl (continues_live h) ?_,
    fun s id k h hc => Runs.queueRow rfl h (fun _ _ _ => rfl) fun n hn ht => ?_, fun s id k h hc => Runs.row2 rfl h ?_⟩
  · dsimp only [begun, State.m]
    rw [qGet_of_loaded hn, hy]
    dsimp only
    rw [if_neg (by simp [h1, h2, h3])]
    exact ⟨begun_of_loaded hn (accepted_cmd h.1) rfl, (qGet_qUpd ..).trans (congrArg _ ((qGet_of_loaded hn _).trans hy))⟩
  · dsimp only [State.m]
    rw [queuePaused_ended (m := s.q) hy hp he]
    refine ⟨?_, fun i k hk => answerWaiting_answers hk, fun r hr => ?_⟩
    · unfold qGet
      rw [queues_answerWaiting]
      show (qGet (qUpd q _ s.q) q).map _ = _
      rw [qGet_qUpd, hy]
      simp
    · unfold qGet
      rw [queues_answerWaiting]
      exact qGet_qUpd_ne hr _ s.q
  · dsimp only [Answered, State.m]
    rw [qGet_respond]
    refine ⟨answered_of_loaded hn (accepted_cmd h.1) rfl, ?_⟩
    rw [qGet_qUpd, qGet_of_loaded hn, hy]
    dsimp only [Option.map_some]
    rw [liveState_of_loaded hn]
    rfl
  · dsimp only [Answered, State.m]
    rw [qGet_respond]
    refine ⟨answered_of_loaded hn (accepted_cmd h.1) rfl, ?_⟩
    rw [qGet_qUpd, qGet_of_loaded hn, hy]
    dsimp only [Option.map_some]
    rw [liveState_of_loaded hn]
    rfl
  · exact ⟨begun_of_loaded hn (accepted_cmd h.1) rfl, (qGet_qUpd ..).trans (congrArg _ ((qGet_of_loaded hn _).trans hy))⟩
  · subst hs
    dsimp only [Answered, State.m]
    rw [queueResetDone_restarts h hy hd, qGet_respond, mbxClear_view (qGet · (k.argN 0x18 4)) (fun _ _ => rfl)]
    exact ⟨answered (continues_cmd h) (mbxClear_view Mach.rings (fun _ _ => rfl) ..), _, (qGet_qUpd ..).trans (congrArg (Option.map _) hy), rfl, rfl, hd⟩
  · have hgo : (if canDestroy n (k.argN 0x18 4) then respond s.c id stOk [] (removeQueue (k.argN 0x18 4) n) else underWay id (k.argN 0x18 4) n)
        = respond s.c id stOk [] (removeQueue (k.argN 0x18 4) n) := if_pos (by rw [canDestroy_of_loaded hn ht]; exact hc)
    dsimp only [Answered, State.m, qGet]
    rw [hgo, queues_respond, queues_removeQueue, queues_of_loaded hn]
    exact ⟨answered_of_loaded hn (accepted_cmd h.1) (rings_removeQueue ..), mget_mdel .., fun r hr => mget_mdel_ne _ hr⟩
  · have hgo : (if canDestroy s.q (k.argN 0x18 4) then respond s.c id stOk [] (removeQueue (k.argN 0x18 4) s.q) else s.q)
        = respond s.c id stOk [] (removeQueue (k.argN 0x18 4) s.q) := if_pos hc
    dsimp only [Answered, State.m, qGet]
    rw [hgo, queues_respond, queues_removeQueue]
    exact ⟨answered (continues_cmd h) (rings_removeQueue ..), mget_mdel .., fun r hr => mget_mdel_ne _ hr⟩

end Sys2Proof.Machine
end

section
/-! SUPPORT. Parcels and the Tick Ledger: O34, O36 (R169, R173, R285, R286, R289, R290). -/

namespace Sys2Proof.Machine
open Sys2Proof

/-! ### Parcels -/

theorem parcels_respond (c : Cfg) (id st : Nat) (l : List Byte) (m : Mach) : (respond c id st l m).parcels = m.parcels := respond_view Mach.parcels (fun _ => rfl) ..

/-- A command that has been answered does not wait. -/
theorem gone_respond (c : Cfg) (id st : Nat) (l : List Byte) (m : Mach) : mget (respond c id st l m).rings.cmds id = none := by
  cases h : mget m.rings.cmds id with
  | none => rw [show respond c id st l m = m by unfold respond; rw [h], h]
  | some k => rw [cmds_respond c id st l m k h, mget_mdel]

/-- A command that does not wait is not brought back by an answer. -/
theorem none_respond {id : Nat} {m : Mach} (h : mget m.rings.cmds id = none) (c : Cfg) (j st : Nat) (l : List Byte) : mget (respond c j st l m).rings.cmds id = none := by
  by_cases hj : id = j
  · rw [hj]; exact gone_respond ..
  · rw [mget_cmds_respond _ _ hj, h]

theorem spanPut_view {α : Type} (g : Mach → α) (hb : ∀ a n m, g (backInval a n false m) = g m) (hg : ∀ m x, g { m with mem := x } = g m) (ss : List (Nat × Nat)) (off : Nat)
    (l : List Byte) (m : Mach) : g (spanPut ss off l m) = g m := by
  unfold spanPut
  refine foldl_keeps (fun x : Mach × List Byte => g x.1) _ (fun x (s : Nat × Nat) => ?_) _ (m, l)
  dsimp only
  rw [hg, hb]

theorem backInval_view {α : Type} (g : Mach → α) (hg : ∀ m, g m.still = g m) (a n : Nat) (m : Mach) : g (backInval a n false m) = g m := by
  rw [← hg, still_backInval, hg]

/-- Where a parcel's parts are put changes neither the parcels nor the pointer of handles. -/
theorem handle_parts (ss : List (Nat × Nat)) (l : List (Nat × List Byte)) (m : Mach) :
    (l.foldl (fun m p => spanPut ss p.1 p.2 m) m).parcels = m.parcels ∧ handleFrom (l.foldl (fun m p => spanPut ss p.1 p.2 m) m) = handleFrom m :=
  ⟨foldl_keeps Mach.parcels _ (fun _ _ => spanPut_view Mach.parcels (backInval_view Mach.parcels fun _ => rfl) (fun _ _ => rfl) ..) l m,
    foldl_keeps handleFrom _ (fun _ _ => spanPut_view handleFrom (backInval_view handleFrom fun _ => rfl) (fun _ _ => rfl) ..) l m⟩

theorem parcels_dropParcel (h : Nat) (m : Mach) : mget (dropParcel h m).parcels h = none ∧ ∀ j, j ≠ h → mget (dropParcel h m).parcels j = mget m.parcels j := by
  unfold dropParcel
  split
  · rename_i hn; exact ⟨hn, fun _ _ => rfl⟩
  · exact ⟨mget_mdel .., fun j hj => mget_mdel_ne _ hj⟩

/-- The answers to those that waited behind an unbind touch no parcel, and bring no command back. -/
theorem answerSame (c : Cfg) {id : Nat} (l : List (Nat × Cmd)) : ∀ {m : Mach}, mget m.rings.cmds id = none →
    mget (l.foldl (fun m p => if cmdReady m p.2 then respond c p.1 stOk [] m else m) m).rings.cmds id = none
      ∧ (l.foldl (fun m p => if cmdReady m p.2 then respond c p.1 stOk [] m else m) m).parcels = m.parcels := by
  induction l with
  | nil => exact fun h => ⟨h, rfl⟩
  | cons p l ih =>
    intro m h
    rw [List.foldl_cons]
    by_cases hr : cmdReady m p.2 = true
    · rw [if_pos hr]
      obtain ⟨h1, h2⟩ := ih (none_respond h c p.1 stOk [])
      exact ⟨h1, h2.trans (parcels_respond ..)⟩
    · rw [if_neg hr]
      exact ih h

theorem unbindDone_frees {s : State} {id : Nat} {k : Cmd} (h : continues 0x0301 id s k = true) (hr : parcelRuns s.q (k.argN 0x18 2) = false) :
    mget (unbindDone id s.c s.q).rings.cmds id = none ∧ (unbindDone id s.c s.q).parcels = (dropParcel (k.argN 0x18 2) s.q).parcels := by
  unfold unbindDone
  rw [withCmd2_continues h]
  dsimp only
  rw [if_neg (by rw [hr]; decide)]
  have hgone := gone_respond s.c id stOk [] (dropParcel (k.argN 0x18 2) s.q)
  generalize hl : (List.filter _ (respond s.c id stOk [] (dropParcel (k.argN 0x18 2) s.q)).rings.cmds) = l
  refine (answerSame s.c l (id := id) ?_).imp_right fun hp => hp.trans (parcels_respond ..)
  dsimp only
  rw [mget_mmap, hgone]
  rfl

/-- The parts of a parcel that verified, each in its place. -/
def partsPut (k : Cmd) (b : Bound) (m : Mach) : Mach := b.parts.foldl (fun m p => spanPut (bindSpans k) p.1 p.2 m) m

/-- The parcel under the next free handle. -/
def boundUnder (k : Cmd) (b : Bound) (m : Mach) : Mach :=
  { m with
    parcels := mset m.parcels (handleFrom m)
      ⟨k.dom, k.argN 0x20 8, k.argN 0x28 8, bindSpans k, b.records, b.deps, b.id, false, b.records.map (Config.windows b.id)⟩
    parcelNext := (handleFrom m + 1) % 65536 }

theorem bindComplete_verified {s : State} {id : Nat} {k : Cmd} {m : Mach} {b : Bound} (h : continues 0x0300 id s k = true)
    (hb : bindCheck s.c k.dom (k.argN 0x18 8) (k.argN 0x28 8) s.q = (m, .ok (.ok b))) : bindComplete id s.c s.q
      = respond s.c id stOk (toLe 4 (handleFrom (partsPut k b m)) ++ toLe 4 b.total ++ b.id) (boundUnder k b (partsPut k b m)) := by
  unfold bindComplete
  rw [withCmd2_continues h]
  dsimp only
  split <;> rename_i heq <;> rw [hb] at heq <;> cases heq
  · rfl
  · rename_i hok _; exact (hok _ rfl).elim

theorem bindComplete_refused {s : State} {id : Nat} {k : Cmd} {m : Mach} {st : Nat} (h : continues 0x0300 id s k = true)
    (hb : bindCheck s.c k.dom (k.argN 0x18 8) (k.argN 0x28 8) s.q = (m, .ok (.error st))) :
    bindComplete id s.c s.q = respond s.c id st [] (spanZero (bindSpans k) m) := by
  unfold bindComplete
  rw [withCmd2_continues h]
  dsimp only
  split <;> rename_i heq <;> rw [hb] at heq <;> cases heq
  · rfl
  · rename_i hbad; exact (hbad _ rfl).elim

/-- Settles O34: a bind and an unbind, each at its command and at its end. -/
theorem parcelsAreBound : Obligations.ParcelsAreBound := by
  unfold Obligations.ParcelsAreBound
  refine ⟨fun s id k h => Runs.row rfl h ?_, fun s id k m1 b h hb => Runs.ofM rfl (continues_live h) ?_, fun s id k m1 st h hb => Runs.ofM rfl (continues_live h) ?_,
    fun s id k p h ha hp => Runs.row rfl h ?_, fun s id k h hr => Runs.ofM rfl (continues_live h) ?_⟩
  · refine ⟨?_, rfl, rfl⟩
    show (mget (mupd (mupd s.q.rings.cmds id _) id _) id).map _ = _
    rw [mget_mupd, mget_mupd, accepted_cmd h]
    rfl
  · obtain ⟨hparcels, hhandle⟩ := handle_parts (bindSpans k) b.parts m1
    dsimp only [State.m]
    rw [bindComplete_verified h hb, parcels_respond, respond_view Mach.parcelNext (fun _ => rfl)]
    refine ⟨gone_respond .., ?_, ?_⟩
    · show mget (mset (partsPut k b m1).parcels (handleFrom (partsPut k b m1)) _) _ = _
      rw [show handleFrom (partsPut k b m1) = handleFrom m1 from hhandle, mget_mset]
    · show (handleFrom (partsPut k b m1) + 1) % 65536 = _
      rw [show handleFrom (partsPut k b m1) = handleFrom m1 from hhandle]
  · dsimp only [State.m]
    rw [bindComplete_refused h hb, parcels_respond, spanZero_view Mach.parcels (backInval_view Mach.parcels fun _ => rfl) (fun _ _ => rfl)]
    exact ⟨gone_respond .., rfl⟩
  · dsimp only [begun, State.m]
    rw [if_neg ha]
    refine ⟨underWay_begun (accepted_cmd h), (mget_mupd ..).trans (congrArg _ hp), fun q y hy h1 h2 h3 h4 => ?_⟩
    unfold qGet underWay
    dsimp only
    rw [mget_mmap, show mget s.q.queues q = some y from hy]
    exact congrArg some (if_pos (by simp [h1, h2, h3, h4]))
  · obtain ⟨hgone, hparcels⟩ := unbindDone_frees h hr
    dsimp only [State.m]
    rw [hparcels]
    exact ⟨hgone, parcels_dropParcel ..⟩

/-! ### The ledger -/

theorem ledger_frameTo (e ty : Nat) (l : List Byte) (m : Mach) : (frameTo e ty l m).ledger = m.ledger := (congrArg Mach.ledger (still_frameTo e ty l m) :)

/-- Settles O36: the four commands, by role and by what the entry is, and the release. -/
theorem ledgerCommands : Obligations.LedgerCommands := by
  unfold Obligations.LedgerCommands
  refine ⟨fun s id k h hr he => Runs.row rfl h ?_, fun s id k x h hr he => Runs.row rfl h ?_, fun s id k h hr => Runs.row rfl h ?_, fun s id k h hr ha hb => Runs.row rfl h ?_,
    fun s id k h hr => Runs.ofM rfl (accepted_live h) ?_, fun s e x hl hx h1 h2 => Runs.ofM rfl hl ?_⟩
  · dsimp only [Answered, State.m]
    rw [if_neg hr, if_neg (ne_true_of_eq_false (show mhas s.q.ledger (k.argN 0x18 2) = false from he)), ledger_respond]
    exact ⟨answered (accepted_cmd h) rfl, mget_mset .., fun e he => mget_mset_ne _ _ he⟩
  · have hhas : mhas s.q.ledger (k.argN 0x18 2) = true := by unfold mhas; rw [show mget s.q.ledger (k.argN 0x18 2) = some x from he]; rfl
    dsimp only [Answered, State.m]
    rw [if_neg hr, if_pos hhas, ledger_respond]
    exact ⟨answered (accepted_cmd h) rfl, (mget_mupd ..).trans (congrArg _ he), fun e he => mget_mupd_ne _ _ he⟩
  · dsimp only [begun, State.m]
    rw [if_pos hr]
    unfold ledgerAsk
    dsimp only
    rw [rings_frameTo, ledger_frameTo]
    exact ⟨underWay_begun (accepted_cmd h), rfl⟩
  · have hn : (((mget s.q.ledger (k.argN 0x18 2)).map ledgerBytes).getD (List.replicate 64 0)).length = 64 := by
      cases mget s.q.ledger (k.argN 0x18 2) with
      | none => exact List.length_replicate
      | some x => simp only [Option.map_some, Option.getD_some, ledgerBytes, List.length_append, toLe_length]
    dsimp only [Answered, State.m]
    rw [result_answered hr (accepted_cmd h), result_view hr Mach.ledger (fun _ => rfl), result_bytes hr (Nat.le_of_eq hn.symm) (by rw [hn]; exact hb) ha,
      List.take_of_length_le (Nat.le_of_eq hn)]
    exact ⟨rfl, rfl, rfl⟩
  · have hrow : ledgerRetire id s.c s.q = _ := cmdRow_accepted h
    dsimp only [Answered, State.m]
    rw [hrow]
    dsimp only
    rw [if_neg (by simp [hr]), ledger_respond]
    exact ⟨answered (accepted_cmd h) rfl, mget_mupd ..⟩
  · have hgo : ledgerRelease e s.q = tickTo (s.m.tick.base + x.terms.release * 1000) { s.q with ledger := mset s.q.ledger e { x with balance := 0 } } := by
      unfold ledgerRelease
      rw [show mget s.q.ledger e = some x from hx]
      exact if_neg (by simp only [Bool.or_eq_true, decide_eq_true_eq, not_or, Nat.not_le]; exact ⟨h1, h2⟩)
    dsimp only [State.m]
    rw [hgo]
    exact ⟨mget_mset .., rfl, fun j hj => mget_mset_ne _ _ hj⟩

end Sys2Proof.Machine
end

section
/-! SUPPORT. Depot regions and embedding tables: O37 (R198 to R203, R209, R210). -/

namespace Sys2Proof.Machine
open Sys2Proof

/-! ### Units placed SPREAD -/

/-- The units still free in the eight groups. -/
def room (cap : Nat) (used : List Nat) : Nat := ((List.range 8).map fun g => cap - nth used g).sum

theorem nth_lupd {l : List Nat} {i : Nat} (h : i < l.length) (f : Nat → Nat) : nth (lupd l i f) i = f (nth l i) := by
  simp [nth, lupd, h]

theorem nth_lupd_ne (l : List Nat) {i j : Nat} (h : j ≠ i) (f : Nat → Nat) : nth (lupd l i f) j = nth l j := by
  unfold nth lupd
  cases hl : l[i]? with
  | none => rfl
  | some v => simp [List.getElem?_set_ne h.symm]

/-- A unit taken in a group with room leaves one less. -/
theorem room_lupd {cap g : Nat} {used : List Nat} (hg : g < 8) (hl : used.length = 8) (h : nth used g < cap) : room cap (lupd used g (· + 1)) + 1 = room cap used := by
  refine sum_map_range_one_less hg (fun j hj => by rw [nth_lupd_ne _ hj]) ?_
  rw [nth_lupd (hl ▸ hg)]
  omega

/-- Where room is left, some group from `g` on has it. -/
theorem group_of_room {cap : Nat} {used : List Nat} (h : 0 < room cap used) (g : Nat) : ∃ d < 8, nth used ((g + d) % 8) < cap := by
  obtain ⟨x, hx, hpos⟩ := pos_of_sum_map_range_pos h
  refine ⟨(x + 8 - g % 8) % 8, Nat.mod_lt _ (by decide), ?_⟩
  rw [show (g + (x + 8 - g % 8) % 8) % 8 = x by omega]
  omega

theorem spread_zero (cap fuel g : Nat) (used : List Nat) : spread cap fuel g 0 used = [] := by
  cases fuel <;> simp [spread]

/-- With `d` groups to go to the next with room, and eight more tries for each further unit, every unit finds its group. -/
theorem length_spread {cap : Nat} (fuel : Nat) : ∀ {g n d : Nat} {used : List Nat}, g < 8 → used.length = 8 → n ≤ room cap used → nth used ((g + d) % 8) < cap →
    8 * n + d ≤ fuel + 7 → (spread cap fuel g n used).length = n := by
  induction fuel with
  | zero => intro g n d used _ _ _ _ hf; rw [show n = 0 by omega]; rfl
  | succ fuel ih =>
    intro g n d used hg hl hn hd hf
    rw [spread]
    split
    · rename_i h0; exact h0.symm
    · rename_i h0
      split
      · rename_i hroom
        have hleft := room_lupd hg hl hroom
        rw [List.length_cons]
        by_cases hone : n - 1 = 0
        · rw [hone, spread_zero]; exact (by omega : 0 + 1 = n)
        · obtain ⟨e, he, hnext⟩ := group_of_room (cap := cap) (used := lupd used g (· + 1)) (by omega) ((g + 1) % 8)
          rw [ih (Nat.mod_lt _ (by decide)) ((lupd_length ..).trans hl) (by omega) hnext (by omega)]
          omega
      · rename_i hfull
        have hpos : d ≠ 0 := fun h => hfull (by rw [h, Nat.add_zero, Nat.mod_eq_of_lt hg] at hd; exact hd)
        exact ih (d := d - 1) (Nat.mod_lt _ (by decide)) hl hn (by rw [show ((g + 1) % 8 + (d - 1)) % 8 = (g + d) % 8 by omega]; exact hd) (by omega)

theorem spread_lt {cap : Nat} (fuel : Nat) : ∀ {g n : Nat} {used : List Nat}, g < 8 → ∀ x ∈ spread cap fuel g n used, x < 8 := by
  induction fuel with
  | zero => exact fun _ x hx => nomatch hx
  | succ fuel ih =>
    intro g n used hg x hx
    rw [spread] at hx
    split at hx
    · nomatch hx
    · split at hx
      · rcases List.mem_cons.1 hx with rfl | hx
        · exact hg
        · exact ih (Nat.mod_lt _ (by decide)) x hx
      · exact ih (Nat.mod_lt _ (by decide)) x hx

/-! ### Units placed NEAR -/

theorem nearCols_perm : ∀ g < 8, (nearCols g).Perm (List.range 8) := by decide

theorem length_fill (cap : Nat) (used : List Nat) (l : List Nat) : ∀ {n : Nat}, n ≤ (l.map fun g => cap - nth used g).sum → (fill cap used l n).length = n := by
  induction l with
  | nil => intro n h; exact (Nat.le_zero.1 h).symm
  | cons g l ih =>
    intro n h
    rw [List.map_cons, List.sum_cons] at h
    rw [fill, List.length_append, List.length_replicate, ih (by omega)]
    omega

theorem mem_of_fill (cap : Nat) (used : List Nat) (l : List Nat) : ∀ {n x : Nat}, x ∈ fill cap used l n → x ∈ l := by
  induction l with
  | nil => exact fun h => h
  | cons g l ih =>
    intro n x h
    rw [fill] at h
    rcases List.mem_append.1 h with h | h
    · exact List.mem_cons.2 (.inl (List.eq_of_mem_replicate h))
    · exact List.mem_cons_of_mem _ (ih h)

/-! ### The room of a Depot -/

theorem foldl_add_eq_sum (l : List Nat) (a : Nat) : l.foldl (· + ·) a = a + l.sum := by
  rw [List.sum_eq_foldl]
  induction l generalizing a with
  | nil => rfl
  | cons x l ih => rw [List.foldl_cons, List.foldl_cons, ih, ih (0 + x)]; omega

theorem length_groupUsed (m : Mach) : (groupUsed m).length = 8 := by simp [groupUsed]

theorem sum_eq_nth {l : List Nat} (h : l.length = 8) : l.sum = ((List.range 8).map fun g => nth l g).sum := by
  match l, h with
  | [a, b, c, d, e, f, g, i], _ => rfl

/-- The units free in the groups are at least those counted free. -/
theorem freeUnits_le_room (c : Cfg) (m : Mach) : freeUnits c m ≤ room (groupCap c) (groupUsed m) := by
  have hsum := sum_eq_nth (length_groupUsed m)
  unfold freeUnits
  rw [foldl_add_eq_sum, hsum, room]
  simp only [show List.range 8 = [0, 1, 2, 3, 4, 5, 6, 7] from rfl, List.map_cons, List.map_nil, List.sum_cons, List.sum_nil]
  omega

/-- The groups DEPOT_ALLOC chooses, by its placement. -/
def allocGroups (c : Cfg) (m : Mach) (k : Cmd) (n : Nat) : List Nat :=
  if k.argN 0x20 1 = 0 then spreadUnits c m n else fill (groupCap c) (groupUsed m) (nearCols (physOf c (k.argN 0x21 1) % 8)) n

theorem length_spreadUnits {c : Cfg} {m : Mach} {n : Nat} (h : n ≤ freeUnits c m) : (spreadUnits c m n).length = n := by
  have hroom := Nat.le_trans h (freeUnits_le_room c m)
  unfold spreadUnits
  by_cases hn : n = 0
  · rw [hn, spread_zero]; rfl
  · obtain ⟨d, hd, hfree⟩ := group_of_room (cap := groupCap c) (used := groupUsed m) (by omega) 0
    exact length_spread _ (by decide) (length_groupUsed m) hroom hfree (by omega)

theorem length_allocGroups {c : Cfg} {m : Mach} {k : Cmd} {n : Nat} (h : n ≤ freeUnits c m) : (allocGroups c m k n).length = n := by
  unfold allocGroups
  split
  · exact length_spreadUnits h
  · refine length_fill _ _ _ ?_
    rw [sum_perm ((nearCols_perm _ (Nat.mod_lt _ (by decide))).map _), ← room]
    exact Nat.le_trans h (freeUnits_le_room c m)

theorem allocGroups_lt (c : Cfg) (m : Mach) (k : Cmd) (n : Nat) : ∀ g ∈ allocGroups c m k n, g < 8 := by
  intro g hg
  unfold allocGroups at hg
  split at hg
  · exact spread_lt _ (by decide) g hg
  · exact List.mem_range.1 ((nearCols_perm _ (Nat.mod_lt _ (by decide))).mem_iff.1 (mem_of_fill _ _ _ hg))

/-! ### The rows -/

theorem tables_tableFlush (n : Nat) (m : Mach) : mget (tableFlush n m).depot.tables n = none := mget_mdel ..

/-- Settles O37: regions and tables at their commands and at the ends of the commands that free them. -/
theorem depotRegionsAndTables : Obligations.DepotRegionsAndTables := by
  unfold Obligations.DepotRegionsAndTables
  refine ⟨fun s id k n h hn => Runs.row rfl h ?_, fun s id k r h hr => Runs.row rfl h ?_, fun s id k h hi => Runs.ofM rfl (continues_live h) ?_,
    fun s id k h => Runs.row rfl h ?_, fun s id k x h hx => Runs.row rfl h ?_, fun s id k h hb => Runs.ofM rfl (continues_live h) ?_⟩
  · subst hn
    have hfree := (passes_of_accepted h).check (b := freeUnits s.c s.q - reservedUnits s.q none < cdiv (k.argN 0x18 8) 65536
      || (domE s.q k.dom).depotLimit < depotUsed s.q k.dom (2 ^ 20) + cdiv (k.argN 0x18 8) 65536) (st := stBindResources) (by simp [allocChecks]) (by decide)
    rw [Bool.or_eq_false_iff] at hfree
    have hlen := length_allocGroups (c := s.c) (m := s.q) (k := k) (n := cdiv (k.argN 0x18 8) 65536) (by have := of_decide_eq_false hfree.1; omega)
    refine ⟨answered (accepted_cmd h) rfl, ⟨newRegion k.dom (65536 * cdiv (k.argN 0x18 8) 65536) (allocGroups s.c s.q k (cdiv (k.argN 0x18 8) 65536)), ?_, rfl, rfl, hlen, ?_, rfl, rfl⟩, ?_⟩
    · dsimp only [State.m]
      rw [depot_respond]
      exact mget_mset ..
    · exact allocGroups_lt s.c s.q k _
    · intro j hj
      dsimp only [State.m]
      rw [depot_respond]
      exact mget_mset_ne _ _ hj
  · exact ⟨underWay_begun (accepted_cmd h), (mget_mupd ..).trans (congrArg _ hr)⟩
  · have hrow : depotFreeDone id s.c s.q = _ := withCmd2_continues h ..
    dsimp only [Answered, State.m]
    rw [hrow]
    dsimp only
    rw [if_pos hi, depot_respond]
    exact ⟨answered (continues_cmd h) rfl, mget_mdel .., fun j hj => mget_mdel_ne _ hj⟩
  · dsimp only [Answered, State.m]
    rw [depot_respond]
    exact ⟨answered (accepted_cmd h) rfl, mget_mset ..⟩
  · exact ⟨underWay_begun (accepted_cmd h), (mget_mupd ..).trans (congrArg _ hx)⟩
  · have hrow : tableCloseDone id s.c s.q = _ := withCmd2_continues h ..
    dsimp only [Answered, State.m]
    rw [hrow]
    dsimp only
    rw [if_neg (ne_true_of_eq_false (show tableBusy s.q (k.argN 0x18 1) = false from hb)), depot_respond]
    exact ⟨answered (continues_cmd h) (rings_tcFlush _ _), tables_tableFlush ..⟩

end Sys2Proof.Machine
end

section
/-! SUPPORT. Boundaries, edges and the quiet margin of the tick: O38 (R281 to R284, R287, R288). -/

namespace Sys2Proof.Machine
open Sys2Proof

/-! ### What a completion and a refusal can touch -/

/-- The block without what a kill, a completion or an event touches. -/
def Mach.serene (m : Mach) : Mach := { m.calm with sched := (mach0 strap0 store0 0 true true).sched }

theorem serene_of_calm {a b : Mach} (h : a.calm = b.calm) : a.serene = b.serene := by unfold Mach.serene; rw [h]

/-- A projection of what completions leave alone. -/
theorem view_of_serene {α : Type} (g : Mach → α) (hg : ∀ m, g m.serene = g m) {a b : Mach} (h : a.serene = b.serene) : g a = g b := by rw [← hg a, h, hg]

theorem serene_setRecord (q d st de : Nat) (m : Mach) : (setRecord q d st de m).serene = m.serene := by
  unfold setRecord
  split
  · rfl
  · unfold collect
    split <;> rfl

theorem serene_complete (q d st de : Nat) (m : Mach) : (complete q d st de m).serene = m.serene := by
  have hheld : (if holding st then hold q (setRecord q d st de m) else setRecord q d st de m).serene = m.serene := by
    split
    · exact (serene_of_calm (calm_hold ..)).trans (serene_setRecord ..)
    · exact serene_setRecord ..
  unfold complete
  dsimp only
  generalize (if holding st then hold q (setRecord q d st de m) else setRecord q d st de m) = n at hheld ⊢
  split
  · split
    · exact hheld
    · refine (foldl_keeps Mach.serene _ (fun n e => ?_) _ _).trans hheld
      split
      · split
        · exact serene_setRecord ..
        · rfl
      · rfl
  · exact hheld

theorem serene_refuse (q d st de : Nat) (m : Mach) : (refuse q d st de m).serene = m.serene := by
  have hfree : (layerFree q d (cancelUnissued q d m)).serene = (cancelUnissued q d m).serene := rfl
  exact (serene_complete ..).trans (hfree.trans (serene_of_calm (calm_cancelUnissued ..)))

theorem serene_refuseAdm (q d : Nat) (m : Mach) : (refuseAdm q d m).serene = m.serene := serene_refuse ..

theorem serene_ledger (m : Mach) (l : Map LedgerE) : ({ m with ledger := l } : Mach).serene = m.serene := rfl

/-! ### The margin -/

section
variable {α : Type} {g : Mach → α}

theorem publish_view (hg : ∀ m, g m.still = g m) (ht : ∀ m t, g { m with telem := t } = g m) (m : Mach) : g (publish m) = g m := by
  unfold publish
  split
  · rfl
  · refine (foldl_keeps g _ (fun n b => ?_) _ _).trans (ht m _)
    split
    · split
      · rfl
      · rw [← hg, still_engPut, hg]
    · rfl

theorem feedSample_view (hg : ∀ m, g m.calm = g m) (hf : ∀ m x, g { m with tick := { m.tick with feeds := x } } = g m) (c : Cfg) (m : Mach) (f : Nat) :
    g (feedSample c m f) = g m := by
  unfold feedSample
  dsimp only
  generalize hn : (if (badIn m.mem (feedAt c f) 64).isSome && !m.depot.feedOff.contains f then post c evIntegrityFail _ _ else m) = n
  have hpost : g n = g m := by
    rw [← hn]
    split
    · exact view_of_calm g hg (calm_post ..)
    · rfl
  have hkeep (s : FeedS) : g (if s = ⟨none, none, false, false⟩ then { n with tick := { n.tick with feeds := mdel n.tick.feeds f } }
      else { n with tick := { n.tick with feeds := mset n.tick.feeds f s } }) = g m := by
    split
    · exact (hf n _).trans hpost
    · exact (hf n _).trans hpost
  split
  · exact hkeep _
  · split
    · exact hkeep _
    · split
      · exact hkeep _
      · refine (hf _ _).trans ?_
        split
        · exact hpost
        · exact (view_of_calm g hg ((calm_qUpd ..).trans (calm_of_still (still_engPut ..)))).trans hpost

theorem retest_view (hg : ∀ m, g m.serene = g m) (c : Cfg) (m : Mach) : g (retest c m) = g m := by
  refine view_of_serene g hg (foldl_keeps Mach.serene _ (fun m p => ?_) _ m)
  split
  · rfl
  · split
    · exact serene_of_calm (calm_post ..)
    · exact (foldl_keeps Mach.serene _ (fun _ _ => serene_refuseAdm ..) _ _).trans (serene_of_calm (calm_post ..))

theorem takeProposals_view (hl : ∀ m l, g { m with ledger := l } = g m) (c : Cfg) (m : Mach) : g (takeProposals c m) = g m := by
  refine foldl_keeps g _ (fun m p => ?_) _ m
  split
  · rfl
  · dsimp only
    split
    · exact hl ..
    · exact hl ..

/-- The entries and the share a reload begins with. -/
def refreshed (c : Cfg) (m : Mach) : Mach :=
  { m with ledger := mfilter (fun _ e => !e.retiring) m.ledger, tick := { m.tick with cfg := { m.tick.cfg with share := c.tick.share } } }

/-- The demand and the reserved share of the ledger as it stands. -/
def weighed (c : Cfg) (m : Mach) : Mach :=
  { m with tick := { m.tick with demand := demandOf (activeTerms m.ledger), reserved := reservedNow c m, reloaded := true } }

theorem reload_eq (c : Cfg) (m : Mach) : reload c m = prepare (weighed c (retest c (takeProposals c (refreshed c m)))) := rfl

theorem reload_view (hg : ∀ m, g m.serene = g m) (hr : ∀ c m, g (refreshed c m) = g m) (hw : ∀ c m, g (weighed c m) = g m) (c : Cfg) (m : Mach) : g (reload c m) = g m := by
  have hl (m : Mach) (l : Map LedgerE) : g { m with ledger := l } = g m := view_of_serene g hg (serene_ledger m l)
  rw [reload_eq, prepare, hl, hw, retest_view hg, takeProposals_view hl, hr]

end

theorem activeTerms_prepared (l : Map LedgerE) : activeTerms (mmap (fun _ e => { e with balance := 0, prepared := if e.dropped then none else some e.terms.budget }) l) = activeTerms l := by
  unfold activeTerms mmap
  rw [List.filter_map, List.map_map]
  rfl

/-- What a margin does before it marks that it began. -/
def sampled (c : Cfg) (fs : List Nat) (m : Mach) : Mach := fs.foldl (feedSample c) m

theorem sampled_view {α : Type} {g : Mach → α} (hg : ∀ m, g m.calm = g m) (hf : ∀ m x, g { m with tick := { m.tick with feeds := x } } = g m) (c : Cfg) (fs : List Nat)
    (m : Mach) : g (sampled c fs m) = g m := foldl_keeps g _ (feedSample_view hg hf c) _ m

theorem tick_publish (m : Mach) : (publish m).tick = m.tick := publish_view (fun _ => rfl) (fun _ _ => rfl) m
theorem ledger_publish (m : Mach) : (publish m).ledger = m.ledger := publish_view (fun _ => rfl) (fun _ _ => rfl) m

/-- The margin's work, and the mark that it began. -/
def marginBegun (m : Mach) : Mach := { m with tick := { m.tick with inMargin := true } }

theorem margin_eq (c : Cfg) {m : Mach} (h : m.tick.inMargin = false) : margin c m = marginBegun (publish (reload c (sampled c (List.range 128) m))) := by
  unfold margin sampled marginBegun
  rw [h, if_neg Bool.false_ne_true]

/-- A margin that begins computes the demand and the share reserved of the ledger that it leaves. -/
theorem margin_begins (c : Cfg) {m : Mach} (h : m.tick.inMargin = false) :
    (margin c m).tick.inMargin = true ∧ (margin c m).tick.reloaded = true ∧ (margin c m).now = m.now
      ∧ (margin c m).tick.demand = demandOf (activeTerms (margin c m).ledger) ∧ (margin c m).tick.count = m.tick.count := by
  rw [margin_eq c h]
  have hn : (sampled c (List.range 128) m).now = m.now := sampled_view (fun _ => rfl) (fun _ _ => rfl) c _ m
  have hk : (sampled c (List.range 128) m).tick.count = m.tick.count := sampled_view (g := fun m => m.tick.count) (fun _ => rfl) (fun _ _ => rfl) c _ m
  generalize sampled c (List.range 128) m = n at hn hk ⊢
  have hnow : (publish (reload c n)).now = m.now := (publish_view (fun _ => rfl) (fun _ _ => rfl) _).trans
    ((reload_view (g := Mach.now) (fun _ => rfl) (fun _ _ => rfl) (fun _ _ => rfl) c _).trans hn)
  have hcount : (reload c n).tick.count = m.tick.count :=
    (reload_view (g := fun m => m.tick.count) (fun _ => rfl) (fun _ _ => rfl) (fun _ _ => rfl) c _).trans
      hk
  rw [marginBegun, tick_publish, ledger_publish]
  refine ⟨rfl, ?_, hnow, ?_, hcount⟩
  · rw [reload_eq, prepare, weighed]
  · rw [reload_eq, prepare, weighed]
    exact (congrArg demandOf (activeTerms_prepared _)).symm

/-! ### The boundary -/

/-- The tick's count, base and next boundary, and its marks. -/
structure TickMark where
  count : Nat
  base : Nat
  nextB : Option Nat
  partialTick : Bool
  inMargin : Bool

def Mach.turn (m : Mach) : TickMark := ⟨m.tick.count, m.tick.base, m.tick.nextB, m.tick.partialTick, m.tick.inMargin⟩

theorem turn_feedLatch (c : Cfg) (m : Mach) (f : Nat) : (feedLatch c m f).turn = m.turn := by
  have hput (a : Nat) (l : List Byte) (m : Mach) : (engPut a l m).turn = m.turn := view_of_calm Mach.turn (fun _ => rfl) (calm_of_still (still_engPut ..))
  unfold feedLatch
  split
  · rfl
  · split
    · rfl
    · exact hput ..

theorem calm_overrunLayer (q : Nat) (m : Mach) (d : Nat) : (overrunLayer q m d).calm = m.calm := by
  unfold overrunLayer
  split
  · rfl
  · split
    · exact (calm_stopLayer ..).trans (calm_foldl _ (fun _ _ => calm_descUpd ..) _ _)
    · exact calm_descUpd ..

theorem calm_overrunQueue (c : Cfg) (m : Mach) (q : Nat) : (overrunQueue c m q).calm = m.calm := by
  unfold overrunQueue
  split
  · rfl
  · split
    · rfl
    · exact (calm_foldl _ (calm_overrunLayer q) _ _).trans (calm_post c ..)

theorem serene_retestOne (lim q d : Nat) (m : Mach) : (retestOne lim q d m).serene = m.serene := by
  unfold retestOne
  split
  · rfl
  · split
    · rfl
    · split
      · exact serene_refuseAdm ..
      · split
        · exact serene_of_calm ((calm_stopMembers ..).trans rfl)
        · rfl

theorem serene_wcetRetest (m : Mach) : (wcetRetest m).serene = m.serene :=
  by
  refine foldl_keeps Mach.serene _ (fun n p => ?_) _ m
  exact foldl_keeps Mach.serene _ (fun _ _ => serene_retestOne ..) _ n

/-- The count, the base and the marks a boundary sets. -/
def turned (b : Nat) (next : Option Nat) (count : Nat) (was : Bool) (m : Mach) : Mach :=
  { m with tick := { m.tick with
    count := count % 2 ^ 64, partialTick := false, base := b, nextB := next
    limit := b + (m.tick.cfg.period - m.tick.cfg.quiet) * 1000, inMargin := false, reloaded := false, outRise := some b
    t0 := if m.tick.cfg.src = 1 || (m.tick.cfg.src = 0 && was) then b else m.tick.t0 } }

/-- What follows in the tick that begins, up to tick_out: feeds, overruns, the ledger, the trim set. -/
def opened (c : Cfg) (was : Bool) (m : Mach) : Mach :=
  let m := (m.tick.feeds.map (·.1)).foldl (feedLatch c) m
  let m := (m.queues.map (·.1)).foldl (overrunQueue c) m
  let m := ledgerBoundary m.tick.count m
  let m := if was then wcetRetest m else m
  let m := match m.st.trimWait with
    | some t => { m with st := { m.st with trim := t, trimSeq := abSeq m.store.trimRec, trimWait := none } }
    | none => m
  telemReset { m with sched := { m.sched with rot := (m.sched.rot + 1) % max 1 m.cores.length } }

theorem turn_opened (c : Cfg) (was : Bool) (m : Mach) : (opened c was m).turn = m.turn := by
  have hs : ∀ m : Mach, m.serene.turn = m.turn := fun _ => rfl
  have hfeeds := foldl_keeps Mach.turn _ (turn_feedLatch c) (m.tick.feeds.map (·.1)) m
  unfold opened
  dsimp only
  generalize List.foldl (feedLatch c) m _ = n at hfeeds ⊢
  have hover : (List.foldl (overrunQueue c) n (n.queues.map (·.1))).turn = n.turn :=
    view_of_calm Mach.turn (fun _ => rfl) (calm_foldl _ (calm_overrunQueue c) _ n)
  generalize List.foldl (overrunQueue c) n _ = n1 at hover ⊢
  have hretest : (if was then wcetRetest (ledgerBoundary n1.tick.count n1) else ledgerBoundary n1.tick.count n1).turn = n1.turn := by
    split
    · exact view_of_serene Mach.turn hs ((serene_wcetRetest _).trans (serene_ledger ..))
    · rfl
  generalize (if was then wcetRetest (ledgerBoundary n1.tick.count n1) else ledgerBoundary n1.tick.count n1) = n2 at hretest ⊢
  refine Eq.trans ?_ (hretest.trans (hover.trans hfeeds))
  split <;> rfl

/-- A member of a cascade sends none; the master sends each member a TICK frame. -/
def told (c : Cfg) (m : Mach) : Mach :=
  if roleOf c = 2 then
    (List.range 16).foldl (fun m e =>
      if e ≠ 0 then
        frameTo e 7 (toLe 8 m.tick.count ++ toLe 4 m.tick.cfg.period ++ toLe 4 m.tick.cfg.quiet ++ toLe 8 m.tick.t0 ++ toLe 8 0) m
      else m) m
  else m

theorem told_view {α : Type} {g : Mach → α} (hg : ∀ e ty l m, g (frameTo e ty l m) = g m) (c : Cfg) (m : Mach) : g (told c m) = g m := by
  unfold told
  split
  · refine foldl_keeps g _ (fun m e => ?_) _ m
    split
    · exact hg ..
    · rfl
  · rfl

theorem out_frameTo (e ty : Nat) (l : List Byte) (m : Mach) : (frameTo e ty l m).out = m.out := by
  unfold frameTo
  split <;> rfl

theorem turn_frameTo (e ty : Nat) (l : List Byte) (m : Mach) : (frameTo e ty l m).turn = m.turn := (congrArg Mach.turn (still_frameTo e ty l m) :)

/-- The margin that a boundary ends, at the boundary's time. -/
def ended (c : Cfg) (b : Nat) (m : Mach) : Mach :=
  let m := tickTo b (margin c m)
  if m.power.lowDuty < 16 then post c evPowerCapLimiting [m.power.lowDuty] m else m

theorem boundaryAt_eq (c : Cfg) (b : Nat) (next : Option Nat) (count : Nat) (m : Mach) : boundaryAt c b next count m
    = told c (send .tickOut (opened c (tickTo b (margin c m)).tick.partialTick (turned b next count (tickTo b (margin c m)).tick.partialTick (ended c b m)))) := rfl

theorem boundaryAt_turns (c : Cfg) (b : Nat) (next : Option Nat) (count : Nat) (m : Mach) :
    (boundaryAt c b next count m).turn = ⟨count % 2 ^ 64, b, next, false, false⟩ ∧ .tickOut ∈ (boundaryAt c b next count m).out := by
  rw [boundaryAt_eq, told_view turn_frameTo, told_view out_frameTo]
  exact ⟨turn_opened .., List.mem_append.2 (.inr (List.mem_singleton.2 rfl))⟩

/-- No boundary is missed before an edge that comes by b + P + Q. -/
theorem missedTo_none {c : Cfg} {bt : Nat} {m : Mach} (h : bt ≤ edgeEnd m) (n : Nat) : missedTo c bt n m = m := by
  cases n with
  | zero => rfl
  | succ n => exact if_neg (Nat.not_lt.2 h)

theorem turn_missed (c : Cfg) (m : Mach) : (missed c m).turn = ⟨(m.tick.count + 1) % 2 ^ 64, edgeEnd m, none, false, false⟩ :=
  (post_view Mach.turn (fun _ => rfl) ..).trans (boundaryAt_turns ..).1

theorem tick_post (c : Cfg) (code : Nat) (ws : List Nat) (m : Mach) : (post c code ws m).tick = m.tick := post_view Mach.tick (fun _ => rfl) ..

/-- Settles O38: the boundaries of the three kinds of source, the edges, and the quiet margin. -/
theorem tickBoundaries : Obligations.TickBoundaries := by
  unfold Obligations.TickBoundaries
  refine ⟨fun s b hl hb hs => Runs.ofM rfl hl ?_, fun s t0 hl hs he hf => Runs.ofM rfl hl ?_, fun s t0 hl hs he hf => Runs.ofM rfl hl ?_, fun s hl hs => Runs.ofM rfl hl ?_,
    fun s t0 hl hs hser hlost hlim => Runs.ofM rfl hl ?_, fun s t0 hl hs hlost hp => Runs.ofM rfl hl ?_, fun s hl hm => Runs.ofM rfl hl ?_⟩
  · have hgo : internalBoundary s.c s.q = boundary s.c b (some (b + pNs s.q)) s.q := by
      unfold internalBoundary
      rw [show s.q.tick.nextB = some b from hb]
      exact if_pos (Bool.or_eq_true_iff.2 (hs.imp decide_eq_true id))
    obtain ⟨hturn, hout⟩ := boundaryAt_turns s.c b (some (b + pNs s.q)) (s.q.tick.count + 1) s.q
    dsimp only [State.m]
    rw [hgo]
    exact ⟨congrArg TickMark.count hturn, congrArg TickMark.base hturn, congrArg TickMark.nextB hturn, congrArg TickMark.partialTick hturn, congrArg TickMark.inMargin hturn, hout⟩
  · have hgo : tickInEdge t0 s.c s.q = boundary s.c (t0 + 80) none s.q := by
      unfold tickInEdge
      dsimp only
      rw [if_neg (Classical.not_not.2 (show s.q.tick.cfg.src = 1 from hs)), missedTo_none he]
      exact if_neg (Nat.not_lt.2 hf)
    obtain ⟨hturn, -⟩ := boundaryAt_turns s.c (t0 + 80) none (s.q.tick.count + 1) s.q
    dsimp only [State.m]
    rw [hgo]
    exact ⟨congrArg TickMark.count hturn, congrArg TickMark.base hturn, congrArg TickMark.partialTick hturn⟩
  · have hgo : tickInEdge t0 s.c s.q = post s.c evTickEarly [s.q.tick.count] (tickTo (t0 + 80) s.q) := by
      unfold tickInEdge
      dsimp only
      rw [if_neg (Classical.not_not.2 (show s.q.tick.cfg.src = 1 from hs)), missedTo_none he]
      exact if_pos hf
    dsimp only [State.m]
    rw [hgo, tick_post]
    rfl
  · have hturn := turn_missed s.c s.q
    have hgo : tickMissed s.c s.q = missed s.c s.q := if_pos hs
    dsimp only [State.m]
    rw [hgo]
    exact ⟨congrArg TickMark.count hturn, congrArg TickMark.base hturn⟩
  · have hgo : sourceBoundary t0 s.c s.q = boundaryAt s.c t0 (some (t0 + pNs s.q)) (sourceCount t0 s.q) s.q := by
      unfold sourceBoundary
      rw [if_neg (by rw [hser]; simp [Nat.not_lt.2 (show 2 ≤ s.q.tick.cfg.src from hs)]), if_pos (by rw [show s.q.tick.sourceLost = false from hlost]; rfl)]
      exact if_neg (Nat.not_lt.2 hlim)
    obtain ⟨hturn, -⟩ := boundaryAt_turns s.c t0 (some (t0 + pNs s.q)) (sourceCount t0 s.q) s.q
    dsimp only [State.m]
    rw [hgo]
    exact ⟨congrArg TickMark.count hturn, congrArg TickMark.base hturn⟩
  · have hgo : sourceLost t0 s.c s.q = post s.c evTickSourceLost [s.q.tick.cfg.src, s.q.tick.count] { tickTo t0 s.q with tick := { s.q.tick with
        sourceLost := true, nextB := if s.q.tick.partialTick then s.q.tick.nextB else some (s.q.tick.base + pNs s.q) } } := by
      unfold sourceLost
      dsimp only
      exact if_neg (by simp [show s.q.tick.cfg.src = 3 from hs, show s.q.tick.sourceLost = false from hlost, tickTo])
    dsimp only [State.m]
    rw [hgo, tick_post]
    exact ⟨rfl, if_neg (ne_true_of_eq_false hp), rfl⟩
  · exact margin_begins s.c (m := tickTo s.q.tick.limit s.q) hm

end Sys2Proof.Machine
end

section
/-! SUPPORT. The commands of the cascade: O39 (R370, R371, R377, R387). -/

namespace Sys2Proof.Machine
open Sys2Proof

theorem casc_creditBack (b : Bind) (n : Nat) (m : Mach) : (creditBack b n m).casc = m.casc := creditBack_view Mach.casc (fun _ _ => rfl) ..

theorem casc_frameTo (e ty : Nat) (l : List Byte) (m : Mach) : (frameTo e ty l m).casc = m.casc := (congrArg Mach.casc (still_frameTo e ty l m) :)

theorem casc_manageTo (e kind req : Nat) (l : List Byte) (m : Mach) : (manageTo e kind req l m).casc = m.casc :=
  foldl_keeps Mach.casc _ (fun _ _ => casc_frameTo ..) _ m

/-- The binding that REMOTE_BIND names. -/
def bindingOf (k : Cmd) : Bind where
  q := k.argN 0x18 4
  recv := k.argN 0x1C 1 = 1
  port := k.argN 0x1D 1
  engine := k.argN 0x1E 1
  remote := k.argN 0x20 4
  quota := if k.argN 0x1C 1 = 1 then k.argN 0x24 2 else 0

/-- The block with the binding at index `i`, and a receive binding's quota sent as credits. -/
def boundAt (i : Nat) (k : Cmd) (m : Mach) : Mach :=
  if k.argN 0x1C 1 = 1 then creditBack (bindingOf k) (bindingOf k).quota { m with casc := { m.casc with binds := mset m.casc.binds i (bindingOf k) } }
  else { m with casc := { m.casc with binds := mset m.casc.binds i (bindingOf k) } }

theorem boundAt_binds (i : Nat) (k : Cmd) (m : Mach) : (boundAt i k m).casc.binds = mset m.casc.binds i (bindingOf k) ∧ (boundAt i k m).rings = m.rings := by
  unfold boundAt
  split
  · exact ⟨congrArg Casc.binds (casc_creditBack ..), rings_creditBack ..⟩
  · exact ⟨rfl, rfl⟩

/-- Frames of other bindings alone are kept where one goes. -/
theorem parked_others (i : Nat) (l : Map (List Parked)) :
    ∀ p ∈ mfilter (fun _ l => decide (l ≠ [])) (mmap (fun _ l => l.filter fun f => f.bind != i) l), ∀ f ∈ p.2, f.bind ≠ i := by
  intro p hp f hf
  obtain ⟨p', -, rfl⟩ := List.mem_map.1 (List.mem_filter.1 hp).1
  simpa using (List.mem_filter.1 hf).2

/-- The block with its receive binding's credits sent back. -/
def creditsReturned (i : Nat) (m : Mach) : Mach :=
  match mget m.casc.binds i with
  | some b => if b.recv then creditBack b b.used m else m
  | none => m

theorem creditsReturned_keeps (i : Nat) (m : Mach) : (creditsReturned i m).casc = m.casc ∧ (creditsReturned i m).rings = m.rings := by
  unfold creditsReturned
  split
  · split
    · exact ⟨casc_creditBack .., rings_creditBack ..⟩
    · exact ⟨rfl, rfl⟩
  · exact ⟨rfl, rfl⟩

theorem storeStart_begun {id : Nat} {m : Mach} {k : Cmd} (h : mget m.rings.cmds id = some k) (n : Nat) (b : List Byte) :
    (mget (storeStart id n b m).rings.cmds id).map (fun k => (k.phase, k.arg)) = some (1, n) := by
  show (mget (mupd (mupd m.rings.cmds id _) id _) id).map _ = _
  rw [mget_mupd, mget_mupd, h]
  rfl

/-- Settles O39: each command of the cascade's table, its record and its answer. -/
theorem cascadeCommands : Obligations.CascadeCommands := by
  unfold Obligations.CascadeCommands
  refine ⟨fun s id k n h hn => Runs.row rfl h ?_, fun s id k h hb hf hp => ?_, fun s id k h => Runs.row rfl h ?_, fun s id k h => Runs.row rfl h ?_,
    fun s id k h => Runs.row rfl h ?_, fun s id k h hp => Runs.row rfl h ?_⟩
  · subst hn
    dsimp only [Answered, State.m]
    rw [casc_respond]
    refine ⟨answered (accepted_cmd h) rfl, rfl, by rw [List.length_map, List.length_range], fun i hi => ?_⟩
    dsimp only
    rw [List.getElem?_map, List.getElem?_range hi]
    rfl
  · refine Runs.ofM rfl (accepted_live h) ?_
    have hrow : cascadeTrust id s.c s.q = _ := storeRow_starts h ⟨hb, hf, hp⟩
    dsimp only [begun, State.m]
    rw [hrow]
    exact ⟨storeStart_begun (accepted_cmd h) .., rfl, abRead_abErase _, rfl⟩
  · dsimp only [Answered, State.m]
    rw [casc_respond]
    exact ⟨answered (accepted_cmd h) rfl, mget_mset .., rfl⟩
  · obtain ⟨hbinds, hrings⟩ := boundAt_binds (mfree s.q.casc.binds 0) k s.q
    dsimp only [Answered, State.m]
    rw [casc_respond]
    exact ⟨answered (accepted_cmd h) hrings, (congrArg (mget · _) hbinds).trans (mget_mset ..)⟩
  · obtain ⟨hcasc, hrings⟩ := creditsReturned_keeps (k.argN 0x18 2) s.q
    dsimp only [Answered, State.m]
    rw [casc_respond]
    refine ⟨answered (accepted_cmd h) hrings, ?_, parked_others _ _⟩
    exact mget_mdel ..
  · have hpeer : (peerOf s.q (k.argN 0x18 1)).isNone = false := Option.isNone_eq_false_iff.2 hp
    dsimp only [begun, State.m]
    rw [if_neg (ne_true_of_eq_false hpeer), rings_manageTo, casc_manageTo]
    exact ⟨underWay_begun (accepted_cmd h), rfl, mget_mset ..⟩

end Sys2Proof.Machine
end

section
/-! SUPPORT. Peers of a link port, and what reaches them beside their own rows (R367 to R390). -/

namespace Sys2Proof.Machine
open Sys2Proof

/-! ### Reading a peer -/

theorem peerGet_of_links {m n : Mach} (h : m.links = n.links) (p i : Nat) : peerGet m p i = peerGet n p i := by unfold peerGet; rw [h]

theorem peerGet_peerUpd (p i : Nat) (f : Peer → Peer) (m : Mach) : peerGet (peerUpd p i f m) p i = (peerGet m p i).map f := by
  show ((lupd m.links p _)[p]?).bind _ = _
  rw [lupd_get]
  unfold peerGet
  cases m.links[p]? with
  | none => rfl
  | some l => exact lupd_get ..

theorem peerGet_peerUpd_ne {p i q j : Nat} (h : q ≠ p ∨ j ≠ i) (f : Peer → Peer) (m : Mach) : peerGet (peerUpd p i f m) q j = peerGet m q j := by
  show ((lupd m.links p _)[q]?).bind _ = _
  by_cases hq : q = p
  · subst hq
    rw [lupd_get]
    unfold peerGet
    cases m.links[q]? with
    | none => rfl
    | some l => exact lupd_get_ne _ _ (h.resolve_left (Classical.not_not.2 rfl))
  · rw [lupd_get_ne _ _ hq]
    rfl

theorem peerGet_some {m : Mach} {p i : Nat} {x : Peer} (h : peerGet m p i = some x) : ∃ l, m.links[p]? = some l ∧ l.peers[i]? = some x := Option.bind_eq_some_iff.1 h

/-- What a view of a peer shows: it stands at its place with the value `v`. -/
def Shows {α : Type} (g : Peer → α) (p i : Nat) (v : α) (m : Mach) : Prop := (peerGet m p i).map g = some v

theorem Shows.some {α : Type} {g : Peer → α} {p i : Nat} {v : α} {m : Mach} (h : Shows g p i v m) : ∃ x, peerGet m p i = some x ∧ g x = v := Option.map_eq_some_iff.1 h

section
variable {α : Type} {g : Peer → α}

/-- A change that the view does not see, of any peer. -/
theorem seen_peerUpd {f : Peer → Peer} (hf : ∀ x, g (f x) = g x) (q j p i : Nat) (m : Mach) : (peerGet (peerUpd q j f m) p i).map g = (peerGet m p i).map g := by
  by_cases h : p = q ∧ i = j
  · obtain ⟨rfl, rfl⟩ := h
    rw [peerGet_peerUpd, Option.map_map]
    exact Option.map_congr fun x _ => hf x
  · rw [peerGet_peerUpd_ne (by omega)]

variable (hg : ∀ x l, g { x with queue := l } = g x)
include hg

theorem seen_framePut (q j : Nat) (f : Frame) (p i : Nat) (m : Mach) : (peerGet (framePut q j f m) p i).map g = (peerGet m p i).map g := seen_peerUpd (fun x => hg x _) ..

theorem seen_framePeer (q j ty : Nat) (l : List Byte) (p i : Nat) (m : Mach) : (peerGet (framePeer q j ty l m) p i).map g = (peerGet m p i).map g := seen_framePut hg ..

theorem seen_frameTo (e ty : Nat) (l : List Byte) (p i : Nat) (m : Mach) : (peerGet (frameTo e ty l m) p i).map g = (peerGet m p i).map g := by
  unfold frameTo
  split
  · exact seen_framePeer hg ..
  · rfl

theorem seen_manageTo (e kind req : Nat) (l : List Byte) (p i : Nat) (m : Mach) : (peerGet (manageTo e kind req l m) p i).map g = (peerGet m p i).map g :=
  foldl_keeps (fun m => (peerGet m p i).map g) _ (fun _ _ => seen_frameTo hg ..) _ m

omit hg in
theorem links_engPut (a : Nat) (l : List Byte) (m : Mach) : (engPut a l m).links = m.links := by
  have hb (d : Bool) (n : Nat) : (backInval a n d m).links = m.links := foldl_keeps Mach.links _ (by intro m l; dsimp only; split <;> rfl) _ m
  unfold engPut
  dsimp only
  split <;> exact hb ..

omit hg in
theorem links_irqEvt (c : Cfg) (m : Mach) : (irqEvt c m).links = m.links := by
  unfold irqEvt msix
  split
  · rfl
  · split
    · rfl
    · dsimp only
      split <;> rfl

omit hg in
theorem links_putEvent (c : Cfg) (e : List Byte) (m : Mach) : (putEvent c e m).links = m.links := by
  unfold putEvent
  rw [links_irqEvt]
  exact links_engPut ..

theorem seen_post (c : Cfg) (code : Nat) (ws : List Nat) (p i : Nat) (m : Mach) : (peerGet (post c code ws m) p i).map g = (peerGet m p i).map g := by
  unfold post
  split
  · rfl
  · dsimp only
    generalize hn : (if roleOf c = 1 then manageTo 0 2 0 (evtEntry m code 0 4 0 0 0 (words ws)) m else m) = n
    have htold : (peerGet n p i).map g = (peerGet m p i).map g := by
      rw [← hn]
      split
      · exact seen_manageTo hg ..
      · rfl
    split
    · rw [peerGet_of_links (links_putEvent ..)]
      exact htold
    · exact htold

theorem seen_respond (c : Cfg) (id st : Nat) (l : List Byte) (p i : Nat) (m : Mach) : (peerGet (respond c id st l m) p i).map g = (peerGet m p i).map g := by
  have hr (n : Mach) : peerGet { n with rings := { n.rings with cmds := mdel n.rings.cmds id } } p i = peerGet n p i := rfl
  unfold respond
  split
  · rfl
  · dsimp only
    rw [hr]
    split
    · exact seen_manageTo hg ..
    · exact congrArg (Option.map g) (peerGet_of_links (links_putEvent ..) p i)

theorem seen_creditBack (b : Bind) (n p i : Nat) (m : Mach) : (peerGet (creditBack b n m) p i).map g = (peerGet m p i).map g := by
  unfold creditBack
  split
  · split
    · rfl
    · exact seen_framePeer hg ..
  · rfl

end

/-! ### What returns credits leaves the rest alone -/

theorem served_tookBytes (k n b : Nat) (m : Mach) : (tookBytes k n b m).served = m.served := by
  unfold tookBytes
  split <;> rfl

theorem served_frameTaken (f : Frame) (m : Mach) : (frameTaken f m).served = m.served := by
  unfold frameTaken
  split
  · rfl
  · split
    · exact served_tookBytes ..
    · rfl

theorem served_framesTaken (l : List Frame) (m : Mach) : (l.foldl (fun m f => frameTaken f m) m).served = m.served :=
  foldl_keeps Mach.served _ (fun _ _ => served_frameTaken ..) l m

/-! ### Stopping a layer leaves the links alone -/

theorem links_cancelUnissued (q d : Nat) (m : Mach) : (cancelUnissued q d m).links = m.links := by
  unfold cancelUnissued
  split <;> rfl

theorem links_killCore (k : Nat) (m : Mach) : (killCore k m).links = m.links := by
  unfold killCore
  split
  · rfl
  · dsimp only
    show (List.foldl _ _ _ : Mach).links = _
    exact (foldl_keeps Mach.links _ (by intro a b; rfl) _ _).trans rfl

theorem links_killTiles (f : TileCmd → Bool) (st de : Nat) (m : Mach) : (killTiles f st de m).links = m.links := by
  refine foldl_keeps Mach.links _ (fun m k => ?_) _ m
  split
  · rw [links_killCore]
    exact foldl_keeps Mach.links _ (by intro a b; rw [links_cancelUnissued]; rfl) _ m
  · rfl

theorem links_stopMembers (g : List (Nat × Nat)) (st de : Nat) (kill : Bool) (m : Mach) : (stopMembers g st de kill m).links = m.links := by
  have hall : (g.foldl (fun m p => cancelUnissued p.1 p.2 (reach p.1 p.2 st de m)) m).links = m.links :=
    foldl_keeps Mach.links _ (by intro a b; rw [links_cancelUnissued]; rfl) g m
  unfold stopMembers
  show (ite _ _ _ : Mach).links = m.links
  split
  · rw [links_killTiles, hall]
  · exact hall

theorem links_stopLayer (q d st de : Nat) (kill : Bool) (m : Mach) : (stopLayer q d st de kill m).links = m.links := links_stopMembers ..

end Sys2Proof.Machine
end

section
/-! SUPPORT. The loss of a peer, and the handshake of a link: O40 (R371, R374 to R376, R384, R388, R439). -/

namespace Sys2Proof.Machine
open Sys2Proof

/-! ### The loss of a peer -/

/-- A peer's place on the time path is set anew, at every peer. -/
theorem peerGet_retime (c : Cfg) (p i : Nat) (m : Mach) : ∃ b : Peer → Bool, peerGet (retime c m) p i = (peerGet m p i).map fun x => onPath (b x) x := by
  unfold peerGet retime
  dsimp only
  rw [List.getElem?_map, List.getElem?_zipIdx]
  cases m.links[p]? with
  | none => exact ⟨fun _ => false, rfl⟩
  | some l =>
    rw [Option.map_some, Option.map_some, Option.bind_some, Option.bind_some, List.getElem?_map]
    exact ⟨_, rfl⟩

/-- What follows when a peer in SECURE or later has been lost: its frames' credits, the layers that depend on it, the reports. -/
def lossFollows (c : Cfg) (fs : List Frame) (ls : List (Nat × Nat)) (port e : Nat) (m : Mach) : Mach :=
  let detail := port + 16 * e
  let m := pump (fs.foldl (fun m f => frameTaken f m) m)
  let m := ls.foldl (fun m x => stopLayer x.1 x.2 stLinkLost detail true m) m
  let m := { m with depot := { m.depot with ops := m.depot.ops.map (lostReshard m port e detail) } }
  let m := post c evPeerLost [port, e] (lossMarks port e detail m)
  if (peerOf m e).isSome then m
  else
    let m := if roleOf c = 2 then post c evMemberLost [e] m else m
    let m := (m.casc.requests.filter fun r => r.2.engine == e).foldl (fun m r => respond c r.2.cmd stLinkLost [] m) m
    { m with casc := { m.casc with requests := mfilter (fun _ r => r.engine ≠ e) m.casc.requests } }

theorem peerLost_open {c : Cfg} {port i next : Nat} {m : Mach} {x : Peer} (h : peerGet m port i = some x) (hs : 5 ≤ x.state) :
    ∃ fs ls e, peerLost c port i next m = lossFollows c fs ls port e (retime c (peerUpd port i (peerClear next m.now) m)) := by
  unfold peerLost
  rw [h]
  dsimp only
  rw [if_neg (Nat.not_lt.2 hs)]
  exact ⟨x.unacked ++ x.queue, _, _, rfl⟩

theorem peerLost_shaking {c : Cfg} {port i next : Nat} {m : Mach} {x : Peer} (h : peerGet m port i = some x) (hs : x.state < 5) :
    peerLost c port i next m = peerUpd port i (peerClear next m.now) m := by
  unfold peerLost
  rw [h]
  exact if_pos hs

theorem peerLost_none {c : Cfg} {port i next : Nat} {m : Mach} (h : peerGet m port i = none) : peerLost c port i next m = m := by
  unfold peerLost
  rw [h]

section
variable {α : Type} {g : Peer → α} (hg : ∀ x l, g { x with queue := l } = g x)
include hg

theorem seen_lossFollows (c : Cfg) (fs : List Frame) (ls : List (Nat × Nat)) (port e p i : Nat) (m : Mach) :
    (peerGet (lossFollows c fs ls port e m) p i).map g = (peerGet m p i).map g := by
  have hpump : (pump (fs.foldl (fun m f => frameTaken f m) m)).links = m.links := (congrArg Mach.links ((served_pump _).trans (served_framesTaken fs m)) :)
  unfold lossFollows
  dsimp only
  generalize pump (fs.foldl (fun m f => frameTaken f m) m) = n at hpump ⊢
  have hstop : (ls.foldl (fun m x => stopLayer x.1 x.2 stLinkLost (port + 16 * e) true m) n).links = m.links :=
    (foldl_keeps Mach.links _ (by intro m x; exact links_stopLayer ..) ls n).trans hpump
  generalize ls.foldl (fun m x => stopLayer x.1 x.2 stLinkLost (port + 16 * e) true m) n = n1 at hstop ⊢
  generalize hm : lossMarks port e (port + 16 * e) _ = n2
  have hmarks : peerGet n2 p i = peerGet m p i := peerGet_of_links (by rw [← hm]; exact hstop) p i
  have hpost : (peerGet (post c evPeerLost [port, e] n2) p i).map g = (peerGet m p i).map g := (seen_post hg ..).trans (congrArg _ hmarks)
  generalize post c evPeerLost [port, e] n2 = n3 at hpost ⊢
  split
  · exact hpost
  · have hmember : (peerGet (if roleOf c = 2 then post c evMemberLost [e] n3 else n3) p i).map g = (peerGet m p i).map g := by
      split
      · exact (seen_post hg ..).trans hpost
      · exact hpost
    generalize (if roleOf c = 2 then post c evMemberLost [e] n3 else n3) = n4 at hmember ⊢
    exact (foldl_keeps (fun m => (peerGet m p i).map g) _ (by intro m r; exact seen_respond hg ..) _ n4).trans hmember

/-- A view that neither the loss of a peer nor its place on the time path changes, of any peer. -/
theorem seen_peerLost (hp : ∀ b x, g (onPath b x) = g x) (hc : ∀ s t x, g (peerClear s t x) = g x) (c : Cfg) (port j next p i : Nat) (m : Mach) :
    (peerGet (peerLost c port j next m) p i).map g = (peerGet m p i).map g := by
  have hclear := seen_peerUpd (hc next m.now) port j p i m
  cases h : peerGet m port j with
  | none => rw [peerLost_none h]
  | some x =>
    by_cases hs : x.state < 5
    · rw [peerLost_shaking h hs, hclear]
    · obtain ⟨fs, ls, e, he⟩ := peerLost_open (c := c) (next := next) h (Nat.not_lt.1 hs)
      obtain ⟨b, hb⟩ := peerGet_retime c p i (peerUpd port j (peerClear next m.now) m)
      rw [he, seen_lossFollows hg, hb, Option.map_map, ← hclear]
      exact Option.map_congr fun x _ => hp (b x) x

end

/-- A lost peer is in the state it falls to, with no frame unacknowledged and no credit. -/
theorem peerLost_clears {c : Cfg} {p i next : Nat} {m : Mach} {x : Peer} (h : peerGet m p i = some x) (hn : next ≠ 6) :
    ∃ y, peerGet (peerLost c p i next m) p i = some y ∧ y.state = next ∧ y.unacked = [] ∧ y.credits = [] := by
  have hclear : peerGet (peerUpd p i (peerClear next m.now) m) p i = some (peerClear next m.now x) := by rw [peerGet_peerUpd, h]; rfl
  by_cases hs : x.state < 5
  · exact ⟨_, (congrArg (peerGet · p i) (peerLost_shaking h hs)).trans hclear, rfl, rfl, rfl⟩
  · obtain ⟨fs, ls, e, he⟩ := peerLost_open (c := c) (next := next) h (Nat.not_lt.1 hs)
    obtain ⟨b, hb⟩ := peerGet_retime c p i (peerUpd p i (peerClear next m.now) m)
    have hseen := seen_lossFollows (g := fun y => (y.state, y.unacked, y.credits)) (fun _ _ => rfl) c fs ls p e p i (retime c (peerUpd p i (peerClear next m.now) m))
    rw [← he, hb, hclear] at hseen
    obtain ⟨y, hy, hv⟩ := Option.map_eq_some_iff.1 hseen
    have hstate : (onPath (b (peerClear next m.now x)) (peerClear next m.now x)).state = next := by
      unfold onPath peerClear
      dsimp only
      rw [if_neg (by simp [hn])]
    simp only [Prod.mk.injEq] at hv
    exact ⟨y, hy, hv.1.trans hstate, hv.2⟩

/-! ### The handshake -/

theorem links_linkSet {m : Mach} {p : Nat} {l : Link} (h : m.links[p]? = some l) (f : Link → Link) :
    (linkSet p f m).links[p]? = some (f l) ∧ ∀ j, j ≠ p → (linkSet p f m).links[j]? = m.links[j]? :=
  ⟨(lupd_get ..).trans (congrArg _ h), fun _ hj => lupd_get_ne _ _ hj⟩

theorem macUp_links {c : Cfg} {m : Mach} {p t : Nat} {l : Link} (h : m.links[p]? = some l) (hp : portOn c p = true) :
    (macUp p t c m).links[p]? = some { l with macUp := true, peers := l.peers.map fun x => if x.state < 2 then { x with state := 2 } else x }
      ∧ ∀ j, j ≠ p → (macUp p t c m).links[j]? = m.links[j]? := by
  obtain ⟨h1, ho1⟩ := links_linkSet (m := tickTo t m) h fun l => { l with macUp := true }
  obtain ⟨h2, ho2⟩ := links_linkSet h1 fun l => { l with peers := l.peers.map fun p => if p.state < 2 then { p with state := if l.macUp then 2 else 1 } else p }
  have hgo : macUp p t c m = linkSet p (fun l => { l with peers := l.peers.map fun p => if p.state < 2 then { p with state := if l.macUp then 2 else 1 } else p })
      (linkSet p (fun l => { l with macUp := true }) (tickTo t m)) := if_neg (by rw [hp]; decide)
  rw [hgo]
  exact ⟨h2, fun j hj => (ho2 j hj).trans (ho1 j hj)⟩

theorem macDown_links {m : Mach} {p t : Nat} {l : Link} (h : m.links[p]? = some l) : (macDown p t m).links[p]? = some { l with
      macUp := false, downAt := if l.macUp then max m.now t else l.downAt
      peers := l.peers.map fun x => if 2 ≤ x.state ∧ x.state < 5 then { x with state := 1 } else x }
    ∧ ∀ j, j ≠ p → (macDown p t m).links[j]? = m.links[j]? := by
  obtain ⟨hl, ho⟩ := links_linkSet (m := tickTo t m) h fun l => { l with
    macUp := false, downAt := if l.macUp then (tickTo t m).now else l.downAt
    peers := l.peers.map fun p => if 2 ≤ p.state && p.state < 5 then { p with state := 1 } else p }
  refine ⟨hl.trans ?_, ho⟩
  simp only [Bool.and_eq_true, decide_eq_true_eq]
  rfl

/-- A HELLO goes out at its time. -/
theorem helloBroadcast_goes {c : Cfg} {m : Mach} {p t : Nat} {l : Link} (h : m.links[p]? = some l) (hp : portOn c p = true) (hm : l.macUp = true) (hh : inHello l = true)
    (hs : shakes m = true) (ht : l.helloAt.all (fun a => a + 10000000 ≤ max m.now t) = true) :
    helloBroadcast p t c m = send (.frame p (2 ^ 48 - 1) (wrapOf c p) (plainHead 5 0xF (selfEngine c m) 128) (helloBytes (ownHello c m p)))
      (linkSet p (fun l => { l with helloAt := some (max m.now t) }) (tickTo t m)) := by
  have hwait : (l.helloAt.any fun a => decide (max m.now t < a + 10000000)) = false := by
    cases ha : l.helloAt with
    | none => rfl
    | some a =>
      rw [ha, Option.all_some, decide_eq_true_eq] at ht
      rw [Option.any_some, decide_eq_false_iff_not]
      exact Nat.not_lt.2 ht
  have hshake : shakes (tickTo t m) = true := hs
  have hown : ownHello c (tickTo t m) p = ownHello c m p := by
    unfold ownHello ownKey ownEpoch attestPub attestPriv
    rfl
  unfold helloBroadcast
  dsimp only
  rw [show (tickTo t m).links[p]? = some l from h]
  dsimp only
  rw [hp, hm, hh, hshake, show (l.helloAt.any fun a => decide ((tickTo t m).now < a + 10000000)) = false from hwait, hown]
  rfl

/-! ### HELLO arrives -/

/-- What a HELLO leaves of a peer: its address, the HELLO and its time. -/
def heardHello (x : Peer) : Nat × Option Hello × Nat := (x.mac, x.hello, x.helloAt)

/-- The peers of a port, with the sender of a HELLO, where there is room for it. -/
def met (port : Nat) (h : Hello) (l : Link) (m : Mach) : Mach :=
  if (l.peers.any (·.mac == h.mac)) || 15 ≤ l.peers.length then m
  else linkSet port (fun l => { l with peers := l.peers ++ [{ mac := h.mac, since := m.now, lastRx := m.now }] }) m

/-- What follows the record of a HELLO: a second master, a judgement, an attestation. -/
def helloFollows (port i : Nat) (h : Hello) (second : Bool) (p : Peer) (c : Cfg) (m : Mach) : Mach :=
  if second then enterNoMaster c m
  else if m.casc.noMaster || p.state ≠ 2 || (p.refused && p.hello == some h) then m
  else match helloJudge c m h with
    | .agree => attestStart c port i m
    | .wait => m
    | .refuse => post c evPeerRefused [port, h.engine, 2] (peerUpd port i (fun p => { p with refused := true }) m)

theorem met_has {port : Nat} {h : Hello} {l : Link} {m : Mach} (hl : m.links[port]? = some l) (hr : l.peers.length < 15 ∨ ∃ x ∈ l.peers, x.mac = h.mac) :
    ∃ k, (met port h l m).links[port]? = some k ∧ ∃ x ∈ k.peers, x.mac = h.mac := by
  unfold met
  split
  · rename_i hif
    refine ⟨l, hl, hr.elim (fun hlen => ?_) id⟩
    rw [Bool.or_eq_true, decide_eq_true_eq] at hif
    obtain ⟨x, hx, he⟩ := List.any_eq_true.1 (hif.resolve_right (Nat.not_le.2 hlen))
    exact ⟨x, hx, eq_of_beq he⟩
  · exact ⟨_, (links_linkSet hl _).1, _, List.mem_append.2 (.inr (List.mem_singleton.2 rfl)), rfl⟩

/-- The sender of a HELLO is found among the peers of its port. -/
theorem sender_found {m : Mach} {port : Nat} {h : Hello} {k : Link} (hk : m.links[port]? = some k) (hx : ∃ x ∈ k.peers, x.mac = h.mac) :
    ∃ p i, ((m.links[port]?).bind fun l => l.peers.zipIdx.find? fun p => p.1.mac == h.mac) = some (p, i) ∧ peerGet m port i = some p ∧ p.mac = h.mac := by
  rw [hk, Option.bind_some]
  cases hf : k.peers.zipIdx.find? fun p => p.1.mac == h.mac with
  | none =>
    obtain ⟨x, hx, he⟩ := hx
    obtain ⟨i, hi, hget⟩ := List.mem_iff_getElem.1 hx
    have hmem : (x, i) ∈ k.peers.zipIdx := List.mk_mem_zipIdx_iff_getElem?.2 (hget ▸ List.getElem?_eq_getElem hi)
    exact absurd (beq_iff_eq.2 he) (List.find?_eq_none.1 hf _ hmem)
  | some q =>
    refine ⟨q.1, q.2, rfl, ?_, eq_of_beq (List.find?_some hf :)⟩
    unfold peerGet
    rw [hk]
    exact List.mk_mem_zipIdx_iff_getElem?.1 (List.mem_of_find?_eq_some hf)

section
variable {α : Type} {g : Peer → α} (hg : ∀ x l, g { x with queue := l } = g x) (hp : ∀ b x, g (onPath b x) = g x) (hc : ∀ s t x, g (peerClear s t x) = g x)
include hg hp hc

theorem seen_enterNoMaster (c : Cfg) (p i : Nat) (m : Mach) : (peerGet (enterNoMaster c m) p i).map g = (peerGet m p i).map g := by
  unfold enterNoMaster
  dsimp only
  split
  · rfl
  · refine (foldl_keeps (fun m => (peerGet m p i).map g) _ (fun n port => ?_) _ _).trans (seen_post hg ..)
    refine foldl_keeps (fun m => (peerGet m p i).map g) _ (fun n j => ?_) _ n
    split
    · exact seen_peerLost hg hp hc ..
    · rfl

end

theorem seen_attestStart {α : Type} {g : Peer → α} (hs : ∀ x s t n e, g { x with state := s, since := t, offered := false, myNonce := n, eph := e } = g x) (c : Cfg) (q j p i : Nat)
    (m : Mach) : (peerGet (attestStart c q j m) p i).map g = (peerGet m p i).map g := by
  unfold attestStart
  split
  · rfl
  · exact seen_peerUpd (fun x => hs x ..) q j p i (drawn (drawn m))

theorem heard_follows (port i : Nat) (h : Hello) (second : Bool) (x : Peer) (c : Cfg) (m : Mach) :
    (peerGet (helloFollows port i h second x c m) port i).map heardHello = (peerGet m port i).map heardHello := by
  unfold helloFollows
  split
  · exact seen_enterNoMaster (fun _ _ => rfl) (fun _ _ => rfl) (fun _ _ _ => rfl) ..
  · split
    · rfl
    · split
      · exact seen_attestStart (fun _ _ _ _ _ => rfl) ..
      · rfl
      · rw [seen_post (fun _ _ => rfl)]
        exact seen_peerUpd (by intro x; rfl) ..

/-- A HELLO taken is recorded at its sender. -/
theorem helloRx_records {c : Cfg} {m : Mach} {p t : Nat} {hd : KHead} {h : Hello} {l : Link} (hl : m.links[p]? = some l) (hp : portOn c p = true) (hm : l.macUp = true)
    (hs : shakes m = true) (hb : headBad hd 5 128 = false) (hd' : hd.dst = 0xF ∨ hd.dst = selfEngine c m) (he : h.engine < 16) (hpt : h.port < 4) (hcaps : h.caps < 2)
    (hr : l.peers.length < 15 ∨ ∃ x ∈ l.peers, x.mac = h.mac) :
    ∃ i, Shows heardHello p i (h.mac, some h, max m.now t) (helloRx p hd h t c m) := by
  obtain ⟨k, hk, hx⟩ := met_has (m := tickTo t m) (h := h) hl hr
  obtain ⟨x, i, hfind, hget, hmac⟩ := sender_found hk hx
  have hgo : helloRx p hd h t c m = helloFollows p i h (secondMaster c (tickTo t m) h) x c (peerUpd p i (fun y => { y with hello := some h, helloAt := (met p h l (tickTo t m)).now, refused := y.refused && y.hello == some h }) (met p h l (tickTo t m))) := by
    have hshake : shakes (tickTo t m) = true := hs
    have hdst : (decide (hd.dst ≠ 0xF) && decide (hd.dst ≠ selfEngine c (tickTo t m))) = false := by
      rcases hd' with h | h
      · rw [h]; rfl
      · rw [Bool.and_eq_false_iff]; exact .inr (decide_eq_false (Classical.not_not.2 h))
    unfold helloRx
    dsimp only
    rw [show (tickTo t m).links[p]? = some l from hl]
    dsimp only
    rw [hp, hm, hshake, hb, hdst, decide_eq_false (Nat.not_le.2 he), decide_eq_false (Nat.not_le.2 hpt), decide_eq_false (Nat.not_le.2 hcaps)]
    rw [if_neg (by decide), if_neg (by decide), if_neg (by decide)]
    show (match ((met p h l (tickTo t m)).links[p]?).bind fun l => l.peers.zipIdx.find? fun p => p.1.mac == h.mac with | none => _ | some (p, i) => _) = _
    rw [hfind]
    rfl
  refine ⟨i, ?_⟩
  unfold Shows
  have hnow : (met p h l (tickTo t m)).now = max m.now t := by
    unfold met
    split <;> rfl
  rw [hgo, heard_follows, peerGet_peerUpd, hget, hnow, ← hmac]
  rfl

end Sys2Proof.Machine
end

section
/-! SUPPORT. Attestation, the key agreement and the time path of a link: O40 (R374 to R376, R384, R388). -/

namespace Sys2Proof.Machine
open Sys2Proof

/-! ### Attestation -/

/-- An offer is answered with a proof. -/
theorem attestRx_offer {c : Cfg} {m : Mach} {p i t : Nat} {hd : KHead} {a : Attest} {x : Peer} {h : Hello} (hx : peerGet m p i = some x) (hp : portOn c p = true) (hs : shakes m = true)
    (h3 : x.state = 3) (hh : x.hello = some h) (hb : headBad hd 6 232 = false) (hdst : hd.dst = selfEngine c m) (h0 : a.step = 0) (ha : a.assign < 16) (hsig : a.signature = 0) :
    ∃ o, attestRx p i hd a t c m = send o (peerUpd p i (fun p => { p with offered := true, nonce := a.nonce, ephKey := a.ephKey }) (drawn (tickTo t m))) := by
  have hshake : shakes (tickTo t m) = true := hs
  have hself : hd.dst = selfEngine c (tickTo t m) := hdst
  unfold attestRx
  dsimp only
  rw [show peerGet (tickTo t m) p i = some x from hx]
  dsimp only
  rw [if_neg (by simp [hb, hself, h0, Nat.not_le.2 ha, hsig]), if_neg (by simp [hp, h3, hshake]), hh]
  dsimp only
  rw [if_pos h0]
  exact ⟨_, rfl⟩

/-- A second after a failure the handshake draws its nonce and key anew. -/
theorem attestRetry_starts {c : Cfg} {m : Mach} {p i t : Nat} {x : Peer} (hx : peerGet m p i = some x) (hp : portOn c p = true) (hn : m.casc.noMaster = false) (hs : shakes m = true)
    (h3 : x.state = 3) (ht : x.since + 1000000000 ≤ max m.now t) :
    ∃ o, attestRetry p i t c m = send o (peerUpd p i (fun y => { y with state := 3, since := max m.now t, offered := false, myNonce := Config.draw m.draws, eph := Config.draw (m.draws + 1) % (ecN - 1) + 1 }) (drawn (drawn (tickTo t m)))) := by
  have hshake : shakes (tickTo t m) = true := hs
  have hget : peerGet (tickTo t m) p i = some x := hx
  have hmaster : (tickTo t m).casc.noMaster = false := hn
  have htime : x.since + 1000000000 ≤ (tickTo t m).now := ht
  unfold attestRetry
  dsimp only
  rw [if_pos (by rw [hmaster, hp, hshake, hget, Option.any_some, h3, decide_eq_true htime]; rfl)]
  unfold attestStart
  rw [hget]
  exact ⟨_, rfl⟩

/-! ### The key agreement -/

section
variable {α : Type} {g : Peer → α} (hg : ∀ x l, g { x with queue := l } = g x)
include hg

theorem seen_grantAll (q e p i : Nat) (m : Mach) : (peerGet (grantAll q e m) p i).map g = (peerGet m p i).map g :=
  foldl_keeps (fun m => (peerGet m p i).map g) _ (fun _ _ => seen_creditBack hg ..) _ m

omit hg in
theorem links_countsSwap (q j e : Nat) (m : Mach) : (countsSwap q j e m).links = m.links :=
  foldl_keeps Mach.links _ (by intro m r; rfl) _ _

omit hg in
theorem seen_peerBack (hr : ∀ x b, g { x with returning := b } = g x) (q j p i : Nat) (m : Mach) : (peerGet (peerBack q j m) p i).map g = (peerGet m p i).map g := by
  unfold peerBack
  split
  · split
    · rw [peerGet_of_links (links_countsSwap ..)]
      exact seen_peerUpd (fun x => hr x _) ..
    · rfl
  · rfl

theorem seen_coresChanged (c : Cfg) (p i : Nat) (m : Mach) : (peerGet (coresChanged c m) p i).map g = (peerGet m p i).map g := by
  unfold coresChanged
  split
  · exact seen_frameTo hg ..
  · rfl

theorem seen_shareChanged (c : Cfg) (q p i : Nat) (m : Mach) : (peerGet (shareChanged c q m) p i).map g = (peerGet m p i).map g := by
  unfold shareChanged
  split
  · exact seen_frameTo hg ..
  · rfl

/-- What follows once a peer is SECURE: credits, counts, a member's report, a request for the image. -/
def secureFollows (c : Cfg) (port i : Nat) (m : Mach) : Mach :=
  let e := ((peerGet m port i).bind (·.engine)).getD 0xF
  let m := peerBack port i (grantAll port e m)
  let m := if e = 0 && roleOf c = 1 then shareChanged c port (coresChanged c (frameTo 0 8 (toLe 8 2 ++ toLe 24 c.tick.share) m)) else m
  if e = 0 && roleOf c = 1 && takesImage m then framePeer port i 0xA (toLe 4 m.casc.image.length ++ toLe 12 0) m else m

theorem seen_secureFollows (hr : ∀ x b, g { x with returning := b } = g x) (c : Cfg) (q j p i : Nat) (m : Mach) :
    (peerGet (secureFollows c q j m) p i).map g = (peerGet m p i).map g := by
  unfold secureFollows
  dsimp only
  generalize ((peerGet m q j).bind (·.engine)).getD 0xF = e
  have hback : (peerGet (peerBack q j (grantAll q e m)) p i).map g = (peerGet m p i).map g := (seen_peerBack hr ..).trans (seen_grantAll hg ..)
  generalize peerBack q j (grantAll q e m) = n at hback ⊢
  have hshare : (peerGet (if e = 0 && roleOf c = 1 then shareChanged c q (coresChanged c (frameTo 0 8 (toLe 8 2 ++ toLe 24 c.tick.share) n)) else n) p i).map g
      = (peerGet m p i).map g := by
    split
    · rw [seen_shareChanged hg, seen_coresChanged hg, seen_frameTo hg]
      exact hback
    · exact hback
  generalize (if e = 0 && roleOf c = 1 then shareChanged c q (coresChanged c (frameTo 0 8 (toLe 8 2 ++ toLe 24 c.tick.share) n)) else n) = n1 at hshare ⊢
  split
  · exact (seen_framePeer hg ..).trans hshare
  · exact hshare

end

theorem secureUp_eq (c : Cfg) (port i : Nat) (m : Mach) : secureUp c port i m = secureFollows c port i
    (peerUpd port i (fun p => { p with state := if p.timePath then 6 else 7 }) (retime c (peerUpd port i (fun p => { p with state := 5, since := m.now, lastRx := m.now }) m))) := rfl

/-- A peer secured is in TIME or UP. -/
theorem secureUp_opens {c : Cfg} {m : Mach} {p i : Nat} {x : Peer} (hx : peerGet m p i = some x) :
    ∃ y, peerGet (secureUp c p i m) p i = some y ∧ (y.state = 6 ∨ y.state = 7) ∧ y.mkaAt = x.mkaAt := by
  obtain ⟨b, hb⟩ := peerGet_retime c p i (peerUpd p i (fun p => { p with state := 5, since := m.now, lastRx := m.now }) m)
  have hseen := seen_secureFollows (g := fun y => (y.state, y.mkaAt)) (fun _ _ => rfl) (fun _ _ => rfl) c p i p i
    (peerUpd p i (fun p => { p with state := if p.timePath then 6 else 7 }) (retime c (peerUpd p i (fun p => { p with state := 5, since := m.now, lastRx := m.now }) m)))
  rw [← secureUp_eq, peerGet_peerUpd, hb, peerGet_peerUpd, hx] at hseen
  obtain ⟨y, hy, hv⟩ := Option.map_eq_some_iff.1 hseen
  rw [Prod.mk.injEq] at hv
  refine ⟨y, hy, ?_, hv.2⟩
  rw [hv.1]
  dsimp only
  split
  · exact .inl rfl
  · exact .inr rfl

/-- An MKA PDU that completes the agreement secures the peer. -/
theorem mkaRx_secures {c : Cfg} {m : Mach} {p i t : Nat} {x : Peer} (hx : peerGet m p i = some x) (hp : portOn c p = true) (hs : shakes m = true) (h4 : x.state = 4) :
    ∃ y, peerGet (mkaRx p i true t c m) p i = some y ∧ (y.state = 6 ∨ y.state = 7) ∧ y.mkaAt = max m.now t := by
  have hshake : shakes (tickTo t m) = true := hs
  have hgo : mkaRx p i true t c m = secureUp c p i (peerUpd p i (fun y => { y with mkaAt := max m.now t }) (tickTo t m)) := by
    unfold mkaRx
    dsimp only
    rw [show peerGet (tickTo t m) p i = some x from hx]
    dsimp only
    rw [if_neg (by simp [hp, h4, hshake]), if_pos (by simp [h4])]
    rfl
  have hget : peerGet (peerUpd p i (fun y => { y with mkaAt := max m.now t }) (tickTo t m)) p i = some { x with mkaAt := max m.now t } :=
    (peerGet_peerUpd ..).trans (congrArg _ hx)
  rw [hgo]
  exact secureUp_opens hget

theorem now_tickTo (t : Nat) (m : Mach) : (tickTo t m).now = max m.now t := rfl

theorem mkaExpiry_due {c : Cfg} {m : Mach} {p i t : Nat}
    (h : ((peerGet (tickTo t m) p i).any fun p => decide (4 ≤ p.state) && decide (p.mkaAt + 6000000000 ≤ (tickTo t m).now)) = true) :
    mkaExpiry p i t c m = peerLost c p i 2 (tickTo t m) := if_pos h

section
variable {c : Cfg} {m : Mach} {p i t : Nat} {x : Peer} (hx : peerGet m p i = some x) (h4 : 4 ≤ x.state) (ht : x.mkaAt + 6000000000 ≤ max m.now t)
include hx h4 ht

theorem mkaExpiry_goes : mkaExpiry p i t c m = peerLost c p i 2 (tickTo t m) := by
  have hget : peerGet (tickTo t m) p i = some x := hx
  refine mkaExpiry_due ?_
  rw [hget, Option.any_some, now_tickTo, Bool.and_eq_true, decide_eq_true_eq, decide_eq_true_eq]
  exact ⟨h4, ht⟩

/-- A peer whose MKA life time has run out is back in HELLO. -/
theorem mkaExpiry_loses : ∃ y, peerGet (mkaExpiry p i t c m) p i = some y ∧ y.state = 2 ∧ y.unacked = [] ∧ y.credits = [] := by
  rw [mkaExpiry_goes hx h4 ht]
  exact peerLost_clears (m := tickTo t m) hx (by decide)

end

/-- A rekey takes the next association number and a fresh key. -/
theorem rekey_renews {m : Mach} {p i : Nat} {x : Peer} (hx : peerGet m p i = some x) (h5 : 5 ≤ x.state) :
    peerGet (rekey p i m) p i = some { x with an := (x.an + 1) % 4, pn := 0, sa := Config.draw m.draws } ∧ (rekey p i m).draws = m.draws + 1 := by
  unfold rekey
  rw [if_pos (by rw [hx]; exact decide_eq_true h5), peerGet_peerUpd, show peerGet (drawn m) p i = some x from hx]
  exact ⟨rfl, rfl⟩

/-! ### The time path -/

/-- What a gPTP PDU does to a peer on the time path. -/
def timed (offset : Int) (delay : Nat) (p : Peer) : Peer :=
  { p with offsets := (offset :: p.offsets).take 8, delay := delay
           state := if p.state = 6 && ((offset :: p.offsets).take 8).length = 8 && ((offset :: p.offsets).take 8).all (fun o => decide (-1000 ≤ o ∧ o ≤ 1000)) then 7 else p.state }

theorem timed_turns {o : Int} {d : Nat} {x : Peer} (h : (timed o d x).state ≠ x.state) :
    (timed o d x).state = 7 ∧ ∀ v ∈ (timed o d x).offsets, -1000 ≤ v ∧ v ≤ 1000 := by
  unfold timed at h ⊢
  dsimp only at h ⊢
  split at h
  · rename_i hif
    rw [if_pos hif]
    rw [Bool.and_eq_true, List.all_eq_true] at hif
    exact ⟨rfl, fun v hv => of_decide_eq_true (hif.2 v hv)⟩
  · exact absurd rfl h

theorem gptpRx_peer {m : Mach} {p i t d : Nat} {o : Int} {x : Peer} (hx : peerGet m p i = some x) (hp : x.timePath = true) (hs : shakes m = true) :
    Shows (fun y => (y.offsets, y.delay, y.state)) p i ((timed o d x).offsets, (timed o d x).delay, (timed o d x).state) (gptpRx p i o d t m) := by
  have hshake : shakes (tickTo t m) = true := hs
  unfold Shows gptpRx
  dsimp only
  rw [seen_peerBack (fun _ _ => rfl), peerGet_peerUpd, show peerGet (tickTo t m) p i = some x from hx, hshake, Option.map_some, Option.map_some, if_neg (by rw [hp]; decide)]
  rfl

/-- A second after the last claim of a second master the engine goes on. -/
theorem noMasterExpiry_ends {m : Mach} {t : Nat} (hn : m.casc.noMaster = true) (ht : m.casc.noMasterAt + 1000000000 ≤ max m.now t) :
    noMasterExpiry t m = { tickTo t m with casc := { m.casc with noMaster := false } } := by
  unfold noMasterExpiry tickTo
  dsimp only
  rw [if_pos (by rw [hn, Bool.true_and, decide_eq_true_eq]; exact ht)]

/-- Settles O40: the rows of the handshake, from the MAC's link to UP, and the ends of its waits. -/
theorem linkHandshake : Obligations.LinkHandshake := by
  unfold Obligations.LinkHandshake
  refine ⟨fun s p t0 l hl h hp => Runs.ofM rfl hl (macUp_links h hp), fun s p t0 l hl h => Runs.ofM rfl hl (macDown_links h), fun s p t0 l hl h hp hm hh hs ht => Runs.ofM rfl hl ?hello,
    fun s p hd h t0 l hl hk hp hm hs hb hdst he hpt hc hr => Runs.ofM rfl hl ?heard, fun s p i hd a t0 x h hl hx hp hs h3 hh hb hdst h0 ha hsig => Runs.ofM rfl hl ?attest,
    fun s p i t0 x hl hx hp hn hs h3 ht => Runs.ofM rfl hl ?retry, fun s p i t0 x hl hx hp hs h4 => Runs.ofM rfl hl ?mka, fun s p i t0 x hl hx h4 ht => Runs.ofM rfl hl ?expiry,
    fun s p i x hl hx h5 => Runs.ofM rfl hl ?rekey, fun s p i o d t0 x hl hx hp hs => Runs.ofM rfl hl ?gptp, fun s t0 hl hn ht => Runs.ofM rfl hl ?master⟩
  case hello =>
    dsimp only [State.m]
    rw [helloBroadcast_goes (m := s.q) h hp hm hh hs ht]
    exact ⟨rfl, (links_linkSet (m := tickTo t0 s.q) h _).1⟩
  case heard =>
    obtain ⟨i, hshow⟩ := helloRx_records (m := s.q) (t := t0) hk hp hm hs hb hdst he hpt hc hr
    obtain ⟨x, hx, hv⟩ := hshow.some
    obtain ⟨k, hk, hxk⟩ := peerGet_some hx
    simp only [heardHello, Prod.mk.injEq] at hv
    exact ⟨k, hk, x, List.mem_of_getElem? hxk, hv⟩
  case attest =>
    obtain ⟨o, ho⟩ := attestRx_offer (t := t0) hx hp hs h3 hh hb hdst h0 ha hsig
    dsimp only [State.m]
    rw [ho]
    exact ⟨(peerGet_peerUpd ..).trans (congrArg _ hx), rfl⟩
  case retry =>
    obtain ⟨o, ho⟩ := attestRetry_starts (c := s.c) (t := t0) hx hp hn hs h3 ht
    dsimp only [State.m]
    rw [ho]
    refine ⟨(peerGet_peerUpd ..).trans ((congrArg _ hx).trans ?_), rfl⟩
    rw [← h3]
    rfl
  case mka => exact mkaRx_secures (m := s.q) hx hp hs h4
  case expiry => exact mkaExpiry_loses (m := s.q) hx h4 ht
  case rekey => exact rekey_renews (m := s.q) hx h5
  case gptp =>
    obtain ⟨y, hy, hv⟩ := (gptpRx_peer (m := s.q) (t := t0) (o := o) (d := d) hx hp hs).some
    simp only [Prod.mk.injEq] at hv
    obtain ⟨hoff, hdelay, hstate⟩ := hv
    refine ⟨y, hy, hoff, hdelay, fun hne => ?_⟩
    rw [hstate] at hne ⊢
    rw [hoff]
    exact timed_turns hne
  case master => exact noMasterExpiry_ends (m := s.q) hn ht

end Sys2Proof.Machine
end

section
/-! SUPPORT. Frames in sequence, credits and the timers of a link: O41 (R372, R379, R380, R382, R388). -/

namespace Sys2Proof.Machine
open Sys2Proof

/-! ### A frame that arrives -/

/-- The peer that a frame came from, marked as heard, before its acknowledgement counts. -/
def heardFrom (p i : Nat) (h : KHead) (t : Nat) (m : Mach) : Mach :=
  let m := peerUpd p i (fun x => { x with lastRx := max m.now t }) (tickTo t m)
  { m with telem := { m.telem with linkRx := mset m.telem.linkRx p ((mget m.telem.linkRx p).getD 0 + h.len) } }

/-- The route's count of an accepted frame rises. -/
def countUp (p e : Nat) (f : Frame) (m : Mach) : Mach :=
  match sendBind m p e f with
  | some b => { m with casc := { m.casc with binds := mupd m.casc.binds b.1 fun b =>
      { b with counts := mset b.counts f.head.route (((mget b.counts f.head.route).getD 0 + 1) % 65536) } } }
  | none => m

theorem acked_eq {m : Mach} {p i ack : Nat} {x : Peer} (h : peerGet m p i = some x) : acked p i ack m
    = pump (peerUpd p i (fun y => { y with unacked := y.unacked.filter fun f => !accepts ack f })
        ((x.unacked.filter fun f => accepts ack f && f.head.type == 1).foldl (fun m f => countUp p (x.engine.getD 0xF) f m)
          ((x.unacked.filter (accepts ack)).foldl (fun m f => frameTaken f m) m))) := by
  unfold acked
  rw [h]
  rfl

/-- The block without what an acknowledgement touches: links, bindings, what requests touch. -/
def Mach.unanswered (m : Mach) : Mach :=
  { m.served with links := [], telem := (mach0 strap0 store0 0 true true).telem, casc := { m.casc with binds := [] } }

/-- Every binding is there still, with no more than its counts changed. -/
def BindsKept (m n : Mach) : Prop := ∀ b ∈ m.casc.binds, ∃ b' ∈ n.casc.binds, b'.1 = b.1 ∧ b'.2 = { b.2 with counts := b'.2.counts }

theorem BindsKept.rfl {m n : Mach} (h : n.casc.binds = m.casc.binds) : BindsKept m n := fun b hb => ⟨b, h ▸ hb, Eq.refl _, Eq.refl _⟩

theorem BindsKept.trans {m n o : Mach} (h : BindsKept m n) (h' : BindsKept n o) : BindsKept m o := by
  intro b hb
  obtain ⟨b1, hb1, hk1, hv1⟩ := h b hb
  obtain ⟨b2, hb2, hk2, hv2⟩ := h' b1 hb1
  refine ⟨b2, hb2, hk2.trans hk1, ?_⟩
  rw [hv1] at hv2
  exact hv2

/-- A binding of a key set keeps every other, and takes the place of the one it had. -/
theorem mem_or_replaced_of_mset {α : Type} {l : Map α} {k : Nat} {v : α} {b : Nat × α} (h : b ∈ l) : b ∈ mset l k v ∨ b.1 = k ∧ mget l k = some b.2 := by
  induction l with
  | nil => nomatch h
  | cons a l ih =>
    rw [mset]
    split
    · exact .inl (List.mem_cons_of_mem _ h)
    · split
      · rename_i hk
        rcases List.mem_cons.1 h with rfl | h
        · exact .inr ⟨hk, by rw [mget, if_pos hk]⟩
        · exact .inl (List.mem_cons_of_mem _ h)
      · rename_i hk
        rcases List.mem_cons.1 h with rfl | h
        · exact .inl (List.mem_cons.2 (.inl rfl))
        · refine (ih h).imp (List.mem_cons_of_mem _) fun hr => ⟨hr.1, ?_⟩
          rw [mget, if_neg hk]
          exact hr.2

theorem bindsKept_mupd (m : Mach) (k : Nat) (f : Bind → Bind) (hf : ∀ b, f b = { b with counts := (f b).counts }) :
    BindsKept m { m with casc := { m.casc with binds := mupd m.casc.binds k f } } := by
  unfold mupd
  cases h : mget m.casc.binds k with
  | none => exact BindsKept.rfl rfl
  | some v =>
    intro b hb
    rcases mem_or_replaced_of_mset (k := k) (v := f v) hb with hin | ⟨hk, hv⟩
    · exact ⟨b, hin, rfl, rfl⟩
    · refine ⟨(k, f v), mem_of_mget (mget_mset ..), hk.symm, ?_⟩
      have hv : v = b.2 := Option.some.inj (h.symm.trans hv)
      rw [← hv]
      exact hf v

theorem countUp_keeps (p e : Nat) (f : Frame) (m : Mach) : (countUp p e f m).unanswered = m.unanswered ∧ (countUp p e f m).links = m.links ∧ BindsKept m (countUp p e f m) := by
  unfold countUp
  split
  · exact ⟨rfl, rfl, bindsKept_mupd m _ _ fun _ => rfl⟩
  · exact ⟨rfl, rfl, BindsKept.rfl rfl⟩

theorem countsUp_keep (p e : Nat) (l : List Frame) : ∀ m : Mach, (l.foldl (fun m f => countUp p e f m) m).unanswered = m.unanswered
    ∧ (l.foldl (fun m f => countUp p e f m) m).links = m.links ∧ BindsKept m (l.foldl (fun m f => countUp p e f m) m) := by
  induction l with
  | nil => exact fun m => ⟨rfl, rfl, BindsKept.rfl rfl⟩
  | cons f l ih =>
    intro m
    obtain ⟨h1, h2, h3⟩ := ih (countUp p e f m)
    obtain ⟨h4, h5, h6⟩ := countUp_keeps p e f m
    exact ⟨h1.trans h4, h2.trans h5, h6.trans h3⟩

theorem unanswered_of_served {a b : Mach} (h : a.served = b.served) : a.unanswered = b.unanswered := by
  have hc : a.casc = b.casc := (congrArg Mach.casc h :)
  unfold Mach.unanswered
  rw [h, hc]

theorem links_pump (m : Mach) : (pump m).links = m.links := (congrArg Mach.links (served_pump m) :)

/-- An acknowledgement takes the frames up to it from its peer and leaves the rest. -/
theorem acked_keeps {m : Mach} {p i ack : Nat} {x : Peer} (h : peerGet m p i = some x) :
    peerGet (acked p i ack m) p i = some { x with unacked := x.unacked.filter fun f => !accepts ack f } ∧ (acked p i ack m).unanswered = m.unanswered
      ∧ BindsKept m (acked p i ack m) := by
  rw [acked_eq h]
  have htaken := served_framesTaken (x.unacked.filter (accepts ack)) m
  generalize (x.unacked.filter (accepts ack)).foldl (fun m f => frameTaken f m) m = n at htaken ⊢
  have hn : n.links = m.links := (congrArg Mach.links htaken :)
  obtain ⟨hrest, hlinks, hbinds⟩ := countsUp_keep p (x.engine.getD 0xF) (x.unacked.filter fun f => accepts ack f && f.head.type == 1) n
  generalize (x.unacked.filter fun f => accepts ack f && f.head.type == 1).foldl (fun m f => countUp p (x.engine.getD 0xF) f m) n = n1 at hrest hlinks hbinds ⊢
  have hpump := served_pump (peerUpd p i (fun y => { y with unacked := y.unacked.filter fun f => !accepts ack f }) n1)
  refine ⟨?_, ?_, ?_⟩
  · rw [peerGet_of_links (links_pump _), peerGet_peerUpd, peerGet_of_links (hlinks.trans hn), h]
    rfl
  · exact (unanswered_of_served hpump).trans (hrest.trans (unanswered_of_served htaken))
  · exact (BindsKept.rfl (m := m) (congrArg (·.casc.binds) htaken :)).trans (hbinds.trans (BindsKept.rfl (congrArg (·.casc.binds) hpump :)))

/-- What a frame in the order of its layout reaches, once its peer is marked and its acknowledgement has counted. -/
def received (p i : Nat) (h : KHead) (t : Nat) (m : Mach) : Mach := acked p i h.ack (heardFrom p i h t m)

/-- The peer a frame came from, marked, less what the frame acknowledges. -/
def heardPeer (h : KHead) (now : Nat) (x : Peer) : Peer := { x with lastRx := now, unacked := x.unacked.filter fun f => !accepts h.ack f }

theorem received_keeps {m : Mach} {p i t : Nat} {h : KHead} {x : Peer} (hx : peerGet m p i = some x) : peerGet (received p i h t m) p i = some (heardPeer h (max m.now t) x)
    ∧ (received p i h t m).unanswered = (tickTo t m).unanswered ∧ BindsKept m (received p i h t m) := by
  have hheard : peerGet (heardFrom p i h t m) p i = some { x with lastRx := max m.now t } := (peerGet_peerUpd ..).trans (congrArg _ hx)
  obtain ⟨hpeer, hrest, hbinds⟩ := acked_keeps (ack := h.ack) hheard
  exact ⟨hpeer, hrest, hbinds⟩

section
variable {p i type : Nat} {h : KHead} {lenOk : Bool} {s : State} {l : Link} {x : Peer} (ha : arrives p i type h lenOk s l x)
include ha

theorem arrives_peer : peerGet s.q p i = some x := ha.2.2.1
theorem arrives_live : live s = true := ha.1

/-- A frame that arrives as it should reaches its own row, by its place in the sequence. -/
theorem frameRx_arrives (t : Nat) (f : Peer → Mach → Mach) : frameRx p i type h lenOk t f s.c s.q =
    if !sequenced type then f x (if h.seq = (x.expSeq + 65535) % 65536 then received p i h t s.q else gapSeen p i (received p i h t s.q))
    else if h.seq = x.expSeq then f x (peerUpd p i (fun y => { y with expSeq := (y.expSeq + 1) % 65536, gap := false }) (received p i h t s.q))
    else if subMod h.seq x.expSeq 65536 < 32768 then gapSeen p i (received p i h t s.q)
    else received p i h t s.q := by
  obtain ⟨-, hl, hx, hp, hm, h5, hplain, hver, htype, hdst, hsrc, hrsv, hok, hzero, hq⟩ := ha
  have hzero : (decide (type ≠ 1) && (decide (h.route ≠ 0) || decide (h.queue ≠ 0) || decide (h.postmark ≠ 0))) = false := by
    rcases hzero with h1 | ⟨h1, h2, h3⟩
    · rw [h1]; rfl
    · rw [h1, h2, h3]; simp
  unfold frameRx
  dsimp only
  rw [show (tickTo t s.q).links[p]? = some l from hl, show peerGet (tickTo t s.q) p i = some x from hx]
  dsimp only
  rw [if_neg (by rw [hp, hm]; decide), if_neg (by simp [hplain, h5]), if_neg ?_]
  · rfl
  · rw [hzero]
    have hq : h.queue < 1048576 := hq
    simp [hver, htype, hrsv, hok, hq, hsrc, show h.dst = selfEngine s.c (tickTo t s.q) from hdst]

theorem frameRx_inOrder (hs : sequenced type = true) (hseq : h.seq = x.expSeq) (t : Nat) (f : Peer → Mach → Mach) : frameRx p i type h lenOk t f s.c s.q
    = f x (peerUpd p i (fun y => { y with expSeq := (y.expSeq + 1) % 65536, gap := false }) (received p i h t s.q)) := by
  rw [frameRx_arrives ha, if_neg (by rw [hs]; decide), if_pos hseq]

theorem frameRx_plain (hs : sequenced type = false) (t : Nat) (f : Peer → Mach → Mach) : frameRx p i type h lenOk t f s.c s.q
    = f x (if h.seq = (x.expSeq + 65535) % 65536 then received p i h t s.q else gapSeen p i (received p i h t s.q)) := by
  rw [frameRx_arrives ha, if_pos (by rw [hs]; rfl)]

end

/-! ### The rows -/

/-- A NAK goes out before a frame that left a gap; the peer is otherwise as it was. -/
theorem seen_gapSeen {α : Type} {g : Peer → α} (hq : ∀ x l, g { x with queue := l } = g x) (hgap : ∀ x b, g { x with gap := b } = g x) (q j p i : Nat) (m : Mach) :
    (peerGet (gapSeen q j m) p i).map g = (peerGet m p i).map g := by
  unfold gapSeen
  split
  · rfl
  · exact (seen_framePeer hq ..).trans (seen_peerUpd (fun x => hgap x _) ..)

/-- Where a frame out of the sequence's numbers lands. -/
def orGap (p i : Nat) (h : KHead) (x : Peer) (m : Mach) : Mach := if h.seq = (x.expSeq + 65535) % 65536 then m else gapSeen p i m

theorem seen_orGap {α : Type} {g : Peer → α} (hq : ∀ x l, g { x with queue := l } = g x) (hgap : ∀ x b, g { x with gap := b } = g x) (p i : Nat) (h : KHead) (x : Peer) (m : Mach) :
    (peerGet (orGap p i h x m) p i).map g = (peerGet m p i).map g := by
  unfold orGap
  split
  · rfl
  · exact seen_gapSeen hq hgap ..

/-- A DATA frame parked under its route, and the route's count one higher. -/
def parkedAt (h : KHead) (b n : Nat) (data : List Byte) (m : Mach) : Mach :=
  qUpd h.queue (fun y => { y with routes := mset y.routes h.route (((mget y.routes h.route).getD 0 + 1) % 65536) }) { m with casc := { m.casc with
    binds := mupd m.casc.binds b fun b => { b with used := b.used + n }
    parked := mset m.casc.parked (256 * h.queue + h.route) ((mget m.casc.parked (256 * h.queue + h.route)).getD [] ++ [⟨b, 0, data⟩]) } }

/-- A receive binding of a queue for a frame that comes from a peer. -/
def bindsFor (h : KHead) (p : Nat) (x : Peer) (b : Nat × Bind) : Bool := b.2.recv && b.2.q == h.queue && b.2.port == p && some b.2.engine == x.engine

/-- A DATA frame for a bound queue that lives is parked. -/
theorem dataRx_parks {p i t : Nat} {h : KHead} {d : List Byte} {s : State} {l : Link} {x : Peer} {y : Queue}
    (ha : arrives p i 1 h (h.len == d.length && h.len ≤ 8192 && 0x80 ≤ h.route && h.route ≤ 0xBF) s l x) (hs : h.seq = x.expSeq)
    (hb : ∃ b ∈ s.q.casc.binds, bindsFor h p x b = true) (hy : qGet s.q h.queue = some y) (hk : y.ctx.state ≠ qsKilled) (hd : (domE s.q y.ctx.dom).state ≠ 2) :
    ∃ b, dataRx p i h d t s.c s.q
      = parkedAt h b (cdiv d.length 256) d (peerUpd p i (fun y => { y with expSeq := (y.expSeq + 1) % 65536, gap := false }) (received p i h t s.q)) := by
  obtain ⟨-, hrest, hbinds⟩ := received_keeps (h := h) (t := t) (arrives_peer ha)
  unfold dataRx
  rw [frameRx_inOrder ha rfl hs]
  have hq : qGet (peerUpd p i (fun y => { y with expSeq := (y.expSeq + 1) % 65536, gap := false }) (received p i h t s.q)) h.queue = some y :=
    (congrArg (fun m => qGet m h.queue) hrest :).trans hy
  have hdom : (domE (peerUpd p i (fun y => { y with expSeq := (y.expSeq + 1) % 65536, gap := false }) (received p i h t s.q)) y.ctx.dom).state ≠ 2 :=
    fun h2 => hd ((congrArg (fun m => (domE m y.ctx.dom).state) hrest :).symm.trans h2)
  have hbind : ∃ b, (peerUpd p i (fun y => { y with expSeq := (y.expSeq + 1) % 65536, gap := false }) (received p i h t s.q)).casc.binds.find? (bindsFor h p x) = some b := by
    obtain ⟨b, hb, hv⟩ := hb
    obtain ⟨b', hb', -, he⟩ := hbinds b hb
    refine Option.isSome_iff_exists.1 (List.find?_isSome.2 ⟨b', hb', ?_⟩)
    unfold bindsFor at hv ⊢
    rw [he]
    exact hv
  generalize peerUpd p i (fun y => { y with expSeq := (y.expSeq + 1) % 65536, gap := false }) (received p i h t s.q) = n at hq hdom hbind ⊢
  obtain ⟨b, hfind⟩ := hbind
  refine ⟨b.1, ?_⟩
  dsimp only
  rw [show (n.casc.binds.find? fun b => b.2.recv && b.2.q == h.queue && b.2.port == p && some b.2.engine == x.engine) = some b from hfind, hq]
  dsimp only
  rw [if_neg hk, if_neg hdom]
  rfl

/-- Credits added entry by entry are the sum of each queue's. -/
theorem mget_credits (es : List (Nat × Nat)) (q : Nat) : ∀ cs : Map Nat, (mget (es.foldl (fun cs e => mset cs e.1 ((mget cs e.1).getD 0 + e.2)) cs) q).getD 0
    = (mget cs q).getD 0 + ((es.filter fun e => e.1 == q).map (·.2)).sum := by
  induction es with
  | nil => exact fun cs => rfl
  | cons e es ih =>
    intro cs
    rw [List.foldl_cons, ih, List.filter_cons]
    by_cases h : e.1 = q
    · rw [if_pos (beq_iff_eq.2 h), h, mget_mset, List.map_cons, List.sum_cons, Option.getD_some]
      omega
    · rw [if_neg (by rw [beq_iff_eq]; exact h), mget_mset_ne _ _ (Ne.symm h)]

theorem sends_out {β : Type} (f : β → Out) (l : List β) : ∀ m : Mach, (l.foldl (fun m b => send (f b) m) m).out = m.out ++ l.map f
    ∧ (l.foldl (fun m b => send (f b) m) m).links = m.links ∧ (l.foldl (fun m b => send (f b) m) m).now = m.now := by
  induction l with
  | nil => exact fun m => ⟨(List.append_nil _).symm, rfl, rfl⟩
  | cons b l ih =>
    intro m
    obtain ⟨h1, h2, h3⟩ := ih (send (f b) m)
    refine ⟨h1.trans ?_, h2, h3⟩
    rw [List.map_cons]
    exact (List.append_assoc ..).trans rfl

/-- A resent frame, with the present acknowledgement. -/
def resentOut (c : Cfg) (p : Nat) (x : Peer) (f : Frame × Nat) : Out :=
  .frame p x.mac (secWrap c p x (x.pn + 1 + f.2) { f.1.head with ack := (x.expSeq + 65535) % 65536 } f.1.data) { f.1.head with ack := (x.expSeq + 65535) % 65536 } f.1.data

/-- Every unacknowledged frame of a peer is sent again and counted at the port. -/
def resentAll (c : Cfg) (p : Nat) (x : Peer) (m : Mach) : Mach :=
  x.unacked.zipIdx.foldl (fun m f => send (resentOut c p x f) m) (linkSet p (fun l => { l with resends := min (l.resends + x.unacked.length) (2 ^ 32 - 1) }) m)

theorem resend_eq {c : Cfg} {m : Mach} {p i : Nat} {x : Peer} (h : peerGet m p i = some x) : resend c p i m = peerUpd p i (fun y => { y with
    pn := y.pn + y.unacked.length, unacked := y.unacked.map fun f => { f with lastAt := (resentAll c p x m).now, resends := f.resends + 1 } }) (resentAll c p x m) := by
  unfold resend
  rw [h]
  rfl

/-- What is unacknowledged goes out again, each frame with its count of resends one higher. -/
theorem resend_sends {c : Cfg} {m : Mach} {p i : Nat} {x : Peer} (h : peerGet m p i = some x) :
    peerGet (resend c p i m) p i = some { x with pn := x.pn + x.unacked.length, unacked := x.unacked.map fun f => { f with lastAt := m.now, resends := f.resends + 1 } }
      ∧ (resend c p i m).out = m.out ++ x.unacked.zipIdx.map (resentOut c p x) := by
  have hset : peerGet (linkSet p (fun l => { l with resends := min (l.resends + x.unacked.length) (2 ^ 32 - 1) }) m) p i = some x := by
    obtain ⟨l, hl, hx⟩ := peerGet_some h
    unfold peerGet
    rw [(links_linkSet hl _).1]
    exact hx
  obtain ⟨hout, hlinks, hnow⟩ := sends_out (resentOut c p x) x.unacked.zipIdx (linkSet p (fun l => { l with resends := min (l.resends + x.unacked.length) (2 ^ 32 - 1) }) m)
  have hout : (resentAll c p x m).out = m.out ++ x.unacked.zipIdx.map (resentOut c p x) := hout
  have hnow : (resentAll c p x m).now = m.now := hnow
  have hget : peerGet (resentAll c p x m) p i = some x := (peerGet_of_links hlinks p i).trans hset
  rw [resend_eq h, peerGet_peerUpd, hget, hnow]
  exact ⟨rfl, hout⟩

theorem retransmit_resends {c : Cfg} {m : Mach} {p i t : Nat} {x : Peer} {f : Frame} (hx : peerGet m p i = some x) (hp : portOn c p = true) (h5 : 5 ≤ x.state)
    (hf : x.unacked.head? = some f) (ht : f.lastAt + 20000 ≤ max m.now t) : retransmit p i t c m = resend c p i (tickTo t m) := by
  have hget : peerGet (tickTo t m) p i = some x := hx
  unfold retransmit
  dsimp only
  rw [if_pos]
  rw [hp, hget, Option.any_some, decide_eq_true h5, hf, Option.any_some, now_tickTo, decide_eq_true ht]
  rfl

theorem linkTimeout_loses {c : Cfg} {m : Mach} {p i t : Nat} {l : Link} {x : Peer} {v : LinkCfg} (hl : m.links[p]? = some l) (hx : peerGet m p i = some x) (hv : c.links[p]? = some v)
    (h5 : 5 ≤ x.state) (ht : x.lastRx + v.timeout * 1000 ≤ max m.now t) : linkTimeout p i t c m = peerLost c p i (if l.macUp then 2 else 1) (tickTo t m) := by
  unfold linkTimeout
  dsimp only
  rw [show (tickTo t m).links[p]? = some l from hl, show peerGet (tickTo t m) p i = some x from hx, hv]
  dsimp only
  rw [if_pos]
  rw [now_tickTo, decide_eq_true h5, decide_eq_true ht, Bool.or_true, Bool.true_or]
  rfl

theorem now_orGap (p i : Nat) (h : KHead) (x : Peer) (m : Mach) : (orGap p i h x m).now = m.now := by
  unfold orGap gapSeen
  split
  · rfl
  · split <;> rfl

/-- An IDLE frame acknowledges, and nothing else. -/
theorem idleRx_acknowledges {p i t : Nat} {h : KHead} {s : State} {l : Link} {x : Peer} (ha : arrives p i 0 h (h.len == 0) s l x) :
    ∃ y, peerGet (idleRx p i h t s.c s.q) p i = some y ∧ y.unacked = x.unacked.filter (fun f => !accepts h.ack f) ∧ y.expSeq = x.expSeq ∧ y.credits = x.credits := by
  obtain ⟨hpeer, -, -⟩ := received_keeps (h := h) (t := t) (arrives_peer ha)
  have hseen := seen_orGap (g := fun y => (y.unacked, y.expSeq, y.credits)) (fun _ _ => rfl) (fun _ _ => rfl) p i h x (received p i h t s.q)
  rw [hpeer] at hseen
  obtain ⟨y, hy, hv⟩ := Option.map_eq_some_iff.1 hseen
  simp only [Prod.mk.injEq] at hv
  unfold idleRx
  rw [frameRx_plain ha rfl]
  exact ⟨y, hy, hv⟩

/-- A NAK sends again what it leaves unacknowledged. -/
theorem nakRx_resends {p i t : Nat} {h : KHead} {s : State} {l : Link} {x : Peer} (ha : arrives p i 3 h (h.len == 0) s l x) : ∃ y, peerGet (nakRx p i h t s.c s.q) p i = some y
    ∧ y.unacked = (x.unacked.filter (fun f => !accepts h.ack f)).map fun f => { f with lastAt := max s.q.now t, resends := f.resends + 1 } := by
  obtain ⟨hpeer, hrest, -⟩ := received_keeps (h := h) (t := t) (arrives_peer ha)
  have hseen := seen_orGap (g := Peer.unacked) (fun _ _ => rfl) (fun _ _ => rfl) p i h x (received p i h t s.q)
  rw [hpeer] at hseen
  obtain ⟨y, hy, hv⟩ := Option.map_eq_some_iff.1 hseen
  have hnow : (orGap p i h x (received p i h t s.q)).now = max s.q.now t := (now_orGap ..).trans (congrArg Mach.now hrest :)
  unfold nakRx
  rw [frameRx_plain ha rfl]
  refine ⟨_, (resend_sends hy).1, ?_⟩
  dsimp only
  rw [hv, hnow]
  rfl

/-- Settles O41: each frame type by what it does to its peer, and the two timers. -/
theorem linkFramesInSequence : Obligations.LinkFramesInSequence := by
  unfold Obligations.LinkFramesInSequence
  refine ⟨fun s p i h d t0 l x y ha hs hb hy hk hd => Runs.ofM rfl (arrives_live ha) ?data, fun s p i h es t0 l x ha hs => Runs.ofM rfl (arrives_live ha) ?credit,
    fun s p i h t0 l x ha => Runs.ofM rfl (arrives_live ha) ?idle, fun s p i h t0 l x ha => Runs.ofM rfl (arrives_live ha) ?nak,
    fun s p i t0 x f hl hp hx h5 hf ht => Runs.ofM rfl hl ?retransmit, fun s p i t0 l x v hl hk hx hv h5 ht => Runs.ofM rfl hl ?timeout⟩
  case data =>
    obtain ⟨b, hb, h1, h2, h3, h4⟩ := hb
    obtain ⟨n, hgo⟩ := dataRx_parks (t := t0) ha hs ⟨b, hb, by simp [bindsFor, h1, h2, h3, h4]⟩ hy hk hd
    obtain ⟨hpeer, hrest, -⟩ := received_keeps (h := h) (t := t0) (arrives_peer ha)
    dsimp only [State.m]
    rw [hgo]
    refine ⟨?_, ⟨{ y with routes := mset y.routes h.route (((mget y.routes h.route).getD 0 + 1) % 65536) }, ?_, mget_mset ..⟩, n, ?_⟩
    · show (peerGet (peerUpd p i _ (received p i h t0 s.q)) p i).map _ = _
      rw [peerGet_peerUpd, hpeer]
      rfl
    · refine (qGet_qUpd ..).trans ?_
      exact (congrArg (Option.map _) ((congrArg (fun m => qGet m h.queue) hrest :).trans hy)).trans rfl
    · refine (mget_mset ..).trans ?_
      rw [show (peerUpd p i _ (received p i h t0 s.q)).casc.parked = s.q.casc.parked from (congrArg (·.casc.parked) hrest :)]
      rfl
  case credit =>
    obtain ⟨hpeer, -, -⟩ := received_keeps (h := h) (t := t0) (arrives_peer ha)
    dsimp only [State.m, creditRx]
    rw [frameRx_inOrder ha rfl hs, peerGet_peerUpd, peerGet_peerUpd, hpeer]
    exact ⟨_, rfl, rfl, fun q => mget_credits es q x.credits⟩
  case idle => exact idleRx_acknowledges ha
  case nak => exact nakRx_resends ha
  case retransmit =>
    obtain ⟨hpeer, hout⟩ := resend_sends (c := s.c) (m := tickTo t0 s.q) hx
    dsimp only [State.m]
    rw [retransmit_resends (m := s.q) hx hp h5 hf ht]
    exact ⟨_, hpeer, rfl, hout⟩
  case timeout =>
    dsimp only [State.m]
    rw [linkTimeout_loses (m := s.q) hk hx hv h5 ht]
    obtain ⟨y, hy, hstate, hun, -⟩ := peerLost_clears (c := s.c) (next := if l.macUp then 2 else 1) (m := tickTo t0 s.q) hx (by split <;> decide)
    exact ⟨y, hy, hstate, hun⟩

end Sys2Proof.Machine
end

section
/-! SUPPORT. The order of a port's frames, and a refusal's effect: O42 (R361, R379, R382, R383). -/

namespace Sys2Proof.Machine
open Sys2Proof

/-! ### The order of R383 -/

theorem not_frameBefore {a b : Nat × Nat × Nat × Nat} : frameBefore a b = false ↔ b.1 < a.1 ∨ b.1 = a.1 ∧ b.2.1 ≤ a.2.1 := by
  unfold frameBefore
  simp only [Bool.or_eq_false_iff, Bool.and_eq_false_iff, decide_eq_false_iff_not, beq_eq_false_iff_ne]
  omega

theorem frameBefore_iff {a b : Nat × Nat × Nat × Nat} : frameBefore a b = true ↔ a.1 < b.1 ∨ a.1 = b.1 ∧ a.2.1 < b.2.1 := by
  unfold frameBefore
  simp only [Bool.or_eq_true, Bool.and_eq_true, decide_eq_true_eq, beq_iff_eq]

/-- No candidate precedes the first of them. -/
theorem none_before_sendFirst (r : List (Nat × Nat × Nat × Nat)) : ∀ x, ∀ c ∈ x :: r, frameBefore c (sendFirst x r) = false := by
  induction r with
  | nil =>
    intro x c hc
    rw [List.mem_singleton.1 hc]
    exact not_frameBefore.2 (.inr ⟨rfl, Nat.le_refl _⟩)
  | cons y r ih =>
    intro x c hc
    have hfirst := ih (if frameBefore y x then y else x)
    have hlead := not_frameBefore.1 (hfirst _ (List.mem_cons.2 (.inl rfl)))
    show frameBefore c (sendFirst (if frameBefore y x then y else x) r) = false
    rcases List.mem_cons.1 hc with rfl | hc
    · refine not_frameBefore.2 ?_
      split at hlead
      · rename_i hb
        rw [if_pos hb]
        have := frameBefore_iff.1 hb
        omega
      · rename_i hb
        rw [if_neg hb]
        exact hlead
    · rcases List.mem_cons.1 hc with rfl | hc
      · refine not_frameBefore.2 ?_
        split at hlead
        · rename_i hb
          rw [if_pos hb]
          exact hlead
        · rename_i hb
          rw [if_neg hb]
          have := not_frameBefore.1 (Bool.not_eq_true _ ▸ hb)
          omega
      · exact hfirst c (List.mem_cons_of_mem _ hc)

/-! ### A frame leaves -/

/-- The peer once the frame at a place of its queue has gone. -/
theorem frameOut_sends {c : Cfg} {m : Mach} {p i k : Nat} {y : Peer} {f : Frame} (hy : peerGet m p i = some y) (hf : y.queue[k]? = some f) :
    (∃ g, .frame p y.mac (secWrap c p y (y.pn + 1) g f.data) g f.data ∈ (frameOut c p i k m).out ∧ g.type = f.head.type
      ∧ g.seq = if sequenced f.head.type then y.nextSeq else (y.nextSeq + 65535) % 65536)
    ∧ ∃ z, peerGet (frameOut c p i k m) p i = some z ∧ z.queue = y.queue.eraseIdx k
      ∧ z.nextSeq = (if sequenced f.head.type then (y.nextSeq + 1) % 65536 else y.nextSeq)
      ∧ z.unacked.length = y.unacked.length + if sequenced f.head.type then 1 else 0 := by
  unfold frameOut
  rw [hy]
  dsimp only
  rw [hf]
  dsimp only
  refine ⟨⟨_, List.mem_append.2 (.inr (List.mem_singleton.2 rfl)), rfl, rfl⟩, _, (peerGet_peerUpd ..).trans (congrArg _ hy), rfl, rfl, ?_⟩
  dsimp only
  split
  · exact List.length_append
  · rfl

theorem length_out_foldl {β : Type} (f : Mach → β → Mach) (hf : ∀ m b, (f m b).out.length = m.out.length + 1) (l : List β) :
    ∀ m, (l.foldl f m).out.length = m.out.length + l.length := by
  induction l with
  | nil => exact fun m => rfl
  | cons b l ih =>
    intro m
    rw [List.foldl_cons, ih, hf, List.length_cons]
    omega

section
variable {c : Cfg} {m : Mach} {p t : Nat} {l : Link} (hl : m.links[p]? = some l) (hp : portOn c p = true) (hm : l.macUp = true) (hn : m.casc.noMaster = false)
include hl hp hm hn

theorem frameSend_first {x : Nat × Nat × Nat × Nat} {r : List (Nat × Nat × Nat × Nat)} (h : sendCands c (tickTo t m) l = x :: r) :
    frameSend p t c m = frameOut c p (sendFirst x r).2.2.1 (sendFirst x r).2.2.2 (tickTo t m) := by
  unfold frameSend
  dsimp only
  rw [show (tickTo t m).links[p]? = some l from hl]
  dsimp only
  rw [if_neg (by simp [hp, hm, show (tickTo t m).casc.noMaster = false from hn]), h]

/-- With no frame that may go, one IDLE goes to each open peer. -/
theorem frameSend_idles (h : sendCands c (tickTo t m) l = []) : (frameSend p t c m).out.length = m.out.length + (openPeers l).length := by
  unfold frameSend
  dsimp only
  rw [show (tickTo t m).links[p]? = some l from hl]
  dsimp only
  rw [if_neg (by simp [hp, hm, show (tickTo t m).casc.noMaster = false from hn]), h]
  exact length_out_foldl _ (by intro m b; exact List.length_append) _ (tickTo t m)

end

theorem length_openPeers (l : Link) : (openPeers l).length = (l.peers.filter fun x => 5 ≤ x.state).length := by
  have h : l.peers = l.peers.zipIdx.map Prod.fst := (List.zipIdx_map_fst ..).symm
  conv => rhs; rw [h, List.filter_map, List.length_map]
  rfl

/-! ### What a stopped layer leaves of every descriptor -/

/-- A descriptor keeps what runs, stays stopped once stopped, and keeps its phase while something runs. -/
structure Goes (z z' : Desc) : Prop where
  running : z'.running = z.running
  stopped : z.cancelled = true → z'.cancelled = true
  phase : z.running ≠ 0 → z'.phase = z.phase

/-- Every descriptor is there still, in that way. -/
def AllGo (m n : Mach) : Prop := ∀ q d z, descGet m q d = some z → ∃ z', descGet n q d = some z' ∧ Goes z z'

theorem Goes.refl (z : Desc) : Goes z z := ⟨rfl, id, fun _ => rfl⟩

theorem Goes.trans {a b c : Desc} (h : Goes a b) (h' : Goes b c) : Goes a c where
  running := h'.running.trans h.running
  stopped := fun hs => h'.stopped (h.stopped hs)
  phase := fun hr => (h'.phase (by rw [h.running]; exact hr)).trans (h.phase hr)

theorem AllGo.of_queues {m n : Mach} (h : n.queues = m.queues) : AllGo m n := fun q d z hz => ⟨z, by unfold descGet qGet at hz ⊢; rw [h]; exact hz, Goes.refl z⟩

theorem AllGo.trans {m n o : Mach} (h : AllGo m n) (h' : AllGo n o) : AllGo m o := by
  intro q d z hz
  obtain ⟨z1, hz1, hg1⟩ := h q d z hz
  obtain ⟨z2, hz2, hg2⟩ := h' q d z1 hz1
  exact ⟨z2, hz2, hg1.trans hg2⟩

theorem descGet_descUpd_ne {q d r e : Nat} (h : r ≠ q ∨ e ≠ d) (f : Desc → Desc) (m : Mach) : descGet (descUpd q d f m) r e = descGet m r e := by
  by_cases hq : r = q
  · subst hq
    exact descGet_qUpd (g := id) (fun y => mget_mupd_ne _ _ (h.resolve_left (Classical.not_not.2 rfl))) rfl
  · unfold descGet descUpd
    rw [qGet_qUpd_ne hq]

theorem allGo_descUpd {f : Desc → Desc} (hf : ∀ z, Goes z (f z)) (q d : Nat) (m : Mach) : AllGo m (descUpd q d f m) := by
  intro r e z hz
  by_cases h : r = q ∧ e = d
  · obtain ⟨rfl, rfl⟩ := h
    exact ⟨f z, (descGet_descUpd ..).trans (congrArg _ hz), hf z⟩
  · exact ⟨z, (descGet_descUpd_ne (by omega) f m).trans hz, Goes.refl z⟩

theorem mem_groupOf (m : Mach) (q d : Nat) : (q, d) ∈ groupOf m q d := by
  unfold groupOf
  split
  · split
    · rename_i h; exact List.contains_iff_mem.1 h
    · exact List.mem_singleton.2 rfl
  · exact List.mem_singleton.2 rfl

/-- What `settle` makes of a descriptor. -/
def settled (m : Mach) (q d : Nat) (x : Desc) : Desc :=
  if (x.phase == 1 || x.phase == 2) && x.cancelled && (groupOf m q d).all (fun p => (descGet m p.1 p.2).all (·.running == 0)) then { x with phase := 3 } else x

theorem descGet_settle (m : Mach) (q d : Nat) : descGet (settle m) q d = (descGet m q d).map (settled m q d) := by
  unfold descGet qGet
  rw [show (settle m).queues = mmap (fun q y => { y with descs := mmap (settled m q) y.descs }) m.queues from rfl, mget_mmap]
  cases mget m.queues q with
  | none => rfl
  | some y => exact mget_mmap ..

theorem allGo_settle (m : Mach) : AllGo m (settle m) := by
  intro q d z hz
  refine ⟨settled m q d z, (descGet_settle m q d).trans (congrArg _ hz), ?_⟩
  unfold settled
  split
  · rename_i h
    refine ⟨rfl, id, fun hr => absurd ?_ hr⟩
    have hall := List.all_eq_true.1 (Bool.and_eq_true_iff.1 h).2 _ (mem_groupOf m q d)
    rw [show descGet m (q, d).1 (q, d).2 = some z from hz] at hall
    exact eq_of_beq hall
  · exact Goes.refl z

theorem allGo_cancelUnissued (q d : Nat) (m : Mach) : AllGo m (cancelUnissued q d m) := by
  unfold cancelUnissued
  split
  · exact AllGo.of_queues rfl
  · refine (AllGo.of_queues rfl).trans (allGo_descUpd ?_ q d _)
    exact fun z => ⟨rfl, fun _ => rfl, fun _ => rfl⟩

theorem allGo_reach (q d st de : Nat) (m : Mach) : AllGo m (reach q d st de m) := by
  refine allGo_descUpd ?_ q d m
  exact fun z => ⟨rfl, id, fun _ => rfl⟩

/-- A descriptor is stopped. -/
def Stopped (q d : Nat) (m : Mach) : Prop := ∃ z, descGet m q d = some z ∧ z.cancelled = true

theorem Stopped.goes {q d : Nat} {m n : Mach} (h : Stopped q d m) (hg : AllGo m n) : Stopped q d n := by
  obtain ⟨z, hz, hc⟩ := h
  obtain ⟨z', hz', hg⟩ := hg q d z hz
  exact ⟨z', hz', hg.stopped hc⟩

theorem cancelUnissued_stops {q d : Nat} {m : Mach} {z : Desc} (h : descGet m q d = some z) : Stopped q d (cancelUnissued q d m) := by
  have hless : descGet (lessOwed q z.owed m) q d = some z := h
  unfold cancelUnissued
  rw [h]
  exact ⟨_, (descGet_descUpd ..).trans (congrArg _ hless), rfl⟩

/-- A step of a fold that reaches a goal, from a condition that every step keeps, as every step keeps the goal. -/
theorem foldl_reaches {α β : Type} {f : α → β → α} {P Q : α → Prop} (hP : ∀ a b, P a → P (f a b)) (hQ : ∀ a b, Q a → Q (f a b)) {b : β} (hb : ∀ a, P a → Q (f a b)) (l : List β)
    (hm : b ∈ l) : ∀ a, P a → Q (l.foldl f a) := by
  have hkeep (l : List β) : ∀ a, Q a → Q (l.foldl f a) := by
    induction l with
    | nil => exact fun a h => h
    | cons x l ih => exact fun a h => ih _ (hQ a x h)
  induction l with
  | nil => nomatch hm
  | cons x l ih =>
    intro a h
    rcases List.mem_cons.1 hm with rfl | hm
    · exact hkeep l _ (hb a h)
    · exact ih hm _ (hP a x h)

/-- A fold of steps that every descriptor survives. -/
theorem allGo_foldl {β : Type} (f : Mach → β → Mach) (hf : ∀ m b, AllGo m (f m b)) (l : List β) : ∀ m, AllGo m (l.foldl f m) := by
  induction l with
  | nil => exact fun m => AllGo.of_queues rfl
  | cons b l ih => exact fun m => (hf m b).trans (ih _)

/-- A layer stopped without a kill: every descriptor survives, and its own is stopped. -/
theorem stopLayer_goes (q d st de : Nat) (m : Mach) : AllGo m (stopLayer q d st de false m) ∧ (∀ z, descGet m q d = some z → Stopped q d (stopLayer q d st de false m)) := by
  have hstep (m : Mach) (p : Nat × Nat) : AllGo m (cancelUnissued p.1 p.2 (reach p.1 p.2 st de m)) :=
    AllGo.trans (allGo_reach p.1 p.2 st de m) (allGo_cancelUnissued p.1 p.2 _)
  have heq : stopLayer q d st de false m = settle ((groupOf m q d).foldl (fun m p => cancelUnissued p.1 p.2 (reach p.1 p.2 st de m)) m) := rfl
  rw [heq]
  refine ⟨(allGo_foldl _ hstep _ m).trans (allGo_settle _), fun z hz => ?_⟩
  refine Stopped.goes ?_ (allGo_settle _)
  refine foldl_reaches (P := fun n => ∃ z, descGet n q d = some z) (Q := Stopped q d) (b := (q, d)) ?_ ?_ ?_ _ (mem_groupOf m q d) m ⟨z, hz⟩
  · rintro n p ⟨z, hz⟩
    obtain ⟨z', hz', -⟩ := hstep n p q d z hz
    exact ⟨z', hz'⟩
  · exact fun n p h => h.goes (hstep n p)
  · rintro n ⟨z, hz⟩
    obtain ⟨z', hz', -⟩ := allGo_reach q d st de n q d z hz
    exact cancelUnissued_stops hz'

/-! ### A refusal -/

theorem casc_cancelUnissued (q d : Nat) (m : Mach) : (cancelUnissued q d m).casc = m.casc := by
  unfold cancelUnissued
  split <;> rfl

theorem casc_stopLayer (q d st de : Nat) (m : Mach) : (stopLayer q d st de false m).casc = m.casc :=
  foldl_keeps Mach.casc (fun m (p : Nat × Nat) => cancelUnissued p.1 p.2 (reach p.1 p.2 st de m)) (by intro m p; exact casc_cancelUnissued ..) _ m

/-- What a REFUSE keeps of every state it passes through: descriptors and bindings. -/
structure Refusing (m n : Mach) : Prop where
  descs : AllGo m n
  binds : BindsKept m n

theorem Refusing.trans {m n o : Mach} (h : Refusing m n) (h' : Refusing n o) : Refusing m o := ⟨h.descs.trans h'.descs, h.binds.trans h'.binds⟩

/-- One layer of a refused queue stops. -/
def refuseOne (de : Nat) (m : Mach) (x : Nat × Nat) : Mach :=
  let m := stopLayer x.1 x.2 stRemoteFault de false m
  { m with depot := { m.depot with ops := m.depot.ops.map (refusedReshard m x de) } }

theorem refusing_refuseOne (de : Nat) (m : Mach) (x : Nat × Nat) : Refusing m (refuseOne de m x) :=
  ⟨(stopLayer_goes ..).1.trans (AllGo.of_queues rfl), BindsKept.rfl (congrArg Casc.binds (casc_stopLayer ..))⟩

theorem uncount_keeps (port q ack : Nat) (p : Peer) (m : Mach) : Refusing m (uncount port q ack p m) := by
  have hone (e : Nat) (f : Frame) (m : Mach) : Refusing m (match sendBind m port e f with
      | some b => { m with casc := { m.casc with binds := mupd m.casc.binds b.1 fun b => { b with counts := mset b.counts f.head.route (((mget b.counts f.head.route).getD 0 + 65535) % 65536) } } }
      | none => m) := by
    split
    · exact ⟨AllGo.of_queues rfl, bindsKept_mupd m _ _ fun _ => rfl⟩
    · exact ⟨AllGo.of_queues rfl, BindsKept.rfl rfl⟩
  unfold uncount
  generalize p.unacked.filter _ = l
  induction l generalizing m with
  | nil => exact ⟨AllGo.of_queues rfl, BindsKept.rfl rfl⟩
  | cons f l ih => exact (hone _ f m).trans (ih _)

theorem refusing_foldl (de : Nat) (l : List (Nat × Nat)) : ∀ m, Refusing m (l.foldl (refuseOne de) m) := by
  induction l with
  | nil => exact fun m => ⟨AllGo.of_queues rfl, BindsKept.rfl rfl⟩
  | cons x l ih => exact fun m => (refusing_refuseOne de m x).trans (ih _)

/-- One entry of a REFUSE. -/
def refuseEntry (port : Nat) (h : KHead) (p : Peer) (m : Mach) (e : Nat × Nat) : Mach := (refusedLayers m port e.1 p).foldl (refuseOne e.2) (uncount port e.1 h.ack p m)

theorem refusing_refuseEntry (port : Nat) (h : KHead) (p : Peer) (m : Mach) (e : Nat × Nat) : Refusing m (refuseEntry port h p m e) :=
  (uncount_keeps ..).trans (refusing_foldl ..)

/-- The layer that a refusal stops: it sent an unacknowledged frame to the queue, or, where none did, it runs in a queue bound to it. -/
def sentTo (port : Nat) (x : Peer) (r q d : Nat) (m : Mach) : Prop := ∃ y, descGet m q d = some y ∧
  ((∃ f ∈ x.unacked ++ x.queue, f.head.type = 1 ∧ f.head.queue = r ∧ f.q = q ∧ f.desc = d)
    ∨ ((∀ f ∈ x.unacked ++ x.queue, ¬(f.head.type = 1 ∧ f.head.queue = r)) ∧ y.phase = 2 ∧ y.running ≠ 0
      ∧ ∃ b ∈ m.casc.binds, b.2.recv = false ∧ b.2.port = port ∧ some b.2.engine = x.engine ∧ b.2.remote = r ∧ b.2.q = q))

theorem sentTo.refusing {port r q d : Nat} {x : Peer} {m n : Mach} (h : sentTo port x r q d m) (hr : Refusing m n) : sentTo port x r q d n := by
  obtain ⟨y, hy, hcase⟩ := h
  obtain ⟨y', hy', hg⟩ := hr.descs q d y hy
  refine ⟨y', hy', hcase.imp id ?_⟩
  rintro ⟨hnone, hphase, hrun, b, hb, h1, h2, h3, h4, h5⟩
  obtain ⟨b', hb', -, he⟩ := hr.binds b hb
  exact ⟨hnone, (hg.phase hrun).trans hphase, by rw [hg.running]; exact hrun, b', hb', by rw [he]; exact ⟨h1, h2, h3, h4, h5⟩⟩

theorem mem_refusedLayers {port r q d : Nat} {x : Peer} {m : Mach} (h : sentTo port x r q d m) : (q, d) ∈ refusedLayers m port r x := by
  obtain ⟨y, hy, hcase⟩ := h
  unfold refusedLayers
  dsimp only
  rcases hcase with ⟨f, hf, h1, h2, h3, h4⟩ | ⟨hnone, hphase, hrun, b, hb, h1, h2, h3, h4, h5⟩
  · have hmem : (q, d) ∈ (((x.unacked ++ x.queue).filter fun f => f.head.type == 1 && f.head.queue == r).map fun f => (f.q, f.desc)).eraseDups :=
      List.mem_eraseDups.2 (List.mem_map.2 ⟨f, List.mem_filter.2 ⟨hf, by simp [h1, h2]⟩, by rw [h3, h4]⟩)
    rw [if_pos (List.ne_nil_of_mem hmem)]
    exact hmem
  · have hfs : ((x.unacked ++ x.queue).filter fun f => f.head.type == 1 && f.head.queue == r) = [] := List.filter_eq_nil_iff.2 fun f hf => by
      simpa using fun ht => not_and.1 (hnone f hf) ht
    rw [hfs, if_neg fun h => h rfl]
    obtain ⟨z, hz, hd⟩ := Option.bind_eq_some_iff.1 hy
    refine List.mem_flatMap.2 ⟨q, List.mem_map.2 ⟨b, List.mem_filter.2 ⟨hb, by simp [h1, h2, h3, h4]⟩, h5⟩, ?_⟩
    rw [hz]
    exact List.mem_map.2 ⟨(d, y), List.mem_filter.2 ⟨mem_of_mget hd, by simp [hphase, hrun]⟩, rfl⟩

theorem refuseEntry_stops {port q d : Nat} {h : KHead} {x : Peer} {m : Mach} {e : Nat × Nat} (hs : sentTo port x e.1 q d m) : Stopped q d (refuseEntry port h x m e) := by
  have hun := hs.refusing (uncount_keeps port e.1 h.ack x m)
  refine foldl_reaches (P := sentTo port x e.1 q d) (Q := Stopped q d) (b := (q, d)) (fun n y hn => hn.refusing (refusing_refuseOne _ n y))
    (fun n y hn => hn.goes (refusing_refuseOne _ n y).descs) (fun n hn => ?_) _ (mem_refusedLayers hs) _ hun
  obtain ⟨y, hy, -⟩ := hn
  exact ((stopLayer_goes q d stRemoteFault e.2 n).2 y hy).goes (AllGo.of_queues rfl)

/-- A REFUSE stops the layers that sent to a queue it names. -/
theorem refuseRx_stops {p i t : Nat} {h : KHead} {es : List (Nat × Nat)} {s : State} {l : Link} {x : Peer} {e : Nat × Nat} {q d : Nat}
    (ha : arrives p i 4 h (h.len == 8 * es.length && h.len ≤ 8192 && es.all fun e => e.1 < 2 ^ 20 && e.2 < 2 ^ 8) s l x) (hs : h.seq = x.expSeq) (he : e ∈ es)
    (hsent : sentTo p x e.1 q d s.q) : Stopped q d (refuseRx p i h es t s.c s.q) := by
  obtain ⟨-, hrest, hbinds⟩ := received_keeps (h := h) (t := t) (arrives_peer ha)
  have hqueues : (received p i h t s.q).queues = s.q.queues := (congrArg Mach.queues hrest :)
  unfold refuseRx
  rw [frameRx_inOrder ha rfl hs]
  refine foldl_reaches (f := refuseEntry p h x) (P := sentTo p x e.1 q d) (Q := Stopped q d) (b := e) (fun n y hn => hn.refusing (refusing_refuseEntry p h x n y))
    (fun n y hn => hn.goes (refusing_refuseEntry p h x n y).descs) (fun n hn => refuseEntry_stops hn) es he _ ?_
  exact hsent.refusing ⟨AllGo.of_queues hqueues, hbinds⟩

/-- Settles O42: the frame that leaves, the IDLE frames, and the layers a refusal stops. -/
theorem framesLeaveInOrder : Obligations.FramesLeaveInOrder := by
  unfold Obligations.FramesLeaveInOrder
  refine ⟨fun s p t0 l x r b y f hl hk hp hm hn hc hb hy hf => Runs.ofM rfl hl ?_, fun s p t0 l hl hk hp hm hn hc => Runs.ofM rfl hl ?_,
    fun s p i h es t0 l x e q d y ha hs he hy hcase => Runs.ofM rfl (arrives_live ha) (refuseRx_stops ha hs he ⟨y, hy, hcase⟩)⟩
  · subst hb
    dsimp only [State.m]
    rw [frameSend_first (m := s.q) hk hp hm hn hc]
    exact ⟨none_before_sendFirst r x, frameOut_sends (m := tickTo t0 s.q) hy hf⟩
  · dsimp only [State.m]
    rw [frameSend_idles (m := s.q) hk hp hm hn hc, length_openPeers]
    exact Nat.zero_add _

end Sys2Proof.Machine
end

section
/-! SUPPORT. The frames of a cascade's own traffic: O43 (R384, R386, R404, R466). -/

namespace Sys2Proof.Machine
open Sys2Proof

/-- Where a frame taken in order lands: its acknowledgement has counted, and the next number is expected. -/
def inOrder (p i : Nat) (h : KHead) (t : Nat) (m : Mach) : Mach :=
  peerUpd p i (fun y => { y with expSeq := (y.expSeq + 1) % 65536, gap := false }) (received p i h t m)

/-- A frame whose length is right by another measure arrives as well. -/
theorem arrives_measured {p i ty : Nat} {h : KHead} {ok ok' : Bool} {s : State} {l : Link} {x : Peer} (ha : arrives p i ty h ok s l x) (he : ok = true → ok' = true) :
    arrives p i ty h ok' s l x := by
  obtain ⟨h1, h2, h3, h4, h5, h6, h7, h8, h9, h10, h11, h12, hok, hrest⟩ := ha
  exact ⟨h1, h2, h3, h4, h5, h6, h7, h8, h9, h10, h11, h12, he hok, hrest⟩

section
variable {p i ty t : Nat} {h : KHead} {ok : Bool} {s : State} {l : Link} {x : Peer} (ha : arrives p i ty h ok s l x)
include ha

theorem unanswered_inOrder : (inOrder p i h t s.q).unanswered = (tickTo t s.q).unanswered := (received_keeps (arrives_peer ha)).2.1

theorem peerGet_inOrder : ∃ y, peerGet (inOrder p i h t s.q) p i = some y ∧ y.expSeq = (x.expSeq + 1) % 65536 ∧ y.engine = x.engine := by
  unfold inOrder
  rw [peerGet_peerUpd, (received_keeps (arrives_peer ha)).1]
  exact ⟨_, rfl, rfl, rfl⟩

/-- A frame that arrives in order was taken: another number is expected. -/
theorem tookFrame_inOrder : tookFrame p i s.q (inOrder p i h t s.q) = true := by
  obtain ⟨y, hy, he, -⟩ := peerGet_inOrder (t := t) ha
  unfold tookFrame
  rw [hy, arrives_peer ha, Option.map_some, Option.map_some, he]
  refine decide_eq_true fun hc => ?_
  have := Option.some.inj hc
  omega

end

/-! ### TICK -/

/-- What a member takes of a TICK frame beside the settings. -/
def toldTick (n z : Nat) (m : Mach) : Mach := { m with casc := { m.casc with tickRx := some (m.now, n), tickT0 := some z } }

theorem moveSeries_told (z : Nat) (m : Mach) : (if z = m.tick.t0 then m else moveSeries z m).casc = m.casc ∧ (if z = m.tick.t0 then m else moveSeries z m).tick.t0 = z := by
  split
  · rename_i h; exact ⟨rfl, h.symm⟩
  · exact ⟨rfl, rfl⟩

/-- A member under tick source 2 takes the master's settings, its count and its series. -/
theorem tickFrame_taken {p i n pp q z t : Nat} {h : KHead} {d : Dev} {m : Mach} (hframe : frameRx p i 7 h (h.len == 32) t (fun _ m => m) d.cfg d.m = m)
    (htook : tookFrame p i d.m m = true) (hr : roleOf d.cfg = 1) (heng : (peerGet m p i).bind (·.engine) = some 0) (hsrc : d.cfg.tick.src = 2)
    (hok : tickOk { d.cfg.tick with period := pp, quiet := q } = true) :
    ∃ o, tickFrame p i h n pp q z t d = { cfg := { d.cfg with tick := { d.cfg.tick with period := pp, quiet := q } }, m := o }
      ∧ o.casc.tickRx = some (m.now, n) ∧ o.casc.tickT0 = some z ∧ o.tick.t0 = z := by
  unfold tickFrame
  dsimp only
  rw [hframe, if_neg (by rw [htook, heng, hr]; decide), if_neg (by rw [hok, hsrc]; decide)]
  split
  · exact ⟨_, rfl, rfl, rfl, rfl⟩
  · rename_i hsame
    have hcfg : d.cfg = { d.cfg with tick := { d.cfg.tick with period := pp, quiet := q } } := by
      simp only [Bool.or_eq_true, decide_eq_true_eq, not_or, Classical.not_not] at hsame
      rw [hsame.1, hsame.2]
    obtain ⟨hcasc, ht0⟩ := moveSeries_told z (toldTick n z m)
    refine ⟨if z = (toldTick n z m).tick.t0 then toldTick n z m else moveSeries z (toldTick n z m), ?_, by rw [hcasc]; rfl, by rw [hcasc]; rfl, ht0⟩
    rw [← hcfg]
    rfl

theorem tickFrame_takes {p i n pp q z t : Nat} {h : KHead} {s : State} {l : Link} {x : Peer} (ha : arrives p i 7 h (h.len == 32) s l x) (hs : h.seq = x.expSeq) (hr : roleOf s.c = 1)
    (he : x.engine = some 0) (hsrc : s.c.tick.src = 2) (hok : tickOk { s.c.tick with period := pp, quiet := q } = true) :
    ∃ m, tickFrame p i h n pp q z t s.dev.quiet = { cfg := { s.c with tick := { s.c.tick with period := pp, quiet := q } }, m := m }
      ∧ m.casc.tickRx = some (max s.q.now t, n) ∧ m.casc.tickT0 = some z ∧ m.tick.t0 = z := by
  have hnow : (inOrder p i h t s.q).now = max s.q.now t := (congrArg Mach.now (unanswered_inOrder (t := t) ha) :)
  obtain ⟨y, hy, -, heng⟩ := peerGet_inOrder (t := t) ha
  obtain ⟨m, hgo, hrx, hrest⟩ := tickFrame_taken (d := s.dev.quiet) (m := inOrder p i h t s.q) (n := n) (z := z) (frameRx_inOrder ha rfl hs t _) (tookFrame_inOrder ha) hr
    (by rw [hy]; exact heng.trans he) hsrc hok
  exact ⟨m, hgo, hrx.trans (congrArg (fun x => some (x, n)) hnow), hrest⟩

/-! ### LEDGER -/

theorem memberOk_congr {m n : Mach} (hs : m.casc.shares = n.casc.shares) (ht : m.tick = n.tick) (c : Cfg) (g : Nat) (l : Map LedgerE) : memberOk c m g l = memberOk c n g l := by
  unfold memberOk
  rw [hs, ht]

theorem ledgerReq_admits {c : Cfg} {g e rq : Nat} {b : List Byte} {m : Mach} (he : e < 4096) (hb : termsBad b = false) (hn : termsRange (termsOf b) = false)
    (hok : memberOk c m g (mset m.casc.memberLedger (4096 * g + e) (entryWith (termsOf b))) = true) :
    (ledgerReq c g 0 e rq b m).casc.memberLedger = mset m.casc.memberLedger (4096 * g + e) (entryWith (termsOf b)) := by
  unfold ledgerReq
  dsimp only
  rw [if_neg (ne_true_of_eq_false hb), if_neg (by rw [hn, decide_eq_false (Nat.not_le.2 he)]; decide), if_pos hok]
  exact congrArg Casc.memberLedger (casc_frameTo ..)

theorem ledgerReq_retires (c : Cfg) (g e rq : Nat) (b : List Byte) (m : Mach) :
    (ledgerReq c g 1 e rq b m).casc.memberLedger = mdel m.casc.memberLedger (4096 * g + e) := congrArg Casc.memberLedger (casc_frameTo ..)

section
variable {p i e rq t g : Nat} {h : KHead} {b : List Byte} {s : State} {l : Link} {x : Peer} (ha : arrives p i 8 h (h.len == 32 && b.length == 24) s l x) (hs : h.seq = x.expSeq)
  (hr : roleOf s.c = 2) (hg : x.engine = some g)
include ha hs hr hg

/-- A request of a member reaches the master. -/
theorem ledgerFrame_asks {op : Nat} (hop : op < 5) : ledgerFrame p i h op 0 e rq b t s.c s.q = ledgerReq s.c g op e rq b (inOrder p i h t s.q) := by
  have ha' : arrives p i 8 h (h.len == 32 && b.length == 24 && decide (op ≤ 5) && (op == 5 || 0 == 0)) s l x :=
    arrives_measured ha fun hok => by rw [hok, decide_eq_true (Nat.le_of_lt hop)]; simp
  have hgo := frameRx_inOrder ha' rfl hs t (fun y m =>
    if op = 5 then (if roleOf s.c = 1 && y.engine = some 0 then ledgerAnswer s.c 0 rq m else m)
    else if roleOf s.c = 2 then ledgerReq s.c (y.engine.getD 0xF) op e rq b m
    else m)
  unfold ledgerFrame
  rw [hgo, if_neg (Nat.ne_of_lt hop), if_pos hr, hg]
  rfl

/-- The master admits an entry that passes. -/
theorem ledgerFrame_admits (he : e < 4096) (hb : termsBad b = false) (hn : termsRange (termsOf b) = false)
    (hok : memberOk s.c s.q g (mset s.q.casc.memberLedger (4096 * g + e) (entryWith (termsOf b))) = true) :
    mget (ledgerFrame p i h 0 0 e rq b t s.c s.q).casc.memberLedger (4096 * g + e) = some (entryWith (termsOf b)) := by
  have hcasc : (inOrder p i h t s.q).casc.memberLedger = s.q.casc.memberLedger := (congrArg (·.casc.memberLedger) (unanswered_inOrder (t := t) ha) :)
  have hshares : (inOrder p i h t s.q).casc.shares = s.q.casc.shares := (congrArg (·.casc.shares) (unanswered_inOrder (t := t) ha) :)
  have htick : (inOrder p i h t s.q).tick = s.q.tick := (congrArg Mach.tick (unanswered_inOrder (t := t) ha) :)
  have hsame := (memberOk_congr hshares htick s.c g (mset s.q.casc.memberLedger (4096 * g + e) (entryWith (termsOf b)))).trans hok
  rw [← hcasc] at hsame
  rw [ledgerFrame_asks ha hs hr hg (by decide), ledgerReq_admits he hb hn hsame]
  exact mget_mset ..

/-- The master takes a retired entry out. -/
theorem ledgerFrame_retires : mget (ledgerFrame p i h 1 0 e rq b t s.c s.q).casc.memberLedger (4096 * g + e) = none := by
  rw [ledgerFrame_asks ha hs hr hg (by decide), ledgerReq_retires]
  exact mget_mdel ..

end

/-! ### MANAGE and IMAGE -/

/-- The block with other bodies in assembly. -/
def withAsm (a : Map (List Byte)) (m : Mach) : Mach := { m with casc := { m.casc with asm := a } }

/-- A body that comes in one frame is whole. -/
theorem assemble_whole (key : Nat) (b : List Byte) (m : Mach) : assemble key b.length 0 b m = (withAsm (mdel m.casc.asm key) m, some b) := by
  unfold assemble
  dsimp only
  rw [if_neg (by simp), if_pos (by simp)]
  rfl

/-- The command a member makes of a request of the master. -/
def relayedCmd (req : Nat) (b : List Byte) (m : Mach) : Cmd :=
  { bytes := b.take 64, phase := 0, seq := m.rings.nextCmd, start := m.now, arg := 0, relay := some req, areaBytes := b.drop 64 }

theorem relayed_joins {c : Cfg} {req : Nat} {b : List Byte} {m : Mach} (h : headerBad (relayedCmd req b m) = false) :
    mget (relayed c req b m).rings.cmds m.rings.nextCmd = some (relayedCmd req b m) := by
  unfold relayed
  dsimp only
  rw [if_neg (by exact ne_true_of_eq_false h)]
  exact mget_mset ..

/-- A whole request of the master is relayed at a member. -/
theorem manageFrame_relayed {p i rq t : Nat} {h : KHead} {b : List Byte} {d : Dev} {m : Mach}
    (hframe : frameRx p i 9 h (h.len == 16 + b.length && h.len ≤ 8192 && decide (0 ≤ 4) && decide (0 + b.length ≤ b.length)) t (fun _ m => m) d.cfg d.m = m)
    (htook : tookFrame p i d.m m = true) (hr : roleOf d.cfg = 1) (heng : ((peerGet m p i).bind (·.engine)).getD 0xF = 0) :
    ∃ a, (manageFrame p i h 0 rq b.length 0 b t d).m = relayed d.cfg rq b (withAsm a m) := by
  unfold manageFrame
  dsimp only
  rw [hframe, if_neg (by rw [htook]; decide), heng, assemble_whole]
  dsimp only
  rw [if_neg (by decide)]
  unfold managed
  dsimp only
  rw [if_pos (by rw [hr]; rfl)]
  exact ⟨_, rfl⟩

/-- A request of the master joins the member's commands. -/
theorem manageFrame_joins {p i rq t : Nat} {h : KHead} {b : List Byte} {s : State} {l : Link} {x : Peer} (ha : arrives p i 9 h (h.len == 16 + b.length && h.len ≤ 8192) s l x)
    (hs : h.seq = x.expSeq) (hr : roleOf s.c = 1) (he : x.engine = some 0)
    (hb : headerBad { bytes := b.take 64, phase := 0, seq := s.q.rings.nextCmd, start := max s.q.now t, arg := 0, relay := some rq, areaBytes := b.drop 64 } = false) :
    mget (manageFrame p i h 0 rq b.length 0 b t s.dev.quiet).m.rings.cmds s.q.rings.nextCmd
      = some { bytes := b.take 64, phase := 0, seq := s.q.rings.nextCmd, start := max s.q.now t, arg := 0, relay := some rq, areaBytes := b.drop 64 } := by
  have ha' : arrives p i 9 h (h.len == 16 + b.length && h.len ≤ 8192 && decide (0 ≤ 4) && decide (0 + b.length ≤ b.length)) s l x :=
    arrives_measured ha fun hok => by rw [hok]; simp
  have hrings : (inOrder p i h t s.q).rings = s.q.rings := (congrArg Mach.rings (unanswered_inOrder (t := t) ha) :)
  have hnow : (inOrder p i h t s.q).now = max s.q.now t := (congrArg Mach.now (unanswered_inOrder (t := t) ha) :)
  obtain ⟨y, hy, -, heng⟩ := peerGet_inOrder (t := t) ha
  obtain ⟨a, hgo⟩ := manageFrame_relayed (d := s.dev.quiet) (m := inOrder p i h t s.q) (rq := rq) (frameRx_inOrder ha' rfl hs t _) (tookFrame_inOrder ha) hr
    (by rw [hy, Option.bind_some, heng, he]; rfl)
  rw [hgo]
  generalize inOrder p i h t s.q = m at hrings hnow
  have hcmd : relayedCmd rq b (withAsm a m)
      = { bytes := b.take 64, phase := 0, seq := s.q.rings.nextCmd, start := max s.q.now t, arg := 0, relay := some rq, areaBytes := b.drop 64 } := by
    unfold relayedCmd withAsm
    rw [hrings, hnow]
  have hjoin := relayed_joins (c := s.dev.quiet.cfg) (m := (withAsm a m)) (by rw [hcmd]; exact hb)
  rw [hcmd, show (withAsm a m).rings = s.q.rings from hrings] at hjoin
  exact hjoin

/-- A booting member takes the bytes that follow those it has. -/
theorem imageFrame_takes {p i o n t : Nat} {h : KHead} {d : List Byte} {s : State} {l : Link} {x : Peer} (ha : arrives p i 0xA h (h.len == 16 + d.length && h.len ≤ 8192) s l x)
    (hs : h.seq = x.expSeq) (hr : roleOf s.c ≠ 2) (he : x.engine = some 0) (htake : takesImage s.q = true) (ho : o = s.q.casc.image.length) (hn : o + d.length < n) :
    (imageFrame p i h o n d t s.c s.q).casc.image = s.q.casc.image ++ d ∧ (imageFrame p i h o n d t s.c s.q).boot = s.q.boot := by
  have himage : (inOrder p i h t s.q).casc.image = s.q.casc.image := (congrArg (·.casc.image) (unanswered_inOrder (t := t) ha) :)
  have hboot : (inOrder p i h t s.q).boot = s.q.boot := (congrArg Mach.boot (unanswered_inOrder (t := t) ha) :)
  have htakes : takesImage (inOrder p i h t s.q) = true := by unfold takesImage at htake ⊢; rw [hboot]; exact htake
  unfold imageFrame
  rw [frameRx_inOrder ha rfl hs]
  rw [← inOrder]
  generalize inOrder p i h t s.q = m at himage hboot htakes ⊢
  dsimp only
  rw [if_neg hr, if_neg (by rw [he, htakes, himage, ← ho]; simp), himage, if_neg (by rw [List.length_append, ← ho]; exact Nat.not_le.2 hn)]
  exact ⟨rfl, hboot⟩

/-- Settles O43: each frame at the engine whose role it is for. -/
theorem cascadeFrames : Obligations.CascadeFrames := by
  unfold Obligations.CascadeFrames
  refine ⟨fun s p i h n pp q z t0 l x ha hs hr he hsrc hok => Runs.ofRun rfl (arrives_live ha) ?_,
    fun s p i h e rq b t0 l x g ha hs hr hg he hb hn hok => Runs.ofM rfl (arrives_live ha) (ledgerFrame_admits ha hs hr hg he hb hn hok),
    fun s p i h e rq b t0 l x g ha hs hr hg => Runs.ofM rfl (arrives_live ha) (ledgerFrame_retires ha hs hr hg),
    fun s p i h rq b t0 l x ha hs hr he hb => Runs.ofRun rfl (arrives_live ha) ?_,
    fun s p i h o n d t0 l x ha hs hr he htake ho hn => Runs.ofM rfl (arrives_live ha) (imageFrame_takes ha hs hr he htake ho hn)⟩
  · obtain ⟨m, hgo, hrest⟩ := tickFrame_takes (n := n) (z := z) (t := t0) ha hs hr he hsrc hok
    dsimp only [State.m, State.c]
    rw [hgo]
    exact ⟨rfl, hrest⟩
  · exact manageFrame_joins ha hs hr he hb

end Sys2Proof.Machine
end

section
/-! SUPPORT. What the front end's reads, and the addresses it holds, leave alone (R208, R254, R263, R304, R318, R327). -/

namespace Sys2Proof.Machine
open Sys2Proof

/-- The block without what a read of the front end touches: caches of translations, contexts and host lines, requests and their answers,
outputs, and what a line that leaves a cache is written back to. -/
def Mach.unread (m : Mach) : Mach :=
  let a := m.still
  { a with arb := (mach0 strap0 store0 0 true true).arb, cores := [], xl := (mach0 strap0 store0 0 true true).xl, ctxCache := [], domCache := []
           depot := { a.depot with lines := [] }, hp := { a.hp with wait := [], seq := 0, feData := [], feLines := [] } }

theorem unread_of_still {a b : Mach} (h : a.still = b.still) : a.unread = b.unread := by unfold Mach.unread; rw [h]

theorem unread_of_walked {a b : Mach} (h : a.walked = b.walked) : a.unread = b.unread := (congrArg Mach.unread h :)

theorem unread_of_served {a b : Mach} (h : a.served = b.served) : a.unread = b.unread := (congrArg Mach.unread h :)

/-- A projection of what reads leave alone. -/
theorem view_of_unread {α : Type} (g : Mach → α) (hg : ∀ m, g m.unread = g m) {a b : Mach} (h : a.unread = b.unread) : g a = g b := by
  rw [← hg a, h, hg]

theorem unread_backInval (a n : Nat) (d : Bool) (m : Mach) : (backInval a n d m).unread = m.unread := unread_of_still (still_backInval ..)

theorem unread_engPut (a : Nat) (l : List Byte) (m : Mach) : (engPut a l m).unread = m.unread := unread_of_still (still_engPut ..)

theorem unread_outsideReqs (c : Cfg) (who d q : Nat) (w : Bool) (a n : Nat) (m : Mach) : (outsideReqs c who d q w a n m).unread = m.unread :=
  unread_of_served (served_outsideReqs ..)

theorem unread_xlateFill (c : Cfg) (d va : Nat) (m : Mach) : (xlateFill c none d va m).unread = m.unread := unread_of_walked (walked_xlateFill ..)

theorem unread_keepLines (m0 m : Mach) : (keepLines m0 m).unread = m.unread := rfl

/-! ### Contexts that load -/

theorem unread_ctxTouch (c : Cfg) (q : Nat) (m : Mach) : (ctxTouch c q m).unread = m.unread := by
  unfold ctxTouch
  dsimp only
  generalize (q :: m.ctxCache.erase q) = all
  have hstep (m : Mach) (r : Nat) : (((qGet m r).map fun y => engPut (c.tb.ctx + 64 * r) (ctxBytes y.ctx) m).getD m).unread = m.unread := by
    cases qGet m r with
    | none => rfl
    | some y => rw [Option.map_some, Option.getD_some, unread_engPut]
  exact foldl_keeps Mach.unread _ hstep _ { m with ctxCache := all.take 8192 }

theorem unread_domTouch (c : Cfg) (d : Nat) (m : Mach) : (domTouch c d m).unread = m.unread := by
  unfold domTouch
  dsimp only
  generalize (d :: m.domCache.erase d) = all
  have hstep (m : Mach) (r : Nat) : (engPut (c.tb.dom + 256 * r) (domBytes (domE m r)) m).unread = m.unread := unread_engPut ..
  exact foldl_keeps Mach.unread _ hstep _ { m with domCache := all.take 256 }

/-- A context whose line and whose domain's line are good is loaded. -/
theorem unread_loadCtx {c : Cfg} {q d : Nat} {m : Mach} (hq : badIn m.mem (c.tb.ctx + 64 * q) 64 = none) (hd : badIn m.mem (c.tb.dom + 256 * d) 256 = none) :
    (loadCtx c q d m).unread = m.unread := by
  have asked (b : Bool) (a n : Nat) (m : Mach) : (if b then m else outsideReqs c 32 0 q false a n m).unread = m.unread := by
    cases b
    · exact unread_outsideReqs ..
    · rfl
  unfold loadCtx
  dsimp only
  rw [if_neg (by rw [hq]; simp), if_neg (by rw [hd]; simp), unread_ctxTouch, unread_domTouch, asked, asked]

/-! ### Host addresses -/

/-- A host address that is resolved, whatever it resolves to. -/
theorem unread_hostLook {q va pasid a : Nat} {wr : Bool} {m n : Mach} {r : HostRes} (h : hostLook q va pasid a wr none m = (n, r)) (hr : r ≠ .wait) :
    n.unread = m.unread := by
  unfold hostLook at h
  dsimp only at h
  split at h
  · cases h; rfl
  · split at h
    · cases h; rfl
    · split at h
      · cases h; rfl
      · split at h
        · split at h <;> cases h <;> exact absurd rfl hr
        · split at h
          · split at h <;> cases h <;> exact absurd rfl hr
          · split at h
            · split at h <;> cases h <;> exact absurd rfl hr
            · cases h; exact absurd rfl hr

theorem unread_feCached (d : Nat) (lines : List Nat) (m : Mach) : (feCached d lines m).unread = m.unread := by
  unfold feCached
  apply foldl_keeps Mach.unread
  intro a b
  rfl

theorem unread_feHostBytes {who q d phys va n : Nat} {cacheable : Bool} {m m1 : Mach} {l : List Byte} (h : feHostBytes who q d cacheable phys va n m = (m1, .ok l)) :
    m1.unread = m.unread := by
  have hc (lines : List Nat) : Mach.unread (if cacheable then feCached d lines m else m) = m.unread := by
    split
    · exact unread_feCached ..
    · rfl
  unfold feHostBytes at h
  dsimp only at h
  generalize hl : (List.range ((phys + n - 1) / 64 + 1 - phys / 64)).map (phys / 64 + ·) = lines at h
  have hc := hc lines
  generalize (if cacheable then feCached d lines m else m) = m2 at h hc
  split at h
  · cases congrArg Prod.snd h
  · split at h
    · cases h; exact hc
    · cases congrArg Prod.snd h

theorem unread_feReadPart {c : Cfg} {who q d va n : Nat} {m m1 : Mach} {l : List Byte} (h : feReadPart c who q d va n m = (m1, .ok l)) : m1.unread = m.unread := by
  unfold feReadPart at h
  dsimp only at h
  split at h
  · cases h; rfl
  · split at h
    · cases h
    · cases h
    · split at h
      · cases h
      · cases h
      · split at h
        · cases h
        · cases h
          rw [unread_outsideReqs, unread_backInval, unread_xlateFill]
    · split at h
      · rename_i hl
        rw [unread_feHostBytes h, unread_hostLook hl (by simp), unread_xlateFill]
      all_goals cases h

/-- What a read behind another is made of. -/
theorem feThen_ok {α β : Type} {m0 : Mach} {r : Mach × Fe α} {f : α → Mach → Mach × Fe β} {m : Mach} {v : β} (h : feThen m0 r f = (m, .ok v)) :
    ∃ n0 a n n1, r = (n0, .ok a) ∧ n.unread = n0.unread ∧ f a n = (n1, .ok v) ∧ m.unread = n1.unread := by
  unfold feThen at h
  split at h
  · rename_i n0 a
    dsimp only at h
    split at h
    · rename_i n1 w hb
      refine ⟨n0, a, if m0.hp.feLines.filter (fun l => !n0.hp.feLines.contains l) = [] then n0 else keepLines m0 n0, n1, rfl, ?_, ?_, ?_⟩
      · split <;> rfl
      · cases h; exact hb
      · cases h
        split <;> rfl
    · rename_i hne hb
      cases h
      exact absurd rfl (hne v)
  all_goals cases h

theorem unread_feThen {α β : Type} {m0 : Mach} {r : Mach × Fe α} {f : α → Mach → Mach × Fe β} {m : Mach} {v : β} (h : feThen m0 r f = (m, .ok v))
    (hr : ∀ n a, r = (n, .ok a) → n.unread = m0.unread) (hf : ∀ a n n1 b, f a n = (n1, .ok b) → n1.unread = n.unread) : m.unread = m0.unread := by
  obtain ⟨n0, a, n, n1, h0, hn, h1, hm⟩ := feThen_ok h
  rw [hm, hf _ _ _ _ h1, hn, hr _ _ h0]

theorem unread_feReadN {c : Cfg} {who q d : Nat} : ∀ {fuel va n : Nat} {m m1 : Mach} {l : List Byte}, feReadN c who q d fuel va n m = (m1, .ok l) → m1.unread = m.unread
  | 0, _, _, _, _, _, h => by cases h; rfl
  | fuel + 1, va, n, m, m1, l, h => by
    unfold feReadN at h
    split at h
    · cases h; rfl
    · refine unread_feThen h (fun _ _ => unread_feReadPart) fun a n n1 b hb => ?_
      split at hb
      · rename_i hr
        cases hb
        exact unread_feReadN hr
      · exact unread_feReadN hb

theorem unread_feRead {c : Cfg} {q d va n : Nat} {m m1 : Mach} {l : List Byte} (h : feRead c q d va n m = (m1, .ok l)) : m1.unread = m.unread := unread_feReadN h

/-! ### Addresses that are held -/

theorem unread_holdPage {c : Cfg} {q d va : Nat} {a : Acc} {m m1 : Mach} {r : Fe Held} (h : holdPage c q d va a m = (m1, r)) (hr : r ≠ .wait) (hk : r ≠ .killed) :
    m1.unread = m.unread := by
  unfold holdPage at h
  split at h
  · cases h; exact absurd rfl hk
  · cases h; exact absurd rfl hr
  · cases h; exact unread_xlateFill ..
  · dsimp only at h
    split at h <;> rename_i hl <;> cases h
    · exact (unread_hostLook hl (by simp)).trans (unread_xlateFill ..)
    · exact absurd rfl hr
    · exact (unread_hostLook hl (by simp)).trans (unread_xlateFill ..)
    · exact (unread_hostLook hl (by simp)).trans (unread_xlateFill ..)

theorem unread_holdCpl {c : Cfg} {q : Nat} {x : Queue} {m m1 : Mach} {h : Option Held} (hh : holdCpl c q x m = (m1, .ok h)) : m1.unread = m.unread := by
  unfold holdCpl at hh
  dsimp only at hh
  split at hh <;> rename_i hp <;> cases hh <;> exact unread_holdPage hp (by simp) (by simp)

theorem unread_holdAll {c : Cfg} {q d : Nat} : ∀ {l : List (Nat × Acc)} {m m1 : Mach} {hs : List Held}, holdAll c q d l m = (m1, .ok hs) → m1.unread = m.unread
  | [], _, _, _, h => by cases h; rfl
  | (va, a) :: l, m, m1, hs, h => by
    unfold holdAll at h
    split at h
    · rename_i hp
      have hp := unread_holdPage hp (by simp) (by simp)
      split at h
      · rename_i hr
        cases h
        exact (unread_holdAll hr).trans hp
      · rename_i hr
        exact (unread_holdAll h).trans hp
    all_goals cases h

theorem unread_copyStreams {c : Cfg} {q d : Nat} {x y : Desc} {m m1 : Mach} (h : copyStreams c q d x m = (m1, .ok y)) : m1.unread = m.unread := by
  unfold copyStreams at h
  split at h
  · cases h; rfl
  · refine unread_feThen h (fun _ _ => unread_feRead) fun a n n1 b hb => ?_
    refine unread_feThen hb (fun _ _ => unread_feRead) fun a n n1 b hb => ?_
    cases hb
    rfl

end Sys2Proof.Machine
end

section
/-! SUPPORT. The fetch of descriptors and submissions: O45 (R18, R254 to R256, R263 to R267). -/

namespace Sys2Proof.Machine
open Sys2Proof

/-! ### Completions -/

/-- A descriptor whose record is decided. -/
def recorded (m : Mach) (st de : Nat) (x : Desc) : Desc := { x with phase := 4, record := some (st, de), tick := x.drainTick.getD m.tick.count }

theorem queues_collect (q d : Nat) (k : Option Nat) (m : Mach) : (collect q d k m).queues = m.queues := by
  unfold collect
  split <;> rfl

theorem queues_setRecord {q d : Nat} {m : Mach} {x : Desc} (hx : descGet m q d = some x) (st de : Nat) :
    (setRecord q d st de m).queues = (descUpd q d (recorded m st de) m).queues := by
  unfold setRecord
  rw [hx]
  exact queues_collect ..

theorem qGet_setRecord {q d : Nat} {m : Mach} {y : Queue} {x : Desc} (hy : qGet m q = some y) (hx : mget y.descs d = some x) (st de : Nat) :
    qGet (setRecord q d st de m) q = some { y with descs := mupd y.descs d (recorded m st de) } := by
  have hd : descGet m q d = some x := by unfold descGet; rw [hy]; exact hx
  have hq : qGet (setRecord q d st de m) q = qGet (descUpd q d (recorded m st de) m) q := by unfold qGet; rw [queues_setRecord hd]
  rw [hq, descUpd, qGet_qUpd, hy]
  rfl

/-! ### A descriptor that enters its queue -/

/-- A queue a descriptor has entered: its completion entry is reserved and its copy kept (R254, R263). -/
def entered (x : Desc) (head : Nat) (y : Queue) : Queue :=
  { y with ctx := { y.ctx with head := head, cplTail := (y.ctx.cplTail + 1) % (2 * 2 ^ y.ctx.cplLog2), state := qsRunning }
           nextId := y.nextId + 1, drained := false, descs := mset y.descs y.nextId x }

theorem qGet_enter {q : Nat} {m : Mach} {y : Queue} (hy : qGet m q = some y) (x : Desc) (head : Nat) : qGet (enter q x head m) q = some (entered x head y) := by
  unfold enter
  rw [qGet_qUpd, hy]
  rfl

theorem fetchedInto_entered (x : Desc) (head : Nat) (y : Queue) : fetchedInto y (entered x head y) head := ⟨rfl, rfl, rfl, Or.inl rfl⟩

theorem descGet_of_qGet {q d : Nat} {m : Mach} {y : Queue} (hy : qGet m q = some y) : descGet m q d = mget y.descs d := by unfold descGet; rw [hy]; rfl

theorem descGet_enter {q : Nat} {m : Mach} {y : Queue} (hy : qGet m q = some y) (x : Desc) (head : Nat) : descGet (enter q x head m) q y.nextId = some x := by
  rw [descGet_of_qGet (qGet_enter hy x head)]
  exact mget_mset ..

/-- What a malformed descriptor leaves in its queue. -/
theorem qGet_malformed {q : Nat} {m : Mach} {y : Queue} (hy : qGet m q = some y) (x : Desc) (hx : x.dropped = false) (head o : Nat) :
    ∃ z, qGet (complete q y.nextId stMalformed o (enter q x head m)) q = some z ∧ fetchedInto y z head
      ∧ mget z.descs y.nextId = some (recorded (enter q x head m) stMalformed o x) := by
  have he := qGet_enter hy x head
  have hs := qGet_setRecord (d := y.nextId) (x := x) he (mget_mset ..) stMalformed o
  have hd : mget (mupd (entered x head y).descs y.nextId (recorded (enter q x head m) stMalformed o)) y.nextId = some (recorded (enter q x head m) stMalformed o x) := by
    rw [mget_mupd, show mget (entered x head y).descs y.nextId = some x from mget_mset ..]
    rfl
  refine ⟨{ entered x head y with descs := mupd (entered x head y).descs y.nextId (recorded (enter q x head m) stMalformed o) }, ?_, ⟨rfl, rfl, rfl, Or.inl rfl⟩, hd⟩
  unfold complete
  dsimp only
  rw [if_neg (by decide : ¬ holding stMalformed = true), if_neg, hs]
  · rw [descGet_of_qGet hs, hd, Option.any_some, show (recorded (enter q x head m) stMalformed o x).dropped = false from hx]
    decide

/-! ### A fetch -/

section
variable {c : Cfg} {q head : Nat} {y : Queue} {x : Desc} {m m1 : Mach} {h : Option Held} (hc : holdCpl c q y m = (m1, .ok h)) (hp : x.phase ≠ 4)
include hc hp

theorem fetchWith_malformed {o : Nat} (hb : descBad y.ctx.path x.seq.isSome x.bytes = some o) :
    fetchWith c q head y x m = complete q y.nextId stMalformed o (enter q { x with cplHeld := h } head m1) := by
  unfold fetchWith
  rw [hc]
  dsimp only
  rw [if_neg hp, hb]
  rfl

theorem fetchWith_enters {x1 : Desc} {m2 m3 : Mach} {hs : List Held} (hb : descBad y.ctx.path x.seq.isSome x.bytes = none)
    (hd : strideBad m1 y.ctx.dom { x with cplHeld := h } = none) (hr : copyStreams c q y.ctx.dom { x with cplHeld := h } m1 = (m2, .ok x1))
    (hf : copyFetchBad m2 q y.nextId x1 = none) (ha : holdAll c q y.ctx.dom (heldRanges c m2 y.ctx x1) m2 = (m3, .ok hs)) :
    fetchWith c q head y x m = enter q { x1 with held := hs, frames := bindFrames c m3 y.ctx.dom x1 } head m3 := by
  unfold fetchWith
  rw [hc]
  dsimp only
  rw [if_neg hp, hb]
  dsimp only [Option.orElse]
  rw [hd]
  dsimp only
  rw [hr]
  dsimp only
  rw [hf]
  dsimp only
  rw [ha]

end

/-- A COPY's streams stand behind its own bytes (R262). -/
theorem copyStreams_behind {c : Cfg} {q d : Nat} {x y : Desc} {m n : Mach} (h : copyStreams c q d x m = (n, .ok y)) : ∃ l, y = { x with bytes := x.bytes ++ l } := by
  unfold copyStreams at h
  split at h
  · cases h
    exact ⟨[], by rw [List.append_nil]⟩
  · obtain ⟨n0, a, n1, n2, -, -, h1, -⟩ := feThen_ok h
    obtain ⟨n3, b, n4, n5, -, -, h2, -⟩ := feThen_ok h1
    cases h2
    exact ⟨a ++ b, by rw [List.append_assoc]⟩

theorem mayFetch_congr {m n : Mach} (h : n.unread = m.unread) (y : Queue) : mayFetch n y = mayFetch m y := by
  unfold mayFetch
  rw [show n.power = m.power from view_of_unread Mach.power (fun _ => rfl) h]

theorem qGet_congr {m n : Mach} (h : n.unread = m.unread) (q : Nat) : qGet n q = qGet m q := view_of_unread (fun m => qGet m q) (fun _ => rfl) h

theorem now_congr {m n : Mach} (h : n.unread = m.unread) : n.now = m.now := view_of_unread Mach.now (fun _ => rfl) h

/-! ### Rings (R254) -/

section
variable {s : State} {q t0 n : Nat} {y : Queue} {m : Mach} {l : List Byte} (h : published s q t0 y m l n)
include h

theorem unread_published : m.unread = (tickTo t0 s.q).unread := by
  obtain ⟨-, -, hq, hd, -, -, -, -, hr⟩ := h
  have hl : (loadCtx s.c q y.ctx.dom (tickTo t0 s.q)).unread = (tickTo t0 s.q).unread := unread_loadCtx hq hd
  rcases hr with ⟨-, hr, -⟩ | ⟨-, m1, a, b, hr, -, hb, -⟩
  · exact (unread_feRead hr).trans hl
  · exact (unread_feRead hb).trans ((unread_feRead hr).trans hl)

/-- What a descriptor's entries say goes on to the fetch. -/
theorem descriptorFetch_published :
    descriptorFetch q t0 s.c s.q = fetchWith s.c q ((y.ctx.head + n) % (2 * 2 ^ y.ctx.ringLog2)) y (desc0 y.ctx l (y.ctx.head % 2 ^ y.ctx.ringLog2) (max s.m.now t0)) m := by
  have hm := unread_published h
  obtain ⟨-, hy, hq, hd, hf, hn, hp, hl, hr⟩ := h
  have hload : (loadCtx s.c q y.ctx.dom (tickTo t0 s.q)).unread = (tickTo t0 s.q).unread := unread_loadCtx hq hd
  have hy0 : qGet (tickTo t0 s.q) q = some y := hy
  have hy1 : qGet (loadCtx s.c q y.ctx.dom (tickTo t0 s.q)) q = some y := (qGet_congr hload q).trans hy
  have hmay : mayFetch (loadCtx s.c q y.ctx.dom (tickTo t0 s.q)) y = true := (mayFetch_congr hload y).trans hf
  have hlost : (loadCtx s.c q y.ctx.dom (tickTo t0 s.q)).hp.lost = false := (view_of_unread (fun m => m.hp.lost) (fun _ => rfl) hload).trans hl
  have hmbx : (loadCtx s.c q y.ctx.dom (tickTo t0 s.q)).mbx = s.m.mbx := view_of_unread Mach.mbx (fun _ => rfl) (b := tickTo t0 s.q) hload
  have hnow : m.now = max s.m.now t0 := now_congr hm
  have hpend : (decide (y.ctx.path = 2) && ((mget s.m.mbx y.ctx.mailbox).bind (·.pending)).isSome) = false := by
    by_cases h2 : y.ctx.path = 2
    · rw [hp h2, Option.isSome_none, Bool.and_false]
    · rw [decide_eq_false h2, Bool.false_and]
  unfold descriptorFetch
  dsimp only
  rw [hy0]
  dsimp only
  rw [hy1]
  dsimp only
  rw [hmbx, hpend, hmay, hlost]
  have havail : ¬ (!true || decide (subMod y.ctx.tail y.ctx.head (2 * 2 ^ y.ctx.ringLog2) = 0) || false) = true := by
    rw [Bool.or_false, Bool.not_true, Bool.false_or, decide_eq_true_eq]
    rcases hr with ⟨h1, -⟩ | ⟨h1, -⟩ <;> omega
  rw [if_neg havail, if_neg (by rw [Bool.false_and]; decide)]
  rcases hr with ⟨rfl, hr, h0⟩ | ⟨rfl, m1, a, b, hr, h0, hb, rfl⟩
  · dsimp only at hr
    rw [Nat.add_zero] at hr
    rw [hr]
    dsimp only
    rw [if_pos h0, hnow]
  · dsimp only at hr
    rw [Nat.add_zero] at hr
    rw [hr]
    dsimp only
    rw [if_neg (by rw [h0]; decide), if_neg (by omega), hb]
    dsimp only
    rw [hnow]

/-- The queue is as it was once its completion entry is held. -/
theorem qGet_published {m1 : Mach} {e : Option Held} (hc : holdCpl s.c q y m = (m1, .ok e)) : qGet m1 q = some y :=
  ((qGet_congr (unread_holdCpl hc) q).trans (qGet_congr (unread_published h) q)).trans h.2.1

theorem fetch_malformed {m1 : Mach} {e : Option Held} {o : Nat} (hc : holdCpl s.c q y m = (m1, .ok e)) (hb : descBad y.ctx.path false l = some o) :
    Runs (.descriptorFetch q t0) s fun t => ∃ z x, qGet t.m q = some z ∧ fetchedInto y z ((y.ctx.head + n) % (2 * 2 ^ y.ctx.ringLog2))
      ∧ descGet t.m q y.nextId = some x ∧ x.bytes = l ∧ x.phase = 4 ∧ x.record = some (stMalformed, o) := by
  refine Runs.ofM rfl h.1 ?_
  dsimp only [State.m]
  rw [descriptorFetch_published h, fetchWith_malformed (x := desc0 y.ctx l (y.ctx.head % 2 ^ y.ctx.ringLog2) (max s.m.now t0)) hc (by decide : (0 : Nat) ≠ 4) hb]
  obtain ⟨z, hz, hi, hx⟩ := qGet_malformed (qGet_published h hc) { desc0 y.ctx l (y.ctx.head % 2 ^ y.ctx.ringLog2) (max s.m.now t0) with cplHeld := e } rfl
    ((y.ctx.head + n) % (2 * 2 ^ y.ctx.ringLog2)) o
  exact ⟨z, _, hz, hi, (descGet_of_qGet hz).trans hx, rfl, rfl, rfl⟩

theorem fetch_enters {m1 m2 m3 : Mach} {e : Option Held} {x : Desc} {hs : List Held} (hc : holdCpl s.c q y m = (m1, .ok e)) (hb : descBad y.ctx.path false l = none)
    (hd : strideBad m1 y.ctx.dom (desc0 y.ctx l (y.ctx.head % 2 ^ y.ctx.ringLog2) (max s.m.now t0)) = none)
    (hr : copyStreams s.c q y.ctx.dom { desc0 y.ctx l (y.ctx.head % 2 ^ y.ctx.ringLog2) (max s.m.now t0) with cplHeld := e } m1 = (m2, .ok x))
    (hf : copyFetchBad m2 q y.nextId x = none) (ha : holdAll s.c q y.ctx.dom (heldRanges s.c m2 y.ctx x) m2 = (m3, .ok hs)) :
    Runs (.descriptorFetch q t0) s fun t => ∃ z, qGet t.m q = some z ∧ fetchedInto y z ((y.ctx.head + n) % (2 * 2 ^ y.ctx.ringLog2))
      ∧ descGet t.m q y.nextId = some { x with held := hs, frames := bindFrames s.c m3 y.ctx.dom x } ∧ l = x.bytes.take l.length := by
  have hy : qGet m3 q = some y := ((qGet_congr (unread_holdAll ha) q).trans (qGet_congr (unread_copyStreams hr) q)).trans (qGet_published h hc)
  obtain ⟨r, hx⟩ := copyStreams_behind hr
  refine Runs.ofM rfl h.1 ?_
  dsimp only [State.m]
  rw [descriptorFetch_published h, fetchWith_enters (x := desc0 y.ctx l (y.ctx.head % 2 ^ y.ctx.ringLog2) (max s.m.now t0)) hc (by decide : (0 : Nat) ≠ 4) hb hd hr hf ha]
  refine ⟨_, qGet_enter hy _ _, fetchedInto_entered _ _ _, descGet_enter hy _ _, ?_⟩
  rw [hx]
  exact (List.take_left' rfl).symm

end

/-! ### Mailboxes (R264 to R267) -/

/-- The mailbox once its pending submission is in flight, where the queue has the descriptor (R264). -/
def takeSubmission (q : Nat) (y : Queue) (b : Mbx) (land : Nat) (m : Mach) : Mach :=
  if (descGet m q y.nextId).isSome then { m with mbx := mset m.mbx y.ctx.mailbox { b with pending := none, flight := some land } } else m

theorem takeSubmission_taken {q : Nat} {y : Queue} {b : Mbx} {land : Nat} {m : Mach} {x : Desc} (h : descGet m q y.nextId = some x) :
    takeSubmission q y b land m = { m with mbx := mset m.mbx y.ctx.mailbox { b with pending := none, flight := some land } } := by
  unfold takeSubmission
  rw [if_pos (by rw [h]; rfl)]

section
variable {s : State} {q t0 sq land : Nat} {y : Queue} {b : Mbx} {m : Mach} {l : List Byte} (h : submitted s q t0 y b sq land m l)
include h

theorem unread_submitted : m.unread = (tickTo t0 s.q).unread := by
  obtain ⟨-, -, hq, hd, -, -, -, -, -, hr⟩ := h
  have hl : (loadCtx s.c q y.ctx.dom (tickTo t0 s.q)).unread = (tickTo t0 s.q).unread := unread_loadCtx hq hd
  exact (unread_feRead hr).trans hl

theorem mailboxFetch_submitted :
    mailboxFetch q t0 s.c s.q = takeSubmission q y b land
      (fetchWith s.c q y.ctx.head y { desc0 y.ctx l 0xFFFF (max s.m.now t0) with seq := some sq, landing := landingVa y.ctx.aux land } m) := by
  have hm := unread_submitted h
  obtain ⟨-, hy, hq, hd, hf, hpath, hb, hpend, hfl, hr⟩ := h
  have hload : (loadCtx s.c q y.ctx.dom (tickTo t0 s.q)).unread = (tickTo t0 s.q).unread := unread_loadCtx hq hd
  have hy0 : qGet (tickTo t0 s.q) q = some y := hy
  have hy1 : qGet (loadCtx s.c q y.ctx.dom (tickTo t0 s.q)) q = some y := (qGet_congr hload q).trans hy
  have hmay : mayFetch (loadCtx s.c q y.ctx.dom (tickTo t0 s.q)) y = true := (mayFetch_congr hload y).trans hf
  have hmbx : (loadCtx s.c q y.ctx.dom (tickTo t0 s.q)).mbx = s.m.mbx := view_of_unread Mach.mbx (fun _ => rfl) (b := tickTo t0 s.q) hload
  have hnow : m.now = max s.m.now t0 := now_congr hm
  unfold mailboxFetch takeSubmission
  dsimp only
  rw [hy0]
  dsimp only
  rw [hy1]
  dsimp only
  rw [hmbx, hb]
  dsimp only
  rw [hpend]
  dsimp only
  rw [hmay, hpath, hfl, if_neg (by decide), hr]
  dsimp only [id]
  rw [hnow]

theorem qGet_submitted {m1 : Mach} {e : Option Held} (hc : holdCpl s.c q y m = (m1, .ok e)) : qGet m1 q = some y :=
  ((qGet_congr (unread_holdCpl hc) q).trans (qGet_congr (unread_submitted h) q)).trans h.2.1

theorem submission_malformed {m1 : Mach} {e : Option Held} {o : Nat} (hc : holdCpl s.c q y m = (m1, .ok e)) (hb : descBad 2 true l = some o) :
    Runs (.mailboxFetch q t0) s fun t => mget t.m.mbx y.ctx.mailbox = some { b with pending := none, flight := some land }
      ∧ ∃ z x, qGet t.m q = some z ∧ fetchedInto y z y.ctx.head ∧ descGet t.m q y.nextId = some x ∧ x.seq = some sq ∧ x.bytes = l ∧ x.record = some (stMalformed, o) := by
  have hpath : y.ctx.path = 2 := h.2.2.2.2.2.1
  refine Runs.ofM rfl h.1 ?_
  dsimp only [State.m]
  rw [mailboxFetch_submitted h, fetchWith_malformed (x := { desc0 y.ctx l 0xFFFF (max s.m.now t0) with seq := some sq, landing := landingVa y.ctx.aux land }) hc (by decide : (0 : Nat) ≠ 4) (by rw [hpath]; exact hb)]
  obtain ⟨z, hz, hi, hx⟩ := qGet_malformed (qGet_submitted h hc)
    { desc0 y.ctx l 0xFFFF (max s.m.now t0) with seq := some sq, landing := landingVa y.ctx.aux land, cplHeld := e } rfl y.ctx.head o
  have hx := (descGet_of_qGet hz).trans hx
  rw [takeSubmission_taken hx]
  exact ⟨mget_mset .., z, _, hz, hi, hx, rfl, rfl, rfl⟩

theorem submission_enters {m1 m2 m3 : Mach} {e : Option Held} {x0 x : Desc} {hs : List Held} (hc : holdCpl s.c q y m = (m1, .ok e)) (hb : descBad 2 true l = none)
    (h0 : x0 = { desc0 y.ctx l 0xFFFF (max s.m.now t0) with seq := some sq, landing := landingVa y.ctx.aux land, cplHeld := e }) (hd : strideBad m1 y.ctx.dom x0 = none)
    (hr : copyStreams s.c q y.ctx.dom x0 m1 = (m2, .ok x)) (hf : copyFetchBad m2 q y.nextId x = none)
    (ha : holdAll s.c q y.ctx.dom (heldRanges s.c m2 y.ctx x) m2 = (m3, .ok hs)) :
    Runs (.mailboxFetch q t0) s fun t => mget t.m.mbx y.ctx.mailbox = some { b with pending := none, flight := some land }
      ∧ (∃ z, qGet t.m q = some z ∧ fetchedInto y z y.ctx.head) ∧ descGet t.m q y.nextId = some { x with held := hs, frames := bindFrames s.c m3 y.ctx.dom x }
      ∧ x.seq = some sq ∧ x.landing = landingVa y.ctx.aux land ∧ l = x.bytes.take l.length := by
  have hpath : y.ctx.path = 2 := h.2.2.2.2.2.1
  have hy : qGet m3 q = some y := ((qGet_congr (unread_holdAll ha) q).trans (qGet_congr (unread_copyStreams hr) q)).trans (qGet_submitted h hc)
  subst h0
  obtain ⟨r, hx⟩ := copyStreams_behind hr
  refine Runs.ofM rfl h.1 ?_
  dsimp only [State.m]
  rw [mailboxFetch_submitted h, fetchWith_enters (x := { desc0 y.ctx l 0xFFFF (max s.m.now t0) with seq := some sq, landing := landingVa y.ctx.aux land }) hc (by decide : (0 : Nat) ≠ 4) (by rw [hpath]; exact hb) hd hr hf ha, takeSubmission_taken (descGet_enter hy _ _)]
  refine ⟨mget_mset .., ⟨_, qGet_enter hy _ _, fetchedInto_entered _ _ _⟩, descGet_enter hy _ _, by rw [hx], by rw [hx], ?_⟩
  rw [hx]
  exact (List.take_left' rfl).symm

end

/-- Settles O45: what the reads of a fetch leave alone says which queue the descriptor enters. -/
theorem fetchTakesPublishedDescriptors : Obligations.FetchTakesPublishedDescriptors := by
  unfold Obligations.FetchTakesPublishedDescriptors
  refine ⟨fun s q t0 y m l n m1 h o hp hc hb => fetch_malformed hp hc hb, fun s q t0 y m l n m1 h x m2 m3 hs hp hc hb hd hr hf ha => fetch_enters hp hc hb hd hr hf ha,
    fun s q t0 y b sq land m l m1 h o hp hc hb => submission_malformed hp hc hb,
    fun s q t0 y b sq land m l m1 h x0 x m2 m3 hs hp hc hb h0 hd hr hf ha => submission_enters hp hc hb h0 hd hr hf ha, fun s q y hl hy hd he hr => Runs.ofM rfl hl ?_⟩
  have hi : idleResample q s.q = qUpd q (fun z => { z with drained := false, ctx := { z.ctx with state := if workLeft s.q y then qsReady else qsEmpty } }) s.q := by
    unfold idleResample
    rw [hy]
    dsimp only
    rw [hd, he, hr]
    rfl
  dsimp only [State.m]
  rw [hi]
  refine ⟨?_, fun r hr => qGet_qUpd_ne hr ..⟩
  rw [qGet_qUpd, hy]
  rfl

end Sys2Proof.Machine
end

section
/-! SUPPORT. What lasts of the block and of every descriptor whatever a kill, a completion, a read of the front end or a write for a queue
does (R196, R254, R263, R274, R303, R319 to R321, R349, R352, R470). -/

namespace Sys2Proof.Machine
open Sys2Proof

/-- A descriptor without what its admission, a kill, its completion or a write of its own changes. -/
def Desc.lasting (z : Desc) : Desc :=
  { z with phase := 0, order := 0, tick := 0, admitTick := 0, admitAt := 0, running := 0, killed := 0, status := none, statusAt := 0, cancelled := false
           owed := 0, group := 0, gather := 0, enqs := [], record := none, publish := false, lines := [] }

/-- A ledger entry without its account. -/
def LedgerE.lasting (e : LedgerE) : LedgerE := { e with balance := 0, owed := 0 }

/-- The block without what kills, holds, reads of the front end and writes for a queue touch. -/
def Mach.fixed (m : Mach) : Mach :=
  let a := m.calm
  { a with ledger := mmap (fun _ e => e.lasting) m.ledger, xl := (mach0 strap0 store0 0 true true).xl, ctxCache := [], domCache := [], sched := (mach0 strap0 store0 0 true true).sched
           hp := { a.hp with wait := [], seq := 0, feData := [], feLines := [] } }

/-- What lasts of every descriptor. -/
def Mach.lasting (m : Mach) (q d : Nat) : Option Desc := (descGet m q d).map Desc.lasting

/-- What lasts of the block: its own part, and its descriptors'. -/
def Mach.ground (m : Mach) : Mach × (Nat → Nat → Option Desc) := (m.fixed, m.lasting)

/-- A projection of the block's part. -/
theorem view_of_ground {α : Type} (g : Mach → α) (hg : ∀ m, g m.fixed = g m) {a b : Mach} (h : a.ground = b.ground) : g a = g b := by
  rw [← hg a, ← hg b, show a.fixed = b.fixed from congrArg Prod.fst h]

/-- A descriptor is there still, and what lasts of it is as before. -/
theorem descGet_of_ground {a b : Mach} (h : b.ground = a.ground) {q d : Nat} {z : Desc} (hz : descGet a q d = some z) :
    ∃ z', descGet b q d = some z' ∧ z'.lasting = z.lasting := by
  have hl : (descGet b q d).map Desc.lasting = some z.lasting := (congrFun (congrFun (congrArg Prod.snd h) q) d).trans (congrArg (Option.map Desc.lasting) hz)
  exact Option.map_eq_some_iff.1 hl

theorem entryNumber_fixed (m : Mach) (q : Nat) : (entryOf m.fixed q).map (·.1) = (entryOf m q).map (·.1) := by
  unfold entryOf
  show ((mmap (fun _ e => e.lasting) m.ledger).find? fun p => p.2.queue == some q).map (·.1) = (m.ledger.find? fun p => p.2.queue == some q).map (·.1)
  induction m.ledger with
  | nil => rfl
  | cons p l ih =>
    show (List.find? (fun p => p.2.queue == some q) ((p.1, p.2.lasting) :: mmap (fun _ e => e.lasting) l)).map (·.1) = _
    rw [List.find?_cons, List.find?_cons, show (p.1, p.2.lasting).2.queue = p.2.queue from rfl]
    split
    · rfl
    · exact ih

theorem lasting_of_queues {a b : Mach} (h : b.queues = a.queues) : b.lasting = a.lasting := by
  funext q d
  unfold Mach.lasting descGet qGet
  rw [h]

theorem ground_of_fixed {a b : Mach} (h : b.fixed = a.fixed) (hl : b.lasting = a.lasting) : b.ground = a.ground := by unfold Mach.ground; rw [h, hl]

theorem ground_of_unread {a b : Mach} (h : b.unread = a.unread) : b.ground = a.ground :=
  ground_of_fixed (congrArg Mach.fixed h :) (lasting_of_queues (view_of_unread Mach.queues (fun _ => rfl) h))

theorem ground_of_still {a b : Mach} (h : b.still = a.still) : b.ground = a.ground := ground_of_unread (unread_of_still h)

theorem ground_post (c : Cfg) (code : Nat) (ws : List Nat) (m : Mach) : (post c code ws m).ground = m.ground := ground_of_still (still_post ..)

/-! ### Queues and descriptors that change -/

theorem lasting_qUpd {f : Queue → Queue} (hf : ∀ y d, (mget (f y).descs d).map Desc.lasting = (mget y.descs d).map Desc.lasting) (q : Nat) (m : Mach) :
    (qUpd q f m).lasting = m.lasting := by
  funext r d
  unfold Mach.lasting descGet
  by_cases h : r = q
  · subst h
    rw [qGet_qUpd]
    cases qGet m r with
    | none => rfl
    | some y => exact hf y d
  · rw [qGet_qUpd_ne h]

theorem ground_qUpd {f : Queue → Queue} (hf : ∀ y, (f y).descs = y.descs) (q : Nat) (m : Mach) : (qUpd q f m).ground = m.ground :=
  ground_of_fixed rfl (lasting_qUpd (fun y d => by rw [hf]) q m)

theorem ground_ctxUpd (q : Nat) (f : QCtx → QCtx) (m : Mach) : (ctxUpd q f m).ground = m.ground := ground_qUpd (by intro z; rfl) q m

theorem ground_descUpd {f : Desc → Desc} (hf : ∀ z, (f z).lasting = z.lasting) (q d : Nat) (m : Mach) : (descUpd q d f m).ground = m.ground := by
  refine ground_of_fixed rfl (lasting_qUpd (fun y e => ?_) q m)
  dsimp only
  by_cases h : e = d
  · subst h
    rw [mget_mupd]
    cases mget y.descs e with
    | none => rfl
    | some z => exact congrArg some (hf z)
  · rw [mget_mupd_ne _ _ h]

theorem ground_mmap {g : Nat → Nat → Desc → Desc} (hg : ∀ q d z, (g q d z).lasting = z.lasting) (m : Mach) :
    Mach.lasting { m with queues := mmap (fun q y => { y with descs := mmap (g q) y.descs }) m.queues } = m.lasting := by
  funext q d
  unfold Mach.lasting descGet qGet
  rw [mget_mmap]
  cases mget m.queues q with
  | none => rfl
  | some y =>
    show (mget (mmap (g q) y.descs) d).map Desc.lasting = (mget y.descs d).map Desc.lasting
    rw [mget_mmap]
    cases mget y.descs d with
    | none => rfl
    | some z => exact congrArg some (hg q d z)

theorem ground_foldl {β : Type} (f : Mach → β → Mach) (h : ∀ m b, (f m b).ground = m.ground) (l : List β) (m : Mach) : (l.foldl f m).ground = m.ground :=
  foldl_keeps Mach.ground f h l m

/-! ### Kills -/

theorem mmap_mmap {α : Type} (f g : Nat → α → α) (l : Map α) : mmap f (mmap g l) = mmap (fun k v => f k (g k v)) l := by
  induction l with
  | nil => rfl
  | cons p l ih => exact congrArg (_ :: ·) ih

/-- The accounts of a ledger change. -/
theorem ground_accounts {f : Nat → LedgerE → LedgerE} (hf : ∀ k e, (f k e).lasting = e.lasting) (m : Mach) : Mach.ground { m with ledger := mmap f m.ledger } = m.ground := by
  refine ground_of_fixed ?_ rfl
  have hl : mmap (fun _ e => e.lasting) (mmap f m.ledger) = mmap (fun _ e => e.lasting) m.ledger := by
    rw [mmap_mmap]
    exact congrArg (mmap · m.ledger) (funext fun k => funext fun e => hf k e)
  exact congrArg (fun l => { m.fixed with ledger := l }) hl

theorem ground_zeroBalance (q : Nat) (m : Mach) : (zeroBalance q m).ground = m.ground :=
  ground_accounts (fun _ e => by split <;> rfl) m

theorem ground_lessOwed (q n : Nat) (m : Mach) : (lessOwed q n m).ground = m.ground :=
  ground_accounts (fun _ e => by split <;> rfl) m

theorem ground_busyAdd (k : Nat) (d : Option Nat) (t : Nat) (m : Mach) : (busyAdd k d t m).ground = m.ground := ground_of_fixed rfl rfl
theorem ground_layerFree (q d : Nat) (m : Mach) : (layerFree q d m).ground = m.ground := ground_of_fixed rfl rfl

theorem ground_hold (q : Nat) (m : Mach) : (hold q m).ground = m.ground := (ground_zeroBalance ..).trans (ground_ctxUpd ..)

theorem ground_reach (q d st de : Nat) (m : Mach) : (reach q d st de m).ground = m.ground := ground_descUpd (by intro z; rfl) q d m

theorem ground_cancelUnissued (q d : Nat) (m : Mach) : (cancelUnissued q d m).ground = m.ground := by
  unfold cancelUnissued
  split
  · rfl
  · exact (ground_descUpd (by intro z; rfl) q d _).trans (ground_lessOwed ..)

theorem ground_settle (m : Mach) : (settle m).ground = m.ground := by
  refine ground_of_fixed rfl (ground_mmap (g := settled m) (fun q d z => ?_) m)
  unfold settled
  split <;> rfl

theorem ground_stops (l : List (Nat × Nat)) (st de : Nat) (m : Mach) :
    (l.foldl (fun m p => cancelUnissued p.1 p.2 (reach p.1 p.2 st de m)) m).ground = m.ground :=
  ground_foldl _ (fun _ _ => (ground_cancelUnissued ..).trans (ground_reach ..)) l m

theorem ground_killCore (k : Nat) (m : Mach) : (killCore k m).ground = m.ground := by
  unfold killCore
  split
  · rfl
  · rename_i t _
    refine (ground_descUpd ?_ _ _ _).trans ((ground_foldl _ ?_ _ _).trans (Eq.trans ?_ (ground_busyAdd k (some (m.cores.getD k core0).regs.dom) t.issued m)))
    · exact fun _ => rfl
    · exact fun m e => ground_qUpd (by intro z; rfl) e.q m
    · exact ground_of_fixed rfl rfl

theorem ground_killTiles (f : TileCmd → Bool) (st de : Nat) (m : Mach) : (killTiles f st de m).ground = m.ground := by
  refine (ground_settle _).trans (ground_foldl _ (fun m k => ?_) _ m)
  split
  · exact (ground_killCore ..).trans (ground_stops ..)
  · rfl

theorem ground_stopMembers (g : List (Nat × Nat)) (st de : Nat) (kill : Bool) (m : Mach) : (stopMembers g st de kill m).ground = m.ground := by
  unfold stopMembers
  refine (ground_settle _).trans ?_
  split
  · exact (ground_killTiles ..).trans (ground_stops ..)
  · exact ground_stops ..

theorem ground_leaveGroup (q n : Nat) (g : Group) (m : Mach) : (leaveGroup q n g m).ground = m.ground := by
  unfold leaveGroup
  refine (ground_foldl _ ?_ _ _).trans (ground_of_fixed rfl rfl)
  exact fun m p => ground_descUpd (by intro z; rfl) p.1 p.2 m

theorem ground_killGroups (q st de : Nat) (m : Mach) : (killGroups q st de m).ground = m.ground := by
  refine ground_foldl _ (fun m g => ?_) _ m
  split
  · exact ground_leaveGroup ..
  · exact ground_stopMembers ..

theorem ground_voidEnqs (q : Nat) (m : Mach) : (voidEnqs q m).ground = m.ground :=
  ground_of_fixed rfl (ground_mmap (g := fun _ _ z => { z with enqs := z.enqs.map fun e => if e.q = q then { e with void := true } else e }) (fun _ _ _ => rfl) m)

theorem ground_creditBack (b : Bind) (n : Nat) (m : Mach) : (creditBack b n m).ground = m.ground :=
  creditBack_view Mach.ground (fun _ _ => ground_of_fixed rfl rfl) b n m

theorem ground_dropParked (q : Nat) (m : Mach) : (dropParked q m).ground = m.ground :=
  (ground_of_fixed rfl rfl).trans (ground_foldl (fun m (b : Nat × Bind) => creditBack b.2 b.2.used m) (fun _ _ => ground_creditBack ..) _ m)

theorem ground_mbxClear (q : Nat) (all : Bool) (m : Mach) : (mbxClear q all m).ground = m.ground := by
  unfold mbxClear
  split
  · rfl
  · split
    · exact ground_of_fixed rfl rfl
    · rfl

theorem ground_killDescs (q st de : Nat) (m : Mach) : (killDescs q st de m).ground = m.ground := by
  refine ground_foldl _ (fun m d => ?_) _ m
  refine (ground_descUpd (fun z => ?_) q d _).trans ((ground_cancelUnissued ..).trans (ground_reach ..))
  split <;> rfl

theorem ground_killOps (q st de : Nat) (m : Mach) : (killOps q st de m).ground = m.ground := ground_of_fixed rfl rfl

theorem ground_killOne (q st de : Nat) (m : Mach) : (killOne q st de m).ground = m.ground := by
  unfold killOne
  dsimp only
  rw [ground_mbxClear, ground_dropParked, ground_voidEnqs, ground_qUpd (by intro z; rfl), ground_killOps, ground_killDescs, ground_zeroBalance, ground_ctxUpd, ground_killGroups,
    ground_killTiles]

theorem ground_killCtx (q st de : Nat) (m : Mach) : (killCtx q st de m).ground = m.ground := ground_foldl _ (fun _ _ => ground_killOne ..) _ m

theorem ground_killQueue (c : Cfg) (q st de va : Nat) (m : Mach) : (killQueue c q st de va m).ground = m.ground :=
  ground_foldl _ (fun _ _ => (ground_post ..).trans (ground_killOne ..)) _ m

theorem ground_integrityKill (c : Cfg) (q pa : Nat) (m : Mach) : (integrityKill c q pa m).ground = m.ground := (ground_post ..).trans (ground_killCtx ..)

theorem ground_faultQueue (c : Cfg) (q st line va : Nat) (m : Mach) : (faultQueue c q st line va m).ground = m.ground := by
  unfold faultQueue
  dsimp only
  split
  · exact (ground_post ..).trans (ground_killQueue ..)
  · exact ground_killQueue ..

/-! ### Completions -/

theorem ground_collect (q d : Nat) (k : Option Nat) (m : Mach) : (collect q d k m).ground = m.ground := by
  unfold collect
  split
  · rfl
  · exact ground_of_fixed rfl rfl

theorem ground_setRecord (q d st de : Nat) (m : Mach) : (setRecord q d st de m).ground = m.ground := by
  unfold setRecord
  split
  · rfl
  · exact (ground_collect ..).trans (ground_descUpd (by intro z; rfl) q d m)

/-- A completion does nothing but decide records and, where its status says so, hold the queue (R303, R469). -/
theorem complete_keeps {α : Type} (g : Mach → α) {q st de : Nat} (hs : ∀ d m, g (setRecord q d st de m) = g m) (hh : ∀ m, g (hold q m) = g m) (d : Nat) (m : Mach) :
    g (complete q d st de m) = g m := by
  have hn : g (if holding st then hold q (setRecord q d st de m) else setRecord q d st de m) = g m := by
    split
    · exact (hh _).trans (hs ..)
    · exact hs ..
  unfold complete
  dsimp only
  generalize (if holding st then hold q (setRecord q d st de m) else setRecord q d st de m) = n at hn ⊢
  split
  · split
    · exact hn
    · refine (foldl_keeps g _ (fun m e => ?_) _ n).trans hn
      split
      · split
        · exact hs ..
        · rfl
      · rfl
  · exact hn

theorem ground_complete (q d st de : Nat) (m : Mach) : (complete q d st de m).ground = m.ground :=
  complete_keeps Mach.ground (fun _ _ => ground_setRecord ..) (fun _ => ground_hold ..) d m

theorem ground_refuse (q d st de : Nat) (m : Mach) : (refuse q d st de m).ground = m.ground :=
  (ground_complete ..).trans ((ground_layerFree ..).trans (ground_cancelUnissued ..))

/-! ### Reads of the front end -/

theorem ground_hpPut (r : HpReq) (m : Mach) : (hpPut r m).ground = m.ground := ground_of_fixed rfl rfl

theorem ground_settleAll (m : Mach) : (settleAll m).ground = m.ground := ground_foldl (fun m k => settleTime k m) (fun _ _ => ground_of_fixed rfl rfl) _ m

theorem ground_joinHalt (n : Option Nat) (w : Waiter) (m : Mach) : (joinHalt n w m).ground = m.ground := by
  have hp (m : Mach) : (putHalt n w m).ground = m.ground := by
    unfold putHalt
    split
    · rfl
    · exact ground_of_fixed rfl rfl
  unfold joinHalt
  split
  · exact (hp _).trans (ground_settleAll m)
  · rfl

theorem ground_hostLook (q va pasid a : Nat) (wr : Bool) (h : Option (Nat × HaltRec)) (m : Mach) : (hostLook q va pasid a wr h m).1.ground = m.ground := by
  have hx (m : Mach) (x : Xlate) : Mach.ground { m with xl := x } = m.ground := ground_of_fixed rfl rfl
  unfold hostLook
  dsimp only
  split
  · rfl
  · split
    · exact hx ..
    · split
      · exact hx ..
      · split
        · split
          · rfl
          · exact (ground_joinHalt ..).trans (hx ..)
        · split
          · split
            · rfl
            · exact (ground_joinHalt ..).trans (hx ..)
          · split
            · split
              · rfl
              · exact hx ..
            · exact (ground_hpPut ..).trans (hx ..)

theorem ground_feHostBytes (who q d : Nat) (cacheable : Bool) (phys va n : Nat) (m : Mach) : (feHostBytes who q d cacheable phys va n m).1.ground = m.ground := by
  have hc (lines : List Nat) : Mach.ground (if cacheable then feCached d lines m else m) = m.ground := by
    split
    · exact ground_of_unread (unread_feCached ..)
    · rfl
  unfold feHostBytes
  dsimp only
  generalize (List.range ((phys + n - 1) / 64 + 1 - phys / 64)).map (phys / 64 + ·) = lines
  have hc := hc lines
  generalize (if cacheable then feCached d lines m else m) = m2 at hc ⊢
  split
  · exact hc
  · split
    · exact (ground_of_fixed rfl rfl).trans hc
    · refine (ground_foldl _ (fun m l => ?_) _ m2).trans hc
      split
      · rfl
      · exact ground_hpPut ..

theorem ground_walkWaits (a : Nat) (m : Mach) : (walkWaits a m).ground = m.ground := ground_of_unread (unread_backInval ..)

theorem ground_xlateFill (c : Cfg) (d va : Nat) (m : Mach) : (xlateFill c none d va m).ground = m.ground := ground_of_unread (unread_xlateFill ..)

theorem ground_feReadPart (c : Cfg) (who q d va n : Nat) (m : Mach) : (feReadPart c who q d va n m).1.ground = m.ground := by
  unfold feReadPart
  dsimp only
  split
  · rfl
  · split
    · exact ground_faultQueue ..
    · exact ground_walkWaits ..
    · split
      · exact (ground_faultQueue ..).trans (ground_xlateFill ..)
      · exact (ground_integrityKill ..).trans (ground_xlateFill ..)
      · split
        · exact (ground_of_unread (unread_backInval ..)).trans (ground_xlateFill ..)
        · exact (ground_of_unread ((unread_outsideReqs ..).trans (unread_backInval ..))).trans (ground_xlateFill ..)
    · rename_i p a cacheable _
      have hl := (ground_hostLook q va p a false none (xlateFill c none d va m)).trans (ground_xlateFill c d va m)
      split <;> rename_i heq <;> rw [heq] at hl
      · exact (ground_feHostBytes ..).trans hl
      · exact hl
      · exact hl
      · exact hl

/-- One read behind another, whatever comes of them. -/
theorem ground_feThen {α β : Type} {m0 : Mach} {r : Mach × Fe α} {f : α → Mach → Mach × Fe β} (hr : r.1.ground = m0.ground) (hf : ∀ a n, (f a n).1.ground = n.ground) :
    (feThen m0 r f).1.ground = m0.ground := by
  unfold feThen
  split
  · rename_i n a
    dsimp only
    have hn : (f a (if m0.hp.feLines.filter (fun l => !n.hp.feLines.contains l) = [] then n else keepLines m0 n)).1.ground = m0.ground := by
      refine (hf _ _).trans (Eq.trans ?_ hr)
      split
      · rfl
      · exact ground_of_unread (unread_keepLines ..)
    split <;> rename_i heq <;> rw [heq] at hn
    · dsimp only
      split
      · exact hn
      · exact (ground_of_fixed rfl rfl).trans hn
    · exact (ground_of_unread (unread_keepLines ..)).trans hn
  all_goals exact hr

theorem ground_feReadN (c : Cfg) (who q d : Nat) : ∀ (fuel va n : Nat) (m : Mach), (feReadN c who q d fuel va n m).1.ground = m.ground
  | 0, _, _, _ => rfl
  | fuel + 1, va, n, m => by
    unfold feReadN
    split
    · rfl
    · refine ground_feThen (ground_feReadPart ..) fun a m => ?_
      have hr := ground_feReadN c who q d fuel (va + min n (4096 - va % 4096)) (n - min n (4096 - va % 4096)) m
      split
      · rename_i heq
        rw [heq] at hr
        exact hr
      · exact hr

theorem ground_feRead (c : Cfg) (q d va n : Nat) (m : Mach) : (feRead c q d va n m).1.ground = m.ground := ground_feReadN ..

theorem ground_holdPage (c : Cfg) (q d va : Nat) (a : Acc) (m : Mach) : (holdPage c q d va a m).1.ground = m.ground := by
  unfold holdPage
  split
  · exact ground_faultQueue ..
  · exact ground_walkWaits ..
  · exact ground_xlateFill ..
  · rename_i pasid ha _ _
    have hl := (ground_hostLook q va pasid ha (a != .read) none (xlateFill c none d va m)).trans (ground_xlateFill c d va m)
    dsimp only
    split <;> rename_i heq <;> rw [heq] at hl <;> exact hl

theorem ground_holdAll (c : Cfg) (q d : Nat) : ∀ (l : List (Nat × Acc)) (m : Mach), (holdAll c q d l m).1.ground = m.ground
  | [], _ => rfl
  | (va, a) :: l, m => by
    have hp := ground_holdPage c q d va a m
    unfold holdAll
    split <;> rename_i heq <;> rw [heq] at hp
    · rename_i n _
      have hr := (ground_holdAll c q d l n).trans hp
      split
      · rename_i heq
        rw [heq] at hr
        exact hr
      · exact hr
    all_goals exact hp

/-! ### Writes for a queue -/

theorem ground_engPut (a : Nat) (l : List Byte) (m : Mach) : (engPut a l m).ground = m.ground := ground_of_unread (unread_engPut ..)

theorem ground_awaitLines (q d a n : Nat) (m : Mach) : (awaitLines q d a n m).ground = m.ground := by
  unfold awaitLines
  split
  · rfl
  · exact ground_descUpd (by intro z; rfl) q d m

theorem ground_heldPut {put : Nat → List Byte → Mach → Mach} (hput : ∀ a l m, (put a l m).ground = m.ground) (c : Cfg) (who q d desc : Nat) (hs : List Held) (va : Nat)
    (l : List Byte) (m : Mach) : (heldPut put c who q d desc hs va l m).1.ground = m.ground := by
  unfold heldPut
  split
  · rfl
  · split
    · exact ground_killQueue ..
    · split
      · exact ground_faultQueue ..
      · dsimp only
        split
        · split
          · rfl
          · exact ground_hpPut ..
        · split
          · rfl
          · split
            · exact ground_faultQueue ..
            · exact ground_integrityKill ..
            · exact (ground_of_unread (unread_outsideReqs ..)).trans ((hput ..).trans (ground_awaitLines ..))

theorem ground_heldWrite (c : Cfg) (who q d desc : Nat) (hs : List Held) (va : Nat) (l : List Byte) (m : Mach) : (heldWrite c who q d desc hs va l m).1.ground = m.ground :=
  ground_heldPut (fun _ _ _ => ground_engPut ..) c who q d desc hs va l m

end Sys2Proof.Machine
end

section
/-! SUPPORT. Layers that are presented: O46 (R22, R226 to R238, R257 to R263, R289, R470, R471). -/

namespace Sys2Proof.Machine
open Sys2Proof

/-! ### Writes of the Sorting Office -/

theorem ground_depot (x : Depot) (m : Mach) : Mach.ground { m with depot := x } = m.ground := ground_of_fixed rfl rfl

theorem ground_tcFlush (f : TLine → Bool) (m : Mach) : (tcFlush f m).ground = m.ground := by
  have hput (l : TLine) (m : Mach) : Mach.ground (l.data.foldl (fun m b => engPut b.1 [b.2] m) m) = m.ground := ground_foldl _ (fun _ _ => ground_engPut ..) _ m
  unfold tcFlush
  refine (ground_depot _ _).trans (ground_foldl _ (fun m l => ?_) _ m)
  split
  · rfl
  · exact hput l m

theorem ground_tcHold (c : Cfg) (dom tab a n : Nat) (m : Mach) : (tcHold c dom tab a n m).ground = m.ground := by
  unfold tcHold
  exact (ground_depot _ _).trans ((ground_tcFlush ..).trans (ground_depot _ m))

theorem ground_tcPut (c : Cfg) (op : Nat × Nat) (dom tab a : Nat) (l : List Byte) (m : Mach) : (tcPut c op dom tab a l m).ground = m.ground := by
  unfold tcPut
  refine (ground_depot _ _).trans ((ground_foldl _ (fun m b => ?_) _ _).trans (ground_tcHold c dom tab a l.length m))
  split
  · rfl
  · exact ground_engPut ..

theorem ground_regionAsk (c : Cfg) (q d base n : Nat) (wr : Bool) (m : Mach) : (regionAsk c q d base n wr m).ground = m.ground := by
  unfold regionAsk regionReqs
  split
  · split
    · rfl
    · exact ground_of_unread (unread_of_served (served_addLater ..))
  · rfl

theorem ground_regionPut (c : Cfg) (q d base : Nat) (l : List Byte) (m : Mach) : (regionPut c q d base l m).ground = m.ground := by
  unfold regionPut
  dsimp only
  split
  · exact (ground_depot _ _).trans (ground_regionAsk c q d base l.length true m)
  · exact (ground_depot _ _).trans (ground_regionAsk c q d base l.length true m)

theorem ground_soPut (c : Cfg) (q d : Nat) (hs : List Held) : ∀ (ws : List SoW) (m : Mach), (soPut c q d hs ws m).1.ground = m.ground
  | [], _ => rfl
  | w :: ws, m => by
    unfold soPut
    split
    · exact (ground_soPut c q d hs ws _).trans (ground_regionPut ..)
    · generalize hp : (if 16 ≤ w.1 then tcPut c (q, d) (qDom m q) (w.1 - 16) else engPut) = put
      have hput : ∀ a l m, (put a l m).ground = m.ground := by
        intro a l m
        rw [← hp]
        split
        · exact ground_tcPut ..
        · exact ground_engPut ..
      have hh := ground_heldPut hput c 33 q (qDom m q) d hs w.2.1 w.2.2 m
      split
      · rename_i heq
        rw [heq] at hh
        exact (ground_soPut c q d hs ws _).trans hh
      · exact hh

theorem ground_soWrite (c : Cfg) (q d : Nat) (ws : List SoW) (m : Mach) : (soWrite c q d ws m).1.ground = m.ground := by
  have hh (l : List (Nat × Acc)) := ground_holdAll c q (qDom m q) l m
  unfold soWrite
  dsimp only
  generalize (((soCut ws).filter (·.1 ≠ 3)).map fun w => (w.2.1, Acc.write)).eraseDups = l
  have hh := hh l
  split <;> rename_i heq <;> rw [heq] at hh
  · exact (ground_soPut ..).trans hh
  all_goals exact hh

/-! ### What a layer reads (R226 to R238, R260) -/

theorem ground_recRead (c : Cfg) (q : Nat) (x : Desc) (va : Nat) (m : Mach) : (recRead c q x va m).1.ground = m.ground := by
  have hb (l : List (Nat × Nat)) : Mach.ground (l.foldl (fun m p => backInval p.1 p.2 true m) m) = m.ground :=
    ground_foldl _ (fun _ _ => ground_of_unread (unread_backInval ..)) l m
  unfold recRead
  dsimp only
  split
  · exact ground_killQueue ..
  · split
    · exact ground_integrityKill ..
    · split
      · exact hb _
      · exact hb _

theorem ground_recsRead (c : Cfg) (q : Nat) (x : Desc) : ∀ (l : List Nat) (m : Mach), (recsRead c q x l m).1.ground = m.ground
  | [], _ => rfl
  | va :: l, m => by
    have hr := ground_recRead c q x va m
    unfold recsRead
    split <;> rename_i heq <;> rw [heq] at hr
    · have hl := (ground_recsRead c q x l _).trans hr
      split
      · rename_i heq
        rw [heq] at hl
        exact hl
      · exact hl
    · exact hr
    · exact hr

theorem ground_poolReads (c : Cfg) (q d : Nat) (x : Desc) (m : Mach) : (poolReads c q d x m).1.ground = m.ground := by
  unfold poolReads
  split
  · rfl
  · dsimp only
    refine ground_feThen ?_ fun _ n => (ground_feThen (ground_feRead ..) fun _ n => ground_feThen (ground_feRead ..) fun _ _ => rfl).trans ?_
    · split
      · exact ground_soWrite ..
      · rfl
    · split
      · exact ground_depot ..
      · rfl

theorem ground_presentReads (c : Cfg) (q d : Nat) (x : Desc) (m : Mach) : (presentReads c q d x m).1.ground = m.ground :=
  ground_feThen (ground_recsRead ..) fun _ _ => ground_feThen (ground_poolReads ..) fun _ _ => ground_feThen (ground_feRead ..) fun _ _ => rfl

theorem ground_landInline (c : Cfg) (q d : Nat) (y : Queue) (x : Desc) (m : Mach) : (landInline c q d y x m).1.ground = m.ground := by
  unfold landInline
  dsimp only
  split
  · generalize (x.bytes.drop (unitOff x.bytes 3)).take (inlineLen x.bytes) ++ List.replicate (256 - inlineLen x.bytes) (0 : Byte) = l
    have hw := ground_heldWrite c 32 q y.ctx.dom d x.held (y.ctx.aux + 256 * x.index) (l.take (min 256 (4096 - (y.ctx.aux + 256 * x.index) % 4096))) m
    split
    · rename_i heq
      rw [heq] at hw
      split
      · exact hw
      · exact (ground_heldWrite ..).trans hw
    · exact hw
  · rfl

theorem ground_recTake (q d : Nat) (x : Desc) (s : List (Nat × Nat) × Mach) (h : Nat × Nat × Nat) : (recTake q d x s h).2.ground = s.2.ground := by
  have hp (va : Nat) (b : List Byte) (m : Mach) : (histPut q d x va b m).ground = m.ground :=
    foldl_keeps (fun s : List Byte × Mach => s.2.ground) _ (fun _ _ => (ground_engPut ..).trans (ground_awaitLines ..)) _ (b, m)
  unfold recTake
  dsimp only
  split
  · exact hp ..
  · rfl

/-! ### Admission -/

theorem ground_poolJoin (c : Cfg) (q d : Nat) (x : Desc) (m : Mach) : (poolJoin c q d x m).1.ground = m.ground := by
  unfold poolJoin
  split
  · rfl
  · exact ground_feThen (ground_feRead ..) fun _ _ => ground_soWrite ..

theorem ground_groupOpen (q d : Nat) (x : Desc) (m : Mach) : (groupOpen q d x m).ground = m.ground := by
  unfold groupOpen
  exact (ground_descUpd (by intro z; rfl) q d _).trans (ground_of_fixed rfl rfl)

theorem ground_groupJoin (q d : Nat) (m : Mach) : (groupJoin q d m).ground = m.ground := by
  have hs (m : Mach) (x : Sched) : Mach.ground { m with sched := x } = m.ground := ground_of_fixed rfl rfl
  have ho (b : Bool) (x : Desc) (m : Mach) : Mach.ground (if b then groupOpen q d x m else m) = m.ground := by
    cases b
    · rfl
    · exact ground_groupOpen ..
  unfold groupJoin
  split
  · split
    · rfl
    · dsimp only
      split
      · rfl
      · split
        · exact ho ..
        · split
          · exact (ho ..).trans (hs ..)
          · split
            · rfl
            · exact (ground_descUpd (by intro z; rfl) q d _).trans (hs ..)
  · rfl

theorem ground_divide (q d : Nat) (m : Mach) : (divide q d m).ground = m.ground := by
  unfold divide
  exact (ground_groupJoin ..).trans ((ground_descUpd (by intro z; rfl) q d _).trans (ground_of_fixed rfl rfl))

theorem ground_tryAdmit (c : Cfg) (q d : Nat) (m : Mach) : (tryAdmit c q d m).ground = m.ground := by
  unfold tryAdmit
  split
  · rename_i y x _ _
    dsimp only
    split
    · rfl
    · have hj := ground_poolJoin c q d x m
      split <;> rename_i heq <;> rw [heq] at hj
      · rename_i n v
        have hpay : Mach.ground (if !y.ctx.rt then n else descUpd q d (fun z => { z with owed := costOf x })
            { n with ledger := mmap (fun _ l => if l.queue = some q then { l with balance := l.balance - costOf x, owed := l.owed + costOf x } else l) n.ledger }) = m.ground := by
          split
          · exact hj
          · refine (ground_descUpd (by intro z; rfl) q d _).trans ((ground_accounts (fun _ e => ?_) n).trans hj)
            split <;> rfl
        refine (ground_divide ..).trans ?_
        split
        · exact (ground_descUpd (by intro z; rfl) q d _).trans hpay
        · exact hpay
      · exact (ground_refuse ..).trans hj
      · exact (ground_refuse ..).trans hj
      · exact hj
  · rfl

/-! ### Completions -/

theorem descGet_setRecord {q d : Nat} {m : Mach} {x : Desc} (hx : descGet m q d = some x) (st de : Nat) :
    descGet (setRecord q d st de m) q d = some (recorded m st de x) := by
  have hd : descGet (setRecord q d st de m) q d = descGet (descUpd q d (recorded m st de) m) q d := by unfold descGet qGet; rw [queues_setRecord hx]
  rw [hd, descGet_descUpd, hx]
  rfl

theorem descGet_setRecord_ne {q d r e : Nat} (h : r ≠ q ∨ e ≠ d) (st de : Nat) (m : Mach) : descGet (setRecord q d st de m) r e = descGet m r e := by
  cases hx : descGet m q d with
  | none => unfold setRecord; rw [hx]
  | some x =>
    have hd : descGet (setRecord q d st de m) r e = descGet (descUpd q d (recorded m st de) m) r e := by unfold descGet qGet; rw [queues_setRecord hx]
    rw [hd, descGet_descUpd_ne h]

theorem descGet_hold (q d : Nat) (m : Mach) : descGet (hold q m) q d = descGet m q d :=
  descGet_qUpd (m := m) (g := id) (fun _ => rfl) rfl

/-- A completion decides the record of its descriptor, whatever it does to those that depend on it (R269, R303). -/
theorem descGet_complete {q d : Nat} {m : Mach} {x : Desc} (hx : descGet m q d = some x) (st de : Nat) :
    descGet (complete q d st de m) q d = some (recorded m st de x) := by
  have hh : descGet (if holding st then hold q (setRecord q d st de m) else setRecord q d st de m) q d = some (recorded m st de x) := by
    split
    · rw [descGet_hold, descGet_setRecord hx]
    · exact descGet_setRecord hx ..
  have hstep (n : Mach) (e : Nat) (h : descGet n q d = some (recorded m st de x)) :
      descGet (match descGet n q e with | some y => if y.phase < 2 && y.running = 0 then setRecord q e st de n else n | none => n) q d = some (recorded m st de x) := by
    split
    · rename_i y hy
      split
      · rename_i hp
        have he : d ≠ e := by
          rintro rfl
          rw [h] at hy
          cases hy
          exact absurd hp (by simp [recorded])
        rwa [descGet_setRecord_ne (Or.inr he)]
      · exact h
    · exact h
  have hfold (l : List Nat) : ∀ n, descGet n q d = some (recorded m st de x) → descGet (l.foldl (fun n e =>
      match descGet n q e with | some y => if y.phase < 2 && y.running = 0 then setRecord q e st de n else n | none => n) n) q d = some (recorded m st de x) := by
    induction l with
    | nil => exact fun _ h => h
    | cons e l ih => exact fun n h => ih _ (hstep n e h)
  unfold complete
  dsimp only
  generalize (if holding st then hold q (setRecord q d st de m) else setRecord q d st de m) = n at hh ⊢
  split
  · split
    · exact hh
    · exact hfold _ _ hh
  · exact hh

/-- A layer that is refused, before anything of it runs. -/
theorem descGet_refuse {q d : Nat} {m : Mach} {x : Desc} (hx : descGet m q d = some x) (st de : Nat) :
    ∃ z, descGet (refuse q d st de m) q d = some z ∧ z.phase = 4 ∧ z.record = some (st, de) ∧ z.cancelled = true := by
  obtain ⟨z, hz, hc⟩ := cancelUnissued_stops hx
  exact ⟨_, descGet_complete (m := layerFree q d (cancelUnissued q d m)) hz st de, rfl, rfl, hc⟩

/-! ### A layer's presentation -/

/-- A RUN whose turn it is to be presented (R16, R257, R258). -/
def PresentTurn (s : State) (q d t : Nat) (y : Queue) (x : Desc) (m : Mach) : Prop :=
  live s = true ∧ qGet s.q q = some y ∧ descGet s.q q d = some x ∧ x.phase = 0 ∧ x.isRun = true ∧ goesOn y = true ∧ depsMet s.q q d = true
    ∧ earlierAt y d 1 = true ∧ recWaits y d x = false ∧ m = (x.pool.map fun p => poolTag s.c p (tickTo t s.q)).getD (tickTo t s.q)

/-- The layer's bytes are landed and its bindings taken: it is prepared, and admitted where it may be (R234, R260, R289). -/
def landed (c : Cfg) (q d : Nat) (y : Queue) (x : Desc) (r : List Byte) (map : List Nat) (l : List Byte) (m : Mach) : Mach :=
  let hs := (histBinds x.bytes).foldl (recTake q d x) ([], m)
  tryAdmit c q d (descUpd q d (prepared r (putSlots (slotWrites y x ++ hs.1) (paramNums l)) map hs.2.now) hs.2)

/-- What follows the reads of a presentation (R470). -/
def afterReads (c : Cfg) (q d : Nat) (y : Queue) (x : Desc) (recs : List (List Byte)) (b : List Byte) (map : List Nat) (live l : List Byte) (m : Mach) : Mach :=
  let r := (layerRec m x).getD []
  match presentLate x (layerWins m x) r recs b map live with
  | some s => refuse q d s.1 s.2 m
  | none =>
    if neverFits m q y r then refuseAdm q d m
    else match landInline c q d y x m with
      | (m, .ok _) => landed c q d y x r map l m
      | (m, .failed) => refuse q d stPermission 0 m
      | (m, .lost) => refuse q d stHostLost m.hp.epoch m
      | (m, _) => m

theorem ground_poolTag (c : Cfg) (p : Nat) (m : Mach) : (poolTag c p m).ground = m.ground := by
  unfold poolTag
  split
  · exact (ground_post ..).trans (ground_depot ..)
  · rfl

theorem layerRec_presented {s : State} {t0 : Nat} {x : Desc} {n : Mach} (hn : n.ground = (tickTo t0 s.q).ground) : layerRec n x = layerRec s.m x := by
  unfold layerRec
  rw [show n.parcels = s.m.parcels from view_of_ground (b := tickTo t0 s.q) Mach.parcels (fun _ => rfl) hn]

theorem layerWins_presented {s : State} {t0 : Nat} {x : Desc} {n : Mach} (hn : n.ground = (tickTo t0 s.q).ground) : layerWins n x = layerWins s.m x := by
  unfold layerWins
  rw [show n.parcels = s.m.parcels from view_of_ground (b := tickTo t0 s.q) Mach.parcels (fun _ => rfl) hn]

section
variable {s : State} {q d t0 : Nat} {y : Queue} {x : Desc} {m : Mach} (h : PresentTurn s q d t0 y x m)
include h

theorem ground_presentTurn : m.ground = (tickTo t0 s.q).ground := by
  obtain ⟨-, -, -, -, -, -, -, -, -, rfl⟩ := h
  cases x.pool with
  | none => rfl
  | some p => exact ground_poolTag ..

/-- A first check that fails refuses the layer. -/
theorem layerPresent_early {st e : Nat} (he : presentEarly s.c m q y x = some (st, e)) : layerPresent q d t0 s.c s.q = refuse q d st e m := by
  obtain ⟨-, hy, hx, hp, hr, hg, hd, ha, hw, hm⟩ := h
  have hy : qGet (tickTo t0 s.q) q = some y := hy
  have hx : descGet (tickTo t0 s.q) q d = some x := hx
  have hd : depsMet (tickTo t0 s.q) q d = true := hd
  unfold layerPresent present
  rw [hy, hx]
  dsimp only
  rw [hd, hr, hg, ha, hw, if_neg (by simp [hp]), ← hm, he]

/-- The reads, where the first checks pass. -/
theorem layerPresent_reads {m1 : Mach} {recs : List (List Byte)} {b : List Byte} {map : List Nat} {live l : List Byte} (he : presentEarly s.c m q y x = none)
    (hr : presentReads s.c q d x m = (m1, .ok (recs, (b, map, live), l))) : layerPresent q d t0 s.c s.q = afterReads s.c q d y x recs b map live l m1 := by
  obtain ⟨-, hy, hx, hp, hrun, hg, hd, ha, hw, hm⟩ := h
  have hy : qGet (tickTo t0 s.q) q = some y := hy
  have hx : descGet (tickTo t0 s.q) q d = some x := hx
  have hd : depsMet (tickTo t0 s.q) q d = true := hd
  unfold layerPresent present
  rw [hy, hx]
  dsimp only
  rw [hd, hrun, hg, ha, hw, if_neg (by simp [hp]), ← hm, he]
  dsimp only
  rw [hr]
  rfl

theorem ground_presented {m1 : Mach} {o : Fe (List (List Byte) × (List Byte × List Nat × List Byte) × List Byte)} (hr : presentReads s.c q d x m = (m1, o)) :
    m1.ground = (tickTo t0 s.q).ground := by
  have hg := ground_presentReads s.c q d x m
  rw [hr] at hg
  exact hg.trans (ground_presentTurn h)

theorem descGet_presented {n : Mach} (hn : n.ground = (tickTo t0 s.q).ground) : ∃ z, descGet n q d = some z ∧ z.lasting = x.lasting :=
  descGet_of_ground hn (q := q) (d := d) (z := x) h.2.2.1

/-- A layer whose check fails, early or late, is refused. -/
theorem refused_presented {n : Mach} (hn : n.ground = (tickTo t0 s.q).ground) (st e : Nat) :
    ∃ z, descGet (refuse q d st e n) q d = some z ∧ z.phase = 4 ∧ z.record = some (st, e) ∧ z.cancelled = true := by
  obtain ⟨z, hz, -⟩ := descGet_presented h hn
  exact descGet_refuse hz st e

theorem refusedAdm_presented {n : Mach} (hn : n.ground = (tickTo t0 s.q).ground) :
    ∃ z, descGet (refuseAdm q d n) q d = some z ∧ z.phase = 4 ∧ z.record = some (stAdmissionRefused, ((entryOf s.m q).map (·.1)).getD 0xFFFF) := by
  obtain ⟨z, hz, -⟩ := descGet_presented h hn
  have he : (entryOf n q).map (·.1) = (entryOf s.m q).map (·.1) := by
    rw [← entryNumber_fixed n, show n.fixed = (tickTo t0 s.q).fixed from congrArg Prod.fst hn, entryNumber_fixed]
    rfl
  unfold refuseAdm
  dsimp only
  rw [he]
  obtain ⟨z', hz', hp, hr, -⟩ := descGet_refuse (m := { n with ledger := mupd n.ledger (((entryOf s.m q).map (·.1)).getD 0xFFFF) fun x => { x with refusals := satInc 32 x.refusals } })
    hz stAdmissionRefused (((entryOf s.m q).map (·.1)).getD 0xFFFF)
  exact ⟨z', hz', hp, hr⟩

/-- A layer whose bytes are landed holds what its record and its parameter block declare. -/
theorem landed_presented {n : Mach} (hn : n.ground = (tickTo t0 s.q).ground) (r : List Byte) (map : List Nat) (l : List Byte) :
    ∃ z, descGet (landed s.c q d y x r map l n) q d = some z ∧ z.tiles = lrTiles r ∧ z.wcet = lrWcet r ∧ z.altTiles = lrRerunTiles r ∧ z.altWcet = lrRerunWcet r
      ∧ z.presented = max s.m.now t0 ∧ z.params = putSlots (slotWrites y x ++ ((histBinds x.bytes).foldl (recTake q d x) ([], n)).1) (paramNums l) ++ map := by
  have hs : ((histBinds x.bytes).foldl (recTake q d x) ([], n)).2.ground = (tickTo t0 s.q).ground :=
    (foldl_keeps (fun p : List (Nat × Nat) × Mach => p.2.ground) _ (fun p b => ground_recTake q d x p b) _ ([], n)).trans hn
  unfold landed
  generalize (histBinds x.bytes).foldl (recTake q d x) ([], n) = hs' at hs
  obtain ⟨z, hz, -⟩ := descGet_presented h hs
  have hnow : hs'.2.now = max s.m.now t0 := view_of_ground (b := tickTo t0 s.q) Mach.now (fun _ => rfl) hs
  have hp : descGet (descUpd q d (prepared r (putSlots (slotWrites y x ++ hs'.1) (paramNums l)) map hs'.2.now) hs'.2) q d
      = some (prepared r (putSlots (slotWrites y x ++ hs'.1) (paramNums l)) map hs'.2.now z) := by rw [descGet_descUpd, hz]; rfl
  obtain ⟨z', hz', hl⟩ := descGet_of_ground (ground_tryAdmit s.c q d _) hp
  exact ⟨z', hz', (congrArg Desc.tiles hl :), (congrArg Desc.wcet hl :), (congrArg Desc.altTiles hl :), (congrArg Desc.altWcet hl :), (congrArg Desc.presented hl :).trans hnow,
    (congrArg Desc.params hl :)⟩

section
variable {m1 : Mach} {recs : List (List Byte)} {b : List Byte} {map : List Nat} {live l : List Byte} (he : presentEarly s.c m q y x = none)
  (hr : presentReads s.c q d x m = (m1, .ok (recs, (b, map, live), l)))
include he hr

theorem layerPresent_late {st e : Nat} (hl : presentLate x (layerWins s.m x) ((layerRec s.m x).getD []) recs b map live = some (st, e)) :
    layerPresent q d t0 s.c s.q = refuse q d st e m1 := by
  rw [layerPresent_reads h he hr]
  unfold afterReads
  dsimp only
  rw [layerRec_presented (ground_presented h hr), layerWins_presented (ground_presented h hr), hl]

theorem layerPresent_never (hl : presentLate x (layerWins s.m x) ((layerRec s.m x).getD []) recs b map live = none)
    (hn : neverFits m1 q y ((layerRec s.m x).getD []) = true) : layerPresent q d t0 s.c s.q = refuseAdm q d m1 := by
  rw [layerPresent_reads h he hr]
  unfold afterReads
  dsimp only
  rw [layerRec_presented (ground_presented h hr), layerWins_presented (ground_presented h hr), hl]
  exact if_pos hn

theorem layerPresent_lands {m2 : Mach} (hl : presentLate x (layerWins s.m x) ((layerRec s.m x).getD []) recs b map live = none)
    (hn : neverFits m1 q y ((layerRec s.m x).getD []) = false) (hi : landInline s.c q d y x m1 = (m2, .ok ())) :
    layerPresent q d t0 s.c s.q = landed s.c q d y x ((layerRec s.m x).getD []) map l m2 := by
  rw [layerPresent_reads h he hr]
  unfold afterReads
  dsimp only
  rw [layerRec_presented (ground_presented h hr), layerWins_presented (ground_presented h hr), hl]
  dsimp only
  rw [if_neg (by rw [hn]; decide), hi]

end
end

/-- Settles O46: what the reads and writes of a presentation leave alone is what the layer holds when it has been presented. -/
theorem layersArePresented : Obligations.LayersArePresented := by
  unfold Obligations.LayersArePresented
  intro turn
  refine ⟨fun s q d t0 y x m st e h he => Runs.ofM rfl h.1 ?_, fun s q d t0 y x m m1 recs b map lv l st e h he hr hl => Runs.ofM rfl h.1 ?_,
    fun s q d t0 y x m m1 recs b map lv l r h he hrec hr hl hn => Runs.ofM rfl h.1 ?_,
    fun s q d t0 y x m m1 m2 recs b map lv l r h he hrec hr hl hn hi => Runs.ofM rfl h.1 ?_⟩ <;> dsimp only [State.m]
  · rw [layerPresent_early h he]
    exact refused_presented h (ground_presentTurn h) st e
  · rw [layerPresent_late h he hr hl]
    exact refused_presented h (ground_presented h hr) st e
  · subst hrec
    rw [layerPresent_never h he hr hl hn]
    exact refusedAdm_presented h (ground_presented h hr)
  · subst hrec
    have hg := ground_landInline s.c q d y x m1
    rw [hi] at hg
    rw [layerPresent_lands h he hr hl hn hi]
    exact landed_presented h (hg.trans (ground_presented h hr)) _ map l

end Sys2Proof.Machine
end

section
/-! SUPPORT. Layers that are admitted, merge groups that close, alternates that start: O47 (R241, R275, R276, R289). -/

namespace Sys2Proof.Machine
open Sys2Proof

/-! ### Groups -/

/-- A group that is joined or opened changes the descriptor's group and no other field of it. -/
theorem descGet_groupJoin {q d : Nat} {m : Mach} {z : Desc} (hz : descGet m q d = some z) : ∃ n, descGet (groupJoin q d m) q d = some { z with group := n } := by
  have hsame : ∃ n, descGet m q d = some { z with group := n } := ⟨z.group, hz⟩
  have hset (n : Nat) (x : Sched) : ∃ n', descGet (descUpd q d (fun z => { z with group := n }) { m with sched := x }) q d = some { z with group := n' } :=
    ⟨n, by rw [descGet_descUpd, show descGet { m with sched := x } q d = some z from hz]; rfl⟩
  have hopen (b : Bool) (x : Desc) (w : Sched) : ∃ n, descGet (if b then groupOpen q d x { m with sched := w } else { m with sched := w }) q d = some { z with group := n } := by
    cases b
    · exact hsame
    · exact hset _ _
  unfold groupJoin
  split
  · split
    · exact hsame
    · dsimp only
      split
      · exact hsame
      · split
        · exact hopen _ _ m.sched
        · split
          · exact hopen _ _ _
          · split
            · exact hsame
            · exact hset _ _
  · exact hsame

theorem ledger_groupJoin (q d : Nat) (m : Mach) : (groupJoin q d m).ledger = m.ledger := by
  have hopen (b : Bool) (x : Desc) (m' : Mach) : (if b then groupOpen q d x m' else m').ledger = m'.ledger := by cases b <;> rfl
  unfold groupJoin
  split
  · split
    · rfl
    · dsimp only
      split
      · rfl
      · split
        · exact hopen ..
        · split
          · exact hopen ..
          · split <;> rfl
  · rfl

/-! ### Admission (R289) -/

/-- What a layer's division makes of its descriptor. -/
def divided (m : Mach) (x : Desc) : Desc := { x with phase := 2, order := m.sched.order, admitTick := m.tick.count, admitAt := m.now }

theorem descGet_divide {q d : Nat} {m : Mach} {z : Desc} (hz : descGet m q d = some z) : ∃ n, descGet (divide q d m) q d = some { divided m z with group := n } := by
  refine descGet_groupJoin (z := divided m z) ?_
  rw [descGet_descUpd, show descGet { m with sched := { m.sched with order := m.sched.order + 1 } } q d = some z from hz]
  rfl

theorem ledger_divide (q d : Nat) (m : Mach) : (divide q d m).ledger = m.ledger := ledger_groupJoin ..

/-- A step of a pool gathers first (R230). -/
def gathers (q d : Nat) (x : Desc) (m : Mach) : Mach := if x.pool.isSome then descUpd q d (fun z => { z with gather := 1 }) m else m

theorem descGet_gathers {q d : Nat} {m : Mach} {z : Desc} (x : Desc) (hz : descGet m q d = some z) : ∃ n, descGet (gathers q d x m) q d = some { z with gather := n } := by
  unfold gathers
  split
  · exact ⟨1, by rw [descGet_descUpd, hz]; rfl⟩
  · exact ⟨z.gather, hz⟩

theorem gathers_view {α : Type} (g : Mach → α) (hg : ∀ m f, g (descUpd q d f m) = g m) (x : Desc) (m : Mach) : g (gathers q d x m) = g m := by
  unfold gathers
  split
  · exact hg ..
  · rfl

/-- The cost of a layer moves from its entry's BALANCE to OWED (R289, R290). -/
def charged (q d : Nat) (x : Desc) (m : Mach) : Mach :=
  descUpd q d (fun z => { z with owed := costOf x })
    { m with ledger := mmap (fun _ l => if l.queue = some q then { l with balance := l.balance - costOf x, owed := l.owed + costOf x } else l) m.ledger }

/-- The layer's entry covers its cost, or its queue needs none (R289). -/
def paysFor (m : Mach) (q : Nat) (y : Queue) (x : Desc) : Bool :=
  !y.ctx.rt || (!m.tick.partialTick && decide (m.now < m.tick.limit) && (entryOf m q).any fun p => p.2.running && decide (costOf x ≤ p.2.balance))

section
variable {q d : Nat} {m : Mach} {y : Queue} {x : Desc} (c : Cfg) (hy : qGet m q = some y) (hx : descGet m q d = some x)
include hy hx

theorem tryAdmit_admits (hp : x.phase = 1) (hr : x.isRun = true) (hc : x.cancelled = false) (hg : goesOn y = true) (he : earlierAt y d 2 = true) (hpay : paysFor m q y x = true)
    (hb : poolBind x.bytes = none) : tryAdmit c q d m = divide q d (gathers q d x (if !y.ctx.rt then m else charged q d x m)) := by
  unfold tryAdmit
  rw [hy, hx]
  dsimp only
  rw [hr, hc, hg, he, show (!y.ctx.rt || (!m.tick.partialTick && decide (m.now < m.tick.limit) && (entryOf m q).any fun p => p.2.running && decide (costOf x ≤ p.2.balance))) = true from hpay,
    if_neg (by simp [hp])]
  unfold poolJoin
  rw [hb]
  rfl

theorem tryAdmit_waits (hpay : paysFor m q y x = false) : tryAdmit c q d m = m := by
  unfold tryAdmit
  rw [hy, hx]
  dsimp only
  rw [show (!y.ctx.rt || (!m.tick.partialTick && decide (m.now < m.tick.limit) && (entryOf m q).any fun p => p.2.running && decide (costOf x ≤ p.2.balance))) = false from hpay,
    if_pos (by simp)]

end

/-- The layers of a best-effort queue pay nothing. -/
theorem admit_bestEffort {s : State} {q d : Nat} {y : Queue} {x : Desc} (hl : live s = true) (hy : qGet s.q q = some y) (hx : descGet s.q q d = some x) (hp : x.phase = 1)
    (hr : x.isRun = true) (hc : x.cancelled = false) (hg : goesOn y = true) (he : earlierAt y d 2 = true) (hrt : y.ctx.rt = false) (hb : poolBind x.bytes = none) :
    Runs (.layerAdmit q d) s fun t => t.m.ledger = s.m.ledger
      ∧ ∃ z, descGet t.m q d = some z ∧ z.phase = 2 ∧ z.admitTick = s.m.tick.count ∧ z.admitAt = s.m.now ∧ z.order = s.m.sched.order := by
  refine Runs.ofM rfl hl ?_
  dsimp only [State.m]
  rw [tryAdmit_admits s.c hy hx hp hr hc hg he (by unfold paysFor; rw [hrt]; rfl) hb, hrt]
  obtain ⟨n, hn⟩ := descGet_gathers x hx
  obtain ⟨k, hk⟩ := descGet_divide hn
  have hv {α : Type} (g : Mach → α) (hg : ∀ m f, g (descUpd q d f m) = g m) : g (gathers q d x s.q) = g s.q := gathers_view g hg x s.q
  refine ⟨(ledger_divide ..).trans (hv Mach.ledger fun _ _ => rfl), _, hk, rfl, ?_, ?_, ?_⟩
  · exact hv (·.tick.count) fun _ _ => rfl
  · exact hv Mach.now fun _ _ => rfl
  · exact hv (·.sched.order) fun _ _ => rfl

/-- The layers of a real-time queue are charged to its entry. -/
theorem admit_realTime {s : State} {q d : Nat} {y : Queue} {x : Desc} {k : Nat} {e : LedgerE} (hl : live s = true) (hy : qGet s.q q = some y) (hx : descGet s.q q d = some x) (hp : x.phase = 1)
    (hr : x.isRun = true) (hc : x.cancelled = false) (hg : goesOn y = true) (he : earlierAt y d 2 = true) (hrt : y.ctx.rt = true) (hb : poolBind x.bytes = none)
    (hpart : s.m.tick.partialTick = false) (hnow : s.m.now < s.m.tick.limit) (hent : entryOf s.m q = some (k, e)) (hrun : e.running = true) (hk : mget s.m.ledger k = some e)
    (hbal : costOf x ≤ e.balance) :
    Runs (.layerAdmit q d) s fun t => (∃ z, descGet t.m q d = some z ∧ z.phase = 2 ∧ z.owed = costOf x)
      ∧ ∃ e', mget t.m.ledger k = some e' ∧ e'.balance = e.balance - costOf x ∧ e'.owed = e.owed + costOf x := by
  have hpay : paysFor s.q q y x = true := by
    unfold paysFor
    rw [show entryOf s.q q = some (k, e) from hent, show s.q.tick.partialTick = false from hpart, Option.any_some, hrun]
    simp only [Bool.not_false, Bool.true_and, Bool.or_eq_true, Bool.and_eq_true, decide_eq_true_eq]
    exact Or.inr ⟨hnow, hbal⟩
  have hq : e.queue = some q := eq_of_beq (List.find?_some (p := fun p : Nat × LedgerE => p.2.queue == some q) hent)
  refine Runs.ofM rfl hl ?_
  dsimp only [State.m]
  rw [tryAdmit_admits s.c hy hx hp hr hc hg he hpay hb, hrt]
  have hcx : descGet (charged q d x s.q) q d = some { x with owed := costOf x } := by
    unfold charged
    rw [descGet_descUpd]
    exact congrArg (Option.map _) hx
  obtain ⟨n, hn⟩ := descGet_gathers x hcx
  obtain ⟨k', hk'⟩ := descGet_divide hn
  refine ⟨⟨_, hk', rfl, rfl⟩, { e with balance := e.balance - costOf x, owed := e.owed + costOf x }, ?_, rfl, rfl⟩
  have hled : (divide q d (gathers q d x (charged q d x s.q))).ledger = (charged q d x s.q).ledger := (ledger_divide ..).trans (gathers_view Mach.ledger (fun _ _ => rfl) ..)
  have hget : mget (charged q d x s.q).ledger k = some { e with balance := e.balance - costOf x, owed := e.owed + costOf x } := by
    have hm := mget_mmap (fun _ (l : LedgerE) => if l.queue = some q then { l with balance := l.balance - costOf x, owed := l.owed + costOf x } else l) s.m.ledger k
    rw [hk, Option.map_some, if_pos hq] at hm
    exact hm
  exact (congrArg (mget · k) hled).trans hget

/-- Settles O47: a layer is admitted where its entry covers its cost. -/
theorem layersAreAdmitted : Obligations.LayersAreAdmitted := by
  unfold Obligations.LayersAreAdmitted
  refine ⟨fun s q d y x hl hy hx hp hr hc hg he hrt hb => admit_bestEffort hl hy hx hp hr hc hg he hrt hb,
    fun s q d y x k e hl hy hx hp hr hc hg he hrt hb hpart hnow hent hrun hk hbal => admit_realTime hl hy hx hp hr hc hg he hrt hb hpart hnow hent hrun hk hbal,
    fun s q d y x k e hl hy hx hrt hent hw => Runs.ofM rfl hl (tryAdmit_waits s.c hy hx ?_), fun s n t0 g p x hl hg hp hx ho => Runs.ofM rfl hl ?_,
    fun s q d x hl hx hp ha hc hn hk => Runs.ofM rfl hl ?_⟩
  case refine_1 =>
    unfold paysFor
    rw [hrt, show entryOf s.q q = some (k, e) from hent, Option.any_some]
    simp only [Bool.not_true, Bool.false_or, Bool.and_eq_false_iff, Bool.not_eq_false', decide_eq_false_iff_not, Nat.not_lt]
    rcases hw with h | h | h
    · exact Or.inr (Or.inr (by simpa [costOf] using h))
    · exact Or.inl (Or.inl h)
    · exact Or.inl (Or.inr h)
  case refine_2 =>
    have hover : groupOver (tickTo t0 s.q) g x = true := by
      unfold groupOver
      simp only [Bool.or_eq_true, Bool.and_eq_true, decide_eq_true_eq]
      exact Or.inl (ho.elim (fun h => Or.inl (Or.inr h)) Or.inr)
    have hclose : groupClose n t0 s.q = { tickTo t0 s.q with sched := { s.q.sched with groups := mset s.q.sched.groups n { g with closed := true } } } := by
      unfold groupClose
      dsimp only
      rw [show mget (tickTo t0 s.q).sched.groups n = some g from hg]
      dsimp only
      rw [hp, Option.bind_some, show descGet (tickTo t0 s.q) p.1 p.2 = some x from hx]
      dsimp only
      rw [hover]
      rfl
    dsimp only [State.m]
    rw [hclose]
    exact ⟨mget_mset .., fun k hk => mget_mset_ne _ _ hk⟩
  case refine_3 =>
    have hnarrow : (s.q.cores.any fun k => k.tc.any fun t => !t.alt && (groupOf s.q q d).contains (t.q, t.desc)) = false := by
      rw [List.any_eq_false]
      intro y hy
      cases hu : y.tc with
      | none => simp
      | some u =>
        rw [Option.any_some, Bool.and_eq_true, not_and, Bool.not_eq_true']
        intro h
        exact fun hm => ((hk y hy u hu).resolve_left (by rw [h]; decide)) (List.contains_iff_mem.1 hm)
    have hstart : rerunStart q d s.q = descUpd q d (fun z => { z with next := 0 }) s.q := by
      unfold rerunStart
      rw [hx]
      dsimp only
      rw [hnarrow, if_pos (by simp [hp, ha, hc, hn])]
    dsimp only [State.m]
    rw [hstart, descGet_descUpd, hx]
    rfl

end Sys2Proof.Machine
end

section
/-! SUPPORT. Timeouts, runaways and small descriptors: O52 (R262, R277, R301, R302). -/

namespace Sys2Proof.Machine
open Sys2Proof

/-! ### What an outcome leaves of every descriptor -/

/-- A descriptor stays stopped once stopped, and keeps a status once it has one. -/
structure Ends (z z' : Desc) : Prop where
  stopped : z.cancelled = true → z'.cancelled = true
  status : z.status ≠ none → z'.status ≠ none

/-- Every descriptor is there still, in that way. -/
def AllEnd (m n : Mach) : Prop := ∀ q d z, descGet m q d = some z → ∃ z', descGet n q d = some z' ∧ Ends z z'

/-- A descriptor issues nothing more, and a status has reached it. -/
def Ended (q d : Nat) (m : Mach) : Prop := ∃ z, descGet m q d = some z ∧ z.cancelled = true ∧ z.status ≠ none

theorem Ends.refl (z : Desc) : Ends z z := ⟨id, id⟩

theorem AllEnd.trans {m n o : Mach} (h : AllEnd m n) (h' : AllEnd n o) : AllEnd m o := by
  intro q d z hz
  obtain ⟨z1, hz1, h1⟩ := h q d z hz
  obtain ⟨z2, hz2, h2⟩ := h' q d z1 hz1
  exact ⟨z2, hz2, h2.stopped ∘ h1.stopped, h2.status ∘ h1.status⟩

theorem AllEnd.of_queues {m n : Mach} (h : n.queues = m.queues) : AllEnd m n := fun q d z hz => ⟨z, by unfold descGet qGet at hz ⊢; rw [h]; exact hz, Ends.refl z⟩

theorem Ended.of_all {q d : Nat} {m n : Mach} (h : Ended q d m) (hn : AllEnd m n) : Ended q d n := by
  obtain ⟨z, hz, hc, hs⟩ := h
  obtain ⟨z', hz', he⟩ := hn q d z hz
  exact ⟨z', hz', he.stopped hc, he.status hs⟩

theorem allEnd_descUpd {f : Desc → Desc} (hf : ∀ z, Ends z (f z)) (q d : Nat) (m : Mach) : AllEnd m (descUpd q d f m) := by
  intro r e z hz
  by_cases h : r = q ∧ e = d
  · obtain ⟨rfl, rfl⟩ := h
    exact ⟨f z, (descGet_descUpd ..).trans (congrArg _ hz), hf z⟩
  · exact ⟨z, (descGet_descUpd_ne (by omega) f m).trans hz, Ends.refl z⟩

theorem allEnd_qUpd {f : Queue → Queue} (hf : ∀ y, (f y).descs = y.descs) (q : Nat) (m : Mach) : AllEnd m (qUpd q f m) := by
  intro r e z hz
  refine ⟨z, ?_, Ends.refl z⟩
  by_cases h : r = q
  · subst h
    rwa [descGet_qUpd (g := id) (fun y => by rw [hf]; rfl) rfl]
  · unfold descGet at hz ⊢
    rwa [qGet_qUpd_ne h]

theorem allEnd_foldl {β : Type} (f : Mach → β → Mach) (hf : ∀ m b, AllEnd m (f m b)) (l : List β) : ∀ m, AllEnd m (l.foldl f m) := by
  induction l with
  | nil => exact fun m => AllEnd.of_queues rfl
  | cons b l ih => exact fun m => (hf m b).trans (ih _)

theorem allEnd_settle (m : Mach) : AllEnd m (settle m) := by
  intro q d z hz
  refine ⟨settled m q d z, (descGet_settle m q d).trans (congrArg _ hz), ?_⟩
  unfold settled
  split
  · exact ⟨id, id⟩
  · exact Ends.refl z

theorem allEnd_cancelUnissued (q d : Nat) (m : Mach) : AllEnd m (cancelUnissued q d m) := by
  unfold cancelUnissued
  split
  · exact AllEnd.of_queues rfl
  · refine (AllEnd.of_queues rfl).trans (allEnd_descUpd ?_ q d _)
    exact fun z => ⟨fun _ => rfl, id⟩

/-- An outcome that reaches a layer leaves it with a status. -/
theorem meetAt_some (t : Nat) (x : Desc) (st de : Nat) : (meetAt t x st de).1 ≠ none := by
  unfold meetAt meet
  dsimp only
  split
  · exact Option.some_ne_none _
  · split
    · exact Option.some_ne_none _
    · split <;> exact Option.some_ne_none _

theorem allEnd_reach (q d st de : Nat) (m : Mach) : AllEnd m (reach q d st de m) := by
  refine allEnd_descUpd ?_ q d m
  exact fun z => ⟨id, fun _ => meetAt_some _ _ _ _⟩

theorem allEnd_stop (p : Nat × Nat) (st de : Nat) (m : Mach) : AllEnd m (cancelUnissued p.1 p.2 (reach p.1 p.2 st de m)) :=
  (allEnd_reach p.1 p.2 st de m).trans (allEnd_cancelUnissued _ _ _)

/-- A layer that an outcome stops is stopped with its status. -/
theorem ended_stop {q d : Nat} {m : Mach} {z : Desc} (hz : descGet m q d = some z) (st de : Nat) : Ended q d (cancelUnissued q d (reach q d st de m)) := by
  have hr : descGet (reach q d st de m) q d = some { z with status := (meetAt m.now z st de).1, statusAt := (meetAt m.now z st de).2 } := by
    unfold reach
    rw [descGet_descUpd, hz]
    rfl
  have hless : descGet (lessOwed q z.owed (reach q d st de m)) q d = descGet (reach q d st de m) q d := rfl
  unfold cancelUnissued
  rw [hr]
  refine ⟨_, (descGet_descUpd ..).trans (congrArg _ (hless.trans hr)), rfl, meetAt_some _ _ _ _⟩

/-- Of a list of layers that an outcome stops, each is stopped with its status. -/
theorem ended_stops {p : Nat × Nat} {l : List (Nat × Nat)} (hp : p ∈ l) {m : Mach} {z : Desc} (hz : descGet m p.1 p.2 = some z) (st de : Nat) :
    Ended p.1 p.2 (l.foldl (fun m p => cancelUnissued p.1 p.2 (reach p.1 p.2 st de m)) m) := by
  refine foldl_reaches (P := fun n => ∃ z, descGet n p.1 p.2 = some z) (Q := Ended p.1 p.2) (b := p) ?_ ?_ ?_ l hp m ⟨z, hz⟩
  · rintro n b ⟨z, hz⟩
    obtain ⟨z', hz', -⟩ := allEnd_stop b st de n p.1 p.2 z hz
    exact ⟨z', hz'⟩
  · exact fun n b h => h.of_all (allEnd_stop b st de n)
  · rintro n ⟨z, hz⟩
    exact ended_stop hz st de

theorem allEnd_killCore (k : Nat) (m : Mach) : AllEnd m (killCore k m) := by
  unfold killCore
  split
  · exact AllEnd.of_queues rfl
  · dsimp only
    refine AllEnd.trans ?_ (allEnd_descUpd ?_ _ _ _)
    · refine AllEnd.trans ?_ (allEnd_foldl _ ?_ _ _)
      · exact AllEnd.of_queues rfl
      · exact fun m e => allEnd_qUpd (by intro y; rfl) e.q m
    · exact fun z => ⟨id, id⟩

theorem allEnd_killTiles (f : TileCmd → Bool) (st de : Nat) (m : Mach) : AllEnd m (killTiles f st de m) := by
  refine AllEnd.trans (allEnd_foldl _ (fun m k => ?_) _ m) (allEnd_settle _)
  split
  · exact (allEnd_foldl _ (fun m p => allEnd_stop p st de m) _ m).trans (allEnd_killCore _ _)
  · exact AllEnd.of_queues rfl

/-- What a stop with a status makes of the members it names, and of every other descriptor. -/
theorem ended_stopMembers {p : Nat × Nat} {g : List (Nat × Nat)} (hp : p ∈ g) {m : Mach} {z : Desc} (hz : descGet m p.1 p.2 = some z) (st de : Nat) (kill : Bool) :
    Ended p.1 p.2 (stopMembers g st de kill m) := by
  unfold stopMembers
  refine Ended.of_all ?_ (allEnd_settle _)
  split
  · exact (ended_stops hp hz st de).of_all (allEnd_killTiles _ _ _ _)
  · exact ended_stops hp hz st de

/-! ### Cores whose tile-command is killed -/

theorem cores_stops (l : List (Nat × Nat)) (st de : Nat) (m : Mach) : (l.foldl (fun m p => cancelUnissued p.1 p.2 (reach p.1 p.2 st de m)) m).cores = m.cores :=
  foldl_keeps Mach.cores _ (fun m p => by unfold cancelUnissued; split <;> rfl) l m

/-- A core that has been killed keeps its memory, its cache and its translations, and must be scrubbed (R302). -/
def killedCore (now : Nat) (c : Core) (t : TileCmd) : Core :=
  { coreClear { c.regs with dirty := true, state := idleState c.regs, since := now, kills := (c.regs.kills + 1) % 2 ^ 64
                            busy := (c.regs.busy + (now - t.issued)) % 2 ^ 64 } with
    half0 := c.half0, half1 := c.half1, front := c.front, icache := c.icache, tlb := c.tlb }

theorem cores_killCore {k : Nat} {m : Mach} {t : TileCmd} (ht : (m.cores[k]?).bind (·.tc) = some t) :
    (killCore k m).cores = lset m.cores k (killedCore m.now (m.cores.getD k core0) t) := by
  unfold killCore
  rw [ht]
  refine (foldl_keeps Mach.cores _ (by intro m e; rfl) _ _).trans ?_
  rfl

/-- One step of the kill of tile-commands: the core's tile-command, if it has one. -/
def killStep (st de : Nat) (m : Mach) (k : Nat) : Mach :=
  match (m.cores[k]?).bind (·.tc) with
  | some t => killCore k ((servedBy m t).foldl (fun m p => cancelUnissued p.1 p.2 (reach p.1 p.2 st de m)) m)
  | none => m

/-- A test widened to the gangs of the tile-commands it names (R151). -/
def withGangs (m : Mach) (f : TileCmd → Bool) (t : TileCmd) : Bool :=
  f t || ((m.cores.filterMap fun c => c.tc).filterMap fun t => if f t && t.gang ≠ 0 then some t.gang else none).contains t.gang

theorem named_withGangs {m : Mach} {f : TileCmd → Bool} {t : TileCmd} (h : f t = true) : withGangs m f t = true := by
  unfold withGangs
  rw [h]
  rfl

theorem cores_killTiles (f : TileCmd → Bool) (st de : Nat) (m : Mach) : (killTiles f st de m).cores = ((coresWith m (withGangs m f)).foldl (killStep st de) m).cores := rfl

/-- A core after a step: as before, or cleared of its tile-command. -/
theorem killStep_core (st de : Nat) (m : Mach) (k j : Nat) :
    (killStep st de m k).cores[j]? = m.cores[j]? ∨ (j = k ∧ ∃ x t, m.cores[j]? = some x ∧ x.tc = some t ∧ ∃ n, (killStep st de m k).cores[j]? = some (killedCore n x t)) := by
  unfold killStep
  split
  · rename_i t ht
    have hc := cores_stops (servedBy m t) st de m
    have ht' : (((servedBy m t).foldl (fun m p => cancelUnissued p.1 p.2 (reach p.1 p.2 st de m)) m).cores[k]?).bind (·.tc) = some t := by rw [hc]; exact ht
    rw [cores_killCore ht', hc]
    by_cases h : j = k
    · subst h
      obtain ⟨x, hx, htc⟩ := Option.bind_eq_some_iff.1 ht
      refine Or.inr ⟨rfl, x, t, hx, htc, ((servedBy m t).foldl (fun m p => cancelUnissued p.1 p.2 (reach p.1 p.2 st de m)) m).now, ?_⟩
      rw [set_get hx, List.getD_eq_getElem?_getD, hx]
      rfl
    · exact Or.inl (set_get_ne h _)
  · exact Or.inl rfl

/-- A core runs what it ran, or nothing more. -/
theorem killSteps_core (st de : Nat) (j : Nat) (l : List Nat) : ∀ m : Mach,
    (l.foldl (killStep st de) m).cores[j]? = m.cores[j]? ∨ ∃ y, (l.foldl (killStep st de) m).cores[j]? = some y ∧ y.tc = none := by
  induction l with
  | nil => exact fun m => Or.inl rfl
  | cons k l ih =>
    intro m
    rcases ih (killStep st de m k) with h | h
    · rcases killStep_core st de m k j with h1 | ⟨-, x, t, -, -, n, h1⟩
      · exact Or.inl (h.trans h1)
      · exact Or.inr ⟨_, h.trans h1, rfl⟩
    · exact Or.inr h

theorem mem_coresWith {m : Mach} {f : TileCmd → Bool} {j : Nat} {x : Core} {t : TileCmd} (hx : m.cores[j]? = some x) (ht : x.tc = some t) (hf : f t = true) : j ∈ coresWith m f := by
  unfold coresWith
  refine List.mem_map.2 ⟨(x, j), List.mem_filter.2 ⟨List.mem_zipIdx_iff_getElem?.2 hx, ?_⟩, rfl⟩
  rw [ht]
  exact hf

/-- What is said of a core once its tile-command has been killed holds at the end. -/
theorem killSteps_reaches {Q : Core → Prop} {st de j : Nat} {m : Mach} {x : Core} {l : List Nat} (hx : m.cores[j]? = some x) (hj : j ∈ l) (hq : ∀ y, Q y → y.tc = none)
    (hk : ∀ t n, x.tc = some t → Q (killedCore n x t)) (hn : x.tc = none → Q x) : ∃ y, (l.foldl (killStep st de) m).cores[j]? = some y ∧ Q y := by
  refine foldl_reaches (P := fun n => n.cores[j]? = some x ∨ ∃ y, n.cores[j]? = some y ∧ Q y) (Q := fun n => ∃ y, n.cores[j]? = some y ∧ Q y) (b := j) ?_ ?_ ?_ l hj m (Or.inl hx)
  · rintro n k h
    rcases killStep_core st de n k j with h1 | ⟨-, z, t, hz, ht, i, h1⟩
    · rwa [h1]
    · refine Or.inr ⟨_, h1, ?_⟩
      rcases h with h | ⟨y, hy, hQ⟩
      · cases hz.symm.trans h
        exact hk t i ht
      · cases hz.symm.trans hy
        exact absurd ht (by rw [hq _ hQ]; exact Option.some_ne_none t ∘ Eq.symm)
  · rintro n k ⟨y, hy, hQ⟩
    rcases killStep_core st de n k j with h1 | ⟨-, z, t, hz, ht, -⟩
    · exact ⟨y, h1.trans hy, hQ⟩
    · cases hz.symm.trans hy
      exact absurd ht (by rw [hq _ hQ]; exact Option.some_ne_none t ∘ Eq.symm)
  · rintro n (h | ⟨y, hy, hQ⟩)
    · cases ht : x.tc with
      | none =>
        have hs : killStep st de n j = n := by unfold killStep; rw [h, Option.bind_some, ht]
        exact ⟨x, by rw [hs]; exact h, hn ht⟩
      | some t =>
        have hc := cores_stops (servedBy n t) st de n
        have hb : (n.cores[j]?).bind (·.tc) = some t := by rw [h]; exact ht
        have hs : (killStep st de n j).cores[j]? = some (killedCore ((servedBy n t).foldl (fun m p => cancelUnissued p.1 p.2 (reach p.1 p.2 st de m)) n).now x t) := by
          unfold killStep
          rw [hb]
          dsimp only
          rw [cores_killCore (by rw [hc]; exact hb), hc, set_get h, List.getD_eq_getElem?_getD, h]
          rfl
        exact ⟨_, hs, hk t _ ht⟩
    · rcases killStep_core st de n j j with h1 | ⟨-, z, t, hz, ht, -⟩
      · exact ⟨y, h1.trans hy, hQ⟩
      · cases hz.symm.trans hy
        exact absurd ht (by rw [hq _ hQ]; exact Option.some_ne_none t ∘ Eq.symm)

/-- No tile-command a kill names runs on. -/
theorem killTiles_none {f : TileCmd → Bool} {st de : Nat} {m : Mach} {y : Core} {u : TileCmd} (hy : y ∈ (killTiles f st de m).cores) (hu : y.tc = some u) : f u = false := by
  rw [cores_killTiles] at hy
  obtain ⟨j, hj⟩ := List.mem_iff_getElem?.1 hy
  cases hf : f u with
  | false => rfl
  | true =>
    exfalso
    have hnone (z : Core) (hz : ((coresWith m (withGangs m f)).foldl (killStep st de) m).cores[j]? = some z) : z.tc ≠ none := by
      cases hj.symm.trans hz
      rw [hu]
      exact Option.some_ne_none u
    rcases killSteps_core st de j (coresWith m (withGangs m f)) m with h | ⟨z, hz, htc⟩
    · have hx : m.cores[j]? = some y := h.symm.trans hj
      obtain ⟨z, hz, htc⟩ := killSteps_reaches (Q := fun y => y.tc = none) (st := st) (de := de) hx (mem_coresWith hx hu (named_withGangs hf)) (fun _ h => h)
        (fun _ _ _ => rfl) id
      exact hnone z hz htc
    · exact hnone z hz htc

/-- A core whose tile-command is killed must be scrubbed, and counts the kill. -/
theorem killTiles_kills {f : TileCmd → Bool} {st de k : Nat} {m : Mach} {x : Core} {u : TileCmd} (hx : m.cores[k]? = some x) (hu : x.tc = some u) (hf : f u = true) :
    ∃ y, (killTiles f st de m).cores[k]? = some y ∧ y.tc = none ∧ y.regs.dirty = true ∧ y.regs.kills = (x.regs.kills + 1) % 2 ^ 64 := by
  rw [cores_killTiles]
  refine killSteps_reaches (Q := fun y => y.tc = none ∧ y.regs.dirty = true ∧ y.regs.kills = (x.regs.kills + 1) % 2 ^ 64) hx (mem_coresWith hx hu (named_withGangs hf))
    (fun _ h => h.1) (fun _ _ _ => ⟨rfl, rfl, rfl⟩) ?_
  exact fun h => absurd hu (by rw [h]; exact Option.some_ne_none u ∘ Eq.symm)

theorem cores_stopMembers_runs (g : List (Nat × Nat)) (st de : Nat) (m : Mach) : (stopMembers g st de false m).cores = m.cores := cores_stops g st de m

theorem stopMembers_none {g : List (Nat × Nat)} {st de : Nat} {m : Mach} {y : Core} {u : TileCmd} (hy : y ∈ (stopMembers g st de true m).cores) (hu : y.tc = some u) :
    (u.q, u.desc) ∉ g := by
  have hf := killTiles_none (f := fun t => g.contains (t.q, t.desc)) (m := g.foldl (fun m p => cancelUnissued p.1 p.2 (reach p.1 p.2 st de m)) m) hy hu
  exact fun h => absurd (hf.symm.trans (List.contains_iff_mem.2 h)) (by decide)

/-! ### Timeouts (R277, R301) -/

theorem complete_view {α : Type} (g : Mach → α) (hq : ∀ m k, g { m with queues := k } = g m) (hs : ∀ m k, g { m with sched := k } = g m) (hl : ∀ m k, g { m with ledger := k } = g m)
    (q d st de : Nat) (m : Mach) : g (complete q d st de m) = g m := by
  refine complete_keeps g (fun d m => ?_) (fun _ => (hl ..).trans (hq ..)) d m
  unfold setRecord
  split
  · rfl
  · unfold collect
    split
    · exact hq ..
    · exact (hs ..).trans (hq ..)

/-- A descriptor that is no RUN completes, and no operation of it stays. -/
theorem queueTimeout_small {q d t0 : Nat} {m : Mach} {x : Desc} (hx : descGet m q d = some x) (hp : x.phase ≠ 4) (ht : x.timeout ≠ 0) (hn : timeoutAt x ≤ max m.now t0)
    (hr : x.isRun = false) (hf : firstOut m q d x = true) :
    queueTimeout q d t0 m = complete q d (if x.timeoutAct then stTimeoutKilled else stTimeoutDrained) 0 (officeDrop q d (tickTo t0 m)) := by
  have hf : firstOut (tickTo t0 m) q d x = true := hf
  have hn : decide ((tickTo t0 m).now < timeoutAt x) = false := decide_eq_false (Nat.not_lt.2 hn)
  unfold queueTimeout
  dsimp only
  rw [show descGet (tickTo t0 m) q d = some x from hx]
  dsimp only
  rw [hf, hr, hn, if_neg (by simp [hp, ht])]
  rfl

/-- A layer whose TIMEOUT has run out stops with every member of its group. -/
def timedOut (q d : Nat) (x : Desc) (m : Mach) : Mach :=
  let g := groupOf m q d
  if x.timeoutAct then stopLayer q d stTimeoutKilled (m.cores.filter fun k => k.tc.any fun u => g.contains (u.q, u.desc)).length true (officeDrop q d m)
  else
    let n := unissued m g
    let m := stopLayer q d stTimeoutDrained n false (officeDrop q d m)
    killTiles (fun u => g.contains (u.q, u.desc) && m.cores.any fun k => k.halts != [] && k.tc == some u) stTimeoutDrained n m

theorem queueTimeout_layer {q d t0 : Nat} {m : Mach} {x : Desc} (hx : descGet m q d = some x) (hp : x.phase ≠ 4) (h0 : x.phase ≠ 0) (ht : x.timeout ≠ 0)
    (hn : timeoutAt x ≤ max m.now t0) (hr : x.isRun = true) (hf : firstOut m q d x = true) : queueTimeout q d t0 m = timedOut q d x (tickTo t0 m) := by
  have hf : firstOut (tickTo t0 m) q d x = true := hf
  have hn : decide ((tickTo t0 m).now < timeoutAt x) = false := decide_eq_false (Nat.not_lt.2 hn)
  unfold queueTimeout
  dsimp only
  rw [show descGet (tickTo t0 m) q d = some x from hx]
  dsimp only
  rw [hf, hr, hn, if_neg (by simp [hp, h0, ht])]
  rfl

theorem timedOut_ends {q d : Nat} (x : Desc) {m : Mach} {p : Nat × Nat} (hp : p ∈ groupOf m q d) {y : Desc} (hy : descGet m p.1 p.2 = some y) : Ended p.1 p.2 (timedOut q d x m) := by
  unfold timedOut
  dsimp only
  split
  · exact ended_stopMembers (m := officeDrop q d m) hp hy _ _ _
  · exact (ended_stopMembers (m := officeDrop q d m) hp hy _ _ _).of_all (allEnd_killTiles _ _ _ _)

theorem timedOut_none {q d : Nat} {x : Desc} {m : Mach} (h : x.timeoutAct = true) {y : Core} (hy : y ∈ (timedOut q d x m).cores) {u : TileCmd} (hu : y.tc = some u) :
    (u.q, u.desc) ∉ groupOf m q d := by
  unfold timedOut at hy
  dsimp only at hy
  rw [if_pos h] at hy
  exact stopMembers_none (m := officeDrop q d m) hy hu

/-! ### Runaways (R302) -/

/-- The test of the one tile-command that ends. -/
def sameTile (t u : TileCmd) : Bool := u.q == t.q && u.desc == t.desc && u.tile == t.tile && u.alt == t.alt

theorem endTile_eq {k : Nat} {m : Mach} {x : Core} {u : TileCmd} (hx : m.cores[k]? = some x) (hu : x.tc = some u) (st de : Nat) :
    endTile k st de m = killTiles (sameTile u) st de (stopMembers (if u.alt then [(u.q, u.desc)] else groupOf m u.q u.desc) st de false m) := by
  unfold endTile
  rw [hx, Option.bind_some, hu]
  rfl

theorem endTile_core {k : Nat} {m : Mach} {x : Core} {u : TileCmd} (hx : m.cores[k]? = some x) (hu : x.tc = some u) (st de : Nat) :
    ∃ y, (endTile k st de m).cores[k]? = some y ∧ y.tc = none ∧ y.regs.dirty = true ∧ y.regs.kills = (x.regs.kills + 1) % 2 ^ 64 := by
  rw [endTile_eq hx hu]
  exact killTiles_kills (by rw [cores_stopMembers_runs]; exact hx) hu (by simp [sameTile])

theorem endTile_ends {k : Nat} {m : Mach} {x : Core} {u : TileCmd} (hx : m.cores[k]? = some x) (hu : x.tc = some u) {z : Desc} (hz : descGet m u.q u.desc = some z) (st de : Nat) :
    Ended u.q u.desc (endTile k st de m) := by
  rw [endTile_eq hx hu]
  refine Ended.of_all (ended_stopMembers (p := (u.q, u.desc)) ?_ hz st de false) (allEnd_killTiles _ _ _ _)
  split
  · exact List.mem_singleton.2 rfl
  · exact mem_groupOf ..

end Sys2Proof.Machine
end

section
/-! SUPPORT. Descriptors that publish, wait or time out: O52 (R156 to R158, R262, R301, R302). -/

namespace Sys2Proof.Machine
open Sys2Proof

/-! ### The tail of a ring -/

/-- A queue's tail and the size of its ring. -/
def ringOf (q : Nat) (m : Mach) : Option (Nat × Nat) := (ctxOf q m).map fun x => (x.tail, x.ringLog2)

theorem ringOf_of_queues {m n : Mach} (h : n.queues = m.queues) (q : Nat) : ringOf q n = ringOf q m := by unfold ringOf ctxOf qGet; rw [h]

theorem ringOf_of_unread {m n : Mach} (h : n.unread = m.unread) (q : Nat) : ringOf q n = ringOf q m := ringOf_of_queues (view_of_unread Mach.queues (fun _ => rfl) h) q

theorem ringOf_post (c : Cfg) (code : Nat) (ws : List Nat) (q : Nat) (m : Mach) : ringOf q (post c code ws m) = ringOf q m := ringOf_of_queues (post_view Mach.queues (fun _ => rfl) ..) q

theorem ringOf_qUpd {f : Queue → Queue} (hf : ∀ y, ((f y).ctx.tail, (f y).ctx.ringLog2) = (y.ctx.tail, y.ctx.ringLog2)) (r q : Nat) (m : Mach) : ringOf q (qUpd r f m) = ringOf q m := by
  unfold ringOf ctxOf
  by_cases h : q = r
  · subst h
    rw [qGet_qUpd]
    cases qGet m q with
    | none => rfl
    | some y => exact congrArg some (hf y)
  · rw [qGet_qUpd_ne h]

theorem ringOf_killOne (r st de q : Nat) (m : Mach) : ringOf q (killOne r st de m) = ringOf q m := by
  unfold ringOf
  rw [ctxOf_killOne]
  cases ctxOf q m with
  | none => rfl
  | some x =>
    rw [Option.map_some, Option.map_some, Option.map_some]
    split <;> rfl

theorem ringOf_integrityKill (c : Cfg) (r pa q : Nat) (m : Mach) : ringOf q (integrityKill c r pa m) = ringOf q m :=
  (ringOf_post ..).trans (foldl_keeps (ringOf q) _ (fun _ _ => ringOf_killOne ..) _ m)

theorem ringOf_killQueue (c : Cfg) (r st de va q : Nat) (m : Mach) : ringOf q (killQueue c r st de va m) = ringOf q m :=
  foldl_keeps (ringOf q) _ (fun _ _ => (ringOf_post ..).trans (ringOf_killOne ..)) _ m

theorem ringOf_faultQueue (c : Cfg) (r st line va q : Nat) (m : Mach) : ringOf q (faultQueue c r st line va m) = ringOf q m := by
  unfold faultQueue
  dsimp only
  split
  · exact (ringOf_post ..).trans (ringOf_killQueue ..)
  · exact ringOf_killQueue ..

theorem ringOf_heldWrite (c : Cfg) (who r d desc : Nat) (hs : List Held) (va : Nat) (l : List Byte) (q : Nat) (m : Mach) :
    ringOf q (heldWrite c who r d desc hs va l m).1 = ringOf q m := by
  have hw (a : Nat) : ringOf q (awaitLines r desc a l.length m) = ringOf q m := by
    unfold awaitLines
    split
    · rfl
    · exact ringOf_qUpd (by intro y; rfl) r q m
  unfold heldWrite heldPut
  split
  · rfl
  · split
    · exact ringOf_killQueue ..
    · split
      · exact ringOf_faultQueue ..
      · dsimp only
        split
        · split <;> rfl
        · split
          · rfl
          · split
            · exact ringOf_faultQueue ..
            · exact ringOf_integrityKill ..
            · exact (ringOf_of_unread ((unread_outsideReqs ..).trans (unread_engPut ..)) q).trans (hw _)

/-- The load of a context, whatever comes of it. -/
theorem loadQueue_keeps {α : Type} (g : Mach → α) (hu : ∀ {m n : Mach}, n.unread = m.unread → g n = g m) (hk : ∀ q st de m, g (killOne q st de m) = g m)
    (c : Cfg) (r : Nat) (m : Mach) : g (loadQueue c r m) = g m := by
  have asked (b : Bool) (a n : Nat) (m : Mach) : g (if b then m else outsideReqs c 32 0 r false a n m) = g m := by
    cases b
    · exact hu (unread_outsideReqs ..)
    · rfl
  have hpost (code : Nat) (ws : List Nat) (m : Mach) : g (post c code ws m) = g m := hu (unread_of_still (still_post ..))
  unfold loadQueue
  cases qGet m r with
  | none => rfl
  | some y =>
    rw [Option.map_some, Option.getD_some]
    unfold loadCtx
    dsimp only
    split
    · exact (hpost ..).trans (foldl_keeps g _ (fun _ _ => hk ..) _ m)
    · split
      · exact (hpost ..).trans (foldl_keeps g _ (fun _ _ => hk ..) _ m)
      · exact (hu ((unread_ctxTouch ..).trans (unread_domTouch ..))).trans ((asked ..).trans (asked ..))

theorem ringOf_loadQueue (c : Cfg) (r q : Nat) (m : Mach) : ringOf q (loadQueue c r m) = ringOf q m :=
  loadQueue_keeps (ringOf q) (fun h => ringOf_of_unread h q) (fun _ _ _ _ => ringOf_killOne ..) c r m

theorem qDom_eq (q : Nat) (m : Mach) : qDom m q = ((ctxOf q m).map (·.dom)).getD 0 := by
  unfold qDom ctxOf
  rw [Option.map_map]
  rfl

theorem qDom_loadQueue (c : Cfg) (r q : Nat) (m : Mach) : qDom (loadQueue c r m) q = qDom m q := by
  refine loadQueue_keeps (fun m => qDom m q) (fun h => ?_) (fun r st de m => ?_) c r m
  · unfold qDom
    rw [qGet_congr h]
  · rw [qDom_eq, qDom_eq, ctxOf_killOne]
    cases ctxOf q m with
    | none => rfl
    | some x =>
      rw [Option.map_some, Option.map_some, Option.map_some]
      split <;> rfl

theorem ground_loadQueue (c : Cfg) (r : Nat) (m : Mach) : (loadQueue c r m).ground = m.ground :=
  loadQueue_keeps Mach.ground ground_of_unread (fun _ _ _ _ => ground_killOne ..) c r m

theorem ringOf_setRecord (r d st de q : Nat) (m : Mach) : ringOf q (setRecord r d st de m) = ringOf q m := by
  unfold setRecord
  split
  · rfl
  · exact (ringOf_of_queues (queues_collect ..) q).trans (ringOf_qUpd (by intro y; rfl) r q m)

theorem ringOf_complete (r d st de q : Nat) (m : Mach) : ringOf q (complete r d st de m) = ringOf q m := by
  refine complete_keeps (ringOf q) (fun _ _ => ringOf_setRecord ..) (fun m => ?_) d m
  refine ringOf_qUpd (fun y => ?_) r q m
  dsimp only
  split <;> rfl

/-! ### Publication (R156 to R158) -/

/-- The pages of a published descriptor, written one by one while every write before went well. -/
def putPages (c : Cfg) (q d : Nat) (hs : List Held) (ps : List (Nat × List Byte)) (m : Mach) : Mach × Fe Unit :=
  ps.foldl (fun (r : Mach × Fe Unit) p => match r with | (m, .ok _) => heldWrite c 32 q d (2 ^ 32) hs p.1 p.2 m | r => r) (m, .ok ())

theorem putPages_view {α : Type} (g : Mach → α) {c : Cfg} {q d : Nat} {hs : List Held} (hg : ∀ va l m, g (heldWrite c 32 q d (2 ^ 32) hs va l m).1 = g m) (ps : List (Nat × List Byte))
    (m : Mach) : g (putPages c q d hs ps m).1 = g m := by
  refine foldl_keeps (fun r : Mach × Fe Unit => g r.1) _ (fun r p => ?_) ps (m, .ok ())
  split
  · exact hg ..
  · rfl

/-- A queue whose TAIL passes the entries of a reservation, which is taken back; `s` is the size of its ring. -/
def pastTail (e : EnqRec) (s : Nat) (z : Queue) : Queue :=
  { z with reserved := z.reserved.erase (e.entry, e.n), ctx := { z.ctx with tail := (z.ctx.tail + e.n) % (2 * s) } }

theorem ground_wake (q : Nat) (m : Mach) : (wake q m).ground = m.ground := by
  unfold wake
  split
  · split
    · exact ground_ctxUpd ..
    · rfl
  · rfl

/-- A descriptor that is published moves its target's TAIL past it. -/
theorem publishOne_moves {c : Cfg} {e : EnqRec} {m m1 : Mach} (h : publishOne c e m = (m1, .ok ())) :
    m1.ground = m.ground ∧ ∃ t n, ringOf e.q m = some (t, n) ∧ ringOf e.q m1 = some ((t + e.n) % (2 * 2 ^ n), n) := by
  have hg0 := ground_loadQueue c e.q m
  have hr0 := ringOf_loadQueue c e.q e.q m
  unfold publishOne at h
  dsimp only at h
  generalize loadQueue c e.q m = m0 at h hg0 hr0
  split at h
  · cases h
  · rename_i y hy
    have hring : ringOf e.q m0 = some (y.ctx.tail, y.ctx.ringLog2) := by unfold ringOf ctxOf; rw [hy]; rfl
    generalize (List.range e.n).map (fun i => y.ctx.ringBase + 128 * ((y.ctx.tail + i) % 2 ^ y.ctx.ringLog2)) = vas at h
    split at h
    · rename_i n hs hh
      have hg1 := ground_holdAll c e.q y.ctx.dom (vas.map fun v => (v, Acc.write)) m0
      rw [hh] at hg1
      have hr1 := ringOf_of_unread (unread_holdAll hh) e.q
      have hg2 := putPages_view Mach.ground (hs := hs) (fun va l m => ground_heldWrite c 32 e.q y.ctx.dom (2 ^ 32) hs va l m) (vas.zip (chunks 128 (e.bytes.getD []))) n
      have hr2 := putPages_view (ringOf e.q) (hs := hs) (fun va l m => ringOf_heldWrite c 32 e.q y.ctx.dom (2 ^ 32) hs va l e.q m) (vas.zip (chunks 128 (e.bytes.getD []))) n
      have h : (match putPages c e.q y.ctx.dom hs (vas.zip (chunks 128 (e.bytes.getD []))) n with
        | (m, .ok _) => (wake e.q (qUpd e.q (pastTail e (2 ^ y.ctx.ringLog2)) m), .ok ())
        | r => r) = (m1, .ok ()) := h
      split at h
      · rename_i m2 _ hp
        rw [hp] at hg2 hr2
        have hring2 := hr2.trans (hr1.trans hring)
        cases h
        obtain ⟨z, hz, hzr⟩ : ∃ z, qGet m2 e.q = some z ∧ (z.ctx.tail, z.ctx.ringLog2) = (y.ctx.tail, y.ctx.ringLog2) := by
          unfold ringOf ctxOf at hring2
          rw [Option.map_map] at hring2
          exact Option.map_eq_some_iff.1 hring2
        refine ⟨?_, y.ctx.tail, y.ctx.ringLog2, hr0.symm.trans hring, ?_⟩
        · exact (ground_wake ..).trans ((ground_qUpd (by intro z; rfl) e.q m2).trans (hg2.trans (hg1.trans hg0)))
        · have hu : qGet (qUpd e.q (pastTail e (2 ^ y.ctx.ringLog2)) m2) e.q = some (pastTail e (2 ^ y.ctx.ringLog2) z) := by rw [qGet_qUpd, hz]; rfl
          obtain ⟨st, hst⟩ := qGet_wake hu
          unfold ringOf ctxOf
          rw [hst]
          obtain ⟨ht, hn⟩ := Prod.ext_iff.1 hzr
          exact congrArg some (Prod.ext (congrArg (fun t => (t + e.n) % (2 * 2 ^ y.ctx.ringLog2)) ht) hn)
      · rename_i hne
        exact absurd h (hne m1 ())
    all_goals cases h

/-! ### FENCE and ENQUEUE-TARGET (R262) -/

theorem fence_plain {q d : Nat} {m : Mach} {x : Desc} (hx : descGet m q d = some x) (ht : x.type = 3) (hb : mayBegin m q d x = true) (hw : leAt x.bytes 8 4 < 2 ^ 31) :
    fenceDesc q d m = complete q d stOk 0 m := by
  unfold fenceDesc
  rw [hx]
  dsimp only
  rw [hb, if_neg (by simp [ht]), if_pos hw]

theorem fence_counts {q d : Nat} {m : Mach} {x : Desc} {y : Queue} (hx : descGet m q d = some x) (ht : x.type = 3) (hb : mayBegin m q d x = true) (hw : 2 ^ 31 ≤ leAt x.bytes 8 4)
    (hy : qGet m (leAt x.bytes 8 4 % 2 ^ 20) = some y) (hd : y.ctx.dom = qDom m q) : fenceDesc q d m = if leAt x.bytes 0x10 8 ≤ y.jobs then complete q d stOk 0 m else m := by
  unfold fenceDesc
  rw [hx]
  dsimp only
  rw [hb, if_neg (by simp [ht]), if_neg (Nat.not_lt.2 hw), hy]
  dsimp only
  rw [if_neg (Classical.not_not.2 hd)]

theorem enqTarget_publishes {q d : Nat} {c : Cfg} {m m0 m1 : Mach} {x : Desc} {y : Queue} (hx : descGet m q d = some x) (ht : x.type = 4) (hb : mayBegin m q d x = true)
    (hd : qDom m (leAt x.bytes 8 4) = qDom m q) (h0 : m0 = loadQueue c (leAt x.bytes 8 4) m) (hf : forwardBad y.ctx.path ((x.bytes.drop 0x80).take 128) = none)
    (hok : targetOk m0 (qDom m q) (leAt x.bytes 8 4) = true) (hy : qGet m0 (leAt x.bytes 8 4) = some y) (hr : 1 ≤ ringFree y)
    (hp : publishOne c ⟨leAt x.bytes 8 4, 0, 1, 0, 0, some ((x.bytes.drop 0x80).take 128), false⟩ m0 = (m1, .ok ())) : enqTarget q d c m = complete q d stOk 0 m1 := by
  have hq : qDom m0 q = qDom m q := by rw [h0]; exact qDom_loadQueue ..
  unfold enqTarget
  rw [hx]
  dsimp only
  rw [hb, if_neg (by simp [ht]), if_pos hd, ← h0, hy, Option.map_some, Option.getD_some, hf]
  dsimp only
  rw [hq, hok]
  rw [if_neg (by decide), if_neg (Nat.not_lt.2 hr), hp]

/-- Settles O52: an outcome reaches every member it names, and a kill clears every core it names. -/
theorem timeoutsAndSmallDescriptors : Obligations.TimeoutsAndSmallDescriptors := by
  unfold Obligations.TimeoutsAndSmallDescriptors
  refine ⟨fun s q d t0 x hl hx hp ht hn hr hf => Runs.ofM rfl hl ?_, fun s q d t0 x hl hx hp h0 ht hn hr hf => Runs.ofM rfl hl ?_, fun s k t0 x u hl hx hu hn => Runs.ofM rfl hl ?_,
    fun s q d x hl hx ht hb hw => Runs.ofM rfl hl ?_, fun s q d x y hl hx ht hb hw hy hd => Runs.ofM rfl hl ?_,
    fun s q d x y m0 m1 hl hx ht hb hd h0 hf hok hy hr hp => Runs.ofM rfl hl ?_⟩ <;> dsimp only [State.m]
  · rw [queueTimeout_small (m := s.q) hx hp ht hn hr hf]
    refine ⟨⟨_, descGet_complete (m := officeDrop q d (tickTo t0 s.q)) hx _ _, rfl, rfl⟩, fun o ho hq => ?_⟩
    rw [complete_view Mach.depot (fun _ _ => rfl) (fun _ _ => rfl) fun _ _ => rfl] at ho
    exact absurd (List.mem_filter.1 ho).2 (by simp [hq])
  · rw [queueTimeout_layer (m := s.q) hx hp h0 ht hn hr hf]
    exact ⟨fun p hp y hy => timedOut_ends x (m := tickTo t0 s.q) hp hy, fun ha y hy u hu => timedOut_none (m := tickTo t0 s.q) ha hy hu⟩
  · have he : runaway k t0 s.q = endTile k stRunaway k (settleTime k (tickTo t0 s.q)) := by
      unfold runaway
      dsimp only
      rw [hx, Option.bind_some, hu]
      exact if_pos hn
    rw [he]
    exact ⟨endTile_core hx hu _ _, fun z hz => endTile_ends hx hu (m := settleTime k (tickTo t0 s.q)) hz _ _⟩
  · rw [fence_plain hx ht hb hw]
    exact ⟨_, descGet_complete hx _ _, rfl⟩
  · rw [fence_counts hx ht hb hw hy hd]
    refine ⟨fun h => ?_, fun h => if_neg (Nat.not_le.2 h)⟩
    rw [if_pos h]
    exact ⟨_, descGet_complete hx _ _, rfl⟩
  · rw [enqTarget_publishes (m := s.q) hx ht hb hd h0 hf hok hy hr hp]
    obtain ⟨hg, t, n, hring, hring'⟩ := publishOne_moves hp
    have hg0 : m0.ground = s.q.ground := by rw [h0]; exact ground_loadQueue ..
    obtain ⟨x', hx', -⟩ := descGet_of_ground (hg.trans hg0) hx
    refine ⟨⟨_, descGet_complete hx' _ _, rfl⟩, ?_⟩
    have hy0 : ringOf (leAt x.bytes 8 4) m0 = some (y.ctx.tail, y.ctx.ringLog2) := by unfold ringOf ctxOf; rw [hy]; rfl
    obtain ⟨rfl, rfl⟩ := Prod.ext_iff.1 (Option.some.inj (hring.symm.trans hy0))
    have hfin := (ringOf_complete q d stOk 0 (leAt x.bytes 8 4) m1).trans hring'
    unfold ringOf ctxOf at hfin
    rw [Option.map_map] at hfin
    obtain ⟨z, hz, hzr⟩ := Option.map_eq_some_iff.1 hfin
    exact ⟨z, hz, (Prod.ext_iff.1 hzr).1⟩

end Sys2Proof.Machine
end

section
/-! SUPPORT. Tile-commands that drain: the first part of O50 (R13, R94, R95, R239 to R241). -/

namespace Sys2Proof.Machine
open Sys2Proof

/-! ### What the end of a run changes -/

theorem cores_unreserve (es : List EnqRec) (m : Mach) : (unreserve es m).cores = m.cores := foldl_keeps Mach.cores _ (by intro m e; rfl) es m

theorem descGet_unreserve (es : List EnqRec) (q d : Nat) (m : Mach) : descGet (unreserve es m) q d = descGet m q d := by
  refine foldl_keeps (fun m => descGet m q d) _ (fun m e => ?_) es m
  by_cases h : q = e.q
  · rw [h]
    exact descGet_qUpd (g := id) (by intro y; rfl) rfl
  · unfold descGet
    rw [qGet_qUpd_ne h]

theorem cores_workDone (q d : Nat) (m : Mach) : (workDone q d m).cores = m.cores := by
  unfold workDone
  dsimp only
  split
  · exact foldl_keeps Mach.cores _ (by intro m p; rfl) _ m
  · rfl

/-- The end of a layer's work changes phases alone. -/
theorem descGet_workDone {q d r e : Nat} {m : Mach} {w : Desc} (h : descGet m r e = some w) : ∃ p, descGet (workDone q d m) r e = some { w with phase := p } := by
  have hstep (n : Mach) (p : Nat × Nat) : (∃ a, descGet n r e = some { w with phase := a }) →
      ∃ a, descGet (descUpd p.1 p.2 (fun z => if z.phase = 2 then { z with phase := 3 } else z) n) r e = some { w with phase := a } := by
    rintro ⟨a, ha⟩
    by_cases hp : r = p.1 ∧ e = p.2
    · obtain ⟨rfl, rfl⟩ := hp
      rw [descGet_descUpd, ha, Option.map_some]
      split
      · exact ⟨3, rfl⟩
      · exact ⟨a, rfl⟩
    · exact ⟨a, (descGet_descUpd_ne (by omega) _ n).trans ha⟩
  have hfold (l : List (Nat × Nat)) : ∀ n, (∃ a, descGet n r e = some { w with phase := a }) →
      ∃ a, descGet (l.foldl (fun m p => descUpd p.1 p.2 (fun z => if z.phase = 2 then { z with phase := 3 } else z) m) n) r e = some { w with phase := a } := by
    induction l with
    | nil => exact fun _ h => h
    | cons p l ih => exact fun n h => ih _ (hstep n p h)
  unfold workDone
  dsimp only
  split
  · exact hfold _ m ⟨w.phase, h⟩
  · exact ⟨w.phase, h⟩

theorem descGet_settled {q d : Nat} {m : Mach} {w : Desc} (h : descGet m q d = some w) : ∃ p, descGet (settle m) q d = some { w with phase := p } := by
  rw [descGet_settle, h, Option.map_some]
  unfold settled
  split
  · exact ⟨3, rfl⟩
  · exact ⟨w.phase, rfl⟩

/-- What the end of a run leaves of a descriptor, and of the cores. -/
theorem runEnds {q d : Nat} {m : Mach} {w : Desc} (h : descGet m q d = some w) :
    (∃ p, descGet (settle (workDone q d m)) q d = some { w with phase := p }) ∧ (settle (workDone q d m)).cores = m.cores := by
  obtain ⟨p, hp⟩ := descGet_workDone (q := q) (d := d) h
  obtain ⟨p', hp'⟩ := descGet_settled hp
  exact ⟨⟨p', hp'⟩, cores_workDone ..⟩

/-! ### A tile-command that has drained -/

/-- The descriptors a tile-command entered keep what it published. -/
def keepEnqs (es : List EnqRec) (z : Desc) : Desc := { z with running := z.running - 1, enqs := z.enqs ++ es }

/-- The monitor of a re-runnable layer has passed its threshold (R241). -/
def passed (m : Mach) (z : Desc) : Bool := !z.alt && !z.cancelled && decide (z.threshold < z.monitor) && (layerRec m z).any lrRerun

/-- The block once a core has been cleared behind its tile-command, and its counts have entered the layer. -/
def drainedCore (k : Nat) (x : Core) (u : TileCmd) (m : Mach) : Mach :=
  descUpd u.q u.desc (addDrain k m.tick.count x u) (busyAdd k (some x.regs.dom) u.issued { m with cores := lset m.cores k (coreAfter m x u) })

/-- The layer goes on, or turns to its alternate. -/
def drainedRun (x : Core) (u : TileCmd) (z : Desc) (m : Mach) : Mach :=
  let es := x.enqs.map fun e => { e with half := u.tile }
  let n := descUpd u.q u.desc (keepEnqs es) m
  if passed n z then descUpd u.q u.desc (toAlternate z.next) (unreserve (z.enqs ++ es) n) else n

section
variable {k : Nat} {m : Mach} {x : Core} {u : TileCmd} {z : Desc} (hx : m.cores[k]? = some x) (hu : x.tc = some u) (hd : hasDrained m k x u = true)
  (hz : descGet m u.q u.desc = some z) (hg : groupOf m u.q u.desc = [(u.q, u.desc)]) (ha : u.alt = false) (hza : z.alt = false)

theorem addDrain_alt (t : Nat) : (addDrain k t x u z).alt = z.alt := by unfold addDrain; dsimp only; split <;> rfl

include hz in
theorem descGet_drainedCore : descGet (drainedCore k x u m) u.q u.desc = some (addDrain k m.tick.count x u z) := by
  unfold drainedCore
  rw [descGet_descUpd]
  exact congrArg (Option.map _) hz

include hx hu hd hz hg ha hza in
theorem tileDrain_eq {t0 : Nat} {n : Mach} (hm : tickTo t0 n = m) :
    tileDrain k t0 n = settle (workDone u.q u.desc (drainedRun x u (addDrain k m.tick.count x u z) (drainedCore k x u m))) := by
  have halt : (addDrain k m.tick.count x u z).alt = false := (addDrain_alt ..).trans hza
  unfold tileDrain
  dsimp only
  rw [hm, hx]
  dsimp only
  rw [hu]
  dsimp only
  rw [hd, if_neg (by decide), ha, if_neg (by decide), hg, List.foldl_cons, List.foldl_nil]
  have hc : descUpd u.q u.desc (addDrain k (busyAdd k (some x.regs.dom) u.issued { m with cores := lset m.cores k (coreAfter m x u) }).tick.count x u)
      (busyAdd k (some x.regs.dom) u.issued { m with cores := lset m.cores k (coreAfter m x u) }) = drainedCore k x u m := rfl
  rw [hc, descGet_drainedCore hz]
  unfold drainedRun passed keepEnqs
  simp only [halt, Bool.false_and, Bool.not_false, Bool.true_and, if_neg Bool.false_ne_true, List.foldl_cons, List.foldl_nil]

include hx in
theorem cores_drainedCore : (drainedCore k x u m).cores[k]? = some (coreAfter m x u) ∧ ∀ j, j ≠ k → (drainedCore k x u m).cores[j]? = m.cores[j]? :=
  ⟨set_get hx _, fun _ hj => set_get_ne hj _⟩

end

theorem cores_drainedRun (x : Core) (u : TileCmd) (z : Desc) (m : Mach) : (drainedRun x u z m).cores = m.cores := by
  unfold drainedRun
  dsimp only
  split
  · exact cores_unreserve ..
  · rfl

/-- What the layer holds once its tile-command has drained. -/
theorem descGet_drainedRun {x : Core} {u : TileCmd} {z : Desc} {m : Mach} (hz : descGet m u.q u.desc = some z) :
    descGet (drainedRun x u z m) u.q u.desc
      = some (if passed m z then toAlternate z.next (keepEnqs (x.enqs.map fun e => { e with half := u.tile }) z) else keepEnqs (x.enqs.map fun e => { e with half := u.tile }) z) := by
  have hk : descGet (descUpd u.q u.desc (keepEnqs (x.enqs.map fun e => { e with half := u.tile })) m) u.q u.desc
      = some (keepEnqs (x.enqs.map fun e => { e with half := u.tile }) z) := by rw [descGet_descUpd, hz]; rfl
  unfold drainedRun
  dsimp only
  rw [show passed (descUpd u.q u.desc (keepEnqs (x.enqs.map fun e => { e with half := u.tile })) m) z = passed m z from rfl]
  split
  · rw [descGet_descUpd, descGet_unreserve, hk]
    rfl
  · exact hk

/-- What a drain enters into the layer. -/
theorem addDrain_fields (k t : Nat) (x : Core) (u : TileCmd) (z : Desc) :
    (addDrain k t x u z).running = z.running ∧ (addDrain k t x u z).drainTick = some t ∧ (addDrain k t x u z).drainCore = some k
      ∧ (addDrain k t x u z).monitor = min (z.monitor + x.clip) (2 ^ 32 - 1) ∧ (addDrain k t x u z).cancelled = z.cancelled ∧ (addDrain k t x u z).threshold = z.threshold
      ∧ (addDrain k t x u z).next = z.next ∧ (addDrain k t x u z).bytes = z.bytes := by
  unfold addDrain
  dsimp only
  split <;> exact ⟨rfl, rfl, rfl, rfl, rfl, rfl, rfl, rfl⟩

/-- A tile-command that has drained (R13, R94, R95, R239, R241). -/
theorem drain_runs {s : State} {k t0 : Nat} {x : Core} {u : TileCmd} {z : Desc} (hl : live s = true) (hx : s.m.cores[k]? = some x) (hu : x.tc = some u)
    (hd : hasDrained s.m k x u = true) (hz : descGet s.q u.q u.desc = some z) (hg : groupOf s.m u.q u.desc = [(u.q, u.desc)]) (ha : u.alt = false) (hza : z.alt = false) :
    Runs (.tileCommandDrain k t0) s fun t => (∃ y, t.m.cores[k]? = some y ∧ y = { coreClear y.regs with icache := x.icache, tlb := x.tlb, front := x.front })
      ∧ (∀ j, j ≠ k → t.m.cores[j]? = s.m.cores[j]?)
      ∧ ∃ w, descGet t.m u.q u.desc = some w ∧ w.running = z.running - 1 ∧ w.drainTick = some s.m.tick.count ∧ w.drainCore = some k ∧ w.monitor = min (z.monitor + x.clip) (2 ^ 32 - 1)
        ∧ w.alt = (!z.cancelled && decide (z.threshold < min (z.monitor + x.clip) (2 ^ 32 - 1)) && (layerRec s.m z).any lrRerun)
        ∧ (w.alt = true → w.narrow = z.next ∧ w.trigger = w.monitor ∧ w.maxv = none ∧ w.enqs = []) := by
  have heq := tileDrain_eq (m := tickTo t0 s.q) (t0 := t0) (n := s.q) hx hu hd hz hg ha hza rfl
  have hzd := descGet_drainedCore (k := k) (m := tickTo t0 s.q) (x := x) (u := u) hz
  obtain ⟨hk, hne⟩ := cores_drainedCore (m := tickTo t0 s.q) (u := u) hx
  obtain ⟨⟨p, hp⟩, hc⟩ := runEnds (descGet_drainedRun (x := x) hzd)
  rw [cores_drainedRun] at hc
  obtain ⟨hrun, htick, hcore, hmon, hcan, hthr, hnext, hbytes⟩ := addDrain_fields k (tickTo t0 s.q).tick.count x u z
  have hpass : passed (drainedCore k x u (tickTo t0 s.q)) (addDrain k (tickTo t0 s.q).tick.count x u z)
      = (!z.cancelled && decide (z.threshold < min (z.monitor + x.clip) (2 ^ 32 - 1)) && (layerRec s.m z).any lrRerun) := by
    unfold passed
    rw [addDrain_alt, hza, hcan, hthr, hmon, Bool.not_false, Bool.true_and]
    unfold layerRec Desc.parcel Desc.layer
    rw [hbytes]
    rfl
  refine Runs.ofM rfl hl ?_
  dsimp only [State.m]
  rw [heq, hc, hp]
  refine ⟨⟨_, hk, rfl⟩, hne, _, rfl, ?_⟩
  rw [hpass]
  cases hb : (!z.cancelled && decide (z.threshold < min (z.monitor + x.clip) (2 ^ 32 - 1)) && (layerRec s.m z).any lrRerun)
  · exact ⟨congrArg (· - 1) hrun, htick, hcore, hmon, (addDrain_alt ..).trans hza, fun h => absurd (((addDrain_alt ..).trans hza).symm.trans h) (by decide)⟩
  · exact ⟨congrArg (· - 1) hrun, htick, hcore, hmon, rfl, fun _ => ⟨hnext, rfl, rfl, rfl⟩⟩

end Sys2Proof.Machine
end

section
/-! SUPPORT. Layers that complete: the second part of O50 (R158, R201, R237, R240, R269, R290, R470). -/

namespace Sys2Proof.Machine
open Sys2Proof

/-! ### The last acts of a layer (R201, R269, R290) -/

/-- A layer's last acts decide its record, and release what it held. -/
structure LayerEnds (q d : Nat) (x : Desc) (m n : Mach) : Prop where
  layers : mget n.depot.layers (layerKey q d) = none
  mem : n.mem = m.mem
  record : ∃ z, descGet n q d = some z ∧ z.phase = 4 ∧ z.record = some (finalStatus x) ∧ z.owed = 0 ∧ z.tick = x.drainTick.getD m.tick.count

theorem layerEnd_ends {q d : Nat} {m : Mach} {x : Desc} (hx : descGet m q d = some x) : LayerEnds q d x m (layerEnd q d m) := by
  have he : layerEnd q d m = complete q d (finalStatus x).1 (finalStatus x).2 (layerFree q d (descUpd q d (fun z => { z with owed := 0 }) (lessOwed q x.owed m))) := by
    unfold layerEnd
    rw [hx]
  have hv {α : Type} (g : Mach → α) (hq : ∀ m k, g { m with queues := k } = g m) (hs : ∀ m k, g { m with sched := k } = g m) (hl : ∀ m k, g { m with ledger := k } = g m) :=
    complete_view g hq hs hl q d (finalStatus x).1 (finalStatus x).2 (layerFree q d (descUpd q d (fun z => { z with owed := 0 }) (lessOwed q x.owed m)))
  have hx' : descGet (layerFree q d (descUpd q d (fun z => { z with owed := 0 }) (lessOwed q x.owed m))) q d = some { x with owed := 0 } := by
    have h : descGet (descUpd q d (fun z => { z with owed := 0 }) (lessOwed q x.owed m)) q d = some { x with owed := 0 } := by
      rw [descGet_descUpd, show descGet (lessOwed q x.owed m) q d = some x from hx]
      rfl
    exact h
  rw [he]
  refine ⟨?_, hv Mach.mem (fun _ _ => rfl) (fun _ _ => rfl) fun _ _ => rfl, _, descGet_complete hx' _ _, rfl, rfl, rfl, rfl⟩
  rw [hv Mach.depot (fun _ _ => rfl) (fun _ _ => rfl) fun _ _ => rfl]
  exact mget_mdel ..

/-! ### A descriptor that is no RUN -/

theorem layerComplete_small {q d t0 : Nat} {c : Cfg} {m : Mach} {x : Desc} (hx : descGet m q d = some x) (hp : x.phase = 3) (hr : x.running = 0) (hf : leadFirst m q d x = false)
    (hn : x.isRun = false) : layerComplete q d t0 c m = complete q d (finalStatus x).1 (finalStatus x).2 (officeDrop q d (tickTo t0 m)) := by
  have hf : leadFirst (tickTo t0 m) q d x = false := hf
  unfold layerComplete
  dsimp only
  rw [show descGet (tickTo t0 m) q d = some x from hx]
  dsimp only
  rw [hf, hn, if_neg (by simp [hp, hr])]
  rfl

/-! ### A RUN with nothing to publish -/

/-- The layer, once it has nothing to publish. -/
def toPublish (x : Desc) : Desc := if goesPublic x then { x with publish := true } else { x with enqs := [] }

/-- The block, once the layer has nothing to publish (R158). -/
def publishedAll (q d : Nat) (x : Desc) (m : Mach) : Mach :=
  descUpd q d (fun z => if goesPublic x then { z with publish := true } else { z with enqs := [] }) m

/-- What follows the publication: the scatter of a pool, the flush of what was written, the history records, the record (R230, R237, R331). -/
def afterPublication (c : Cfg) (q d : Nat) (x : Desc) (m : Mach) : Mach :=
  let us := if (finalStatus x).1 = stOk || (finalStatus x).1 = stOkRerun then ((histBinds x.bytes).filter fun h => bits h.2.2 2 1 = 1).map (·.1) else []
  if us ≠ [] && x.flagGlobal && !x.histDone && (unsent m q d || linesOut m x) then m
  else if us ≠ [] && x.flagGlobal && !x.histDone && flushWaits m x then sendFlush q d x m
  else if us ≠ [] && !x.histDone && flushFailed m x then layerEnd q d (reach q d stHostLost m.hp.epoch m)
  else match histories c q d x us m with
  | (m, .ok _) => layerEnd q d m
  | (m, _) => m

section
variable {q d t0 : Nat} {c : Cfg} {m : Mach} {x : Desc} (hx : descGet m q d = some x) (hp : x.phase = 3) (hr : x.running = 0) (hf : leadFirst m q d x = false)
  (hn : x.isRun = true) (he : x.enqs = []) (hg : x.gather = 0 ∨ x.gather = 6)
include hx

theorem descGet_publishedAll : descGet (publishedAll q d x m) q d = some (toPublish x) := by
  unfold publishedAll toPublish
  rw [descGet_descUpd, hx]
  rfl

include hp hr hf hn he hg

theorem layerComplete_published : layerComplete q d t0 c m = afterPublication c q d (toPublish x) (publishedAll q d x (tickTo t0 m)) := by
  have hf : leadFirst (tickTo t0 m) q d x = false := hf
  have hx0 : descGet (tickTo t0 m) q d = some x := hx
  have hpub : (if goesPublic x then publishAll c q d (x.enqs.length + 1) (descUpd q d (fun z => { z with publish := true }) (tickTo t0 m))
      else (descUpd q d (fun z => { z with enqs := [] }) (unreserve x.enqs (tickTo t0 m)), true)) = (publishedAll q d x (tickTo t0 m), true) := by
    unfold publishedAll
    split
    · have h1 : descGet (descUpd q d (fun z => { z with publish := true }) (tickTo t0 m)) q d = some { x with publish := true } := by rw [descGet_descUpd, hx0]; rfl
      unfold publishAll
      rw [h1, Option.map_some, he]
    · rw [he]
      rfl
  have hx1 := descGet_publishedAll hx0
  have hgp : (toPublish x).gather = x.gather := by unfold toPublish; split <;> rfl
  unfold layerComplete
  dsimp only
  rw [hx0]
  dsimp only
  rw [hf, hn, if_neg (by simp [hp, hr]), if_neg (by decide), hpub]
  dsimp only
  rw [hx1]
  dsimp only
  rw [hgp, if_neg (by rcases hg with h | h <;> simp [h])]
  rfl

end

/-- What the publication leaves of a descriptor. -/
theorem toPublish_fields (x : Desc) : finalStatus (toPublish x) = finalStatus x ∧ (toPublish x).bytes = x.bytes ∧ (toPublish x).drainTick = x.drainTick
    ∧ (toPublish x).histDone = x.histDone ∧ (toPublish x).held = x.held ∧ (toPublish x).lines = x.lines ∧ (toPublish x).flushing = x.flushing ∧ (toPublish x).fns = x.fns
    ∧ (toPublish x).maxv = x.maxv ∧ (toPublish x).nan = x.nan := by
  unfold toPublish
  split <;> exact ⟨rfl, rfl, rfl, rfl, rfl, rfl, rfl, rfl, rfl, rfl⟩

/-- With no record to update the layer ends. -/
theorem afterPublication_none {c : Cfg} {q d : Nat} {x : Desc} {m : Mach} (hx : descGet m q d = some x) (hb : ∀ h ∈ histBinds x.bytes, bits h.2.2 2 1 ≠ 1) :
    ∃ n, LayerEnds q d x m n ∧ afterPublication c q d x m = n := by
  have hus : (if (finalStatus x).1 = stOk || (finalStatus x).1 = stOkRerun then ((histBinds x.bytes).filter fun h => bits h.2.2 2 1 = 1).map (·.1) else []) = [] := by
    rw [List.filter_eq_nil_iff.2 fun h hh => by simpa using hb h hh]
    split <;> rfl
  refine ⟨_, ?_, rfl⟩
  unfold afterPublication
  dsimp only
  rw [hus]
  simp only [ne_eq, not_true_eq_false, decide_false, Bool.false_and, if_neg Bool.false_ne_true]
  unfold histories
  cases hd : x.histDone with
  | true =>
    rw [if_pos rfl]
    exact layerEnd_ends hx
  | false =>
    have hh : descGet (descUpd q d (fun z => { z with histDone := true }) m) q d = some { x with histDone := true } := by rw [descGet_descUpd, hx]; rfl
    have h := layerEnd_ends hh
    exact ⟨h.layers, h.mem, h.record⟩

/-! ### A history record that is updated (R237) -/

theorem length_bytesAt {b : List Byte} {o : Nat} {l : List Byte} (h : o + l.length ≤ b.length) : (bytesAt b o l).length = b.length := by
  unfold bytesAt
  simp only [List.length_append, List.length_take, List.length_drop]
  omega

theorem length_recInc {b : List Byte} {o : Nat} (h : o + 4 ≤ b.length) : (recInc o b).length = b.length := length_bytesAt (by rw [toLe_length]; exact h)

/-- An update keeps the length of a record. -/
theorem length_recUpdate {b : List Byte} (h : b.length = 128) (maxv : Option Nat) (nan : Bool) : (recUpdate maxv nan b).length = 128 := by
  have h1 : (if nan then recInc 0x5C b else b).length = 128 := by
    split
    · rw [length_recInc (by omega), h]
    · exact h
  unfold recUpdate
  dsimp only
  generalize (if nan then recInc 0x5C b else b) = b1 at h1 ⊢
  have hlast (b2 : List Byte) (h2 : b2.length = 128) : (bytesAt b2 0x4C (toLe 4 (recScale b2))).length = 128 := by rw [length_bytesAt (by rw [toLe_length]; omega), h2]
  cases maxv with
  | none => exact hlast _ (by rw [length_recInc (by omega), h1])
  | some v =>
    dsimp only
    refine hlast _ ?_
    split
    · have hv : (bytesAt b1 (4 * (rcHead b1 % 16)) (toLe 4 v)).length = 128 := by rw [length_bytesAt (by rw [toLe_length]; omega), h1]
      have hc : (bytesAt (bytesAt b1 (4 * (rcHead b1 % 16)) (toLe 4 v)) 0x41 (toLe 1 (min (rcCount b1 + 1) 16) ++ toLe 1 ((rcHead b1 + 1) % 16))).length = 128 := by
        rw [length_bytesAt (by rw [List.length_append, toLe_length, toLe_length]; omega), hv]
      rw [length_recInc (by omega), hc]
    · rw [length_recInc (by omega), h1]

theorem hostHolds_free {a n : Nat} {m : Mach} (h : lineBusy m a n = false) : hostHolds m a n = [] := by
  simp only [lineBusy, Bool.or_eq_false_iff, decide_eq_false_iff_not, Decidable.not_not] at h
  exact h.1

/-- A record that lies in one range whose lines the host does not hold is read at once. -/
theorem recRead_one {c : Cfg} {q va a : Nat} {x : Desc} {m : Mach} (hs : recSpots x va = [(a, 128)]) (hh : hostHolds m a 128 = []) :
    recRead c q x va m = if recVoid x va then (killQueue c q stFaultDeviceTable va va m, .killed)
      else match readChk m.mem (qDom m q) a 128 with
        | .integrity p => (integrityKill c q p m, .killed)
        | _ => (m, .ok (bread m.mem.cells a 128)) := by
  unfold recRead
  dsimp only
  rw [hs, List.findSome?_cons, List.findSome?_nil, List.foldl_cons, List.foldl_nil, backInval_free true hh, List.any_cons, List.any_nil, hh, List.flatMap_cons, List.flatMap_nil, List.append_nil]
  split
  · rfl
  · dsimp only
    cases readChk m.mem (qDom m q) a 128 <;> rfl

/-- A read of a record that went well goes well again while the record's place and its owner are as they were. -/
theorem recRead_again {c : Cfg} {q va a : Nat} {x x' : Desc} {m n m1 : Mach} {b : List Byte} (hs : recSpots x va = [(a, 128)]) (hh : hostHolds m a 128 = [])
    (h : recRead c q x va m = (m1, .ok b)) (hheld : x'.held = x.held) (hmem : n.mem = m.mem) (hdom : qDom n q = qDom m q) (hhp : n.hp = m.hp) :
    b = bread m.mem.cells a 128 ∧ recRead c q x' va n = (n, .ok b) := by
  have hs' : recSpots x' va = [(a, 128)] := by rw [← hs]; unfold recSpots devAt; rw [hheld]
  have hv' : recVoid x' va = recVoid x va := by unfold recVoid; rw [hheld]
  have hh' : hostHolds n a 128 = [] := by rw [← hh]; unfold hostHolds; rw [hhp]
  rw [recRead_one hs hh] at h
  rw [recRead_one hs' hh', hv', hmem, hdom]
  split at h
  · cases h
  · rename_i hv
    rw [if_neg hv]
    cases hi : readChk m.mem (qDom m q) a 128 with
    | integrity p => rw [hi] at h; cases h
    | perm => rw [hi] at h; cases h; exact ⟨rfl, rfl⟩
    | ok => rw [hi] at h; cases h; exact ⟨rfl, rfl⟩

/-- The update of a record that lies in one range. -/
theorem histOne_stores {q d va a : Nat} {x : Desc} {m : Mach} (hs : recSpots x va = [(a, 128)]) (hf : lineBusy m a 128 = false) :
    histOne q d x va m = memStore a (recUpdate x.maxv x.nan (bread m.mem.cells a 128)) m := by
  have hl : (recUpdate x.maxv x.nan (bread m.mem.cells a 128)).length = 128 := length_recUpdate (bread_length ..) ..
  unfold histOne histPut
  rw [hs, List.flatMap_cons, List.flatMap_nil, List.append_nil, List.foldl_cons, List.foldl_nil]
  dsimp only
  rw [List.take_of_length_le (Nat.le_of_eq hl)]
  unfold engPutFor awaitLines
  rw [hl, hostHolds_free hf]
  exact engPut_free (by rw [hl]; exact hf)

/-- The record of a layer that ends well is updated with its maximum, and the layer ends. -/
theorem afterPublication_updates {c : Cfg} {q d va sl f a : Nat} {x : Desc} {m : Mach} {b : List Byte} (hx : descGet m q d = some x) (hb : histBinds x.bytes = [(va, sl, f)])
    (hf : bits f 2 1 = 1) (hst : (finalStatus x).1 = stOk ∨ (finalStatus x).1 = stOkRerun) (hr : recRead c q x va m = (m, .ok b)) (hbb : b = bread m.mem.cells a 128)
    (hs : recSpots x va = [(a, 128)]) (hd : x.histDone = false) (hi : inImage m a 128 = false) (hl : lineBusy m a 128 = false) (hff : flushFailed m x = false)
    (hg : x.flagGlobal = false ∨ (unsent m q d = false ∧ linesOut m x = false ∧ flushWaits m x = false)) :
    bread (afterPublication c q d x m).mem.cells a 128 = recUpdate x.maxv x.nan b
      ∧ (∀ j, j < a ∨ a + 128 ≤ j → bget (afterPublication c q d x m).mem.cells j = bget m.mem.cells j)
      ∧ ∃ z, descGet (afterPublication c q d x m) q d = some z ∧ z.record = some (finalStatus x) := by
  have hus : (if (finalStatus x).1 = stOk || (finalStatus x).1 = stOkRerun then ((histBinds x.bytes).filter fun h => bits h.2.2 2 1 = 1).map (·.1) else []) = [va] := by
    rw [if_pos (by simpa using hst), hb]
    simp [hf]
  have hh : histories c q d x [va] m = (descUpd q d (fun z => { z with histDone := true }) (memStore a (recUpdate x.maxv x.nan b) m), .ok ()) := by
    have ho : histOne q d x va m = memStore a (recUpdate x.maxv x.nan b) m := by rw [histOne_stores hs hl, hbb]
    unfold histories recsRead recsRead
    rw [hd, List.any_cons, List.any_nil, hs, List.any_cons, List.any_nil, hi, hr]
    exact congrArg (fun n => (descUpd q d (fun z => { z with histDone := true }) n, Fe.ok ())) ho
  have he : afterPublication c q d x m = layerEnd q d (descUpd q d (fun z => { z with histDone := true }) (memStore a (recUpdate x.maxv x.nan b) m)) := by
    unfold afterPublication
    dsimp only
    rw [hus, hh, hd, hff]
    rcases hg with hg | ⟨h1, h2, h3⟩
    · rw [hg]
      rfl
    · rw [h1, h2, h3]
      simp
  have hx' : descGet (descUpd q d (fun z => { z with histDone := true }) (memStore a (recUpdate x.maxv x.nan b) m)) q d = some { x with histDone := true } := by
    rw [descGet_descUpd, show descGet (memStore a (recUpdate x.maxv x.nan b) m) q d = some x from hx]
    rfl
  have hlen : (recUpdate x.maxv x.nan b).length = 128 := length_recUpdate (by rw [hbb]; exact bread_length ..) ..
  obtain ⟨-, hmem, z, hz, -, hrec, -⟩ := layerEnd_ends hx'
  rw [he, hmem]
  refine ⟨?_, fun j hj => ?_, z, hz, hrec⟩
  · have hw := bread_bwrite (recUpdate x.maxv x.nan b) m.mem.cells a
    rw [hlen] at hw
    exact hw
  · exact bget_bwrite_out _ _ _ _ (by rw [hlen]; exact hj)

end Sys2Proof.Machine
end

section
/-! SUPPORT. Layers that complete, and their pools: the third part of O50 (R158, R230, R237, R240, R269). -/

namespace Sys2Proof.Machine
open Sys2Proof

/-- A descriptor that is no RUN completes with its final status. -/
theorem complete_small {s : State} {q d t0 : Nat} {x : Desc} (hl : live s = true) (hx : descGet s.q q d = some x) (hp : x.phase = 3) (hr : x.running = 0) (hf : leadFirst s.m q d x = false)
    (hn : x.isRun = false) :
    Runs (.layerComplete q d t0) s fun t => ∃ z, descGet t.m q d = some z ∧ z.phase = 4 ∧ z.record = some (finalStatus x) ∧ z.tick = x.drainTick.getD s.m.tick.count := by
  refine Runs.ofM rfl hl ?_
  dsimp only [State.m]
  rw [layerComplete_small (m := s.q) hx hp hr hf hn]
  exact ⟨_, descGet_complete (m := officeDrop q d (tickTo t0 s.q)) hx _ _, rfl, rfl, rfl⟩

/-- A RUN with no record to update completes with its final status. -/
theorem complete_run {s : State} {q d t0 : Nat} {x : Desc} (hl : live s = true) (hx : descGet s.q q d = some x) (hp : x.phase = 3) (hr : x.running = 0) (hf : leadFirst s.m q d x = false)
    (hn : x.isRun = true) (he : x.enqs = []) (hg : x.gather = 0 ∨ x.gather = 6) (hb : ∀ h ∈ histBinds x.bytes, bits h.2.2 2 1 ≠ 1) :
    Runs (.layerComplete q d t0) s fun t => mget t.m.depot.layers (layerKey q d) = none ∧ t.m.mem = s.m.mem
      ∧ ∃ z, descGet t.m q d = some z ∧ z.phase = 4 ∧ z.record = some (finalStatus x) ∧ z.owed = 0 ∧ z.tick = x.drainTick.getD s.m.tick.count := by
  obtain ⟨hfin, hbytes, htick, -⟩ := toPublish_fields x
  have hx' := descGet_publishedAll (m := tickTo t0 s.q) hx
  obtain ⟨n, ⟨hlay, hmem, z, hz, hp4, hrec, ho, ht⟩, heq⟩ := afterPublication_none (c := s.c) hx' (by rw [hbytes]; exact hb)
  refine Runs.ofM rfl hl ?_
  dsimp only [State.m]
  rw [layerComplete_published (m := s.q) hx hp hr hf hn he hg, heq]
  exact ⟨hlay, hmem, z, hz, hp4, hrec.trans (congrArg some hfin), ho, ht.trans (by rw [htick]; rfl)⟩

theorem qDom_publishedAll (q d : Nat) (x : Desc) (m : Mach) : qDom (publishedAll q d x m) q = qDom m q := by
  rw [qDom_eq, qDom_eq]
  exact congrArg (fun o : Option QCtx => (o.map (·.dom)).getD 0) (ctxOf_descUpd ..)

/-- A RUN that updates one record of one range. -/
theorem complete_updates {s : State} {q d t0 va sl f a : Nat} {x : Desc} {m1 : Mach} {b : List Byte} (hl : live s = true) (hx : descGet s.q q d = some x) (hp : x.phase = 3)
    (hr : x.running = 0) (hf : leadFirst s.m q d x = false) (hn : x.isRun = true) (he : x.enqs = []) (hg : x.gather = 0 ∨ x.gather = 6) (hb : histBinds x.bytes = [(va, sl, f)])
    (hbit : bits f 2 1 = 1) (hst : (finalStatus x).1 = stOk ∨ (finalStatus x).1 = stOkRerun) (hread : recRead s.c q x va (tickTo t0 s.q) = (m1, .ok b)) (hs : recSpots x va = [(a, 128)])
    (hd : x.histDone = false) (hi : inImage s.q a 128 = false) (hbusy : lineBusy s.q a 128 = false) (hff : flushFailed s.m x = false)
    (hgl : x.flagGlobal = false ∨ (unsent s.m q d = false ∧ linesOut s.m x = false ∧ flushWaits s.m x = false)) :
    Runs (.layerComplete q d t0) s fun t => bread t.m.mem.cells a 128 = recUpdate x.maxv x.nan b ∧ (∀ j, j < a ∨ a + 128 ≤ j → bget t.m.mem.cells j = bget s.m.mem.cells j)
      ∧ ∃ z, descGet t.m q d = some z ∧ z.record = some (finalStatus x) := by
  obtain ⟨hfin, hbytes, -, hdone, hheld, -, -, -, hmax, hnan⟩ := toPublish_fields x
  have hx' := descGet_publishedAll (m := tickTo t0 s.q) hx
  obtain ⟨hbb, hread'⟩ := recRead_again (x' := toPublish x) (n := publishedAll q d x (tickTo t0 s.q)) hs (hostHolds_free (m := tickTo t0 s.q) hbusy) hread hheld rfl (qDom_publishedAll ..) rfl
  have hs' : recSpots (toPublish x) va = [(a, 128)] := by rw [← hs]; unfold recSpots devAt; rw [hheld]
  have hff' : flushFailed (publishedAll q d x (tickTo t0 s.q)) (toPublish x) = false := by
    refine Eq.trans ?_ hff
    unfold toPublish
    split <;> rfl
  have hgl' : (toPublish x).flagGlobal = false ∨ (unsent (publishedAll q d x (tickTo t0 s.q)) q d = false ∧ linesOut (publishedAll q d x (tickTo t0 s.q)) (toPublish x) = false
      ∧ flushWaits (publishedAll q d x (tickTo t0 s.q)) (toPublish x) = false) := by
    unfold toPublish
    split <;> exact hgl
  have h := afterPublication_updates (c := s.c) hx' (by rw [hbytes]; exact hb) hbit (by rw [hfin]; exact hst) hread' hbb hs' (hdone.trans hd) hi hbusy hff' hgl'
  rw [hfin, hmax, hnan] at h
  refine Runs.ofM rfl hl ?_
  dsimp only [State.m]
  rw [layerComplete_published (m := s.q) hx hp hr hf hn he hg]
  exact h

end Sys2Proof.Machine
end

section
/-! SUPPORT. Host lines the front end has read play no part in its writes: the last part of O50 (R208, R230, R327). -/

namespace Sys2Proof.Machine
open Sys2Proof

/-- The block with other host lines read by the front end. -/
def withLines (l : List Nat) (m : Mach) : Mach := { m with hp := { m.hp with feLines := l } }

/-- An operation in which those lines play no part. -/
def LineBlind (f : Mach → Mach) : Prop := ∀ l m, f (withLines l m) = withLines l (f m)

theorem lineBlind_foldl {β : Type} {f : Mach → β → Mach} (hf : ∀ b, LineBlind fun m => f m b) (bs : List β) : LineBlind fun m => bs.foldl f m := by
  intro l
  induction bs with
  | nil => exact fun _ => rfl
  | cons b bs ih => exact fun m => (congrArg (bs.foldl f) (hf b l m)).trans (ih (f m b))

/-! ### Requests -/

theorem lineBlind_stand (r : Req) : LineBlind (stand r) := by
  intro l m
  unfold stand
  split <;> rfl

theorem lineBlind_issueReq (r : Req) : LineBlind (issueReq r) := by
  intro l m
  exact lineBlind_stand { r with deadline := deadlineOf m r, num := m.arb.nextNum, host := r.host.map fun h => { hpName m h with deadline := deadlineOf m r, num := m.arb.nextNum } } l
    (creditUpd r.who r.unit (· - r.cover)
      { m with arb := { m.arb with nextNum := m.arb.nextNum + 1 }, hp := { m.hp with seq := if r.host.isSome then m.hp.seq + 1 else m.hp.seq } })

theorem pumpOne_lines (l : List Nat) (s : List Req × List (Nat × Nat) × Mach) (r : Req) :
    pumpOne (s.1, s.2.1, withLines l s.2.2) r = ((pumpOne s r).1, (pumpOne s r).2.1, withLines l (pumpOne s r).2.2) := by
  unfold pumpOne
  rw [show mayIssue (withLines l s.2.2) r = mayIssue s.2.2 r from rfl]
  dsimp only
  split
  · rfl
  · exact congrArg (fun m => (s.1, s.2.1, m)) (lineBlind_issueReq r l s.2.2)

theorem lineBlind_pump : LineBlind pump := by
  intro l m
  have hf (rs : List Req) : ∀ s : List Req × List (Nat × Nat) × Mach,
      rs.foldl pumpOne (s.1, s.2.1, withLines l s.2.2) = ((rs.foldl pumpOne s).1, (rs.foldl pumpOne s).2.1, withLines l (rs.foldl pumpOne s).2.2) := by
    induction rs with
    | nil => exact fun _ => rfl
    | cons r rs ih =>
      intro s
      rw [List.foldl_cons, List.foldl_cons, pumpOne_lines]
      exact ih (pumpOne s r)
  have h := hf m.arb.later ([], [], m)
  unfold pump
  dsimp only
  rw [show (withLines l m).arb.later = m.arb.later from rfl, h]
  rfl

theorem lineBlind_addLater (rs : List Req) : LineBlind (addLater rs) := by
  intro l m
  unfold addLater
  split
  · rfl
  · exact lineBlind_pump l { m with arb := { m.arb with later := m.arb.later ++ rs } }

theorem lineBlind_outsideReqs (c : Cfg) (who d q : Nat) (w : Bool) (a n : Nat) : LineBlind (outsideReqs c who d q w a n) := by
  intro l m
  unfold outsideReqs
  split
  · rfl
  · exact lineBlind_addLater _ l m

/-! ### Translations -/

theorem lineBlind_fillShared (c : Cfg) (d va : Nat) : LineBlind fun m => (fillShared c d va m).1 := by
  intro l m
  dsimp only
  unfold fillShared
  rw [show (withLines l m).xl = m.xl from rfl, show walkCached c (withLines l m) d va = walkCached c m d va from rfl]
  cases tlbFind m.xl.l2 d va with
  | some e => rfl
  | none => cases walkCached c m d va <;> rfl

theorem lineBlind_xlateFill (c : Cfg) (d va : Nat) : LineBlind (xlateFill c none d va) := by
  intro l m
  unfold xlateFill
  rw [show missReads c none d va (withLines l m) = missReads c none d va m from rfl, show fillTlb c none d va (withLines l m) = (fillShared c d va (withLines l m)).1 from rfl,
    show (fillShared c d va (withLines l m)).1 = withLines l (fillShared c d va m).1 from lineBlind_fillShared c d va l m]
  exact lineBlind_foldl (fun a => lineBlind_outsideReqs c 32 0 noQueue false a 8) (missReads c none d va m) l (fillShared c d va m).1

/-- A host page whose translation is cached. -/
theorem hostLook_lines {q va pasid a : Nat} {wr : Bool} {m n : Mach} {p : Nat} (l : List Nat) (h : hostLook q va pasid a wr none m = (n, .ready p)) :
    hostLook q va pasid a wr none (withLines l m) = (withLines l n, .ready p) := by
  unfold hostLook at h ⊢
  dsimp only at h ⊢
  rw [show (withLines l m).hp.lost = m.hp.lost from rfl, show hostFind (withLines l m) pasid (hostPage a) wr = hostFind m pasid (hostPage a) wr from rfl]
  split at h
  · cases h
  · rename_i hl
    rw [if_neg hl]
    split at h
    · cases h; rfl
    · split at h
      · cases h
      · split at h
        · split at h <;> cases h
        · split at h
          · split at h <;> cases h
          · split at h
            · split at h <;> cases h
            · cases h

/-! ### Addresses that are held -/

theorem holdPage_lines {c : Cfg} {q d va : Nat} {a : Acc} {m n : Mach} {h : Held} (l : List Nat) (hh : holdPage c q d va a m = (n, .ok h)) :
    holdPage c q d va a (withLines l m) = (withLines l n, .ok h) := by
  unfold holdPage at hh ⊢
  dsimp only at hh ⊢
  rw [show translate c (withLines l m) none d va a = translate c m none d va a from rfl, show pagePerm c (withLines l m) d va = pagePerm c m d va from rfl,
    lineBlind_xlateFill c d va l m]
  split at hh
  · cases hh
  · cases hh
  · cases hh; rfl
  · split at hh <;> rename_i hl <;> cases hh
    rw [hostLook_lines l hl]

theorem holdAll_lines {c : Cfg} {q d : Nat} (l : List Nat) : ∀ {ps : List (Nat × Acc)} {m n : Mach} {hs : List Held}, holdAll c q d ps m = (n, .ok hs) →
    holdAll c q d ps (withLines l m) = (withLines l n, .ok hs)
  | [], _, _, _, h => by cases h; rfl
  | (va, a) :: ps, m, n, hs, h => by
    unfold holdAll at h ⊢
    split at h
    · rename_i hp
      rw [holdPage_lines l hp]
      dsimp only
      split at h
      · rename_i hr
        cases h
        rw [holdAll_lines l hr]
      · rename_i hne
        exact absurd h (hne _ _)
    all_goals cases h

/-! ### Writes -/

theorem lineBlind_backInval (a n : Nat) (d : Bool) : LineBlind (backInval a n d) := by
  intro l m
  unfold backInval
  rw [show hostHolds (withLines l m) a n = hostHolds m a n from rfl]
  refine lineBlind_foldl (f := fun m l => if m.hp.bisnp.contains l then m else send (.bisnp (64 * l) d) { m with hp := { m.hp with bisnp := l :: m.hp.bisnp } }) ?_ (hostHolds m a n) l m
  intro b l m
  dsimp only
  rw [show (withLines l m).hp.bisnp = m.hp.bisnp from rfl]
  split <;> rfl

theorem lineBlind_engPut (a : Nat) (b : List Byte) : LineBlind (engPut a b) := by
  intro l m
  unfold engPut
  dsimp only
  rw [lineBlind_backInval a b.length false l m, show lineBusy (withLines l (backInval a b.length false m)) a b.length = lineBusy (backInval a b.length false m) a b.length from rfl]
  split <;> rfl

theorem lineBlind_awaitLines (q d a n : Nat) : LineBlind (awaitLines q d a n) := by
  intro l m
  unfold awaitLines
  rw [show hostHolds (withLines l m) a n = hostHolds m a n from rfl]
  split <;> rfl

theorem heldPut_lines {c : Cfg} {who q d desc va : Nat} {hs : List Held} {b : List Byte} {m n : Mach} (l : List Nat) (h : heldPut engPut c who q d desc hs va b m = (n, .ok ())) :
    heldPut engPut c who q d desc hs va b (withLines l m) = (withLines l n, .ok ()) := by
  unfold heldPut at h ⊢
  cases hf : heldFind hs va with
  | none => rw [hf] at h; cases h; rfl
  | some y =>
    rw [hf] at h
    dsimp only at h ⊢
    split at h
    · cases h
    · rename_i hv
      rw [if_neg hv]
      split at h
      · cases h
      · rename_i hw
        rw [if_neg hw]
        cases hy : y.host with
        | some p =>
          rw [hy] at h
          dsimp only at h ⊢
          rw [show (withLines l m).hp.lost = m.hp.lost from rfl]
          split at h
          · cases h
          · rename_i hl
            cases h
            rw [if_neg hl]
            rfl
        | none =>
          rw [hy] at h
          dsimp only at h ⊢
          rw [show inImage (withLines l m) (y.phys / 4096 * 4096 + va % 4096) b.length = inImage m (y.phys / 4096 * 4096 + va % 4096) b.length from rfl,
            show (withLines l m).mem = m.mem from rfl]
          split at h
          · cases h
          · rename_i hi
            rw [if_neg hi]
            split at h <;> cases h
            rw [lineBlind_awaitLines, lineBlind_engPut, lineBlind_outsideReqs]

/-- Writes to memory. -/
theorem soPut_lines {c : Cfg} {q d : Nat} {hs : List Held} (l : List Nat) : ∀ {ws : List SoW} {m n : Mach}, (∀ w ∈ ws, w.1 = 0) → soPut c q d hs ws m = (n, .ok ()) →
    soPut c q d hs ws (withLines l m) = (withLines l n, .ok ())
  | [], _, _, _, h => by cases h; rfl
  | w :: ws, m, n, hw, h => by
    have h0 : w.1 = 0 := hw w (List.mem_cons_self ..)
    unfold soPut at h ⊢
    rw [h0] at h ⊢
    rw [if_neg (by decide), if_neg (by decide)] at h ⊢
    rw [show qDom (withLines l m) q = qDom m q from rfl]
    split at h
    · rename_i hp
      rw [heldPut_lines l hp]
      exact soPut_lines l (fun w hm => hw w (List.mem_cons_of_mem _ hm)) h
    · rename_i hne
      exact absurd h (hne _ _)

theorem soWrite_lines {c : Cfg} {q d va : Nat} {b : List Byte} {m n : Mach} (l : List Nat) (h : soWrite c q d [(0, va, b)] m = (n, .ok ())) :
    soWrite c q d [(0, va, b)] (withLines l m) = (withLines l n, .ok ()) := by
  have hw : ∀ w ∈ soCut [(0, va, b)], w.1 = 0 := by
    intro w hw
    obtain ⟨v, hv, hw⟩ := List.mem_flatMap.1 hw
    cases List.mem_singleton.1 hv
    rw [if_neg (by simp)] at hw
    obtain ⟨p, -, rfl⟩ := List.mem_map.1 hw
    rfl
  unfold soWrite at h ⊢
  dsimp only at h ⊢
  rw [show qDom (withLines l m) q = qDom m q from rfl]
  split at h
  · rename_i hh
    rw [holdAll_lines l hh]
    exact soPut_lines l hw h
  all_goals cases h

end Sys2Proof.Machine
end

section
/-! SUPPORT. What a read leaves of the host lines, and O50 (R208, R230, R327). -/

namespace Sys2Proof.Machine
open Sys2Proof

/-! ### Lists without repetitions -/

theorem eraseDups_nodup : ∀ {l : List Nat}, l.Nodup → l.eraseDups = l
  | [], _ => rfl
  | a :: l, h => by
    obtain ⟨ha, hl⟩ := List.nodup_cons.1 h
    rw [List.eraseDups_cons, List.filter_eq_self.2 fun b hb => by simp; rintro rfl; exact ha hb, eraseDups_nodup hl]

theorem nodup_eraseDups : ∀ n (l : List Nat), l.length ≤ n → l.eraseDups.Nodup
  | _, [], _ => List.nodup_nil
  | n + 1, a :: l, h => by
    rw [List.eraseDups_cons]
    refine List.nodup_cons.2 ⟨fun ha => ?_, nodup_eraseDups n _ (Nat.le_trans (List.length_filter_le ..) (Nat.le_of_succ_le_succ h))⟩
    have := (List.mem_filter.1 (List.mem_eraseDups.1 ha)).2
    simp at this

theorem eraseDups_idem (l : List Nat) : l.eraseDups.eraseDups = l.eraseDups := eraseDups_nodup (nodup_eraseDups _ l (Nat.le_refl _))

/-- What stands in a list already adds nothing to it. -/
theorem eraseDups_append_part {l r : List Nat} (h : ∀ a ∈ r, a ∈ l) : (l ++ r).eraseDups = l.eraseDups := by
  have hr : r.removeAll l = [] := List.filter_eq_nil_iff.2 fun a ha => by simpa using h a ha
  rw [List.eraseDups_append, hr, List.eraseDups_nil, List.append_nil]

/-! ### What a read leaves of the host lines -/

/-- A read leaves the host lines as they were, or, without repetitions, those it has not used. -/
def LinesLeft (a b : List Nat) : Prop := b = a ∨ ∃ l : List Nat, b = a.eraseDups.filter fun x => !l.contains x

theorem LinesLeft.part {a b : List Nat} (h : LinesLeft a b) : ∀ x ∈ b, x ∈ a := by
  rcases h with rfl | ⟨l, rfl⟩
  · exact fun _ h => h
  · exact fun x hx => List.mem_eraseDups.1 (List.mem_filter.1 hx).1

theorem feLines_feCached (d : Nat) (lines : List Nat) (m : Mach) :
    (feCached d lines m).hp.feLines.filter (fun x => !lines.contains x) = m.hp.feLines.filter fun x => !lines.contains x := by
  have hf (l : List HostLine) : (∀ x ∈ l, lines.contains (x.addr / 64) = true) → ∀ m : Mach, (l.foldl (fun m x =>
      { m with depot := { m.depot with lines := x :: m.depot.lines.erase x }
               hp := { m.hp with feData := bwrite m.hp.feData x.addr x.data, feLines := x.addr / 64 :: m.hp.feLines } }) m).hp.feLines.filter (fun x => !lines.contains x)
      = m.hp.feLines.filter fun x => !lines.contains x := by
    induction l with
    | nil => exact fun _ _ => rfl
    | cons x l ih =>
      intro hx m
      refine (ih (fun y hy => hx y (List.mem_cons_of_mem _ hy)) _).trans ?_
      exact List.filter_cons_of_neg (by simp only [hx x (List.mem_cons_self ..)]; decide)
  unfold feCached
  refine hf _ (fun x hx => ?_) m
  have := (List.mem_filter.1 hx).2
  simp only [Bool.and_eq_true] at this
  exact this.1.2

theorem feLines_feHostBytes {who q d phys va n : Nat} {cacheable : Bool} {m m1 : Mach} {b : List Byte} (h : feHostBytes who q d cacheable phys va n m = (m1, .ok b)) :
    ∃ lines : List Nat, m1.hp.feLines = m.hp.feLines.filter fun x => !lines.contains x := by
  have hc (lines : List Nat) : (if cacheable then feCached d lines m else m).hp.feLines.filter (fun x => !lines.contains x) = m.hp.feLines.filter fun x => !lines.contains x := by
    split
    · exact feLines_feCached ..
    · rfl
  unfold feHostBytes at h
  dsimp only at h
  generalize (List.range ((phys + n - 1) / 64 + 1 - phys / 64)).map (phys / 64 + ·) = lines at h
  have hc := hc lines
  generalize (if cacheable then feCached d lines m else m) = m2 at h hc
  split at h
  · cases congrArg Prod.snd h
  · split at h
    · cases h; exact ⟨lines, hc⟩
    · cases congrArg Prod.snd h

/-- A read of one page uses the lines it is made of. -/
theorem feLines_feReadPart {c : Cfg} {who q d va n : Nat} {m m1 : Mach} {b : List Byte} (h : feReadPart c who q d va n m = (m1, .ok b)) :
    ∃ lines : List Nat, m1.hp.feLines = m.hp.feLines.filter fun x => !lines.contains x := by
  have hnone : m.hp.feLines = m.hp.feLines.filter fun x => !([] : List Nat).contains x := (List.filter_eq_self.2 fun _ _ => rfl).symm
  have hfill : (xlateFill c none d va m).hp.feLines = m.hp.feLines := xlateFill_view (·.hp.feLines) (fun _ => rfl) ..
  unfold feReadPart at h
  dsimp only at h
  split at h
  · cases h; exact ⟨[], hnone⟩
  · split at h
    · cases h
    · cases h
    · split at h
      · cases h
      · cases h
      · split at h
        · cases h
        · cases h
          refine ⟨[], Eq.trans ?_ hnone⟩
          have ho (m : Mach) (a : Nat) : (outsideReqs c who d q false a n m).hp.feLines = m.hp.feLines := (congrArg (fun m : Mach => m.hp.feLines) (served_outsideReqs c who d q false a n m) :)
          have hb (m : Mach) (a : Nat) : (backInval a n true m).hp.feLines = m.hp.feLines := (congrArg (fun m : Mach => m.hp.feLines) (still_backInval a n true m) :)
          rw [ho, hb, hfill]
    · split at h
      · rename_i hl
        have hlook : ∀ {m n : Mach} {p a k : Nat}, hostLook q va k a false none m = (n, .ready p) → n.hp.feLines = m.hp.feLines := by
          intro m n p a k h
          have h1 := hostLook_lines m.hp.feLines h
          rw [show withLines m.hp.feLines m = m from rfl, h] at h1
          exact congrArg (fun r : Mach × HostRes => r.1.hp.feLines) h1
        rw [← hfill, ← hlook hl]
        exact feLines_feHostBytes h
      all_goals cases h

/-- What a read behind another is made of, and what it leaves of the host lines. -/
theorem feThen_lines {α β : Type} {m0 : Mach} {r : Mach × Fe α} {f : α → Mach → Mach × Fe β} {m : Mach} {v : β} (h : feThen m0 r f = (m, .ok v)) :
    ∃ n0 a n1, r = (n0, .ok a) ∧
      ((m0.hp.feLines.filter fun x => !n0.hp.feLines.contains x) = [] ∧ f a n0 = (n1, .ok v) ∧ m = n1
        ∨ f a (withLines (m0.hp.feLines ++ n0.hp.feLines).eraseDups n0) = (n1, .ok v)
          ∧ m = withLines (n1.hp.feLines.filter fun x => !(m0.hp.feLines.filter fun x => !n0.hp.feLines.contains x).contains x) n1) := by
  unfold feThen at h
  split at h
  · rename_i n0 a
    dsimp only at h
    split at h
    · rename_i n1 w hb
      refine ⟨n0, a, n1, rfl, ?_⟩
      by_cases hu : (m0.hp.feLines.filter fun x => !n0.hp.feLines.contains x) = []
      · rw [if_pos hu] at hb h
        cases h
        exact Or.inl ⟨hu, hb, rfl⟩
      · rw [if_neg hu] at hb h
        cases h
        exact Or.inr ⟨hb, rfl⟩
    · rename_i hne hb
      cases h
      exact absurd rfl (hne v)
  all_goals cases h

theorem linesLeft_feReadN {c : Cfg} {who q d : Nat} : ∀ {fuel va n : Nat} {m m1 : Mach} {l : List Byte}, feReadN c who q d fuel va n m = (m1, .ok l) →
    LinesLeft m.hp.feLines m1.hp.feLines
  | 0, _, _, _, _, _, h => by cases h; exact Or.inl rfl
  | fuel + 1, va, n, m, m1, l, h => by
    unfold feReadN at h
    split at h
    · cases h; exact Or.inl rfl
    · obtain ⟨n0, a, n1, h0, hcase⟩ := feThen_lines h
      obtain ⟨lines, hl⟩ := feLines_feReadPart h0
      have hrest {k : Mach} (hk : (match feReadN c who q d fuel (va + min n (4096 - va % 4096)) (n - min n (4096 - va % 4096)) k with
          | (m2, .ok r) => (m2, .ok (a ++ r)) | x => x) = (n1, Fe.ok l)) : LinesLeft k.hp.feLines n1.hp.feLines := by
        split at hk
        · rename_i hr
          cases hk
          exact linesLeft_feReadN hr
        · exact linesLeft_feReadN hk
      rcases hcase with ⟨hu, hb, rfl⟩ | ⟨hb, rfl⟩
      · have hsame : n0.hp.feLines = m.hp.feLines := by
          rw [hl]
          refine List.filter_eq_self.2 fun x hx => ?_
          have := List.filter_eq_nil_iff.1 hu x hx
          rw [hl] at this
          have hm : x ∈ m.hp.feLines.filter fun x => !lines.contains x := by simpa using this
          exact (List.mem_filter.1 hm).2
        have := hrest hb
        rwa [hsame] at this
      · have hk : (m.hp.feLines ++ n0.hp.feLines).eraseDups = m.hp.feLines.eraseDups :=
          eraseDups_append_part fun x hx => by rw [hl] at hx; exact (List.mem_filter.1 hx).1
        have h1 := hrest hb
        rw [show (withLines (m.hp.feLines ++ n0.hp.feLines).eraseDups n0).hp.feLines = (m.hp.feLines ++ n0.hp.feLines).eraseDups from rfl, hk] at h1
        rcases h1 with h1 | ⟨l1, h1⟩
        · exact Or.inr ⟨_, by rw [← h1]; rfl⟩
        · refine Or.inr ⟨l1 ++ m.hp.feLines.filter fun x => !n0.hp.feLines.contains x, ?_⟩
          show n1.hp.feLines.filter _ = _
          rw [h1, eraseDups_idem, List.filter_filter]
          exact List.filter_congr fun x _ => by rw [List.contains_append]; cases l1.contains x <;> simp

/-- A read of which nothing more is used leaves the host lines as the lines it has used are forgotten. -/
theorem linesLeft_forget {a b : List Nat} (h : LinesLeft a b) (hu : (a.filter fun x => !b.contains x) ≠ []) :
    ((a ++ b).eraseDups.filter fun x => !(a.filter fun x => !b.contains x).contains x) = b := by
  rw [eraseDups_append_part h.part]
  rcases h with rfl | ⟨l, hb⟩
  · exact absurd (List.filter_eq_nil_iff.2 fun x hx => by simpa using hx) hu
  · conv => rhs; rw [hb]
    refine List.filter_congr fun x hx => ?_
    have hxa : x ∈ a := List.mem_eraseDups.1 hx
    by_cases hxl : x ∈ l
    · have hxb : x ∉ b := by rw [hb]; exact fun hm => absurd (List.mem_filter.1 hm).2 (by simp [hxl])
      simp [hxl, hxa, hxb]
    · have hxb : x ∈ b := by rw [hb]; exact List.mem_filter.2 ⟨hx, by simp [hxl]⟩
      simp [hxl, hxb]

/-- A write behind a read is a write of what the read leaves. -/
theorem read_then_write {c : Cfg} {q d dom va n a : Nat} {m m1 m2 : Mach} {l : List Byte} {g : List Byte → List Byte} (hr : feRead c q dom va n m = (m1, .ok l))
    (hw : soWrite c q d [(0, a, g l)] m1 = (m2, .ok ())) : feThen m (feRead c q dom va n m) (fun l m1 => soWrite c q d [(0, a, g l)] m1) = (m2, .ok ()) := by
  unfold feThen
  rw [hr]
  dsimp only
  by_cases hu : (m.hp.feLines.filter fun x => !m1.hp.feLines.contains x) = []
  · rw [if_pos hu, hw]
    dsimp only
    rw [if_pos hu]
  · have hlines : m2.hp.feLines = m1.hp.feLines := by
      have h1 := soWrite_lines m1.hp.feLines hw
      rw [show withLines m1.hp.feLines m1 = m1 from rfl, hw] at h1
      exact congrArg (fun r : Mach × Fe Unit => r.1.hp.feLines) h1
    rw [if_neg hu, show keepLines m m1 = withLines (m.hp.feLines ++ m1.hp.feLines).eraseDups m1 from rfl, soWrite_lines _ hw]
    dsimp only
    rw [if_neg hu]
    have hf := linesLeft_forget (linesLeft_feReadN hr) hu
    show (withLines ((m.hp.feLines ++ m1.hp.feLines).eraseDups.filter fun x => !(m.hp.feLines.filter fun x => !m1.hp.feLines.contains x).contains x) m2, Fe.ok ()) = _
    rw [hf, ← hlines]
    rfl

/-- Settles O50: a drain changes phases alone behind its counts, a completion decides one record, and the lines a read has used play no part in a write. -/
theorem layersDrainAndComplete : Obligations.LayersDrainAndComplete := by
  unfold Obligations.LayersDrainAndComplete
  refine ⟨fun s k t0 x u z hl hx hu hd hz hg ha hza => drain_runs hl hx hu hd hz hg ha hza, fun s q d t0 x hl hx hp hr hf hn => complete_small hl hx hp hr hf hn,
    fun s q d t0 x hl hx hp hr hf hn he hg hb => complete_run hl hx hp hr hf hn he hg hb,
    fun s q d t0 x va sl f a m1 b hl hx hp hr hf hn he hg hb hbit hst hread hs hd hi hbusy hff hgl =>
      complete_updates hl hx hp hr hf hn he hg hb hbit hst hread hs hd hi hbusy hff hgl,
    fun s q d x p n va m1 l m2 hl hx hb hg hr hw => Runs.ofM rfl hl ?_⟩
  have hs : scatterDone q d s.c s.q = descUpd q d (fun z => { z with gather := 6 }) m2 := by
    unfold scatterDone
    rw [hx]
    dsimp only
    rw [hb]
    dsimp only
    rw [hg, if_neg (by decide)]
    have h := read_then_write (c := s.c) (q := q) (d := d) (m := s.q) (g := liveSet false (((x.params.drop 64).filter meLeave).map meSlot)) hr hw
    rw [show feThen s.q (feRead s.c q (qDom s.q q) (plLive (poolEntry s.c s.q p)) (liveLen (poolEntry s.c s.q p)) s.q)
      (fun live m1 => soWrite s.c q d [(0, plLive (poolEntry s.c s.q p), liveSet false (((x.params.drop 64).filter meLeave).map meSlot) live)] m1) = (m2, .ok ()) from h]
  dsimp only [State.m]
  exact hs

end Sys2Proof.Machine
end

section
/-! SUPPORT. Completion records, dead letters and moderated interrupts: O51 (R26 to R28, R268 to R271, R278, R330, R459). -/

namespace Sys2Proof.Machine
open Sys2Proof

/-! ### Interrupts (R270, R459) -/

/-- What an interrupt touches: its pending bits and times, and what the block sends. -/
structure IrqBlind {α : Type} (g : Mach → α) : Prop where
  irq : ∀ m x, g { m with irq := x } = g m
  out : ∀ m x, g { m with out := x } = g m

section
variable {α : Type} {g : Mach → α} (hg : IrqBlind g)
include hg

theorem msix_view (v : Nat) (m : Mach) : g (msix v m) = g m := by
  unfold msix
  split
  · exact hg.irq ..
  · exact hg.out ..

theorem msixDue_view (m : Mach) : g (msixDue m) = g m := by
  unfold msixDue
  rw [foldl_keeps g _ fun m (p : Nat × Nat × List Nat) => msix_view hg p.1 m]
  exact hg.irq ..

theorem msixQueue_view (v : Nat) (l : List Nat) (m : Mach) : g (msixQueue v l m) = g m := by
  unfold msixQueue
  dsimp only
  split
  · exact (hg.irq ..).trans (msixDue_view hg m)
  · exact (hg.irq ..).trans (msixDue_view hg m)

theorem irqDl_view (c : Cfg) (m : Mach) : g (irqDl c m) = g m := by
  unfold irqDl
  split
  · rfl
  · split
    · exact hg.irq ..
    · exact (hg.irq ..).trans (msix_view hg ..)

end

/-- A record's vector waits to be sent. -/
theorem msixQueue_due (v : Nat) (l : List Nat) (m : Mach) : ∃ e ∈ (msixQueue v l m).irq.due, e.1 = v := by
  unfold msixQueue
  dsimp only
  split
  · rename_i h
    obtain ⟨p, hp, hj⟩ := List.any_eq_true.1 h
    refine ⟨(p.1, p.2.1, (l ++ p.2.2).eraseDups), List.mem_map.2 ⟨p, hp, if_pos hj⟩, ?_⟩
    exact eq_of_beq (Bool.and_eq_true_iff.1 hj).1
  · exact ⟨(v, (msixDue m).now, l), List.mem_append_right _ (List.mem_singleton.2 rfl), rfl⟩

/-- A vector that is open is sent. -/
theorem msix_open {v : Nat} {m : Mach} (h : vecOpen m v = true) : msix v m = send (.msix v) m := by
  unfold msix
  rw [h]
  rfl

/-- No message waits long enough to go. -/
theorem msixDue_early {m : Mach} (h : ∀ e ∈ m.irq.due, m.now < e.2.1 + 64) : msixDue m = m := by
  have hno (e : Nat × Nat × List Nat) (he : e ∈ m.irq.due) : msixReady m e = false := by
    unfold msixReady
    rw [decide_eq_false (Nat.not_le.2 (h e he)), Bool.false_and]
  have h1 : m.irq.due.filter (msixReady m) = [] := List.filter_eq_nil_iff.2 fun e he => by rw [hno e he]; decide
  have h2 : (m.irq.due.filter fun e => !msixReady m e) = m.irq.due := List.filter_eq_self.2 fun e he => by rw [hno e he]; rfl
  unfold msixDue
  rw [h1, h2]
  rfl

/-! ### The record (R268) -/

theorem length_recordBytes (q : Nat) (y : Queue) (x : Desc) (b : Bool) : (recordBytes q y x b).length = 32 := by
  unfold recordBytes
  simp only [List.length_append, toLe_length]

theorem length_letterBytes (l : List Byte) (a b c d e : Nat) : (letterBytes l a b c d e).length = 64 := by
  unfold letterBytes
  simp only [List.length_append, toLe_length, List.length_take, List.length_replicate]
  omega

/-- The record goes, and its descriptor is done (R17, R26, R269, R278). -/
def recordDone (c : Cfg) (q d : Nat) (x : Desc) (m : Mach) : Mach :=
  let m := if (x.record.map (·.1)) = some stHostLost then hold q m else m
  let m := deliver c q x (countJob c q m)
  let m := qUpd q (fun y => { y with descs := mdel y.descs d })
    { m with sched := { m.sched with collector := m.sched.collector.filter fun e => !(e.q == q && e.d == d) } }
  let m := match x.seq with
    | none => m
    | some _ => { m with mbx := mupd m.mbx (((qGet m q).map fun y => y.ctx.mailbox).getD 0) fun b => { b with flight := none } }
  afterRecord q m

theorem recordWrite_done {q d t0 : Nat} {c : Cfg} {m m0 : Mach} {x : Desc} (h0 : m0 = ownFlushed q d (msixDue (tickTo t0 m))) (hx : descGet m0 q d = some x) (hp : x.phase = 4)
    (hr : x.running = 0) (hu : unsent m0 q d = false) (hl : linesOut m0 x = false) (hm : memberFirst m0 q d x = true) (ht : collectorTurn m0 q d = true) (hpf : m0.power.fail < 2)
    (hf : flushFns x = []) : recordWrite q d t0 c m = recordDone c q d x m0 := by
  unfold recordWrite
  dsimp only
  rw [← h0, hx]
  dsimp only
  rw [hu, hl, hm, ht, if_neg (by simp [hp, hr, hpf]), if_neg (by simp [flushWaits, hf]), if_neg (by simp [flushFailed, hf])]
  rfl

/-- The record of a descriptor whose completion entry lies in device memory is stored, and its vector waits to be sent. -/
theorem deliver_stores {c : Cfg} {q : Nat} {x : Desc} {m : Mach} {y : Queue} {h : Held} (hy : qGet m q = some y) (hc : x.cplHeld = some h) (hh : h.host = none) (hv : h.void = false)
    (hi : inImage m h.phys 32 = false) (hw : writeChk m.mem y.ctx.dom h.phys 32 = .ok) (hb : lineBusy m h.phys 32 = false) :
    deliver c q x m = match if x.noIrq then none else x.irqVec with
      | some v => msixQueue v (hostHolds m h.phys 32) (memStore h.phys (recordBytes q y x false) m)
      | none => memStore h.phys (recordBytes q y x false) m := by
  unfold deliver
  rw [hy]
  dsimp only
  rw [hc]
  dsimp only
  rw [hh]
  dsimp only
  rw [hv, hi, hw, engPut_free (by rw [length_recordBytes]; exact hb)]
  rfl

theorem deliver_view {α : Type} {g : Mach → α} (hg : IrqBlind g) {c : Cfg} {q : Nat} {x : Desc} {m : Mach} {y : Queue} {h : Held} (hy : qGet m q = some y) (hc : x.cplHeld = some h)
    (hh : h.host = none) (hv : h.void = false) (hi : inImage m h.phys 32 = false) (hw : writeChk m.mem y.ctx.dom h.phys 32 = .ok) (hb : lineBusy m h.phys 32 = false) :
    g (deliver c q x m) = g (memStore h.phys (recordBytes q y x false) m) := by
  rw [deliver_stores hy hc hh hv hi hw hb]
  split
  · exact msixQueue_view hg ..
  · rfl

/-- What follows the delivery touches queues, the collector and mailboxes alone. -/
theorem afterRecord_view {α : Type} (g : Mach → α) (hq : ∀ m x, g { m with queues := x } = g m) (q : Nat) (m : Mach) : g (afterRecord q m) = g m := by
  unfold afterRecord
  split
  · rfl
  · split
    · rfl
    · split
      · exact hq ..
      · exact hq ..

theorem qGet_afterRecord {q : Nat} {m : Mach} {y : Queue} (hy : qGet m q = some y) : ∃ z, qGet (afterRecord q m) q = some z ∧ z.jobs = y.jobs ∧ z.descs = y.descs := by
  unfold afterRecord
  rw [hy]
  dsimp only
  split
  · exact ⟨y, hy, rfl, rfl⟩
  · split
    · exact ⟨{ y with ctx := { y.ctx with state := qsReady } }, by rw [qGet_ctxUpd, hy]; rfl, rfl, rfl⟩
    · exact ⟨{ y with drained := true }, by rw [qGet_qUpd, hy]; rfl, rfl, rfl⟩

theorem qGet_afterRecord_ne {q r : Nat} (h : r ≠ q) (m : Mach) : qGet (afterRecord q m) r = qGet m r := by
  unfold afterRecord
  split
  · rfl
  · split
    · rfl
    · split
      · exact qGet_ctxUpd_ne h ..
      · exact qGet_qUpd_ne h ..

/-! ### A record that is written -/

/-- A queue whose host is lost is held before its record goes (R338, R469). -/
def heldFor (q : Nat) (x : Desc) (m : Mach) : Mach := if (x.record.map (·.1)) = some stHostLost then hold q m else m

theorem heldFor_view {α : Type} (g : Mach → α) (hq : ∀ m x, g { m with queues := x } = g m) (hl : ∀ m x, g { m with ledger := x } = g m) (q : Nat) (x : Desc) (m : Mach) :
    g (heldFor q x m) = g m := by
  unfold heldFor
  split
  · exact (hl ..).trans (hq ..)
  · rfl

theorem qGet_hold (q : Nat) (m : Mach) : qGet (hold q m) q = (qGet m q).map fun y => { y with ctx := if y.ctx.state = qsKilled then y.ctx else { y.ctx with state := qsHeld } } :=
  qGet_ctxUpd q (fun x => if x.state = qsKilled then x else { x with state := qsHeld }) m

theorem qGet_hold_ne {q r : Nat} (h : r ≠ q) (m : Mach) : qGet (hold q m) r = qGet m r :=
  qGet_ctxUpd_ne h (fun x => if x.state = qsKilled then x else { x with state := qsHeld }) m

theorem qGet_heldFor {q : Nat} {m : Mach} {y : Queue} (hy : qGet m q = some y) (x : Desc) : ∃ st, qGet (heldFor q x m) q = some { y with ctx := { y.ctx with state := st } } := by
  unfold heldFor
  split
  · refine ⟨if y.ctx.state = qsKilled then y.ctx.state else qsHeld, ?_⟩
    rw [qGet_hold, hy, Option.map_some]
    split <;> rfl
  · exact ⟨y.ctx.state, hy⟩

theorem qGet_heldFor_ne {q r : Nat} (h : r ≠ q) (x : Desc) (m : Mach) : qGet (heldFor q x m) r = qGet m r := by
  unfold heldFor
  split
  · exact qGet_hold_ne h m
  · rfl

/-- The counts that rise with a record (R278). -/
def countedFor (q : Nat) (y : Queue) (m : Mach) : Mach :=
  qUpd q (fun x => { x with jobs := (x.jobs + 1) % 2 ^ 64 }) { m with doms := mupd m.doms y.ctx.dom fun e => { e with jobs := (e.jobs + 1) % 2 ^ 64 } }

theorem qGet_countedFor (q : Nat) (y : Queue) (m : Mach) : qGet (countedFor q y m) q = (qGet m q).map fun x => { x with jobs := (x.jobs + 1) % 2 ^ 64 } :=
  qGet_qUpd q _ { m with doms := mupd m.doms y.ctx.dom fun e => { e with jobs := (e.jobs + 1) % 2 ^ 64 } }

theorem countJob_good {c : Cfg} {q : Nat} {m : Mach} {y : Queue} (hy : qGet m q = some y) (h : badIn m.mem (c.tb.cnt + 16 * q) 16 = none) : countJob c q m = countedFor q y m := by
  unfold countJob
  rw [hy]
  exact counterUpd_good (m := { m with doms := mupd m.doms y.ctx.dom fun e => { e with jobs := (e.jobs + 1) % 2 ^ 64 } }) h _

section
variable {c : Cfg} {q d : Nat} {m : Mach} {x : Desc} {y : Queue} {h : Held} (hy : qGet m q = some y) (hc : x.cplHeld = some h) (hh : h.host = none) (hv : h.void = false)
  (hb : lineBusy m h.phys 32 = false) (hi : inImage m h.phys 32 = false) (hw : writeChk m.mem y.ctx.dom h.phys 32 = .ok) (hbad : badIn m.mem (c.tb.cnt + 16 * q) 16 = none)

/-- The descriptor has gone from its queue, the collector and its mailbox. -/
def goneFrom (q d : Nat) (x : Desc) (m : Mach) : Mach :=
  let m := qUpd q (fun y => { y with descs := mdel y.descs d })
    { m with sched := { m.sched with collector := m.sched.collector.filter fun e => !(e.q == q && e.d == d) } }
  match x.seq with
  | none => m
  | some _ => { m with mbx := mupd m.mbx (((qGet m q).map fun y => y.ctx.mailbox).getD 0) fun b => { b with flight := none } }

theorem goneFrom_view {α : Type} (g : Mach → α) (hq : ∀ m x, g { m with queues := x } = g m) (hs : ∀ m x, g { m with sched := x } = g m) (hm : ∀ m x, g { m with mbx := x } = g m)
    (q d : Nat) (x : Desc) (m : Mach) : g (goneFrom q d x m) = g m := by
  unfold goneFrom
  dsimp only
  split
  · exact (hq ..).trans (hs ..)
  · exact (hm ..).trans ((hq ..).trans (hs ..))

theorem queues_goneFrom (q d : Nat) (x : Desc) (m : Mach) : (goneFrom q d x m).queues = (qUpd q (fun y => { y with descs := mdel y.descs d }) m).queues := by
  unfold goneFrom
  dsimp only
  split <;> rfl

theorem recordDone_eq : recordDone c q d x m = afterRecord q (goneFrom q d x (deliver c q x (countJob c q (heldFor q x m)))) := rfl

include hy hc hh hv hb hi hw hbad

/-- The block once the record has been delivered, but for the interrupt it raises. -/
theorem delivered : ∃ st n, countJob c q (heldFor q x m) = n ∧ qGet n q = some { y with ctx := { y.ctx with state := st }, jobs := (y.jobs + 1) % 2 ^ 64 }
    ∧ (∀ r, r ≠ q → qGet n r = qGet m r) ∧ n.mem = m.mem
    ∧ (∀ {α : Type} {g : Mach → α}, IrqBlind g → g (deliver c q x n) = g (memStore h.phys (recordBytes q y x false) n))
    ∧ ∀ v, x.irqVec = some v → x.noIrq = false → ∃ e ∈ (deliver c q x n).irq.due, e.1 = v := by
  have hheld {α : Type} (g : Mach → α) (hq : ∀ m x, g { m with queues := x } = g m) (hl : ∀ m x, g { m with ledger := x } = g m) : g (heldFor q x m) = g m := heldFor_view g hq hl q x m
  obtain ⟨st, hst⟩ := qGet_heldFor hy x
  have hmem : (heldFor q x m).mem = m.mem := hheld Mach.mem (fun _ _ => rfl) fun _ _ => rfl
  have hcount := countJob_good hst (c := c) (by rw [hmem]; exact hbad)
  refine ⟨st, _, hcount, ?_⟩
  have hqn : qGet (countedFor q { y with ctx := { y.ctx with state := st } } (heldFor q x m)) q = some { y with ctx := { y.ctx with state := st }, jobs := (y.jobs + 1) % 2 ^ 64 } := by
    rw [qGet_countedFor, hst]
    rfl
  have hne (r : Nat) (hr : r ≠ q) : qGet (countedFor q { y with ctx := { y.ctx with state := st } } (heldFor q x m)) r = qGet m r := by
    unfold countedFor
    rw [qGet_qUpd_ne hr]
    exact qGet_heldFor_ne hr x m
  have hi' : inImage (countedFor q { y with ctx := { y.ctx with state := st } } (heldFor q x m)) h.phys 32 = false :=
    Eq.trans (hheld (fun m => inImage m h.phys 32) (fun _ _ => rfl) fun _ _ => rfl) hi
  have hb' : lineBusy (countedFor q { y with ctx := { y.ctx with state := st } } (heldFor q x m)) h.phys 32 = false :=
    Eq.trans (hheld (fun m => lineBusy m h.phys 32) (fun _ _ => rfl) fun _ _ => rfl) hb
  have hw' : writeChk (countedFor q { y with ctx := { y.ctx with state := st } } (heldFor q x m)).mem y.ctx.dom h.phys 32 = .ok := by
    rw [show (countedFor q { y with ctx := { y.ctx with state := st } } (heldFor q x m)).mem = (heldFor q x m).mem from rfl, hmem]
    exact hw
  refine ⟨hqn, hne, hmem, fun hg => ?_, fun v hvec hno => ?_⟩
  · have h := deliver_view (c := c) hg hqn hc hh hv hi' hw' hb'
    exact h
  · rw [deliver_stores hqn hc hh hv hi' hw' hb', hno, hvec, if_neg (by decide)]
    exact msixQueue_due ..

end

end Sys2Proof.Machine
end

section
/-! SUPPORT. O51: what a written record, a write error and a moderation window leave (R26, R268 to R271, R459). -/

namespace Sys2Proof.Machine
open Sys2Proof

/-! ### A record that is written -/

/-- Bytes that are stored at once, and every other byte as before. -/
theorem memStore_bytes {a : Nat} {l : List Byte} {n : Nat} (hn : l.length = n) (m : Mach) :
    bread (memStore a l m).mem.cells a n = l ∧ ∀ j, j < a ∨ a + n ≤ j → bget (memStore a l m).mem.cells j = bget m.mem.cells j := by
  subst hn
  exact ⟨bread_bwrite l m.mem.cells a, fun j hj => bget_bwrite_out _ _ _ _ hj⟩

theorem recordDone_writes {c : Cfg} {q d : Nat} {m : Mach} {x : Desc} {y : Queue} {h : Held} (hy : qGet m q = some y) (hc : x.cplHeld = some h) (hh : h.host = none) (hv : h.void = false)
    (hb : lineBusy m h.phys 32 = false) (hi : inImage m h.phys 32 = false) (hw : writeChk m.mem y.ctx.dom h.phys 32 = .ok) (hbad : badIn m.mem (c.tb.cnt + 16 * q) 16 = none) :
    bread (recordDone c q d x m).mem.cells h.phys 32 = recordBytes q y x false
      ∧ (∀ j, j < h.phys ∨ h.phys + 32 ≤ j → bget (recordDone c q d x m).mem.cells j = bget m.mem.cells j)
      ∧ (∀ v, x.irqVec = some v → x.noIrq = false → ∃ e ∈ (recordDone c q d x m).irq.due, e.1 = v)
      ∧ (∃ z, qGet (recordDone c q d x m) q = some z ∧ z.jobs = (y.jobs + 1) % 2 ^ 64 ∧ z.descs = mdel y.descs d)
      ∧ ∀ r, r ≠ q → qGet (recordDone c q d x m) r = qGet m r := by
  obtain ⟨st, n, hn, hqn, hne, hmem, hdel, hdue⟩ := delivered (c := c) hy hc hh hv hb hi hw hbad
  have hend {α : Type} (g : Mach → α) (hq : ∀ m x, g { m with queues := x } = g m) (hs : ∀ m x, g { m with sched := x } = g m) (hm : ∀ m x, g { m with mbx := x } = g m) :
      g (recordDone c q d x m) = g (deliver c q x n) := by
    rw [recordDone_eq, hn]
    exact (afterRecord_view g hq ..).trans (goneFrom_view g hq hs hm ..)
  have hcells : (recordDone c q d x m).mem = (memStore h.phys (recordBytes q y x false) n).mem :=
    (hend Mach.mem (fun _ _ => rfl) (fun _ _ => rfl) fun _ _ => rfl).trans (hdel ⟨fun _ _ => rfl, fun _ _ => rfl⟩)
  have hqueues : (deliver c q x n).queues = n.queues := hdel (g := Mach.queues) ⟨fun _ _ => rfl, fun _ _ => rfl⟩
  obtain ⟨hin, hout⟩ := memStore_bytes (a := h.phys) (length_recordBytes q y x false) n
  refine ⟨by rw [hcells]; exact hin, fun j hj => by rw [hcells, hout j hj, hmem], fun v hvec hno => ?_, ?_, fun r hr => ?_⟩
  · rw [hend Mach.irq (fun _ _ => rfl) (fun _ _ => rfl) fun _ _ => rfl]
    exact hdue v hvec hno
  · have hg : qGet (goneFrom q d x (deliver c q x n)) q = some { { y with ctx := { y.ctx with state := st }, jobs := (y.jobs + 1) % 2 ^ 64 } with descs := mdel y.descs d } := by
      have h1 : qGet (goneFrom q d x (deliver c q x n)) q = qGet (qUpd q (fun y => { y with descs := mdel y.descs d }) (deliver c q x n)) q := congrArg (mget · q) (queues_goneFrom ..)
      have h2 : qGet (deliver c q x n) q = qGet n q := congrArg (mget · q) hqueues
      rw [h1, qGet_qUpd, h2, hqn]
      rfl
    rw [recordDone_eq, hn]
    obtain ⟨z, hz, hj, hd⟩ := qGet_afterRecord hg
    exact ⟨z, hz, hj, hd⟩
  · rw [recordDone_eq, hn, qGet_afterRecord_ne hr]
    have h1 : qGet (goneFrom q d x (deliver c q x n)) r = qGet (qUpd q (fun y => { y with descs := mdel y.descs d }) (deliver c q x n)) r := congrArg (mget · r) (queues_goneFrom ..)
    have h2 : qGet (deliver c q x n) r = qGet n r := congrArg (mget · r) hqueues
    rw [h1, qGet_qUpd_ne hr, h2, hne r hr]

theorem queues_tcFlush (f : TLine → Bool) (m : Mach) : (tcFlush f m).queues = m.queues := by
  have hput (m : Mach) (a : Nat) (l : List Byte) : (engPut a l m).queues = m.queues := (congrArg Mach.queues (still_engPut a l m) :)
  refine foldl_keeps Mach.queues _ (fun m l => ?_) _ m
  split
  · rfl
  · exact foldl_keeps Mach.queues _ (fun _ _ => hput ..) _ m

/-- The write-back of what a descriptor wrote touches its own queue alone. -/
theorem qGet_ownFlushed_ne {q r : Nat} (h : r ≠ q) (d : Nat) (m : Mach) : qGet (ownFlushed q d m) r = qGet m r := by
  have hwait (m : Mach) (l : TLine) : qGet (awaitLines q d l.addr 64 m) r = qGet m r := by
    unfold awaitLines
    split
    · rfl
    · exact qGet_qUpd_ne h ..
  unfold ownFlushed
  split
  · exact (congrArg (mget · r) (queues_tcFlush ..)).trans (foldl_keeps (qGet · r) _ hwait _ m)
  · rfl

theorem power_ownFlushed (q d : Nat) (m : Mach) : (ownFlushed q d m).power = m.power := by
  have hput (m : Mach) (a : Nat) (l : List Byte) : (engPut a l m).power = m.power := (congrArg Mach.power (still_engPut a l m) :)
  have hflush (f : TLine → Bool) (m : Mach) : (tcFlush f m).power = m.power := by
    refine foldl_keeps Mach.power _ (fun m l => ?_) _ m
    split
    · rfl
    · exact foldl_keeps Mach.power _ (fun _ _ => hput ..) _ m
  have hwait (m : Mach) (l : TLine) : (awaitLines q d l.addr 64 m).power = m.power := by
    unfold awaitLines
    split <;> rfl
  unfold ownFlushed
  split
  · exact (hflush ..).trans (foldl_keeps Mach.power _ hwait _ m)
  · rfl

/-! ### Write errors (R271) -/

section
variable {s : State} {id : Nat} {r : HpReq} {y : Queue}

/-- Where the dead-letter ring's next entry lies. -/
def deadAt (c : Cfg) (m : Mach) : Nat := c.tb.dl + 64 * (m.dlTail % 2 ^ c.tb.dlLog2)

/-- A record that the dead-letter ring takes. -/
theorem deadLetter_takes {c : Cfg} {q target cause dom : Nat} {rec : List Byte} {m : Mach} (hoff : m.dlOff = false) (hb : lineBusy m (deadAt c m) 64 = false)
    (hf : ringFails m (deadAt c m) = none) (hroom : subMod m.dlTail m.dlHead (2 * 2 ^ c.tb.dlLog2) < 2 ^ c.tb.dlLog2) :
    deadLetter c q rec target cause dom m = irqDl c { memStore (deadAt c m) (letterBytes rec target cause dom 0 m.dlSeq) (hold q m) with
      dlTail := (m.dlTail + 1) % (2 * 2 ^ c.tb.dlLog2), dlSeq := m.dlSeq + 1 } := by
  have hf' : ringFails (hold q m) (c.tb.dl + 64 * (m.dlTail % 2 ^ c.tb.dlLog2)) = none := hf
  have hcheck : dlCheck c (c.tb.dl + 64 * (m.dlTail % 2 ^ c.tb.dlLog2)) (hold q m) = hold q m := by
    unfold dlCheck
    rw [hf']
  have hput : engPut (c.tb.dl + 64 * (m.dlTail % 2 ^ c.tb.dlLog2)) (letterBytes rec target cause dom 0 m.dlSeq) (hold q m)
      = memStore (deadAt c m) (letterBytes rec target cause dom 0 m.dlSeq) (hold q m) := engPut_free (by rw [length_letterBytes]; exact hb)
  unfold deadLetter
  dsimp only
  rw [show (hold q m).dlTail = m.dlTail from rfl, hcheck, show (hold q m).dlOff = m.dlOff from rfl, show (hold q m).dlHead = m.dlHead from rfl, show (hold q m).dlTail = m.dlTail from rfl,
    show (hold q m).dlSeq = m.dlSeq from rfl, hoff, if_neg (by simp [hroom]), hput]
  rfl

theorem irqDl_out {c : Cfg} {m : Mach} {o : Out} (h : o ∈ m.out) : o ∈ (irqDl c m).out := by
  unfold irqDl msix
  split
  · exact h
  · split
    · exact h
    · dsimp only
      split
      · exact h
      · exact List.mem_append_left _ h

/-- A record whose posted write failed goes to the dead-letter ring, and its queue is held. -/
theorem writeError_letter (hl : live s = true) (hf : s.m.hp.sent.find? (fun r => r.id == id && r.kind == 0) = some r) (hw : r.who = 1) (hoff : s.m.dlOff = false)
    (hy : qGet s.q r.q = some y) (hk : y.ctx.state ≠ qsKilled) (hb : lineBusy s.q (deadAt s.c s.m) 64 = false) (hr : ringFails s.m (deadAt s.c s.m) = none)
    (hroom : subMod s.m.dlTail s.m.dlHead (2 * 2 ^ s.c.tb.dlLog2) < 2 ^ s.c.tb.dlLog2) :
    Runs (.hostPortWriteError id) s fun t => bread t.m.mem.cells (deadAt s.c s.m) 64 = letterBytes r.data r.va 2 y.ctx.dom 0 s.m.dlSeq
      ∧ t.m.dlTail = (s.m.dlTail + 1) % (2 * 2 ^ s.c.tb.dlLog2) ∧ t.m.hp.sent = s.m.hp.sent.filter (·.id ≠ id) ∧ .aer ∈ t.m.out ∧ t.m.hp.fnc.aerWrite = true
      ∧ (qGet t.m r.q).map (·.ctx.state) = some qsHeld := by
  have he : writeError id s.c s.q = deadLetter s.c r.q r.data r.va 2 y.ctx.dom
      (send .aer { s.q with hp := { s.q.hp with sent := s.q.hp.sent.filter (·.id ≠ id), fnc := { s.q.hp.fnc with aerWrite := true } } }) := by
    unfold writeError
    rw [show s.q.hp.sent.find? (fun r => r.id == id && r.kind == 0) = some r from hf]
    dsimp only
    rw [if_pos hw, show qGet (send .aer { s.q with hp := { s.q.hp with sent := s.q.hp.sent.filter (·.id ≠ id), fnc := { s.q.hp.fnc with aerWrite := true } } }) r.q = some y from hy]
    rfl
  have ht := deadLetter_takes (c := s.c) (q := r.q) (rec := r.data) (target := r.va) (cause := 2) (dom := y.ctx.dom)
    (m := send .aer { s.q with hp := { s.q.hp with sent := s.q.hp.sent.filter (·.id ≠ id), fnc := { s.q.hp.fnc with aerWrite := true } } }) hoff hb hr hroom
  refine Runs.ofM rfl hl ?_
  dsimp only [State.m]
  rw [he, ht]
  have hblind {α : Type} {g : Mach → α} (h : IrqBlind g) (m : Mach) := irqDl_view h s.c m
  refine ⟨?_, ?_, ?_, irqDl_out (List.mem_singleton.2 rfl), ?_, ?_⟩
  · rw [hblind (g := Mach.mem) ⟨fun _ _ => rfl, fun _ _ => rfl⟩]
    exact (memStore_bytes (length_letterBytes ..) (hold r.q _)).1
  · exact hblind (g := Mach.dlTail) ⟨fun _ _ => rfl, fun _ _ => rfl⟩ _
  · exact hblind (g := fun m => m.hp.sent) ⟨fun _ _ => rfl, fun _ _ => rfl⟩ _
  · exact hblind (g := fun m => m.hp.fnc.aerWrite) ⟨fun _ _ => rfl, fun _ _ => rfl⟩ _
  · rw [hblind (g := fun m => qGet m r.q) ⟨fun _ _ => rfl, fun _ _ => rfl⟩]
    have hq := qGet_hold r.q s.q
    rw [hy, Option.map_some, if_neg hk] at hq
    exact congrArg (Option.map (·.ctx.state)) hq

end

/-! ### Moderation windows (R459, R270) -/

theorem irqDl_sends {c : Cfg} {m : Mach} (hu : m.irq.dlUntil ≤ m.now) (he : c.dlIrq.en = true) (hv : vecOpen m c.dlIrq.vector = true) (hg : givingUp m c.tb.dl (64 * 2 ^ c.tb.dlLog2) = false) :
    irqDl c m = { send (.msix c.dlIrq.vector) m with irq := { m.irq with dlUntil := m.now + c.dlIrq.modUs * 1000, dlPend := false } } := by
  unfold irqDl
  rw [he, hg, if_neg (by decide), if_neg (by simp [hu]), msix_open hv]
  rfl

theorem irqEvt_sends {c : Cfg} {m : Mach} (hu : m.irq.evtUntil ≤ m.now) (he : c.evtIrq.en = true) (hv : vecOpen m c.evtIrq.vector = true) (hg : givingUp m evtRing 0x40000 = false) :
    irqEvt c m = { send (.msix c.evtIrq.vector) m with irq := { m.irq with evtUntil := m.now + c.evtIrq.modUs * 1000, evtPend := false } } := by
  unfold irqEvt
  rw [he, hg, if_neg (by decide), if_neg (by simp [hu]), msix_open hv]
  rfl

/-- The one message that waits is ready: it goes. -/
theorem msixDue_single {m : Mach} {v a : Nat} {l : List Nat} (hd : m.irq.due = [(v, a, l)]) (ha : a + 64 ≤ m.now) (hl : ∀ b ∈ l, b ∉ m.hp.bisnp) (hv : vecOpen m v = true) :
    msixDue m = send (.msix v) { m with irq := { m.irq with due := [] } } := by
  have hready : msixReady m (v, a, l) = true := by
    unfold msixReady
    simp only [Bool.and_eq_true, decide_eq_true_eq, Bool.not_eq_true']
    exact ⟨ha, List.any_eq_false.2 fun b hb => by simp [hl b hb]⟩
  unfold msixDue
  rw [hd, List.filter_cons_of_pos hready, List.filter_nil, List.filter_cons_of_neg (by simp [hready]), List.filter_nil]
  exact msix_open (m := { m with irq := { m.irq with due := [] } }) hv

section
variable {s : State} {t0 : Nat} (hl : live s = true)
include hl

theorem irqExpiry_deadLetter (hp : s.m.irq.dlPend = true) (hu : s.m.irq.dlUntil ≤ max s.m.now t0) (he : s.c.dlIrq.en = true) (hv : vecOpen s.m s.c.dlIrq.vector = true)
    (hg : givingUp s.m s.c.tb.dl (64 * 2 ^ s.c.tb.dlLog2) = false) (hd : ∀ e ∈ s.m.irq.due, max s.m.now t0 < e.2.1 + 64) :
    Runs (.irqModerationExpiry true t0) s fun t => t.m.out = [.msix s.c.dlIrq.vector] ∧ t.m.irq.dlPend = false ∧ t.m.irq.dlUntil = max s.m.now t0 + s.c.dlIrq.modUs * 1000 := by
  have hx : irqExpiry true t0 s.c s.q = irqDl s.c (tickTo t0 s.q) := by
    unfold irqExpiry
    rw [msixDue_early (m := tickTo t0 s.q) hd]
    exact if_pos (Bool.and_eq_true_iff.2 ⟨hp, decide_eq_true hu⟩)
  refine Runs.ofM rfl hl ?_
  dsimp only [State.m]
  rw [hx, irqDl_sends (m := tickTo t0 s.q) hu he hv hg]
  exact ⟨rfl, rfl, rfl⟩

theorem irqExpiry_event (hp : s.m.irq.evtPend = true) (hu : s.m.irq.evtUntil ≤ max s.m.now t0) (he : s.c.evtIrq.en = true) (hv : vecOpen s.m s.c.evtIrq.vector = true)
    (hg : givingUp s.m evtRing 0x40000 = false) (hd : ∀ e ∈ s.m.irq.due, max s.m.now t0 < e.2.1 + 64) :
    Runs (.irqModerationExpiry false t0) s fun t => t.m.out = [.msix s.c.evtIrq.vector] ∧ t.m.irq.evtPend = false ∧ t.m.irq.evtUntil = max s.m.now t0 + s.c.evtIrq.modUs * 1000 := by
  have hx : irqExpiry false t0 s.c s.q = irqEvt s.c (tickTo t0 s.q) := by
    unfold irqExpiry
    rw [msixDue_early (m := tickTo t0 s.q) hd]
    exact if_pos (Bool.and_eq_true_iff.2 ⟨hp, decide_eq_true hu⟩)
  refine Runs.ofM rfl hl ?_
  dsimp only [State.m]
  rw [hx, irqEvt_sends (m := tickTo t0 s.q) hu he hv hg]
  exact ⟨rfl, rfl, rfl⟩

theorem irqExpiry_due {v a : Nat} {l : List Nat} (hd : s.m.irq.due = [(v, a, l)]) (ha : a + 64 ≤ max s.m.now t0) (hb : ∀ b ∈ l, b ∉ s.m.hp.bisnp) (hp : s.m.irq.dlPend = false)
    (hv : vecOpen s.m v = true) : Runs (.irqModerationExpiry true t0) s fun t => t.m.out = [.msix v] ∧ t.m.irq.due = [] := by
  have hx : irqExpiry true t0 s.c s.q = msixDue (tickTo t0 s.q) := by
    have hpend : (msixDue (tickTo t0 s.q)).irq.dlPend = false := by
      rw [msixDue_single (m := tickTo t0 s.q) hd ha hb hv]
      exact hp
    exact if_neg (by rw [hpend, Bool.false_and]; decide)
  refine Runs.ofM rfl hl ?_
  dsimp only [State.m]
  rw [hx, msixDue_single (m := tickTo t0 s.q) hd ha hb hv]
  exact ⟨rfl, rfl⟩

end

/-- A ready record is written (R26 to R28, R268, R278). -/
theorem recordWrite_writes {s : State} {q d t0 : Nat} {y : Queue} {x : Desc} {h : Held} {m0 : Mach} (hl : live s = true) (h0 : m0 = ownFlushed q d (msixDue (tickTo t0 s.q))) (hy : qGet m0 q = some y)
    (hx : mget y.descs d = some x) (hp : x.phase = 4) (hr : x.running = 0) (hu : unsent m0 q d = false) (hlo : linesOut m0 x = false) (hm : memberFirst m0 q d x = true)
    (ht : collectorTurn m0 q d = true) (hpf : s.m.power.fail < 2) (hf : flushFns x = []) (hc : x.cplHeld = some h) (hh : h.host = none) (hv : h.void = false)
    (hb : lineBusy m0 h.phys 32 = false) (hi : inImage m0 h.phys 32 = false) (hw : writeChk m0.mem y.ctx.dom h.phys 32 = .ok) (hbad : badIn m0.mem (s.c.tb.cnt + 16 * q) 16 = none) :
    Runs (.completionRecordWrite q d t0) s fun t => bread t.m.mem.cells h.phys 32 = recordBytes q y x false
      ∧ (∀ j, j < h.phys ∨ h.phys + 32 ≤ j → bget t.m.mem.cells j = bget m0.mem.cells j)
      ∧ (∀ v, x.irqVec = some v → x.noIrq = false → ∃ e ∈ t.m.irq.due, e.1 = v)
      ∧ (∃ z, qGet t.m q = some z ∧ z.jobs = (y.jobs + 1) % 2 ^ 64 ∧ z.descs = mdel y.descs d) ∧ ∀ r, r ≠ q → qGet t.m r = qGet s.m r := by
  have hpower : m0.power = s.m.power := by
    rw [h0, power_ownFlushed]
    exact msixDue_view (g := Mach.power) ⟨fun _ _ => rfl, fun _ _ => rfl⟩ _
  have hother (r : Nat) (hr : r ≠ q) : qGet m0 r = qGet s.m r := by
    rw [h0, qGet_ownFlushed_ne hr, msixDue_view (g := (qGet · r)) ⟨fun _ _ => rfl, fun _ _ => rfl⟩]
    rfl
  refine Runs.ofM rfl hl ?_
  dsimp only [State.m]
  rw [recordWrite_done h0 ((descGet_of_qGet hy).trans hx) hp hr hu hlo hm ht (by rw [hpower]; exact hpf) hf]
  obtain ⟨hin, hout, hvec, hq, hne⟩ := recordDone_writes (c := s.c) hy hc hh hv hb hi hw hbad
  exact ⟨hin, hout, hvec, hq, fun r hr => (hne r hr).trans (hother r hr)⟩

/-- Settles O51: the row's record is stored, its queue counts it and forgets the descriptor; a failed one goes to the dead-letter
ring; an ended window sends its vector. -/
theorem completionRecordsAreWritten : Obligations.CompletionRecordsAreWritten := by
  refine ⟨?_, ?_, ?_, ?_, ?_⟩
  · intro s q d t0 y x h m0 hl h0 hy hx hp hr hu hlo hm ht hpf hf hc hh hv hb hi hw hbad
    exact recordWrite_writes hl h0 hy hx hp hr hu hlo hm ht hpf hf hc hh hv hb hi hw hbad
  · intro s id r y hl hf hw hoff hy hk hb hr hroom
    exact writeError_letter hl hf hw hoff hy hk hb hr hroom
  · intro s t0 hl hp hu he hv hg hd
    exact irqExpiry_deadLetter hl hp hu he hv hg hd
  · intro s t0 v a l hl hd ha hb hp hv
    exact irqExpiry_due hl hd ha hb hp hv
  · intro s t0 hl hp hu he hv hg hd
    exact irqExpiry_event hl hp hu he hv hg hd

end Sys2Proof.Machine
end

section
/-! SUPPORT. Elements in bytes, and FP32 codes: O14 (R31 to R33, R87). -/

namespace Sys2Proof.Machine
open Sys2Proof

/-! ### Codes of equal width, one above another -/

/-- Codes of `b` bits, the first lowest. -/
def codeSum (b : Nat) (cs : List Nat) : Nat := (cs.zipIdx.map fun p => p.1 % 2 ^ b * 2 ^ (b * p.2)).foldl (· + ·) 0

theorem codeSum_cons (b c : Nat) (cs : List Nat) : codeSum b (c :: cs) = c % 2 ^ b + 2 ^ b * codeSum b cs := by
  unfold codeSum
  rw [← List.sum_eq_foldl, ← List.sum_eq_foldl, List.zipIdx_cons, List.map_cons, List.sum_cons, Nat.zero_add, List.zipIdx_eq_map_add, List.map_map, ← sum_map_mul]
  refine congr (congrArg HAdd.hAdd ?_) (congrArg List.sum (List.map_congr_left fun p _ => ?_))
  · rw [Nat.mul_zero, Nat.pow_zero, Nat.mul_one]
  · show p.1 % 2 ^ b * 2 ^ (b * (1 + p.2)) = 2 ^ b * (p.1 % 2 ^ b * 2 ^ (b * p.2))
    rw [Nat.mul_add, Nat.mul_one, Nat.pow_add, Nat.mul_left_comm]

theorem codeSum_lt (b : Nat) (cs : List Nat) : codeSum b cs < 2 ^ (b * cs.length) := by
  induction cs with
  | nil => exact Nat.two_pow_pos _
  | cons c cs ih =>
    have hc := Nat.mod_lt c (Nat.two_pow_pos b)
    rw [codeSum_cons, List.length_cons, Nat.mul_succ, Nat.pow_add, Nat.mul_comm (2 ^ (b * cs.length))]
    have hstep := Nat.mul_le_mul_left (2 ^ b) (Nat.succ_le_of_lt ih)
    rw [Nat.mul_succ] at hstep
    omega

/-- Each code stands in its own bits. -/
theorem bits_codeSum (b : Nat) (cs : List Nat) : ∀ i, bits (codeSum b cs) (b * i) b = cs.getD i 0 % 2 ^ b := by
  induction cs with
  | nil => intro i; simp [codeSum, bits]
  | cons c cs ih =>
    intro i
    have hpos := Nat.two_pow_pos b
    have hc := Nat.mod_lt c hpos
    rw [codeSum_cons]
    cases i with
    | zero => simp [bits]
    | succ i =>
      have hstep : (c % 2 ^ b + 2 ^ b * codeSum b cs) >>> (b * (i + 1)) = codeSum b cs >>> (b * i) := by
        rw [Nat.mul_succ, Nat.add_comm (b * i), Nat.shiftRight_add, Nat.shiftRight_eq_div_pow _ b, Nat.add_mul_div_left _ _ hpos, Nat.div_eq_of_lt hc, Nat.zero_add]
      rw [List.getD_cons_succ, ← ih, bits, hstep, bits]

/-! ### Rows (R31 to R33) -/

theorem leAt_flatMap_toLe {α : Type} (w : Nat) (f : α → Nat) : ∀ (l : List α) (k : Nat), leAt (l.flatMap fun u => toLe w (f u)) (w * k) w = ((l[k]?).map fun u => f u % 256 ^ w).getD 0 := by
  intro l
  induction l with
  | nil => intro k; simp [leAt, leNat]
  | cons u r ih =>
    intro k
    rw [List.flatMap_cons]
    cases k with
    | zero => exact leAt_here ..
    | succ k =>
      rw [leAt_skip (by rw [Nat.mul_succ]; omega), Nat.mul_succ, Nat.add_sub_cancel, ih, List.getElem?_cons_succ]

/-- The bytes of a row of 6-bit codes: three for each four. -/
theorem packRow_six {s : Sd} (h : sdBits s = 6) (cs : List Nat) : packRow s cs = (chunks 4 cs).flatMap fun u => toLe 3 (codeSum 6 u) := by
  unfold packRow
  rw [if_pos h]
  rfl

theorem packRow_plain {s : Sd} (h : sdBits s ≠ 6) (cs : List Nat) : packRow s cs = toLe (rowSize s cs.length) (codeSum (sdBits s) cs) := by
  unfold packRow
  rw [if_neg h]
  rfl

theorem chunksAux_length {α : Type} {n : Nat} (hn : 0 < n) (f : Nat) : ∀ l : List α, l.length ≤ f → (chunksAux n f l).length = cdiv l.length n := by
  induction f with
  | zero =>
    intro l hl
    rw [List.length_eq_zero_iff.1 (Nat.le_zero.1 hl)]
    exact (Nat.div_eq_of_lt (by simp; omega)).symm
  | succ f ih =>
    intro l hl
    cases l with
    | nil => exact (Nat.div_eq_of_lt (by simp; omega)).symm
    | cons x r =>
      rw [chunksAux, List.length_cons, ih _ (by simp at hl ⊢; omega), List.length_drop, cdiv, cdiv]
      have hlen : 0 < (x :: r).length := Nat.succ_pos _
      generalize (x :: r).length = k at hlen
      rcases Nat.lt_or_ge n k with h | h
      · rw [show k + n - 1 = (k - n + n - 1) + n by omega, Nat.add_div_right _ hn]
      · rw [show k - n = 0 by omega, Nat.zero_add, Nat.div_eq_of_lt (by omega), show k + n - 1 = (k - 1) + n by omega, Nat.add_div_right _ hn, Nat.div_eq_of_lt (by omega)]

theorem chunks_length {α : Type} {n : Nat} (hn : 0 < n) (l : List α) : (chunks n l).length = cdiv l.length n := chunksAux_length hn _ l (Nat.le_refl _)

/-- The size of a row whose codes are no 6-bit ones: its bits in whole bytes. -/
theorem rowSize_holds {s : Sd} (h : sdBits s ∈ [4, 8, 16, 32]) (n : Nat) : sdBits s * n ≤ 8 * rowSize s n := by
  simp only [List.mem_cons, List.not_mem_nil, or_false] at h
  unfold rowSize cdiv
  rcases h with h | h | h | h
  · rw [h, if_pos rfl]
    omega
  all_goals
    rw [h, if_neg (by decide), if_neg (by decide)]
    omega

/-- Code `i` of a row. -/
def codeAt (s : Sd) (l : List Byte) (i : Nat) : Nat :=
  if sdBits s = 6 then bits (leAt l (3 * (i / 4)) 3) (6 * (i % 4)) 6 else bits (leNat l) (sdBits s * i) (sdBits s)

theorem unpackRow_eq (s : Sd) (k : Nat) (l : List Byte) : unpackRow s k l = (List.range k).map (codeAt s l) := rfl

theorem unpackRow_packRow {s : Sd} {cs : List Nat} (hcs : ∀ c ∈ cs, c < 2 ^ sdBits s) (h : sdBits s ∈ [4, 6, 8, 16, 32]) : unpackRow s cs.length (packRow s cs) = cs := by
  have hcode (i : Nat) (hi : i < cs.length) : cs.getD i 0 % 2 ^ sdBits s = cs[i] := by
    rw [getD_of_lt 0 hi, Nat.mod_eq_of_lt (hcs _ (List.getElem_mem hi))]
  rw [unpackRow_eq]
  refine List.ext_getElem (by rw [List.length_map, List.length_range]) fun i _ hi => ?_
  rw [List.getElem_map, List.getElem_range, ← hcode i hi, codeAt]
  by_cases h6 : sdBits s = 6
  · have hchunk : (chunks 4 cs)[i / 4]? = some ((cs.drop (4 * (i / 4))).take 4) := by
      have hlt : i / 4 < (chunks 4 cs).length := by rw [chunks_length (by decide), cdiv]; omega
      rw [List.getElem?_eq_getElem hlt, ← getD_chunks (by decide) cs (i / 4), getD_of_lt [] hlt]
    have hlt : codeSum 6 ((cs.drop (4 * (i / 4))).take 4) < 256 ^ 3 :=
      Nat.lt_of_lt_of_le (codeSum_lt _ _) (Nat.pow_le_pow_right (by decide) (by rw [List.length_take]; omega) : _ ≤ 2 ^ 24)
    rw [if_pos h6, packRow_six h6, leAt_flatMap_toLe, hchunk, Option.map_some, Option.getD_some, Nat.mod_eq_of_lt hlt, bits_codeSum, h6]
    rw [List.getD_eq_getElem?_getD, List.getElem?_take_of_lt (Nat.mod_lt i (by decide)), List.getElem?_drop, Nat.div_add_mod, ← List.getD_eq_getElem?_getD]
  · have hlt : codeSum (sdBits s) cs < 256 ^ rowSize s cs.length := by
      rw [show 256 = 2 ^ 8 from rfl, ← Nat.pow_mul]
      refine Nat.lt_of_lt_of_le (codeSum_lt _ _) (Nat.pow_le_pow_right (by decide) (rowSize_holds ?_ _))
      simp only [List.mem_cons, List.not_mem_nil, or_false] at h ⊢
      exact h.imp_right fun h => h.resolve_left h6
    rw [if_neg h6, packRow_plain h6, leNat_toLe, Nat.mod_eq_of_lt hlt, bits_codeSum]

theorem length_packRow (s : Sd) (cs : List Nat) : (packRow s cs).length = rowSize s cs.length := by
  by_cases h6 : sdBits s = 6
  · rw [packRow_six h6, List.length_flatMap]
    simp only [toLe_length, List.map_const', List.sum_replicate_nat, chunks_length (n := 4) (by decide)]
    unfold rowSize
    rw [if_neg (by omega), if_pos h6, Nat.mul_comm]
  · rw [packRow_plain h6, toLe_length]

/-! ### Buffers -/

theorem bget_bufPut_out {j : Nat} : ∀ (ps : List Piece) (l : List Byte) (b : Map Byte), (∀ p ∈ ps, j < p.a ∨ p.a + p.n ≤ j) → bget (bufPut b ps l) j = bget b j := by
  intro ps
  induction ps with
  | nil => intro l b _; rfl
  | cons p r ih =>
    intro l b h
    rw [bufPut, ih _ _ fun q hq => h q (List.mem_cons_of_mem _ hq)]
    refine bget_bwrite_out _ _ _ _ ((h p List.mem_cons_self).imp_right fun hj => ?_)
    exact Nat.le_trans (Nat.add_le_add_left (List.length_take_le ..) _) hj

/-- Bytes written in pieces that do not overlap are read back. -/
theorem bufBytes_bufPut : ∀ (ps : List Piece) (l : List Byte) (b : Map Byte), ps.Pairwise (fun p q => p.a + p.n ≤ q.a ∨ q.a + q.n ≤ p.a) → l.length = pieceBytes ps →
    bufBytes (bufPut b ps l) ps = l := by
  intro ps
  induction ps with
  | nil => intro l b _ hl; exact (List.length_eq_zero_iff.1 hl).symm
  | cons p r ih =>
    intro l b hp hl
    obtain ⟨hpr, hr⟩ := List.pairwise_cons.1 hp
    have hsum : l.length = p.n + pieceBytes r := by
      rw [hl, pieceBytes, pieceBytes, ← List.sum_eq_foldl, ← List.sum_eq_foldl, List.map_cons, List.sum_cons]
    have htake : (l.take p.n).length = p.n := by rw [List.length_take]; omega
    have hhead : bread (bufPut (bwrite b p.a (l.take p.n)) r (l.drop p.n)) p.a p.n = l.take p.n := by
      rw [bget_bread p.n _ (bwrite b p.a (l.take p.n)) p.a fun j h1 h2 => bget_bufPut_out r _ _ fun q hq => (hpr q hq).imp (by omega) (by omega)]
      have h := bread_bwrite (l.take p.n) b p.a
      rwa [htake] at h
    rw [bufPut, bufBytes, List.flatMap_cons, hhead]
    have htail := ih (l.drop p.n) (bwrite b p.a (l.take p.n)) hr (by rw [List.length_drop]; omega)
    rw [bufBytes] at htail
    rw [htail, List.take_append_drop]

/-! ### FP32 codes (R37, R50, R87) -/

/-- The sign bit of an FP32 code. -/
def signOf (v : Nat) : Bool := (v >>> 31) % 2 == 1

/-- The value of an FP32 code: infinite, a NaN, subnormal or normal. -/
theorem dec32_eq (v : Nat) : dec32 v = if v % 2 ^ 31 = 0x7F800000 then .inf (signOf v) else if 0x7F800000 < v % 2 ^ 31 then .nan
    else if v % 2 ^ 31 / 2 ^ 23 = 0 then .fin (signOf v) (v % 2 ^ 31 % 2 ^ 23) (-149) else .fin (signOf v) (2 ^ 23 + v % 2 ^ 31 % 2 ^ 23) ((v % 2 ^ 31 / 2 ^ 23 : Nat) - 150) := by
  unfold dec32 decodeF
  dsimp only [f32]
  simp only [Nat.shiftRight_eq_div_pow (v % _)]
  rw [show ((v % 2 ^ 31 / 2 ^ 23 : Nat) : Int) - 150 = ((v % 2 ^ 31 / 2 ^ 23 : Nat) : Int) - 127 - 23 by omega]
  rfl

/-- A subnormal significand is its own code. -/
theorem roundMag_subnormal {m : Nat} (h : m < 2 ^ 23) : roundMag f32 m (-149) = m := by
  unfold roundMag
  split
  · omega
  · rename_i h0
    have hlog : Nat.log2 m < 23 := (Nat.log2_lt h0).2 h
    dsimp only [f32]
    rw [show max (((Nat.log2 m : Nat) : Int) + -149 - ((23 : Nat) : Int)) (1 - ((127 : Nat) : Int) - ((23 : Nat) : Int)) = -149 by omega]
    exact Nat.add_zero m

/-- A normal significand of 24 bits keeps its bits, under its exponent. -/
theorem roundMag_normal {m e : Nat} (hm : m < 2 ^ 23) (he : e ≠ 0) : roundMag f32 (2 ^ 23 + m) ((e : Int) - 150) = m + e * 2 ^ 23 := by
  have hlog : Nat.log2 (2 ^ 23 + m) = 23 := (Nat.log2_eq_iff (by omega)).2 ⟨by omega, by omega⟩
  unfold roundMag
  rw [if_neg (by omega), hlog]
  dsimp only [f32]
  rw [show max (((23 : Nat) : Int) + ((e : Int) - 150) - ((23 : Nat) : Int)) (1 - ((127 : Nat) : Int) - ((23 : Nat) : Int)) = (e : Int) - 150 by omega,
    show ((e : Int) - 150 - ((e : Int) - 150)) = Int.ofNat 0 by simp,
    show ((e : Int) - 150 - (1 - ((127 : Nat) : Int) - ((23 : Nat) : Int))).toNat = e - 1 by omega, rna, Nat.shiftLeft_zero, Nat.shiftLeft_eq]
  omega

/-- The magnitude bits of a code whose value is no NaN, under whatever sign. -/
theorem enc32_sign {v : Nat} (h : fvIsNan (dec32 v) = false) (s : Bool) :
    enc32 (match dec32 v with | .nan => .nan | .inf _ => .inf s | .fin _ m e => .fin s m e) = withSign f32 s (v % 2 ^ 31) := by
  rw [dec32_eq] at h ⊢
  by_cases hi : v % 2 ^ 31 = 0x7F800000
  · rw [if_pos hi, hi]
    rfl
  rw [if_neg hi] at h ⊢
  by_cases hn : 0x7F800000 < v % 2 ^ 31
  · rw [if_pos hn] at h
    cases h
  rw [if_neg hn]
  by_cases he : v % 2 ^ 31 / 2 ^ 23 = 0
  · have hm : v % 2 ^ 31 % 2 ^ 23 = v % 2 ^ 31 := by omega
    rw [if_pos he]
    dsimp only [enc32]
    rw [roundMag_subnormal (Nat.mod_lt _ (by decide)), hm, Nat.min_eq_left (by omega)]
  · rw [if_neg he]
    dsimp only [enc32]
    rw [roundMag_normal (Nat.mod_lt _ (by decide)) he, Nat.min_eq_left (by omega)]
    congr 1
    omega

theorem signOf_eq {v : Nat} (h : v < 2 ^ 32) : signOf v = decide (2 ^ 31 ≤ v) := by
  unfold signOf
  rw [Nat.shiftRight_eq_div_pow]
  rcases Nat.lt_or_ge v (2 ^ 31) with hv | hv
  · rw [decide_eq_false (by omega), Nat.div_eq_of_lt hv]; rfl
  · rw [decide_eq_true hv, show v / 2 ^ 31 = 1 by omega]; rfl

theorem absF_clears {v : Nat} (h : fvIsNan (dec32 v) = false) : absF v = v % 2 ^ 31 := by
  have hs := enc32_sign h false
  unfold absF fvAbs
  rw [show withSign f32 false (v % 2 ^ 31) = v % 2 ^ 31 from rfl] at hs
  exact hs

/-- The sign a value that is no NaN has is its code's. -/
theorem fvNeg_dec32 (v : Nat) : fvNeg (dec32 v) = match dec32 v with | .nan => .nan | .inf _ => .inf (!signOf v) | .fin _ m e => .fin (!signOf v) m e := by
  rw [dec32_eq]
  by_cases hi : v % 2 ^ 31 = 0x7F800000
  · rw [if_pos hi]
    rfl
  rw [if_neg hi]
  by_cases hn : 0x7F800000 < v % 2 ^ 31
  · rw [if_pos hn]
    rfl
  rw [if_neg hn]
  by_cases he : v % 2 ^ 31 / 2 ^ 23 = 0
  · rw [if_pos he]
    rfl
  · rw [if_neg he]
    rfl

theorem negF_flips {v : Nat} (hv : v < 2 ^ 32) (h : fvIsNan (dec32 v) = false) : negF v = (v + 2 ^ 31) % 2 ^ 32 := by
  unfold negF
  rw [fvNeg_dec32, enc32_sign h, signOf_eq hv, withSign, show f32.wid - 1 = 31 from rfl]
  rcases Nat.lt_or_ge v (2 ^ 31) with hs | hs
  · rw [decide_eq_false (by omega), Bool.not_false, if_pos rfl]
    omega
  · rw [decide_eq_true hs, Bool.not_true, if_neg (by decide)]
    omega

theorem eq_nan {x : Fv} (h : fvIsNan x = true) : x = .nan := by
  cases x with
  | nan => rfl
  | inf s => cases h
  | fin s m e => cases h

theorem fvLt_irrefl (x : Fv) : fvLt x x = false := by
  cases x with
  | nan => rfl
  | inf s => cases s <;> rfl
  | fin s m e => exact decide_eq_false (Int.lt_irrefl _)

theorem fvLt_asymm {x y : Fv} (h : fvLt x y = true) : fvLt y x = false := by
  cases x with
  | nan => cases h
  | inf s =>
    cases y with
    | nan => cases h
    | inf t => revert h; cases s <;> cases t <;> decide
    | fin t n g => rw [show s = true from h]; rfl
  | fin s m e =>
    cases y with
    | nan => cases h
    | inf t => rw [show t = false by simpa [fvLt] using h]; rfl
    | fin t n g =>
      refine decide_eq_false fun hlt => Int.lt_asymm hlt ?_
      rw [Int.min_comm g e]
      exact of_decide_eq_true h

/-- Equal values are in no order. -/
theorem not_lt_of_fvEq {x y : Fv} (h : fvEq x y = true) : fvLt x y = false ∧ fvLt y x = false := by
  unfold fvEq at h
  split at h
  · cases h
  · cases h
  · simpa using h

section
variable {a b : Nat}

theorem minF_nan (h : fvIsNan (dec32 a) = true ∨ fvIsNan (dec32 b) = true) : minF a b = 0x7FC00000 := if_pos (Bool.or_eq_true_iff.2 h)

theorem maxF_nan (h : fvIsNan (dec32 a) = true ∨ fvIsNan (dec32 b) = true) : maxF a b = 0x7FC00000 := if_pos (Bool.or_eq_true_iff.2 h)

variable (ha : fvIsNan (dec32 a) = false) (hb : fvIsNan (dec32 b) = false)
include ha hb

theorem minF_least : (minF a b = a ∨ minF a b = b) ∧ fvLt (dec32 b) (dec32 (minF a b)) = false := by
  have hne : ¬(fvIsNan (dec32 a) || fvIsNan (dec32 b)) = true := by rw [ha, hb]; decide
  unfold minF
  dsimp only
  rw [if_neg hne]
  split
  · rename_i heq
    split
    · exact ⟨.inl rfl, (not_lt_of_fvEq heq).2⟩
    · exact ⟨.inr rfl, fvLt_irrefl _⟩
  · split
    · rename_i hlt
      exact ⟨.inl rfl, fvLt_asymm hlt⟩
    · exact ⟨.inr rfl, fvLt_irrefl _⟩

theorem maxF_greatest : (maxF a b = a ∨ maxF a b = b) ∧ fvLt (dec32 (maxF a b)) (dec32 b) = false := by
  have hne : ¬(fvIsNan (dec32 a) || fvIsNan (dec32 b)) = true := by rw [ha, hb]; decide
  unfold maxF
  dsimp only
  rw [if_neg hne]
  split
  · rename_i heq
    split
    · exact ⟨.inr rfl, fvLt_irrefl _⟩
    · exact ⟨.inl rfl, (not_lt_of_fvEq heq).1⟩
  · split
    · exact ⟨.inr rfl, fvLt_irrefl _⟩
    · rename_i hlt
      exact ⟨.inl rfl, Bool.eq_false_iff.2 hlt⟩

end

/-- Settles O14: the codes of a row stand in bits of their own, a later piece does not write over an earlier one's bytes, and the
sign is one bit of an FP32 code. -/
theorem numberFormatsKeepTheirValues : Obligations.NumberFormatsKeepTheirValues := by
  refine ⟨⟨?_, ?_, ?_⟩, ?_, ?_, ?_, ?_⟩
  · intro s cs hcs h
    exact unpackRow_packRow hcs h
  · intro s cs _
    exact length_packRow s cs
  · intro b ps l hp hl
    exact bufBytes_bufPut ps l b hp hl
  · intro v hv h
    exact ⟨absF_clears h, negF_flips hv h⟩
  · intro v h
    have hn := eq_nan h
    exact ⟨by rw [absF, hn]; rfl, by rw [negF, hn]; rfl⟩
  · intro a b ha hb
    obtain ⟨hmin, hless⟩ := minF_least ha hb
    obtain ⟨hmax, hmore⟩ := maxF_greatest ha hb
    exact ⟨hmin, hmax, hless, hmore⟩
  · intro a b h
    exact ⟨minF_nan h, maxF_nan h⟩

end Sys2Proof.Machine
end

section
/-! SUPPORT. The Sorting Office: what its reads leave alone, and its operations from entry to end: O53 (R209 to R219, R230). -/

namespace Sys2Proof.Machine
open Sys2Proof

/-! ### Reads of the Sorting Office -/

/-- The block without what a read of the Sorting Office touches: what a read of the front end does, and the table cache. -/
def Mach.unsorted (m : Mach) : Mach :=
  let a := m.unread
  { a with depot := { a.depot with tcache := [] } }

theorem unsorted_of_unread {a b : Mach} (h : a.unread = b.unread) : a.unsorted = b.unsorted := by unfold Mach.unsorted; rw [h]

/-- A projection of what such reads leave alone. -/
theorem view_of_unsorted {α : Type} (g : Mach → α) (hg : ∀ m, g m.unsorted = g m) {a b : Mach} (h : a.unsorted = b.unsorted) : g a = g b := by
  rw [← hg a, h, hg]

theorem unsorted_engPut (a : Nat) (l : List Byte) (m : Mach) : (engPut a l m).unsorted = m.unsorted := unsorted_of_unread (unread_engPut ..)

theorem unsorted_tcFlush (f : TLine → Bool) (m : Mach) : (tcFlush f m).unsorted = m.unsorted := by
  have hput (l : TLine) (m : Mach) : Mach.unsorted (l.data.foldl (fun m b => engPut b.1 [b.2] m) m) = m.unsorted := foldl_keeps Mach.unsorted _ (fun _ _ => unsorted_engPut ..) _ m
  unfold tcFlush
  refine Eq.trans rfl (foldl_keeps Mach.unsorted _ (fun m l => ?_) _ m)
  split
  · rfl
  · exact hput l m

theorem unsorted_tcHold (c : Cfg) (dom tab a n : Nat) (m : Mach) : (tcHold c dom tab a n m).unsorted = m.unsorted := by
  unfold tcHold
  exact Eq.trans rfl ((unsorted_tcFlush ..).trans rfl)

theorem unsorted_feThen {α β : Type} {m0 : Mach} {r : Mach × Fe α} {f : α → Mach → Mach × Fe β} {m : Mach} {v : β} (h : feThen m0 r f = (m, .ok v))
    (hr : ∀ n a, r = (n, .ok a) → n.unsorted = m0.unsorted) (hf : ∀ a n n1 b, f a n = (n1, .ok b) → n1.unsorted = n.unsorted) : m.unsorted = m0.unsorted := by
  obtain ⟨n0, a, n, n1, h0, hn, h1, hm⟩ := feThen_ok h
  rw [unsorted_of_unread hm, hf _ _ _ _ h1, unsorted_of_unread hn, hr _ _ h0]

/-- Bytes that lie in device memory stand in the table cache from then on. -/
theorem unsorted_tablePart (c : Cfg) (q tab va : Nat) (l : List Byte) (m : Mach) :
    (match translateNow c m (qDom m q) va .read with
      | .dev a => (tcHold c (qDom m q) tab a l.length m, tcView m (qDom m q) tab a l)
      | _ => (m, l)).1.unsorted = m.unsorted := by
  split
  · exact unsorted_tcHold ..
  · rfl

theorem unsorted_tableRead {c : Cfg} {q tab va n : Nat} {m m1 : Mach} {l : List Byte} (h : tableRead c q tab va n m = (m1, .ok l)) : m1.unsorted = m.unsorted := by
  refine unsorted_feThen h (fun _ _ h => unsorted_of_unread (unread_feReadN h)) fun a n n1 b hb => ?_
  cases congrArg Prod.fst hb
  exact (unsorted_tablePart ..).trans (unsorted_tablePart ..)

theorem unsorted_regionAsk (c : Cfg) (q d base n : Nat) (wr : Bool) (m : Mach) : (regionAsk c q d base n wr m).unsorted = m.unsorted := by
  unfold regionAsk regionReqs
  split
  · split
    · rfl
    · exact unsorted_of_unread (unread_of_served (served_addLater ..))
  · rfl

theorem unsorted_soRead {c : Cfg} {q d : Nat} {s : Span} {m m1 : Mach} {l : List Byte} (h : soRead c q d s m = (m1, .ok l)) : m1.unsorted = m.unsorted := by
  unfold soRead at h
  split at h
  · exact unsorted_tableRead h
  · split at h
    · cases congrArg Prod.fst h
      exact unsorted_regionAsk ..
    · exact unsorted_of_unread (unread_feReadN h)

theorem unsorted_soReads {c : Cfg} {q d : Nat} : ∀ {ss : List Span} {m m1 : Mach} {ls : List (List Byte)}, soReads c q d ss m = (m1, .ok ls) → m1.unsorted = m.unsorted
  | [], _, _, _, h => by cases h; rfl
  | s :: r, m, m1, ls, h => by
    unfold soReads at h
    refine unsorted_feThen h (fun _ _ => unsorted_soRead) fun a n n1 b hb => ?_
    split at hb
    · rename_i hr
      cases hb
      exact unsorted_soReads hr
    · exact unsorted_soReads hb

theorem unsorted_readBags {c : Cfg} {q d : Nat} {x : Desc} {m m1 : Mach} {b : Option (List (Nat × Nat))} (h : readBags c q d x m = (m1, .ok b)) : m1.unsorted = m.unsorted := by
  refine unsorted_feThen h (fun n a hr => ?_) fun a n n1 b hb => by cases hb; rfl
  split at hr
  · cases hr; rfl
  · exact unsorted_soRead hr

/-! ### Bounds and plans -/

theorem unsorted_officeBound {c : Cfg} {q d : Nat} {x : Desc} {m m1 : Mach} {v : (Nat × Nat) ⊕ (Nat × Nat)} (h : officeBound c q d x m = (m1, .ok v)) : m1.unsorted = m.unsorted := by
  unfold officeBound at h
  split at h
  case isTrue => cases h; rfl
  split at h
  case isTrue => split at h <;> cases h <;> rfl
  split at h
  case isTrue =>
    split at h
    · cases h; rfl
    · refine unsorted_feThen h (fun _ _ => unsorted_readBags) fun a n n1 b hb => ?_
      split at hb
      · cases hb; rfl
      · refine unsorted_feThen hb (fun n a hr => ?_) fun a n n1 b hb => by cases hb; rfl
        split at hr
        · exact unsorted_soRead hr
        · cases hr; rfl
  split at h
  case isTrue => split at h <;> cases h <;> rfl
  split at h
  case isTrue => cases h; rfl
  case isFalse => exact unsorted_feThen h (fun _ _ => unsorted_soRead) fun a n n1 b hb => by cases congrArg Prod.fst hb; rfl

theorem unsorted_copyPlan {c : Cfg} {q d : Nat} {x : Desc} {m m1 : Mach} {p : Plan} (h : copyPlan c q d x m = (m1, .ok p)) : m1.unsorted = m.unsorted := by
  unfold copyPlan at h
  dsimp only at h
  split at h <;> rename_i hr <;> cases h
  exact unsorted_soReads hr

theorem unsorted_gsPlan {c : Cfg} {q d : Nat} {x : Desc} {m m1 : Mach} {p : Plan} (h : gsPlan c q d x m = (m1, .ok p)) : m1.unsorted = m.unsorted := by
  unfold gsPlan at h
  split at h
  · cases h; rfl
  · refine unsorted_feThen h (fun _ _ => unsorted_readBags) fun a n n1 b hb => ?_
    split at hb
    · cases hb; rfl
    · refine unsorted_feThen hb (fun _ _ => unsorted_soReads) fun a n n1 b hb => ?_
      exact unsorted_feThen hb (fun _ _ => unsorted_soReads) fun a n n1 b hb => by cases congrArg Prod.fst hb; rfl

theorem unsorted_reshardPlan {c : Cfg} {q d : Nat} {x : Desc} {m m1 : Mach} {p : Plan} (h : reshardPlan c q d x m = (m1, .ok p)) : m1.unsorted = m.unsorted := by
  refine unsorted_feThen h (fun _ _ => unsorted_soRead) fun a n n1 b hb => ?_
  exact unsorted_feThen hb (fun _ _ => unsorted_soReads) fun a n n1 b hb => by cases congrArg Prod.fst hb; rfl

/-- The plan of a descriptor that is no RUN. -/
theorem unsorted_officePlan {c : Cfg} {q d : Nat} {x : Desc} {m m1 : Mach} {p : Plan} (hx : x.isRun = false) (h : officePlan c q d x m = (m1, .ok p)) : m1.unsorted = m.unsorted := by
  unfold officePlan at h
  rw [hx] at h
  split at h
  case isTrue hr => cases hr
  split at h
  case isTrue => exact unsorted_copyPlan h
  split at h
  case isTrue => exact unsorted_gsPlan h
  case isFalse => exact unsorted_reshardPlan h

theorem ground_soLoose (c : Cfg) (q d : Nat) (ws : List SoW) (m : Mach) : (soLoose c q d ws m).ground = m.ground := by
  unfold soLoose
  refine ground_foldl _ (fun m w => ?_) _ m
  split
  · split
    · rfl
    · split
      · exact ground_tcPut ..
      · exact ground_engPut ..
  · rfl

/-! ### An operation that ends (R212 to R219) -/

theorem complete_ops (q d st de : Nat) (m : Mach) : (complete q d st de m).depot.ops = m.depot.ops :=
  complete_view (fun m => m.depot.ops) (fun _ _ => rfl) (fun _ _ => rfl) (fun _ _ => rfl) q d st de m

theorem officeDrop_left (q d : Nat) (m : Mach) : ∀ o ∈ (officeDrop q d m).depot.ops, ¬(o.q = q ∧ o.desc = d) := by
  intro o ho h
  have hf := (List.mem_filter.1 ho).2
  simp [h.1, h.2] at hf

/-- The number of free values drawn so far. -/
def withDraws (n : Nat) (m : Mach) : Mach := { m with draws := n }

/-- A finished operation of a descriptor that is no RUN: the descriptor completes. -/
theorem officeLeave_completes {q d : Nat} {m : Mach} {x : Desc} (hx : descGet m q d = some x) (hr : x.isRun = false) (st de : Nat) :
    (officeLeave q d st de m).mem = m.mem ∧ (∀ o ∈ (officeLeave q d st de m).depot.ops, ¬(o.q = q ∧ o.desc = d))
      ∧ ∃ z, descGet (officeLeave q d st de m) q d = some z ∧ z.phase = 4 ∧ z.record = some (st, de) := by
  have he : officeLeave q d st de m = complete q d st de (descUpd q d (fun z => { z with so := false }) (officeDrop q d m)) := by
    unfold officeLeave
    rw [hx]
    dsimp only
    rw [hr]
    rfl
  have hd : descGet (descUpd q d (fun z => { z with so := false }) (officeDrop q d m)) q d = some { x with so := false } := by
    rw [descGet_descUpd]
    exact congrArg (Option.map _) hx
  rw [he]
  refine ⟨complete_view Mach.mem (fun _ _ => rfl) (fun _ _ => rfl) (fun _ _ => rfl) .., ?_, _, descGet_complete hd st de, rfl, rfl⟩
  rw [complete_ops]
  exact officeDrop_left q d m

theorem refuse_view {α : Type} (g : Mach → α) (hq : ∀ m k, g { m with queues := k } = g m) (hs : ∀ m k, g { m with sched := k } = g m) (hl : ∀ m k, g { m with ledger := k } = g m)
    (hd : ∀ m k, g { m with depot := { m.depot with layers := k } } = g m) (q d st de : Nat) (m : Mach) : g (refuse q d st de m) = g m := by
  refine (complete_view g hq hs hl ..).trans ((hd ..).trans ?_)
  unfold cancelUnissued
  split
  · rfl
  · exact (hq ..).trans (hl ..)

/-- An operation of a descriptor that is no RUN cannot go on: the descriptor completes. -/
theorem officeFail_refuses {q d : Nat} {m : Mach} {x : Desc} (hx : descGet m q d = some x) (hr : x.isRun = false) (st de : Nat) :
    (officeFail q d st de m).mem = m.mem ∧ (officeFail q d st de m).depot.ops = m.depot.ops
      ∧ ∃ z, descGet (officeFail q d st de m) q d = some z ∧ z.phase = 4 ∧ z.record = some (st, de) := by
  have he : officeFail q d st de m = refuse q d st de (descUpd q d (fun z => { z with so := false }) m) := by
    unfold officeFail
    rw [hx]
    dsimp only
    rw [hr]
    rfl
  have hd : descGet (descUpd q d (fun z => { z with so := false }) m) q d = some { x with so := false } := by
    rw [descGet_descUpd, hx]
    rfl
  obtain ⟨z, hz, hp, hrec, -⟩ := descGet_refuse hd st de
  rw [he]
  refine ⟨refuse_view Mach.mem (fun _ _ => rfl) (fun _ _ => rfl) (fun _ _ => rfl) (fun _ _ => rfl) .., ?_, z, hz, hp, hrec⟩
  exact refuse_view (fun m => m.depot.ops) (fun _ _ => rfl) (fun _ _ => rfl) (fun _ _ => rfl) (fun _ _ => rfl) ..

section
variable {s : State} {q d t0 : Nat} {o : SoOp} {x : Desc} (hl : live s = true) (ho : s.m.depot.ops.find? (fun o => o.q == q && o.desc == d) = some o) (hx : descGet s.q q d = some x)
  (hs : o.status = stOk) (hr : x.isRun = false)
include hl ho hx hs hr

/-- An operation in time carries its plan out, and its descriptor completes with the plan's status. -/
theorem officeEnd_completes (ht : max s.m.now t0 < o.start + 2 * o.t) (h5 : x.type = 5 → rsScope x ≠ 1) {m1 m2 : Mach} {p : Plan} (hplan : officePlan s.c q d x (tickTo t0 s.q) = (m1, .ok p))
    (hw : soWrite s.c q d p.writes m1 = (m2, .ok ())) :
    Runs (.sortingOfficeEnd q d t0) s fun t => t.m.mem = (soLoose s.c q d p.loose m2).mem ∧ (∀ o ∈ t.m.depot.ops, ¬(o.q = q ∧ o.desc = d))
      ∧ ∃ z, descGet t.m q d = some z ∧ z.phase = 4 ∧ z.record = some (p.st, p.detail) := by
  have hcross : (decide (x.type = 5) && decide (rsScope x = 1)) = false := by
    rw [Bool.and_eq_false_iff]
    by_cases h : x.type = 5
    · exact .inr (decide_eq_false (h5 h))
    · exact .inl (decide_eq_false h)
  have he : officeEnd q d t0 s.c s.q = officeLeave q d p.st p.detail (withDraws (m2.draws + p.draws) (soLoose s.c q d p.loose m2)) := by
    unfold officeEnd
    dsimp only
    rw [show (tickTo t0 s.q).depot.ops.find? (fun o => o.q == q && o.desc == d) = some o from ho, show descGet (tickTo t0 s.q) q d = some x from hx]
    dsimp only
    rw [if_neg (Classical.not_not.2 hs), hcross, if_neg (by rw [Bool.false_and]; decide), if_neg (by exact Nat.not_le.2 ht), if_neg (by decide), hplan]
    unfold officeWrite
    dsimp only
    rw [hw]
    rfl
  have hd1 : descGet m1 q d = some x := (view_of_unsorted (descGet · q d) (fun _ => rfl) (unsorted_officePlan hr hplan)).trans hx
  have hg : (soLoose s.c q d p.loose m2).ground = m1.ground := by
    have h := ground_soWrite s.c q d p.writes m1
    rw [hw] at h
    exact (ground_soLoose ..).trans h
  obtain ⟨z, hz, hlast⟩ := descGet_of_ground hg hd1
  refine Runs.ofM rfl hl ?_
  dsimp only [State.m]
  rw [he]
  exact officeLeave_completes (m := withDraws (m2.draws + p.draws) (soLoose s.c q d p.loose m2)) hz ((congrArg Desc.isRun hlast).trans hr) p.st p.detail

/-- An operation still running at twice its time (R219). -/
theorem officeRunaway_refuses (ht : o.start + 2 * o.t ≤ max s.m.now t0) (hw : awaitsMember s.m q d = false) :
    Runs (.sortingOfficeRunaway q d t0) s fun t => t.m.mem = s.m.mem ∧ (∀ o ∈ t.m.depot.ops, ¬(o.q = q ∧ o.desc = d))
      ∧ ∃ z, descGet t.m q d = some z ∧ z.phase = 4 ∧ z.record = some (stRunaway, 0xFF) := by
  have he : officeRunaway q d t0 s.q = officeFail q d stRunaway 0xFF (officeDrop q d (tickTo t0 s.q)) := by
    unfold officeRunaway
    dsimp only
    rw [show (tickTo t0 s.q).depot.ops.find? (fun o => o.q == q && o.desc == d) = some o from ho]
    dsimp only
    rw [show awaitsMember (tickTo t0 s.q) q d = false from hw]
    exact if_pos (by simp only [Bool.and_eq_true, decide_eq_true_eq]; exact ⟨⟨hs, rfl⟩, ht⟩)
  obtain ⟨hmem, hops, z, hz, hp, hrec⟩ := officeFail_refuses (m := officeDrop q d (tickTo t0 s.q)) hx hr stRunaway 0xFF
  refine Runs.ofM rfl hl ?_
  dsimp only [State.m]
  rw [he]
  exact ⟨hmem, by rw [hops]; exact officeDrop_left q d _, z, hz, hp, hrec⟩

end

/-! ### An operation that enters (R209, R217, R218) -/

/-- Making room for a layer changes the layer allocations alone. -/
theorem layerAlloc_view {α : Type} (g : Mach → α) (hg : ∀ m k, g { m with depot := { m.depot with layers := k } } = g m) {c : Cfg} {q d : Nat} {m n : Mach} (h : layerAlloc c q d m = some n) :
    g n = g m := by
  unfold layerAlloc at h
  split at h
  · cases h; rfl
  · dsimp only at h
    split at h
    · cases h; rfl
    · rw [Option.ite_none_left_eq_some, Option.ite_none_left_eq_some] at h
      cases h.2.2
      exact hg ..

theorem crossSend_view {α : Type} (g : Mach → α) (hg : ∀ m k, g { m with links := k } = g m) (q d e route : Nat) (l : List Byte) (m : Mach) : g (crossSend q d e route l m) = g m := by
  unfold crossSend
  split
  · rfl
  · split
    · rfl
    · exact foldl_keeps g _ (fun m b => hg ..) _ m

/-- The participant table of a RESHARD within the engine, as far as it can be read. -/
def pieceTable (c : Cfg) (q d : Nat) (x : Desc) (m : Mach) : List Byte :=
  if x.type = 5 && rsScope x ≠ 1 then (match readPieceTable c q d x m with | (_, .ok l) => l | _ => []) else []

theorem pieceTable_none {c : Cfg} {q d : Nat} {x : Desc} {m : Mach} (h : x.type ≠ 5) : pieceTable c q d x m = [] := if_neg (by simp [h])

/-- The operation stands last among those under way, and its descriptor knows of it. -/
def officeOpened (q d tns : Nat) (x : Desc) (us : List Nat) (m : Mach) : Mach :=
  descUpd q d (fun z => { z with so := true, gather := if x.isRun && z.gather = 1 then 2 else z.gather })
    { m with depot := { m.depot with ops := m.depot.ops ++ [⟨q, d, m.now, tns, stOk, 0, us⟩] } }

theorem officeBegin_eq (c : Cfg) (q d tns : Nat) (x : Desc) (m : Mach) : officeBegin c q d tns x m =
    let n := officeOpened q d tns x (officeUses x (pieceTable c q d x m)) m
    if x.type = 5 && rsScope x = 1 then
      (rsOthers c n q x).foldl (fun m p => crossSend q d p.2 rtSummary (rsSummary x) m) (descUpd q d (fun z => { z with gather := 1 }) n)
    else n := rfl

theorem officeBegin_enters {c : Cfg} {q d tns : Nat} {x y : Desc} {m : Mach} (hy : descGet m q d = some y) :
    (∃ us, (x.type ≠ 5 → us = officeUses x []) ∧ (officeBegin c q d tns x m).depot.ops = m.depot.ops ++ [⟨q, d, m.now, tns, stOk, 0, us⟩])
      ∧ ∃ z, descGet (officeBegin c q d tns x m) q d = some z ∧ z.so = true := by
  have hus : x.type ≠ 5 → officeUses x (pieceTable c q d x m) = officeUses x [] := fun h => by rw [pieceTable_none h]
  rw [officeBegin_eq]
  generalize officeUses x (pieceTable c q d x m) = us at hus ⊢
  have hso : ∃ z, descGet (officeOpened q d tns x us m) q d = some z ∧ z.so = true := by
    refine ⟨_, (descGet_descUpd ..).trans (congrArg (Option.map _) hy), rfl⟩
  dsimp only
  split
  · have hsend {α : Type} (g : Mach → α) (hg : ∀ m k, g { m with links := k } = g m) (l : List (Nat × Nat)) (m : Mach) :
        g (l.foldl (fun m p => crossSend q d p.2 rtSummary (rsSummary x) m) m) = g m := foldl_keeps g _ (fun _ _ => crossSend_view g hg ..) l m
    obtain ⟨z, hz, hs⟩ := hso
    refine ⟨⟨us, hus, hsend (fun m => m.depot.ops) (fun _ _ => rfl) ..⟩, { z with gather := 1 }, ?_, hs⟩
    rw [hsend (descGet · q d) (fun _ _ => rfl), descGet_descUpd, hz]
    rfl
  · exact ⟨⟨us, hus, rfl⟩, hso⟩

section
variable {s : State} {q d t0 : Nat} {x : Desc} {m0 m1 : Mach} {n l : Nat} (hl : live s = true) (hx : descGet s.q q d = some x) (hw : wantsOffice s.q q d x = true) (ho : othersFirst s.q q d x = false)
  (hn : s.m.depot.ops.length < 16) (hp : s.m.power.fail = 0) (h0 : (if x.isRun && x.phase = 2 then layerAlloc s.c q d (tickTo t0 s.q) else some (tickTo t0 s.q)) = some m0)
  (hb : officeBound s.c q d x m0 = (m1, .ok (.inr (n, l))))

include h0 in
theorem enter_view {α : Type} (g : Mach → α) (hg : ∀ m k, g { m with depot := { m.depot with layers := k } } = g m) : g m0 = g (tickTo t0 s.q) := by
  split at h0
  · exact layerAlloc_view g hg h0
  · cases h0; rfl

include h0 hb in
theorem bound_view {α : Type} (g : Mach → α) (hu : ∀ m, g m.unsorted = g m) (hg : ∀ m k, g { m with depot := { m.depot with layers := k } } = g m) : g m1 = g (tickTo t0 s.q) :=
  (view_of_unsorted g hu (unsorted_officeBound hb)).trans (enter_view h0 g hg)

include hx hw ho hn hp h0 hb

/-- What follows the bound of an operation whose turn it is. -/
theorem officeEntry_bound : officeEntry q d t0 s.c s.q =
    if (m1.tick.cfg.period - m1.tick.cfg.quiet) * 1000 < 2000 + cdiv n 4 + l then officeFail q d stAdmissionRefused (((entryOf m1 q).map (·.1)).getD 0xFFFF) m1
    else if m1.tick.limit < m1.now + (2000 + cdiv n 4 + l) then m1
    else officeBegin s.c q d (2000 + cdiv n 4 + l) x m1 := by
  have hturn : (!wantsOffice (tickTo t0 s.q) q d x || othersFirst (tickTo t0 s.q) q d x || decide (16 ≤ (tickTo t0 s.q).depot.ops.length) || decide ((tickTo t0 s.q).power.fail ≠ 0)) = false := by
    rw [show wantsOffice (tickTo t0 s.q) q d x = true from hw, show othersFirst (tickTo t0 s.q) q d x = false from ho,
      show decide (16 ≤ (tickTo t0 s.q).depot.ops.length) = false from decide_eq_false (Nat.not_le.2 hn), show decide ((tickTo t0 s.q).power.fail ≠ 0) = false from decide_eq_false (Classical.not_not.2 hp)]
    rfl
  unfold officeEntry
  dsimp only
  rw [show descGet (tickTo t0 s.q) q d = some x from hx]
  dsimp only
  rw [hturn, if_neg (by decide), h0]
  dsimp only
  rw [hb]

include hl

theorem officeEntry_enters (ht : 2000 + cdiv n 4 + l ≤ (s.m.tick.cfg.period - s.m.tick.cfg.quiet) * 1000) (hlim : max s.m.now t0 + (2000 + cdiv n 4 + l) ≤ s.m.tick.limit) :
    Runs (.sortingOfficeEntry q d t0) s fun t => (∃ us, (x.type ≠ 5 → us = officeUses x [])
        ∧ t.m.depot.ops = s.m.depot.ops ++ [⟨q, d, max s.m.now t0, 2000 + cdiv n 4 + l, stOk, 0, us⟩])
      ∧ ∃ z, descGet t.m q d = some z ∧ z.so = true := by
  have hops : m1.depot.ops = s.m.depot.ops := bound_view h0 hb (fun m => m.depot.ops) (fun _ => rfl) fun _ _ => rfl
  have htick : m1.tick = s.m.tick := bound_view h0 hb Mach.tick (fun _ => rfl) fun _ _ => rfl
  have hnow : m1.now = max s.m.now t0 := bound_view h0 hb Mach.now (fun _ => rfl) fun _ _ => rfl
  have hd : descGet m1 q d = some x := (bound_view h0 hb (descGet · q d) (fun _ => rfl) fun _ _ => rfl).trans hx
  refine Runs.ofM rfl hl ?_
  dsimp only [State.m]
  rw [officeEntry_bound hx hw ho hn hp h0 hb, htick, hnow, if_neg (Nat.not_lt.2 ht), if_neg (Nat.not_lt.2 hlim)]
  have h := officeBegin_enters (c := s.c) (tns := 2000 + cdiv n 4 + l) (x := x) hd
  rwa [hops, hnow] at h

theorem officeEntry_refuses (hr : x.isRun = false) (ht : (s.m.tick.cfg.period - s.m.tick.cfg.quiet) * 1000 < 2000 + cdiv n 4 + l) :
    Runs (.sortingOfficeEntry q d t0) s fun t => t.m.depot.ops = s.m.depot.ops ∧ ∃ z, descGet t.m q d = some z ∧ z.record.map (·.1) = some stAdmissionRefused := by
  have hops : m1.depot.ops = s.m.depot.ops := bound_view h0 hb (fun m => m.depot.ops) (fun _ => rfl) fun _ _ => rfl
  have htick : m1.tick = s.m.tick := bound_view h0 hb Mach.tick (fun _ => rfl) fun _ _ => rfl
  have hd : descGet m1 q d = some x := (bound_view h0 hb (descGet · q d) (fun _ => rfl) fun _ _ => rfl).trans hx
  obtain ⟨-, hopsF, z, hz, -, hrec⟩ := officeFail_refuses hd hr stAdmissionRefused (((entryOf m1 q).map (·.1)).getD 0xFFFF)
  refine Runs.ofM rfl hl ?_
  dsimp only [State.m]
  rw [officeEntry_bound hx hw ho hn hp h0 hb, htick, if_pos ht]
  exact ⟨hopsF.trans hops, z, hz, congrArg (Option.map Prod.fst) hrec⟩

end

/-- Settles O53: reads of the office leave the operations and descriptors alone, so that an entry adds its own and an end takes it away. -/
theorem sortingOfficeOperations : Obligations.SortingOfficeOperations := by
  refine ⟨?_, ?_, ?_, ?_⟩
  · rintro s q d t0 x m0 m1 n l ⟨hl, hx, hw, ho, hn, hp⟩ h0 hb ht hlim
    exact officeEntry_enters hl hx hw ho hn hp h0 hb ht hlim
  · rintro s q d t0 x m1 n l ⟨hl, hx, hw, ho, hn, hp⟩ hr hb ht
    exact officeEntry_refuses hl hx hw ho hn hp (if_neg (by rw [hr, Bool.false_and]; decide)) hb hr ht
  · intro s q d t0 o x m1 p m2 hl ho hx hs ht hr h5 hplan hw
    exact officeEnd_completes hl ho hx hs hr ht h5 hplan hw
  · intro s q d t0 o x hl ho hx hs ht hr hw
    exact officeRunaway_refuses hl ho hx hs hr ht hw

end Sys2Proof.Machine
end

section
/-! SUPPORT. Two partial writes of one line under way: O54 (R182). -/

namespace Sys2Proof.Machine
open Sys2Proof

/-- A write of one byte at address 0 whose line is being read (R182). -/
def partWrite (b : Byte) : Req :=
  { point := 32, who := 0, unit := 2, deadline := 0, addr := 0, lines := 1, write := true, dom := 1, q := 0, op := 0, n := 1, data := [b], rmw := true }

/-- Two partial writes of the same byte under way on port 0. -/
def twoPartials : State :=
  { State.reset with dev := { State.reset.dev with m := { State.reset.dev.m with arb := { State.reset.dev.m.arb with tags := [(0, partWrite 1), (1, partWrite 2)] } } } }

/-- The first one's bytes are accepted, and the second one's leave them: its tag has changed as well. -/
theorem twoPartials_answered : mget (portResponse 0 0 false true twoPartials.c twoPartials.q).arb.tags 1 = some (partWrite 1) := by decide +kernel

/-- Refutes O54: two read-modify-writes of one byte stand on port 0 under tags 0 and 1. When the line of the first is read its byte is stored,
and the second, accepted before, takes the stored byte over (R182); so tag 0 is not the only one that changes. -/
theorem not_grantsAndResponses : ¬ Obligations.GrantsAndResponses := by
  unfold Obligations.GrantsAndResponses
  rintro ⟨-, -, hpart, -⟩
  obtain ⟨t, ht, htags, -⟩ := hpart twoPartials 0 0 (partWrite 1) rfl (by decide) (by decide) (by decide +kernel) rfl rfl rfl (by decide +kernel) (by decide +kernel)
  have hrun : exec (.memoryPortResponse 0 0 false true) twoPartials = .next { twoPartials with dev := { cfg := twoPartials.c, m := portResponse 0 0 false true twoPartials.c twoPartials.q } } :=
    runM_live twoPartials (portResponse 0 0 false true) rfl
  have hsecond : mget t.m.arb.tags 1 = some (partWrite 2) := by
    rw [htags]
    rfl
  rw [← Host.Outcome.next.inj (hrun.symm.trans ht)] at hsecond
  exact absurd (twoPartials_answered.symm.trans hsecond) (by decide)

end Sys2Proof.Machine
end

section
/-! SUPPORT. What the streams of a core touch while they read and write: caches, credits, requests, what they take from lines and routes
(R149 to R152, R180 to R186, R192 to R207, R378 to R381). -/

namespace Sys2Proof.Machine
open Sys2Proof

/-! ### Reading -/

/-- A core without what a stream's read touches. -/
def Core.reading (x : Core) : Core := { x with regs := { x.regs with tlbMisses := 0 }, credits := [], tlb := [], hostData := [], hostLines := [] }

/-- The block without what a core's streams touch as they read: caches of translations and host lines, requests, credits, outputs. -/
def Mach.reading (m : Mach) : Mach :=
  { m with out := [], arb := { (mach0 strap0 store0 0 true true).arb with nextOp := m.arb.nextOp }, xl := (mach0 strap0 store0 0 true true).xl
           hp := { m.hp with wait := [], seq := 0, bisnp := [] }, depot := { m.depot with lines := [] }, cores := m.cores.map Core.reading }

/-- A projection of what reads leave alone. -/
theorem view_of_reading {α : Type} (g : Mach → α) (hg : ∀ m, g m.reading = g m) {a b : Mach} (h : a.reading = b.reading) : g a = g b := by
  rw [← hg a, h, hg]

/-- A core is there still, and what reads leave alone of it is as before. -/
theorem core_of_reading {a b : Mach} (h : b.reading = a.reading) {k : Nat} {x : Core} (hx : a.cores[k]? = some x) : ∃ y, b.cores[k]? = some y ∧ y.reading = x.reading := by
  have hc : b.cores.map Core.reading = a.cores.map Core.reading := (congrArg Mach.cores h :)
  have hk : (b.cores[k]?).map Core.reading = some x.reading := by
    rw [← List.getElem?_map, hc, List.getElem?_map, hx]
    rfl
  exact Option.map_eq_some_iff.1 hk

theorem reading_lupd (k : Nat) {f : Core → Core} (hf : ∀ x, (f x).reading = x.reading) (m : Mach) : Mach.reading { m with cores := lupd m.cores k f } = m.reading :=
  congrArg (fun cs => { m.reading with cores := cs }) (map_lupd Core.reading m.cores k f hf)

theorem reading_creditUpd (k u : Nat) (f : Nat → Nat) (m : Mach) : (creditUpd k u f m).reading = m.reading := reading_lupd k (by intro z; rfl) m

theorem reading_stand (r : Req) (m : Mach) : (stand r m).reading = m.reading := by
  unfold stand
  split <;> rfl

theorem reading_issueReq (r : Req) (m : Mach) : (issueReq r m).reading = m.reading := by
  unfold issueReq
  dsimp only
  rw [reading_stand, reading_creditUpd]
  rfl

theorem reading_pump (m : Mach) : (pump m).reading = m.reading := by
  refine Eq.trans rfl (foldl_keeps (fun s : List Req × List (Nat × Nat) × Mach => s.2.2.reading) pumpOne (fun s r => ?_) m.arb.later ([], [], m))
  unfold pumpOne
  split
  · rfl
  · exact reading_issueReq ..

theorem reading_addLater (rs : List Req) (m : Mach) : (addLater rs m).reading = m.reading := by
  unfold addLater
  split
  · rfl
  · exact (reading_pump _).trans rfl

theorem reading_outsideReqs (c : Cfg) (who d q : Nat) (w : Bool) (a n : Nat) (m : Mach) : (outsideReqs c who d q w a n m).reading = m.reading := by
  unfold outsideReqs
  split
  · rfl
  · exact reading_addLater ..

theorem reading_fillShared (c : Cfg) (d va : Nat) (m : Mach) : (fillShared c d va m).1.reading = m.reading := by
  unfold fillShared
  split
  · rfl
  · dsimp only
    split <;> rfl

theorem reading_fillTlb (c : Cfg) (k d va : Nat) (m : Mach) : (fillTlb c (some k) d va m).reading = m.reading := by
  have hs := reading_fillShared c d va m
  unfold fillTlb
  dsimp only
  split
  · exact reading_lupd k (by intro z; rfl) m
  · split
    · rename_i h
      rwa [h] at hs
    · rename_i h
      rw [h] at hs
      exact (reading_lupd k (by intro z; rfl) _).trans hs

theorem reading_xlateFill (c : Cfg) (k d va : Nat) (m : Mach) : (xlateFill c (some k) d va m).reading = m.reading := by
  unfold xlateFill
  exact (foldl_keeps Mach.reading _ (fun _ _ => reading_outsideReqs ..) _ _).trans (reading_fillTlb ..)

theorem reading_backInval (a n : Nat) (d : Bool) (m : Mach) : (backInval a n d m).reading = m.reading := by
  unfold backInval
  refine foldl_keeps Mach.reading _ (fun m l => ?_) _ m
  split <;> rfl

/-- A host address that is resolved. -/
theorem reading_hostLook {q va pasid a : Nat} {wr : Bool} {h : Option (Nat × HaltRec)} {m n : Mach} {p : Nat} (hl : hostLook q va pasid a wr h m = (n, .ready p)) : n.reading = m.reading := by
  unfold hostLook at hl
  dsimp only at hl
  split at hl
  · cases hl
  · split at hl
    · cases hl; rfl
    · split at hl
      · cases hl
      · split at hl
        · split at hl <;> cases hl
        · split at hl
          · split at hl <;> cases hl
          · split at hl
            · split at hl <;> cases hl
            · cases hl

theorem reading_hitLine (c : Cfg) (k : Nat) (l : HostLine) (m : Mach) : (hitLine c k l m).reading = m.reading :=
  reading_lupd (m := { m with depot := { m.depot with lines := linePut c l m.depot.lines } }) k (by intro z; rfl)

theorem reading_lineRead {c : Cfg} {x : Acs} {ps : List Piece} {ln : Nat} {m n : Mach} {v : LineAt} (h : lineRead c x ps ln m = (n, .ok v)) : n.reading = m.reading := by
  unfold lineRead at h
  dsimp only at h
  split at h
  · cases h
  · cases h
  · split at h
    · cases h
    · cases h
    · cases congrArg Prod.fst h
      exact (reading_backInval ..).trans (reading_xlateFill ..)
  · split at h
    · cases h
    · cases h
    · cases h
    · rename_i m' phys hl
      have hm : m'.reading = m.reading := (reading_hostLook hl).trans (reading_xlateFill ..)
      split at h
      · cases h
      · split at h
        · cases h; exact hm
        · split at h
          · split at h
            · cases congrArg Prod.fst h
              exact (reading_hitLine ..).trans hm
            · cases h; exact hm
          · cases h; exact hm

/-- Lines that are all at hand. -/
theorem reading_acquire {f : Nat → Mach → Mach × Fe LineAt} (hf : ∀ {l m n v}, f l m = (n, .ok v) → n.reading = m.reading) : ∀ {ls : List Nat} {m n : Mach} {tab : LineTab},
    acquire f ls m = (n, tab, .ok ()) → n.reading = m.reading
  | [], _, _, _, h => by cases h; rfl
  | l :: r, m, n, tab, h => by
    unfold acquire at h
    split at h
    · rename_i m' v hl
      dsimp only at h
      have hz : (acquire f r m').2.2 = .ok () := by
        refine Classical.byContradiction fun hne => ?_
        have h2 := congrArg (fun z => z.2.2) h
        simp only at h2
        split at h2
        · cases h2
        · exact hne h2
      have hn : (acquire f r m').1 = n := congrArg Prod.fst h
      exact (reading_acquire hf (m := m') (Prod.ext hn (Prod.ext rfl hz))).trans (hf hl)
    · dsimp only at h
      split at h <;> cases congrArg (fun z => z.2.2) h
    · cases h
    · cases h

/-- Bytes that have come are taken later. -/
theorem takeOr_ok {x : Acs} {n : Nat} {l : List Byte} {free : Mach → Mach} {m m1 : Mach} {v : List Byte × LineTab} (h : takeOr x n l free m = (m1, .ok v)) : m1 = m := by
  unfold takeOr at h
  split at h
  · cases h; rfl
  · split at h <;> cases h

/-- A stream whose bytes are at hand. -/
theorem reading_srcBytes {c : Cfg} {x : Acs} {ps : List Piece} {m n : Mach} {v : List Byte × LineTab} (h : srcBytes c x ps m = (n, .ok v)) : n.reading = m.reading := by
  unfold srcBytes at h
  dsimp only at h
  split at h
  · split at h
    · rename_i hr
      cases h
      exact reading_acquire reading_lineRead hr
    · cases h
    · cases h
  · cases h; rfl
  · cases h; rfl
  · cases h; rfl
  · rw [takeOr_ok h]
  · split at h
    · cases h
    · rw [takeOr_ok h]
  · cases h; rfl

theorem reading_readCodes {c : Cfg} {x : Acs} {k : Nat} {m n : Mach} {v : List Nat × LineTab} (h : readCodes c x k m = (n, .ok v)) : n.reading = m.reading := by
  unfold readCodes at h
  dsimp only at h
  split at h <;> rename_i hr <;> cases h
  exact reading_srcBytes hr

theorem reading_readAll {c : Cfg} {k : Nat} {t : TileCmd} : ∀ {ws : List Wanted} {m n : Mach} {v : List (List Byte × LineTab)}, readAll c k t ws m = (n, .ok v) → n.reading = m.reading
  | [], _, _, _, h => by cases h; rfl
  | w :: r, m, n, v, h => by
    unfold readAll at h
    split at h
    · cases h
    · rename_i hs
      split at h
      · rename_i hr
        cases h
        exact (reading_readAll hr).trans (reading_srcBytes hs)
      · exact (reading_readAll h).trans (reading_srcBytes hs)
    · split at h <;> cases h

/-! ### Destinations -/

theorem reading_devWrite {c : Cfg} {x : Acs} {full : Bool} {va a : Nat} {m n : Mach} {v : LineAt} (h : devWrite c x full va a m = (n, .ok v)) : n.reading = m.reading := by
  unfold devWrite at h
  dsimp only at h
  split at h
  · cases h
  · split at h
    · cases h
    · split at h
      · cases h
      · cases congrArg Prod.fst h
        exact reading_backInval ..

theorem reading_lineWrite {c : Cfg} {x : Acs} {ps : List Piece} {ln : Nat} {m n : Mach} {v : LineAt} (h : lineWrite c x ps ln m = (n, .ok v)) : n.reading = m.reading := by
  unfold lineWrite at h
  dsimp only at h
  split at h
  · split at h
    · cases h
    · split at h
      · split at h
        · cases h
        · cases h; rfl
      · exact reading_devWrite h
  · split at h
    · cases h
    · cases h
    · exact (reading_devWrite h).trans (reading_xlateFill ..)
    · split at h
      · cases h
      · cases h
      · cases h
      · rename_i hl
        cases h
        exact (reading_hostLook hl).trans (reading_xlateFill ..)

/-- A destination that can take a stream's bytes. -/
theorem reading_dstReady {c : Cfg} {x : Acs} {ps : List Piece} {l : List Byte} {m n : Mach} {tab : LineTab} (h : dstReady c x ps l m = (n, .ok tab)) : n.reading = m.reading := by
  unfold dstReady at h
  split at h
  · cases h; rfl
  · split at h
    · rename_i hr
      cases h
      exact reading_acquire reading_lineWrite hr
    · cases h
    · cases h

theorem reading_partsGo {c : Cfg} {k : Nat} {t : TileCmd} : ∀ {ps : List DrainPart} {m n : Mach} {v : List (Sd × List Nat × LineTab)}, partsGo c k t ps m = (n, .ok v) → n.reading = m.reading
  | [], _, _, _, h => by cases h; rfl
  | p :: r, m, n, v, h => by
    unfold partsGo at h
    split at h
    · rename_i hd
      split at h
      · rename_i hr
        cases h
        exact (reading_partsGo hr).trans (reading_dstReady hd)
      · exact (reading_partsGo h).trans (reading_dstReady hd)
    · cases h
    · cases h

end Sys2Proof.Machine
end

section
/-! SUPPORT. What a stream's use of its bytes leaves alone, and the requests it makes (R150, R181 to R186, R192 to R207, R378 to R381). -/

namespace Sys2Proof.Machine
open Sys2Proof

/-! ### Taking and putting -/

/-- A core without what streams touch as they read, take and put bytes, but for the halves of its scratchpad. -/
def Core.moving (x : Core) : Core := { x.reading with rings := [], taken := [], gone := [] }

/-- The block without what a core's streams touch as they read, take and put bytes, but for the scratchpads. -/
def Mach.moving (m : Mach) : Mach :=
  let a := m.reading
  { a with links := [], casc := { a.casc with binds := [], parked := [] }, hp := { a.hp with sent := [] }, cores := m.cores.map Core.moving }

theorem moving_of_reading {a b : Mach} (h : a.reading = b.reading) : a.moving = b.moving := by
  have hm (m : Mach) : m.moving = m.reading.moving := by
    have hc : m.cores.map Core.moving = (m.cores.map Core.reading).map Core.moving := by rw [List.map_map]; rfl
    exact congrArg (fun cs => { m.moving with cores := cs }) hc
  rw [hm, h, ← hm]

/-- A projection of what moving bytes leaves alone. -/
theorem view_of_moving {α : Type} (g : Mach → α) (hg : ∀ m, g m.moving = g m) {a b : Mach} (h : a.moving = b.moving) : g a = g b := by
  rw [← hg a, h, hg]

/-- A core is there still, and what moving bytes leaves alone of it is as before. -/
theorem core_of_moving {a b : Mach} (h : b.moving = a.moving) {k : Nat} {x : Core} (hx : a.cores[k]? = some x) : ∃ y, b.cores[k]? = some y ∧ y.moving = x.moving := by
  have hc : b.cores.map Core.moving = a.cores.map Core.moving := (congrArg Mach.cores h :)
  have hk : (b.cores[k]?).map Core.moving = some x.moving := by
    rw [← List.getElem?_map, hc, List.getElem?_map, hx]
    rfl
  exact Option.map_eq_some_iff.1 hk

theorem moving_lupd (k : Nat) {f : Core → Core} (hf : ∀ x, (f x).moving = x.moving) (m : Mach) : Mach.moving { m with cores := lupd m.cores k f } = m.moving :=
  congrArg (fun cs => { m.moving with cores := cs }) (map_lupd Core.moving m.cores k f hf)

theorem moving_goneSet (x : Acs) (wr : Bool) (n : Nat) (m : Mach) : (goneSet x wr n m).moving = m.moving := moving_lupd _ (by intro z; rfl) m
theorem moving_takenSet (x : Acs) (l : List Byte) (m : Mach) : (takenSet x l m).moving = m.moving := moving_lupd _ (by intro z; rfl) m
theorem moving_ringFrees (k l n : Nat) (m : Mach) : (ringFrees k l n m).moving = m.moving := moving_lupd _ (by intro z; rfl) m
theorem moving_claim (x : Acs) (wr : Bool) (m : Mach) : (claim x wr m).moving = m.moving := rfl

theorem moving_issueSegs (c : Cfg) (x : Acs) (wr : Bool) (ps : List Piece) (tab : LineTab) (l : List Byte) (n : Nat) (m : Mach) : (issueSegs c x wr ps tab l n m).moving = m.moving :=
  moving_of_reading (reading_addLater ..)

theorem moving_addReqs (c : Cfg) (x : Acs) (wr : Bool) (ps : List Piece) (tab : LineTab) (l : List Byte) (m : Mach) : (addReqs c x wr ps tab l m).moving = m.moving := by
  unfold addReqs
  dsimp only
  split
  · exact (moving_goneSet ..).trans ((moving_issueSegs ..).trans (moving_claim ..))
  · exact moving_issueSegs ..

theorem moving_unpark (q r n : Nat) (m : Mach) : (unpark q r n m).moving = m.moving := by
  unfold unpark
  refine (foldl_keeps Mach.moving _ (fun m b => ?_) _ _).trans rfl
  unfold freeBlocks
  split
  · exact (creditBack_view Mach.moving (fun _ _ => rfl) ..).trans rfl
  · rfl

theorem moving_srcTake (x : Acs) (ps : List Piece) (tab : LineTab) (m : Mach) : (srcTake x ps tab m).moving = m.moving := by
  unfold srcTake
  split
  · exact moving_lupd _ (by intro z; rfl) m
  · exact (moving_takenSet ..).trans (moving_ringFrees ..)
  · exact (moving_takenSet ..).trans (moving_unpark ..)
  · rfl

theorem moving_tookCodes (c : Cfg) (x : Acs) (n : Nat) (tab : LineTab) (m : Mach) : (tookCodes c x n tab m).moving = m.moving := (moving_srcTake ..).trans (moving_addReqs ..)

/-! ### What a stream writes to a core -/

/-- A core whose window has taken a stream's bytes (R131). -/
def Core.put (s : Sd) (ps : List Piece) (l : List Byte) (y : Core) : Core :=
  match s.space with
  | 1 => if (s.front == 0) != false then { y with half0 := bufPut y.half0 ps l } else { y with half1 := bufPut y.half1 ps l }
  | 2 => if (s.front == 0) != true then { y with half0 := bufPut y.half0 ps l } else { y with half1 := bufPut y.half1 ps l }
  | _ => y

/-- The halves after a stream has been written, where FRONT has not changed since it was resolved. -/
theorem winHalf_put {s : Sd} {y : Core} (h : s.front = y.front) (ps : List Piece) (l : List Byte) :
    (winHalf (y.put s ps l) false = if s.space = 1 then bufPut (winHalf y false) ps l else winHalf y false)
      ∧ (winHalf (y.put s ps l) true = if s.space = 2 then bufPut (winHalf y true) ps l else winHalf y true) := by
  unfold Core.put
  rw [h]
  by_cases h0 : (y.front == 0) = true
  · split <;> simp_all [winHalf, halfAt]
  · split <;> simp_all [winHalf, halfAt]

theorem slots_put (s : Sd) (ps : List Piece) (l : List Byte) (y : Core) : (y.put s ps l).slots = y.slots := by
  unfold Core.put
  split
  · split <;> rfl
  · split <;> rfl
  · rfl

theorem moving_sendFrames (x : Acs) (rt : Bool) (l : List Byte) (m : Mach) : (sendFrames x rt l m).moving = m.moving := by
  unfold sendFrames
  split
  · rfl
  · split
    · rfl
    · exact foldl_keeps Mach.moving _ (by intro a b; rfl) _ m

theorem moving_dstPut (x : Acs) (ps : List Piece) (l : List Byte) (m : Mach) :
    (dstPut x ps l m).moving = Mach.moving { m with cores := lupd m.cores x.core (Core.put x.sd ps l) } := by
  have hid (h1 : x.sd.space ≠ 1) (h2 : x.sd.space ≠ 2) : Mach.moving { m with cores := lupd m.cores x.core (Core.put x.sd ps l) } = m.moving := by
    refine moving_lupd _ (fun y => ?_) m
    unfold Core.put
    split
    · contradiction
    · contradiction
    · rfl
  unfold dstPut
  split
  · rename_i h
    unfold halfUpd Core.put
    rw [h]
    rfl
  · rename_i h
    unfold halfUpd Core.put
    rw [h]
    rfl
  · rename_i h
    exact (moving_lupd _ (by intro z; rfl) m).trans (hid (by omega) (by omega)).symm
  · rename_i h
    exact (moving_sendFrames ..).trans (hid (by omega) (by omega)).symm
  · rename_i h1 h2 _ _
    exact (hid h1 h2).symm

theorem moving_wroteCodes (c : Cfg) (x : Acs) (tab : LineTab) (codes : List Nat) (m : Mach) :
    (wroteCodes c x tab codes m).moving = Mach.moving { m with cores := lupd m.cores x.core (Core.put x.sd (pieces x.sd codes.length) (pack x.sd (pieces x.sd codes.length) codes)) } :=
  (moving_addReqs ..).trans (moving_dstPut ..)

end Sys2Proof.Machine
end

section
/-! SUPPORT. The requests of what a stream writes, and the loads and copies of the S slots: O13 (R124, R136, R174 to R186, R204). -/

namespace Sys2Proof.Machine
open Sys2Proof

/-! ### Requests that are made (R183, R184) -/

/-- A request stands among those to issue or at its point, but for its deadline and its number as it was made. -/
def Made (r : Req) (later waiting : List Req) : Prop := ∃ q ∈ later ++ waiting, ∃ d n, q = { r with deadline := d, num := n }

theorem Made.mono {r : Req} {l w l' w' : List Req} (h : Made r l w) (hl : l ⊆ l') (hw : w ⊆ w') : Made r l' w' := by
  obtain ⟨q, hq, he⟩ := h
  exact ⟨q, List.append_subset.2 ⟨fun _ h => List.mem_append_left _ (hl h), fun _ h => List.mem_append_right _ (hw h)⟩ hq, he⟩

theorem waiting_stand (r : Req) (m : Mach) : m.arb.waiting ⊆ (stand r m).arb.waiting := by
  unfold stand
  split
  · exact fun _ h => h
  · exact List.subset_append_left ..

theorem waiting_issueReq (r : Req) (m : Mach) : m.arb.waiting ⊆ (issueReq r m).arb.waiting := fun q hq => by
  unfold issueReq
  exact waiting_stand _ _ hq

/-- A request without a host part that issues stands at its point. -/
theorem issueReq_made {r : Req} (hh : r.host = none) (l : List Req) (m : Mach) : Made r l (issueReq r m).arb.waiting := by
  unfold issueReq
  dsimp only
  rw [hh, Option.map_none]
  unfold stand
  split
  · rename_i h
    cases h
  · refine ⟨_, List.mem_append_right _ (List.mem_append_right _ (List.mem_singleton.2 rfl)), deadlineOf m r, m.arb.nextNum, ?_⟩
    rw [← hh]

/-- A request without a host part that is to issue is made. -/
theorem pump_made {r : Req} {m : Mach} (hr : r ∈ m.arb.later) (hh : r.host = none) : Made r (pump m).arb.later (pump m).arb.waiting := by
  refine foldl_reaches (f := pumpOne) (P := fun _ => True) (Q := fun s => Made r s.1 s.2.2.arb.waiting) (fun _ _ _ => trivial) (fun s x h => ?_) (fun s _ => ?_) m.arb.later hr ([], [], m) trivial
  · unfold pumpOne
    split
    · exact h.mono (List.subset_append_left ..) fun _ h => h
    · exact h.mono (fun _ h => h) (waiting_issueReq ..)
  · unfold pumpOne
    split
    · exact ⟨r, List.mem_append_left _ (List.mem_append_right _ (List.mem_singleton.2 rfl)), r.deadline, r.num, rfl⟩
    · exact issueReq_made hh ..

theorem addLater_made {r : Req} {rs : List Req} (hr : r ∈ rs) (hh : r.host = none) (m : Mach) : Made r (addLater rs m).arb.later (addLater rs m).arb.waiting := by
  unfold addLater
  rw [if_neg (List.ne_nil_of_mem hr)]
  exact pump_made (List.mem_append_right _ hr) hh

/-! ### Segments of a stream that has not waited (R193) -/

/-- A core's segments gone ahead. -/
def goneAt (k : Nat) (m : Mach) : Option (List (Nat × Sd × Nat)) := (m.cores[k]?).map Core.gone

theorem goneAt_lupd (i k : Nat) {f : Core → Core} (hf : ∀ x, (f x).gone = x.gone) (m : Mach) : goneAt i { m with cores := lupd m.cores k f } = goneAt i m := view_coreUpd hf i k m

theorem goneAt_of_reading {a b : Mach} (h : a.reading = b.reading) (i : Nat) : goneAt i a = goneAt i b := by
  have hm (m : Mach) : goneAt i m = (m.reading.cores[i]?).map Core.gone := by
    show (m.cores[i]?).map Core.gone = ((m.cores.map Core.reading)[i]?).map Core.gone
    rw [List.getElem?_map, Option.map_map]
    rfl
  rw [hm, h, ← hm]

theorem goneOf_none {x : Acs} {m : Mach} (h : goneAt x.core m = some []) (wr : Bool) : goneOf m x wr = 0 := by
  obtain ⟨y, hy, hg⟩ := Option.map_eq_some_iff.1 h
  unfold goneOf
  rw [hy, Option.bind_some, hg]
  rfl

theorem addReqs_first {c : Cfg} {x : Acs} {wr : Bool} {ps : List Piece} {tab : LineTab} {l : List Byte} {m : Mach} (h : goneAt x.core m = some []) :
    addReqs c x wr ps tab l m = issueSegs c x wr ps tab l (segments x.sd ps).length m := by
  unfold addReqs
  rw [goneOf_none h]
  rfl

theorem goneAt_unpark (i q r n : Nat) (m : Mach) : goneAt i (unpark q r n m) = goneAt i m := by
  unfold unpark
  refine (foldl_keeps (goneAt i) _ (fun m b => ?_) _ _).trans rfl
  unfold freeBlocks
  split
  · exact creditBack_view (goneAt i) (fun _ _ => rfl) ..
  · rfl

theorem goneAt_srcTake (i : Nat) (x : Acs) (ps : List Piece) (tab : LineTab) (m : Mach) : goneAt i (srcTake x ps tab m) = goneAt i m := by
  have htaken (l : List Byte) (m : Mach) : goneAt i (takenSet x l m) = goneAt i m := goneAt_lupd i _ (by intro z; rfl) m
  unfold srcTake
  split
  · exact goneAt_lupd i _ (by intro z; rfl) m
  · exact (htaken ..).trans (goneAt_lupd i _ (by intro z; rfl) m)
  · exact (htaken ..).trans (goneAt_unpark ..)
  · rfl

theorem goneAt_tookCodes {c : Cfg} {x : Acs} {n : Nat} {tab : LineTab} {m : Mach} (h : goneAt x.core m = some []) : goneAt x.core (tookCodes c x n tab m) = some [] := by
  unfold tookCodes
  rw [goneAt_srcTake, addReqs_first h]
  exact (goneAt_of_reading (reading_addLater ..) _).trans h

theorem goneAt_sendFrames (i : Nat) (x : Acs) (rt : Bool) (l : List Byte) (m : Mach) : goneAt i (sendFrames x rt l m) = goneAt i m := by
  unfold sendFrames
  split
  · rfl
  · split
    · rfl
    · exact foldl_keeps (goneAt i) _ (by intro a b; rfl) _ m

theorem goneAt_dstPut (i : Nat) (x : Acs) (ps : List Piece) (l : List Byte) (m : Mach) : goneAt i (dstPut x ps l m) = goneAt i m := by
  have hhalf (b : Bool) (f : Map Byte → Map Byte) : goneAt i (halfUpd x.core x.sd.front b f m) = goneAt i m := by
    refine goneAt_lupd i _ (fun y => ?_) m
    split <;> rfl
  unfold dstPut
  split
  · exact hhalf ..
  · exact hhalf ..
  · exact goneAt_lupd i _ (by intro z; rfl) m
  · exact goneAt_sendFrames ..
  · rfl

/-- Each segment of a stream that has not waited makes its requests as its bytes are written. -/
theorem wroteCodes_made {c : Cfg} {x : Acs} {tab : LineTab} {codes : List Nat} {m : Mach} (hs : x.sd.space = 0 ∨ x.sd.space = 3) (hgone : goneAt x.core m = some []) {g : Nat × Nat}
    (hg : g ∈ segments x.sd (pieces x.sd codes.length)) {r : Req} (hh : r.host = none)
    (hr : r ∈ segReq c (dstPut x (pieces x.sd codes.length) (pack x.sd (pieces x.sd codes.length) codes) m) x true tab
      (bufPut [] (pieces x.sd codes.length) (pack x.sd (pieces x.sd codes.length) codes)) g) :
    Made r (wroteCodes c x tab codes m).arb.later (wroteCodes c x tab codes m).arb.waiting := by
  have hgone' : goneAt x.core (dstPut x (pieces x.sd codes.length) (pack x.sd (pieces x.sd codes.length) codes) m) = some [] := (goneAt_dstPut ..).trans hgone
  unfold wroteCodes
  dsimp only
  rw [addReqs_first hgone']
  unfold issueSegs
  dsimp only
  refine addLater_made (List.mem_flatMap.2 ?_) hh _
  rw [List.take_length]
  obtain ⟨i, hi, he⟩ := List.mem_iff_getElem.1 hg
  refine ⟨(g, i), List.mem_zipIdx_iff_getElem?.2 (List.getElem?_eq_some_iff.2 ⟨hi, he⟩), ?_⟩
  rw [goneOf_none hgone', if_neg (Nat.not_lt_zero _), if_pos (by simpa using hs)]
  exact hr

/-! ### FETCH and PUT (R136) -/

section
variable {s : State} {k unit : Nat} {x : Core} {u : TileCmd} {a b : Sd} {m1 m2 : Mach} {codes : List Nat} {tab dt : LineTab}

/-- What a copy writes, in the order of its pieces. -/
def copied (b : Sd) (codes : List Nat) : List Byte := pack b (pieces b codes.length) codes

/-- The block once a copy's codes have moved. -/
def afterCopy (c : Cfg) (m0 m2 : Mach) (k unit : Nat) (u : TileCmd) (a b : Sd) (codes : List Nat) (tab dt : LineTab) : Mach :=
  wroteCodes c (acsOf m0 k unit u b) dt codes (tookCodes c (acsOf m0 k unit u a) (sdCount a) tab m2)

theorem copyOp_moves {r : Role} {src dst : Tmpl} {st : Option Nat} (hi : issues k unit s x u) (ha : a = sdOf x u src) (hb : b = sdOf x u dst)
    (hc : copyChk s.q x unit u r src dst a b = none) (hr : readCodes s.c (acsOf s.q k unit u a) (sdCount a) s.q = (m1, .ok (codes, tab)))
    (hd : dstReady s.c (acsOf s.q k unit u b) (pieces b (sdCount a)) (pack b (pieces b (sdCount a)) codes) m1 = (m2, .ok dt)) :
    copyOp s.c k unit r src dst st s.q = pushOp k unit st.toList (usesOf a ++ usesOf b) false (afterCopy s.c s.q m2 k unit u a b codes tab dt) := by
  subst ha hb
  unfold copyOp
  rw [withOp_issues _ hi.2]
  rw [hc]
  dsimp only
  unfold copyStream
  dsimp only
  rw [hr]
  dsimp only
  rw [hd]
  rfl

theorem moving_afterCopy {c : Cfg} {m0 : Mach} : ∃ m3 : Mach, m3.moving = m2.moving ∧ (goneAt k m2 = some [] → goneAt k m3 = some [])
    ∧ (afterCopy c m0 m2 k unit u a b codes tab dt).moving = Mach.moving { m3 with cores := lupd m3.cores k (Core.put b (pieces b codes.length) (copied b codes)) } :=
  ⟨_, moving_tookCodes .., fun h => goneAt_tookCodes (x := acsOf m0 k unit u a) h, moving_wroteCodes ..⟩

end

end Sys2Proof.Machine
end

section
/-! SUPPORT. What copies and loads leave: O13 (R48, R66, R99, R118, R124, R136, R174, R175, R182, R204). -/

namespace Sys2Proof.Machine
open Sys2Proof

/-! ### The requests of a segment that is written (R181, R182, R199) -/

theorem only_mem {α : Type} {a : α} {l : List α} (h : l = [a]) : a ∈ l := by rw [h]; exact List.mem_singleton_self a

/-- What every request for a segment that is written names. -/
def writeReq (x : Acs) (s : Nat × Nat) : Req :=
  { point := 0, who := x.core, unit := x.unit, deadline := 0, addr := s.1, lines := cdiv (s.1 % 64 + s.2) 64, write := true
    dom := x.dom, q := x.t.q, op := x.op, n := s.2, rate := x.sd.rate, str := streamKey x.sd, va := if x.sd.space = 0 then some s.1 else none }

/-- The request for a segment of a region. -/
def regionReq (c : Cfg) (x : Acs) (r : Region) (img : Map Byte) (s : Nat × Nat) : Req :=
  Req.via (bankPath c x.core (depotBank r s.1)) { writeReq x s with
    data := bread img s.1 s.2, depot := if sdHandle x.sd = 0xFFFF then some (true, 2 ^ 20 * x.t.desc + x.t.q) else some (false, sdHandle x.sd) }

theorem segReq_region {x : Acs} {m : Mach} {r : Region} (h : x.sd.space = 3) (hr : regionOf m x.t (sdHandle x.sd) = some r) (c : Cfg) (tab : LineTab) (img : Map Byte) (s : Nat × Nat) :
    segReq c m x true tab img s = [regionReq c x r img s] := by
  unfold segReq
  rw [h]
  dsimp only
  rw [hr]
  simp only [regionReq, writeReq, h]
  rfl

/-- The request for a segment of device memory. -/
def memReq (c : Cfg) (x : Acs) (b : Nat) (img : Map Byte) (s : Nat × Nat) : Req :=
  Req.via (memPath c x.core b) { writeReq x s with addr := b + s.1 % 64, data := bread img s.1 s.2 }

theorem segReq_dev {x : Acs} {tab : LineTab} {s : Nat × Nat} {b : Nat} (h : x.sd.space = 0) (hb : tabFind tab (s.1 / 64) = some (.dev b)) (c : Cfg) (m : Mach) (img : Map Byte) :
    segReq c m x true tab img s = [memReq c x b img s] := by
  unfold segReq
  rw [h]
  dsimp only
  rw [hb]
  simp only [memReq, writeReq, h]
  rfl

/-! ### FETCH and PUT (R136) -/

section
variable {c : Cfg} {m0 m2 : Mach} {k unit : Nat} {u : TileCmd} {a b : Sd} {codes : List Nat} {tab dt : LineTab}

/-- A copy leaves everything but cores, credits and requests as it was. -/
theorem afterCopy_view {α : Type} (g : Mach → α) (hg : ∀ m, g m.moving = g m) (hc : ∀ m cs, g { m with cores := cs } = g m) : g (afterCopy c m0 m2 k unit u a b codes tab dt) = g m2 := by
  obtain ⟨m3, h3, -, h4⟩ := moving_afterCopy (c := c) (m0 := m0) (m2 := m2) (k := k) (unit := unit) (u := u) (a := a) (b := b) (codes := codes) (tab := tab) (dt := dt)
  exact (view_of_moving g hg h4).trans ((hc ..).trans (view_of_moving g hg h3))

/-- The core once a copy has moved and its operation stands in its slot. -/
theorem copied_core {y : Core} (hy : m2.cores[k]? = some y) (hf : b.front = y.front) (stamps uses : List Nat) :
    ∃ z, (pushOp k unit stamps uses false (afterCopy c m0 m2 k unit u a b codes tab dt)).cores[k]? = some z
      ∧ z.slots = lupd y.slots unit (· ++ [⟨m2.arb.nextOp, stamps, uses, false⟩])
      ∧ (winHalf z false = if b.space = 1 then bufPut (winHalf y false) (pieces b codes.length) (copied b codes) else winHalf y false)
      ∧ (winHalf z true = if b.space = 2 then bufPut (winHalf y true) (pieces b codes.length) (copied b codes) else winHalf y true) := by
  have hop : (afterCopy c m0 m2 k unit u a b codes tab dt).arb.nextOp = m2.arb.nextOp := afterCopy_view (fun m => m.arb.nextOp) (fun _ => rfl) fun _ _ => rfl
  obtain ⟨m3, h3, -, h4⟩ := moving_afterCopy (c := c) (m0 := m0) (m2 := m2) (k := k) (unit := unit) (u := u) (a := a) (b := b) (codes := codes) (tab := tab) (dt := dt)
  obtain ⟨y3, hy3, hm3⟩ := core_of_moving h3 hy
  have hput : ({ m3 with cores := lupd m3.cores k (Core.put b (pieces b codes.length) (copied b codes)) } : Mach).cores[k]? = some (y3.put b (pieces b codes.length) (copied b codes)) := by
    show (lupd m3.cores k _)[k]? = _
    rw [lupd_get, hy3]
    rfl
  obtain ⟨y4, hy4, hm4⟩ := core_of_moving h4 hput
  have hhalf (p : Bool) : winHalf y4 p = winHalf (y3.put b (pieces b codes.length) (copied b codes)) p := (congrArg (winHalf · p) hm4 :)
  have hsame (p : Bool) : winHalf y3 p = winHalf y p := (congrArg (winHalf · p) hm3 :)
  have hslots : y4.slots = y.slots := by
    have h : y4.slots = (y3.put b (pieces b codes.length) (copied b codes)).slots := (congrArg Core.slots hm4 :)
    rw [h, slots_put]
    exact (congrArg Core.slots hm3 :)
  have hfront : b.front = y3.front := hf.trans (congrArg Core.front hm3 :).symm
  obtain ⟨hfalse, htrue⟩ := winHalf_put hfront (pieces b codes.length) (copied b codes)
  refine ⟨_, (core_coreUpd k _ _).trans (congrArg (Option.map _) hy4), ?_, ?_, ?_⟩
  · rw [← hop, ← hslots]
  · rw [← hsame, ← hfalse, ← hhalf]
    rfl
  · rw [← hsame, ← htrue, ← hhalf]
    rfl

/-- A copy into a Depot region asks the banks to take its bytes (R199, R204). -/
theorem copied_region (hs : b.space = 3) (hgone : goneAt k m2 = some []) (hr : (regionOf m2 u (sdHandle b)).isSome = true) {g : Nat × Nat} (hg : g ∈ segments b (pieces b codes.length)) :
    ∃ q ∈ (afterCopy c m0 m2 k unit u a b codes tab dt).arb.later ++ (afterCopy c m0 m2 k unit u a b codes tab dt).arb.waiting,
      q.write = true ∧ q.who = k ∧ q.unit = unit ∧ q.addr = g.1 ∧ q.n = g.2
        ∧ q.depot = (if sdHandle b = 0xFFFF then some (true, 2 ^ 20 * u.desc + u.q) else some (false, sdHandle b))
        ∧ q.data = bread (bufPut [] (pieces b codes.length) (copied b codes)) g.1 g.2 := by
  obtain ⟨r, hr⟩ := Option.isSome_iff_exists.1 hr
  have hreg : regionOf (dstPut (acsOf m0 k unit u b) (pieces b codes.length) (copied b codes) (tookCodes c (acsOf m0 k unit u a) (sdCount a) tab m2)) u (sdHandle b) = some r := by
    have h1 := view_of_moving (fun m => regionOf m u (sdHandle b)) (fun _ => rfl) (moving_dstPut (acsOf m0 k unit u b) (pieces b codes.length) (copied b codes) (tookCodes c (acsOf m0 k unit u a) (sdCount a) tab m2))
    have h2 := view_of_moving (fun m => regionOf m u (sdHandle b)) (fun _ => rfl) (moving_tookCodes c (acsOf m0 k unit u a) (sdCount a) tab m2)
    exact h1.trans (h2.trans hr)
  have hask := segReq_region (x := acsOf m0 k unit u b) hs hreg c dt (bufPut [] (pieces b codes.length) (copied b codes)) g
  obtain ⟨q, hq, d, n, rfl⟩ := wroteCodes_made (c := c) (x := acsOf m0 k unit u b) (tab := dt) (codes := codes) (.inr hs) (goneAt_tookCodes (c := c) (x := acsOf m0 k unit u a) (n := sdCount a) (tab := tab) hgone) hg
    (r := regionReq c (acsOf m0 k unit u b) r (bufPut [] (pieces b codes.length) (copied b codes)) g) rfl
    (only_mem hask)
  exact ⟨_, hq, rfl, rfl, rfl, rfl, rfl, rfl, rfl⟩

/-- A copy into device memory asks the memory ports to take its bytes (R182). -/
theorem copied_memory (hs : b.space = 0) (hgone : goneAt k m2 = some []) {g : Nat × Nat} (hg : g ∈ segments b (pieces b codes.length)) {p : Nat} (hp : tabFind dt (g.1 / 64) = some (.dev p)) :
    ∃ q ∈ (afterCopy c m0 m2 k unit u a b codes tab dt).arb.later ++ (afterCopy c m0 m2 k unit u a b codes tab dt).arb.waiting,
      q.write = true ∧ q.who = k ∧ q.unit = unit ∧ q.addr = p + g.1 % 64 ∧ q.n = g.2
        ∧ q.data = bread (bufPut [] (pieces b codes.length) (copied b codes)) g.1 g.2 := by
  have hask := segReq_dev (x := acsOf m0 k unit u b) hs hp c (dstPut (acsOf m0 k unit u b) (pieces b codes.length) (copied b codes) (tookCodes c (acsOf m0 k unit u a) (sdCount a) tab m2))
    (bufPut [] (pieces b codes.length) (copied b codes))
  obtain ⟨q, hq, d, n, rfl⟩ := wroteCodes_made (c := c) (x := acsOf m0 k unit u b) (tab := dt) (codes := codes) (.inl hs) (goneAt_tookCodes (c := c) (x := acsOf m0 k unit u a) (n := sdCount a) (tab := tab) hgone) hg
    (r := memReq c (acsOf m0 k unit u b) p (bufPut [] (pieces b codes.length) (copied b codes)) g) rfl
    (only_mem hask)
  exact ⟨_, hq, rfl, rfl, rfl, rfl, rfl, rfl⟩

end

end Sys2Proof.Machine
end

section
/-! SUPPORT. The loads through SU-D, and O13 (R48, R66, R99, R118). -/

namespace Sys2Proof.Machine
open Sys2Proof

/-! ### Maps written entry by entry -/

section
variable {α β : Type} (key : β → Nat) (val : β → α)

theorem mget_writes_out {j : Nat} : ∀ (l : List β) (b : Map α), (∀ p ∈ l, j ≠ key p) → mget (l.foldl (fun b p => mset b (key p) (val p)) b) j = mget b j := by
  intro l
  induction l with
  | nil => intro b _; rfl
  | cons p r ih =>
    intro b h
    rw [List.foldl_cons, ih _ fun q hq => h q (List.mem_cons_of_mem _ hq), mget_mset_ne _ _ (h p List.mem_cons_self)]

theorem mget_writes {p : β} : ∀ (l : List β) (b : Map α), l.Pairwise (fun p q => key p ≠ key q) → p ∈ l → mget (l.foldl (fun b p => mset b (key p) (val p)) b) (key p) = some (val p) := by
  intro l
  induction l with
  | nil => intro b _ h; cases h
  | cons q r ih =>
    intro b hl hp
    obtain ⟨hq, hr⟩ := List.pairwise_cons.1 hl
    rw [List.foldl_cons]
    rcases List.mem_cons.1 hp with rfl | hp
    · rw [mget_writes_out key val r _ hq, mget_mset]
    · exact ih _ hr hp

end

/-! ### Loads (R66, R99, R118) -/

section
variable {s : State} {k n : Nat} {x : Core} {u : TileCmd} {r : Role} {src : Tmpl} {st : Option Nat} {go : Core → Bool} {more : Core → TileCmd → Option (Nat × Nat)}
  {f : TileCmd → Sd → List Byte → Core → Core} {a : Sd} {m1 : Mach} {l : List Byte} {tab : LineTab}

/-- A load whose checks pass and whose bytes have come. -/
theorem loadOp_loads (hi : issues k 3 s x u) (ha : a = sdOf x u src) (hc : sdCheck s.q u (r.on x 3 a) n (paramSlot src.base.c) a = none) (hm : more x u = none) (hg : go x = true)
    (hb : srcBytes s.c (acsOf s.q k 3 u a) (pieces a n) s.q = (m1, .ok (l, tab))) :
    loadOp s.c k n r src st go more f s.q = pushOp k 3 st.toList (usesOf a) false (coreUpd k (f u a l) (tookCodes s.c (acsOf s.q k 3 u a) n tab m1)) := by
  subst ha
  unfold loadOp
  rw [withOp_issues _ hi.2]
  dsimp only
  rw [hc, hm, hg]
  dsimp only [firstFail, List.filterMap_cons, id, List.filterMap_nil, List.foldl_nil]
  rw [if_neg (by decide), hb]

/-- A load whose checks pass and which must wait. -/
theorem loadOp_waits (hi : issues k 3 s x u) (hc : sdCheck s.q u (r.on x 3 (sdOf x u src)) n (paramSlot src.base.c) (sdOf x u src) = none) (hm : more x u = none) (hg : go x = false) :
    loadOp s.c k n r src st go more f s.q = s.q := by
  unfold loadOp
  rw [withOp_issues _ hi.2]
  dsimp only
  rw [hc, hm, hg]
  rfl

/-- A load writes no memory. -/
theorem mem_loaded (hb : srcBytes s.c (acsOf s.q k 3 u a) (pieces a n) s.q = (m1, .ok (l, tab))) : (tookCodes s.c (acsOf s.q k 3 u a) n tab m1).mem = s.m.mem := by
  have h1 : (tookCodes s.c (acsOf s.q k 3 u a) n tab m1).mem = m1.mem := view_of_moving Mach.mem (fun _ => rfl) (moving_tookCodes ..)
  have h2 : m1.mem = s.q.mem := view_of_reading Mach.mem (fun _ => rfl) (reading_srcBytes hb)
  exact h1.trans h2

/-- A core that has taken a load: what it had, but for what streams touch, with the load's effect. -/
theorem core_loaded {y : Core} (hy : m1.cores[k]? = some y) (c : Cfg) (m0 : Mach) (stamps uses : List Nat) :
    ∃ y' z, (pushOp k 3 stamps uses false (coreUpd k (f u a l) (tookCodes c (acsOf m0 k 3 u a) n tab m1))).cores[k]? = some z ∧ y'.moving = y.moving
      ∧ z.codebooks = (f u a l y').codebooks ∧ z.tables = (f u a l y').tables ∧ z.wstore = (f u a l y').wstore := by
  obtain ⟨y', hy', hm⟩ := core_of_moving (moving_tookCodes c (acsOf m0 k 3 u a) n tab m1) hy
  have hf : (coreUpd k (f u a l) (tookCodes c (acsOf m0 k 3 u a) n tab m1)).cores[k]? = some (f u a l y') := by rw [core_coreUpd, hy']; rfl
  exact ⟨y', _, (core_coreUpd k _ _).trans (congrArg (Option.map _) hf), hm, rfl, rfl, rfl⟩

end

/-! ### Weights (R118) -/

/-- Places of a weight store, row after row of 256 columns. -/
theorem weightPlace_inj {w i j : Nat} (hw : w ≤ 256) (h : 256 * (i / max 1 w) + i % max 1 w = 256 * (j / max 1 w) + j % max 1 w) : i = j := by
  have hpos : 0 < max 1 w := by omega
  have hi := Nat.mod_lt i hpos
  have hj := Nat.mod_lt j hpos
  have hdiv : i / max 1 w = j / max 1 w := by omega
  rw [← Nat.div_add_mod i (max 1 w), ← Nat.div_add_mod j (max 1 w), hdiv]
  omega

/-- No place of a list is counted twice. -/
theorem pairwise_zipIdx {α : Type} (l : List α) : l.zipIdx.Pairwise fun p q => p.2 ≠ q.2 := by
  have h : (l.zipIdx.map Prod.snd).Nodup := by
    rw [List.zipIdx_map_snd]
    exact List.nodup_range'
  exact List.pairwise_map.1 h

/-- The weight that element `i` of a stream stores: its value as FP32 under its column's zero point and scale. -/
def storedWeight (x : Core) (t : TileCmd) (e : ElemSrc) (s : Sd) (n w gs i v : Nat) : Nat :=
  elemF x t e (if s.kind = 4 then 0xC else s.fmt) (zpGrainVal x t (if s.kind = 4 then 0xC else s.fmt) (n / max 1 w) (i % max 1 w) (i / max 1 w) (weightZp e.zp))
    (i % max 1 w * gs + i / max 1 w / max 1 (groupSize e.group)) v

section
variable {s : State} {k n : Nat} {x y : Core} {u : TileCmd} {p : Tmpl} {st : Option Nat} {a : Sd} {m1 : Mach} {l : List Byte} {tab : LineTab} (hi : issues k 3 s x u) (ha : a = sdOf x u p)
  (hb : srcBytes s.c (acsOf s.q k 3 u a) (pieces a n) s.q = (m1, .ok (l, tab))) (hy : m1.cores[k]? = some y)
include hi ha hb hy

/-- CODEBOOK writes the entries of its slot (R48). -/
theorem codebook_loads {slot size : Nat} (hslot : slot < 4) (hsize : size = 16 ∨ size = 256) (hn : n = loadCount p 2 (2 * size))
    (hc : sdCheck s.q u ((roleWords 0xB).on x 3 a) n (paramSlot p.base.c) a = none) :
    Runs (.codebook k slot size p st) s fun t => ∃ z, t.m.cores[k]? = some z ∧ (∀ i, i < size → mget z.codebooks (256 * slot + i) = some (leAt l (2 * i) 2))
      ∧ (∀ i, i < 256 * slot ∨ 256 * slot + size ≤ i → mget z.codebooks i = mget y.codebooks i) ∧ t.m.mem = s.m.mem := by
  subst hn
  refine Runs.ofM rfl hi.1 ?_
  dsimp only [State.m]
  unfold codebookS
  rw [if_neg (by rcases hsize with h | h <;> simp [h, hslot]), loadOp_loads hi ha hc rfl rfl hb]
  obtain ⟨y', z, hz, hm, hcb, -, -⟩ := core_loaded (f := fun _ _ l x => { x with codebooks := (List.range size).foldl (fun b i => mset b (256 * slot + i) (leAt l (2 * i) 2)) x.codebooks })
    (u := u) (a := a) (l := l) (n := loadCount p 2 (2 * size)) (tab := tab) hy s.c s.q st.toList (usesOf a)
  have hsame : y'.codebooks = y.codebooks := (congrArg Core.codebooks hm :)
  refine ⟨z, hz, fun i hlt => ?_, fun i hout => ?_, mem_loaded hb⟩
  · rw [hcb]
    exact mget_writes (256 * slot + ·) (fun i => leAt l (2 * i) 2) (List.range size) _ (List.nodup_range.imp fun h => by omega) (List.mem_range.2 hlt)
  · rw [hcb, ← hsame]
    refine mget_writes_out (256 * slot + ·) (fun i => leAt l (2 * i) 2) (List.range size) _ fun j hj => ?_
    have := List.mem_range.1 hj
    omega

/-- TABLE replaces its slot's segment table (R99). -/
theorem table_loads {slot : Nat} (hslot : slot < 2) (hused : tableUsed x slot = false) (hn : n = loadCount p 4 1036)
    (hc : sdCheck s.q u ((roleWords 0xC).on x 3 a) n (paramSlot p.base.c) a = none) :
    Runs (.table k slot p st) s fun t => ∃ z, t.m.cores[k]? = some z ∧ mget z.tables slot = some l ∧ (∀ i, i ≠ slot → mget z.tables i = mget y.tables i) ∧ t.m.mem = s.m.mem := by
  subst hn
  refine Runs.ofM rfl hi.1 ?_
  dsimp only [State.m]
  unfold tableS
  rw [if_neg (Nat.not_le.2 hslot), loadOp_loads hi ha hc rfl (by rw [hused]; rfl) hb]
  obtain ⟨y', z, hz, hm, -, htab, -⟩ := core_loaded (f := fun _ _ l x => { x with tables := mset x.tables slot l }) (u := u) (a := a) (l := l) (n := loadCount p 4 1036) (tab := tab) hy s.c s.q
    st.toList (usesOf a)
  have hsame : y'.tables = y.tables := (congrArg Core.tables hm :)
  refine ⟨z, hz, ?_, fun i hne => ?_, mem_loaded hb⟩
  · rw [htab]
    exact mget_mset ..
  · rw [htab, ← hsame]
    exact mget_mset_ne _ _ hne

/-- WSTORE writes the weights it reads, row after row of 256 columns (R118). -/
theorem wstore_loads {e : ElemSrc} {w gs : Nat} (hn : n = p.counts.foldl (· * ·) 1) (hwd : w = nth p.counts 0) (hw : w ≤ 256) (hrows : n ≤ 225 * w)
    (hgs : gs = cdiv (n / max 1 w) (max 1 (groupSize e.group))) (he : elemBad x u e (w * gs) = none)
    (hz : zpGrainBad x u (if p.kind = 4 then 0xC else p.format) w (n / max 1 w) (weightZp e.zp) = false)
    (hc : sdCheck s.q u ((⟨anyFmt, (fun q => q = 0 || q = 4), srcSpace, false, false, false⟩ : Role).on x 3 a) n (paramSlot p.base.c) a = none) :
    Runs (.wstore k p e st) s fun t => ∃ z, t.m.cores[k]? = some z ∧ t.m.mem = s.m.mem
      ∧ ∀ i v, (unpack a (pieces a n) l)[i]? = some v → mget z.wstore (256 * (i / max 1 w) + i % max 1 w) = some (storedWeight y u e a n w gs i v) := by
  subst hn hwd hgs
  refine Runs.ofM rfl hi.1 ?_
  dsimp only [State.m]
  unfold wstoreS
  dsimp only
  rw [loadOp_loads hi ha hc (by rw [he, hz, decide_eq_false (Nat.not_lt.2 hw), decide_eq_false (Nat.not_lt.2 hrows)]; rfl) rfl hb]
  obtain ⟨y', z, hz, hm, -, -, hst⟩ := core_loaded (f := fun t s l x => { x with wstore := (unpack s (pieces s (p.counts.foldl (· * ·) 1)) l).zipIdx.foldl (fun b q =>
      mset b (256 * (q.2 / max 1 (nth p.counts 0)) + q.2 % max 1 (nth p.counts 0))
        (storedWeight x t e s (p.counts.foldl (· * ·) 1) (nth p.counts 0) (cdiv (p.counts.foldl (· * ·) 1 / max 1 (nth p.counts 0)) (max 1 (groupSize e.group))) q.2 q.1)) x.wstore })
    (u := u) (a := a) (l := l) (n := p.counts.foldl (· * ·) 1) (tab := tab) hy s.c s.q st.toList (usesOf a)
  refine ⟨z, hz, mem_loaded hb, fun i v hv => ?_⟩
  have hsame (n w gs : Nat) : storedWeight y' u e a n w gs i v = storedWeight y u e a n w gs i v := (congrArg (fun y => storedWeight y u e a n w gs i v) hm :)
  rw [hst, ← hsame]
  refine mget_writes (p := (v, i)) (fun q : Nat × Nat => 256 * (q.2 / max 1 (nth p.counts 0)) + q.2 % max 1 (nth p.counts 0))
    (fun q : Nat × Nat => storedWeight y' u e a (p.counts.foldl (· * ·) 1) (nth p.counts 0) _ q.2 q.1) _ _ ?_ (List.mem_zipIdx_iff_getElem?.2 hv)
  exact (pairwise_zipIdx _).imp fun h he => h (weightPlace_inj hw he)

end

/-! ### FETCH and PUT (R136) -/

/-- What a copy whose destination can be written leaves (R124, R174, R175, R182, R204). -/
theorem copy_leaves {s : State} {k unit : Nat} {x : Core} {u : TileCmd} {r : Role} {src dst : Tmpl} {st : Option Nat} {a b : Sd} {m1 m2 : Mach} {codes : List Nat} {tab dt : LineTab} {i : Instr}
    (hi : issues k unit s x u) (hinstr : exec i s = s.runM fun c => copyOp c k unit r src dst st) (ha : a = sdOf x u src) (hb : b = sdOf x u dst)
    (hc : copyChk s.q x unit u r src dst a b = none) (hr : readCodes s.c (acsOf s.q k unit u a) (sdCount a) s.q = (m1, .ok (codes, tab)))
    (hd : dstReady s.c (acsOf s.q k unit u b) (pieces b (sdCount a)) (pack b (pieces b (sdCount a)) codes) m1 = (m2, .ok dt)) :
    Runs i s fun t => t.m.arb.nextOp = m2.arb.nextOp + 1
      ∧ (∀ y, m2.cores[k]? = some y → ∃ z, t.m.cores[k]? = some z
        ∧ z.slots = lupd y.slots unit (· ++ [⟨m2.arb.nextOp, st.toList, usesOf a ++ usesOf b, false⟩])
        ∧ (winHalf z false = if b.space = 1 then bufPut (winHalf y false) (pieces b codes.length) (copied b codes) else winHalf y false)
        ∧ (winHalf z true = if b.space = 2 then bufPut (winHalf y true) (pieces b codes.length) (copied b codes) else winHalf y true))
      ∧ (b.space = 3 → x.gone = [] → (regionOf m2 u (sdHandle b)).isSome = true → ∀ g ∈ segments b (pieces b codes.length),
          ∃ q ∈ t.m.arb.later ++ t.m.arb.waiting, q.write = true ∧ q.who = k ∧ q.unit = unit ∧ q.addr = g.1 ∧ q.n = g.2
            ∧ q.depot = (if sdHandle b = 0xFFFF then some (true, 2 ^ 20 * u.desc + u.q) else some (false, sdHandle b))
            ∧ q.data = bread (bufPut [] (pieces b codes.length) (copied b codes)) g.1 g.2)
      ∧ (b.space = 0 → x.gone = [] → ∀ g ∈ segments b (pieces b codes.length), ∀ p, tabFind dt (g.1 / 64) = some (.dev p) →
          ∃ q ∈ t.m.arb.later ++ t.m.arb.waiting, q.write = true ∧ q.who = k ∧ q.unit = unit ∧ q.addr = p + g.1 % 64 ∧ q.n = g.2
            ∧ q.data = bread (bufPut [] (pieces b codes.length) (copied b codes)) g.1 g.2)
      ∧ t.m.depot.regions = m2.depot.regions ∧ t.m.mem = s.m.mem ∧ t.c = s.c ∧ t.pending = s.pending := by
  have hx : s.q.cores[k]? = some x := (canIssue_some hi.2).1
  have hread : m2.reading = s.q.reading := (reading_dstReady hd).trans (reading_readCodes hr)
  have hmem : m2.mem = s.q.mem := view_of_reading Mach.mem (fun _ => rfl) hread
  have hgone (h : x.gone = []) : goneAt k m2 = some [] := by
    rw [goneAt_of_reading hread, goneAt, hx, Option.map_some, h]
  have hfront (y : Core) (hy : m2.cores[k]? = some y) : b.front = y.front := by
    obtain ⟨y', hy', hm⟩ := core_of_reading hread hx
    rw [hy] at hy'
    cases hy'
    rw [hb]
    exact (congrArg Core.front hm :).symm
  have hkeep {α : Type} (g : Mach → α) (hg : ∀ m, g m.moving = g m) (hcs : ∀ m cs, g { m with cores := cs } = g m) : g (afterCopy s.c s.q m2 k unit u a b codes tab dt) = g m2 :=
    afterCopy_view g hg hcs
  refine Runs.ofM hinstr hi.1 ?_
  dsimp only [State.m]
  rw [copyOp_moves hi ha hb hc hr hd]
  refine ⟨congrArg (· + 1) (hkeep (fun m => m.arb.nextOp) (fun _ => rfl) fun _ _ => rfl), fun y hy => copied_core hy (hfront y hy) _ _, fun hs h0 hreg g hg => ?_, fun hs h0 g hg p hp => ?_, ?_, ?_, rfl, rfl⟩
  · exact copied_region (c := s.c) (m0 := s.q) (a := a) (tab := tab) (dt := dt) hs (hgone h0) hreg hg
  · exact copied_memory (c := s.c) (m0 := s.q) (a := a) (tab := tab) hs (hgone h0) hg hp
  · exact hkeep (fun m => m.depot.regions) (fun _ => rfl) fun _ _ => rfl
  · exact (hkeep Mach.mem (fun _ => rfl) fun _ _ => rfl).trans hmem

/-- Settles O13: a copy's bytes go where its destination lies and as requests where it is memory or the Depot, a load's go to its slot, and
reading writes no memory. -/
theorem loadsAndCopies : Obligations.LoadsAndCopies := by
  refine ⟨?_, ?_, ?_, ?_, ?_⟩
  · intro s k unit x u r src dst st a b m1 m2 codes tab dt i hi hinstr ha hb hc hr hd
    have hexec : exec i s = s.runM fun c => copyOp c k unit r src dst st := by
      rcases hinstr with ⟨rfl, hu, rfl⟩ | ⟨rfl, rfl, rfl⟩
      · refine (rfl : exec (.fetch k unit src dst st) s = s.runM (fetchS k unit src dst st)).trans (congrArg s.runM (funext fun c => funext fun m => ?_))
        exact if_neg (Nat.not_le.2 hu)
      · rfl
    exact copy_leaves hi hexec ha hb hc hr hd
  · intro s k x u slot size p st n a m1 l tab y hi hslot hsize hn ha hc hb hy
    exact codebook_loads hi ha hb hy hslot hsize hn hc
  · intro s k x u slot p st n a m1 l tab y hi hslot hused hn ha hc hb hy
    exact table_loads hi ha hb hy hslot hused hn hc
  · intro s k x u slot p st hi hslot hused hc
    refine Runs.ofM rfl hi.1 ?_
    dsimp only [State.m]
    unfold tableS
    rw [if_neg (Nat.not_le.2 hslot)]
    exact loadOp_waits hi hc rfl (by rw [hused]; rfl)
  · intro s k x u p e st n w gs a m1 l tab y hi hn hwd hw hrows hgs he hz ha hc hb hy
    exact wstore_loads hi ha hb hy hn hwd hw hrows hgs he hz hc

end Sys2Proof.Machine
end

section
/-! SUPPORT. DRAIN: O16 (R91, R124, R130, R138, R152). -/

namespace Sys2Proof.Machine
open Sys2Proof

/-! ### The parts of a DRAIN -/

/-- The block once a DRAIN's parts have been written. -/
def partsWritten (c : Cfg) (k op : Nat) (t : TileCmd) (all : List (Sd × List Nat × LineTab)) (m : Mach) : Mach :=
  all.foldl (fun m p => wroteCodes c { acsOf m k 2 t p.1 with op := op } p.2.2 p.2.1 m) m

/-- The operations a core's slots hold. -/
def slotsAt (k : Nat) (m : Mach) : Option (List (List OpRec)) := (m.cores[k]?).map Core.slots

theorem slotsAt_of_moving {a b : Mach} (h : a.moving = b.moving) (k : Nat) : slotsAt k a = slotsAt k b := by
  have hm (m : Mach) : slotsAt k m = (m.moving.cores[k]?).map Core.slots := by
    show (m.cores[k]?).map Core.slots = ((m.cores.map Core.moving)[k]?).map Core.slots
    rw [List.getElem?_map, Option.map_map]
    rfl
  rw [hm, h, ← hm]

theorem slotsAt_wroteCodes (k : Nat) (c : Cfg) (x : Acs) (tab : LineTab) (codes : List Nat) (m : Mach) : slotsAt k (wroteCodes c x tab codes m) = slotsAt k m :=
  (slotsAt_of_moving (moving_wroteCodes ..) k).trans (view_coreUpd (slots_put _ _ _) k x.core m)

theorem slotsAt_partsWritten (c : Cfg) (k op : Nat) (t : TileCmd) (all : List (Sd × List Nat × LineTab)) (m : Mach) : slotsAt k (partsWritten c k op t all m) = slotsAt k m :=
  foldl_keeps (slotsAt k) _ (fun _ _ => slotsAt_wroteCodes ..) all m

theorem getD_lupd {α : Type} (l : List (List α)) (i : Nat) (f : List α → List α) (hf : f [] = []) : (lupd l i f).getD i [] = f (l.getD i []) := by
  rw [List.getD_eq_getElem?_getD, lupd_get, List.getD_eq_getElem?_getD]
  cases l[i]? with
  | none => exact hf.symm
  | some v => rfl

theorem getD_lupd_ne {α : Type} (l : List (List α)) {i j : Nat} (f : List α → List α) (h : j ≠ i) : (lupd l i f).getD j [] = l.getD j [] := by
  rw [List.getD_eq_getElem?_getD, lupd_get_ne _ _ h, List.getD_eq_getElem?_getD]

section
variable {s : State} {k : Nat} {x y : Core} {u : TileCmd} {d : Tmpl} {sc : Option Tmpl} {st : Option Nat} {res : Result} {op : OpRec} {m1 : Mach} {all : List (Sd × List Nat × LineTab)}

/-- The slot of the word that made a result. -/
def resultSlot (res : Result) : Nat := if res.array then 4 else 5

theorem resultSlot_ne (res : Result) : resultSlot res ≠ 2 := by
  unfold resultSlot
  split <;> decide

/-- A DRAIN whose checks pass and whose destinations can be written. -/
theorem drainS_drains (hi : issues k 2 s x u) (hr : x.result = some res) (ho : undrainedOp x (resultSlot res) = some op) (hc : drainChk s.q x u d sc res = none)
    (hp : partsGo s.c k u (drainParts s.q x u d res ++ drainScales x u sc res) s.q = (m1, .ok all)) :
    drainS k d sc st s.c s.q = resultGone k (resultSlot res) op.op st (all.flatMap fun p => usesOf p.1) (partsWritten s.c k op.op u all m1) := by
  unfold drainS
  rw [withOp_issues _ hi.2, hr]
  dsimp only
  rw [show undrainedOp x (if res.array then 4 else 5) = some op from ho]
  dsimp only
  rw [hc]
  dsimp only
  rw [hp]
  rfl

/-- The result is taken, and its operation may retire (R91, R124, R138). -/
theorem drain_releases (hi : issues k 2 s x u) (hr : x.result = some res) (ho : undrainedOp x (resultSlot res) = some op) (hc : drainChk s.q x u d sc res = none)
    (hp : partsGo s.c k u (drainParts s.q x u d res ++ drainScales x u sc res) s.q = (m1, .ok all)) (hy : m1.cores[k]? = some y) :
    Runs (.drain k d sc st) s fun t => ∃ z, t.m.cores[k]? = some z ∧ z.result = none
      ∧ z.slots.getD (resultSlot res) [] = (y.slots.getD (resultSlot res) []).map fun r => if r.op = op.op then { r with undrained := false, stamps := r.stamps ++ st.toList } else r := by
  have hslots : slotsAt k (partsWritten s.c k op.op u all m1) = some y.slots := (slotsAt_partsWritten ..).trans (by rw [slotsAt, hy]; rfl)
  obtain ⟨y', hy', hs⟩ := Option.map_eq_some_iff.1 hslots
  refine Runs.ofM rfl hi.1 ?_
  dsimp only [State.m]
  rw [drainS_drains hi hr ho hc hp]
  refine ⟨_, (core_coreUpd ..).trans (congrArg (Option.map _) hy'), rfl, ?_⟩
  dsimp only
  rw [getD_lupd_ne _ _ (resultSlot_ne res), getD_lupd _ _ _ rfl, hs]

/-- The one part of a DRAIN for a tile-command that serves one descriptor. -/
theorem drainParts_one (hu : u.merged ≤ 1) (ha : res.array = false) : drainParts s.q x u d res = [⟨u.q, sdOf x u d, res.rows.flatten⟩] := by
  have hrows : wordRows u res.rows = res.rows := by
    unfold wordRows
    dsimp only
    rw [decide_eq_true hu]
    rfl
  unfold drainParts memberParts
  dsimp only
  rw [ha, if_pos hu, if_neg (by decide), hrows]
  unfold cutMembers cutMembers
  rw [List.take_length]

/-- A V word's result without scales, drained to a window (R91, R131). -/
theorem drain_window (hi : issues k 2 s x u) (hr : x.result = some res) (ha : res.array = false) (hsc : res.scales = []) (hu : u.merged ≤ 1) (ho : undrainedOp x 5 = some op)
    (hc : drainChk s.q x u d none res = none) (hs : (sdOf x u d).space = 1) :
    Runs (.drain k d none st) s fun t => ∃ z, t.m.cores[k]? = some z ∧ t.m.mem = s.m.mem
      ∧ winHalf z false = bufPut (winHalf x false) (pieces (sdOf x u d) res.rows.flatten.length) (copied (sdOf x u d) res.rows.flatten) := by
  have hslot : resultSlot res = 5 := by rw [resultSlot, ha]; rfl
  have hready (l : List Byte) (ps : List Piece) (q : Nat) (m : Mach) : dstReady s.c { acsOf m k 2 u (sdOf x u d) with fq := q } ps l m = (m, .ok []) :=
    if_pos (by rw [show ({ acsOf m k 2 u (sdOf x u d) with fq := q } : Acs).sd.space = 1 from hs]; decide)
  have hparts : partsGo s.c k u (drainParts s.q x u d res ++ drainScales x u none res) s.q = (s.q, .ok [(sdOf x u d, res.rows.flatten, [])]) := by
    rw [drainParts_one hu ha, drainScales, if_pos hsc, List.append_nil]
    unfold partsGo
    rw [hready]
    rfl
  have hx : s.q.cores[k]? = some x := (canIssue_some hi.2).1
  have hmv := moving_wroteCodes s.c { acsOf s.q k 2 u (sdOf x u d) with op := op.op } [] res.rows.flatten s.q
  have hmem := view_of_moving Mach.mem (fun _ => rfl) hmv
  have hput : (coreUpd k (Core.put (sdOf x u d) (pieces (sdOf x u d) res.rows.flatten.length) (copied (sdOf x u d) res.rows.flatten)) s.q).cores[k]?
      = some (x.put (sdOf x u d) (pieces (sdOf x u d) res.rows.flatten.length) (copied (sdOf x u d) res.rows.flatten)) := by rw [core_coreUpd, hx]; rfl
  obtain ⟨y, hy, hm⟩ := core_of_moving hmv hput
  refine Runs.ofM rfl hi.1 ?_
  dsimp only [State.m]
  rw [drainS_drains hi hr (by rw [hslot]; exact ho) hc hparts]
  refine ⟨_, (core_coreUpd ..).trans (congrArg (Option.map _) hy), hmem, ?_⟩
  have hw : winHalf y false = winHalf (x.put (sdOf x u d) (pieces (sdOf x u d) res.rows.flatten.length) (copied (sdOf x u d) res.rows.flatten)) false := (congrArg (winHalf · false) hm :)
  refine Eq.trans hw ((winHalf_put rfl _ _).1.trans (if_pos hs))

end

/-- Settles O16: writing a DRAIN's parts leaves the slots alone, so that the operation of the result is released as it stood. -/
theorem drainTakesTheResult : Obligations.DrainTakesTheResult := by
  refine ⟨?_, ?_⟩
  · intro s k x u d sc st res op m1 all y hi hr ho hc hp hy
    exact drain_releases hi hr ho hc hp hy
  · intro s k x u d st res op hi hr ha hsc hu ho hc hs
    exact drain_window hi hr ha hsc hu ho hc hs

end Sys2Proof.Machine
end

section
/-! SUPPORT. An array word that opens a chain: O15 (R74, R137 to R140). -/

namespace Sys2Proof.Machine
open Sys2Proof

/-- One INT4 element at the start of the front half of the scratchpad. -/
def oneSd : Sd := ⟨0, 0, 1, 0, [1], [1], none, 0, 0, 0⟩

/-- A tile-command of a queue, alone in its layer. -/
def oneTile : TileCmd := soTc 3 0

/-- A core that runs it, its two streams latched. -/
def oneCore : Core := { core0 with tc := some { oneTile with ended := false }, statSd := some oneSd, moveSd := some oneSd }

/-- A block whose core 0 is so. -/
def oneState : State := { State.reset with dev := { State.reset.dev with m := { State.reset.dev.m with cores := lupd State.reset.dev.m.cores 0 fun _ => oneCore } } }

/-- The literal 1. -/
def oneAff : Aff := ⟨.lit 1, [], .lit 0⟩

/-- An MMA of one product without outliers, which opens a chain. -/
def openMma : MmaOp := { m := oneAff, k := oneAff, n := oneAff, stFmt := 0, mvFmt := 0, chain := .opn }

def openPlan : MmaPlan := mmaPlan oneState.q oneCore { oneTile with ended := false } openMma oneSd oneSd noSide

/-- What its streams give. -/
def openRead : Mach × Fe (List (List Byte × LineTab)) := readAll oneState.c 0 { oneTile with ended := false } openPlan.wants oneState.q

def openGot : List (List Byte × LineTab) := match openRead.2 with
  | .ok v => v
  | _ => []

/-- Its streams answer. -/
theorem openRead_answers : openRead.2 = .ok openGot := by decide +kernel

/-- The block with its streams read holds the core as before. -/
theorem openRead_core : openRead.1.cores[0]? = some oneCore := by decide +kernel

/-- The model opens the chain with no outlier sums. -/
theorem openMma_outl : ((mmaM 0 openMma oneState.c oneState.q).cores[0]?).map (fun z => z.chain.map (·.outl)) = some (some []) := by decide +kernel

/-- Refutes O15: its clause for an MMA gives `outlierSums` the columns in the place of the outliers and the outliers in the place of the
columns (R74). An MMA of one product without outliers that opens a chain keeps no outlier sum, where the statement asks for one empty row. -/
theorem not_arrayWords : ¬ Obligations.ArrayWords := by
  unfold Obligations.ArrayWords
  rintro ⟨-, hmma⟩
  obtain ⟨t, ht, z, hz, -, -, -, -, -, -, -, hopen, -⟩ := hmma oneState 0 oneCore { oneTile with ended := false } openMma oneSd oneSd openRead.1 openGot oneCore
    (by unfold issues; decide +kernel) rfl rfl rfl (by decide +kernel) (by decide +kernel) (Prod.ext rfl openRead_answers) openRead_core
  obtain ⟨hchain, -⟩ := hopen (.inl rfl)
  have hrun : exec (.mma 0 openMma) oneState = .next { oneState with dev := { cfg := oneState.c, m := mmaM 0 openMma oneState.c oneState.q } } :=
    runM_live oneState (mmaM 0 openMma) rfl
  have houtl := openMma_outl
  rw [← Host.Outcome.next.inj (hrun.symm.trans ht)] at hz
  rw [show (mmaM 0 openMma oneState.c oneState.q).cores[0]? = some z from hz, Option.map_some, hchain] at houtl
  exact absurd houtl (by decide +kernel)

end Sys2Proof.Machine
end
